-- ==== Sys2Proof/Word.lean ====
section
/-! DEFINITION. The byte and the mass, and their plainest arithmetic (00_scope.md, Quantities). -/
namespace Sys2Proof

/-- One byte of a frame or of the configuration memory. -/
abbrev Byte := BitVec 8

/-- A mass in 0.1 kg units, 0 to 16,777,215 (00_scope.md, Quantities). -/
abbrev Mass := Nat

/-- The largest mass. -/
abbrev massMax : Nat := 16777215

/-- A sum of masses takes the end value past the end of its range (00_scope.md, Quantities). -/
def satMass (n : Nat) : Mass := min n massMax

end Sys2Proof
end

