-- ==== Sys2Proof/Syntax.lean ====
section
/-! DEFINITION. The commands of the node: one constructor for each row of spec/opcode_table.json, with the
operands the model gives the row (notes/assumptions/4.md). -/
namespace Sys2Proof

/-- The levels of the inputs the node reads at a start (R157, R182, R188; R107, R114, R117). -/
structure Inputs where
  stopLine      : Bool
  localStop     : Bool
  bagClamp      : Bool
  surgeEmpty    : Bool
  mixerEmpty    : Bool
  pressBinEmpty : Bool
  deriving DecidableEq, Repr

/-- A frame as it stands on the line, less its length byte, which is the payload's length (R193). -/
structure RawFrame where
  kind    : Byte
  source  : Byte
  payload : List Byte
  check   : BitVec 16
  deriving DecidableEq, Repr

/-- Where a request comes from: a frame of the inbound queue, or the node's own input (R179, R181, R184, R82, R119, R121). -/
inductive Origin
  | frame | input
  deriving DecidableEq, Repr

/-- Where an ACK comes from, and whether the bus line stands idle in its event (R196, R199; notes/assumptions/12.md). -/
structure AckOrigin where
  origin : Origin
  idle   : Bool
  deriving DecidableEq, Repr

/-- The stages that have a stage record (R103). -/
inductive StageId
  | surge | mixer | press
  deriving DecidableEq, Repr

/-- The two load-following feeder loops (R97). -/
inductive LoopId
  | grinder | press
  deriving DecidableEq, Repr

/-- The lamps that can flash (R186). -/
inductive LampId
  | fault | run
  deriving DecidableEq, Repr

/-- The commands. -/
inductive Instr
  /-- POWER_ON: the eleven strap levels (bit 0 is pin 1), the bytes the configuration memory answered, the input levels. -/
  | powerOn (pins : BitVec 11) (memory : List Byte) (inputs : Inputs)
  /-- RESET_ASSERT. -/
  | resetAssert
  /-- WARM_RESET: the input levels as the pin is released. -/
  | warmReset (inputs : Inputs)
  /-- LISTENING_END: 240 bit times of 1. -/
  | listeningEnd
  /-- FRAME_RECEIVED: the frame whose last character has been appended. -/
  | frameReceived (f : RawFrame)
  /-- TRANSMIT_ATTEMPT: the count of further bit times of continued idle (R199). -/
  | transmitAttempt (idle : Nat)
  /-- ATTEMPT_LOST. -/
  | attemptLost
  /-- ATTEMPT_COMPLETE. -/
  | attemptComplete
  | time
  | offer
  | claim
  | take
  | yieldReceived
  | relevel
  | cancel
  | quarantine
  | intake
  | level
  | drawNotice
  | drawReport
  | hello
  | truckPlan
  | bayHold
  | loaded
  /-- ACK: where it comes from, and whether the line stands idle in its event (R196, R199). -/
  | ack (origin : AckOrigin)
  | pause (origin : Origin)
  | resume (origin : Origin)
  | dumpScale (origin : Origin)
  | dumpSurge (origin : Origin)
  | dumpMixer (origin : Origin)
  | dumpPress (origin : Origin)
  | dumpFinished (origin : Origin)
  | localStopInput (active : Bool)
  | stopAsserted
  | stopReleased
  | handAddDone
  | bagClamp (present : Bool)
  | surgeEmptyInput (empty : Bool)
  | mixerEmptyInput (empty : Bool)
  | pressBinEmptyInput (empty : Bool)
  /-- SCALE_SAMPLE: the signed 24-bit raw count (R88). -/
  | scaleSample (count : BitVec 24)
  | bucketSample (count : BitVec 24)
  | finishedBinSample (count : BitVec 24)
  /-- CURRENT_SAMPLE: 0 to 4,095 in 0.1 A (R97). -/
  | currentSample (loop : LoopId) (current : BitVec 12)
  /-- TEMPERATURE_SAMPLE: 0.1 °C, signed (notes/assumptions/26.md). -/
  | temperatureSample (temperature : BitVec 16)
  /-- LEVEL_SENSOR_READING: the level bin record whose sensor it is, and the per-mille read. -/
  | levelSensorReading (sensor : Fin 4) (reading : BitVec 16)
  | oneSecondEvent
  | staleAgeExpiry (bin : Nat)
  | peerDrawAgeExpiry (node batch bin : Nat)
  | bayTimeStep
  | bayTimerExpiry (bay : Nat)
  | bayLost
  | claimWindowExpiry (order : Nat)
  | settleTimeout
  | stallTimerExpiry
  | jogTimerExpiry
  | residueTimerExpiry
  | grindRunoutExpiry
  | mixTimerExpiry
  | mixerRunoutExpiry
  | dischargeTimeout
  | pressRunoutExpiry
  | condLow
  | overloadTimerExpiry (loop : LoopId)
  | dumpRunoutExpiry (stage : StageId)
  | finishedDumpTimerExpiry
  | fillTimerExpiry
  | baggerSettleTimeout
  | baggerJogTimerExpiry
  | dischargeTimerExpiry
  | contentionTimerExpiry
  | renewalTimerExpiry
  | loadoutSettleTimeout
  | flashTimerExpiry (lamp : LampId)
  /-- CHARACTER_RECEIVED: the line at ticks 7, 8 and 9 of each of the 12 bit times; bits 3k, 3k+1, 3k+2 are bit time k+1. -/
  | characterReceived (samples : BitVec 36)
  deriving DecidableEq, Repr

end Sys2Proof
end

