-- ==== Sys2Proof/Decode.lean ====
section
/-! DEFINITION. The commands that a word spells by the table's bits: no row of spec/opcode_table.json gives any bits
(spec/98_reader.md: 75 rows unread, none with fixed bits or fields), so no word spells a command. -/
namespace Sys2Proof

/-- The command a word of the table spells: none. -/
def decodeTableWord (_nbits _w : Nat) : Option Instr := none

end Sys2Proof
end

