-- ==== Sys2Proof/Config.lean ====
section
/-! DEFINITION. What the straps and the configuration memory fix for a node (R203, R204), and the free values: what the
manual leaves open. The free values have no body, so no proof can lean on a value of them. -/
namespace Sys2Proof

/-- A converter's zero count and calibration multiplier (R87, R88). -/
structure ConverterParams where
  zero : Int
  mult : Nat
  deriving DecidableEq, Repr

/-- A channel record of the configuration memory; bin 0 names no bin (R62, R204). -/
structure ChannelParams where
  bin        : Nat
  slowMargin : Nat
  initial    : Nat
  fMax       : Nat
  jogTime    : Nat
  minDose    : Nat
  deriving DecidableEq, Repr

/-- A level bin of the configuration memory; bin 0 names none (R59, R204). -/
structure LevelParams where
  bin      : Nat
  capacity : Nat
  deriving DecidableEq, Repr

/-- A feeder loop's parameters (R97, R98). -/
structure LoopParams where
  setpoint      : Nat
  trip          : Nat
  resume        : Nat
  gain          : Nat
  startSpeed    : Nat
  overloadLimit : Nat
  deriving DecidableEq, Repr

/-- The loaded configuration, region by region of R204. -/
structure Params where
  scale            : ConverterParams
  bucket           : ConverterParams
  finished         : ConverterParams
  batchSize        : Nat
  minBatch         : Nat
  scaleCapacity    : Nat
  stableBand       : Nat
  zeroBand         : Nat
  emptyBand        : Nat
  settleTimeout    : Nat
  stallWindow      : Nat
  stallMinimum     : Nat
  absTolerance     : Nat
  relTolerance     : Nat
  adaptGain        : Nat
  jogLimit         : Nat
  channels         : List ChannelParams
  levels           : List LevelParams
  /-- 64 entries, row by row; row 0 and column 0 are 0 once loaded (R127). -/
  matrix           : List Nat
  flushIngredient  : Nat
  flushMass        : Nat
  flushTemperature : Nat
  mixTime          : Nat
  grindRunout      : Nat
  mixerRunout      : Nat
  pressRunout      : Nat
  dischargeTimeout : Nat
  grinder          : LoopParams
  press            : LoopParams
  condBand         : Nat
  condTimeout      : Nat
  steamGain        : Nat
  finishedCapacity : Nat
  baggerSlow       : Nat
  baggerInitial    : Nat
  baggerFMax       : Nat
  baggerJogTime    : Nat
  baggerJogLimit   : Nat
  bagTolerance     : Nat
  chargeLimit      : Nat
  spoutF           : Nat
  holdDuration     : Nat
  renewalPeriod    : Nat
  guardTime        : Nat
  contentionWindow : Nat
  claimWindow      : Nat
  batchCycle       : Nat
  peerDrawAge      : Nat
  staleAge         : Nat
  bagAllowance     : Nat
  levelSendPeriod  : Nat
  levelStep        : Nat
  deriving DecidableEq, Repr

/-- What the eleven strap pins say (R203). -/
structure Straps where
  node    : Nat
  /-- The two rate pins, 0 to 3. -/
  rate    : Nat
  /-- Pin 8: the 16 MHz clock. -/
  fast    : Bool
  press   : Bool
  bagger  : Bool
  loadout : Bool
  deriving DecidableEq, Repr

/-- Free value (notes/assumptions/10.md): the temperature a COND_LOW notice reports when no temperature sample has been
taken since the start. -/
opaque Config.freeTemperature : Nat → BitVec 16

/-- Free value (notes/assumptions/10.md): the three bytes of a notice field whose value does not fit them. -/
opaque Config.freeField24 : Int → BitVec 24

/-- Free value (notes/assumptions/10.md): the two bytes of a notice field whose value does not fit them. -/
opaque Config.freeField16 : Int → BitVec 16

end Sys2Proof
end

