-- ==== Sys2Proof/Machine/State.lean ====
section
/-! DEFINITION. Every piece of state the manual gives the node, as plain data, and State.reset: the node before power is
applied (notes/assumptions/1.md). -/
namespace Sys2Proof.Machine

/-! ### Timers -/

/-- A timer of the node. It holds the time it was started with; that it runs out is told by its expiry command
(notes/assumptions/6.md). -/
inductive Timer
  | stopped
  | running (full : Nat)
  | frozen (full : Nat)
  /-- Run out, where a rule goes on reading that it has (R149). -/
  | expired
  deriving DecidableEq, Repr

/-! ### Orders and batches (R2, R19) -/

inductive Form
  | mash | pellet
  deriving DecidableEq, Repr

inductive OrderState
  | claiming | held | active | draining
  deriving DecidableEq, Repr

inductive Delivery
  | bagged (size bags : Nat)
  | bulk (mass : Nat)
  deriving DecidableEq, Repr

/-- A component of a formula: an ingredient code and a share in parts per 10,000. -/
structure Component where
  code  : Nat
  share : Nat
  deriving DecidableEq, Repr

structure MakeUp where
  mass     : Nat
  batches  : Nat
  admitted : Nat
  deriving DecidableEq, Repr

/-- The plan of the current run (R2). `n` is unset while CLAIMING (R31). -/
structure Plan where
  n            : Option Nat
  admitted     : Nat
  finished     : Nat
  massFinished : Mass
  bags         : Nat
  makeUp       : Option MakeUp
  deriving DecidableEq, Repr

/-- The wait reasons of an order (R13, R14). -/
structure Waits where
  short       : Bool
  truck       : Bool
  flush       : Bool
  quarantine  : Bool
  finishedBin : Bool
  deriving DecidableEq, Repr

/-- The mass of an ingredient still reserved for an order, or reserved in the table (R2, R52). -/
structure Reservation where
  code : Nat
  mass : Mass
  deriving DecidableEq, Repr

/-- A claim or take as it is ranked: node number and lead (R32). -/
structure Rival where
  node : Nat
  lead : Nat
  deriving DecidableEq, Repr

/-- An order record (R2), with the best rival and claim timer of its slot (R31, R32). -/
structure Order where
  id         : Nat
  level      : Nat
  group      : Nat
  runCount   : Nat
  form       : Form
  target     : Option Nat
  cls        : Nat
  delivery   : Delivery
  formula    : List Component
  runMass    : Nat
  plan       : Plan
  state      : OrderState
  waits      : Waits
  lead       : Nat
  takeOrder  : Option Nat
  started    : Bool
  cancelled  : Bool
  remainders : List Reservation
  rival      : Option Rival
  claimTimer : Timer
  deriving DecidableEq, Repr

inductive BatchKind
  | product | flush
  deriving DecidableEq, Repr

/-- A batch record (R19). -/
structure Batch where
  number : Nat
  kind   : BatchKind
  order  : Option Nat
  makeUp : Bool
  mass   : Mass
  form   : Form
  target : Option Nat
  cls    : Nat
  rework : Bool
  short  : Bool
  /-- The OVER flag. -/
  excess : Bool
  deriving DecidableEq, Repr

/-- A carry-over record (R128). -/
structure CarryRec where
  cls     : Nat
  flushes : Nat
  deriving DecidableEq, Repr

structure Carry where
  scale : CarryRec
  surge : CarryRec
  mixer : CarryRec
  press : CarryRec
  deriving DecidableEq, Repr

/-! ### The Bin View (R42 to R61) -/

inductive Quarantine
  | unknown | on | off
  deriving DecidableEq, Repr

structure BinEntry where
  bin          : Nat
  ingredient   : Option Nat
  estimate     : Option Mass
  reporter     : Option Nat
  age          : Nat
  quarantine   : Quarantine
  stale        : Bool
  uncertain    : Bool
  emptySuspect : Bool
  channel      : Option Nat
  deriving DecidableEq, Repr

structure PeerDraw where
  node   : Nat
  batch  : Nat
  bin    : Nat
  target : Mass
  age    : Nat
  deriving DecidableEq, Repr

inductive DrawStatus
  | planned | drawing | done
  deriving DecidableEq, Repr

structure PlanEntry where
  position   : Nat
  ingredient : Nat
  target     : Mass
  bin        : Nat
  drawn      : Mass
  status     : DrawStatus
  deriving DecidableEq, Repr

structure DrawPlan where
  batch   : Nat
  flush   : Bool
  entries : List PlanEntry
  deriving DecidableEq, Repr

structure LevelRec where
  bin      : Nat
  lastSent : Option Mass
  since    : Nat
  deriving DecidableEq, Repr

/-! ### Weighing (R62 to R91) -/

/-- A weight converter (R87). -/
structure Converter where
  zero     : Int
  mult     : Nat
  gross    : List Int
  filtered : List Int
  raw      : List Int
  stable   : Bool
  deriving DecidableEq, Repr

inductive FeedRate
  | off | slow | fast
  deriving DecidableEq, Repr

/-- A feeder channel record (R62); bin 0 is no bin. -/
structure Channel where
  number     : Nat
  bin        : Nat
  slowMargin : Nat
  fMax       : Nat
  jogTime    : Nat
  minDose    : Nat
  inFlight   : Nat
  output     : FeedRate
  deriving DecidableEq, Repr

inductive SettlePurpose
  | first | jog | resume | handAdd
  deriving DecidableEq, Repr

/-- The weigh cycle states. JOG says whether its pulse runs. -/
inductive ScaleState
  | idle | tare | feedFast | feedSlow
  | settle (purpose : SettlePurpose)
  | jog (pulse : Bool)
  | handAdd | held | complete | discharge | dumping | unknown
  deriving DecidableEq, Repr

inductive DoseMode
  | feed | jogOnly | hand | nothing
  deriving DecidableEq, Repr

inductive DoseStatus
  | waiting | inProgress | done
  deriving DecidableEq, Repr

/-- WITHIN, SHORT and OVER (R63). -/
inductive DoseOutcome
  | within | short | excess
  deriving DecidableEq, Repr

/-- A dose record (R63). -/
structure Dose where
  position    : Nat
  ingredient  : Nat
  target      : Mass
  mode        : Option DoseMode
  status      : DoseStatus
  tare        : Option Int
  reported    : Mass
  jogs        : Nat
  e1          : Option Int
  interrupted : Bool
  announced   : Bool
  outcome     : Option DoseOutcome
  deriving DecidableEq, Repr

/-- The batch in the scale (R63). -/
structure ScaleBatch where
  record    : Batch
  doses     : List Dose
  firstTare : Option Int
  deriving DecidableEq, Repr

/-- Where HELD returns to (R74). `tare true` is TARE after a NO_SOURCE at the component's start, where the Bin View is
asked again; `accept` carries the outcome the accepted fault gives (R75). -/
inductive ResumePoint
  | tare (ask : Bool) | rechoose | resumeSettle | handAddSettle
  | accept (outcome : DoseOutcome)
  | idle | complete | discharge | unknown
  deriving DecidableEq, Repr

/-! ### Faults and notices (R183, R187) -/

/-- The keys of the fault table, in the order of the fault kind catalogue. -/
inductive FaultKey
  | overdose | underdose | stall | unstable | quarantineCut | noSource | scaleOverload | scaleResidue
  | grinderOverload | pressOverload | condLow | dischargeTimeout
  | chargeReject | residue | bayLost | compartmentFull
  | duplicateTake | shortStock | missedDeparture | compartmentSmall | truckTableFull
  | rxDrop | txAbandon | addressClash | unaccounted | resumeRefused
  deriving DecidableEq, Repr

inductive FaultUnit
  | dosing | grinder | mixer | press | bagger | loadout | orders | bus | line
  deriving DecidableEq, Repr

inductive Severity
  | stop | hold | note
  deriving DecidableEq, Repr

/-- A fault record (R183); its unit and severity follow from its key. -/
structure FaultRecord where
  key       : FaultKey
  count     : Nat
  first     : Option Nat
  last      : Option Nat
  reference : Option Nat
  acked     : Bool
  deriving DecidableEq, Repr

/-- A field of a FAULT notice's detail, by its width (R194). -/
inductive DetailField
  | wide (value : Int)
  | mass (value : Mass)
  | word (value : Int)
  | byte (value : Nat)
  /-- The temperature no sample has given: the free value of this number (notes/assumptions/10.md). -/
  | freeWord (index : Nat)
  deriving DecidableEq, Repr

inductive LineState
  | run | pausing | paused | stopped
  deriving DecidableEq, Repr

inductive LineCause
  | pause | pauseComplete | resume | stopAsserted | stopReleased | reset
  deriving DecidableEq, Repr

/-- A notice: a topic with its fields (R187). `tally` is bags counted or mass finished. -/
inductive Notice
  | fault (record : FaultRecord) (detail : List DetailField)
  | lineState (state : LineState) (cause : LineCause)
  | runDone (order runCount tally batches : Nat)
  | orderDone (order tally batches : Nat)
  | orderCancelled (order tally batches : Nat)
  | handAdd (batch ingredient target : Nat)
  | batchOffWeight (batch : Nat) (order : Option Nat) (short excess rework : Bool) (net : Nat)
  deriving DecidableEq, Repr

/-! ### The Bus Port (R190 to R202) -/

inductive ResetKind
  | powerOn | warm
  deriving DecidableEq, Repr

/-- A frame the node sends, by kind, with its payload's fields (R194). -/
inductive Body
  | claim (order lead : Nat)
  | take (order lead : Nat) (started : Bool)
  | yielded (order : Nat)
  | level (bin mass : Nat)
  | drawNotice (batch : Nat) (pairs : List (Nat × Nat))
  | drawReport (batch bin actual : Nat)
  | bayHold (bay truck duration : Nat) (loading : Bool)
  | loaded (truck compartment order mass : Nat)
  | notice (n : Notice)
  | hello (node : Nat) (press bagger loadout : Bool) (kind : ResetKind)
  deriving DecidableEq, Repr

/-- An entry of the outbound queue (R198, R199). -/
structure OutEntry where
  body     : Body
  attempts : Nat
  underWay : Bool
  deriving DecidableEq, Repr

/-- The receive assembler: assembling holds the characters' bytes so far, the kind first (R195). -/
inductive Assembler
  | hunting
  | assembling (bytes : List Byte)
  deriving DecidableEq, Repr

/-- The Bus Port's receiving side. -/
structure Receiver where
  assembler : Assembler
  inbound   : List RawFrame
  idle      : Option Nat
  /-- ADDRESS_CLASH was acknowledged in the idle under way, which begins no attempt (R196). -/
  barred    : Bool
  listening : Bool
  resetKind : ResetKind
  /-- The frame whose attempt has completed and whose readback has not been heard (R196, notes/assumptions/11.md). -/
  readback  : Option RawFrame
  /-- The readback of the attempt under way has been heard. -/
  seen      : Bool
  deriving DecidableEq, Repr

/-! ### The Process Train (R102 to R125) -/

inductive StageState
  | empty | busy | done | held | unknown
  deriving DecidableEq, Repr

inductive Phase
  | receiving | grinding | mixing | discharging | pressing | dumping
  deriving DecidableEq, Repr

inductive Dest
  | mixer | press | finished | rework
  deriving DecidableEq, Repr

inductive StageResume
  | phase (p : Phase)
  | empty
  deriving DecidableEq, Repr

/-- A stage record (R103). -/
structure StageRec where
  state  : StageState
  phase  : Option Phase
  batch  : Option Batch
  dest   : Option Dest
  resume : Option StageResume
  deriving DecidableEq, Repr

inductive LoopMode
  | idle | running | overload
  deriving DecidableEq, Repr

/-- A feeder loop (R97, R98); `current` is that of the last sample it took. -/
structure FeedLoop where
  mode    : LoopMode
  speed   : Nat
  timer   : Timer
  current : Option Nat
  deriving DecidableEq, Repr

/-- The steam valve loop (R99); `last` is the last temperature sampled. -/
structure Steam where
  valve   : Nat
  running : Bool
  target  : Option Nat
  inBand  : Bool
  last    : Option Int
  deriving DecidableEq, Repr

/-- Loops, motors' hold and timers of the train. -/
structure Train where
  grinder        : FeedLoop
  presser        : FeedLoop
  steam          : Steam
  motorsHeld     : Bool
  grindRunout    : Timer
  mix            : Timer
  mixerRunout    : Timer
  dischargeLimit : Timer
  pressRunout    : Timer
  conditioning   : Timer
  surgeDump      : Timer
  mixerDump      : Timer
  pressDump      : Timer
  finishedDump   : Timer
  deriving DecidableEq, Repr

/-- The finished bin record (R111). -/
structure FinishedBin where
  order     : Option Nat
  mass      : Option Mass
  entering  : Bool
  dumping   : Bool
  cancelled : Bool
  unknown   : Bool
  deriving DecidableEq, Repr

/-! ### The Packing Unit (R141 to R178) -/

inductive BaggerMode
  | bagging | bagEnd | remainder
  deriving DecidableEq, Repr

inductive BucketPurpose
  | first | jog | resume
  deriving DecidableEq, Repr

inductive Bucket
  | empty
  | filling (fast : Bool)
  | settling (purpose : BucketPurpose)
  | jog (pulse : Bool)
  | charged
  | discharging
  | unknown (emptying : Bool)
  deriving DecidableEq, Repr

inductive Outlet
  | bag | chute
  deriving DecidableEq, Repr

inductive RejectCause
  | reject | void
  deriving DecidableEq, Repr

/-- A charge record (R141). -/
structure Charge where
  order       : Nat
  target      : Nat
  tare        : Int
  jogOnly     : Bool
  jogs        : Nat
  e1          : Option Int
  interrupted : Bool
  outlet      : Outlet
  cause       : Option RejectCause
  deriving DecidableEq, Repr

inductive BagSpout
  | vacant | ready | receiving | filled
  deriving DecidableEq, Repr

/-- The bagger record, bucket, charge and spout (R141), with the bagger's timers. -/
structure Bagger where
  mode      : BaggerMode
  inFlight  : Nat
  zeroed    : Bool
  bucket    : Bucket
  charge    : Option Charge
  spout     : BagSpout
  fill      : Timer
  settle    : Timer
  jog       : Timer
  discharge : Timer
  deriving DecidableEq, Repr

inductive HoldState
  | nothing | taking | contending | held
  deriving DecidableEq, Repr

/-- The own hold (R166): `sent` says that a hold of this take was transmitted (R171), `stepped` that a step has run in
this hold (R173). -/
structure OwnHold where
  state      : HoldState
  bay        : Option Nat
  truck      : Option Nat
  comp       : Option Nat
  loading    : Bool
  remaining  : Nat
  contention : Timer
  renewal    : Timer
  sent       : Bool
  stepped    : Bool
  deriving DecidableEq, Repr

inductive CloseCause
  | empty | full | guard | line | entering | bin | target
  deriving DecidableEq, Repr

/-- A loadout step (R172): `cause` is absent while the spout is OPEN and present while SETTLING. `truck` and `comp` are
the target the step loads. -/
structure LoadStep where
  truck  : Nat
  comp   : Nat
  order  : Nat
  weight : Int
  base   : Mass
  cause  : Option CloseCause
  deriving DecidableEq, Repr

/-! ### The Delivery Table (R159 to R165) -/

inductive CompState
  | opened | loading | loaded | full
  deriving DecidableEq, Repr

structure Compartment where
  capacity : Nat
  order    : Option Nat
  mass     : Mass
  state    : CompState
  here     : Bool
  refused  : Bool
  noted    : Bool
  deriving DecidableEq, Repr

structure Truck where
  truck     : Nat
  bay       : Option Nat
  departure : Option Nat
  comps     : List Compartment
  deriving DecidableEq, Repr

structure BayTimer where
  holder    : Option Nat
  remaining : Nat
  deriving DecidableEq, Repr

/-! ### Line Control and the outputs -/

structure Reports where
  dosing  : Bool
  train   : Bool
  packing : Bool
  deriving DecidableEq, Repr

/-- A lamp that can flash: its phase and its flash timer, in milliseconds (R186, R205). -/
structure Flash where
  lit   : Bool
  timer : Timer
  deriving DecidableEq, Repr

structure Lamps where
  fault : Flash
  run   : Flash
  deriving DecidableEq, Repr

/-- Every output of the node (00_scope.md, Field connections; R62, R108, R141, R172, R182, R186). -/
structure Outputs where
  channels       : List FeedRate
  scaleDischarge : Bool
  scaleDump      : Bool
  grinderFeed    : Nat
  pressFeed      : Nat
  steamValve     : Nat
  grinderMotor   : Bool
  mixerMotor     : Bool
  pressMotor     : Bool
  cooler         : Bool
  mixerDischarge : Bool
  mixerDiverter  : Option Dest
  pressDiverter  : Option Dest
  surgeDump      : Bool
  mixerDump      : Bool
  pressDump      : Bool
  finishedDump   : Bool
  bagFeeder      : FeedRate
  bagGate        : Bool
  rejectGate     : Bool
  release        : Bool
  spout          : Bool
  faultLamp      : Bool
  runLamp        : Bool
  handAddLamp    : Bool
  bayLamp        : Bool
  stopDrive      : Bool
  /-- The eleven strap pins as driven, pin 1 first (R203). -/
  strapPins      : List Bool
  deriving DecidableEq, Repr

/-! ### Start-up -/

/-- The three start-up faults (R205). -/
inductive StartFault
  | badNode | badRate | badMemory
  deriving DecidableEq, Repr

inductive Power
  | off
  | faulted (f : StartFault)
  | running
  deriving DecidableEq, Repr

/-- The Dosing Unit's own state, but for channels and converter. -/
structure Scale where
  state   : ScaleState
  batch   : Option ScaleBatch
  holdSet : List FaultKey
  resume  : Option ResumePoint
  noted   : Int
  net     : Mass
  settle  : Timer
  stall   : Timer
  jog     : Timer
  residue : Timer
  deriving DecidableEq, Repr

/-- The node. -/
structure State where
  power        : Power
  resetPin     : Bool
  straps       : Straps
  params       : Params
  divider      : Nat
  inputs       : Inputs
  rx           : Receiver
  tx           : List OutEntry
  millTime     : Option Nat
  slots        : List Order
  takeCounter  : Nat
  batchCounter : Nat
  reannounce   : List Nat
  carry        : Carry
  bins         : List BinEntry
  peers        : List PeerDraw
  reservations : List Reservation
  plan         : Option DrawPlan
  levels       : List LevelRec
  scaleConv    : Converter
  bucketConv   : Converter
  finConv      : Converter
  channels     : List Channel
  scale        : Scale
  surge        : StageRec
  mixer        : StageRec
  press        : StageRec
  train        : Train
  fin          : FinishedBin
  bagger       : Bagger
  hold         : OwnHold
  step         : Option LoadStep
  stepTimer    : Timer
  trucks       : List Truck
  bays         : List BayTimer
  line         : LineState
  reports      : Reports
  faults       : List FaultRecord
  lamps        : Lamps
  pins         : Outputs
  /-- The model's own: the number of the next free value (notes/assumptions/10.md). -/
  free         : Nat
  pending      : List Instr
  deriving DecidableEq, Repr

/-- Why the node stops: no event of the manual stops it, so there is no reason (INVENTORY.md, Faults). -/
inductive Fault
  deriving DecidableEq, Repr

/-- Why a command is refused. -/
inductive Refusal
  /-- Raised by Machine/Dispatch.lean for a command that has no meaning yet; safe: the model stops where the node goes on. -/
  | notModelled (mnemonic : String)
  deriving DecidableEq, Repr

/-! ### State.reset (notes/assumptions/1.md) -/

def ConverterParams.blank : ConverterParams := { zero := 0, mult := 0 }

def LoopParams.blank : LoopParams :=
  { setpoint := 0, trip := 0, resume := 0, gain := 0, startSpeed := 0, overloadLimit := 0 }

/-- The parameters before a memory has been read: all zero. -/
def Params.blank : Params :=
  { scale := ConverterParams.blank, bucket := ConverterParams.blank, finished := ConverterParams.blank
    batchSize := 0, minBatch := 0, scaleCapacity := 0, stableBand := 0, zeroBand := 0, emptyBand := 0
    settleTimeout := 0, stallWindow := 0, stallMinimum := 0, absTolerance := 0, relTolerance := 0
    adaptGain := 0, jogLimit := 0
    channels := List.replicate 12 { bin := 0, slowMargin := 0, initial := 0, fMax := 0, jogTime := 0, minDose := 0 }
    levels := List.replicate 4 { bin := 0, capacity := 0 }
    matrix := List.replicate 64 0
    flushIngredient := 0, flushMass := 0, flushTemperature := 0
    mixTime := 0, grindRunout := 0, mixerRunout := 0, pressRunout := 0, dischargeTimeout := 0
    grinder := LoopParams.blank, press := LoopParams.blank
    condBand := 0, condTimeout := 0, steamGain := 0, finishedCapacity := 0
    baggerSlow := 0, baggerInitial := 0, baggerFMax := 0, baggerJogTime := 0, baggerJogLimit := 0
    bagTolerance := 0, chargeLimit := 0
    spoutF := 0, holdDuration := 0, renewalPeriod := 0, guardTime := 0, contentionWindow := 0
    claimWindow := 0, batchCycle := 0, peerDrawAge := 0, staleAge := 0, bagAllowance := 0
    levelSendPeriod := 0, levelStep := 0 }

def Straps.blank : Straps :=
  { node := 0, rate := 0, fast := false, press := false, bagger := false, loadout := false }

def Inputs.blank : Inputs :=
  { stopLine := false, localStop := false, bagClamp := false, surgeEmpty := false, mixerEmpty := false,
    pressBinEmpty := false }

/-- R202. -/
def Receiver.blank : Receiver :=
  { assembler := .hunting, inbound := [], idle := none, barred := false, listening := false, resetKind := .powerOn, readback := none,
    seen := false }

/-- R60: the entry of a bin after power-on, its wired channel apart. -/
def BinEntry.blank (bin : Nat) : BinEntry :=
  { bin := bin, ingredient := none, estimate := none, reporter := none, age := 0, quarantine := .unknown,
    stale := false, uncertain := false, emptySuspect := false, channel := none }

/-- R87: histories empty, stable clear. -/
def Converter.blank (zero : Int) (mult : Nat) : Converter :=
  { zero := zero, mult := mult, gross := [], filtered := [], raw := [], stable := false }

def Channel.blank (number : Nat) : Channel :=
  { number := number, bin := 0, slowMargin := 0, fMax := 0, jogTime := 0, minDose := 0, inFlight := 0, output := .off }

/-- R85. -/
def Scale.blank : Scale :=
  { state := .idle, batch := none, holdSet := [], resume := none, noted := 0, net := 0, settle := .stopped,
    stall := .stopped, jog := .stopped, residue := .stopped }

/-- R124: a stage after power-on. -/
def StageRec.blank : StageRec :=
  { state := .unknown, phase := none, batch := none, dest := none, resume := none }

/-- R97. -/
def FeedLoop.blank : FeedLoop := { mode := .idle, speed := 0, timer := .stopped, current := none }

/-- R99. -/
def Steam.blank : Steam := { valve := 0, running := false, target := none, inBand := false, last := none }

/-- R124. -/
def Train.blank : Train :=
  { grinder := FeedLoop.blank, presser := FeedLoop.blank, steam := Steam.blank, motorsHeld := true,
    grindRunout := .stopped, mix := .stopped, mixerRunout := .stopped, dischargeLimit := .stopped,
    pressRunout := .stopped, conditioning := .stopped, surgeDump := .stopped, mixerDump := .stopped,
    pressDump := .stopped, finishedDump := .stopped }

/-- R124. -/
def FinishedBin.blank : FinishedBin :=
  { order := none, mass := none, entering := false, dumping := false, cancelled := false, unknown := true }

/-- R157, with the clamp absent and F not yet read. -/
def Bagger.blank : Bagger :=
  { mode := .bagging, inFlight := 0, zeroed := false, bucket := .empty, charge := none, spout := .vacant,
    fill := .stopped, settle := .stopped, jog := .stopped, discharge := .stopped }

/-- R177. -/
def OwnHold.blank : OwnHold :=
  { state := .nothing, bay := none, truck := none, comp := none, loading := false, remaining := 0,
    contention := .stopped, renewal := .stopped, sent := false, stepped := false }

def BayTimer.blank : BayTimer := { holder := none, remaining := 0 }

/-- R180, R188. -/
def Reports.blank : Reports := { dosing := false, train := false, packing := false }

def Lamps.blank : Lamps := { fault := { lit := false, timer := .stopped }, run := { lit := false, timer := .stopped } }

/-- Every output off: as before power, and while the RESET pin is asserted (R206). -/
def Outputs.blank : Outputs :=
  { channels := List.replicate 12 .off, scaleDischarge := false, scaleDump := false, grinderFeed := 0, pressFeed := 0,
    steamValve := 0, grinderMotor := false, mixerMotor := false, pressMotor := false, cooler := false,
    mixerDischarge := false, mixerDiverter := none, pressDiverter := none, surgeDump := false, mixerDump := false,
    pressDump := false, finishedDump := false, bagFeeder := .off, bagGate := false, rejectGate := false,
    release := false, spout := false, faultLamp := false, runLamp := false, handAddLamp := false, bayLamp := false,
    stopDrive := false, strapPins := List.replicate 11 false }

def CarryRec.blank : CarryRec := { cls := 0, flushes := 0 }

/-- R139. -/
def Carry.blank : Carry :=
  { scale := CarryRec.blank, surge := CarryRec.blank, mixer := CarryRec.blank, press := CarryRec.blank }

/-- The node before power is applied, every block at the power-on values the manual gives it where they do not come from
straps, memory or inputs (R23, R41, R60, R85, R87, R97, R99, R124, R139, R157, R177, R188, R202; notes/assumptions/1.md). -/
def State.reset : State :=
  { power := .off, resetPin := false, straps := Straps.blank, params := Params.blank, divider := 0
    inputs := Inputs.blank, rx := Receiver.blank, tx := [], millTime := none
    slots := [], takeCounter := 1, batchCounter := 1, reannounce := [], carry := Carry.blank
    bins := (List.range 48).map (fun k => BinEntry.blank (k + 1))
    peers := [], reservations := [], plan := none
    levels := List.replicate 4 { bin := 0, lastSent := none, since := 0 }
    scaleConv := Converter.blank 0 0, bucketConv := Converter.blank 0 0, finConv := Converter.blank 0 0
    channels := (List.range 12).map (fun k => Channel.blank (k + 1))
    scale := Scale.blank, surge := StageRec.blank, mixer := StageRec.blank, press := StageRec.blank
    train := Train.blank, fin := FinishedBin.blank, bagger := Bagger.blank, hold := OwnHold.blank
    step := none, stepTimer := .stopped, trucks := [], bays := List.replicate 4 BayTimer.blank
    line := .paused, reports := Reports.blank, faults := [], lamps := Lamps.blank, pins := Outputs.blank
    free := 0, pending := [] }

end Sys2Proof.Machine
end

