-- ==== Sys2Proof/Machine/Arith.lean ====
section
/-! DEFINITION. The arithmetic of 05_dose_arithmetic.md and of the batch split (R3, R5): exact, then rounded. -/
namespace Sys2Proof.Machine

/-- lo below lo, hi above hi, otherwise x (00_scope.md, Arithmetic). -/
def clampInt (x lo hi : Int) : Int := if x < lo then lo else if hi < x then hi else x

/-- Least integer not below a / b. -/
def ceilDiv (a b : Nat) : Nat := (a + b - 1) / b

/-- x / 8 rounded to the nearest integer, halves away from zero (R95). -/
def roundEighth (x : Int) : Int := if 0 ≤ x then (x + 4) / 8 else -((4 - x) / 8)

/-- A list of capacity `cap` gains `x` at its end and, when full, loses its oldest (R87). -/
def pushCapped (cap : Nat) (x : Int) (l : List Int) : List Int :=
  if l.length < cap then l ++ [x] else l.drop 1 ++ [x]

/-! ### Weight conversion (R87 to R91) -/

/-- R88. -/
def grossWeight (zero : Int) (mult : Nat) (count : Int) : Int := ((count - zero) * mult + 32768) / 65536

/-- R89: the mean of four gross weights. -/
def filterMean (g : List Int) : Int := (g.sum + 2) / 4

/-- Largest minus smallest entry; 0 for an empty list. -/
def spread : List Int → Int
  | [] => 0
  | x :: xs => xs.foldl max x - xs.foldl min x

/-- R88 to R90: a converter takes a sample. -/
def Converter.sample (band : Nat) (count : Int) (v : Converter) : Converter :=
  let gross := pushCapped 4 (grossWeight v.zero v.mult count) v.gross
  if gross.length = 4 then
    let filtered := pushCapped 8 (filterMean gross) v.filtered
    { v with gross := gross, filtered := filtered, raw := pushCapped 8 count v.raw,
             stable := decide (filtered.length = 8 ∧ spread filtered ≤ (band : Int)) }
  else { v with gross := gross, stable := false }

/-- The filtered weight, absent until the first is formed (R89). -/
def Converter.weight (v : Converter) : Option Int := v.filtered.getLast?

/-- The gross weight of the last sample. -/
def Converter.lastGross (v : Converter) : Option Int := v.gross.getLast?

/-- R91: the zero count becomes the mean of the raw history. -/
def Converter.autoZero (v : Converter) : Converter := { v with zero := (v.raw.sum + 4) / 8 }

/-- R87, a warm reset: histories emptied, stable cleared, zero count and multiplier kept. -/
def Converter.warm (v : Converter) : Converter := { v with gross := [], filtered := [], raw := [], stable := false }

/-- Within ± a band (R101). -/
def within (band : Nat) (w : Int) : Bool := decide (-(band : Int) ≤ w ∧ w ≤ (band : Int))

/-- A converter has a filtered weight within the empty band (R101). -/
def Converter.isEmpty (band : Nat) (v : Converter) : Bool :=
  match v.weight with
  | some w => within band w
  | none => false

/-- A converter is stable with its filtered weight above the empty band (R81, R121). -/
def Converter.residueStands (band : Nat) (v : Converter) : Bool :=
  match v.weight with
  | some w => v.stable && decide ((band : Int) < w)
  | none => false

/-! ### Targets (R92) and the batch split (R3, R5) -/

/-- How many of the pairs (remainder, position) come before position i with remainder r: a larger remainder, or an equal
one earlier in the formula. -/
def rankOf (rs : List (Nat × Nat)) (r i : Nat) : Nat :=
  (rs.filter (fun p => decide (r < p.1 ∨ (p.1 = r ∧ p.2 < i)))).length

/-- R92: the largest-remainder split of a mass over shares that total 10,000. -/
def largestRemainder (mass : Nat) (shares : List Nat) : List Nat :=
  let q := shares.map (fun s => mass * s / 10000)
  let rs := (shares.map (fun s => mass * s % 10000)).zipIdx
  let d := mass - q.sum
  (q.zip rs).map (fun p => if rankOf rs p.2.1 p.2.2 < d then p.1 + 1 else p.1)

/-- R5: the number of batches of a mass. -/
def splitCount (mass size : Nat) : Nat := ceilDiv mass size

/-- R5, R6: the mass of the batch at a position, from 1. -/
def splitMass (mass n position : Nat) : Nat := mass / n + (if position ≤ mass % n then 1 else 0)

/-- The mass of a number of bags with the bag allowance (R3, R12). -/
def bagMass (bags size allowance : Nat) : Nat := ceilDiv (bags * size * (1000 + allowance)) 1000

/-- R3. -/
def runMassOf (allowance : Nat) : Delivery → Nat
  | .bagged size bags => bagMass bags size allowance
  | .bulk mass => mass

/-! ### Tolerance and adaptation (R94, R95) -/

/-- R94. -/
def tolerance (absolute relative target : Nat) : Nat := max absolute (target * relative / 1000)

inductive Judgement
  | within | under | above
  deriving DecidableEq, Repr

/-- R94, R96: an error against a tolerance. -/
def judge (tol : Nat) (e : Int) : Judgement :=
  if e < -(tol : Int) then .under else if (tol : Int) < e then .above else .within

/-- R95. -/
def adapt (gain fMax inFlight : Nat) (e1 : Int) : Nat :=
  (clampInt (inFlight + roundEighth (e1 * gain)) 0 fMax).toNat

/-! ### Loops (R97, R99) and the level reading (R100) -/

/-- A loop's new figure: setpoint less reading, times gain, over 64 truncated toward zero, clamped to 0 to 1000. -/
def loopFigure (figure gain : Nat) (difference : Int) : Nat :=
  (clampInt (figure + Int.tdiv (difference * gain) 64) 0 1000).toNat

/-- R100. -/
def levelMass (reading capacity : Nat) : Nat := reading * capacity / 1000

/-! ### The bus divider (R192) -/

/-- The bit rate the two rate pins select (R203). -/
def bitRate : Nat → Nat
  | 0 => 19200
  | 1 => 38400
  | 2 => 57600
  | _ => 115200

/-- The node clock (R203). -/
def clockRate (fast : Bool) : Nat := if fast then 16000000 else 14745600

/-- R192: N, rounding f / (16 B) to the nearest integer. -/
def dividerOf (clock rate : Nat) : Nat := (clock + 8 * rate) / (16 * rate) - 1

/-- R192: the error of the actual rate, (f − 16 B (N + 1)) / (16 B (N + 1)), exceeds 2.0 % in either direction. -/
def rateRefused (clock rate : Nat) : Bool :=
  let d : Int := 16 * rate * (dividerOf clock rate + 1)
  decide (d < 50 * ((clock : Int) - d) ∨ d < 50 * (d - (clock : Int)))

end Sys2Proof.Machine
end

