-- ==== Sys2Proof/Machine/Ops.lean ====
section
/-! DEFINITION. The named operations the blocks share: timers, the fault table, the outbound queue, the records found and
changed by key, the pipeline. -/
namespace Sys2Proof.Machine

/-! ### Timers (notes/assumptions/6.md) -/

def Timer.isRunning : Timer → Bool
  | .running _ => true
  | _ => false

/-- A timer that runs while a condition holds: it starts in full when the condition comes to hold and stops when it fails. -/
def Timer.during (cond : Bool) (full : Nat) (t : Timer) : Timer :=
  if cond then (if t.isRunning then t else .running full) else .stopped

/-- A timer of a piece of work, frozen with its remaining time while `run` is false. -/
def Timer.freezing (active run : Bool) (full : Nat) (t : Timer) : Timer :=
  if active then
    match t with
    | .expired => .expired
    | .stopped => if run then .running full else .frozen full
    | .running f => if run then .running f else .frozen f
    | .frozen f => if run then .running f else .frozen f
  else .stopped

/-! ### The fault kind catalogue (R183) -/

def FaultKey.all : List FaultKey :=
  [.overdose, .underdose, .stall, .unstable, .quarantineCut, .noSource, .scaleOverload, .scaleResidue,
   .grinderOverload, .pressOverload, .condLow, .dischargeTimeout, .chargeReject, .residue, .bayLost, .compartmentFull,
   .duplicateTake, .shortStock, .missedDeparture, .compartmentSmall, .truckTableFull, .rxDrop, .txAbandon,
   .addressClash, .unaccounted, .resumeRefused]

def FaultKey.unit : FaultKey → FaultUnit
  | .overdose | .underdose | .stall | .unstable | .quarantineCut | .noSource | .scaleOverload | .scaleResidue => .dosing
  | .grinderOverload => .grinder
  | .pressOverload | .condLow => .press
  | .dischargeTimeout => .mixer
  | .chargeReject | .residue => .bagger
  | .bayLost | .compartmentFull => .loadout
  | .duplicateTake | .shortStock | .missedDeparture | .compartmentSmall | .truckTableFull => .orders
  | .rxDrop | .txAbandon | .addressClash => .bus
  | .unaccounted | .resumeRefused => .line

def FaultKey.severity : FaultKey → Severity
  | .overdose | .underdose | .stall | .unstable | .quarantineCut | .noSource => .hold
  | .scaleOverload => .stop
  | .scaleResidue => .note
  | .grinderOverload | .pressOverload | .condLow | .dischargeTimeout => .hold
  | .chargeReject | .residue => .note
  | .bayLost | .compartmentFull => .hold
  | .duplicateTake | .shortStock | .missedDeparture | .compartmentSmall | .truckTableFull => .note
  | .rxDrop | .txAbandon => .note
  | .addressClash => .stop
  | .unaccounted => .hold
  | .resumeRefused => .note

/-- Unit codes of ACK and NOTICE (R194). -/
def FaultUnit.code : FaultUnit → Nat
  | .dosing => 1 | .grinder => 2 | .mixer => 3 | .press => 4 | .bagger => 5 | .loadout => 6 | .orders => 7 | .bus => 8
  | .line => 9

/-- The kind's line number, 1 to 26, in the fault kind catalogue (R194). -/
def FaultKey.number : FaultKey → Nat
  | .overdose => 1 | .underdose => 2 | .stall => 3 | .unstable => 4 | .quarantineCut => 5 | .noSource => 6
  | .scaleOverload => 7 | .scaleResidue => 8 | .grinderOverload => 9 | .pressOverload => 10 | .condLow => 11
  | .dischargeTimeout => 12 | .chargeReject => 13 | .residue => 14 | .bayLost => 15 | .compartmentFull => 16
  | .duplicateTake => 17 | .shortStock => 18 | .missedDeparture => 19 | .compartmentSmall => 20
  | .truckTableFull => 21 | .rxDrop => 22 | .txAbandon => 23 | .addressClash => 24 | .unaccounted => 25
  | .resumeRefused => 26

def Severity.code : Severity → Nat
  | .stop => 0 | .hold => 1 | .note => 2

/-- A HOLD or STOP. -/
def FaultKey.grave (k : FaultKey) : Bool := decide (k.severity ≠ .note)

/-! ### Standing faults (R185) -/

/-- The key has an unacknowledged record. -/
def standing (k : FaultKey) (s : State) : Bool := s.faults.any (fun r => decide (r.key = k) && !r.acked)

/-- A HOLD record of the unit is unacknowledged (R104, R167, R181). -/
def unitHeld (u : FaultUnit) (s : State) : Bool :=
  s.faults.any (fun r => decide (r.key.unit = u) && decide (r.key.severity = .hold) && !r.acked)

/-- A HOLD or STOP record of the unit is unacknowledged (R15). -/
def unitBarred (u : FaultUnit) (s : State) : Bool :=
  s.faults.any (fun r => decide (r.key.unit = u) && r.key.grave && !r.acked)

/-! ### The outbound queue (R198) -/

/-- The class of a frame (R194, second table). -/
def Body.cls : Body → Nat
  | .take .. | .yielded .. | .bayHold .. => 0
  | .claim .. | .drawNotice .. | .drawReport .. | .loaded .. => 1
  | .level .. | .notice .. | .hello .. => 2

/-- The kind byte of a frame (R194). -/
def Body.kind : Body → Nat
  | .claim .. => 0x03 | .take .. => 0x04 | .yielded .. => 0x05 | .level .. => 0x0A | .drawNotice .. => 0x0B
  | .drawReport .. => 0x0C | .bayHold .. => 0x0E | .loaded .. => 0x0F | .notice .. => 0x10 | .hello .. => 0x13

/-- An entry as it is queued. -/
def OutEntry.fresh (b : Body) : OutEntry := { body := b, attempts := 0, underWay := false }

/-- A class-2 frame that may be evicted (R198). -/
def OutEntry.evictable (e : OutEntry) : Bool := decide (e.body.cls = 2) && !e.underWay

/-- The queue less its first entry that satisfies p. -/
def dropFirst (p : OutEntry → Bool) : List OutEntry → List OutEntry
  | [] => []
  | e :: es => if p e then es else e :: dropFirst p es

/-- The queue less its newest evictable frame. -/
def evictNewest (q : List OutEntry) : List OutEntry := (dropFirst OutEntry.evictable q.reverse).reverse

/-- A frame finds a place: there is room, or it is of class 0 or 1 and a class-2 frame can be evicted (R198). -/
def hasRoom (b : Body) (s : State) : Bool :=
  decide (s.tx.length < 8) || (decide (b.cls ≠ 2) && s.tx.any OutEntry.evictable)

/-- The outbound queue with a frame that finds a place. -/
def pushFrame (b : Body) (q : List OutEntry) : List OutEntry :=
  if q.length < 8 then q ++ [OutEntry.fresh b] else evictNewest q ++ [OutEntry.fresh b]

/-- A class-2 frame is queued, or dropped from a full queue (R198, R187). -/
def pushSoft (b : Body) (s : State) : State :=
  if s.tx.length < 8 then { s with tx := s.tx ++ [OutEntry.fresh b] } else s

/-- R183: the table after a raise. -/
def bumpFault (k : FaultKey) (reference now : Option Nat) : List FaultRecord → List FaultRecord
  | [] => [{ key := k, count := 1, first := now, last := now, reference := reference, acked := false }]
  | r :: rs =>
    if r.key = k then { r with count := min 255 (r.count + 1), last := now, acked := false } :: rs
    else r :: bumpFault k reference now rs

/-- R183, R187: a fault is raised; its record is made or raised and a FAULT notice queued. -/
def raiseFault (k : FaultKey) (reference : Option Nat) (detail : List DetailField) (s : State) : State :=
  let faults := bumpFault k reference s.millTime s.faults
  match faults.find? (fun r => decide (r.key = k)) with
  | some r => pushSoft (.notice (.fault r detail)) { s with faults := faults }
  | none => { s with faults := faults }

/-- R198: a block queues a frame. A class-0 or class-1 frame that finds no place raises TX_ABANDON with its kind. -/
def queueFrame (b : Body) (s : State) : State :=
  if hasRoom b s then { s with tx := pushFrame b s.tx }
  else if b.cls = 2 then s
  else raiseFault .txAbandon none [.byte b.kind] s

/-- R187: a NOTICE is a class-2 frame. -/
def queueNotice (n : Notice) (s : State) : State := pushSoft (.notice n) s

/-- A block withdraws its BAY-HOLDs that are not under way (R198). -/
def withdrawHolds (s : State) : State :=
  { s with tx := s.tx.filter (fun e => e.underWay || decide (e.body.kind ≠ 0x0E)) }

/-! ### Records by key -/

def findOrder (id : Nat) (s : State) : Option Order := s.slots.find? (fun o => decide (o.id = id))

/-- The Order Book holds the id in a slot, in any state (R1; notes/assumptions/18.md). -/
def holdsOrder (id : Nat) (s : State) : Bool := (findOrder id s).isSome

def updOrder (id : Nat) (f : Order → Order) (s : State) : State :=
  { s with slots := s.slots.map (fun o => if o.id = id then f o else o) }

def findBin (bin : Nat) (s : State) : Option BinEntry := s.bins.find? (fun e => decide (e.bin = bin))

def updBin (bin : Nat) (f : BinEntry → BinEntry) (s : State) : State :=
  { s with bins := s.bins.map (fun e => if e.bin = bin then f e else e) }

def DrawPlan.entry (position : Nat) (p : DrawPlan) : Option PlanEntry :=
  p.entries.find? (fun e => decide (e.position = position))

def planEntry (position : Nat) (s : State) : Option PlanEntry := s.plan.bind (DrawPlan.entry position)

def updPlanEntry (position : Nat) (f : PlanEntry → PlanEntry) (s : State) : State :=
  { s with plan := s.plan.map (fun p =>
      { p with entries := p.entries.map (fun e => if e.position = position then f e else e) }) }

def findChannel (number : Nat) (s : State) : Option Channel := s.channels.find? (fun c => decide (c.number = number))

def updChannel (number : Nat) (f : Channel → Channel) (s : State) : State :=
  { s with channels := s.channels.map (fun c => if c.number = number then f c else c) }

/-- The channel of this node wired to a bin (R42). -/
def channelOfBin (bin : Nat) (s : State) : Option Channel :=
  (findBin bin s).bind (fun e => e.channel.bind (fun n => findChannel n s))

def findTruck (id : Nat) (s : State) : Option Truck := s.trucks.find? (fun t => decide (t.truck = id))

def Truck.comp (number : Nat) (t : Truck) : Option Compartment :=
  if number = 0 then none else t.comps[number - 1]?

def findComp (truck number : Nat) (s : State) : Option Compartment := (findTruck truck s).bind (Truck.comp number)

/-- A change of one compartment of a list, numbered from 1. -/
def setComp (number : Nat) (f : Compartment → Compartment) (cs : List Compartment) : List Compartment :=
  cs.modify (number - 1) f

def updComp (truck number : Nat) (f : Compartment → Compartment) (s : State) : State :=
  { s with trucks := s.trucks.map (fun t => if t.truck = truck then { t with comps := setComp number f t.comps } else t) }

/-- The timer of a bay, numbered from 1 (R165). -/
def findBay (bay : Nat) (s : State) : Option BayTimer := if bay = 0 then none else s.bays[bay - 1]?

def setBay (bay : Nat) (holder : Option Nat) (remaining : Nat) (s : State) : State :=
  { s with bays := s.bays.modify (bay - 1) (fun _ => { holder := holder, remaining := remaining }) }

/-! ### The pipeline (R102) -/

/-- The record the scale holds. -/
def scaleRecord (s : State) : Option Batch := s.scale.batch.map ScaleBatch.record

/-- R102: the records in admission order, oldest first. -/
def pipeline (s : State) : List Batch :=
  s.press.batch.toList ++ s.mixer.batch.toList ++ s.surge.batch.toList ++ (scaleRecord s).toList

/-- A batch record of the order is in the pipeline. -/
def inPipeline (id : Nat) (s : State) : Bool := (pipeline s).any (fun b => decide (b.order = some id))

/-! ### The finished bin (R111) -/

/-- The Packing Unit may draw material from the bin. -/
def permitsDrawing (s : State) : Bool := s.fin.order.isSome && !s.fin.cancelled && !s.fin.unknown && !s.fin.dumping

/-- The mass of the finished bin record lies above the empty band (R152, R153). -/
def finAboveBand (s : State) : Bool :=
  match s.fin.mass with
  | some m => decide (s.params.emptyBand < m)
  | none => false

/-! ### Lists in an order of preference -/

/-- An entry joins a list that stands in an order of preference. -/
def insertBy {α : Type} (ahead : α → α → Bool) (x : α) : List α → List α
  | [] => [x]
  | y :: ys => if ahead x y then x :: y :: ys else y :: insertBy ahead x ys

/-- A list in an order of preference. -/
def sortBy {α : Type} (ahead : α → α → Bool) : List α → List α
  | [] => []
  | x :: xs => insertBy ahead x (sortBy ahead xs)

/-! ### Events -/

/-- The node takes events: power-on has completed and the RESET pin is released (R205, R206). -/
def ready (s : State) : Bool := decide (s.power = .running) && !s.resetPin

end Sys2Proof.Machine
end

