-- ==== Sys2Proof/Machine/Operands.lean ====
section
/-! DEFINITION. The operands of the bus: characters and their judgement (R190, R191), the frame check (R193), the payloads
the node forms and reads (R194), and the tests of the receive assembler (R195). -/
namespace Sys2Proof.Machine

/-! ### Bytes and numbers -/

/-- The number a list of bytes spells, most significant first (R193, R204). -/
def beNat (bs : List Byte) : Nat := bs.foldl (fun n b => n * 256 + b.toNat) 0

/-- Two bytes, most significant first. -/
def be2 (n : Nat) : List Byte := [BitVec.ofNat 8 (n / 256), BitVec.ofNat 8 n]

/-- Three bytes, most significant first. -/
def be3 (n : Nat) : List Byte := [BitVec.ofNat 8 (n / 65536), BitVec.ofNat 8 (n / 256), BitVec.ofNat 8 n]

def be1 (n : Nat) : List Byte := [BitVec.ofNat 8 n]

/-- Byte k of a payload; 0 past its end. -/
def byteAt (k : Nat) (bs : List Byte) : Nat := ((bs[k]?).getD 0).toNat

/-- The number in bytes k to k + n - 1. -/
def field (k n : Nat) (bs : List Byte) : Nat := beNat ((bs.drop k).take n)

/-- A signed number of three bytes, or the free value where it does not fit (notes/assumptions/10.md). -/
def wideField (v : Int) : List Byte :=
  if -8388608 ≤ v ∧ v ≤ 8388607 then be3 (v % 16777216).toNat else be3 (Config.freeField24 v).toNat

/-- A number of two bytes, or the free value where it does not fit. -/
def wordField (v : Int) : List Byte :=
  if -32768 ≤ v ∧ v ≤ 65535 then be2 (v % 65536).toNat else be2 (Config.freeField16 v).toNat

/-! ### The check (R193) -/

/-- One bit shifted into the register of x^16 + x^12 + x^5 + 1. -/
def crcBit (reg : BitVec 16) (bit : Bool) : BitVec 16 :=
  if (reg.getLsbD 15) ^^ bit then (reg <<< 1) ^^^ 0x1021#16 else reg <<< 1

/-- One byte, most significant bit first. -/
def crcByte (reg : BitVec 16) (b : Byte) : BitVec 16 :=
  [7, 6, 5, 4, 3, 2, 1, 0].foldl (fun r k => crcBit r (b.getLsbD k)) reg

def crcFrom (reg : BitVec 16) (bs : List Byte) : BitVec 16 := bs.foldl crcByte reg

/-- The check of a run of bytes. -/
def crc (bs : List Byte) : BitVec 16 := crcFrom 0xFFFF#16 bs

/-- The bytes of a frame that the check covers. -/
def frameBody (f : RawFrame) : List Byte :=
  f.kind :: f.source :: BitVec.ofNat 8 f.payload.length :: f.payload

/-- All the bytes of a frame, in the order sent (R193). -/
def frameBytes (f : RawFrame) : List Byte :=
  frameBody f ++ [f.check.extractLsb' 8 8, f.check.extractLsb' 0 8]

/-! ### Characters (R190, R191) -/

/-- The twelve bit times of a character: bit k is bit time k + 1. -/
def txCharacter (header : Bool) (b : Byte) : BitVec 12 :=
  let parity := (List.range 8).foldl (fun p k => p ^^ b.getLsbD k) header
  BitVec.ofBool true ++ BitVec.ofBool parity ++ BitVec.ofBool header ++ b ++ BitVec.ofBool false

/-- The characters of a frame: flag 1 on the first, 0 on every other (R190). -/
def frameCharacters (f : RawFrame) : List (BitVec 12) :=
  match frameBytes f with
  | [] => []
  | b :: bs => txCharacter true b :: bs.map (txCharacter false)

/-- Majority of the line's values at ticks 7, 8 and 9 of bit time k + 1 (R191). -/
def majority (samples : BitVec 36) (k : Nat) : Bool :=
  let a := samples.getLsbD (3 * k)
  let b := samples.getLsbD (3 * k + 1)
  let c := samples.getLsbD (3 * k + 2)
  (a && b) || (a && c) || (b && c)

inductive Finding
  | falseStart
  | framingError
  | parityError
  | good (header : Bool) (data : Byte)
  deriving DecidableEq, Repr

/-- R191: how a character is judged. -/
def judgeCharacter (samples : BitVec 36) : Finding :=
  let bit := majority samples
  let data : Byte := BitVec.ofBool (bit 8) ++ BitVec.ofBool (bit 7) ++ BitVec.ofBool (bit 6) ++ BitVec.ofBool (bit 5)
    ++ BitVec.ofBool (bit 4) ++ BitVec.ofBool (bit 3) ++ BitVec.ofBool (bit 2) ++ BitVec.ofBool (bit 1)
  if bit 0 then .falseStart
  else if !bit 11 then .framingError
  else if [1, 2, 3, 4, 5, 6, 7, 8, 9, 10].foldl (fun p k => p ^^ bit k) false then .parityError
  else .good (bit 9) data

/-! ### Payloads the node forms (R194) -/

def boolByte (b : Bool) : List Byte := if b then [1#8] else [0#8]

def DetailField.bytes : DetailField → List Byte
  | .wide v => wideField v
  | .mass m => be3 m
  | .word v => wordField v
  | .byte n => be1 n
  | .freeWord k => be2 (Config.freeTemperature k).toNat

def timeField : Option Nat → List Byte
  | some t => be3 t
  | none => be3 0xFFFFFF

def LineState.code : LineState → Nat
  | .run => 0 | .pausing => 1 | .paused => 2 | .stopped => 3

def LineCause.code : LineCause → Nat
  | .pause => 0 | .pauseComplete => 1 | .resume => 2 | .stopAsserted => 3 | .stopReleased => 4 | .reset => 5

/-- Up to three marks as bits 0, 1 and 2 of a byte. -/
def markByte (b0 b1 b2 : Bool) : List Byte := be1 (b0.toNat + 2 * b1.toNat + 4 * b2.toNat)

/-- R194, the NOTICE fields. -/
def Notice.payload : Notice → List Byte
  | .fault r detail =>
      be1 1 ++ be1 r.key.unit.code ++ be1 r.key.number ++ be1 r.key.severity.code ++ be1 r.count
        ++ timeField r.first ++ timeField r.last ++ be2 (r.reference.getD 0) ++ (detail.map DetailField.bytes).flatten
  | .lineState state cause => be1 2 ++ be1 state.code ++ be1 cause.code
  | .runDone order runCount tally batches => be1 3 ++ be2 order ++ be1 runCount ++ be3 tally ++ wordField batches
  | .orderDone order tally batches => be1 4 ++ be2 order ++ be1 0 ++ be3 tally ++ wordField batches
  | .orderCancelled order tally batches => be1 5 ++ be2 order ++ be3 tally ++ wordField batches
  | .handAdd batch ingredient target => be1 6 ++ be2 batch ++ be2 ingredient ++ be3 target
  | .batchOffWeight batch order short excess rework net =>
      be1 7 ++ be2 batch ++ be2 (order.getD 0) ++ markByte short excess rework ++ be3 net

/-- R194, second table. -/
def Body.payload : Body → List Byte
  | .claim order lead => be2 order ++ be2 lead
  | .take order lead started => be2 order ++ be2 lead ++ boolByte started
  | .yielded order => be2 order
  | .level bin mass => be1 bin ++ be3 mass
  | .drawNotice batch pairs => be2 batch ++ (pairs.map (fun p => be1 p.1 ++ be3 p.2)).flatten
  | .drawReport batch bin actual => be2 batch ++ be1 bin ++ be3 actual
  | .bayHold bay truck duration loading => be1 bay ++ be1 truck ++ be2 duration ++ boolByte loading
  | .loaded truck compartment order mass => be1 truck ++ be1 compartment ++ be2 order ++ be3 mass
  | .notice n => n.payload
  | .hello node press bagger loadout kind =>
      be1 node ++ markByte press bagger loadout ++ be1 (if kind = .powerOn then 0 else 1)

/-- The frame a node sends for a body, with the check it computes (R193). -/
def wireFrame (node : Nat) (b : Body) : RawFrame :=
  let f : RawFrame := { kind := BitVec.ofNat 8 b.kind, source := BitVec.ofNat 8 node, payload := b.payload, check := 0 }
  { f with check := crc (frameBody f) }

/-! ### The assembler's tests (R195) -/

/-- The kinds that the office terminal alone sends (R194). -/
def officeKind (k : Nat) : Bool := [0x01, 0x02, 0x06, 0x07, 0x08, 0x09, 0x0D, 0x11, 0x12].contains k

/-- R194: the length test of a kind. -/
def lengthOk (kind : Nat) (p : List Byte) : Bool :=
  let n := p.length
  match kind with
  | 0x01 => n = 3
  | 0x02 => n ≥ 21 && n = 21 + 4 * byteAt 20 p && byteAt 17 p ≤ 1
  | 0x03 => n = 4
  | 0x04 => n = 5
  | 0x05 => n = 2
  | 0x06 => n = 4
  | 0x07 => n = 2
  | 0x08 => n ≥ 2 && n % 2 = 0 && n ≤ 96
  | 0x09 => n = 6
  | 0x0A => n = 4 || n = 6
  | 0x0B => n ≥ 6 && (n - 2) % 4 = 0 && n ≤ 66
  | 0x0C => n = 6
  | 0x0D =>
      (n = 2 && byteAt 1 p = 0)
        || (n ≥ 7 && byteAt 1 p = 1 && n = 7 + 6 * byteAt 6 p
            && (List.range (byteAt 6 p)).all (fun k => decide (byteAt (7 + 6 * k) p ≤ 1)))
  | 0x0E => n = 5
  | 0x0F => n = 7
  | 0x10 => 1 ≤ n && n ≤ 24
  | 0x11 => n = 3
  | 0x12 => n = 2
  | 0x13 => n = 3
  | _ => false

/-- R195: the frame is valid. -/
def validFrame (f : RawFrame) : Bool :=
  decide (f.check = crc (frameBody f)) && decide (1 ≤ f.kind.toNat ∧ f.kind.toNat ≤ 0x13)
    && decide (1 ≤ f.source.toNat ∧ f.source.toNat ≤ 31) && decide (f.payload.length ≤ 96)
    && lengthOk f.kind.toNat f.payload && (!officeKind f.kind.toNat || decide (f.source.toNat = 31))

/-- The frame the assembler's bytes make, once its second check byte is in: 5 + L bytes with L the length byte. -/
def assembled (bytes : List Byte) : Option RawFrame :=
  match bytes with
  | kind :: source :: length :: rest =>
      if rest.length = length.toNat + 2 then
        some { kind := kind, source := source, payload := rest.take length.toNat,
               check := (rest.drop length.toNat).getD 0 0 ++ (rest.drop length.toNat).getD 1 0 }
      else none
  | _ => none

/-! ### Who takes a frame (R197) -/

inductive Block
  | orderBook | binView | deliveryTable | lineControl | busPort
  deriving DecidableEq, Repr

/-- R197: the block that owns a kind. -/
def ownerOf (kind : Nat) : Option Block :=
  match kind with
  | 0x02 | 0x03 | 0x04 | 0x05 | 0x06 | 0x07 => some .orderBook
  | 0x08 | 0x09 | 0x0A | 0x0B | 0x0C | 0x13 => some .binView
  | 0x0D | 0x0E | 0x0F => some .deliveryTable
  | 0x11 | 0x12 => some .lineControl
  | 0x01 => some .busPort
  | _ => none

/-- A LINE frame whose request byte means nothing (R194): Line Control takes it with no effect
(notes/assumptions/13.md). -/
def meaningless (f : RawFrame) : Bool :=
  decide (f.kind.toNat = 0x12) && !decide (1 ≤ byteAt 1 f.payload ∧ byteAt 1 f.payload ≤ 7)

/-- The oldest frame of a block, if it is the one wanted, with the queue less that frame (R197). -/
def takeOwned (block : Block) (want : RawFrame → Bool) : List RawFrame → Option (RawFrame × List RawFrame)
  | [] => none
  | f :: fs =>
    if ownerOf f.kind.toNat = some block then (if want f then some (f, fs) else none)
    else (takeOwned block want fs).map (fun p => (p.1, f :: p.2))

/-- A frame of this kind. -/
def isKind (kind : Nat) (f : RawFrame) : Bool := decide (f.kind.toNat = kind)

/-- A LINE frame with this request. -/
def isRequest (request : Nat) (f : RawFrame) : Bool :=
  decide (f.kind.toNat = 0x12) && decide (byteAt 1 f.payload = request)

/-- The frame names this node or all nodes (R179, R184). -/
def namesNode (s : State) (f : RawFrame) : Bool :=
  decide (byteAt 0 f.payload = 0) || decide (byteAt 0 f.payload = s.straps.node)

/-! ### Payloads the node reads (R194) -/

/-- Pairs of bin and number of `n` bytes. -/
def pairsOf (n : Nat) (count : Nat) (bs : List Byte) : List (Nat × Nat) :=
  (List.range count).map (fun k => (byteAt (k * (n + 1)) bs, field (k * (n + 1) + 1) n bs))

/-- The fields of an OFFER. -/
structure OfferFields where
  order     : Nat
  level     : Nat
  group     : Nat
  runCount  : Nat
  cls       : Nat
  form      : Nat
  target    : Nat
  delivery  : Nat
  bagSize   : Nat
  bags      : Nat
  runMass   : Nat
  departure : Option Nat
  formula   : List Component
  deriving DecidableEq, Repr

def parseOffer (p : List Byte) : OfferFields :=
  { order := field 0 2 p, level := byteAt 2 p, group := byteAt 3 p, runCount := byteAt 4 p, cls := byteAt 5 p
    form := byteAt 6 p, target := field 7 2 p, delivery := byteAt 9 p, bagSize := field 10 2 p, bags := field 12 2 p
    runMass := field 14 3 p, departure := if byteAt 17 p = 1 then some (field 18 2 p) else none
    formula := (List.range (byteAt 20 p)).map
      (fun k => { code := field (21 + 4 * k) 2 p, share := field (23 + 4 * k) 2 p }) }

/-- A compartment of a TRUCK-PLAN. -/
structure PlanComp where
  capacity : Nat
  order    : Option Nat
  deriving DecidableEq, Repr

structure PlanFields where
  bay       : Option Nat
  departure : Option Nat
  comps     : List PlanComp
  deriving DecidableEq, Repr

/-- A TRUCK-PLAN: the truck, and a plan or, absent, a removal. -/
def parsePlan (p : List Byte) : Nat × Option PlanFields :=
  (byteAt 0 p,
   if byteAt 1 p = 1 then
     some { bay := if byteAt 2 p % 2 = 1 then some (byteAt 3 p) else none
            departure := if byteAt 2 p / 2 % 2 = 1 then some (field 4 2 p) else none
            comps := (List.range (byteAt 6 p)).map (fun k =>
              { capacity := field (8 + 6 * k) 3 p
                order := if byteAt (7 + 6 * k) p = 1 then some (field (11 + 6 * k) 2 p) else none }) }
   else none)

/-- The keys an ACK names (R194): all of them for unit 0, else the key of unit and kind, if they form one. -/
def ackKeys (p : List Byte) : List FaultKey :=
  if byteAt 1 p = 0 then FaultKey.all
  else FaultKey.all.filter (fun k => decide (k.unit.code = byteAt 1 p) && decide (k.number = byteAt 2 p))

end Sys2Proof.Machine
end

