-- ==== Sys2Proof/Machine/BinView.lean ====
section
/-! DEFINITION. The Bin View (03_the_bin_view.md): eligibility and availability, the choice of bins, own draws, and what
frames and ticks do to the entries. -/
namespace Sys2Proof.Machine

/-! ### Eligibility and availability (R52 to R55) -/

/-- R53: the bin is eligible for an ingredient. -/
def eligible (code : Nat) (e : BinEntry) : Bool :=
  e.channel.isSome && decide (e.ingredient = some code) && e.estimate.isSome && decide (e.quarantine = .off)
    && !e.emptySuspect

/-- Neither STALE nor UNCERTAIN. -/
def BinEntry.trusted (e : BinEntry) : Bool := !e.stale && !e.uncertain

/-- The targets of the pending peer draws on a bin (R53). -/
def peerTargets (bin : Nat) (s : State) : Nat :=
  ((s.peers.filter (fun p => decide (p.bin = bin))).map PeerDraw.target).sum

/-- The own unreserved draw on a bin (R53), with the entry at position `skip` left out. -/
def ownUnreserved (bin : Nat) (skip : Option Nat) (s : State) : Nat :=
  match s.plan with
  | some p =>
    if p.flush then
      ((p.entries.filter (fun e => decide (e.bin = bin) && decide (e.status ≠ .done) && decide (some e.position ≠ skip))).map
        (fun e => e.target - e.drawn)).sum
    else 0
  | none => 0

/-- R53: the free mass of a bin. -/
def freeMass (skip : Option Nat) (e : BinEntry) (s : State) : Nat :=
  e.estimate.getD 0 - peerTargets e.bin s - ownUnreserved e.bin skip s

/-- R52: the reserved mass of an ingredient. -/
def reservedMass (code : Nat) (s : State) : Nat :=
  match s.reservations.find? (fun r => decide (r.code = code)) with
  | some r => r.mass
  | none => 0

/-- An order's reservation remainder for an ingredient; 0 for no order. -/
def remainderOf (code : Nat) (o : Option Order) : Nat :=
  match o with
  | some o =>
    match o.remainders.find? (fun r => decide (r.code = code)) with
    | some r => r.mass
    | none => 0
  | none => 0

/-- R54. -/
def claimAvailability (code : Nat) (s : State) : Nat :=
  ((s.bins.filter (fun e => eligible code e && e.trusted)).map (fun e => freeMass none e s)).sum - reservedMass code s

/-- R55: for an order, or for no order. -/
def admissionAvailability (code : Nat) (o : Option Order) (s : State) : Nat :=
  ((s.bins.filter (eligible code)).map (fun e => freeMass none e s)).sum - (reservedMass code s - remainderOf code o)

/-- R14, R28, R55: some bin eligible for the flush ingredient can give the whole flush mass. -/
def flushSource (s : State) : Bool :=
  let code := s.params.flushIngredient
  s.bins.any (fun e => eligible code e &&
    decide (s.params.flushMass ≤ min (freeMass none e s) (admissionAvailability code none s)))

/-! ### Choosing bins (R56, R57) -/

/-- The bin of the greatest free mass, the lowest number among equals; the list stands in bin order. -/
def bestBin (l : List (BinEntry × Nat)) : Option Nat :=
  (l.foldl (fun best p =>
    match best with
    | none => some p
    | some q => if q.2 < p.2 then some p else some q) none).map (fun p => p.1.bin)

/-- R56: the three steps. -/
def chooseBin (code target : Nat) (skip : Option Nat) (s : State) : Option Nat :=
  let all := (s.bins.filter (eligible code)).map (fun e => (e, freeMass skip e s))
  match bestBin (all.filter (fun p => p.1.trusted && decide (target ≤ p.2))) with
  | some b => some b
  | none =>
    match bestBin (all.filter (fun p => decide (target ≤ p.2))) with
    | some b => some b
    | none => bestBin all

/-- A component of a batch as it is planned: position, ingredient code, target. -/
structure Planned where
  position : Nat
  code     : Nat
  target   : Nat
  deriving DecidableEq, Repr

/-- Hand-add ingredients have codes of 61,440 and above (R25). -/
def handCode (code : Nat) : Bool := decide (61440 ≤ code)

/-- R56: the draw plan of a batch. -/
def makePlan (batch : Nat) (flush : Bool) (comps : List Planned) (s : State) : DrawPlan :=
  { batch := batch, flush := flush
    entries := comps.filterMap (fun c =>
      if handCode c.code then none
      else (chooseBin c.code c.target none s).map (fun b =>
        { position := c.position, ingredient := c.code, target := c.target, bin := b, drawn := 0, status := .planned })) }

/-- What the Bin View answers when a component's bin is to be confirmed (R57). -/
inductive Confirm
  | same | other (bin : Nat) | noSource
  deriving DecidableEq, Repr

/-- R57, R58: a bin chosen for what remains of an entry; a flush component leaves its own entry out. -/
def rechoose (e : PlanEntry) (s : State) : Option Nat :=
  chooseBin e.ingredient (e.target - e.drawn) (some e.position) s

/-- R57. -/
def confirmBin (position : Nat) (s : State) : Confirm :=
  match planEntry position s with
  | none => .noSource
  | some e =>
    match findBin e.bin s with
    | none => .noSource
    | some b =>
      if eligible e.ingredient b then .same
      else
        match rechoose e s with
        | some c => .other c
        | none => .noSource

/-! ### Own draws (R47) -/

def subEstimate (a : Nat) (e : BinEntry) : BinEntry := { e with estimate := e.estimate.map (fun m => m - a) }

def reportComplete (position bin a : Nat) (s : State) : State :=
  updPlanEntry position (fun e => { e with drawn := satMass (e.drawn + a), status := .done })
    (updBin bin (subEstimate a) s)

def reportPartial (position bin a : Nat) (s : State) : State :=
  updPlanEntry position (fun e => { e with drawn := satMass (e.drawn + a), status := .planned })
    (updBin bin (subEstimate a) s)

def markSuspect (bin : Nat) (s : State) : State := updBin bin (fun e => { e with emptySuspect := true }) s

/-! ### News (R44 to R46, R51) -/

/-- R44. -/
def intakeEntry (code mass : Nat) (e : BinEntry) : BinEntry :=
  let base := match e.ingredient with
    | some i => if i = code then e.estimate.getD 0 else 0
    | none => e.estimate.getD 0
  { e with ingredient := some code, estimate := some (satMass (base + mass)), age := 0, stale := false,
           uncertain := false, emptySuspect := false }

/-- R45. -/
def levelEntry (source mass : Nat) (code : Option Nat) (e : BinEntry) : BinEntry :=
  { e with estimate := some mass, reporter := some source, age := 0, stale := false, uncertain := false,
           emptySuspect := false
           ingredient := match code with
             | some c => if 1 ≤ c ∧ c < 61440 then some c else e.ingredient
             | none => e.ingredient }

/-- R45, R59: a level reading reaches an entry. -/
def applyLevel (bin mass source : Nat) (code : Option Nat) (s : State) : State := updBin bin (levelEntry source mass code) s

/-- R46: one pair of bin and state byte; another state byte is skipped (R194). -/
def quarantinePair (p : Nat × Nat) (s : State) : State :=
  if p.2 = 1 then updBin p.1 (fun e => { e with quarantine := .on }) s
  else if p.2 = 0 then updBin p.1 (fun e => { e with quarantine := .off }) s
  else s

def quarantinePairs : List (Nat × Nat) → State → State
  | [], s => s
  | p :: ps, s => quarantinePairs ps (quarantinePair p s)

/-- The bin's quarantine is ON. -/
def quarantined (bin : Nat) (s : State) : Bool :=
  match findBin bin s with
  | some e => decide (e.quarantine = .on)
  | none => false

/-- R51: the peer draws and bins of a node that has started. -/
def applyHello (n : Nat) (s : State) : State :=
  { s with
    peers := s.peers.filter (fun p => decide (p.node ≠ n))
    bins := s.bins.map (fun e => if e.reporter = some n then { e with stale := true } else e) }

/-! ### Peer draws (R48, R49) -/

def PeerDraw.same (node batch bin : Nat) (p : PeerDraw) : Bool :=
  decide (p.node = node) && decide (p.batch = batch) && decide (p.bin = bin)

/-- R48: a record joins the list: one like it leaves, and the oldest leaves a full list. -/
def pushPeer (d : PeerDraw) (l : List PeerDraw) : List PeerDraw :=
  let l1 := l.filter (fun p => !p.same d.node d.batch d.bin)
  (if l1.length < 64 then l1 else l1.drop 1) ++ [d]

def noticePairs (node batch : Nat) : List (Nat × Nat) → List PeerDraw → List PeerDraw
  | [], l => l
  | p :: ps, l =>
    if 1 ≤ p.1 ∧ p.1 ≤ 48 then
      noticePairs node batch ps (pushPeer { node := node, batch := batch, bin := p.1, target := p.2, age := 0 } l)
    else noticePairs node batch ps l

/-- R49. -/
def applyDrawReport (node batch bin actual : Nat) (s : State) : State :=
  let s1 := updBin bin (subEstimate actual) s
  { s1 with peers := s1.peers.filter (fun p => !p.same node batch bin) }

/-! ### Ticks (R43, R50, R59) -/

/-- R43: one second on an entry. -/
def ageEntry (staleAge : Nat) (e : BinEntry) : BinEntry :=
  let age := min 65535 (e.age + 1)
  { e with age := age, stale := e.stale || decide (staleAge < age) }

/-- R50: one second on the pending peer draw list. -/
def agePeers (limit : Nat) (l : List PeerDraw) : List PeerDraw :=
  (l.map (fun p => { p with age := min 65535 (p.age + 1) })).filter (fun p => decide (p.age ≤ limit))

/-- R43, R50, R59: one second on the Bin View. -/
def ageBinView (s : State) : State :=
  { s with
    bins := s.bins.map (ageEntry s.params.staleAge)
    peers := agePeers s.params.peerDrawAge s.peers
    levels := s.levels.map (fun r => { r with since := min 65535 (r.since + 1) }) }

end Sys2Proof.Machine
end

