-- ==== Sys2Proof/Machine/Book.lean ====
section
/-! DEFINITION. The Order Book's shared operations (01, 02, 07): reservations, run completion, retirement reports, the
carry-over projection and flush count, and the ranking of claims and takes. -/
namespace Sys2Proof.Machine

/-! ### Reservations (R7, R52) -/

/-- R52: m is added to an ingredient's entry; absent where the table has no room. -/
def addReservation (code m : Nat) (l : List Reservation) : Option (List Reservation) :=
  if l.any (fun r => decide (r.code = code)) then
    some (l.map (fun r => if r.code = code then { r with mass := satMass (r.mass + m) } else r))
  else if m = 0 then some l
  else if l.length < 64 then some (l ++ [{ code := code, mass := satMass m }])
  else none

/-- R52: m is subtracted; an entry that reaches 0 is freed. -/
def subReservation (code m : Nat) (l : List Reservation) : List Reservation :=
  l.filterMap (fun r =>
    if r.code = code then (if r.mass - m = 0 then none else some { r with mass := r.mass - m }) else some r)

/-- The components of a mass of a formula, positions from 1 (R92). -/
def plannedOf (mass : Nat) (formula : List Component) : List Planned :=
  ((formula.zip (largestRemainder mass (formula.map Component.share))).zipIdx).map
    (fun p => { position := p.2 + 1, code := p.1.1.code, target := p.1.2 })

/-- The machine components of a mass of a formula. -/
def machineParts (mass : Nat) (formula : List Component) : List Planned :=
  (plannedOf mass formula).filter (fun c => !handCode c.code)

/-- R7, reserve: table and remainders, ingredient by ingredient. That the formula's order decides who takes the free entries
where the table has too few is the model's choice (notes/assumptions/45.md). -/
def reserveParts : List Planned → List Reservation → List Reservation × List Reservation
  | [], table => (table, [])
  | c :: cs, table =>
    match addReservation c.code c.target table with
    | some t => let r := reserveParts cs t; (r.1, { code := c.code, mass := c.target } :: r.2)
    | none => let r := reserveParts cs table; (r.1, { code := c.code, mass := 0 } :: r.2)

/-- R7: the run of an order is reserved. -/
def reserveRun (id : Nat) (s : State) : State :=
  match findOrder id s with
  | some o =>
    let r := reserveParts (machineParts o.runMass o.formula) s.reservations
    updOrder id (fun o => { o with remainders := r.2 }) { s with reservations := r.1 }
  | none => s

/-- R7, consume: T of an ingredient settles. -/
def consume (id code t : Nat) (s : State) : State :=
  match findOrder id s with
  | some o =>
    let removed := min t (remainderOf code (some o))
    updOrder id (fun o => { o with remainders := o.remainders.map (fun r =>
        if r.code = code then { r with mass := r.mass - t } else r) })
      { s with reservations := subReservation code removed s.reservations }
  | none => s

/-- R7, release. -/
def releaseReservations (id : Nat) (s : State) : State :=
  match findOrder id s with
  | some o =>
    updOrder id (fun o => { o with remainders := o.remainders.map (fun r => { r with mass := 0 }) })
      { s with reservations := o.remainders.foldl (fun l r => subReservation r.code r.mass l) s.reservations }
  | none => s

/-- R1, R41: a slot is freed, its remainder released, its id taken off the re-announce list. -/
def freeSlot (id : Nat) (s : State) : State :=
  let s1 := releaseReservations id s
  { s1 with slots := s1.slots.filter (fun o => decide (o.id ≠ id)), reannounce := s1.reannounce.filter (fun i => decide (i ≠ id)) }

/-! ### Plans (R2, R5, R6) -/

def Plan.blank : Plan := { n := none, admitted := 0, finished := 0, massFinished := 0, bags := 0, makeUp := none }

def Waits.none : Waits := { short := false, truck := false, flush := false, quarantine := false, finishedBin := false }

def Waits.isEmpty (w : Waits) : Bool := !w.short && !w.truck && !w.flush && !w.quarantine && !w.finishedBin

def Plan.count (p : Plan) : Nat := p.n.getD 0

/-- Every split batch is admitted. -/
def Plan.allAdmitted (p : Plan) : Bool := decide (p.n = some p.admitted)

/-- Batches still to be admitted, split and make-up (R29). -/
def Plan.left (p : Plan) : Nat :=
  (p.count - p.admitted) + (match p.makeUp with | some m => m.batches - m.admitted | none => 0)

/-- A batch remains to be admitted (R4, R16). -/
def Plan.remains (p : Plan) : Bool := decide (p.admitted < p.count) || p.makeUp.isSome

/-- The mass of the order's next batch (R6, R13). -/
def Order.nextMass (o : Order) : Nat :=
  match o.plan.makeUp with
  | some m => splitMass m.mass m.batches (m.admitted + 1)
  | none => splitMass o.runMass o.plan.count (o.plan.admitted + 1)

/-- Bags counted or mass finished, as a notice reports it (R11). -/
def Order.tally (o : Order) : Nat :=
  match o.delivery with
  | .bagged _ _ => o.plan.bags
  | .bulk _ => o.plan.massFinished

def Order.bagged (o : Order) : Bool :=
  match o.delivery with
  | .bagged _ _ => true
  | .bulk _ => false

/-- The bag size of a bagged order; 0 for a bulk one. -/
def Order.bagSize (o : Order) : Nat :=
  match o.delivery with
  | .bagged size _ => size
  | .bulk _ => 0

def Order.bagsPerRun (o : Order) : Nat :=
  match o.delivery with
  | .bagged _ bags => bags
  | .bulk _ => 0

/-- HELD, ACTIVE or DRAINING. -/
def Order.taken (o : Order) : Bool := decide (o.state ≠ .claiming)

/-! ### Run completion (R8, R11) -/

/-- R8: a retirement is reported to the Order Book. -/
def reportRetired (intoFinished : Bool) (b : Batch) (s : State) : State :=
  match b.kind, b.order with
  | .product, some id =>
    if intoFinished && !b.rework then
      updOrder id (fun o => { o with plan := { o.plan with
        finished := o.plan.finished + 1, massFinished := satMass (o.plan.massFinished + b.mass) } }) s
    else s
  | _, _ => s

/-- The order at the start of its next run (R11), its run count applied. -/
def Order.nextRun (size count : Nat) (o : Order) : Order :=
  { o with runCount := count, state := .held, waits := Waits.none
           plan := { Plan.blank with n := some (splitCount o.runMass size) } }

/-- R11. -/
def completeRun (id : Nat) (s : State) : State :=
  match findOrder id s with
  | none => s
  | some o =>
    if o.runCount ≤ 1 then
      freeSlot id (queueNotice (.orderDone id o.tally o.plan.finished) (releaseReservations id s))
    else
      let count := if o.runCount = 255 then 255 else o.runCount - 1
      reserveRun id (updOrder id (Order.nextRun s.params.batchSize count)
        (queueNotice (.runDone id count o.tally o.plan.finished) (releaseReservations id s)))

/-! ### Carry-over (R126 to R133) -/

/-- R127: the matrix entry from class p to class c. -/
def matrixEntry (m : List Nat) (p c : Nat) : Nat := (m[p * 8 + c]?).getD 0

/-- R131: a stage's need. -/
def flushNeed (m : List Nat) (r : CarryRec) (c : Nat) : Nat := matrixEntry m r.cls c - r.flushes

/-- R131. -/
def flushCount (m : List Nat) (carry : Carry) (cls : Nat) (form : Form) : Nat :=
  let base := max (flushNeed m carry.scale cls) (max (flushNeed m carry.surge cls) (flushNeed m carry.mixer cls))
  match form with
  | .pellet => max base (flushNeed m carry.press cls)
  | .mash => base

/-- R129: a product batch is admitted. -/
def Carry.product (cls : Nat) (form : Form) (c : Carry) : Carry :=
  let r : CarryRec := { cls := cls, flushes := 0 }
  { scale := r, surge := r, mixer := r, press := if form = .pellet then r else c.press }

def CarryRec.bump (r : CarryRec) : CarryRec := { r with flushes := min 2 (r.flushes + 1) }

/-- R130: a flush batch is admitted. -/
def Carry.flush (form : Form) (c : Carry) : Carry :=
  { scale := c.scale.bump, surge := c.surge.bump, mixer := c.mixer.bump,
    press := if form = .pellet then c.press.bump else c.press }

/-- R133: the form of the flush batch. -/
def flushForm (m : List Nat) (carry : Carry) (cls : Nat) : Form → Form
  | .pellet => if 1 ≤ flushNeed m carry.press cls then .pellet else .mash
  | .mash => .mash

/-! ### Ranking orders (R1, R16) -/

/-- The flush count of an order's next batch against the present projection (R131). -/
def orderFlush (o : Order) (s : State) : Nat := flushCount s.params.matrix s.carry o.cls o.form

/-- R16: the ranking of candidates. -/
def ranksAhead (s : State) (a b : Order) : Bool :=
  if a.level ≠ b.level then decide (b.level < a.level)
  else if orderFlush a s ≠ orderFlush b s then decide (orderFlush a s < orderFlush b s)
  else if a.group ≠ b.group then decide (b.group < a.group)
  else decide (a.takeOrder.getD 0 < b.takeOrder.getD 0)

/-- R1, R16: orders that one event concerns, in the ranking of R16: their places in the pool decide nothing
(notes/assumptions/37.md). -/
def ranked (s : State) (l : List Order) : List Order := sortBy (ranksAhead s) l

/-! ### Claims and takes (R32, R35) -/

/-- R32: between two claims, the smaller lead ranks ahead, then the lower node. -/
def claimAhead (a b : Rival) : Bool := decide (a.lead < b.lead ∨ (a.lead = b.lead ∧ a.node < b.node))

/-- R35. -/
def takeAhead (aStarted : Bool) (a : Rival) (bStarted : Bool) (b : Rival) : Bool :=
  if aStarted = bStarted then claimAhead a b else aStarted

/-- R32: a claim is compared with the best rival of a slot. -/
def Order.hearClaim (c : Rival) (o : Order) : Order :=
  match o.rival with
  | none => { o with rival := some c }
  | some r => if claimAhead c r then { o with rival := some c } else o

/-- R2: the take order of an order entering HELD; a counter at its end first renumbers the orders. -/
def renumber (s : State) : State :=
  if s.takeCounter < 65535 then s
  else
    let rank : Nat → Nat := fun t =>
      (s.slots.filter (fun o => match o.takeOrder with | some u => decide (u ≤ t) | none => false)).length
    { s with
      slots := s.slots.map (fun o => { o with takeOrder := o.takeOrder.map rank })
      takeCounter := (s.slots.filter (fun o => o.takeOrder.isSome)).length + 1 }

end Sys2Proof.Machine
end

