-- ==== Sys2Proof/Machine/Dosing.lean ====
section
/-! DEFINITION. The Dosing Unit (04_the_weigh_cycle.md): components, feeding, settling, holds, discharge and dump of the
batch scale. -/
namespace Sys2Proof.Machine

/-! ### The batch in the scale -/

def setScale (st : ScaleState) (s : State) : State := { s with scale := { s.scale with state := st } }

/-- The dose record of the component in progress. -/
def curDose (s : State) : Option Dose :=
  s.scale.batch.bind (fun b => b.doses.find? (fun d => decide (d.status = .inProgress)))

def updDose (position : Nat) (f : Dose → Dose) (s : State) : State :=
  { s with scale := { s.scale with batch := s.scale.batch.map (fun b =>
      { b with doses := b.doses.map (fun d => if d.position = position then f d else d) }) } }

def updRecord (f : Batch → Batch) (s : State) : State :=
  { s with scale := { s.scale with batch := s.scale.batch.map (fun b => { b with record := f b.record }) } }

/-- The number of the batch in the scale, as a fault's reference (R183). -/
def scaleRef (s : State) : Option Nat := (scaleRecord s).map Batch.number

/-- The number of the batch in the scale, as its frames carry it. -/
def scaleNumber (s : State) : Nat := (scaleRef s).getD 0

/-- The batch in the scale is flagged REWORK. -/
def scaleRework (s : State) : Bool :=
  match scaleRecord s with
  | some b => b.rework
  | none => false

/-- R64, R101: the gain of a component, absent without a tare or a filtered weight. -/
def gainOf (d : Dose) (s : State) : Option Int :=
  match d.tare, s.scaleConv.weight with
  | some t, some w => some (w - t)
  | _, _ => none

/-- R101: max(0, gain − reported), a mass; 0 without a gain. -/
def actualOf (d : Dose) (s : State) : Nat :=
  match gainOf d s with
  | some g => satMass (g - d.reported).toNat
  | none => 0

/-- The channel wired to the bin of a component (R62). -/
def doseChannel (d : Dose) (s : State) : Option Channel :=
  (planEntry d.position s).bind (fun e => channelOfBin e.bin s)

def slowOf (d : Dose) (s : State) : Nat := ((doseChannel d s).map Channel.slowMargin).getD 0

def flightOf (d : Dose) (s : State) : Nat := ((doseChannel d s).map Channel.inFlight).getD 0

/-- R93: T − S. -/
def switchPoint (d : Dose) (s : State) : Int := (d.target : Int) - slowOf d s

/-- R93: T − F. -/
def closePoint (d : Dose) (s : State) : Int := (d.target : Int) - flightOf d s

def Dose.machine (d : Dose) : Bool := !handCode d.ingredient

/-- A component fed from a bin: a machine component not in mode HAND (R72). -/
def Dose.fed (d : Dose) : Bool := d.machine && decide (d.mode ≠ some .hand)

/-! ### HELD (R74) -/

/-- R74: a DOSING fault of severity HOLD or STOP holds the scale; a resume point already recorded is kept. -/
def holdScale (k : FaultKey) (detail : List DetailField) (resume : ResumePoint) (s : State) : State :=
  let s1 := raiseFault k (scaleRef s) detail s
  { s1 with scale := { s1.scale with
      state := .held
      holdSet := if s1.scale.holdSet.contains k then s1.scale.holdSet else s1.scale.holdSet ++ [k]
      resume := if s1.scale.state = .held ∧ s1.scale.resume.isSome then s1.scale.resume else some resume } }

/-- The resume point as the rule that raises a fault states it (R77). -/
def setResume (resume : ResumePoint) (s : State) : State := { s with scale := { s.scale with resume := some resume } }

/-! ### Draw reports (R66, R72, R77, R82, R83) -/

/-- A zero DRAW-REPORT answers the announcement of a component that is not dosed; a DRAWING entry becomes DONE. -/
def zeroReport (d : Dose) (s : State) : State :=
  if d.announced then
    match planEntry d.position s with
    | some e =>
      let s1 := queueFrame (.drawReport (scaleNumber s) e.bin 0) s
      let s2 := if e.status = .drawing then reportComplete d.position e.bin 0 s1 else s1
      updDose d.position (fun d => { d with announced := false }) s2
    | none => updDose d.position (fun d => { d with announced := false }) s
  else s

/-- R66: the zero report of a component done by hand or not at all; the own Bin View takes no report. -/
def answerZero (d : Dose) (s : State) : State :=
  match planEntry d.position s with
  | some e =>
    updDose d.position (fun d => { d with announced := false }) (queueFrame (.drawReport (scaleNumber s) e.bin 0) s)
  | none => s

/-- R72, R82: the actual from the current bin is reported as a completion. `reported` keeps the partial reports alone (the
model's reading of R63, notes/assumptions/47.md). -/
def completeReport (d : Dose) (s : State) : State :=
  match planEntry d.position s with
  | some e =>
    let a := actualOf d s
    updDose d.position (fun d => { d with announced := false })
      (reportComplete d.position e.bin a (queueFrame (.drawReport (scaleNumber s) e.bin a) s))
  | none => s

/-- R69, R77: a partial draw is reported; the entry waits for a new choice and the component is interrupted. -/
def partialReport (d : Dose) (s : State) : State :=
  match planEntry d.position s with
  | some e =>
    let a := actualOf d s
    updDose d.position
      (fun d => { d with reported := satMass (d.reported + a), announced := false, interrupted := true })
      (reportPartial d.position e.bin a (queueFrame (.drawReport (scaleNumber s) e.bin a) s))
  | none => updDose d.position (fun d => { d with announced := false, interrupted := true }) s

/-! ### Starting components (R66, R57) -/

/-- R66: FEED, or JOG_ONLY where T is not above F. -/
def feedMode (d : Dose) (s : State) : DoseMode := if d.target ≤ flightOf d s then .jogOnly else .feed

/-- The entry moves to a bin and becomes DRAWING; the new bin and the remaining target are announced (R57, R58). -/
def moveBin (d : Dose) (bin : Nat) (s : State) : State :=
  match planEntry d.position s with
  | some e =>
    updDose d.position (fun d => { d with announced := true })
      (queueFrame (.drawNotice (scaleNumber s) [(bin, e.target - e.drawn)])
        (updPlanEntry d.position (fun e => { e with bin := bin, status := .drawing }) s))
  | none => s

/-- R66: the Bin View is asked to confirm the bin of a machine component. -/
def confirmStart (d : Dose) (s : State) : State :=
  match confirmBin d.position s with
  | .same =>
    setScale .tare (updDose d.position (fun x => { x with mode := some (feedMode d s) })
      (updPlanEntry d.position (fun e => { e with status := .drawing }) s))
  | .other bin =>
    let s1 := moveBin d bin s
    setScale .tare (updDose d.position (fun x => { x with mode := some (feedMode d s1) }) s1)
  | .noSource =>
    holdScale .noSource [.word d.ingredient] (.tare true)
      (updDose d.position (fun x => { x with mode := some (feedMode d s) }) s)

/-- T is below the minimum dose of the channel wired to the planned bin (R66). -/
def smallDose (d : Dose) (s : State) : Bool :=
  match doseChannel d s with
  | some c => decide (d.target < c.minDose)
  | none => false

/-- R66, for a component with a target above 0. -/
def startDose (d : Dose) (s : State) : State :=
  let s1 := updDose d.position (fun d => { d with status := .inProgress }) s
  if handCode d.ingredient then setScale .tare (updDose d.position (fun d => { d with mode := some .hand }) s1)
  else if smallDose d s1 then
    setScale .tare (updDose d.position (fun d => { d with mode := some .hand }) (answerZero d s1))
  else confirmStart d s1

def nextWaiting (s : State) : Option Dose :=
  s.scale.batch.bind (fun b => b.doses.find? (fun d => decide (d.status = .waiting)))

/-- R66: the next component starts; components of target 0 are done at once; after the last the unit is COMPLETE. The
first number bounds how many components are passed. -/
def startNext : Nat → State → State
  | 0, s => setScale .complete s
  | k + 1, s =>
    match nextWaiting s with
    | none => setScale .complete s
    | some d =>
      if d.target = 0 then
        startNext k (answerZero d (updDose d.position (fun d => { d with mode := some .nothing, status := .done }) s))
      else startDose d s

/-- The number of components of the batch in the scale. -/
def doseCount (s : State) : Nat :=
  match s.scale.batch with
  | some b => b.doses.length
  | none => 0

def startComponent (s : State) : State := startNext (doseCount s) s

/-- R83: a batch flagged REWORK has no further component begun. -/
def closeWaiting : List Dose → State → State
  | [], s => s
  | d :: ds, s => closeWaiting ds (if d.status = .waiting then zeroReport d s else s)

def dosesOf (s : State) : List Dose :=
  match s.scale.batch with
  | some b => b.doses
  | none => []

/-! ### Admission into the scale (R65) -/

def Dose.fresh (c : Planned) : Dose :=
  { position := c.position, ingredient := c.code, target := c.target, mode := none, status := .waiting, tare := none,
    reported := 0, jogs := 0, e1 := none, interrupted := false, announced := false, outcome := none }

/-- R65: the batch is taken, announced, and its first component started. -/
def admitToScale (b : Batch) (comps : List Planned) (s : State) : State :=
  let plan := makePlan b.number (decide (b.kind = .flush)) comps s
  let doses := comps.map (fun c =>
    { Dose.fresh c with announced := plan.entries.any (fun e => decide (e.position = c.position)) })
  let s1 : State := { s with
    plan := some plan
    scale := { s.scale with batch := some { record := b, doses := doses, firstTare := none } } }
  let s2 := if plan.entries.isEmpty then s1
    else queueFrame (.drawNotice b.number (plan.entries.map (fun e => (e.bin, e.target)))) s1
  startComponent s2

/-! ### Feeding (R67 to R71) -/

/-- Feeding opens: the stall window starts and the gain is noted (R69). -/
def openFeed (fast : Bool) (gain : Int) (s : State) : State :=
  { s with scale := { s.scale with
      state := if fast then .feedFast else .feedSlow, noted := gain, stall := .running s.params.stallWindow } }

/-- R71: JOG is entered with the jog count raised. -/
def enterJog (d : Dose) (s : State) : State :=
  setScale (.jog false) (updDose d.position (fun d => { d with jogs := d.jogs + 1 }) s)

/-- R67, R68, R73: the tare is taken and the component's feed, or the hand-add step, opens. Whether the feed is one pulse
follows from T and the F of the channel then in use (R68, R93). -/
def takeTare (d : Dose) (w : Int) (s : State) : State :=
  let s1 := updDose d.position (fun d => { d with tare := some w })
    { s with scale := { s.scale with batch := s.scale.batch.map (fun b =>
        { b with firstTare := match b.firstTare with | some t => some t | none => some w }) } }
  if d.mode = some .hand then queueNotice (.handAdd (scaleNumber s1) d.ingredient d.target) (setScale .handAdd s1)
  else
    let mode := feedMode d s1
    let s2 := updDose d.position (fun d => { d with mode := some mode }) s1
    if mode = .jogOnly then enterJog d s2 else openFeed (decide (slowOf d s2 < d.target)) 0 s2

/-- R68, R76: the settle that follows a cutoff. R68 lists the first settle for a feed opened at the tare, and gives a resume
settle where the component is interrupted; of a feed opened at the tare of a component interrupted before, it says both:
the model takes the resume settle (its choice, notes/assumptions/40.md). -/
def cutoffSettle (d : Dose) : SettlePurpose := if d.interrupted then .resume else .first

/-- R68: a sample in FEED_FAST or FEED_SLOW. -/
def feedSample (fast : Bool) (d : Dose) (s : State) : State :=
  match gainOf d s with
  | none => s
  | some g =>
    if closePoint d s ≤ g then setScale (.settle (cutoffSettle d)) s
    else if fast ∧ switchPoint d s ≤ g then setScale .feedSlow s
    else s

/-! ### The record step (R72) -/

/-- R72 step 2, R95: the channel's F is adapted where the component qualifies. An error above T raises F, as R95 and its
figures have it and a sentence of R75 has not (the model's reading, notes/assumptions/46.md). -/
def adaptChannel (d : Dose) (s : State) : State :=
  match d.mode, d.interrupted, d.e1, doseChannel d s with
  | some .feed, false, some e1, some c =>
    updChannel c.number (fun c => { c with inFlight := adapt s.params.adaptGain c.fMax c.inFlight e1 }) s
  | _, _, _, _ => s

/-- R72 step 4: T is consumed from the order's reservation. -/
def consumeDose (d : Dose) (s : State) : State :=
  match scaleRecord s with
  | some b =>
    match b.kind, b.order with
    | .product, some id => if d.machine then consume id d.ingredient d.target s else s
    | _, _ => s
  | none => s

/-- R72; a batch flagged REWORK is then COMPLETE (R83). -/
def recordStep (outcome : DoseOutcome) (adapts : Bool) (d : Dose) (s : State) : State :=
  let s1 := if adapts then adaptChannel d s else s
  let s2 := if d.fed then completeReport d s1 else s1
  let s3 := consumeDose d s2
  let s4 := updDose d.position (fun d => { d with outcome := some outcome, status := .done }) s3
  if scaleRework s4 then setScale .complete (closeWaiting (dosesOf s4) s4) else startComponent s4

/-- R75: the component is accepted as it stands. The adaptation from its E1 is that of R95, which raises F after an
OVERDOSE where a sentence of R75 has F lowered (the model's reading, notes/assumptions/46.md). -/
def acceptDose (outcome : DoseOutcome) (d : Dose) (s : State) : State :=
  recordStep outcome true d (updRecord (fun b =>
    match outcome with
    | .short => { b with short := true }
    | .excess => { b with excess := true }
    | .within => b) s)

/-! ### Settling (R70, R73, R76) -/

/-- R70: a first or jog settle is judged. -/
def judgeDose (first : Bool) (g : Int) (d : Dose) (s : State) : State :=
  let e := g - d.target
  let d1 : Dose := if first then { d with e1 := some e } else d
  let s1 := if first then updDose d.position (fun d => { d with e1 := some e }) s else s
  match judge (tolerance s.params.absTolerance s.params.relTolerance d.target) e with
  | .within => recordStep .within true d1 s1
  | .above => holdScale .overdose [.byte d.position, .wide e] (.accept .excess) s1
  | .under =>
    if d.jogs < s.params.jogLimit then enterJog d1 s1
    else holdScale .underdose [.byte d.position, .wide e] (.accept .short) s1

/-- R76: the end of a resume settle; the close point is tested first (notes/assumptions/16.md). -/
def resumeDose (g : Int) (d : Dose) (s : State) : State :=
  if closePoint d s ≤ g then judgeDose false g d s
  else openFeed (decide (g < switchPoint d s)) g s

/-- R73: the end of a hand-add settle. -/
def judgeHand (g : Int) (d : Dose) (s : State) : State :=
  let e := g - d.target
  match judge (tolerance s.params.absTolerance s.params.relTolerance d.target) e with
  | .within => recordStep .within true d s
  | .under => setScale .handAdd s
  | .above => holdScale .overdose [.byte d.position, .wide e] (.accept .excess) s

/-- The line is RUN or PAUSING. -/
def State.moving (s : State) : Bool := decide (s.line = .run) || decide (s.line = .pausing)

/-- R70, R76: a stable sample in a settle. A batch flagged REWORK is recorded without a check (R83). A hand-add settle judged
under goes back to HAND_ADD without a second notice (notes/assumptions/27.md). -/
def settleSample (p : SettlePurpose) (g : Int) (d : Dose) (s : State) : State :=
  if (if p = .resume then decide (s.line = .run) else s.moving) then
    if scaleRework s then recordStep .within false d s
    else
      match p with
      | .first => judgeDose true g d s
      | .jog => judgeDose false g d s
      | .resume => resumeDose g d s
      | .handAdd => judgeHand g d s
  else s

/-! ### Discharge and dump (R81, R82) -/

/-- R81: the net batch mass at the opening of discharge. -/
def netMass (s : State) : Mass :=
  match s.scale.batch, s.scaleConv.weight with
  | some b, some w =>
    match b.firstTare with
    | some t => satMass (w - t).toNat
    | none => 0
  | _, _ => 0

def StageRec.ofState (st : StageState) : StageRec :=
  { state := st, phase := none, batch := none, dest := none, resume := none }

def StageRec.doneWith (b : Batch) : StageRec :=
  { state := .done, phase := none, batch := some b, dest := none, resume := none }

/-- A stage busy in a phase, with its record and destination. -/
def StageRec.busyIn (p : Phase) (b : Option Batch) (d : Option Dest) : StageRec :=
  { state := .busy, phase := some p, batch := b, dest := d, resume := none }

/-- The stage is BUSY in the phase. -/
def StageRec.busyWith (p : Phase) (r : StageRec) : Bool := decide (r.state = .busy) && decide (r.phase = some p)

/-- R81: COMPLETE is left for DISCHARGE. -/
def beginDischarge (s : State) : State :=
  if s.scale.state = .complete ∧ s.line = .run ∧ s.surge.state = .empty then
    { s with
      scale := { s.scale with state := .discharge, net := netMass s }
      surge := StageRec.busyIn .receiving none none }
  else s

/-- The scale with no batch, in IDLE. -/
def emptyScale (s : State) : State :=
  { s with plan := none, scale := { s.scale with state := .idle, batch := none, holdSet := [], resume := none } }

/-- R75, R81: the notice of a batch flagged SHORT or OVER. -/
def offWeightNotice (b : Batch) (s : State) : State :=
  if b.short || b.excess then
    queueNotice (.batchOffWeight b.number b.order b.short b.excess b.rework s.scale.net) s
  else s

/-- R81: the discharge completes. -/
def completeDischarge (s : State) : State :=
  match scaleRecord s with
  | some b => emptyScale (offWeightNotice b { s with surge := StageRec.doneWith b })
  | none => emptyScale s

/-- R82: the dump completes; the record is retired into the rework outlet (R112). -/
def completeDump (s : State) : State :=
  match scaleRecord s with
  | some b => reportRetired false b (emptyScale s)
  | none => emptyScale s

/-- A component is closed: it is neither dosed nor reported further (R82, R83). -/
def closeDose (d : Dose) (s : State) : State := updDose d.position (fun d => { d with status := .done }) s

/-- R82: what a dump does to one dose record. -/
def dumpDose (d : Dose) (s : State) : State :=
  if d.tare.isSome ∧ d.status ≠ .done then closeDose d (if d.fed then completeReport d s else s) else zeroReport d s

def dumpDoses : List Dose → State → State
  | [], s => s
  | d :: ds, s => dumpDoses ds (dumpDose d s)

/-- R82: the dump request for the scale is taken. -/
def dumpTaken (s : State) : Bool :=
  (decide (s.line = .paused) && decide (s.scale.state ≠ .discharge) && decide (s.scale.state ≠ .dumping))
    || (decide (s.scale.state = .held) && (decide (s.line = .run) || decide (s.line = .paused)))

/-- R82, and R105 where the scale was discharging into SURGE. -/
def dumpScaleBatch (s : State) : State :=
  let s1 := dumpDoses (dosesOf s) s
  let s2 := updRecord (fun b => { b with rework := true }) s1
  let s3 : State := { s2 with scale := { s2.scale with state := .dumping, holdSet := [], resume := none } }
  if s3.surge.busyWith .receiving then { s3 with surge := StageRec.ofState .unknown } else s3

/-! ### Quarantine (R77) and overload (R78) -/

/-- R77: a cut, the fault raised and the resume point re-choose. -/
def cutFeed (d : Dose) (bin : Nat) (s : State) : State :=
  setResume .rechoose (holdScale .quarantineCut [.byte bin, .mass (actualOf d s)] .rechoose (partialReport d s))

/-- R46, R77: the quarantine of a bin has become ON. -/
def quarantineNotice (bin : Nat) (s : State) : State :=
  match curDose s with
  | none => s
  | some d =>
    match planEntry d.position s with
    | none => s
    | some e =>
      if e.bin = bin ∧ e.status = .drawing then
        match s.scale.state with
        | .tare | .feedFast | .feedSlow | .jog _ | .settle .first | .settle .jog | .settle .resume => cutFeed d bin s
        | .held =>
          match s.scale.resume with
          | some .resumeSettle | some (.tare _) => cutFeed d bin s
          | _ => s
        | _ => s
      else s

/-- R78: the resume point by the state at the overload. -/
def overloadResume : ScaleState → ResumePoint
  | .feedFast | .feedSlow | .jog _ | .settle .first | .settle .jog | .settle .resume => .resumeSettle
  | .tare => .tare false
  | .handAdd | .settle .handAdd => .handAddSettle
  | .idle => .idle
  | .complete => .complete
  | .discharge => .discharge
  | _ => .unknown

/-- The states whose component an overload or a stop interrupts (R78). -/
def ScaleState.interruptible : ScaleState → Bool
  | .feedFast | .feedSlow | .jog _ | .settle .first | .settle .jog => true
  | _ => false

/-- The component in progress is interrupted. -/
def interruptDose (s : State) : State :=
  match curDose s with
  | some d => updDose d.position (fun d => { d with interrupted := true }) s
  | none => s

/-- R78: the overload rule at a sample. -/
def overloadCheck (s : State) : State :=
  match s.scaleConv.lastGross with
  | none => s
  | some g =>
    if (s.params.scaleCapacity : Int) < g ∧ s.scale.state ≠ .dumping ∧ ¬ (FaultKey.scaleOverload ∈ s.scale.holdSet) then
      holdScale .scaleOverload [.wide g] (overloadResume s.scale.state)
        (if s.scale.state.interruptible then interruptDose s else s)
    else s

/-! ### The sample (R64) and timers -/

/-- R67 to R82: what a sample does in the state the unit stands in. A state entered in the sample's own event is not tested
at that sample (the model's choice, notes/assumptions/41.md); a discharge or dump ends in every line state
(notes/assumptions/20.md). -/
def weighSample (s : State) : State :=
  match s.scale.state with
  | .tare =>
    match curDose s, s.scaleConv.weight with
    | some d, some w => if s.scaleConv.stable ∧ s.line = .run then takeTare d w s else s
    | _, _ => s
  | .feedFast => match curDose s with | some d => feedSample true d s | none => s
  | .feedSlow => match curDose s with | some d => feedSample false d s | none => s
  | .settle p =>
    match curDose s with
    | some d =>
      match gainOf d s with
      | some g => if s.scaleConv.stable then settleSample p g d s else s
      | none => s
    | none => s
  | .discharge => if s.scaleConv.stable && s.scaleConv.isEmpty s.params.emptyBand then completeDischarge s else s
  | .dumping => if s.scaleConv.stable && s.scaleConv.isEmpty s.params.emptyBand then completeDump s else s
  | .idle =>
    match s.scaleConv.lastGross with
    | some g =>
      if s.scaleConv.stable && within s.params.zeroBand g then { s with scaleConv := s.scaleConv.autoZero } else s
    | none => s
  | _ => s

/-- R69: the stall window ends. -/
def stallExpiry (s : State) : State :=
  match curDose s with
  | none => s
  | some d =>
    match gainOf d s with
    | none => s
    | some g =>
      if (s.params.stallMinimum : Int) ≤ g - s.scale.noted then
        { s with scale := { s.scale with noted := g, stall := .running s.params.stallWindow } }
      else
        match planEntry d.position s with
        | some e =>
          holdScale .stall [.byte e.bin, .mass (actualOf d s)] .rechoose (markSuspect e.bin (partialReport d s))
        | none => holdScale .stall [.byte 0, .mass (actualOf d s)] .rechoose (partialReport d s)

/-- R67, R70, R73, R76: the settle timer expires. -/
def settleExpiry (s : State) : State :=
  match curDose s with
  | none => s
  | some d =>
    match s.scale.state with
    | .tare => holdScale .unstable [.byte d.position] (.tare false) s
    | .settle .handAdd => holdScale .unstable [.byte d.position] .handAddSettle s
    | .settle _ => holdScale .unstable [.byte d.position] .resumeSettle (interruptDose s)
    | _ => s

/-- R81, R82: the residue timer expires. -/
def residueExpiry (s : State) : State :=
  let s1 := raiseFault .scaleResidue (scaleRef s) [.wide (s.scaleConv.weight.getD 0)] s
  match s.scale.state with
  | .discharge => completeDischarge s1
  | .dumping => completeDump s1
  | _ => s

/-! ### Leaving HELD (R74, R75, R83) -/

/-- R83: a component of a batch flagged REWORK that is not dosed further is closed, and the batch is COMPLETE. -/
def closeRework (s : State) : State :=
  let s1 := match curDose s with | some d => closeDose d (zeroReport d s) | none => s
  setScale .complete (closeWaiting (dosesOf s1) s1)

/-- R58, R74: a new bin for the remainder of the component. -/
def rechooseBin (d : Dose) (s : State) : State :=
  match (planEntry d.position s).bind (fun e => rechoose e s) with
  | some bin =>
    let s1 := moveBin d bin s
    if d.tare.isSome then setScale (.settle .resume) s1 else setScale .tare s1
  | none => holdScale .noSource [.word d.ingredient] .rechoose s

/-- R74: the unit leaves HELD for a resume point that concerns a component. -/
def resumeComponent (r : ResumePoint) (d : Dose) (s : State) : State :=
  match r with
  | .tare true => confirmStart d s
  | .rechoose => rechooseBin d s
  | .resumeSettle => if d.tare.isSome then setScale (.settle .resume) s else setScale .tare s
  | .handAddSettle => setScale (.settle .handAdd) s
  | _ => setScale .tare s

/-- R74, R75, R83: the hold set is empty. -/
def leaveHeld (s : State) : State :=
  let s1 : State := { s with scale := { s.scale with resume := none } }
  match s.scale.resume with
  | some .idle => setScale .idle s1
  | some .complete => setScale .complete s1
  | some .discharge => setScale .discharge s1
  | some .unknown => setScale .unknown s1
  | some (.accept outcome) =>
    match curDose s1 with
    | some d => acceptDose outcome d s1
    | none => setScale .complete s1
  | some r =>
    if scaleRework s1 then closeRework s1
    else
      match curDose s1 with
      | some d => resumeComponent r d s1
      | none => setScale .complete s1
  | none => s

/-- R74: DOSING kinds are acknowledged. -/
def ackDosing (keys : List FaultKey) (s : State) : State :=
  if s.scale.state = .held then
    let rest := s.scale.holdSet.filter (fun k => !keys.contains k)
    let s1 : State := { s with scale := { s.scale with holdSet := rest } }
    if rest.isEmpty then leaveHeld s1 else s1
  else s

/-! ### Rework, pause and stop (R80, R83, R84) -/

/-- R83: the batch in the scale is flagged REWORK by a CANCEL or as surplus. -/
def reworkScale (s : State) : State :=
  if scaleRework s then s
  else
    let s1 := updRecord (fun b => { b with rework := true }) s
    match s1.scale.state with
    | .tare | .handAdd => closeRework s1
    | .feedFast | .feedSlow | .jog _ | .settle _ | .held => closeWaiting (dosesOf s1) s1
    | _ => s1

/-- R80: the Dosing Unit stands at its pause point. -/
def dosingAtPause (s : State) : Bool :=
  match s.scale.state with
  | .feedFast | .feedSlow | .jog true | .settle .first | .settle .jog | .settle .handAdd => false
  | _ => true

/-- R71: the pulse of JOG begins. -/
def beginJogPulse (s : State) : State :=
  if s.scale.state = .jog false ∧ s.line = .run then setScale (.jog true) s else s

/-- R84: the STOP line is asserted. -/
def stopDosing (s : State) : State :=
  let s1 := interruptDose s
  match s1.scale.state with
  | .feedFast | .feedSlow | .jog true | .settle .first | .settle .jog => setScale (.settle .resume) s1
  | _ => s1

end Sys2Proof.Machine
end

