-- ==== Sys2Proof/Machine/Admission.lean ====
section
/-! DEFINITION. Wait reasons, candidates, choice and admission of a batch (01_the_order_book.md R13 to R19,
07_carry_over_and_flush_batches.md R129 to R134). -/
namespace Sys2Proof.Machine

/-! ### Wait reasons (R13, R14) -/

/-- HELD or ACTIVE, of level at least 1, not cancelled, with a batch left for admission. -/
def Order.awaits (o : Order) : Bool :=
  (decide (o.state = .held) || decide (o.state = .active)) && decide (1 ≤ o.level) && !o.cancelled && o.plan.remains

/-- R13: QUARANTINE for an ingredient. -/
def quarantineWait (code : Nat) (s : State) : Bool :=
  !s.bins.any (eligible code)
    && s.bins.any (fun e => e.channel.isSome && decide (e.ingredient = some code) && decide (e.quarantine ≠ .off))

/-- R14: no compartment waits for the order. -/
def truckWait (o : Order) (s : State) : Bool :=
  !o.bagged && !s.trucks.any (fun t => t.comps.any (fun c =>
    decide (c.order = some o.id) && (decide (c.state = .opened) || decide (c.state = .loading))
      && decide (o.runMass ≤ c.capacity)))

/-- R13, R14: the wait set of an order, for its next batch. -/
def waitsFor (o : Order) (s : State) : Waits :=
  let parts := machineParts o.nextMass o.formula
  { quarantine := parts.any (fun c => quarantineWait c.code s)
    short := parts.any (fun c =>
      !quarantineWait c.code s && decide (admissionAvailability c.code (some o) s < c.target))
    truck := truckWait o s
    flush := decide (1 ≤ flushCount s.params.matrix s.carry o.cls o.form) && !flushSource s
    finishedBin := s.fin.unknown || s.fin.cancelled }

/-- The orders that SHORT newly enters at a recomputation (R14). -/
def newlyShort (s : State) : List Order :=
  ranked s (s.slots.filter (fun o => o.awaits && !o.waits.short && (waitsFor o s).short))

/-- SHORT_STOCK is raised for each order. -/
def raiseShort : List Order → State → State
  | [], s => s
  | o :: os, s => raiseShort os (raiseFault .shortStock (some o.id) [] s)

/-- R13, R14: every wait set is recomputed. -/
def recomputeWaits (s : State) : State :=
  raiseShort (newlyShort s)
    { s with slots := s.slots.map (fun o => if o.awaits then { o with waits := waitsFor o s } else o) }

/-! ### Choice (R15 to R17) -/

/-- R16. -/
def Order.candidate (o : Order) : Bool := o.awaits && o.waits.isEmpty

/-- The first of a list by an order of preference. -/
def firstBy (ahead : Order → Order → Bool) : List Order → Option Order
  | [] => none
  | o :: os =>
    match firstBy ahead os with
    | none => some o
    | some p => if ahead p o then some p else some o

/-- R16, R17: the order an attempt chooses. -/
def chooseOrder (s : State) : Option Order :=
  let cs := s.slots.filter Order.candidate
  match cs.find? (fun o => decide (o.state = .active)) with
  | some a => if cs.all (fun o => decide (o.level ≤ a.level)) then some a else firstBy (ranksAhead s) cs
  | none => firstBy (ranksAhead s) cs

/-! ### Admission (R4, R17 to R19, R134) -/

/-- R17: an ACTIVE order other than the chosen one becomes HELD. -/
def preempt (chosen : Nat) (s : State) : State :=
  { s with slots := s.slots.map (fun o =>
      if o.id ≠ chosen ∧ o.state = .active then { o with state := .held } else o) }

/-- R19: the batch number counter advances. -/
def advanceBatch (n : Nat) : Nat := if n = 65535 then 1 else n + 1

/-- R19: the batch record of the order's next batch. -/
def productBatch (number : Nat) (o : Order) : Batch :=
  { number := number, kind := .product, order := some o.id, makeUp := o.plan.makeUp.isSome, mass := o.nextMass
    form := o.form, target := o.target, cls := o.cls, rework := false, short := false, excess := false }

/-- R4, R19: the plan once the next batch is admitted. -/
def Plan.afterAdmission (p : Plan) : Plan :=
  match p.makeUp with
  | some m =>
    if m.admitted + 1 = m.batches then { p with makeUp := none }
    else { p with makeUp := some { m with admitted := m.admitted + 1 } }
  | none => { p with admitted := p.admitted + 1 }

/-- R4: the order once its next batch is admitted. -/
def Order.afterAdmission (o : Order) : Order :=
  let plan := o.plan.afterAdmission
  { o with plan := plan, started := true, state := if plan.remains then .active else .draining }

/-- R19. -/
def admitProduct (o : Order) (s : State) : State :=
  let b := productBatch s.batchCounter o
  let s1 := updOrder o.id Order.afterAdmission (preempt o.id s)
  admitToScale b (plannedOf b.mass o.formula)
    { s1 with batchCounter := advanceBatch s.batchCounter, carry := s.carry.product o.cls o.form }

/-- R134: the record of a flush batch. -/
def flushBatch (number mass : Nat) (form : Form) : Batch :=
  { number := number, kind := .flush, order := none, makeUp := false, mass := mass, form := form, target := none,
    cls := 0, rework := false, short := false, excess := false }

/-- R18, R130, R133, R134: a flush batch is admitted on behalf of the order. -/
def admitFlush (o : Order) (s : State) : State :=
  let form := flushForm s.params.matrix s.carry o.cls o.form
  let s1 := preempt o.id s
  admitToScale (flushBatch s.batchCounter s.params.flushMass form)
    [{ position := 1, code := s.params.flushIngredient, target := s.params.flushMass }]
    { s1 with batchCounter := advanceBatch s.batchCounter, carry := s.carry.flush form }

/-- R15: the conditions of an admission attempt. -/
def attemptDue (s : State) : Bool :=
  decide (s.scale.state = .idle) && decide (s.line = .run) && !unitBarred .dosing s
    && decide ((pipeline s).length < 4)

/-- R18, R132: a flush batch where the chosen order's next batch needs one, else the product batch. -/
def admitBatch (o : Order) (s : State) : State := if 1 ≤ orderFlush o s then admitFlush o s else admitProduct o s

/-- R15 to R19: an admission attempt. -/
def admissionAttempt (s : State) : State :=
  if attemptDue s then
    let s1 := recomputeWaits s
    match chooseOrder s1 with
    | some o => admitBatch o s1
    | none => s1
  else s

end Sys2Proof.Machine
end

