-- ==== Sys2Proof/Machine/Bay.lean ====
section
/-! DEFINITION. The node's hold on a bay and the spout's step (09_trucks_and_the_loading_bay.md R165 to R175): taking,
contention, renewal, release and loss of a bay; opening, closing and settling of a loadout step. -/
namespace Sys2Proof.Machine

/-! ### The step (R172 to R175) -/

/-- The spout is open: a step whose close cause is absent. -/
def spoutOpen (s : State) : Bool :=
  match s.step with
  | some st => decide (st.cause = none)
  | none => false

/-- The step is settling. -/
def stepSettling (s : State) : Bool :=
  match s.step with
  | some st => st.cause.isSome
  | none => false

/-- R174: the spout closes with a cause, if it is open; the settle timer starts (R175). -/
def closeSpout (cause : CloseCause) (s : State) : State :=
  match s.step with
  | some st =>
    if st.cause = none then
      { s with step := some { st with cause := some cause }, stepTimer := .running s.params.settleTimeout }
    else s
  | none => s

/-- R174: the step mass. -/
def stepMass (st : LoadStep) (w : Int) : Mass := satMass (st.weight - w).toNat

/-! ### Bay timers and the own hold (R165, R166) -/

/-- The bay becomes free. -/
def freeBay (bay : Nat) (s : State) : State := setBay bay none 0 s

/-- The node applies its own hold to its own bay timer (R165). -/
def setOwnBay (bay : Nat) (s : State) : State := setBay bay (some s.straps.node) s.params.holdDuration s

/-- The own hold becomes NONE, its timers stop. -/
def dropHold (s : State) : State := { s with hold := OwnHold.blank }

/-- This node is the recorded holder of a bay. -/
def holdsBay (bay : Nat) (s : State) : Bool :=
  match findBay bay s with
  | some b => decide (b.holder = some s.straps.node)
  | none => false

/-- The order named by the loading target. -/
def targetOrder (s : State) : Option Nat :=
  (findComp (s.hold.truck.getD 0) (s.hold.comp.getD 0) s).bind Compartment.order

/-- R168: a BAY-HOLD with a duration is dropped; a drop in CONTENDING has no effect (the model's choice,
notes/assumptions/34.md). -/
def holdDropped (s : State) : State :=
  if s.hold.state = .taking then
    let bay := s.hold.bay.getD 0
    dropHold (if holdsBay bay s then freeBay bay s else s)
  else s

/-- A BAY-HOLD with a duration is queued, and its drop at the queueing is reported (R168, R198). -/
def queueHold (b : Body) (s : State) : State :=
  let s1 := queueFrame b s
  if hasRoom b s then s1 else holdDropped s1

/-- R171: the own hold is released. -/
def releaseHold (s : State) : State :=
  if s.hold.state = .nothing then s
  else
    let bay := s.hold.bay.getD 0
    let s1 := withdrawHolds s
    let s2 :=
      if s.hold.state = .taking ∧ ¬s.hold.sent then s1
      else queueFrame (.bayHold bay (s.hold.truck.getD 0) 0 false) s1
    dropHold (freeBay bay s2)

/-- R170: the hold is lost at the guard. -/
def loseHold (s : State) : State :=
  let s1 := raiseFault .bayLost (targetOrder s) [.byte (s.hold.bay.getD 0), .byte (s.hold.truck.getD 0)]
    (closeSpout .guard s)
  dropHold (withdrawHolds s1)

/-- R168: the contention window has passed. -/
def contentionPassed (s : State) : State :=
  { s with hold := { s.hold with state := .held, contention := .stopped, renewal := .running s.params.renewalPeriod } }

/-- An own BAY-HOLD with a duration waits in the outbound queue (R168). -/
def holdQueued (s : State) : Bool :=
  s.tx.any (fun e => match e.body with | .bayHold _ _ d _ => decide (0 < d) | _ => false)

/-- R168: the renewal timer expires. -/
def renewHold (s : State) : State :=
  let s1 : State := { s with hold := { s.hold with renewal := .running s.params.renewalPeriod } }
  if holdQueued s1 then s1
  else
    let bay := s1.hold.bay.getD 0
    queueHold (.bayHold bay (s1.hold.truck.getD 0) s1.params.holdDuration s1.hold.loading) (setOwnBay bay s1)

/-- R168: the transmission of a BAY-HOLD of this node completes. In NONE the release that answers it is applied to the own
timer as it is queued (R165); the truck it carries, and that a completion in CONTENDING has no effect, are the model's
choice (notes/assumptions/34.md). -/
def holdSent (bay truck duration : Nat) (s : State) : State :=
  if duration = 0 then s
  else
    match s.hold.state with
    | .taking =>
      { s with hold := { s.hold with state := .contending, remaining := duration, sent := true,
                                     contention := .running s.params.contentionWindow } }
    | .held => { s with hold := { s.hold with remaining := duration } }
    | .nothing => queueFrame (.bayHold bay truck 0 false) (if holdsBay bay s then freeBay bay s else s)
    | .contending => s

/-! ### Holds of other nodes (R165, R169) -/

/-- R165: a BAY-HOLD of another node on the bay timers. -/
def applyBayHold (bay duration source : Nat) (s : State) : State :=
  if 0 < duration then setBay bay (some source) duration s
  else
    match findBay bay s with
    | some b => if b.holder = some source then freeBay bay s else s
    | none => s

/-- R169: a hold ranks ahead of another. -/
def holdAhead (aLoading : Bool) (aNode : Nat) (bLoading : Bool) (bNode : Nat) : Bool :=
  if aLoading = bLoading then decide (aNode < bNode) else aLoading

/-- R169: the own hold is reasserted. -/
def reassertHold (s : State) : State :=
  let bay := s.hold.bay.getD 0
  let truck := s.hold.truck.getD 0
  let s1 := setOwnBay bay s
  match s.hold.state with
  | .contending =>
    queueHold (.bayHold bay truck s1.params.holdDuration false)
      { s1 with hold := { s1.hold with state := .taking, contention := .stopped } }
  | .held => queueHold (.bayHold bay truck s1.params.holdDuration s1.hold.loading) s1
  | _ => s1

/-- R169: another node's hold with a duration names the own bay. -/
def contest (source : Nat) (loading : Bool) (s : State) : State :=
  if loading && s.hold.loading then s
  else if holdAhead loading source s.hold.loading s.straps.node then dropHold (withdrawHolds s)
  else reassertHold s

/-- R165, R169: a BAY-HOLD is taken. -/
def takeBayHold (source bay truck duration loading : Nat) (s : State) : State :=
  if bay = 0 ∨ 4 < bay ∨ truck = 0 ∨ 600 < duration ∨ source = 31 then s
  else
    let s1 := applyBayHold bay duration source s
    if 0 < duration ∧ s1.hold.state ≠ .nothing ∧ s1.hold.bay = some bay then contest source (decide (loading = 1)) s1
    else s1

/-! ### Steps of the bay time (R165, R168, R170) -/

/-- R165: one step on a bay timer. -/
def BayTimer.tick (b : BayTimer) : BayTimer :=
  if b.remaining ≤ 1 then { holder := none, remaining := 0 } else { b with remaining := b.remaining - 1 }

/-- R168: one step on the own remaining time. -/
def OwnHold.tick (h : OwnHold) : OwnHold :=
  if h.state = .contending ∨ h.state = .held then { h with remaining := h.remaining - 1 } else h

/-- R165, R168, R170: one step of 0.1 s. -/
def bayTick (s : State) : State :=
  let s1 : State := { s with bays := s.bays.map BayTimer.tick, hold := s.hold.tick }
  if s1.hold.state = .held ∧ s1.hold.remaining ≤ s1.params.guardTime then loseHold s1 else s1

end Sys2Proof.Machine
end

