-- ==== Sys2Proof/Machine/Trucks.lean ====
section
/-! DEFINITION. The Delivery Table (09_trucks_and_the_loading_bay.md R159 to R164): truck plans, refused compartments,
missed departures and LOADED frames. -/
namespace Sys2Proof.Machine

/-! ### Removing a truck (R160) -/

/-- The loading target of the own hold is a compartment of the truck. -/
def holdTargets (truck : Nat) (s : State) : Bool :=
  decide (s.hold.state ≠ .nothing) && decide (s.hold.truck = some truck)

/-- R160. -/
def removeTruck (truck : Nat) (s : State) : State :=
  let s1 : State := { s with trucks := s.trucks.filter (fun t => decide (t.truck ≠ truck)) }
  if holdTargets truck s then releaseHold { s1 with step := none, stepTimer := .stopped } else s1

/-! ### Refused compartments (R162) -/

/-- R162: this node refuses the compartment. An order in any slot counts as held (notes/assumptions/18.md). -/
def refusesComp (c : Compartment) (s : State) : Bool :=
  match c.order.bind (fun id => findOrder id s) with
  | some o => decide (c.capacity < o.runMass)
  | none => false

/-- The compartments of a truck with their numbers. -/
def Truck.numbered (t : Truck) : List (Nat × Compartment) := t.comps.zipIdx.map (fun p => (p.2 + 1, p.1))

/-- Every compartment of the table with its truck and number. -/
def allComps (s : State) : List (Truck × Nat × Compartment) :=
  s.trucks.flatMap (fun t => t.numbered.map (fun p => (t, p.1, p.2)))

/-- R162: refused is set afresh for a compartment, and COMPARTMENT_SMALL raised where it becomes refused. -/
def testRefusal (truck : Nat) (number : Nat) (c : Compartment) (s : State) : State :=
  let r := refusesComp c s
  let s1 := updComp truck number (fun c => { c with refused := r }) s
  if r ∧ ¬c.refused then raiseFault .compartmentSmall c.order [.byte truck] s1 else s1

/-- Several compartments tested in one event are met in the order of the list (notes/assumptions/39.md). -/
def testRefusals : List (Truck × Nat × Compartment) → State → State
  | [], s => s
  | p :: ps, s => testRefusals ps (testRefusal p.1.truck p.2.1 p.2.2 s)

/-- R162: the compartments that satisfy a condition are tested. -/
def refuseComps (p : Compartment → Bool) (s : State) : State :=
  testRefusals ((allComps s).filter (fun q => p q.2.2)) s

/-- R162: the compartments of a truck are tested. -/
def refuseTruck (truck : Nat) (s : State) : State :=
  testRefusals ((allComps s).filter (fun q => decide (q.1.truck = truck))) s

/-! ### Missed departures (R163) -/

/-- R163: the compartment's departure is missed. An order in any slot counts as held (notes/assumptions/18.md). -/
def departureMissed (t : Truck) (c : Compartment) (s : State) : Bool :=
  match c.order, t.departure, s.millTime with
  | some id, some d, some now => holdsOrder id s && decide (c.state ≠ .loaded) && !c.noted && decide (d * 60 ≤ now)
  | _, _, _ => false

/-- R163: the missed departures are noted, in the order of the list (the model's choice, notes/assumptions/39.md). -/
def noteMissed : List (Truck × Nat × Compartment) → State → State
  | [], s => s
  | p :: ps, s =>
    noteMissed ps (raiseFault .missedDeparture p.2.2.order [.byte p.1.truck]
      (updComp p.1.truck p.2.1 (fun c => { c with noted := true }) s))

/-- R163: the test for missed departures. -/
def testDepartures (s : State) : State :=
  noteMissed ((allComps s).filter (fun q => departureMissed q.1 q.2.2 s)) s

/-! ### Truck plans (R161) -/

/-- R161: the fields of a plan lie in range. -/
def PlanFields.inRange (p : PlanFields) : Bool :=
  (match p.bay with | some b => decide (1 ≤ b ∧ b ≤ 4) | none => true)
    && (match p.departure with | some d => decide (d ≤ 1439) | none => true)
    && decide (1 ≤ p.comps.length ∧ p.comps.length ≤ 6)
    && p.comps.all (fun c => decide (1 ≤ c.capacity) && decide (c.order ≠ some 0))

/-- A compartment as a plan stores it. -/
def Compartment.fresh (c : PlanComp) : Compartment :=
  { capacity := c.capacity, order := c.order, mass := 0, state := .opened, here := false, refused := false, noted := false }

/-- R161: the new compartment k beside the old one. One that a change of its order has made FULL becomes LOADING for the new
order at a further plan for that order with more capacity, as R161's words have it, though its content is the old order's and
R159 and R173 would keep it from the new one (the model's choice, notes/assumptions/48.md). -/
def Compartment.replan (spoutF : Nat) (sameDeparture : Bool) (c : PlanComp) (old : Compartment) : Compartment :=
  let kept : Compartment :=
    { capacity := c.capacity, order := c.order, mass := old.mass, state := .full, here := old.here
      refused := old.refused, noted := old.noted && sameDeparture && decide (old.order = c.order) }
  if old.state = .opened then { kept with mass := 0, state := .opened, here := false }
  else if old.order = c.order ∧ c.order.isSome then
    { kept with state := if old.state = .full ∧ old.mass + spoutF < c.capacity then .loading else old.state }
  else kept

/-- R161: the compartment list of a replaced record. -/
def replanComps (spoutF : Nat) (sameDeparture : Bool) : List PlanComp → List Compartment → List Compartment
  | [], _ => []
  | c :: cs, [] => Compartment.fresh c :: replanComps spoutF sameDeparture cs []
  | c :: cs, o :: os => Compartment.replan spoutF sameDeparture c o :: replanComps spoutF sameDeparture cs os

/-- R161: a truck record under a new plan. -/
def Truck.replan (spoutF : Nat) (p : PlanFields) (t : Truck) : Truck :=
  { t with bay := p.bay, departure := p.departure
           comps := replanComps spoutF (decide (t.departure = p.departure)) p.comps t.comps }

/-- R161: the own hold's target, which named `order` before the plan, cannot be used. A target FULL before the plan and left
FULL by it counts as FULL (the model's choice, notes/assumptions/43.md). -/
def targetLost (order : Option Nat) (s : State) : Bool :=
  match s.hold.truck.bind (fun t => findTruck t s) with
  | none => true
  | some t =>
    match t.comp (s.hold.comp.getD 0) with
    | none => true
    | some c => decide (c.order ≠ order) || decide (c.state = .full) || decide (t.bay ≠ s.hold.bay)

/-- The spout closes with cause TARGET and the hold is released (R161, R164). -/
def loseTarget (s : State) : State := releaseHold (closeSpout .target s)

/-- R161: the plan of a truck in the table replaces its record. -/
def replaceTruck (truck : Nat) (p : PlanFields) (s : State) : State :=
  let before := targetOrder s
  let s1 : State := { s with trucks := s.trucks.map (fun t =>
    if t.truck = truck then t.replan s.params.spoutF p else t) }
  let s2 := if holdTargets truck s1 && targetLost before s1 then loseTarget s1 else s1
  testDepartures (refuseTruck truck s2)

/-- R161: a plan for a truck not in the table, which has room. -/
def storeTruck (truck : Nat) (p : PlanFields) (s : State) : State :=
  testDepartures (refuseTruck truck
    { s with trucks := s.trucks ++
        [{ truck := truck, bay := p.bay, departure := p.departure, comps := p.comps.map Compartment.fresh }] })

/-- R161: the departure of an entry has passed. -/
def departed (s : State) (t : Truck) : Bool :=
  match t.departure, s.millTime with
  | some d, some now => decide (d * 60 ≤ now)
  | _, _ => false

/-- The earlier departure, then the lower truck id. -/
def Truck.earlier (a b : Truck) : Bool :=
  let x := a.departure.getD 0
  let y := b.departure.getD 0
  decide (x < y ∨ (x = y ∧ a.truck < b.truck))

/-- R161: the entry a full table gives up. -/
def oldestTruck : List Truck → Option Truck
  | [] => none
  | t :: ts =>
    match oldestTruck ts with
    | none => some t
    | some u => if u.earlier t then some u else some t

/-- R161: a plan for a truck not in the table. -/
def addTruck (truck : Nat) (p : PlanFields) (s : State) : State :=
  if s.trucks.length < 12 then storeTruck truck p s
  else
    match oldestTruck (s.trucks.filter (departed s)) with
    | some t => storeTruck truck p (removeTruck t.truck s)
    | none => raiseFault .truckTableFull none [.byte truck] s

/-- R160, R161: a TRUCK-PLAN is taken. -/
def takePlan (payload : List Byte) (s : State) : State :=
  match parsePlan payload with
  | (0, _) => s
  | (truck, none) => if (findTruck truck s).isSome then removeTruck truck s else s
  | (truck, some p) =>
    if !p.inRange then s
    else if (findTruck truck s).isSome then replaceTruck truck p s
    else addTruck truck p s

/-! ### LOADED (R164) -/

/-- R164: a LOADED frame concerns the compartment. -/
def loadedApplies (truck number order : Nat) (s : State) : Bool :=
  match findComp truck number s with
  | some c => decide (c.order = some order) && !c.here
  | none => false

/-- R164: a LOADED of another node is taken. -/
def takeLoaded (source truck number order mass : Nat) (s : State) : State :=
  if source ≠ 31 ∧ loadedApplies truck number order s then
    let s1 := updComp truck number (fun c => { c with state := .loaded, mass := mass, here := false }) s
    if holdTargets truck s1 && decide (s1.hold.comp = some number) then loseTarget s1 else s1
  else s

end Sys2Proof.Machine
end

