-- ==== Sys2Proof/Machine/Claims.lean ====
section
/-! DEFINITION. Claiming orders (02_claiming_orders.md): the evaluation of an offer, claims, takes and the end of the
claim window. -/
namespace Sys2Proof.Machine

/-! ### The fields of an offer (R25) -/

/-- The delivery an offer's fields give, if they lie in range (R25). -/
def OfferFields.way (f : OfferFields) : Option Delivery :=
  if f.delivery = 0 then
    if 100 ≤ f.bagSize ∧ f.bagSize ≤ 500 ∧ 1 ≤ f.bags ∧ f.bags ≤ 4000 then some (.bagged f.bagSize f.bags) else none
  else if f.delivery = 1 then
    if 500 ≤ f.runMass ∧ f.runMass ≤ 150000 then some (.bulk f.runMass) else none
  else none

/-- The form and conditioning target an offer's fields give (R25). -/
def OfferFields.kindOf (f : OfferFields) : Option (Form × Option Nat) :=
  if f.form = 0 then some (.mash, none)
  else if f.form = 1 ∧ 600 ≤ f.target ∧ f.target ≤ 950 then some (.pellet, some f.target)
  else none

def distinctCodes : List Component → Bool
  | [] => true
  | c :: cs => cs.all (fun d => decide (d.code ≠ c.code)) && distinctCodes cs

/-- R25: the formula of an offer. -/
def formulaOk (l : List Component) : Bool :=
  decide (1 ≤ l.length ∧ l.length ≤ 16)
    && l.all (fun c => decide (1 ≤ c.code ∧ c.code ≤ 65535 ∧ 1 ≤ c.share ∧ c.share ≤ 10000))
    && distinctCodes l && decide ((l.map Component.share).sum = 10000)

/-- R25: the tests other than those of form and delivery. -/
def OfferFields.inRange (f : OfferFields) : Bool :=
  decide (1 ≤ f.order ∧ f.order ≤ 65535 ∧ f.level ≤ 15 ∧ f.group ≤ 3 ∧ 1 ≤ f.runCount ∧ f.runCount ≤ 255 ∧ 1 ≤ f.cls
    ∧ f.cls ≤ 7)
    && (match f.departure with | some d => decide (d ≤ 1439) | none => true) && formulaOk f.formula

/-! ### Eligibility (R26 to R30) -/

/-- R26. The Bus Port has stopped transmitting while ADDRESS_CLASH is unacknowledged; an offer taken after its
acknowledgement is eligible though the next idle is still to come (the model's choice, notes/assumptions/38.md). -/
def nodeFits (id : Nat) (form : Form) (way : Delivery) (runMass : Nat) (s : State) : Bool :=
  decide (s.slots.length < 24) && !holdsOrder id s
    && (decide (form = .mash) || s.straps.press)
    && (match way with | .bagged _ _ => s.straps.bagger | .bulk _ => s.straps.loadout)
    && !(decide (splitCount runMass s.params.batchSize = 1) && decide (runMass < s.params.minBatch))
    && !standing .addressClash s

/-- R29: the orders whose batches stand ahead of an offer of this level. -/
def countedOrders (level : Nat) (s : State) : List Order :=
  s.slots.filter (fun o => o.taken && !o.cancelled && decide (level ≤ o.level))

/-- R30: the tail order: the lowest level, then the lowest group, then the largest take order. -/
def tailAhead (a b : Order) : Bool :=
  if a.level ≠ b.level then decide (a.level < b.level)
  else if a.group ≠ b.group then decide (a.group < b.group)
  else decide (b.takeOrder.getD 0 < a.takeOrder.getD 0)

/-- R30: the tail projection. -/
def tailCarry (level : Nat) (s : State) : Carry :=
  match firstBy tailAhead (countedOrders level s) with
  | some o => s.carry.product o.cls o.form
  | none => s.carry

/-- R30: the flushes needed. -/
def offerFlush (level cls : Nat) (form : Form) (s : State) : Nat :=
  flushCount s.params.matrix (tailCarry level s) cls form

/-- R29: the lead. -/
def leadOf (level cls : Nat) (form : Form) (runMass : Nat) (s : State) : Nat :=
  min 65535 (s.params.batchCycle * ((pipeline s).length
    + ((countedOrders level s).map (fun o => o.plan.left)).sum
    + splitCount runMass s.params.batchSize + offerFlush level cls form s))

/-- R27: the departures that bear on an order. -/
def departures (id : Nat) (own : Option Nat) (s : State) : List Nat :=
  own.toList ++ ((s.trucks.filter (fun t => t.comps.any (fun c => decide (c.order = some id)))).filterMap Truck.departure)

/-- R27: the effective departure. -/
def effectiveDeparture (id : Nat) (own : Option Nat) (s : State) : Option Nat :=
  match departures id own s with
  | [] => none
  | d :: ds => some (ds.foldl min d)

/-- R27: the lead fits before the departure. -/
def departureFits (id : Nat) (own : Option Nat) (lead : Nat) (s : State) : Bool :=
  match effectiveDeparture id own s with
  | none => true
  | some d =>
    match s.millTime with
    | none => false
    | some t => decide (lead ≤ d * 60 - t)

/-- R28: stock and room in the reservation table. -/
def stockFits (parts : List Planned) (s : State) : Bool :=
  parts.all (fun c => decide (c.target ≤ claimAvailability c.code s))
    && decide ((parts.filter (fun c => !s.reservations.any (fun r => decide (r.code = c.code)))).length
        ≤ 64 - s.reservations.length)

/-- R2, R31: the record of an offer stored as CLAIMING. -/
def claimingOrder (f : OfferFields) (form : Form) (target : Option Nat) (way : Delivery) (runMass lead window : Nat) :
    Order :=
  { id := f.order, level := f.level, group := f.group, runCount := f.runCount, form := form, target := target
    cls := f.cls, delivery := way, formula := f.formula, runMass := runMass, plan := Plan.blank, state := .claiming
    waits := Waits.none, lead := lead, takeOrder := none, started := false, cancelled := false
    remainders := (f.formula.filter (fun c => !handCode c.code)).map (fun c => { code := c.code, mass := 0 })
    rival := none, claimTimer := .running window }

/-- R25 to R30: the order an offer is stored as, if the node finds it eligible. -/
def evaluateOffer (f : OfferFields) (s : State) : Option Order :=
  match f.way, f.kindOf with
  | some way, some (form, target) =>
    let runMass := runMassOf s.params.bagAllowance way
    let lead := leadOf f.level f.cls form runMass s
    if f.inRange && nodeFits f.order form way runMass s && stockFits (machineParts runMass f.formula) s
        && !(decide (1 ≤ offerFlush f.level f.cls form s) && !flushSource s)
        && departureFits f.order f.departure lead s then
      some (claimingOrder f form target way runMass lead s.params.claimWindow)
    else none
  | _, _ => none

/-- R31: an OFFER is taken. -/
def takeOffer (payload : List Byte) (s : State) : State :=
  match evaluateOffer (parseOffer payload) s with
  | some o => queueFrame (.claim o.id o.lead) { s with slots := s.slots ++ [o] }
  | none => s

/-! ### Claims (R32) and takes (R33, R35 to R38) -/

/-- R32, R39: a CLAIM is taken. -/
def takeClaim (source order lead : Nat) (s : State) : State :=
  if source = 31 then s
  else updOrder order (fun o => if o.state = .claiming then o.hearClaim { node := source, lead := lead } else o) s

/-- The node's own claim or take of an order. -/
def ownRival (o : Order) (s : State) : Rival := { node := s.straps.node, lead := o.lead }

/-- R36: the order is yielded. -/
def yieldOrder (id : Nat) (s : State) : State := queueFrame (.yielded id) (freeSlot id s)

/-- R33, R36 to R38: a TAKE meets the order it names. -/
def meetTake (other : Rival) (started : Bool) (o : Order) (s : State) : State :=
  if o.state = .claiming then
    if takeAhead started other false (ownRival o s) then freeSlot o.id s
    else updOrder o.id (Order.hearClaim other) s
  else if started ∧ o.started then raiseFault .duplicateTake (some o.id) [.byte other.node] s
  else if takeAhead started other o.started (ownRival o s) then yieldOrder o.id s
  else queueFrame (.take o.id o.lead o.started) s

/-- R33, R36 to R39: a TAKE is taken; a started byte other than 0 and 1 gives it no effect (R194). -/
def takeTake (source order lead started : Nat) (s : State) : State :=
  if source = 31 ∨ 1 < started then s
  else
    match findOrder order s with
    | some o => meetTake { node := source, lead := lead } (decide (started = 1)) o s
    | none => s

/-! ### The end of the claim window (R34) -/

/-- R34: the own claim is best. -/
def claimWon (o : Order) (s : State) : Bool :=
  match o.rival with
  | none => true
  | some r => claimAhead (ownRival o s) r

/-- R34: the order enters HELD; its compartments are tested (R162). -/
def winOrder (id : Nat) (s : State) : State :=
  let s1 := renumber s
  let s2 := updOrder id (fun o => { o with
    state := .held, takeOrder := some s1.takeCounter, waits := Waits.none, claimTimer := .stopped
    plan := { o.plan with n := some (splitCount o.runMass s.params.batchSize) } })
    { s1 with takeCounter := s1.takeCounter + 1 }
  let s3 := reserveRun id s2
  match findOrder id s3 with
  | some o => refuseComps (fun c => decide (c.order = some id)) (queueFrame (.take id o.lead false) s3)
  | none => s3

/-- R34. -/
def closeWindow (o : Order) (s : State) : State := if claimWon o s then winOrder o.id s else freeSlot o.id s

end Sys2Proof.Machine
end

