-- ==== Sys2Proof/Machine/Train.lean ====
section
/-! DEFINITION. The Process Train (06_grinding_mixing_and_pelleting.md, and the loops of R97 to R99): transfers, holds,
stage dumps, the finished bin's record and gate. -/
namespace Sys2Proof.Machine

/-! ### Loops (R97 to R99) -/

/-- R97: a start. -/
def FeedLoop.start (p : LoopParams) (l : FeedLoop) : FeedLoop :=
  if l.mode = .idle then { l with mode := .running, speed := p.startSpeed } else l

/-- R97: a halt. -/
def FeedLoop.halt (l : FeedLoop) : FeedLoop := { l with mode := .idle, speed := 0, timer := .stopped }

/-- R97, R98: a current sample. -/
def FeedLoop.sample (p : LoopParams) (i : Nat) (l : FeedLoop) : FeedLoop :=
  match l.mode with
  | .idle => l
  | .running =>
    if p.trip ≤ i then { mode := .overload, speed := 0, timer := .running p.overloadLimit, current := some i }
    else { l with speed := loopFigure l.speed p.gain ((p.setpoint : Int) - i), current := some i }
  | .overload =>
    if i ≤ p.resume then { mode := .running, speed := p.startSpeed, timer := .stopped, current := some i }
    else { l with current := some i }

/-- R99: in band at a temperature; with no target set yet, out of band (notes/assumptions/28.md). -/
def Steam.judge (band : Nat) (t : Int) (m : Steam) : Bool :=
  match m.target with
  | some target => decide ((target : Int) - band ≤ t)
  | none => false

/-- R99: a temperature sample. -/
def Steam.sample (gain band : Nat) (t : Int) (m : Steam) : Steam :=
  { m with
    valve := if m.running then loopFigure m.valve gain ((m.target.getD 0 : Int) - t) else m.valve
    inBand := m.judge band t
    last := some t }

/-- R99, R115: the target is set and the loop started. -/
def Steam.begin (target : Nat) (m : Steam) : Steam :=
  { m with target := some target, inBand := false, running := true }

def Steam.halt (m : Steam) : Steam := { m with running := false }

def haltGrinder (s : State) : State := { s with train := { s.train with grinder := s.train.grinder.halt } }

def haltPresser (s : State) : State := { s with train := { s.train with presser := s.train.presser.halt } }

/-- R122, R123. -/
def haltLoops (s : State) : State := haltPresser (haltGrinder s)

/-! ### Stages by name -/

def stageOf (i : StageId) (s : State) : StageRec :=
  match i with
  | .surge => s.surge
  | .mixer => s.mixer
  | .press => s.press

def setStage (i : StageId) (r : StageRec) (s : State) : State :=
  match i with
  | .surge => { s with surge := r }
  | .mixer => { s with mixer := r }
  | .press => { s with press := r }

/-- R104: the unit a stage answers to. -/
def unitOfStage : StageId → FaultUnit
  | .surge => .grinder
  | .mixer => .mixer
  | .press => .press

/-- R104: the stage is barred. -/
def stageBarred (i : StageId) (s : State) : Bool := unitHeld (unitOfStage i) s

/-- The stage is BUSY, or HELD, in the phase. -/
def StageRec.within (p : Phase) (r : StageRec) : Bool :=
  (decide (r.state = .busy) || decide (r.state = .held)) && decide (r.phase = some p)

/-- The batch a stage holds, as a fault's reference (R183). -/
def StageRec.ref (r : StageRec) : Option Nat := r.batch.map Batch.number

/-- The feeder loop of a stage is halted. -/
def haltStageLoop (i : StageId) (s : State) : State :=
  match i with
  | .surge => haltGrinder s
  | .press => haltPresser s
  | .mixer => s

/-! ### Holding and leaving HELD (R104) -/

/-- R104: a stage BUSY in one of these phases is held at a HOLD fault of its unit. -/
def Phase.holdable : Phase → Bool
  | .grinding | .discharging | .pressing => true
  | _ => false

/-- R104: the stage's unit has raised a HOLD fault. -/
def StageRec.hold (r : StageRec) : StageRec :=
  match r.state, r.phase with
  | .busy, some p => if p.holdable then { r with state := .held, resume := some (.phase p) } else r
  | _, _ => r

/-- A HOLD fault of a stage's unit is raised, and the stage held (R98, R104, R114, R116). -/
def holdStage (i : StageId) (k : FaultKey) (detail : List DetailField) (s : State) : State :=
  let s1 := raiseFault k (stageOf i s).ref detail s
  setStage i (stageOf i s1).hold s1

/-- R104: a stage that is no longer barred leaves HELD; its loop is halted, to be started afresh where its conditions
hold. -/
def unbarStage (i : StageId) (s : State) : State :=
  let r := stageOf i s
  if r.state = .held ∧ ¬stageBarred i s then
    match r.resume with
    | some (.phase p) => setStage i (StageRec.busyIn p r.batch r.dest) (haltStageLoop i s)
    | _ => setStage i (StageRec.ofState .empty) s
  else s

def unbarStages (s : State) : State := unbarStage .press (unbarStage .mixer (unbarStage .surge s))

/-! ### The finished bin (R110, R111) -/

/-- R110: the FINISHED gate is open for an order's batch of this mass. -/
def gateOpen (id : Nat) (mass : Nat) (s : State) : Bool :=
  !s.fin.unknown && !s.fin.dumping && !s.fin.entering
    && (decide (s.fin.order = none) || (decide (s.fin.order = some id) && !s.fin.cancelled))
    && s.finConv.weight.isSome && decide (s.fin.mass.getD 0 + mass ≤ s.params.finishedCapacity)

/-- The gate is open for a batch record. -/
def gateOpenFor (b : Batch) (s : State) : Bool :=
  match b.order with
  | some id => gateOpen id b.mass s
  | none => false

/-- R111: a transfer of a batch into the bin begins. -/
def enterFinished (b : Batch) (s : State) : State :=
  { s with fin := { s.fin with order := if s.fin.order.isSome then s.fin.order else b.order, entering := true } }

/-- R111: a transfer into the bin ends, or its outflow is switched. -/
def leaveFinished (s : State) : State := { s with fin := { s.fin with entering := false } }

/-! ### Transfers (R106, R113, R115) -/

/-- R106: a grind begins. -/
def beginGrind (s : State) : State :=
  if s.surge.state = .done ∧ s.mixer.state = .empty ∧ s.line = .run then
    { s with surge := StageRec.busyIn .grinding s.surge.batch (some .mixer)
             mixer := StageRec.busyIn .receiving none none }
  else s

/-- R107: the grind completes. -/
def completeGrind (s : State) : State :=
  haltGrinder { s with mixer := StageRec.busyIn .mixing s.surge.batch none, surge := StageRec.ofState .empty }

/-- R109: the mix ends. -/
def completeMix (s : State) : State :=
  { s with mixer := { state := .done, phase := none, batch := s.mixer.batch, dest := none, resume := none } }

/-- R113: the destination of a mixer discharge. -/
def mixerDest (b : Batch) : Dest :=
  if b.rework then .rework
  else
    match b.kind, b.form with
    | .flush, .mash => .rework
    | .flush, .pellet => .press
    | .product, .pellet => .press
    | .product, .mash => .finished

/-- R113: the condition of the destination. -/
def dischargeFree (b : Batch) (s : State) : Bool :=
  match mixerDest b with
  | .press => decide (s.press.state = .empty)
  | .finished => s.press.batch.isNone && gateOpenFor b s
  | _ => s.press.batch.isNone

/-- R113: the discharge opens to its destination. -/
def openDischarge (b : Batch) (s : State) : State :=
  let s1 : State := { s with mixer := StageRec.busyIn .discharging (some b) (some (mixerDest b)) }
  match mixerDest b with
  | .press => { s1 with press := StageRec.busyIn .receiving none none }
  | .finished => enterFinished b s1
  | _ => s1

/-- R113. -/
def beginDischargeMixer (s : State) : State :=
  match s.mixer.batch with
  | some b => if s.mixer.state = .done ∧ s.line = .run ∧ dischargeFree b s then openDischarge b s else s
  | none => s

/-- A record leaves for the finished bin or the rework outlet (R112). -/
def retireTo (dest : Option Dest) (batch : Option Batch) (s : State) : State :=
  let s1 := if dest = some .finished then leaveFinished s else s
  match batch with
  | some b => reportRetired (decide (dest = some .finished)) b s1
  | none => s1

/-- R114: the mixer discharge completes. -/
def completeMixer (s : State) : State :=
  let s1 : State := { s with mixer := StageRec.ofState .empty }
  if s.mixer.dest = some .press then
    { s1 with press := { state := .done, phase := none, batch := s.mixer.batch, dest := none, resume := none } }
  else retireTo s.mixer.dest s.mixer.batch s1

/-- R115: the record is pressed to rework. -/
def pressesToRework (b : Batch) : Bool := decide (b.kind = .flush) || b.rework

/-- R99, R115: the conditioning target of a record. -/
def conditioningTarget (b : Batch) (s : State) : Nat :=
  match b.kind with
  | .flush => s.params.flushTemperature
  | .product => b.target.getD 0

/-- R115: the press begins. -/
def openPress (b : Batch) (s : State) : State :=
  let dest : Dest := if pressesToRework b then .rework else .finished
  let s1 : State := { s with
    press := StageRec.busyIn .pressing (some b) (some dest)
    train := { s.train with steam := s.train.steam.begin (conditioningTarget b s) } }
  if pressesToRework b then s1 else enterFinished b s1

/-- R115. -/
def beginPress (s : State) : State :=
  match s.press.batch with
  | some b =>
    if s.press.state = .done ∧ s.line = .run ∧ (pressesToRework b ∨ gateOpenFor b s) then openPress b s else s
  | none => s

/-- R117: the press completes. -/
def completePress (s : State) : State :=
  let s1 := haltPresser s
  retireTo s.press.dest s.press.batch
    { s1 with press := StageRec.ofState .empty, train := { s1.train with steam := s1.train.steam.halt } }

/-! ### Feeder loops by their conditions (R107, R116) -/

/-- R106, R107: the grinder loop runs. -/
def grinderWanted (s : State) : Bool := s.surge.busyWith .grinding && decide (s.line = .run)

/-- R116: the press loop runs. -/
def presserWanted (s : State) : Bool :=
  s.press.busyWith .pressing && decide (s.line = .run) && s.train.steam.inBand

/-- A loop is started, halted, or left as it is while its stage is HELD (R104). -/
def FeedLoop.follow (held wanted : Bool) (p : LoopParams) (l : FeedLoop) : FeedLoop :=
  if held then l else if wanted then l.start p else l.halt

def followLoops (s : State) : State :=
  { s with train := { s.train with
      grinder := s.train.grinder.follow (decide (s.surge.state = .held)) (grinderWanted s) s.params.grinder
      presser := s.train.presser.follow (decide (s.press.state = .held)) (presserWanted s) s.params.press } }

/-! ### Rework in flight (R118) -/

/-- The record is of the order. -/
def ofOrder (id : Nat) (b : Option Batch) : Bool :=
  match b with
  | some b => decide (b.order = some id)
  | none => false

/-- The stage's record gains the REWORK flag. -/
def StageRec.flag (r : StageRec) : StageRec := { r with batch := r.batch.map (fun b => { b with rework := true }) }

/-- R118: the flag on the record of MIXER or PRESS; an open outflow into the finished bin is switched. -/
def flagStage (i : StageId) (p : Phase) (s : State) : State :=
  let r := stageOf i s
  if r.within p && decide (r.dest = some .finished) then
    leaveFinished (setStage i { r.flag with dest := some .rework } s)
  else setStage i r.flag s

/-- R118, R83: every record of the order in the pipeline is flagged REWORK. -/
def flagOrder (id : Nat) (s : State) : State :=
  let s1 := if ofOrder id s.press.batch then flagStage .press .pressing s else s
  let s2 := if ofOrder id s1.mixer.batch then flagStage .mixer .discharging s1 else s1
  let s3 := if ofOrder id s2.surge.batch then { s2 with surge := s2.surge.flag } else s2
  if ofOrder id (scaleRecord s3) then reworkScale s3 else s3

/-! ### Stage dumps (R119, R120) and the dump of the finished bin (R121) -/

/-- R119: the dump is taken. -/
def stageDumpTaken (i : StageId) (s : State) : Bool :=
  let r := stageOf i s
  (decide (s.line = .paused)
      || (decide (r.state = .held) && (decide (s.line = .run) || decide (s.line = .paused))))
    && !r.busyWith .receiving && !r.busyWith .dumping && !r.busyWith .discharging

/-- R119: the receiving side of a transfer that a dump ends. -/
def settleReceiver (r : StageRec) (s : State) : State :=
  match r.dest with
  | some .mixer => if r.within .grinding then { s with mixer := StageRec.ofState .unknown } else s
  | some .press => if r.within .discharging then { s with press := StageRec.ofState .unknown } else s
  | some .finished => if r.within .discharging || r.within .pressing then leaveFinished s else s
  | _ => s

/-- R119: for PRESS the steam loop is halted. -/
def haltSteamOf (i : StageId) (s : State) : State :=
  if i = .press then { s with train := { s.train with steam := s.train.steam.halt } } else s

/-- R119. -/
def dumpStage (i : StageId) (s : State) : State :=
  let r := stageOf i s
  haltSteamOf i (haltStageLoop i
    (setStage i (StageRec.busyIn .dumping r.flag.batch none) (settleReceiver r s)))

/-- R120: a stage dumped while barred: HELD with resume EMPTY (its phase stays: notes/assumptions/29.md). -/
def StageRec.heldEmpty : StageRec :=
  { state := .held, phase := some .dumping, batch := none, dest := none, resume := some .empty }

/-- R120: the dump completes. -/
def completeStageDump (i : StageId) (s : State) : State :=
  let r := stageOf i s
  let after := if stageBarred i s then StageRec.heldEmpty else StageRec.ofState .empty
  retireTo (some .rework) r.batch (setStage i after s)

/-- R121: the dump of the finished bin is taken. -/
def finishedDumpTaken (s : State) : Bool := decide (s.line = .paused) && !s.fin.entering && !s.fin.dumping

/-- R121, R152: the finished bin's dump gate opens. -/
def openFinishedDump (s : State) : State := { s with fin := { s.fin with dumping := true } }

/-- R121, R152, R153: a dump or clearance of the finished bin completes. -/
def completeFinishedDump (s : State) : State :=
  { s with fin := { s.fin with dumping := false, order := none, cancelled := false, unknown := false }
           bagger := { s.bagger with mode := .bagging } }

/-- R111: the mass is updated at a sample that forms a filtered weight. -/
def updateFinishedMass (s : State) : State :=
  match s.finConv.weight with
  | some w => { s with fin := { s.fin with mass := some (satMass w.toNat) } }
  | none => s

/-- R111: the record goes empty, and a CANCELLED one too, which R21 and R121 leave to a dump: the model follows R111
(its choice, notes/assumptions/32.md). -/
def emptyFinished (s : State) : State :=
  if !s.fin.entering && !s.fin.dumping && !s.fin.unknown && s.finConv.isEmpty s.params.emptyBand then
    { s with fin := { s.fin with order := none, cancelled := false } }
  else s

/-- R121: the dump completes by a sample, in every line state (notes/assumptions/20.md). -/
def dumpEmptied (s : State) : State :=
  if s.fin.dumping && s.finConv.stable && s.finConv.isEmpty s.params.emptyBand then completeFinishedDump s else s

/-! ### Stop and resume (R123, R181) -/

/-- R123: the STOP line is asserted. -/
def stopTrain (s : State) : State :=
  let s1 := haltLoops s
  { s1 with train := { s1.train with motorsHeld := true, steam := s1.train.steam.halt } }

/-- R123, R181: RESUME starts the motors held off, and the steam loop of a PRESS in PRESSING. -/
def resumeTrain (s : State) : State :=
  { s with train := { s.train with
      motorsHeld := false
      steam := if s.press.within .pressing then { s.train.steam with running := true } else s.train.steam } }

/-! ### Timers of the train -/

/-- The line is not STOPPED. -/
def notStopped (s : State) : Bool := decide (s.line ≠ .stopped)

/-- The dump runout timer of a stage (R120). -/
def dumpTimer (r : StageRec) (empty : Bool) (full : Nat) (s : State) (t : Timer) : Timer :=
  Timer.during (r.busyWith .dumping && notStopped s && empty) full t

/-- R107, R109, R114, R116, R117, R120, R121. -/
def trainTimers (s : State) : State :=
  { s with train := { s.train with
      grindRunout := Timer.during (s.surge.busyWith .grinding && decide (s.line = .run) && s.inputs.surgeEmpty)
        s.params.grindRunout s.train.grindRunout
      mix := Timer.freezing (s.mixer.busyWith .mixing) (decide (s.line = .run)) s.params.mixTime s.train.mix
      mixerRunout := Timer.during (s.mixer.busyWith .discharging && notStopped s && s.inputs.mixerEmpty)
        s.params.mixerRunout s.train.mixerRunout
      dischargeLimit := Timer.freezing (s.mixer.busyWith .discharging) (notStopped s) s.params.dischargeTimeout
        s.train.dischargeLimit
      pressRunout := Timer.during (s.press.busyWith .pressing && decide (s.line = .run) && s.inputs.pressBinEmpty)
        s.params.pressRunout s.train.pressRunout
      conditioning := Timer.during (s.press.busyWith .pressing && decide (s.line = .run) && !s.train.steam.inBand
        && !s.inputs.pressBinEmpty) s.params.condTimeout s.train.conditioning
      surgeDump := dumpTimer s.surge s.inputs.surgeEmpty s.params.grindRunout s s.train.surgeDump
      mixerDump := dumpTimer s.mixer s.inputs.mixerEmpty s.params.mixerRunout s s.train.mixerDump
      pressDump := dumpTimer s.press s.inputs.pressBinEmpty s.params.pressRunout s s.train.pressDump
      finishedDump := Timer.during
        (s.fin.dumping && notStopped s && s.finConv.residueStands s.params.emptyBand)
        s.params.settleTimeout s.train.finishedDump } }

end Sys2Proof.Machine
end

