-- ==== Sys2Proof/Machine/Loading.lean ====
section
/-! DEFINITION. Loading by loss in weight (09_trucks_and_the_loading_bay.md R167, R171 to R176): the choice of a target, the
taking of a bay, the spout, the settle of a step and the marking of a loaded compartment. -/
namespace Sys2Proof.Machine

/-! ### The loading target (R167) -/

/-- OPEN or LOADING. -/
def Compartment.loadable (c : Compartment) : Bool := decide (c.state = .opened) || decide (c.state = .loading)

/-- R167: the compartment of a truck qualifies as a loading target for an order. -/
def qualifies (id spoutF : Nat) (t : Truck) (c : Compartment) : Bool :=
  decide (c.order = some id) && c.loadable && !c.refused && t.bay.isSome && decide (c.mass + spoutF < c.capacity)

/-- R167: the order of preference among compartments. -/
def targetAhead (a b : Truck × Nat × Compartment) : Bool :=
  let la := decide (a.2.2.state = .loading)
  let lb := decide (b.2.2.state = .loading)
  let da := a.1.departure.getD 1440
  let db := b.1.departure.getD 1440
  if la ≠ lb then la
  else if da ≠ db then decide (da < db)
  else if a.1.truck ≠ b.1.truck then decide (a.1.truck < b.1.truck)
  else decide (a.2.1 < b.2.1)

/-- The first of a list by R167's order of preference. -/
def firstTarget : List (Truck × Nat × Compartment) → Option (Truck × Nat × Compartment)
  | [] => none
  | p :: ps =>
    match firstTarget ps with
    | none => some p
    | some q => if targetAhead q p then some q else some p

/-- R167: the loading target chosen for an order. -/
def chooseTarget (id : Nat) (s : State) : Option (Truck × Nat × Compartment) :=
  firstTarget ((allComps s).filter (fun p => qualifies id s.params.spoutF p.1 p.2.2))

/-! ### Taking a bay and giving it up (R167, R171) -/

/-- The finished bin's filtered weight lies above the empty band. -/
def finWeightAbove (s : State) : Bool :=
  match s.finConv.weight with
  | some w => decide ((s.params.emptyBand : Int) < w)
  | none => false

/-- The Order Book holds the order of the finished bin's record, BULK and not cancelled. -/
def finBulk (s : State) : Bool :=
  match s.fin.order.bind (fun id => findOrder id s) with
  | some o => !o.bagged && !o.cancelled
  | none => false

/-- R167: the conditions other than the own hold, the step, the target and the free bay. -/
def loadoutWanted (s : State) : Bool :=
  s.straps.loadout && decide (s.line = .run) && !unitHeld .loadout s && !s.rx.listening && !standing .addressClash s
    && permitsDrawing s && !s.fin.entering && finWeightAbove s && finBulk s

/-- R167: the target an order's material may take now. -/
def takeTarget (s : State) : Option (Truck × Nat × Compartment) := s.fin.order.bind (fun id => chooseTarget id s)

/-- The bay is free (R165). -/
def bayFree (bay : Nat) (s : State) : Bool :=
  match findBay bay s with
  | some b => decide (b.remaining = 0)
  | none => false

/-- R167: the taking event. A hold that finds no place in the queue is dropped at once (R168): the bay stays free. -/
def takeBayFor (truck number bay : Nat) (s : State) : State :=
  let b : Body := .bayHold bay truck s.params.holdDuration false
  let s1 := queueFrame b s
  if hasRoom b s then
    setOwnBay bay { s1 with hold := { OwnHold.blank with
      state := .taking, bay := some bay, truck := some truck, comp := some number } }
  else s1

/-- R167: the bay of the target is free. -/
def targetBay (t : Truck) (s : State) : Option Nat := t.bay.bind (fun b => if bayFree b s then some b else none)

/-- R167. -/
def takeBay (s : State) : State :=
  if s.hold.state = .nothing ∧ s.step = none ∧ loadoutWanted s then
    match takeTarget s with
    | some p =>
      match targetBay p.1 s with
      | some bay => takeBayFor p.1.truck p.2.1 bay s
      | none => s
    | none => s
  else s

/-- R171: the own hold's target still qualifies, at the bay of the hold. -/
def holdQualifies (s : State) : Bool :=
  match s.fin.order, s.hold.truck.bind (fun t => findTruck t s) with
  | some id, some t =>
    match t.comp (s.hold.comp.getD 0) with
    | some c => qualifies id s.params.spoutF t c && decide (t.bay = s.hold.bay)
    | none => false
  | _, _ => false

/-- R171: a hold with no step begun is released where a condition of its taking has failed. -/
def abandonBay (s : State) : State :=
  if s.hold.state ≠ .nothing ∧ ¬s.hold.stepped ∧ ¬(loadoutWanted s && holdQualifies s) then releaseHold s else s

/-! ### The step (R173 to R175) -/

/-- R173: the spout opens. -/
def openSpout (w : Int) (id truck number : Nat) (base : Mass) (s : State) : State :=
  let s1 := updComp truck number (fun c => { c with state := .loading }) s
  { s1 with
    step := some { truck := truck, comp := number, order := id, weight := w, base := base, cause := none }
    hold := { s1.hold with loading := true, stepped := true } }

/-- R173: the conditions of the opening other than those of the target. -/
def spoutAllowed (s : State) : Bool :=
  s.straps.loadout && decide (s.hold.state = .held) && decide (s.params.guardTime < s.hold.remaining)
    && decide (s.step = none) && !s.hold.stepped && decide (s.line = .run) && !unitHeld .loadout s
    && permitsDrawing s && !s.fin.entering && s.finConv.stable && finWeightAbove s && finBulk s

/-- R173: at a sample of the finished bin. -/
def trySpout (s : State) : State :=
  match s.finConv.weight, s.fin.order with
  | some w, some id =>
    if spoutAllowed s && holdQualifies s then
      let truck := s.hold.truck.getD 0
      let number := s.hold.comp.getD 0
      match findComp truck number s with
      | some c => openSpout w id truck number c.mass s
      | none => s
    else s
  | _, _ => s

/-- R174: the mass loaded so far is written into the target. -/
def writeLoaded (st : LoadStep) (w : Int) (s : State) : State :=
  updComp st.truck st.comp (fun c => { c with mass := satMass (st.base + stepMass st w) }) s

/-- R174: the target is full; COMPARTMENT_FULL is raised. -/
def fillTarget (st : LoadStep) (w : Int) (s : State) : State :=
  raiseFault .compartmentFull (some st.order)
    [.byte st.truck, .byte st.comp, .mass (satMass (st.base + stepMass st w))]
    (updComp st.truck st.comp (fun c => { c with state := .full }) (closeSpout .full s))

/-- R174: the loaded mass has reached the target's capacity, less the spout's in-flight value. -/
def targetFull (st : LoadStep) (w : Int) (s : State) : Bool :=
  match findComp st.truck st.comp s with
  | some c => decide (c.capacity ≤ satMass (st.base + stepMass st w) + s.params.spoutF)
  | none => false

/-- R174: a sample while the spout is OPEN. -/
def loadSample (s : State) : State :=
  match s.step, s.finConv.weight with
  | some st, some w =>
    if st.cause = none then
      let s1 := writeLoaded st w s
      if within s.params.emptyBand w then closeSpout .empty s1
      else if targetFull st w s1 then fillTarget st w s1
      else s1
    else s
  | _, _ => s

/-- R175: the final mass is written where the target still takes it. -/
def writeFinal (st : LoadStep) (s : State) : State :=
  match findComp st.truck st.comp s, s.finConv.weight with
  | some c, some w =>
    if c.order = some st.order ∧ (c.state = .loading ∨ c.state = .full) then writeLoaded st w s else s
  | _, _ => s

/-- R175: the settle of the step ends. -/
def endStep (s : State) : State :=
  match s.step with
  | some st =>
    let s1 := writeFinal st s
    let s2 : State := { s1 with step := none, stepTimer := .stopped }
    if s2.hold.state = .held then releaseHold s2 else s2
  | none => s

/-- R175: the settle ends by a stable sample. -/
def settleStep (s : State) : State := if stepSettling s && s.finConv.stable then endStep s else s

/-- R174, R175: a transfer into the bin, a dump of it, or the end of the permission to draw. -/
def watchStep (s : State) : State :=
  let s1 :=
    if s.fin.entering then closeSpout .entering s
    else if permitsDrawing s then s
    else closeSpout .bin s
  if stepSettling s1 && (s1.fin.entering || s1.fin.dumping) then endStep s1 else s1

/-! ### Marking a compartment LOADED (R10, R176) -/

/-- R10: the run is filled. -/
def runFilled (o : Order) (s : State) : Bool :=
  o.taken && !o.bagged && o.plan.allAdmitted && o.plan.makeUp.isNone && !inPipeline o.id s
    && decide (o.runMass ≤ o.plan.massFinished)

/-- R176: a compartment may be marked for the order. -/
def markable (id : Nat) (c : Compartment) : Bool := decide (c.order = some id) && c.loadable && !c.refused

/-- R176: the first compartment to be marked. -/
def markTarget (id : Nat) (s : State) : Option (Truck × Nat × Compartment) :=
  firstTarget ((allComps s).filter (fun p => markable id p.2.2))

/-- R11, R176: the compartment is marked, the frame queued, the run completed. -/
def markLoadedFor (o : Order) (s : State) : State :=
  if runFilled o s && !o.cancelled && decide (s.fin.order ≠ some o.id) && decide (s.step = none) then
    match markTarget o.id s with
    | some p =>
      completeRun o.id (queueFrame (.loaded p.1.truck p.2.1 o.id p.2.2.mass)
        (updComp p.1.truck p.2.1 (fun c => { c with state := .loaded, here := true }) s))
    | none => s
  else s

def markAll : List Order → State → State
  | [], s => s
  | o :: os, s => markAll os (markLoadedFor o s)

/-- R176. -/
def markLoaded (s : State) : State := markAll (ranked s s.slots) s

end Sys2Proof.Machine
end

