-- ==== Sys2Proof/Machine/Packing.lean ====
section
/-! DEFINITION. The bagger (08_bagging.md, and R9 to R12 where bags bear on them): charges, the spout, bag counting, the
clearance of the finished bin, make-up batches. -/
namespace Sys2Proof.Machine

/-! ### The bucket and its charge (R141) -/

def setBucket (b : Bucket) (s : State) : State := { s with bagger := { s.bagger with bucket := b } }

def updCharge (f : Charge → Charge) (s : State) : State :=
  { s with bagger := { s.bagger with charge := s.bagger.charge.map f } }

def interruptCharge (s : State) : State := updCharge (fun c => { c with interrupted := true }) s

/-- The gain of a charge, absent without a filtered weight. -/
def chargeGain (c : Charge) (s : State) : Option Int := s.bucketConv.weight.map (fun w => w - c.tare)

/-- R93, R96: T − S. -/
def chargeSwitch (c : Charge) (s : State) : Int := (c.target : Int) - s.params.baggerSlow

/-- R93, R96: T − F. -/
def chargeClose (c : Charge) (s : State) : Int := (c.target : Int) - s.bagger.inFlight

/-- A charge of the order is in hand (R141, R154). -/
def inHand (id : Nat) (s : State) : Bool :=
  match s.bagger.charge with
  | some c => decide (c.order = id) && decide (c.outlet = .bag)
  | none => false

/-! ### Beginning a charge (R142) -/

/-- R142: the order whose charge may begin. -/
def chargeOrder (s : State) : Option Order :=
  match s.fin.order.bind (fun id => findOrder id s) with
  | some o =>
    if o.bagged ∧ ¬o.cancelled ∧ o.plan.bags < o.bagsPerRun ∧ o.bagSize ≤ s.fin.mass.getD 0 then some o else none
  | none => none

/-- R142: the bagger's conditions. -/
def chargeAllowed (s : State) : Bool :=
  decide (s.bagger.mode = .bagging) && decide (s.bagger.bucket = .empty) && s.bucketConv.stable && permitsDrawing s
    && decide (s.line = .run)

/-- R142. -/
def beginCharge (o : Order) (w : Int) (s : State) : State :=
  let jogOnly := decide (o.bagSize ≤ s.bagger.inFlight)
  { s with bagger := { s.bagger with
      charge := some { order := o.id, target := o.bagSize, tare := w, jogOnly := jogOnly
                       jogs := if jogOnly then 1 else 0, e1 := none, interrupted := false, outlet := .bag, cause := none }
      bucket := if jogOnly then .jog false else .filling (decide (s.params.baggerSlow < o.bagSize)) } }

/-- R143: the bucket's auto-zero. -/
def zeroBucket (s : State) : State :=
  match s.bucketConv.lastGross with
  | some g =>
    if s.bucketConv.stable && within s.params.zeroBand g && !s.bagger.zeroed then
      { s with bucketConv := s.bucketConv.autoZero, bagger := { s.bagger with zeroed := true } }
    else s
  | none => s

/-- R142, R143: a sample of the EMPTY bucket. -/
def emptySample (s : State) : State :=
  match chargeOrder s, s.bucketConv.weight with
  | some o, some w => if chargeAllowed s then beginCharge o w s else zeroBucket s
  | _, _ => zeroBucket s

/-! ### Judgement (R145 to R147) -/

/-- R147: the bagger's F is adapted where the charge qualifies. -/
def adaptBagger (c : Charge) (s : State) : State :=
  match c.jogOnly, c.interrupted, c.e1 with
  | false, false, some e1 =>
    { s with bagger := { s.bagger with
        inFlight := adapt s.params.adaptGain s.params.baggerFMax s.bagger.inFlight e1 } }
  | _, _, _ => s

/-- CHARGED with outlet BAG (R145, R147). -/
def acceptCharge (c : Charge) (s : State) : State := setBucket .charged (adaptBagger c s)

/-- CHARGED with outlet CHUTE, cause REJECT, and the note (R145 to R147). -/
def rejectCharge (c : Charge) (detail : List DetailField) (s : State) : State :=
  let s1 := updCharge (fun c => { c with outlet := .chute, cause := some .reject }) (adaptBagger c s)
  raiseFault .chargeReject (some c.order) detail (setBucket .charged s1)

/-- The error a rejected charge reports: its gain, as it stands, less T (notes/assumptions/23.md). -/
def errorNow (c : Charge) (s : State) : List DetailField :=
  match chargeGain c s with
  | some g => [.wide (g - c.target)]
  | none => [.wide (-(c.target : Int))]

/-- R146: JOG is entered. -/
def enterBaggerJog (s : State) : State :=
  setBucket (.jog false) (updCharge (fun c => { c with jogs := c.jogs + 1 }) s)

/-- R145: a first or jog settle is judged. -/
def judgeCharge (first : Bool) (g : Int) (c : Charge) (s : State) : State :=
  let e := g - c.target
  let c1 : Charge := if first then { c with e1 := some e } else c
  let s1 := if first then updCharge (fun c => { c with e1 := some e }) s else s
  match judge s.params.bagTolerance e with
  | .within => acceptCharge c1 s1
  | .above => rejectCharge c1 [.wide e] s1
  | .under =>
    if c.jogs < s.params.baggerJogLimit ∧ permitsDrawing s then enterBaggerJog s1 else rejectCharge c1 [.wide e] s1

/-- R156: the end of a resume settle; the close point is tested first (notes/assumptions/16.md). -/
def resumeCharge (g : Int) (c : Charge) (s : State) : State :=
  if chargeClose c s ≤ g ∨ ¬permitsDrawing s then judgeCharge false g c s
  else setBucket (.filling (decide (g < chargeSwitch c s))) s

/-- R145, R156: a stable sample in SETTLING. -/
def settleCharge (p : BucketPurpose) (g : Int) (c : Charge) (s : State) : State :=
  match p with
  | .first => if s.moving then judgeCharge true g c s else s
  | .jog => if s.moving then judgeCharge false g c s else s
  | .resume => if s.line = .run then resumeCharge g c s else s

/-- R144: the feeder closes; the settle that follows is a resume settle for an interrupted charge. -/
def closeFill (c : Charge) (s : State) : State :=
  setBucket (.settling (if c.interrupted then .resume else .first)) s

/-- R144: a sample in FILLING. -/
def fillSample (fast : Bool) (g : Int) (c : Charge) (s : State) : State :=
  if chargeClose c s ≤ g then closeFill c s
  else if fast ∧ chargeSwitch c s ≤ g then setBucket (.filling false) s
  else s

/-! ### Counting bags (R9, R11, R152) -/

/-- R152, R153: a clearance of the finished bin begins. -/
def beginClearance (mode : BaggerMode) (id : Nat) (s : State) : State :=
  let s1 := openFinishedDump { s with bagger := { s.bagger with mode := mode } }
  if finAboveBand s then raiseFault .residue (some id) [.mass (s.fin.mass.getD 0)] s1 else s1

/-- R152: BAG_END, with a clearance where the record holds the order's id. -/
def bagEnd (id : Nat) (s : State) : State :=
  if s.fin.order = some id then beginClearance .bagEnd id s else s

/-- R9: a bagged run completes; its records on the line are surplus (R118). -/
def completeBagged (id : Nat) (s : State) : State :=
  bagEnd id (completeRun id (flagOrder id s))

/-- R9, R21: a bag is reported for an order. -/
def countBag (id : Nat) (s : State) : State :=
  match findOrder id s with
  | some o =>
    if o.taken ∧ o.bagged ∧ ¬o.cancelled ∧ o.plan.bags < o.bagsPerRun then
      let s1 := updOrder id (fun o => { o with plan := { o.plan with bags := o.plan.bags + 1 } }) s
      if o.plan.bags + 1 = o.bagsPerRun then completeBagged id s1 else s1
    else s
  | none => s

/-- The bucket enters EMPTY from a discharge (R143, R149, R150). -/
def emptyBucket (s : State) : State :=
  { s with bagger := { s.bagger with bucket := .empty, charge := none, zeroed := false, discharge := .stopped } }

/-- R149, R150: a discharge of the bucket completes. -/
def completeBucket (s : State) : State :=
  match s.bagger.bucket, s.bagger.charge with
  | .discharging, some c =>
    if c.outlet = .bag then
      let s1 := emptyBucket s
      countBag c.order { s1 with bagger := { s1.bagger with spout := .filled } }
    else emptyBucket s
  | _, _ => emptyBucket s

/-- R149: a sample ends the discharge. -/
def dischargeEnded (s : State) : Bool :=
  s.bucketConv.isEmpty s.params.emptyBand
    || (decide (s.bagger.discharge = .expired) && s.bucketConv.stable && s.bucketConv.weight.isSome)

/-- R142 to R150: what a sample does in the state the bucket stands in. A state entered in the sample's own event is not
tested at that sample (the model's choice, notes/assumptions/41.md); a discharge ends in every line state
(notes/assumptions/20.md). -/
def bucketStep (s : State) : State :=
  match s.bagger.bucket with
  | .empty => emptySample s
  | .filling fast =>
    match s.bagger.charge with
    | some c => match chargeGain c s with | some g => fillSample fast g c s | none => s
    | none => s
  | .settling p =>
    match s.bagger.charge with
    | some c =>
      match chargeGain c s with
      | some g => if s.bucketConv.stable then settleCharge p g c s else s
      | none => s
    | none => s
  | .discharging => if dischargeEnded s then completeBucket s else s
  | .unknown true => if dischargeEnded s then completeBucket s else s
  | _ => s

/-! ### Timers of the bagger (R144 to R146, R149) -/

/-- R144: the fill timer expires. -/
def fillExpiry (s : State) : State := setBucket (.settling .first) (interruptCharge s)

/-- R145: the settle timer expires. -/
def bucketTimeout (s : State) : State :=
  match s.bagger.charge with
  | some c =>
    let c1 : Charge := { c with interrupted := true }
    rejectCharge c1 (errorNow c s) (interruptCharge s)
  | none => s

/-- R146: the pulse ends. -/
def jogEnded (s : State) : State := setBucket (.settling .jog) s

/-- R149: the discharge timer expires. -/
def dischargeExpired (s : State) : State := { s with bagger := { s.bagger with discharge := .expired } }

/-- The bucket is in SETTLING. -/
def Bucket.isSettling : Bucket → Bool
  | .settling _ => true
  | _ => false

/-- The bucket is in FILLING. -/
def Bucket.isFilling : Bucket → Bool
  | .filling _ => true
  | _ => false

/-- The bucket is emptying to an outlet. -/
def Bucket.emptying : Bucket → Bool
  | .discharging | .unknown true => true
  | _ => false

/-- R144, R145, R146, R149, R156. -/
def baggerTimers (s : State) : State :=
  { s with bagger := { s.bagger with
      fill := Timer.during (s.bagger.bucket.isFilling && s.moving) s.params.chargeLimit s.bagger.fill
      settle := Timer.during (s.bagger.bucket.isSettling && s.moving) s.params.settleTimeout s.bagger.settle
      jog := Timer.during (decide (s.bagger.bucket = .jog true)) s.params.baggerJogTime s.bagger.jog
      discharge := Timer.freezing s.bagger.bucket.emptying (notStopped s) s.params.settleTimeout s.bagger.discharge } }

/-! ### Begins and withdrawn permission (R144, R146, R149, R150) -/

/-- R144, R146: the finished bin's record no longer permits drawing. -/
def watchPermission (s : State) : State :=
  if permitsDrawing s then s
  else
    match s.bagger.bucket, s.bagger.charge with
    | .filling _, some _ => setBucket (.settling .first) (interruptCharge s)
    | .jog true, some _ => setBucket (.settling .jog) (interruptCharge s)
    | .jog false, some c => rejectCharge c (errorNow c s) s
    | _, _ => s

/-- R146: a pending pulse begins. -/
def beginBaggerPulse (s : State) : State :=
  if s.bagger.bucket = .jog false ∧ s.line = .run ∧ permitsDrawing s then setBucket (.jog true) s else s

/-- R149, R150: a gate of the bucket opens; the discharge timer starts afresh at the end of the event. -/
def openBucket (b : Bucket) (s : State) : State :=
  { s with bagger := { s.bagger with bucket := b, discharge := .stopped } }

/-- R149, R150: a discharge begins. -/
def beginBucketDischarge (s : State) : State :=
  if s.line = .run then
    match s.bagger.bucket, s.bagger.charge with
    | .charged, some c =>
      if c.outlet = .chute then openBucket .discharging s
      else if s.bagger.spout = .ready then
        openBucket .discharging { s with bagger := { s.bagger with spout := .receiving } }
      else s
    | .unknown false, _ => openBucket (.unknown true) s
    | _, _ => s
  else s

/-! ### The spout (R148), cancelled orders (R151), the remainder (R153) -/

/-- R148: the bag is lost during its discharge. -/
def loseBag (s : State) : State :=
  let s1 : State := { s with bagger := { s.bagger with spout := .vacant, bucket := .charged } }
  match s1.bagger.charge with
  | some c =>
    raiseFault .chargeReject (some c.order) []
      (updCharge (fun c => { c with outlet := .chute, cause := some .reject }) s1)
  | none => s1

/-- R148: the clamp input changes. -/
def clampChanged (present : Bool) (s : State) : State :=
  match s.bagger.spout, present with
  | .vacant, true => { s with bagger := { s.bagger with spout := .ready } }
  | .ready, false => { s with bagger := { s.bagger with spout := .vacant } }
  | .filled, false => { s with bagger := { s.bagger with spout := .vacant } }
  | .receiving, false => loseBag s
  | _, _ => s

/-- R151: a charge of the order is voided. -/
def voidCharge (id : Nat) (s : State) : State :=
  match s.bagger.charge with
  | some c =>
    if c.order = id ∧ s.bagger.bucket ≠ .discharging then
      setBucket .charged (updCharge (fun c => { c with outlet := .chute, cause := some .void }) s)
    else s
  | none => s

/-- R153: the material of the record will not be bagged further. -/
def remainderDue (s : State) : Bool :=
  match s.fin.order with
  | none => false
  | some id =>
    match findOrder id s with
    | none => true
    | some o =>
      o.bagged && decide (o.state = .held) && !inPipeline id s && decide (s.fin.mass.getD 0 < o.bagSize)

/-- R153. -/
def beginRemainder (s : State) : State :=
  if s.straps.bagger && decide (s.bagger.mode = .bagging) && decide (s.bagger.bucket = .empty)
      && decide (s.line = .run) && permitsDrawing s && !s.fin.entering && finAboveBand s && remainderDue s then
    beginClearance .remainder (s.fin.order.getD 0) s
  else s

/-! ### Make-up batches (R12) -/

/-- R12: the bin holds no material of the order, or less than one bag; a charge in hand counts as a bag (R154). -/
def residueShort (o : Order) (s : State) : Bool :=
  !inHand o.id s
    && (decide (s.fin.order ≠ some o.id)
      || (match s.fin.mass with | some m => decide (m < o.bagSize) | none => false))

/-- R12: the run is short while nothing of it remains to come. -/
def makeUpDue (o : Order) (s : State) : Bool :=
  o.taken && !o.cancelled && o.plan.allAdmitted && o.plan.makeUp.isNone && !inPipeline o.id s
    && (match o.delivery with
      | .bagged _ bags => decide (o.plan.bags < bags) && residueShort o s
      | .bulk _ => decide (o.plan.massFinished < o.runMass))

/-- R12: the make-up mass. -/
def makeUpMass (minBatch allowance : Nat) (o : Order) : Nat :=
  max minBatch
    (match o.delivery with
      | .bagged size bags => bagMass (bags - o.plan.bags) size allowance
      | .bulk _ => o.runMass - o.plan.massFinished)

/-- No order of the book is ACTIVE but this one. -/
def noOtherActive (id : Nat) (s : State) : Bool :=
  s.slots.all (fun o => decide (o.id = id) || decide (o.state ≠ .active))

/-- R12: make-up batches are created for an order. -/
def makeUpFor (o : Order) (s : State) : State :=
  if makeUpDue o s then
    let m := makeUpMass s.params.minBatch s.params.bagAllowance o
    updOrder o.id (fun o => { o with
      plan := { o.plan with makeUp := some { mass := m, batches := splitCount m s.params.batchSize, admitted := 0 } }
      state := if 1 ≤ o.level ∧ noOtherActive o.id s then .active else .held }) s
  else s

def makeUpAll : List Order → State → State
  | [], s => s
  | o :: os, s => makeUpAll os (makeUpFor o s)

/-- R12: every order that is due; of several, the first in the ranking of R16 may become ACTIVE (R1). -/
def makeUps (s : State) : State := makeUpAll (ranked s s.slots) s

/-! ### Pause and stop (R155, R156) -/

/-- R155: the bagger stands at its pause point. -/
def baggerAtPause (s : State) : Bool :=
  match s.bagger.bucket with
  | .filling _ | .jog true | .settling .first | .settling .jog => false
  | _ => true

/-- R156: the STOP line is asserted. -/
def stopBagger (s : State) : State :=
  match s.bagger.bucket with
  | .filling _ | .jog true | .settling .first | .settling .jog => setBucket (.settling .resume) (interruptCharge s)
  | _ => s

end Sys2Proof.Machine
end

