-- ==== Sys2Proof/Machine/Flags.lean ====
section
/-! DEFINITION. The lamps and every output of the node, read from its state (R62, R73, R99, R104, R107, R108, R114, R116,
R120, R121, R141, R167, R172, R182, R186, R203, R205; notes/assumptions/24.md). -/
namespace Sys2Proof.Machine

/-! ### Lamps (R186, R205) -/

/-- A STOP or HOLD record is unacknowledged. -/
def graveStanding (s : State) : Bool := s.faults.any (fun r => r.key.grave && !r.acked)

/-- A record is unacknowledged. -/
def anyStanding (s : State) : Bool := s.faults.any (fun r => !r.acked)

/-- R186: the FAULT lamp flashes. -/
def faultFlashes (s : State) : Bool := anyStanding s && !graveStanding s

/-- R186: the RUN lamp flashes. -/
def runFlashes (s : State) : Bool := decide (s.line = .pausing)

/-- R186: half of the flashing's period, in milliseconds. -/
def flashHalf : Nat := 500

/-- R205: at a start-up fault, four times the rate. -/
def flashHalfFast : Nat := 125

/-- A lamp begins to flash lit, flashes on, or stops. -/
def Flash.follow (flashes : Bool) (half : Nat) (f : Flash) : Flash :=
  if flashes then (if f.timer.isRunning then f else { lit := true, timer := .running half })
  else { lit := false, timer := .stopped }

/-- The flash timer expires. -/
def Flash.toggle (f : Flash) : Flash := { f with lit := !f.lit }

/-! ### Feeder channels (R62) -/

/-- R62: the rate of the channel in use. -/
def feedRate (s : State) : FeedRate :=
  match s.scale.state with
  | .feedFast => .fast
  | .feedSlow => .slow
  | .jog true => .slow
  | _ => .off

/-- R62: the number of the channel wired to the bin of the component in progress. -/
def channelInUse (s : State) : Option Nat := ((curDose s).bind (fun d => doseChannel d s)).map Channel.number

/-- R62: the output of a channel. -/
def channelOutput (s : State) (c : Channel) : FeedRate :=
  if channelInUse s = some c.number then feedRate s else .off

/-! ### The outputs -/

/-- R141: the bagger's feeder. -/
def bagFeed (s : State) : FeedRate :=
  match s.bagger.bucket with
  | .filling true => .fast
  | .filling false => .slow
  | .jog true => .slow
  | _ => .off

/-- The bucket discharges to an outlet (R149, R150). -/
def dischargesTo (o : Outlet) (s : State) : Bool :=
  decide (s.bagger.bucket = .discharging)
    && (match s.bagger.charge with | some c => decide (c.outlet = o) | none => false)

/-- R73: the HAND_ADD lamp. -/
def handAddLit (s : State) : Bool :=
  decide (s.scale.state = .handAdd) || decide (s.scale.state = .settle .handAdd)

/-- R186: the FAULT lamp. -/
def faultLit (s : State) : Bool := graveStanding s || (faultFlashes s && s.lamps.fault.lit)

/-- R186: the RUN lamp. -/
def runLit (s : State) : Bool := decide (s.line = .run) || (runFlashes s && s.lamps.run.lit)

/-- R203: once sampled, strap pins 1 to 4 drive the lamps and pins 5 to 11 are driven off. -/
def lampPins (fault run handAdd bay : Bool) : List Bool := [fault, run, handAdd, bay] ++ List.replicate 7 false

/-- Every output of a node that takes events. R113, R115 set a diverter at the begin of a discharge or press; while
none is open it is driven to no position (the model's choice, notes/assumptions/33.md). -/
def outputsOf (s : State) : Outputs :=
  let open_ := notStopped s
  { channels := s.channels.map (channelOutput s)
    scaleDischarge := decide (s.scale.state = .discharge) && open_
    scaleDump := decide (s.scale.state = .dumping) && open_
    grinderFeed := if s.surge.busyWith .grinding then s.train.grinder.speed else 0
    pressFeed := if s.press.busyWith .pressing then s.train.presser.speed else 0
    steamValve := if s.train.steam.running then s.train.steam.valve else 0
    grinderMotor := !s.train.motorsHeld && s.surge.within .grinding
    mixerMotor := !s.train.motorsHeld
      && (decide (s.mixer.state = .busy) || decide (s.mixer.state = .done) || decide (s.mixer.state = .held))
    pressMotor := !s.train.motorsHeld && s.press.within .pressing
    cooler := !s.train.motorsHeld && s.press.within .pressing
    mixerDischarge := s.mixer.busyWith .discharging && open_
    mixerDiverter := if s.mixer.within .discharging then s.mixer.dest else none
    pressDiverter := if s.press.within .pressing then s.press.dest else none
    surgeDump := s.surge.busyWith .dumping && open_
    mixerDump := s.mixer.busyWith .dumping && open_
    pressDump := s.press.busyWith .dumping && open_
    finishedDump := s.fin.dumping && open_
    bagFeeder := if s.straps.bagger then bagFeed s else .off
    bagGate := s.straps.bagger && dischargesTo .bag s && open_
    rejectGate := s.straps.bagger && (dischargesTo .chute s || decide (s.bagger.bucket = .unknown true)) && open_
    release := s.straps.bagger && decide (s.bagger.spout = .filled)
    spout := spoutOpen s
    faultLamp := faultLit s
    runLamp := runLit s
    handAddLamp := handAddLit s
    bayLamp := decide (s.hold.state = .held)
    stopDrive := s.inputs.localStop
    strapPins := lampPins (faultLit s) (runLit s) (handAddLit s) (decide (s.hold.state = .held)) }

/-- R205: at a start-up fault no output is driven but the FAULT lamp. -/
def faultedOutputs (s : State) : Outputs :=
  { Outputs.blank with faultLamp := s.lamps.fault.lit, strapPins := lampPins s.lamps.fault.lit false false false }

/-- The lamps and outputs follow the state. -/
def drive (s : State) : State :=
  if ready s then
    let s1 : State := { s with
      channels := s.channels.map (fun c => { c with output := channelOutput s c })
      lamps := { fault := s.lamps.fault.follow (faultFlashes s) flashHalf
                 run := s.lamps.run.follow (runFlashes s) flashHalf } }
    { s1 with pins := outputsOf s1 }
  else if s.resetPin then
    { s with lamps := Lamps.blank, pins := Outputs.blank
             channels := s.channels.map (fun c => { c with output := .off }) }
  else
    match s.power with
    | .faulted _ =>
      let s1 : State := { s with lamps := { s.lamps with fault := s.lamps.fault.follow true flashHalfFast } }
      { s1 with pins := faultedOutputs s1 }
    | _ => { s with pins := Outputs.blank }

end Sys2Proof.Machine
end

