-- ==== Sys2Proof/Machine/Settle.lean ====
section
/-! DEFINITION. The end of an event: everything the manual lets begin "at the first event after which" its conditions hold,
the timers, the outputs; and the form every command's event takes (notes/assumptions/5.md). -/
namespace Sys2Proof.Machine

/-! ### Timers of the Dosing Unit (R67, R69 to R71, R73, R81) -/

/-- The settle timer of the scale runs: in TARE while RUN, in a settle while RUN or PAUSING. -/
def settleWanted (s : State) : Bool :=
  match s.scale.state with
  | .tare => decide (s.line = .run)
  | .settle _ => s.moving
  | _ => false

/-- The stall timer runs (R69). -/
def stallWanted (s : State) : Bool :=
  match s.scale.state with
  | .feedFast | .feedSlow => true
  | _ => false

/-- R71: the jog time of the channel in use. -/
def jogTimeInUse (s : State) : Nat :=
  (((curDose s).bind (fun d => doseChannel d s)).map Channel.jogTime).getD 0

/-- R81: the residue timer runs. -/
def residueWanted (s : State) : Bool :=
  (decide (s.scale.state = .discharge) || decide (s.scale.state = .dumping)) && notStopped s
    && s.scaleConv.residueStands s.params.emptyBand

def scaleTimers (s : State) : State :=
  { s with scale := { s.scale with
      settle := Timer.during (settleWanted s) s.params.settleTimeout s.scale.settle
      stall := Timer.during (stallWanted s) s.params.stallWindow s.scale.stall
      jog := Timer.during (decide (s.scale.state = .jog true)) (jogTimeInUse s) s.scale.jog
      residue := Timer.during (residueWanted s) s.params.settleTimeout s.scale.residue } }

/-- Every timer that runs while a condition holds. -/
def timers (s : State) : State := baggerTimers (trainTimers (scaleTimers s))

/-! ### Cancelled orders (R22) -/

/-- R22: no batch record of a cancelled order is left in the pipeline. -/
def endCancelled (o : Order) (s : State) : State :=
  if o.cancelled && !inPipeline o.id s then
    freeSlot o.id (queueNotice (.orderCancelled o.id o.tally o.plan.finished) s)
  else s

def endAllCancelled : List Order → State → State
  | [], s => s
  | o :: os, s => endAllCancelled os (endCancelled o s)

/-- R22. -/
def freeCancelled (s : State) : State := endAllCancelled (ranked s s.slots) s

/-! ### Pause reports (R180) -/

/-- A change of the line state with its notice (R187). -/
def setLine (l : LineState) (cause : LineCause) (s : State) : State := queueNotice (.lineState l cause) { s with line := l }

/-- R180: the reports of the units that stand at their pause points; the last takes the line to PAUSED. -/
def pauseReports (s : State) : State :=
  if s.line = .pausing then
    let r : Reports :=
      { dosing := s.reports.dosing || dosingAtPause s, train := true, packing := s.reports.packing || baggerAtPause s }
    if r.dosing && r.packing then setLine .paused .pauseComplete { s with reports := Reports.blank }
    else { s with reports := r }
  else s

/-! ### Re-announcement (R41) -/

/-- R41: the first id of the re-announce list. -/
def reannounce (s : State) : State :=
  match s.reannounce with
  | [] => s
  | id :: ids =>
    if s.tx.length < 8 then
      let s1 : State := { s with reannounce := ids }
      match findOrder id s1 with
      | some o => queueFrame (.take id o.lead o.started) s1
      | none => s1
    else s

/-! ### The closing pass -/

/-- What begins on the line: permissions, pulses, transfers and discharges. -/
def passLine (s : State) : State :=
  beginDischarge (beginGrind (beginDischargeMixer (beginPress (beginBaggerPulse (beginJogPulse (watchPermission
    (unbarStages s)))))))

/-- What the loadout, the Order Book and the bagger do on what they then find. -/
def passBook (s : State) : State :=
  beginRemainder (beginBucketDischarge (admissionAttempt (makeUps (markLoaded (freeCancelled (watchStep s))))))

/-- One round. -/
def pass (s : State) : State := followLoops (passBook (passLine s))

/-- Three rounds: enough for every chain of the manual, in which a round's begins are met by the next round
(notes/assumptions/5.md). -/
def rounds (s : State) : State := pass (pass (pass s))

/-- The bay, the pause reports, the timers, the re-announced take and the outputs follow the rounds. -/
@[irreducible] def close (s : State) : State := drive (reannounce (timers (pauseReports (takeBay (abandonBay (rounds s))))))

/-! ### The form of an event -/

/-- The state after an event that has brought `s` to `u`: the close of the event, the queue of commands as it was. -/
def settled (s u : State) : State := { close u with pending := s.pending }

/-- A command's event: where the node takes events and the command can come about, its effect and the close of the event;
otherwise the state is unchanged (notes/assumptions/3.md). The queue of commands is not the event's. -/
def event (guard : Bool) (f : State → State) (s : State) : Host.Outcome State Fault Refusal :=
  if ready s && guard then .next (settled s (f s)) else .next s

end Sys2Proof.Machine
end

