-- ==== Sys2Proof/Machine/Port.lean ====
section
/-! DEFINITION. The Bus Port (11_the_mill_bus.md): the receive assembler, the inbound queue and who takes from it, transmit
attempts, the mill clock and start-up listening. -/
namespace Sys2Proof.Machine

/-! ### Start-up listening (R201) -/

/-- R201: listening ends and a HELLO is queued. -/
def endListening (s : State) : State :=
  if s.rx.listening then
    queueFrame (.hello s.straps.node s.straps.press s.straps.bagger s.straps.loadout s.rx.resetKind)
      { s with rx := { s.rx with listening := false } }
  else s

/-! ### Receiving (R195 to R197) -/

/-- The entry whose attempt is under way. -/
def underWay (s : State) : Option OutEntry := s.tx.find? (fun e => e.underWay)

/-- The frame an entry is sent as. -/
def entryFrame (s : State) (e : OutEntry) : RawFrame := wireFrame s.straps.node e.body

/-- R196: the frame is the readback of the attempt under way, heard before the attempt has completed. -/
def readbackNow (f : RawFrame) (s : State) : Bool :=
  !s.rx.seen && (match underWay s with | some e => decide (entryFrame s e = f) | none => false)

/-- R196: a valid frame of the node's own source: its own readback, or another station of the same number. -/
def ownSource (f : RawFrame) (s : State) : State :=
  if readbackNow f s then { s with rx := { s.rx with seen := true } }
  else if s.rx.readback = some f then { s with rx := { s.rx with readback := none } }
  else raiseFault .addressClash none [] { s with rx := { s.rx with readback := none } }

/-- R197: a frame is offered to the inbound queue. -/
def offerInbound (f : RawFrame) (s : State) : State :=
  if s.rx.inbound.length < 4 then { s with rx := { s.rx with inbound := s.rx.inbound ++ [f] } }
  else raiseFault .rxDrop none [] s

/-- R196: a valid frame. -/
def takeValid (f : RawFrame) (s : State) : State :=
  if f.source.toNat = s.straps.node then ownSource f s
  else
    let s1 : State := { s with rx := { s.rx with readback := none } }
    if f.kind.toNat = 0x10 then s1 else offerInbound f s1

/-- R195, R201: a frame is complete: it is tested, and the assembler hunts. A valid one ends the listening before it is
judged: its HELLO is queued ahead of a notice of ADDRESS_CLASH (R196) or RX_DROP (R197) of the same event, an order the
manual leaves open (the model's choice, notes/assumptions/49.md). -/
def frameComplete (f : RawFrame) (s : State) : State :=
  let s1 : State := { s with rx := { s.rx with assembler := .hunting, idle := none, barred := false } }
  if validFrame f then takeValid f (endListening s1) else s1

def setAssembler (a : Assembler) (s : State) : State := { s with rx := { s.rx with assembler := a } }

/-- R195: a good character without the flag is appended. -/
def appendCharacter (bytes : List Byte) (b : Byte) (s : State) : State :=
  let all := bytes ++ [b]
  if all.length = 3 ∧ 96 < b.toNat then setAssembler .hunting s
  else
    match assembled all with
    | some f => frameComplete f s
    | none => setAssembler (.assembling all) s

/-- R195: a good character. -/
def goodCharacter (header : Bool) (b : Byte) (s : State) : State :=
  if header then { s with rx := { s.rx with assembler := .assembling [b], readback := none } }
  else
    match s.rx.assembler with
    | .hunting => s
    | .assembling bytes => appendCharacter bytes b s

/-- R191, R195: a character has been received; the 0 of its start bit has ended the idle (R199). -/
def receiveCharacter (samples : BitVec 36) (s : State) : State :=
  let s1 : State := { s with rx := { s.rx with idle := none, barred := false } }
  match judgeCharacter samples with
  | .falseStart => s1
  | .framingError | .parityError => setAssembler .hunting s1
  | .good header b => goodCharacter header b s1

/-! ### Taking frames (R197) -/

/-- The block's oldest frame is the one wanted. -/
def owns (block : Block) (want : RawFrame → Bool) (s : State) : Bool := (takeOwned block want s.rx.inbound).isSome

/-- The block takes its oldest frame, and the frame's effect follows. -/
def takeFrame (block : Block) (want : RawFrame → Bool) (f : RawFrame → State → State) (s : State) : State :=
  match takeOwned block want s.rx.inbound with
  | some p => f p.1 { s with rx := { s.rx with inbound := p.2 } }
  | none => s

/-- The event at which a block takes a frame of a kind. -/
def frameEvent (block : Block) (kind : Nat) (f : RawFrame → State → State) (s : State) :
    Host.Outcome State Fault Refusal :=
  event (owns block (isKind kind) s) (takeFrame block (isKind kind) f) s

/-- The event of a request: a local input, or a frame that Line Control takes and that names this node or all nodes. -/
def requestEvent (origin : Origin) (want : RawFrame → Bool) (f : RawFrame → State → State) (local_ : State → State)
    (s : State) : Host.Outcome State Fault Refusal :=
  match origin with
  | .input => event true local_ s
  | .frame =>
    event (owns .lineControl want s)
      (takeFrame .lineControl want (fun fr s => if namesNode s fr then f fr s else s)) s

/-- The event of a LINE request (R194), from a frame or the local input. A LINE frame whose request means nothing is taken
at any of them, with no effect (notes/assumptions/13.md). -/
def lineEvent (origin : Origin) (request : Nat) (f : State → State) (s : State) : Host.Outcome State Fault Refusal :=
  requestEvent origin (fun fr => isRequest request fr || meaningless fr)
    (fun fr s => if meaningless fr then s else f s) f s

/-! ### Sending (R198, R199) -/

/-- R199: the deferral of a frame. -/
def deferral (node : Nat) (b : Body) : Nat := b.cls * 32 + node

/-- R198: the head: the lowest class, the oldest of it. -/
def headOf : List OutEntry → Option OutEntry
  | [] => none
  | e :: es =>
    match headOf es with
    | none => some e
    | some h => if h.body.cls < e.body.cls then some h else some e

/-- The first entry of a class is put under way. -/
def markFirst (cls : Nat) : List OutEntry → List OutEntry
  | [] => []
  | e :: es => if e.body.cls = cls then { e with underWay := true } :: es else e :: markFirst cls es

/-- R196, R199: the Bus Port may transmit in the idle under way. -/
def mayTransmit (s : State) : Bool :=
  !s.rx.listening && !standing .addressClash s && !s.rx.barred && (underWay s).isNone

/-- R199: the line has been idle for this many further bit times; an attempt begins where the head's deferral is reached. -/
def attempt (idle : Nat) (s : State) : State :=
  let waiting : State := { s with rx := { s.rx with idle := some idle } }
  match headOf s.tx with
  | none => waiting
  | some h =>
    if mayTransmit s && decide (deferral s.straps.node h.body ≤ idle) then
      { s with tx := markFirst h.body.cls s.tx, rx := { s.rx with idle := none, readback := none, seen := false } }
    else waiting

/-- R168: the fate of a frame that is dropped. -/
def reportDropped (b : Body) (s : State) : State :=
  match b with
  | .bayHold _ _ d _ => if 0 < d then holdDropped s else s
  | _ => s

/-- R168: the fate of a frame that is sent. -/
def reportSent (b : Body) (s : State) : State :=
  match b with
  | .bayHold bay truck d _ => holdSent bay truck d s
  | _ => s

/-- The outbound queue less the entry under way. -/
def withoutUnderWay (q : List OutEntry) : List OutEntry := q.filter (fun e => !e.underWay)

/-- The entry under way has lost its attempt. -/
def countLoss (q : List OutEntry) : List OutEntry :=
  q.map (fun e => if e.underWay then { e with attempts := e.attempts + 1, underWay := false } else e)

/-- R199: a bit read back differs from the bit driven. -/
def loseAttempt (s : State) : State :=
  match underWay s with
  | none => s
  | some e =>
    let s1 : State := { s with rx := { s.rx with idle := none, seen := false } }
    if 7 ≤ e.attempts then
      reportDropped e.body (raiseFault .txAbandon none [.byte e.body.kind] { s1 with tx := withoutUnderWay s.tx })
    else { s1 with tx := countLoss s.tx }

/-- R199: every bit has read back as driven. -/
def completeAttempt (s : State) : State :=
  match underWay s with
  | none => s
  | some e =>
    reportSent e.body
      { s with
        tx := withoutUnderWay s.tx
        rx := { s.rx with idle := none, seen := false,
                          readback := if s.rx.seen then none else some (entryFrame s e) } }

/-! ### The mill clock (R200) -/

/-- R200: one second. -/
def advanceClock (t : Nat) : Nat := if 86399 ≤ t then 0 else t + 1

/-- R43, R50, R59, R163, R200: a one-second event. -/
def secondTick (s : State) : State :=
  let s1 := ageBinView { s with millTime := s.millTime.map advanceClock }
  if s1.millTime.isSome then testDepartures s1 else s1

/-- R200: a TIME frame is taken. -/
def takeTime (t : Nat) (s : State) : State :=
  if t ≤ 86399 then testDepartures { s with millTime := some t } else s

end Sys2Proof.Machine
end

