-- ==== Sys2Proof/Machine/Lines.lean ====
section
/-! DEFINITION. Line Control (10_line_control_faults_and_notices.md R179 to R184), and the office terminal's requests to the
Order Book (R20, R21). -/
namespace Sys2Proof.Machine

/-! ### Line states (R179 to R182) -/

/-- R174, R179: PAUSE, taken in RUN. -/
def pauseLine (s : State) : State :=
  if s.line = .run then
    closeSpout .line (haltLoops (setLine .pausing .pause { s with reports := Reports.blank }))
  else s

/-- R181: no LINE fault of severity HOLD is unacknowledged. -/
def resumeAllowed (s : State) : Bool :=
  (decide (s.line = .pausing) || decide (s.line = .paused)) && !unitHeld .line s

/-- R181: RESUME. -/
def resumeLine (s : State) : State :=
  if s.line = .run then s
  else if resumeAllowed s then resumeTrain (setLine .run .resume { s with reports := Reports.blank })
  else raiseFault .resumeRefused none [.byte s.line.code] s

/-- R182: the STOP line is seen asserted. -/
def stopLine (s : State) : State :=
  let s1 : State := { s with inputs := { s.inputs with stopLine := true }, reports := Reports.blank }
  let s2 := if s.line = .stopped then s1 else setLine .stopped .stopAsserted s1
  closeSpout .line (stopBagger (stopTrain (stopDosing s2)))

/-- R182: the STOP line is seen released. -/
def releaseLine (s : State) : State :=
  setLine .paused .stopReleased { s with inputs := { s.inputs with stopLine := false } }

/-! ### Acknowledgement (R184) -/

/-- The keys that an ACK of these keys acknowledges. -/
def freshlyAcked (keys : List FaultKey) (s : State) : List FaultKey :=
  (s.faults.filter (fun r => keys.contains r.key && !r.acked)).map FaultRecord.key

/-- R184: the records are acknowledged, and the units told: the Dosing Unit (R74) and the Bus Port (R196), which begins no
attempt in the idle that the line stands in, reported by the command or by a count of it (notes/assumptions/12.md). -/
def acknowledge (keys : List FaultKey) (idle : Bool) (s : State) : State :=
  let acked := freshlyAcked keys s
  let s1 : State := { s with faults := s.faults.map (fun r =>
    if keys.contains r.key then { r with acked := true } else r) }
  let s2 := ackDosing acked s1
  if acked.contains .addressClash then { s2 with rx := { s2.rx with barred := idle || s2.rx.idle.isSome } } else s2

/-! ### Requests to the Order Book (R20, R21) -/

/-- R20: the record under a RELEVEL. -/
def Order.relevel (level group : Nat) (o : Order) : Order :=
  { o with level := level, group := group
           state := if o.state = .active ∧ level = 0 then .held else o.state }

/-- R20. -/
def takeRelevel (id level group : Nat) (s : State) : State :=
  if 15 < level ∨ 3 < group then s
  else updOrder id (fun o => if o.cancelled then o else o.relevel level group) s

/-- R21: material of the order is in the pipeline or the finished bin. -/
def onLine (id : Nat) (s : State) : Bool := inPipeline id s || decide (s.fin.order = some id)

/-- R21: the record of a cancelled order with material on the line. -/
def Order.cancel (o : Order) : Order :=
  { o with cancelled := true, plan := { o.plan with makeUp := none }
           state := if o.state = .active then .draining else o.state }

/-- R21, R118: a CANCEL of an order with material on the line. -/
def cancelOnLine (id : Nat) (s : State) : State :=
  let s1 := flagOrder id (updOrder id Order.cancel (releaseReservations id s))
  if s1.fin.order = some id then { s1 with fin := { s1.fin with cancelled := true } } else s1

/-- R21: a CANCEL of an order of which nothing is on the line. -/
def cancelClear (o : Order) (s : State) : State :=
  freeSlot o.id (queueNotice (.orderCancelled o.id o.tally o.plan.finished) (releaseReservations o.id s))

/-- R21, R151: a CANCEL is taken. Of a CLAIMING order the slot is freed and nothing else is done, R111's CANCELLED flag left
clear where the finished bin's record still holds the id (the model's choice, notes/assumptions/42.md). -/
def takeCancel (id : Nat) (s : State) : State :=
  match findOrder id s with
  | none => s
  | some o =>
    if o.cancelled then s
    else
      let s1 := voidCharge id s
      if o.state = .claiming then freeSlot id s1
      else if onLine id s1 then cancelOnLine id s1
      else cancelClear o s1

/-! ### News for the Bin View (R44 to R46, R48, R49, R51, R59) -/

/-- R44: an INTAKE is taken. -/
def takeIntake (bin code mass : Nat) (s : State) : State :=
  if 1 ≤ bin ∧ bin ≤ 48 ∧ 1 ≤ code ∧ code < 61440 then updBin bin (intakeEntry code mass) s else s

/-- R45: a LEVEL is taken; the six-byte form carries an ingredient code. -/
def takeLevel (source : Nat) (p : List Byte) (s : State) : State :=
  let bin := byteAt 0 p
  if 1 ≤ bin ∧ bin ≤ 48 then
    applyLevel bin (field 1 3 p) source (if p.length = 6 then some (field 4 2 p) else none) s
  else s

/-- R46: the bins of a list that the frame turned ON are told to the Dosing Unit. -/
def cutBins (before : State) : List Nat → State → State
  | [], s => s
  | b :: bs, s =>
    cutBins before bs (if quarantined b s && !quarantined b before then quarantineNotice b s else s)

/-- R46: a QUARANTINE is taken; the draw plan is checked once the whole list stands (notes/assumptions/19.md). -/
def takeQuarantine (pairs : List (Nat × Nat)) (s : State) : State :=
  cutBins s (pairs.map Prod.fst) (quarantinePairs pairs s)

/-- R48: a DRAW-NOTICE is taken; one of batch 0 is stored like any other (the model's choice,
notes/assumptions/36.md). -/
def takeDrawNotice (source : Nat) (p : List Byte) (s : State) : State :=
  if source = 31 then s
  else { s with peers := noticePairs source (field 0 2 p) (pairsOf 3 ((p.length - 2) / 4) (p.drop 2)) s.peers }

/-- R49: a DRAW-REPORT is taken. -/
def takeDrawReport (source batch bin actual : Nat) (s : State) : State :=
  if source = 31 ∨ bin = 0 ∨ 48 < bin then s else applyDrawReport source batch bin actual s

/-- R51: a HELLO is taken; the node is the frame's source (notes/assumptions/25.md). -/
def takeHello (source : Nat) (s : State) : State := if source = 31 then s else applyHello source s

/-- R59: the reading is sent. -/
def levelDue (r : LevelRec) (mass : Nat) (s : State) : Bool :=
  match r.lastSent with
  | none => true
  | some last =>
    decide (s.params.levelStep ≤ last - mass + (mass - last)) || decide (s.params.levelSendPeriod ≤ r.since)

/-- The record and capacity of a level sensor that is wired to a bin. -/
def levelSensor (k : Nat) (s : State) : Option (LevelRec × LevelParams) :=
  match s.levels[k]?, s.params.levels[k]? with
  | some r, some p => if r.bin = 0 then none else some (r, p)
  | _, _ => none

/-- R59, R100: a reading of a level bin's sensor. -/
def readLevel (k : Nat) (reading : Nat) (s : State) : State :=
  match levelSensor k s with
  | none => s
  | some (r, p) =>
    if 1000 < reading then s
    else
      let mass := levelMass reading p.capacity
      if levelDue r mass s then
        applyLevel r.bin mass s.straps.node none (queueFrame (.level r.bin mass)
          { s with levels := s.levels.modify k (fun r => { r with lastSent := some mass, since := 0 }) })
      else s

end Sys2Proof.Machine
end

