-- ==== Sys2Proof/Machine/Expiries.lean ====
section
/-! DEFINITION. Ticks and timer expiries: one meaning for each. An expiry comes about only while its timer runs
(notes/assumptions/6.md); a tick named by its consequence only where the consequence is due (notes/assumptions/7.md). -/
namespace Sys2Proof.Machine

/-! ### Ticks (R43, R50, R165, R170, R200) -/

/-- ONE_SECOND_EVENT (R43, R200). -/
def execOneSecondEvent (s : State) : Host.Outcome State Fault Refusal := event true secondTick s

/-- R43: the entry of the bin gains STALE at the next one-second event. -/
def staleDue (bin : Nat) (s : State) : Bool :=
  match findBin bin s with
  | some e => !e.stale && decide (s.params.staleAge < min 65535 (e.age + 1))
  | none => false

/-- STALE_AGE_EXPIRY (R43): the one-second event at which the bin's entry gains STALE. -/
def execStaleAgeExpiry (bin : Nat) (s : State) : Host.Outcome State Fault Refusal :=
  event (staleDue bin s) secondTick s

/-- R50: the record is removed at the next one-second event. -/
def peerDue (node batch bin : Nat) (s : State) : Bool :=
  s.peers.any (fun p => p.same node batch bin && decide (s.params.peerDrawAge < min 65535 (p.age + 1)))

/-- PEER_DRAW_AGE_EXPIRY (R50): the one-second event at which the record is removed. -/
def execPeerDrawAgeExpiry (node batch bin : Nat) (s : State) : Host.Outcome State Fault Refusal :=
  event (peerDue node batch bin s) secondTick s

/-- BAY_TIME_STEP (R165). -/
def execBayTimeStep (s : State) : Host.Outcome State Fault Refusal := event true bayTick s

/-- R165: the bay's timer reaches 0 at the next step. -/
def bayDue (bay : Nat) (s : State) : Bool :=
  match findBay bay s with
  | some b => decide (b.remaining = 1)
  | none => false

/-- BAY_TIMER_EXPIRY (R165): the step at which the bay's timer reaches 0. -/
def execBayTimerExpiry (bay : Nat) (s : State) : Host.Outcome State Fault Refusal := event (bayDue bay s) bayTick s

/-- R170: the own remaining time falls to the guard at the next step. -/
def guardDue (s : State) : Bool :=
  decide (s.hold.state = .held) && decide (s.hold.remaining ≤ s.params.guardTime + 1)

/-- BAY_LOST (R170): the step at which the own remaining time falls to the guard. -/
def execBayLost (s : State) : Host.Outcome State Fault Refusal := event (guardDue s) bayTick s

/-! ### The Order Book (R34) -/

/-- The order is CLAIMING and its claim timer runs. -/
def windowOpen (order : Nat) (s : State) : Bool :=
  match findOrder order s with
  | some o => decide (o.state = .claiming) && o.claimTimer.isRunning
  | none => false

/-- CLAIM_WINDOW_EXPIRY (R34). -/
def execClaimWindowExpiry (order : Nat) (s : State) : Host.Outcome State Fault Refusal :=
  event (windowOpen order s)
    (fun s => match findOrder order s with | some o => closeWindow o s | none => s) s

/-! ### The Dosing Unit (R67 to R71, R81, R82) -/

/-- SETTLE_TIMEOUT (R67, R70, R73, R76). -/
def execSettleTimeout (s : State) : Host.Outcome State Fault Refusal := event s.scale.settle.isRunning settleExpiry s

/-- STALL_TIMER_EXPIRY (R69). -/
def execStallTimerExpiry (s : State) : Host.Outcome State Fault Refusal := event s.scale.stall.isRunning stallExpiry s

/-- JOG_TIMER_EXPIRY (R71). -/
def execJogTimerExpiry (s : State) : Host.Outcome State Fault Refusal :=
  event s.scale.jog.isRunning (setScale (.settle .jog)) s

/-- RESIDUE_TIMER_EXPIRY (R81, R82). -/
def execResidueTimerExpiry (s : State) : Host.Outcome State Fault Refusal :=
  event s.scale.residue.isRunning residueExpiry s

/-! ### The Process Train (R98, R107, R109, R114, R116, R117, R120, R121) -/

/-- GRIND_RUNOUT_EXPIRY (R107). -/
def execGrindRunoutExpiry (s : State) : Host.Outcome State Fault Refusal :=
  event s.train.grindRunout.isRunning completeGrind s

/-- MIX_TIMER_EXPIRY (R109). -/
def execMixTimerExpiry (s : State) : Host.Outcome State Fault Refusal := event s.train.mix.isRunning completeMix s

/-- MIXER_RUNOUT_EXPIRY (R114). -/
def execMixerRunoutExpiry (s : State) : Host.Outcome State Fault Refusal :=
  event s.train.mixerRunout.isRunning completeMixer s

/-- DISCHARGE_TIMEOUT (R114). -/
def execDischargeTimeout (s : State) : Host.Outcome State Fault Refusal :=
  event s.train.dischargeLimit.isRunning (holdStage .mixer .dischargeTimeout []) s

/-- PRESS_RUNOUT_EXPIRY (R117). -/
def execPressRunoutExpiry (s : State) : Host.Outcome State Fault Refusal :=
  event s.train.pressRunout.isRunning completePress s

/-- R116: the temperature a COND_LOW notice reports; with no sample taken, a free value. -/
def condLow (s : State) : State :=
  match s.train.steam.last with
  | some t => holdStage .press .condLow [.word t] s
  | none => holdStage .press .condLow [.freeWord s.free] { s with free := s.free + 1 }

/-- COND_LOW (R116). -/
def execCondLow (s : State) : Host.Outcome State Fault Refusal := event s.train.conditioning.isRunning condLow s

/-- R98: the overload timer of a loop expires: it starts again, and the fault holds the loop's stage. -/
def overloadExpiry (loop : LoopId) (s : State) : State :=
  match loop with
  | .grinder =>
    holdStage .surge .grinderOverload [.word (s.train.grinder.current.getD 0)]
      { s with train := { s.train with
          grinder := { s.train.grinder with timer := .running s.params.grinder.overloadLimit } } }
  | .press =>
    holdStage .press .pressOverload [.word (s.train.presser.current.getD 0)]
      { s with train := { s.train with
          presser := { s.train.presser with timer := .running s.params.press.overloadLimit } } }

/-- The overload timer of the loop runs. -/
def overloadRuns (loop : LoopId) (s : State) : Bool :=
  match loop with
  | .grinder => s.train.grinder.timer.isRunning
  | .press => s.train.presser.timer.isRunning

/-- OVERLOAD_TIMER_EXPIRY (R98). -/
def execOverloadTimerExpiry (loop : LoopId) (s : State) : Host.Outcome State Fault Refusal :=
  event (overloadRuns loop s) (overloadExpiry loop) s

/-- The dump runout timer of the stage runs. -/
def dumpRuns (stage : StageId) (s : State) : Bool :=
  match stage with
  | .surge => s.train.surgeDump.isRunning
  | .mixer => s.train.mixerDump.isRunning
  | .press => s.train.pressDump.isRunning

/-- DUMP_RUNOUT_EXPIRY (R120). -/
def execDumpRunoutExpiry (stage : StageId) (s : State) : Host.Outcome State Fault Refusal :=
  event (dumpRuns stage s) (completeStageDump stage) s

/-- FINISHED_DUMP_TIMER_EXPIRY (R121, R152). -/
def execFinishedDumpTimerExpiry (s : State) : Host.Outcome State Fault Refusal :=
  event s.train.finishedDump.isRunning completeFinishedDump s

/-! ### The bagger (R144 to R146, R149) -/

/-- FILL_TIMER_EXPIRY (R144). -/
def execFillTimerExpiry (s : State) : Host.Outcome State Fault Refusal := event s.bagger.fill.isRunning fillExpiry s

/-- BAGGER_SETTLE_TIMEOUT (R145). -/
def execBaggerSettleTimeout (s : State) : Host.Outcome State Fault Refusal :=
  event s.bagger.settle.isRunning bucketTimeout s

/-- BAGGER_JOG_TIMER_EXPIRY (R146). -/
def execBaggerJogTimerExpiry (s : State) : Host.Outcome State Fault Refusal := event s.bagger.jog.isRunning jogEnded s

/-- DISCHARGE_TIMER_EXPIRY (R149, R150). -/
def execDischargeTimerExpiry (s : State) : Host.Outcome State Fault Refusal :=
  event s.bagger.discharge.isRunning dischargeExpired s

/-! ### The loadout (R168, R175) -/

/-- CONTENTION_TIMER_EXPIRY (R168). -/
def execContentionTimerExpiry (s : State) : Host.Outcome State Fault Refusal :=
  event s.hold.contention.isRunning contentionPassed s

/-- RENEWAL_TIMER_EXPIRY (R168). -/
def execRenewalTimerExpiry (s : State) : Host.Outcome State Fault Refusal := event s.hold.renewal.isRunning renewHold s

/-- LOADOUT_SETTLE_TIMEOUT (R175). -/
def execLoadoutSettleTimeout (s : State) : Host.Outcome State Fault Refusal := event s.stepTimer.isRunning endStep s

/-! ### Lamps (R186, R205) -/

/-- R186: a lamp changes its phase. -/
def toggleLamp (lamp : LampId) (s : State) : State :=
  match lamp with
  | .fault => { s with lamps := { s.lamps with fault := s.lamps.fault.toggle } }
  | .run => { s with lamps := { s.lamps with run := s.lamps.run.toggle } }

/-- The flash timer of a lamp runs, of a node that drives its lamps. -/
def flashRuns (lamp : LampId) (s : State) : Bool :=
  !s.resetPin && (match lamp with | .fault => s.lamps.fault.timer.isRunning | .run => s.lamps.run.timer.isRunning)

/-- FLASH_TIMER_EXPIRY (R186; R205, at a start-up fault, where nothing else happens). -/
def execFlashTimerExpiry (lamp : LampId) (s : State) : Host.Outcome State Fault Refusal :=
  if ready s then event (flashRuns lamp s) (toggleLamp lamp) s
  else if flashRuns lamp s then .next (drive (toggleLamp lamp s))
  else .next s

end Sys2Proof.Machine
end

