-- ==== Sys2Proof/Machine/Frames.lean ====
section
/-! DEFINITION. The frames the blocks take from the inbound queue (R197): one meaning for each kind. -/
namespace Sys2Proof.Machine

/-- TIME (R200). -/
def execTime (s : State) : Host.Outcome State Fault Refusal :=
  frameEvent .busPort 0x01 (fun f => takeTime (field 0 3 f.payload)) s

/-- OFFER (R25 to R31). -/
def execOffer (s : State) : Host.Outcome State Fault Refusal :=
  frameEvent .orderBook 0x02 (fun f => takeOffer f.payload) s

/-- CLAIM (R32). -/
def execClaim (s : State) : Host.Outcome State Fault Refusal :=
  frameEvent .orderBook 0x03 (fun f => takeClaim f.source.toNat (field 0 2 f.payload) (field 2 2 f.payload)) s

/-- TAKE (R33, R36). -/
def execTake (s : State) : Host.Outcome State Fault Refusal :=
  frameEvent .orderBook 0x04
    (fun f => takeTake f.source.toNat (field 0 2 f.payload) (field 2 2 f.payload) (byteAt 4 f.payload)) s

/-- YIELD_RECEIVED (R39): the frame is taken and has no effect. -/
def execYieldReceived (s : State) : Host.Outcome State Fault Refusal := frameEvent .orderBook 0x05 (fun _ s => s) s

/-- RELEVEL (R20). -/
def execRelevel (s : State) : Host.Outcome State Fault Refusal :=
  frameEvent .orderBook 0x06
    (fun f => takeRelevel (field 0 2 f.payload) (byteAt 2 f.payload) (byteAt 3 f.payload)) s

/-- CANCEL (R21). -/
def execCancel (s : State) : Host.Outcome State Fault Refusal :=
  frameEvent .orderBook 0x07 (fun f => takeCancel (field 0 2 f.payload)) s

/-- QUARANTINE (R46). -/
def execQuarantine (s : State) : Host.Outcome State Fault Refusal :=
  frameEvent .binView 0x08 (fun f => takeQuarantine (pairsOf 1 (f.payload.length / 2) f.payload)) s

/-- INTAKE (R44). -/
def execIntake (s : State) : Host.Outcome State Fault Refusal :=
  frameEvent .binView 0x09
    (fun f => takeIntake (byteAt 0 f.payload) (field 1 2 f.payload) (field 3 3 f.payload)) s

/-- LEVEL (R45). -/
def execLevel (s : State) : Host.Outcome State Fault Refusal :=
  frameEvent .binView 0x0A (fun f => takeLevel f.source.toNat f.payload) s

/-- DRAW_NOTICE (R48). -/
def execDrawNotice (s : State) : Host.Outcome State Fault Refusal :=
  frameEvent .binView 0x0B (fun f => takeDrawNotice f.source.toNat f.payload) s

/-- DRAW_REPORT (R49). -/
def execDrawReport (s : State) : Host.Outcome State Fault Refusal :=
  frameEvent .binView 0x0C
    (fun f => takeDrawReport f.source.toNat (field 0 2 f.payload) (byteAt 2 f.payload) (field 3 3 f.payload)) s

/-- HELLO (R51). -/
def execHello (s : State) : Host.Outcome State Fault Refusal :=
  frameEvent .binView 0x13 (fun f => takeHello f.source.toNat) s

/-- TRUCK_PLAN (R161). -/
def execTruckPlan (s : State) : Host.Outcome State Fault Refusal :=
  frameEvent .deliveryTable 0x0D (fun f => takePlan f.payload) s

/-- BAY_HOLD (R165). -/
def execBayHold (s : State) : Host.Outcome State Fault Refusal :=
  frameEvent .deliveryTable 0x0E
    (fun f => takeBayHold f.source.toNat (byteAt 0 f.payload) (byteAt 1 f.payload) (field 2 2 f.payload)
      (byteAt 4 f.payload)) s

/-- LOADED (R164). -/
def execLoaded (s : State) : Host.Outcome State Fault Refusal :=
  frameEvent .deliveryTable 0x0F
    (fun f => takeLoaded f.source.toNat (byteAt 0 f.payload) (byteAt 1 f.payload) (field 2 2 f.payload)
      (field 4 3 f.payload)) s

end Sys2Proof.Machine
end

