-- ==== Sys2Proof/Machine/Requests.lean ====
section
/-! DEFINITION. The requests of the office terminal and of the node's own inputs, and the input changes: one meaning for
each. -/
namespace Sys2Proof.Machine

/-! ### Requests (R82, R119, R121, R179, R181, R184) -/

/-- ACK (R184), and whether the line then stands idle (R196, R199; notes/assumptions/12.md). -/
def execAck (origin : AckOrigin) (s : State) : Host.Outcome State Fault Refusal :=
  requestEvent origin.origin (isKind 0x11) (fun f => acknowledge (ackKeys f.payload) origin.idle)
    (acknowledge FaultKey.all origin.idle) s

/-- PAUSE (R179). -/
def execPause (origin : Origin) (s : State) : Host.Outcome State Fault Refusal := lineEvent origin 1 pauseLine s

/-- RESUME (R181). -/
def execResume (origin : Origin) (s : State) : Host.Outcome State Fault Refusal := lineEvent origin 2 resumeLine s

/-- DUMP_SCALE (R82). -/
def execDumpScale (origin : Origin) (s : State) : Host.Outcome State Fault Refusal :=
  lineEvent origin 3 (fun s => if dumpTaken s then dumpScaleBatch s else s) s

/-- DUMP_SURGE (R119). -/
def execDumpSurge (origin : Origin) (s : State) : Host.Outcome State Fault Refusal :=
  lineEvent origin 4 (fun s => if stageDumpTaken .surge s then dumpStage .surge s else s) s

/-- DUMP_MIXER (R119). -/
def execDumpMixer (origin : Origin) (s : State) : Host.Outcome State Fault Refusal :=
  lineEvent origin 5 (fun s => if stageDumpTaken .mixer s then dumpStage .mixer s else s) s

/-- DUMP_PRESS (R119). -/
def execDumpPress (origin : Origin) (s : State) : Host.Outcome State Fault Refusal :=
  lineEvent origin 6 (fun s => if stageDumpTaken .press s then dumpStage .press s else s) s

/-- DUMP_FINISHED (R121). -/
def execDumpFinished (origin : Origin) (s : State) : Host.Outcome State Fault Refusal :=
  lineEvent origin 7 (fun s => if finishedDumpTaken s then openFinishedDump s else s) s

/-! ### Inputs (R73, R107, R114, R117, R148, R182) -/

/-- LOCAL_STOP_INPUT (R182): the node's drive of the STOP line follows its input. -/
def execLocalStopInput (active : Bool) (s : State) : Host.Outcome State Fault Refusal :=
  event true (fun s => { s with inputs := { s.inputs with localStop := active } }) s

/-- STOP_ASSERTED (R182). -/
def execStopAsserted (s : State) : Host.Outcome State Fault Refusal := event (!s.inputs.stopLine) stopLine s

/-- STOP_RELEASED (R182): no node drives the line, this one among them. -/
def execStopReleased (s : State) : Host.Outcome State Fault Refusal :=
  event (s.inputs.stopLine && !s.inputs.localStop) releaseLine s

/-- HAND_ADD_DONE (R73): taken in HAND_ADD while the line is RUN. -/
def execHandAddDone (s : State) : Host.Outcome State Fault Refusal :=
  event true (fun s => if s.scale.state = .handAdd ∧ s.line = .run then setScale (.settle .handAdd) s else s) s

/-- BAG_CLAMP (R148): a change of the clamp input of a node with a bagger. -/
def execBagClamp (present : Bool) (s : State) : Host.Outcome State Fault Refusal :=
  event (s.straps.bagger && decide (s.inputs.bagClamp ≠ present))
    (fun s => clampChanged present { s with inputs := { s.inputs with bagClamp := present } }) s

/-- SURGE_EMPTY_INPUT (R107). -/
def execSurgeEmptyInput (empty : Bool) (s : State) : Host.Outcome State Fault Refusal :=
  event true (fun s => { s with inputs := { s.inputs with surgeEmpty := empty } }) s

/-- MIXER_EMPTY_INPUT (R114). -/
def execMixerEmptyInput (empty : Bool) (s : State) : Host.Outcome State Fault Refusal :=
  event true (fun s => { s with inputs := { s.inputs with mixerEmpty := empty } }) s

/-- PRESS_BIN_EMPTY_INPUT (R117). -/
def execPressBinEmptyInput (empty : Bool) (s : State) : Host.Outcome State Fault Refusal :=
  event true (fun s => { s with inputs := { s.inputs with pressBinEmpty := empty } }) s

end Sys2Proof.Machine
end

