-- ==== Sys2Proof/Machine/Samples.lean ====
section
/-! DEFINITION. The samples of the converters, currents, temperatures and level sensors: one meaning for each. -/
namespace Sys2Proof.Machine

/-- R64, R78: the overload rule, then the test of the state the unit stands in (notes/assumptions/27.md). -/
def scaleSample (count : BitVec 24) (s : State) : State :=
  weighSample (overloadCheck { s with scaleConv := s.scaleConv.sample s.params.stableBand count.toInt })

/-- R142: a sample of the bucket. -/
def bucketSample (count : BitVec 24) (s : State) : State :=
  bucketStep { s with bucketConv := s.bucketConv.sample s.params.stableBand count.toInt }

/-- R111, R121, R173 to R175: what a sample of the finished bin drives, in this order (notes/assumptions/27.md). -/
def finishedStep (s : State) : State := trySpout (dumpEmptied (emptyFinished (loadSample (settleStep s))))

/-- R111: a sample of the finished bin; one that forms no filtered weight drives nothing (R89). -/
def finishedSample (count : BitVec 24) (s : State) : State :=
  let s1 : State := { s with finConv := s.finConv.sample s.params.stableBand count.toInt }
  if s1.finConv.weight.isSome then finishedStep (updateFinishedMass s1) else s1

/-- R97, R98: a current sample of a loop. -/
def currentSample (loop : LoopId) (i : BitVec 12) (s : State) : State :=
  match loop with
  | .grinder => { s with train := { s.train with grinder := s.train.grinder.sample s.params.grinder i.toNat } }
  | .press => { s with train := { s.train with presser := s.train.presser.sample s.params.press i.toNat } }

/-- R99: a temperature sample. -/
def temperatureSample (t : BitVec 16) (s : State) : State :=
  { s with train := { s.train with steam := s.train.steam.sample s.params.steamGain s.params.condBand t.toInt } }

/-- SCALE_SAMPLE (R64). -/
def execScaleSample (count : BitVec 24) (s : State) : Host.Outcome State Fault Refusal :=
  event true (scaleSample count) s

/-- BUCKET_SAMPLE (R142): of a node with a bagger (notes/assumptions/14.md). -/
def execBucketSample (count : BitVec 24) (s : State) : Host.Outcome State Fault Refusal :=
  event s.straps.bagger (bucketSample count) s

/-- FINISHED_BIN_SAMPLE (R111). -/
def execFinishedBinSample (count : BitVec 24) (s : State) : Host.Outcome State Fault Refusal :=
  event true (finishedSample count) s

/-- CURRENT_SAMPLE (R97). -/
def execCurrentSample (loop : LoopId) (current : BitVec 12) (s : State) : Host.Outcome State Fault Refusal :=
  event true (currentSample loop current) s

/-- TEMPERATURE_SAMPLE (R99). -/
def execTemperatureSample (temperature : BitVec 16) (s : State) : Host.Outcome State Fault Refusal :=
  event true (temperatureSample temperature) s

/-- LEVEL_SENSOR_READING (R59, R100). -/
def execLevelSensorReading (sensor : Fin 4) (reading : BitVec 16) (s : State) : Host.Outcome State Fault Refusal :=
  event true (readLevel sensor.val reading.toNat) s

end Sys2Proof.Machine
end

