-- ==== Sys2Proof/Machine/Memory.lean ====
section
/-! DEFINITION. The configuration memory (12_start_up_and_configuration.md R204): where each value stands, the ranges and
cross-checks, and the load. The fields stand packed from each region's start (notes/assumptions/9.md). -/
namespace Sys2Proof.Machine

/-! ### Reading (R204) -/

/-- A signed three-byte value. -/
def signedField (k : Nat) (m : List Byte) : Int :=
  let n := field k 3 m
  if n < 8388608 then n else (n : Int) - 16777216

/-- Zero count and multiplier of a converter at byte k. -/
def readConverter (k : Nat) (m : List Byte) : ConverterParams := { zero := signedField k m, mult := field (k + 3) 2 m }

/-- The channel record at byte k. -/
def readChannel (k : Nat) (m : List Byte) : ChannelParams :=
  { bin := byteAt k m, slowMargin := field (k + 1) 2 m, initial := field (k + 3) 2 m, fMax := field (k + 5) 2 m
    jogTime := byteAt (k + 7) m, minDose := field (k + 8) 2 m }

/-- The level bin at byte k. -/
def readLevelBin (k : Nat) (m : List Byte) : LevelParams := { bin := byteAt k m, capacity := field (k + 1) 3 m }

/-- The feeder loop at byte k. -/
def readLoop (k : Nat) (m : List Byte) : LoopParams :=
  { setpoint := field k 2 m, trip := field (k + 2) 2 m, resume := field (k + 4) 2 m, gain := byteAt (k + 6) m
    startSpeed := field (k + 7) 2 m, overloadLimit := field (k + 9) 2 m }

/-- R127, R204: the matrix as the memory holds it. -/
def rawMatrix (m : List Byte) : List Nat := (List.range 64).map (fun k => byteAt (197 + k) m)

/-- R127: row 0 and column 0 are forced to 0. -/
def forceMatrix (l : List Nat) : List Nat := l.zipIdx.map (fun p => if p.2 < 8 ∨ p.2 % 8 = 0 then 0 else p.1)

/-- R204: the parameters a memory holds. -/
def readParams (m : List Byte) : Params :=
  { scale := readConverter 2 m, bucket := readConverter 7 m, finished := readConverter 12 m
    batchSize := field 17 2 m, minBatch := field 19 2 m, scaleCapacity := field 21 3 m, stableBand := field 24 2 m
    zeroBand := field 26 2 m, emptyBand := field 28 2 m, settleTimeout := byteAt 30 m, stallWindow := byteAt 31 m
    stallMinimum := field 32 2 m, absTolerance := field 34 2 m, relTolerance := byteAt 36 m, adaptGain := byteAt 37 m
    jogLimit := byteAt 38 m
    channels := (List.range 12).map (fun i => readChannel (61 + 10 * i) m)
    levels := (List.range 4).map (fun i => readLevelBin (181 + 4 * i) m)
    matrix := forceMatrix (rawMatrix m)
    flushIngredient := field 261 2 m, flushMass := field 263 2 m, flushTemperature := field 265 2 m
    mixTime := field 267 2 m, grindRunout := byteAt 269 m, mixerRunout := byteAt 270 m, pressRunout := byteAt 271 m
    dischargeTimeout := field 272 2 m, grinder := readLoop 274 m, press := readLoop 285 m
    condBand := byteAt 296 m, condTimeout := field 297 2 m, steamGain := byteAt 299 m, finishedCapacity := field 300 3 m
    baggerSlow := field 331 2 m, baggerInitial := field 333 2 m, baggerFMax := field 335 2 m
    baggerJogTime := byteAt 337 m, baggerJogLimit := byteAt 338 m, bagTolerance := field 339 2 m
    chargeLimit := field 341 2 m
    spoutF := field 361 2 m, holdDuration := field 363 2 m, renewalPeriod := field 365 2 m, guardTime := field 367 2 m
    contentionWindow := byteAt 369 m, claimWindow := byteAt 370 m, batchCycle := field 371 2 m
    peerDrawAge := field 373 2 m, staleAge := field 375 2 m, bagAllowance := byteAt 377 m
    levelSendPeriod := field 378 2 m, levelStep := field 380 3 m }

/-! ### Ranges (R204 and the parameter tables of 05 to 09) -/

def between (lo hi n : Nat) : Bool := decide (lo ≤ n ∧ n ≤ hi)

def converterOk (c : ConverterParams) : Bool := between 1 65535 c.mult

def channelOk (c : ChannelParams) : Bool :=
  between 0 48 c.bin && between 1 50 c.jogTime && between 0 60000 c.minDose && decide (c.initial ≤ c.fMax)

def levelOk (l : LevelParams) : Bool := between 0 48 l.bin && between 1 16777215 l.capacity

def loopOk (l : LoopParams) : Bool :=
  between 0 4095 l.setpoint && between 0 4095 l.trip && between 0 4095 l.resume && between 1 64 l.gain
    && between 0 1000 l.startSpeed && between 1 600 l.overloadLimit && decide (l.resume < l.trip)

/-- No bin but 0 is named twice. -/
def distinctBins : List Nat → Bool
  | [] => true
  | b :: bs => (decide (b = 0) || !bs.contains b) && distinctBins bs

def lineOk (p : Params) : Bool :=
  converterOk p.scale && converterOk p.bucket && converterOk p.finished
    && between 500 60000 p.batchSize && between 500 p.batchSize p.minBatch && between 1000 16777215 p.scaleCapacity
    && between 0 1000 p.stableBand && between 0 1000 p.zeroBand && between 0 1000 p.emptyBand
    && between 1 120 p.settleTimeout && between 1 60 p.stallWindow && between 1 10000 p.stallMinimum
    && between 0 10000 p.absTolerance && between 0 100 p.relTolerance && between 0 8 p.adaptGain && between 0 3 p.jogLimit

def binsOk (p : Params) : Bool :=
  p.channels.all channelOk && distinctBins (p.channels.map ChannelParams.bin)
    && p.levels.all levelOk && distinctBins (p.levels.map LevelParams.bin)
    && between 1 61439 p.flushIngredient && between 500 60000 p.flushMass && between 600 950 p.flushTemperature

def trainOk (p : Params) : Bool :=
  between 60 600 p.mixTime && between 1 120 p.grindRunout && between 1 120 p.mixerRunout && between 1 120 p.pressRunout
    && between 10 600 p.dischargeTimeout && loopOk p.grinder && loopOk p.press && between 0 200 p.condBand
    && between 10 1800 p.condTimeout && between 1 64 p.steamGain && between 1000 16777215 p.finishedCapacity
    && decide (p.batchSize + 500 ≤ p.finishedCapacity)

def packingOk (p : Params) : Bool :=
  decide (p.baggerInitial ≤ p.baggerFMax) && between 1 50 p.baggerJogTime && between 0 3 p.baggerJogLimit
    && between 1 1000 p.bagTolerance && between 5 300 p.chargeLimit
    && between 10 600 p.holdDuration && between 10 600 p.renewalPeriod && between 10 600 p.guardTime
    && between 1 50 p.contentionWindow && decide (p.contentionWindow + p.renewalPeriod + p.guardTime < p.holdDuration)
    && between 5 100 p.claimWindow && between 1 3600 p.batchCycle && between 60 7200 p.peerDrawAge
    && between 60 65535 p.staleAge && between 0 100 p.bagAllowance && between 10 3600 p.levelSendPeriod
    && between 1 1000000 p.levelStep

/-- R204: the memory answered every byte, signature and sum match, every value and cross-check holds. -/
def memoryGood (m : List Byte) : Bool :=
  decide (m.length = 512) && decide (byteAt 0 m = 0x44 ∧ byteAt 1 m = 0x4C)
    && decide (((m.take 510).map BitVec.toNat).sum % 65536 = field 510 2 m)
    && (rawMatrix m).all (fun e => decide (e ≤ 2))
    && lineOk (readParams m) && binsOk (readParams m) && trainOk (readParams m) && packingOk (readParams m)

end Sys2Proof.Machine
end

