-- ==== Sys2Proof/Machine/Startup.lean ====
section
/-! DEFINITION. Power-on and warm reset (12_start_up_and_configuration.md R203 to R206, and each block's reset values). -/
namespace Sys2Proof.Machine

/-! ### Straps (R203) -/

/-- The eleven pins: bit 0 is pin 1. -/
def readStraps (pins : BitVec 11) : Straps :=
  { node := pins.toNat % 32, rate := pins.toNat / 32 % 4, fast := pins.getLsbD 7, press := pins.getLsbD 8
    bagger := pins.getLsbD 9, loadout := pins.getLsbD 10 }

/-- R205: the start-up fault found first, if any. -/
def startFault (t : Straps) (memory : List Byte) : Option StartFault :=
  if t.node = 0 ∨ t.node = 31 then some .badNode
  else if rateRefused (clockRate t.fast) (bitRate t.rate) then some .badRate
  else if !memoryGood memory then some .badMemory
  else none

/-! ### Power-on (R206) -/

/-- R42: the channel wired to a bin. -/
def wiredChannel (cs : List ChannelParams) (bin : Nat) : Option Nat :=
  (cs.zipIdx.find? (fun p => decide (p.1.bin = bin))).map (fun p => p.2 + 1)

/-- R62: the channel records. -/
def loadChannels (cs : List ChannelParams) : List Channel :=
  cs.zipIdx.map (fun p =>
    { number := p.2 + 1, bin := p.1.bin, slowMargin := p.1.slowMargin, fMax := p.1.fMax, jogTime := p.1.jogTime
      minDose := p.1.minDose, inFlight := p.1.initial, output := .off })

/-- R157: a bag found clamped is released without being filled. -/
def firstSpout (clamp : Bool) : BagSpout := if clamp then .filled else .vacant

/-- R188, R189: the line state taken up at a start, by the STOP line as it is read. The node's own drive, which an active
local stop input asserts from that event on, is seen with the line's next STOP_ASSERTED (the model's choice,
notes/assumptions/44.md). -/
def firstLine (stop : Bool) : LineState := if stop then .stopped else .paused

/-- R192, R206: the divider is computed after the test of the node number, before the rate's error is judged. -/
def dividerAt (f : StartFault) (t : Straps) : Nat :=
  if f = .badNode then 0 else dividerOf (clockRate t.fast) (bitRate t.rate)

/-- R205: the node at a start-up fault; no block has taken its values. -/
def faultedState (f : StartFault) (t : Straps) (s : State) : State :=
  { State.reset with power := .faulted f, straps := t, divider := dividerAt f t, free := s.free, pending := s.pending }

/-- R206: every block at its power-on values; the line state by `firstLine` (notes/assumptions/44.md). -/
def startedState (t : Straps) (p : Params) (inputs : Inputs) (s : State) : State :=
  { State.reset with
    power := .running, straps := t, params := p, divider := dividerOf (clockRate t.fast) (bitRate t.rate)
    inputs := inputs
    rx := { Receiver.blank with listening := true }
    bins := (List.range 48).map (fun k => { BinEntry.blank (k + 1) with channel := wiredChannel p.channels (k + 1) })
    levels := p.levels.map (fun l => { bin := l.bin, lastSent := none, since := 0 })
    scaleConv := Converter.blank p.scale.zero p.scale.mult
    bucketConv := Converter.blank p.bucket.zero p.bucket.mult
    finConv := Converter.blank p.finished.zero p.finished.mult
    channels := loadChannels p.channels
    bagger := { Bagger.blank with inFlight := p.baggerInitial, spout := firstSpout inputs.bagClamp }
    line := firstLine inputs.stopLine
    free := s.free, pending := s.pending }

/-- R201, R206: power-on. -/
def powerOn (pins : BitVec 11) (memory : List Byte) (inputs : Inputs) (s : State) : State :=
  let t := readStraps pins
  match startFault t memory with
  | some f => faultedState f t s
  | none =>
    let s1 := startedState t (readParams memory) inputs s
    queueNotice (.lineState s1.line .reset) s1

/-! ### Warm reset (R206) -/

/-- R61: the bins of DRAWING entries. -/
def drawnBins (s : State) : List Nat :=
  match s.plan with
  | some p => (p.entries.filter (fun e => decide (e.status = .drawing))).map PlanEntry.bin
  | none => []

/-- R61: they gain UNCERTAIN; the plan is discarded. -/
def warmBins (s : State) : State :=
  { s with bins := s.bins.map (fun e => if (drawnBins s).contains e.bin then { e with uncertain := true } else e)
           plan := none }

/-- R24: the plan less the batches that the reset lost, those flagged REWORK apart. -/
def Plan.lose (lost : List Batch) (id : Nat) (p : Plan) : Plan :=
  let own := lost.filter (fun b => decide (b.order = some id) && !b.rework)
  { p with
    admitted := p.admitted - (own.filter (fun b => !b.makeUp)).length
    makeUp := p.makeUp.map (fun m => { m with admitted := m.admitted - (own.filter Batch.makeUp).length }) }

/-- R24: an order that is kept. -/
def Order.warm (lost : List Batch) (o : Order) : Order :=
  { o with plan := o.plan.lose lost o.id, state := .held, waits := Waits.none }

/-- R24: an order that the reset drops. -/
def Order.dropped (o : Order) : Bool := decide (o.state = .claiming) || o.cancelled

/-- The orders in take order, for the list of R41. -/
def byTake (l : List Order) : List Order := sortBy (fun a b => decide (a.takeOrder.getD 0 ≤ b.takeOrder.getD 0)) l

/-- R7: slots are freed one by one. -/
def freeAll : List Order → State → State
  | [], s => s
  | o :: os, s => freeAll os (freeSlot o.id s)

/-- R24, R41: the Order Book. -/
def warmOrders (lost : List Batch) (s : State) : State :=
  let s1 := freeAll (s.slots.filter Order.dropped) s
  let kept := s1.slots.map (Order.warm lost)
  { s1 with slots := kept, reannounce := (byTake kept).map Order.id }

/-- R86: the scale is UNKNOWN after the reset. -/
def scaleUnknown (s : State) : Bool :=
  s.scale.batch.isSome || decide (s.scale.state = .dumping) || decide (s.scale.state = .unknown)
    || (decide (s.scale.state = .held) && decide (s.scale.resume = some .unknown))

/-- R86. -/
def warmScale (s : State) : State :=
  { s with
    scale := { Scale.blank with state := if scaleUnknown s then .unknown else .idle }
    scaleConv := s.scaleConv.warm
    channels := s.channels.map (fun c => { c with output := .off }) }

/-- R125: a stage. -/
def StageRec.warm (r : StageRec) : StageRec :=
  if r.state = .empty then StageRec.ofState .empty else StageRec.ofState .unknown

/-- R125: the finished bin record. -/
def FinishedBin.warm (f : FinishedBin) : FinishedBin :=
  { f with mass := none, entering := false, dumping := false, unknown := f.unknown || f.dumping }

/-- R99, R125: the steam loop is halted with valve figure 0; its conditioning target, on which the rules are silent, is
kept (the model's choice, notes/assumptions/35.md). -/
def warmTrain (s : State) : State :=
  { s with surge := s.surge.warm, mixer := s.mixer.warm, press := s.press.warm
           train := { Train.blank with steam := { Steam.blank with target := s.train.steam.target } }
           fin := s.fin.warm, finConv := s.finConv.warm }

/-- R158: the bucket. -/
def bucketUnknown (b : Bagger) : Bool :=
  b.charge.isSome || decide (b.bucket = .discharging) || decide (b.bucket = .unknown false)
    || decide (b.bucket = .unknown true)

/-- R158: the spout. -/
def warmSpout (clamp : Bool) (p : BagSpout) : BagSpout := if p = .receiving then firstSpout clamp else p

/-- R158. -/
def warmBagger (inputs : Inputs) (s : State) : State :=
  { s with
    bagger := { Bagger.blank with
      inFlight := s.bagger.inFlight
      bucket := if bucketUnknown s.bagger then .unknown false else .empty
      spout := warmSpout inputs.bagClamp s.bagger.spout }
    bucketConv := s.bucketConv.warm }

/-- R178: a bay timer; one that this node holds is freed. -/
def BayTimer.warm (node : Nat) (b : BayTimer) : BayTimer := if b.holder = some node then BayTimer.blank else b

/-- R178. -/
def warmLoadout (s : State) : State :=
  { s with hold := OwnHold.blank, step := none, stepTimer := .stopped
           bays := s.bays.map (BayTimer.warm s.straps.node) }

/-- R189: a charge record, or a bag being filled, is discarded. -/
def losesCharge (s : State) : Bool := s.bagger.charge.isSome || decide (s.bagger.spout = .receiving)

/-- R189: UNACCOUNTED, where the reset lost anything; `lost` is the pipeline it found, oldest first. -/
def raiseUnaccounted (lost : List Batch) (charge step : Bool) (s : State) : State :=
  if !lost.isEmpty || charge || step then
    raiseFault .unaccounted ((lost.head?).map Batch.number)
      [.word lost.length, .byte charge.toNat, .byte step.toNat] s
  else s

/-- R202: the Bus Port. -/
def warmPort (s : State) : State :=
  { s with rx := { Receiver.blank with listening := true, resetKind := .warm }, tx := [] }

/-- R189: Line Control takes up the line state, by `firstLine` (notes/assumptions/44.md), and says so. -/
def warmLine (inputs : Inputs) (s : State) : State :=
  let l := firstLine inputs.stopLine
  queueNotice (.lineState l .reset) { s with line := l, reports := Reports.blank, inputs := inputs }

/-- R206: a warm reset. -/
def warmReset (inputs : Inputs) (s : State) : State :=
  let lost := pipeline s
  let charge := losesCharge s
  let step := s.step.isSome
  let s1 := warmPort { s with resetPin := false, lamps := Lamps.blank }
  let s2 := warmLoadout (warmBagger inputs (warmTrain (warmScale (warmOrders lost (warmBins s1)))))
  warmLine inputs (raiseUnaccounted lost charge step s2)

end Sys2Proof.Machine
end

