-- ==== Sys2Proof/Machine/Starts.lean ====
section
/-! DEFINITION. The commands of a start (12_start_up_and_configuration.md R205, R206) and of the Bus Port's line
(11_the_mill_bus.md): one meaning for each. -/
namespace Sys2Proof.Machine

/-- POWER_ON (R206). -/
def execPowerOn (pins : BitVec 11) (memory : List Byte) (inputs : Inputs) (s : State) :
    Host.Outcome State Fault Refusal :=
  .next (drive (powerOn pins memory inputs s))

/-- RESET_ASSERT (R206): while the pin is asserted the node drives no output and takes no event. -/
def execResetAssert (s : State) : Host.Outcome State Fault Refusal := .next (drive { s with resetPin := true })

/-- WARM_RESET (R206): the release of the pin after a completed power-on. -/
def execWarmReset (inputs : Inputs) (s : State) : Host.Outcome State Fault Refusal :=
  if s.power = .running then .next (settled s (warmReset inputs s)) else .next s

/-- LISTENING_END (R201): 240 bit times of 1 are 228 bit times of idle beyond the first 12 (R199). -/
def execListeningEnd (s : State) : Host.Outcome State Fault Refusal :=
  event s.rx.listening
    (fun s => endListening { s with rx := { s.rx with idle := some 228 } }) s

/-- FRAME_RECEIVED (R195). -/
def execFrameReceived (f : RawFrame) (s : State) : Host.Outcome State Fault Refusal := event true (frameComplete f) s

/-- CHARACTER_RECEIVED (R191). -/
def execCharacterReceived (samples : BitVec 36) (s : State) : Host.Outcome State Fault Refusal :=
  event true (receiveCharacter samples) s

/-- TRANSMIT_ATTEMPT (R199). -/
def execTransmitAttempt (idle : Nat) (s : State) : Host.Outcome State Fault Refusal :=
  event (underWay s).isNone (attempt idle) s

/-- ATTEMPT_LOST (R199). -/
def execAttemptLost (s : State) : Host.Outcome State Fault Refusal := event (underWay s).isSome loseAttempt s

/-- ATTEMPT_COMPLETE (R199). -/
def execAttemptComplete (s : State) : Host.Outcome State Fault Refusal := event (underWay s).isSome completeAttempt s

end Sys2Proof.Machine
end

