-- ==== Sys2Proof/Machine/Dispatch.lean ====
section
/-! DEFINITION. One arm per command: its meaning. -/
namespace Sys2Proof.Machine

def exec (i : Instr) (s : State) : Host.Outcome State Fault Refusal :=
  match i with
  | .powerOn pins memory inputs => Sys2Proof.Machine.execPowerOn pins memory inputs s
  | .resetAssert => Sys2Proof.Machine.execResetAssert s
  | .warmReset inputs => Sys2Proof.Machine.execWarmReset inputs s
  | .listeningEnd => Sys2Proof.Machine.execListeningEnd s
  | .frameReceived f => Sys2Proof.Machine.execFrameReceived f s
  | .transmitAttempt idle => Sys2Proof.Machine.execTransmitAttempt idle s
  | .attemptLost => Sys2Proof.Machine.execAttemptLost s
  | .attemptComplete => Sys2Proof.Machine.execAttemptComplete s
  | .time => Sys2Proof.Machine.execTime s
  | .offer => Sys2Proof.Machine.execOffer s
  | .claim => Sys2Proof.Machine.execClaim s
  | .take => Sys2Proof.Machine.execTake s
  | .yieldReceived => Sys2Proof.Machine.execYieldReceived s
  | .relevel => Sys2Proof.Machine.execRelevel s
  | .cancel => Sys2Proof.Machine.execCancel s
  | .quarantine => Sys2Proof.Machine.execQuarantine s
  | .intake => Sys2Proof.Machine.execIntake s
  | .level => Sys2Proof.Machine.execLevel s
  | .drawNotice => Sys2Proof.Machine.execDrawNotice s
  | .drawReport => Sys2Proof.Machine.execDrawReport s
  | .hello => Sys2Proof.Machine.execHello s
  | .truckPlan => Sys2Proof.Machine.execTruckPlan s
  | .bayHold => Sys2Proof.Machine.execBayHold s
  | .loaded => Sys2Proof.Machine.execLoaded s
  | .ack origin => Sys2Proof.Machine.execAck origin s
  | .pause origin => Sys2Proof.Machine.execPause origin s
  | .resume origin => Sys2Proof.Machine.execResume origin s
  | .dumpScale origin => Sys2Proof.Machine.execDumpScale origin s
  | .dumpSurge origin => Sys2Proof.Machine.execDumpSurge origin s
  | .dumpMixer origin => Sys2Proof.Machine.execDumpMixer origin s
  | .dumpPress origin => Sys2Proof.Machine.execDumpPress origin s
  | .dumpFinished origin => Sys2Proof.Machine.execDumpFinished origin s
  | .localStopInput active => Sys2Proof.Machine.execLocalStopInput active s
  | .stopAsserted => Sys2Proof.Machine.execStopAsserted s
  | .stopReleased => Sys2Proof.Machine.execStopReleased s
  | .handAddDone => Sys2Proof.Machine.execHandAddDone s
  | .bagClamp present => Sys2Proof.Machine.execBagClamp present s
  | .surgeEmptyInput empty => Sys2Proof.Machine.execSurgeEmptyInput empty s
  | .mixerEmptyInput empty => Sys2Proof.Machine.execMixerEmptyInput empty s
  | .pressBinEmptyInput empty => Sys2Proof.Machine.execPressBinEmptyInput empty s
  | .scaleSample count => Sys2Proof.Machine.execScaleSample count s
  | .bucketSample count => Sys2Proof.Machine.execBucketSample count s
  | .finishedBinSample count => Sys2Proof.Machine.execFinishedBinSample count s
  | .currentSample loop current => Sys2Proof.Machine.execCurrentSample loop current s
  | .temperatureSample temperature => Sys2Proof.Machine.execTemperatureSample temperature s
  | .levelSensorReading sensor reading => Sys2Proof.Machine.execLevelSensorReading sensor reading s
  | .oneSecondEvent => Sys2Proof.Machine.execOneSecondEvent s
  | .staleAgeExpiry bin => Sys2Proof.Machine.execStaleAgeExpiry bin s
  | .peerDrawAgeExpiry node batch bin => Sys2Proof.Machine.execPeerDrawAgeExpiry node batch bin s
  | .bayTimeStep => Sys2Proof.Machine.execBayTimeStep s
  | .bayTimerExpiry bay => Sys2Proof.Machine.execBayTimerExpiry bay s
  | .bayLost => Sys2Proof.Machine.execBayLost s
  | .claimWindowExpiry order => Sys2Proof.Machine.execClaimWindowExpiry order s
  | .settleTimeout => Sys2Proof.Machine.execSettleTimeout s
  | .stallTimerExpiry => Sys2Proof.Machine.execStallTimerExpiry s
  | .jogTimerExpiry => Sys2Proof.Machine.execJogTimerExpiry s
  | .residueTimerExpiry => Sys2Proof.Machine.execResidueTimerExpiry s
  | .grindRunoutExpiry => Sys2Proof.Machine.execGrindRunoutExpiry s
  | .mixTimerExpiry => Sys2Proof.Machine.execMixTimerExpiry s
  | .mixerRunoutExpiry => Sys2Proof.Machine.execMixerRunoutExpiry s
  | .dischargeTimeout => Sys2Proof.Machine.execDischargeTimeout s
  | .pressRunoutExpiry => Sys2Proof.Machine.execPressRunoutExpiry s
  | .condLow => Sys2Proof.Machine.execCondLow s
  | .overloadTimerExpiry loop => Sys2Proof.Machine.execOverloadTimerExpiry loop s
  | .dumpRunoutExpiry stage => Sys2Proof.Machine.execDumpRunoutExpiry stage s
  | .finishedDumpTimerExpiry => Sys2Proof.Machine.execFinishedDumpTimerExpiry s
  | .fillTimerExpiry => Sys2Proof.Machine.execFillTimerExpiry s
  | .baggerSettleTimeout => Sys2Proof.Machine.execBaggerSettleTimeout s
  | .baggerJogTimerExpiry => Sys2Proof.Machine.execBaggerJogTimerExpiry s
  | .dischargeTimerExpiry => Sys2Proof.Machine.execDischargeTimerExpiry s
  | .contentionTimerExpiry => Sys2Proof.Machine.execContentionTimerExpiry s
  | .renewalTimerExpiry => Sys2Proof.Machine.execRenewalTimerExpiry s
  | .loadoutSettleTimeout => Sys2Proof.Machine.execLoadoutSettleTimeout s
  | .flashTimerExpiry lamp => Sys2Proof.Machine.execFlashTimerExpiry lamp s
  | .characterReceived samples => Sys2Proof.Machine.execCharacterReceived samples s

end Sys2Proof.Machine
end

