-- ==== Sys2Proof/Safety.lean ====
section
/-! DEFINITION. What the statements speak of: the part of the state that the close of an event cannot change, and the
invariants of the node. -/
namespace Sys2Proof.Machine

/-! ### What the close of an event leaves alone -/

/-- The fields that nothing which begins "at the first event after which ..." changes: identity and configuration, inputs,
the receiving side of the bus, the clock, the bins and peer draws, level records, converters, free values and queue. -/
structure Kept where
  power      : Power
  resetPin   : Bool
  straps     : Straps
  params     : Params
  divider    : Nat
  inputs     : Inputs
  rx         : Receiver
  millTime   : Option Nat
  bins       : List BinEntry
  peers      : List PeerDraw
  levels     : List LevelRec
  scaleConv  : Converter
  bucketConv : Converter
  finConv    : Converter
  free       : Nat
  pending    : List Instr
  deriving DecidableEq, Repr

/-- The kept part of a state. -/
def State.kept (s : State) : Kept :=
  { power := s.power, resetPin := s.resetPin, straps := s.straps, params := s.params, divider := s.divider
    inputs := s.inputs, rx := s.rx, millTime := s.millTime, bins := s.bins, peers := s.peers, levels := s.levels
    scaleConv := s.scaleConv, bucketConv := s.bucketConv, finConv := s.finConv, free := s.free, pending := s.pending }

/-! ### Outputs -/

/-- The outputs that a state calls for (R205, R206; notes/assumptions/24.md). -/
def shownOutputs (s : State) : Outputs :=
  if ready s then outputsOf s
  else if s.resetPin then Outputs.blank
  else
    match s.power with
    | .faulted _ => faultedOutputs s
    | _ => Outputs.blank

/-- Every output stands as the state calls for. -/
def OutputsFollow (s : State) : Prop := s.pins = shownOutputs s

/-! ### Arriving frames and characters -/

/-- R197: the block's oldest frame is `f`, of this kind; `s1` is the state without it. -/
def Arrives (block : Block) (kind : Nat) (f : RawFrame) (s s1 : State) : Prop :=
  ready s = true ∧ f.kind.toNat = kind ∧ ownerOf kind = some block
    ∧ ∃ before after, s.rx.inbound = before ++ f :: after
      ∧ (∀ g ∈ before, ownerOf g.kind.toNat ≠ some block)
      ∧ s1 = { s with rx := { s.rx with inbound := before ++ after } }

/-- No frame of this kind waits. -/
def NoneWaits (kind : Nat) (s : State) : Prop := ∀ f ∈ s.rx.inbound, f.kind.toNat ≠ kind

/-- The event takes the state to the close of `u`. -/
def Becomes (c : Instr) (s u : State) : Prop := exec c s = .next (settled s u)

/-- The event changes nothing. -/
def NoEvent (c : Instr) (s : State) : Prop := exec c s = .next s

/-- R191: the samples read, bit time by bit time, as this character. -/
def Reads (samples : BitVec 36) (c : BitVec 12) : Prop := ∀ k < 12, majority samples k = c.getLsbD k

/-- R63, R183, R194: what keeps a frame of this node within its kind's length: 1 to 16 pairs in a DRAW-NOTICE, at most 11
bytes of detail in a FAULT notice. -/
def Body.fits : Body → Prop
  | .drawNotice _ pairs => 1 ≤ pairs.length ∧ pairs.length ≤ 16
  | .notice (.fault _ detail) => (detail.map DetailField.bytes).flatten.length ≤ 11
  | _ => True

/-- R194: the bytes of an OFFER; `filler` stands for a departure that is not present. -/
def offerPayload (g : OfferFields) (filler : Nat) : List Byte :=
  be2 g.order ++ be1 g.level ++ be1 g.group ++ be1 g.runCount ++ be1 g.cls ++ be1 g.form ++ be2 g.target ++ be1 g.delivery
    ++ be2 g.bagSize ++ be2 g.bags ++ be3 g.runMass ++ boolByte g.departure.isSome ++ be2 (g.departure.getD filler)
    ++ be1 g.formula.length ++ (g.formula.map (fun c => be2 c.code ++ be2 c.share)).flatten

/-- R194: the bytes of a TRUCK-PLAN that carries a plan; the last three numbers stand for a bay, a departure and an order id
that are not present. -/
def planPayload (truck : Nat) (p : PlanFields) (bay departure order : Nat) : List Byte :=
  be1 truck ++ be1 1 ++ be1 (p.bay.isSome.toNat + 2 * p.departure.isSome.toNat) ++ be1 (p.bay.getD bay)
    ++ be2 (p.departure.getD departure) ++ be1 p.comps.length
    ++ (p.comps.map (fun c => boolByte c.order.isSome ++ be3 c.capacity ++ be2 (c.order.getD order))).flatten

/-! ### Lists as the rules read them -/

/-- R46: a bin's quarantine after a list of pairs, of which the last that names the bin counts. -/
def quarantineAfter (bin : Nat) : List (Nat × Nat) → Quarantine → Quarantine
  | [], q => q
  | p :: ps, q =>
    quarantineAfter bin ps (if p.1 = bin ∧ p.2 = 1 then .on else if p.1 = bin ∧ p.2 = 0 then .off else q)

/-- R48: one pair of a DRAW-NOTICE on a list of at most 64. -/
def joinPeer (node batch : Nat) (l : List PeerDraw) (p : Nat × Nat) : List PeerDraw :=
  if 1 ≤ p.1 ∧ p.1 ≤ 48 then
    let others := l.filter (fun r => !decide (r.node = node ∧ r.batch = batch ∧ r.bin = p.1))
    others.drop (others.length - 63) ++ [{ node := node, batch := batch, bin := p.1, target := p.2, age := 0 }]
  else l

/-- R200: one second of the mill time. -/
def nextSecond (t : Nat) : Nat := if t = 86399 then 0 else t + 1

/-- The HELLO of the start that began the listening (R201). -/
def ownHello (s : State) : Body := .hello s.straps.node s.straps.press s.straps.bagger s.straps.loadout s.rx.resetKind

/-- R19, R22, R24: an order that a warm reset keeps. -/
def keptOrders (s : State) : List Order := s.slots.filter (fun o => decide (o.state ≠ .claiming) && !o.cancelled)

/-! ### The reservation table (R7, R52) -/

/-- R52: the mass a list holds of an ingredient; 0 where it has no entry. -/
def massOf (code : Nat) (l : List Reservation) : Nat :=
  match l.find? (fun r => decide (r.code = code)) with
  | some r => r.mass
  | none => 0

/-- R7: what remains reserved for an order of an ingredient. -/
def heldFor (code : Nat) (o : Order) : Nat :=
  ((o.remainders.filter (fun r => decide (r.code = code))).map Reservation.mass).sum

/-- R7, R52: the parts of a run are reserved, each entered in the table and in the order's remainders where its entry exists
or the table has room for all, and remaining 0 where its entry is missing and the table is full. Which parts get an entry
where the table has room for some of them alone is left unsaid (notes/assumptions/45.md). -/
def Reserves (parts : List Planned) (before after remainders : List Reservation) : Prop :=
  remainders.map Reservation.code = parts.map Planned.code
    ∧ (∀ code, (∀ c ∈ parts, c.code ≠ code) → massOf code after = massOf code before)
    ∧ ∀ c ∈ parts,
      ((∃ r ∈ before, r.code = c.code) ∨ before.length + parts.length ≤ 64 →
        massOf c.code remainders = c.target ∧ massOf c.code after = min 16777215 (massOf c.code before + c.target))
      ∧ ((∀ r ∈ before, r.code ≠ c.code) → 64 ≤ before.length → c.target ≠ 0 →
        massOf c.code remainders = 0 ∧ massOf c.code after = 0)

/-- R7, R52: what remains reserved for the orders leaves the table. -/
def Releases (orders : List Order) (before after : List Reservation) : Prop :=
  ∀ code, massOf code after = massOf code before - (orders.map (heldFor code)).sum

/-! ### Components and stages -/

/-- R57, R66: the Bin View is asked to confirm the planned bin of a component: the bin still eligible, another bin, or no
source. -/
def ConfirmsBin (d : Dose) (e : PlanEntry) (s u : State) : Prop :=
  ∀ b, findBin e.bin s = some b →
    (eligible e.ingredient b = true → u.scale.state = .tare ∧ u.tx = s.tx
      ∧ planEntry d.position u = some { e with status := .drawing }
      ∧ ∀ x, curDose u = some x → x.mode = some (if d.target ≤ flightOf d s then .jogOnly else .feed))
    ∧ (eligible e.ingredient b = false → ∀ c, rechoose e s = some c → u.scale.state = .tare
      ∧ planEntry d.position u = some { e with bin := c, status := .drawing }
      ∧ (s.tx.length < 8 → u.tx = s.tx ++ [OutEntry.fresh (.drawNotice (scaleNumber s) [(c, e.target - e.drawn)])])
      ∧ ∀ x, curDose u = some x →
          x.announced = true ∧ x.mode = some (if d.target ≤ flightOf d u then .jogOnly else .feed))
    ∧ (eligible e.ingredient b = false → rechoose e s = none → u.scale.state = .held
      ∧ u.scale.resume = some (.tare true) ∧ .noSource ∈ u.scale.holdSet ∧ standing .noSource u = true)

/-- R118: a stage's record of the order gains the REWORK flag. -/
def flagged (id : Nat) (r : StageRec) : StageRec :=
  if ofOrder id r.batch then { r with batch := r.batch.map (fun b => { b with rework := true }) } else r

/-- R118: the stage's outflow into the finished bin is of the order. -/
def feedsFinished (id : Nat) (p : Phase) (r : StageRec) : Prop :=
  ofOrder id r.batch = true ∧ (r.state = .busy ∨ r.state = .held) ∧ r.phase = some p ∧ r.dest = some .finished

/-- R183: a fault of this key stands in `u`; a record made by the raise carries the reference. -/
def Raised (k : FaultKey) (reference : Option Nat) (s u : State) : Prop :=
  ∃ r ∈ u.faults, r.key = k ∧ r.acked = false ∧ ((∀ q ∈ s.faults, q.key ≠ k) → r.reference = reference)

/-- R183, R187: where the queue has room, the FAULT notice of a raise stands last in it, with this detail. -/
def Reported (k : FaultKey) (detail : List DetailField) (s u : State) : Prop :=
  s.tx.length < 8 → ∃ r ∈ u.faults, r.key = k ∧ u.tx = s.tx ++ [OutEntry.fresh (.notice (.fault r detail))]

/-! ### Timers -/

/-- A timer at the close of an event, as it was before: it runs while the condition holds, in full where it did not run
before, and is stopped where the condition fails. -/
def RunsWhile (cond : Prop) (full : Nat) (before after : Timer) : Prop :=
  (cond → before.isRunning = true → after = before)
    ∧ (cond → before.isRunning = false → after = .running full)
    ∧ (¬cond → after = .stopped)

/-- The timer of a piece of work: it starts in full, is frozen with its remaining time off `run` and goes on from it, stays
expired while the work lasts, and is stopped without the work. -/
def FreezesOff (work run : Prop) (full : Nat) (before after : Timer) : Prop :=
  (¬work → after = .stopped)
    ∧ (work → before = .expired → after = .expired)
    ∧ ∀ left, work → (before = .stopped ∧ left = full) ∨ before = .running left ∨ before = .frozen left →
      (run → after = .running left) ∧ (¬run → after = .frozen left)

/-! ### Laws of the node -/

/-- R62, R80, R182: a feeder channel is driven only while the line is RUN, or PAUSING with the Dosing Unit's report not
yet set; while the STOP line is seen asserted the line is STOPPED. -/
def FeedLawful (s : State) : Prop :=
  (feedRate s ≠ .off → s.line = .run ∨ (s.line = .pausing ∧ s.reports.dosing = false))
    ∧ (s.inputs.stopLine = true → s.line = .stopped)

/-- The component in progress draws from its bin, or goes on to draw at the end of a hold without a new choice of bin
(R66, R77). -/
def State.draws (s : State) : Bool :=
  match s.scale.state with
  | .tare | .feedFast | .feedSlow | .jog _ | .settle .first | .settle .jog | .settle .resume => true
  | .held => decide (s.scale.resume = some .resumeSettle ∨ s.scale.resume = some (.tare false))
  | _ => false

/-- No component by hand is in progress where a feeder's work is, or where a hold ends in it. -/
def State.handBarred (s : State) : Bool :=
  match s.scale.state with
  | .feedFast | .feedSlow | .jog _ | .settle .first | .settle .jog | .settle .resume => true
  | .held => decide (s.scale.resume = some .resumeSettle ∨ s.scale.resume = some .rechoose
      ∨ s.scale.resume = some (.tare true))
  | _ => false

/-- R46, R57, R62, R66, R77: a component that draws, other than by hand, draws from a bin whose quarantine is OFF, its entry
of the plan DRAWING; one waiting or by hand has no DRAWING entry; one component at most is in progress; the stall timer runs
in FEED only, the jog timer during a pulse only. -/
def DrawsFromOpenBin (s : State) : Prop :=
  (∀ x ∈ dosesOf s, ∀ y ∈ dosesOf s, x.status = .inProgress → y.status = .inProgress → x.position = y.position)
    ∧ (∀ x ∈ dosesOf s, x.status = .waiting ∨ x.mode = some .hand → ∀ e, planEntry x.position s = some e →
        e.status ≠ .drawing)
    ∧ (∀ d, curDose s = some d → d.mode = some .hand → s.handBarred = false)
    ∧ (∀ d, curDose s = some d → d.mode ≠ some .hand → s.draws = true → ∃ e, planEntry d.position s = some e
        ∧ e.status = .drawing ∧ ∀ b, findBin e.bin s = some b → b.quarantine = .off)
    ∧ (s.scale.stall.isRunning = true → s.scale.state = .feedFast ∨ s.scale.state = .feedSlow)
    ∧ (s.scale.jog.isRunning = true → s.scale.state = .jog true)

/-- R1, R48, R52, R159, R197, R198: no table holds more than its room. -/
def TablesBounded (s : State) : Prop :=
  s.slots.length ≤ 24 ∧ s.trucks.length ≤ 12 ∧ s.peers.length ≤ 64 ∧ s.reservations.length ≤ 64
    ∧ s.rx.inbound.length ≤ 4 ∧ s.tx.length ≤ 8

/-- R1, R25, R52, R63, R159, R183: no two orders of one id, trucks of one id, fault records of one key, reservations of one
ingredient, dose records of one position, or components of one ingredient in a formula. -/
def KeysDistinct (s : State) : Prop :=
  (s.slots.map Order.id).Nodup ∧ (s.trucks.map Truck.truck).Nodup ∧ (s.faults.map FaultRecord.key).Nodup
    ∧ (s.reservations.map Reservation.code).Nodup ∧ ((dosesOf s).map Dose.position).Nodup
    ∧ ∀ o ∈ s.slots, (o.formula.map Component.code).Nodup

/-- R65, R78, R81, R82: no batch is in the scale while it is IDLE, or held to return to IDLE. -/
def IdleScaleEmpty (s : State) : Prop :=
  (s.scale.state = .idle → s.scale.batch = none)
    ∧ (s.scale.state = .held → s.scale.resume = some .idle → s.scale.batch = none)

/-- R4: at most one order of the book is ACTIVE. -/
def OneActive (s : State) : Prop :=
  ∀ x ∈ s.slots, ∀ y ∈ s.slots, x.state = .active → y.state = .active → x.id = y.id

/-- R42, R62, R165: one entry for each of the 48 bins, one record for each of the 12 channels, one timer for each of the
4 bays. -/
def RecordsWhole (s : State) : Prop :=
  s.bins.map BinEntry.bin = (List.range 48).map (fun k => k + 1)
    ∧ s.channels.map Channel.number = (List.range 12).map (fun k => k + 1)
    ∧ s.bays.length = 4

/-- R3, R62, R97, R99, R127, R165, R183, R200, R204: in-flight values within their ceilings, loop speeds and valve figure
within 1000 per-mille, bay times within 60 s, fault counts within 1 to 255, matrix entries within 2, the mill time within
a day, run masses above 0, and the batch size of a node that has started above 0. -/
def FiguresWithin (s : State) : Prop :=
  (∀ c ∈ s.channels, c.inFlight ≤ c.fMax) ∧ s.bagger.inFlight ≤ s.params.baggerFMax
    ∧ s.train.grinder.speed ≤ 1000 ∧ s.train.presser.speed ≤ 1000 ∧ s.train.steam.valve ≤ 1000
    ∧ s.params.grinder.startSpeed ≤ 1000 ∧ s.params.press.startSpeed ≤ 1000 ∧ s.params.holdDuration ≤ 600
    ∧ (∀ b ∈ s.bays, b.remaining ≤ 600) ∧ (∀ r ∈ s.faults, 1 ≤ r.count ∧ r.count ≤ 255)
    ∧ (∀ e ∈ s.params.matrix, e ≤ 2) ∧ (∀ t, s.millTime = some t → t ≤ 86399)
    ∧ (∀ o ∈ s.slots, 0 < o.runMass) ∧ (s.power = .running → 0 < s.params.batchSize)

end Sys2Proof.Machine
end

