-- ==== Sys2Proof/Certificates/Slice0/Obligations.lean ====
section
/-! DEFINITION. The statements for the provers. `Becomes c s u` says that the command answers the next state `settled s u`:
the close of the event that has brought the state to `u`. -/
open Sys2Proof Sys2Proof.Machine

/-! ### The step and the form of an event -/

/-- The command at the front of the queue runs on the queue's rest; an empty queue idles (notes/assumptions/2.md). -/
def Obligations.StepRunsFrontCommand : Prop :=
  (∀ (s : State) (c : Instr) (rest : List Instr), s.pending = c :: rest →
      step s = exec c { s with pending := rest })
    ∧ ∀ s : State, s.pending = [] → step s = .next s

/-- No command faults or is refused, and none touches the queue. -/
def Obligations.EveryCommandAnswersNext : Prop :=
  ∀ (c : Instr) (s : State), ∃ t, exec c s = .next t ∧ t.pending = s.pending

/-- R205, R206: before a completed power-on (before the first power-on too: the unpowered node is
notes/assumptions/1.md) and while RESET is asserted, nothing is taken but a start, RESET and the flash timer. R206:
while the RESET pin is asserted the node drives no output and takes no event; that every block stands as it was until
the release is the model's choice (notes/assumptions/8.md). An event that cannot come about changes nothing
(notes/assumptions/3.md, 6.md, 7.md): an expiry of a timer that does not run, a frame of which none waits, an input
that stands so already, an input of a bagger the straps leave out (notes/assumptions/14.md). -/
def Obligations.EventsThatCannotComeChangeNothing : Prop :=
  (∀ (c : Instr) (s : State), ready s = false → (∀ p m i, c ≠ .powerOn p m i) → c ≠ .resetAssert →
    (∀ i, c ≠ .warmReset i) → (∀ l, c ≠ .flashTimerExpiry l) → exec c s = .next s)
  ∧ (∀ s : State, ∃ t, exec .resetAssert s = .next t ∧ t.pins = Outputs.blank ∧ t.resetPin = true
    ∧ t = { s with resetPin := true, lamps := Lamps.blank, pins := Outputs.blank
                   channels := s.channels.map (fun c => { c with output := .off }) }
    ∧ ∀ i, exec .oneSecondEvent t = .next t ∧ NoEvent (.scaleSample i) t)
  ∧ (∀ s : State,
    (s.scale.settle.isRunning = false → NoEvent .settleTimeout s)
    ∧ (s.scale.stall.isRunning = false → NoEvent .stallTimerExpiry s)
    ∧ (s.scale.jog.isRunning = false → NoEvent .jogTimerExpiry s)
    ∧ (s.scale.residue.isRunning = false → NoEvent .residueTimerExpiry s)
    ∧ (s.train.grindRunout.isRunning = false → NoEvent .grindRunoutExpiry s)
    ∧ (s.train.mix.isRunning = false → NoEvent .mixTimerExpiry s)
    ∧ (s.train.mixerRunout.isRunning = false → NoEvent .mixerRunoutExpiry s)
    ∧ (s.train.dischargeLimit.isRunning = false → NoEvent .dischargeTimeout s)
    ∧ (s.train.pressRunout.isRunning = false → NoEvent .pressRunoutExpiry s)
    ∧ (s.train.conditioning.isRunning = false → NoEvent .condLow s)
    ∧ (s.train.grinder.timer.isRunning = false → NoEvent (.overloadTimerExpiry .grinder) s)
    ∧ (s.train.presser.timer.isRunning = false → NoEvent (.overloadTimerExpiry .press) s)
    ∧ (s.train.surgeDump.isRunning = false → NoEvent (.dumpRunoutExpiry .surge) s)
    ∧ (s.train.mixerDump.isRunning = false → NoEvent (.dumpRunoutExpiry .mixer) s)
    ∧ (s.train.pressDump.isRunning = false → NoEvent (.dumpRunoutExpiry .press) s)
    ∧ (s.train.finishedDump.isRunning = false → NoEvent .finishedDumpTimerExpiry s)
    ∧ (s.bagger.fill.isRunning = false → NoEvent .fillTimerExpiry s)
    ∧ (s.bagger.settle.isRunning = false → NoEvent .baggerSettleTimeout s)
    ∧ (s.bagger.jog.isRunning = false → NoEvent .baggerJogTimerExpiry s)
    ∧ (s.bagger.discharge.isRunning = false → NoEvent .dischargeTimerExpiry s)
    ∧ (s.hold.contention.isRunning = false → NoEvent .contentionTimerExpiry s)
    ∧ (s.hold.renewal.isRunning = false → NoEvent .renewalTimerExpiry s)
    ∧ (s.stepTimer.isRunning = false → NoEvent .loadoutSettleTimeout s)
    ∧ (s.lamps.fault.timer.isRunning = false → NoEvent (.flashTimerExpiry .fault) s)
    ∧ (s.lamps.run.timer.isRunning = false → NoEvent (.flashTimerExpiry .run) s)
    ∧ (∀ id, findOrder id s = none → NoEvent (.claimWindowExpiry id) s)
    ∧ (s.rx.listening = false → NoEvent .listeningEnd s)
    ∧ (underWay s = none → NoEvent .attemptLost s ∧ NoEvent .attemptComplete s)
    ∧ (∀ n, (underWay s).isSome → NoEvent (.transmitAttempt n) s)
    ∧ (s.inputs.stopLine = true → NoEvent .stopAsserted s)
    ∧ (s.inputs.stopLine = false ∨ s.inputs.localStop = true → NoEvent .stopReleased s)
    ∧ (∀ p, s.straps.bagger = false ∨ s.inputs.bagClamp = p → NoEvent (.bagClamp p) s)
    ∧ (∀ n, s.straps.bagger = false → NoEvent (.bucketSample n) s)
    ∧ (NoneWaits 0x01 s → NoEvent .time s) ∧ (NoneWaits 0x02 s → NoEvent .offer s)
    ∧ (NoneWaits 0x03 s → NoEvent .claim s) ∧ (NoneWaits 0x04 s → NoEvent .take s)
    ∧ (NoneWaits 0x05 s → NoEvent .yieldReceived s) ∧ (NoneWaits 0x06 s → NoEvent .relevel s)
    ∧ (NoneWaits 0x07 s → NoEvent .cancel s) ∧ (NoneWaits 0x08 s → NoEvent .quarantine s)
    ∧ (NoneWaits 0x09 s → NoEvent .intake s) ∧ (NoneWaits 0x0A s → NoEvent .level s)
    ∧ (NoneWaits 0x0B s → NoEvent .drawNotice s) ∧ (NoneWaits 0x0C s → NoEvent .drawReport s)
    ∧ (NoneWaits 0x0D s → NoEvent .truckPlan s) ∧ (NoneWaits 0x0E s → NoEvent .bayHold s)
    ∧ (NoneWaits 0x0F s → NoEvent .loaded s) ∧ (NoneWaits 0x13 s → NoEvent .hello s)
    ∧ (NoneWaits 0x11 s → ∀ b, NoEvent (.ack ⟨.frame, b⟩) s)
    ∧ (NoneWaits 0x12 s → NoEvent (.pause .frame) s ∧ NoEvent (.resume .frame) s ∧ NoEvent (.dumpScale .frame) s
        ∧ NoEvent (.dumpSurge .frame) s ∧ NoEvent (.dumpMixer .frame) s ∧ NoEvent (.dumpPress .frame) s
        ∧ NoEvent (.dumpFinished .frame) s))

/-- What begins at the close of an event leaves identity, configuration, inputs, the receiver, clock, bins, peer
draws, level records, converters, free values and queue alone. -/
def Obligations.EventCloseKeepsRest : Prop :=
  ∀ s u : State, (settled s u).kept = { u.kept with pending := s.pending }

/-- R15, R71, R81, R106, R113, R115, R142, R146, R149, R150, R167: at the close of an event on a line that is not RUN
no batch is admitted; no discharge, grind, mixer discharge, press, charge or jog pulse begins, a stage that leaves
HELD going back to its own phase; no bucket discharges; no bay is taken and no spout opens; the line does not come to
RUN. -/
def Obligations.NothingBeginsOffRun : Prop :=
  ∀ s u t : State, u.line ≠ .run → t = settled s u →
    t.line ≠ .run ∧ t.batchCounter = u.batchCounter ∧ t.carry = u.carry ∧ t.plan = u.plan
      ∧ t.scale.state = u.scale.state ∧ t.scale.batch = u.scale.batch ∧ t.channels.map Channel.inFlight = u.channels.map Channel.inFlight
      ∧ (t.fin.entering = true → u.fin.entering = true)
      ∧ (∀ i p, (stageOf i t).busyWith p = true → (stageOf i u).busyWith p = true
          ∨ ((stageOf i u).state = .held ∧ (stageOf i u).resume = some (.phase p)))
      ∧ (t.bagger.bucket ∈ [.discharging, .jog true, .unknown true, .filling true, .filling false] →
          t.bagger.bucket = u.bagger.bucket)
      ∧ (t.hold.state = .taking → u.hold.state = .taking)
      ∧ (spoutOpen t = true → spoutOpen u = true)

/-! ### Starts -/

/-- R23, R41, R60, R62, R85, R87, R97, R99, R124, R139, R157, R177, R188, R202: after power-on every block holds the
values the manual gives it. That the line state follows the STOP line as read, and not the local stop input read
beside it, is the model's choice (notes/assumptions/44.md). -/
def Obligations.PowerOnValuesOfEveryBlock : Prop :=
  ∀ (pins : BitVec 11) (m : List Byte) (inp : Inputs) (s : State), startFault (readStraps pins) m = none →
    ∃ (t : State) (p : Params), exec (.powerOn pins m inp) s = .next t ∧ p = readParams m ∧ t.params = p
      ∧ t.power = .running ∧ t.resetPin = false ∧ t.straps = readStraps pins ∧ t.inputs = inp ∧ t.pending = s.pending
      ∧ t.slots = [] ∧ t.takeCounter = 1 ∧ t.batchCounter = 1 ∧ t.reannounce = []
      ∧ t.carry = { scale := ⟨0, 0⟩, surge := ⟨0, 0⟩, mixer := ⟨0, 0⟩, press := ⟨0, 0⟩ }
      ∧ t.bins.length = 48
      ∧ (∀ k < 48, t.bins[k]? = some
          { bin := k + 1, ingredient := none, estimate := none, reporter := none, age := 0, quarantine := .unknown
            stale := false, uncertain := false, emptySuspect := false, channel := wiredChannel p.channels (k + 1) })
      ∧ t.peers = [] ∧ t.reservations = [] ∧ t.plan = none
      ∧ t.levels = p.levels.map (fun l => { bin := l.bin, lastSent := none, since := 0 })
      ∧ (t.scale.state = .idle ∧ t.scale.batch = none ∧ t.scale.holdSet = [] ∧ t.scale.resume = none
          ∧ t.scale.settle = .stopped ∧ t.scale.stall = .stopped ∧ t.scale.jog = .stopped ∧ t.scale.residue = .stopped)
      ∧ t.scaleConv = { zero := p.scale.zero, mult := p.scale.mult, gross := [], filtered := [], raw := [], stable := false }
      ∧ t.bucketConv = { zero := p.bucket.zero, mult := p.bucket.mult, gross := [], filtered := [], raw := [], stable := false }
      ∧ t.finConv = { zero := p.finished.zero, mult := p.finished.mult, gross := [], filtered := [], raw := [], stable := false }
      ∧ t.channels = p.channels.zipIdx.map (fun q =>
          { number := q.2 + 1, bin := q.1.bin, slowMargin := q.1.slowMargin, fMax := q.1.fMax, jogTime := q.1.jogTime
            minDose := q.1.minDose, inFlight := q.1.initial, output := .off })
      ∧ (∀ r ∈ [t.surge, t.mixer, t.press], r = { state := .unknown, phase := none, batch := none, dest := none, resume := none })
      ∧ t.fin = { order := none, mass := none, entering := false, dumping := false, cancelled := false, unknown := true }
      ∧ (∀ l ∈ [t.train.grinder, t.train.presser], l.mode = .idle ∧ l.speed = 0 ∧ l.timer = .stopped)
      ∧ (t.train.steam.running = false ∧ t.train.steam.valve = 0 ∧ t.train.steam.inBand = false)
      ∧ t.train.motorsHeld = true
      ∧ (∀ k ∈ [t.train.grindRunout, t.train.mix, t.train.mixerRunout, t.train.dischargeLimit, t.train.pressRunout,
          t.train.conditioning, t.train.surgeDump, t.train.mixerDump, t.train.pressDump, t.train.finishedDump], k = .stopped)
      ∧ t.bagger = { mode := .bagging, inFlight := p.baggerInitial, zeroed := false, bucket := .empty, charge := none
                     spout := if inp.bagClamp then .filled else .vacant
                     fill := .stopped, settle := .stopped, jog := .stopped, discharge := .stopped }
      ∧ t.trucks = [] ∧ t.bays = List.replicate 4 { holder := none, remaining := 0 }
      ∧ (t.hold.state = .nothing ∧ t.hold.bay = none ∧ t.hold.truck = none ∧ t.hold.loading = false
          ∧ t.hold.remaining = 0 ∧ t.hold.contention = .stopped ∧ t.hold.renewal = .stopped)
      ∧ t.step = none ∧ t.stepTimer = .stopped
      ∧ t.line = (if inp.stopLine then .stopped else .paused)
      ∧ t.reports = { dosing := false, train := false, packing := false } ∧ t.faults = []
      ∧ (t.pins.faultLamp = false ∧ t.pins.runLamp = false ∧ t.pins.handAddLamp = false ∧ t.pins.bayLamp = false
          ∧ t.pins.stopDrive = inp.localStop)
      ∧ t.millTime = none ∧ t.divider = dividerOf (clockRate t.straps.fast) (bitRate t.straps.rate)
      ∧ t.pins.strapPins = List.replicate 11 false
      ∧ t.rx = { assembler := .hunting, inbound := [], idle := none, barred := false, listening := true
                 resetKind := .powerOn, readback := none, seen := false }
      ∧ t.tx = [{ body := .notice (.lineState t.line .reset), attempts := 0, underWay := false }]

/-- R192, R203, R205: which starts find a start-up fault, and which comes first. R192, R203, R205: at a start-up fault
no output is driven but the FAULT lamp, lit first (notes/assumptions/24.md), and its strap pin; the divider of a node
number that is taken is computed; nothing waits to be sent, and the flash timer alone is taken. R204: where each value
stands in the configuration memory, packed from its region's start (notes/assumptions/9.md). R204: which memories are
good: all 512 bytes answered, signature and sum matching, every value in its range and every cross-check met, in the
records that name no bin and in the matrix row and column that are forced to 0 too (notes/assumptions/9.md). R127,
R204: the carry-over matrix is loaded from bytes 197 to 260, with row 0 and column 0 forced to 0. -/
def Obligations.StartsAreJudgedAndFaultsSilence : Prop :=
  ((∀ (pins : BitVec 11) (m : List Byte),
    let n := (pins.extractLsb' 0 5).toNat
    let rate := (pins.extractLsb' 5 2).toNat
    let refused := pins.getLsbD 7 = true ∧ 2 ≤ rate
    startFault (readStraps pins) m =
      (if n = 0 ∨ n = 31 then some .badNode else if refused then some .badRate
       else if memoryGood m = false then some .badMemory else none)
    ∧ (readStraps pins).node = n ∧ (readStraps pins).rate = rate ∧ (readStraps pins).fast = pins.getLsbD 7
    ∧ (readStraps pins).press = pins.getLsbD 8 ∧ (readStraps pins).bagger = pins.getLsbD 9
    ∧ (readStraps pins).loadout = pins.getLsbD 10)
  ∧ [0, 1, 2, 3].map (fun r => dividerOf (clockRate false) (bitRate r)) = [47, 23, 15, 7]
  ∧ [0, 1, 2, 3].map (fun r => dividerOf (clockRate true) (bitRate r)) = [51, 25, 16, 8])
  ∧ (∀ (pins : BitVec 11) (m : List Byte) (inp : Inputs) (s : State) (f : StartFault),
    startFault (readStraps pins) m = some f →
    ∃ t u, exec (.powerOn pins m inp) s = .next t ∧ t.power = .faulted f ∧ t.tx = [] ∧ t.faults = []
      ∧ (f ≠ .badNode → t.divider = dividerOf (clockRate (pins.getLsbD 7)) (bitRate (pins.extractLsb' 5 2).toNat))
      ∧ t.pins = { Outputs.blank with faultLamp := true, strapPins := true :: List.replicate 10 false }
      ∧ t.lamps.fault = { lit := true, timer := .running 125 }
      ∧ exec (.flashTimerExpiry .fault) t = .next u
      ∧ u = { t with lamps := { t.lamps with fault := { lit := false, timer := .running 125 } }, pins := Outputs.blank }
      ∧ ∀ k, NoEvent (.localStopInput true) t ∧ NoEvent (.scaleSample k) t)
  ∧ (∀ m : List Byte, m.length = 512 →
    let b (k : Nat) : Nat := ((m[k]?).getD 0).toNat
    let w (k : Nat) : Nat := 256 * b k + b (k + 1)
    let t (k : Nat) : Nat := 65536 * b k + 256 * b (k + 1) + b (k + 2)
    let converter (k : Nat) : ConverterParams :=
      { zero := if b k < 128 then (t k : Int) else (t k : Int) - 16777216, mult := w (k + 3) }
    let loop (k : Nat) : LoopParams :=
      { setpoint := w k, trip := w (k + 2), resume := w (k + 4), gain := b (k + 6), startSpeed := w (k + 7)
        overloadLimit := w (k + 9) }
    let p := readParams m
    p = { scale := converter 2, bucket := converter 7, finished := converter 12
          batchSize := w 17, minBatch := w 19, scaleCapacity := t 21, stableBand := w 24, zeroBand := w 26
          emptyBand := w 28, settleTimeout := b 30, stallWindow := b 31, stallMinimum := w 32, absTolerance := w 34
          relTolerance := b 36, adaptGain := b 37, jogLimit := b 38
          channels := p.channels, levels := p.levels, matrix := p.matrix
          flushIngredient := w 261, flushMass := w 263, flushTemperature := w 265
          mixTime := w 267, grindRunout := b 269, mixerRunout := b 270, pressRunout := b 271, dischargeTimeout := w 272
          grinder := loop 274, press := loop 285, condBand := b 296, condTimeout := w 297, steamGain := b 299
          finishedCapacity := t 300
          baggerSlow := w 331, baggerInitial := w 333, baggerFMax := w 335, baggerJogTime := b 337, baggerJogLimit := b 338
          bagTolerance := w 339, chargeLimit := w 341
          spoutF := w 361, holdDuration := w 363, renewalPeriod := w 365, guardTime := w 367, contentionWindow := b 369
          claimWindow := b 370, batchCycle := w 371, peerDrawAge := w 373, staleAge := w 375, bagAllowance := b 377
          levelSendPeriod := w 378, levelStep := t 380 }
    ∧ p.channels.length = 12 ∧ p.levels.length = 4
    ∧ (∀ i < 12, p.channels[i]? = some
        { bin := b (61 + 10 * i), slowMargin := w (62 + 10 * i), initial := w (64 + 10 * i), fMax := w (66 + 10 * i)
          jogTime := b (68 + 10 * i), minDose := w (69 + 10 * i) })
    ∧ (∀ i < 4, p.levels[i]? = some { bin := b (181 + 4 * i), capacity := t (182 + 4 * i) }))
  ∧ (∀ m : List Byte,
    let p := readParams m
    let within_ (lo n hi : Nat) : Prop := lo ≤ n ∧ n ≤ hi
    let loopGood (l : LoopParams) : Prop := l.setpoint ≤ 4095 ∧ l.trip ≤ 4095 ∧ l.resume < l.trip ∧ within_ 1 l.gain 64
      ∧ l.startSpeed ≤ 1000 ∧ within_ 1 l.overloadLimit 600
    (memoryGood m = true ↔
      m.length = 512 ∧ m[0]? = some 0x44#8 ∧ m[1]? = some 0x4C#8
      ∧ ((m.take 510).map BitVec.toNat).sum % 65536 = 256 * byteAt 510 m + byteAt 511 m
      ∧ (∀ k < 64, byteAt (197 + k) m ≤ 2)
      ∧ (∀ c ∈ [p.scale, p.bucket, p.finished], within_ 1 c.mult 65535)
      ∧ (within_ 500 p.batchSize 60000 ∧ within_ 500 p.minBatch p.batchSize ∧ within_ 1000 p.scaleCapacity 16777215
          ∧ p.stableBand ≤ 1000 ∧ p.zeroBand ≤ 1000 ∧ p.emptyBand ≤ 1000 ∧ within_ 1 p.settleTimeout 120
          ∧ within_ 1 p.stallWindow 60 ∧ within_ 1 p.stallMinimum 10000 ∧ p.absTolerance ≤ 10000 ∧ p.relTolerance ≤ 100
          ∧ p.adaptGain ≤ 8 ∧ p.jogLimit ≤ 3)
      ∧ (∀ c ∈ p.channels, c.bin ≤ 48 ∧ within_ 1 c.jogTime 50 ∧ c.minDose ≤ 60000 ∧ c.initial ≤ c.fMax)
      ∧ (∀ (i j : Nat) (c d : ChannelParams), i < j → p.channels[i]? = some c → p.channels[j]? = some d →
          c.bin = d.bin → c.bin = 0)
      ∧ (∀ l ∈ p.levels, l.bin ≤ 48 ∧ within_ 1 l.capacity 16777215)
      ∧ (∀ (i j : Nat) (c d : LevelParams), i < j → p.levels[i]? = some c → p.levels[j]? = some d →
          c.bin = d.bin → c.bin = 0)
      ∧ (within_ 1 p.flushIngredient 61439 ∧ within_ 500 p.flushMass 60000 ∧ within_ 600 p.flushTemperature 950)
      ∧ (within_ 60 p.mixTime 600 ∧ within_ 1 p.grindRunout 120 ∧ within_ 1 p.mixerRunout 120
          ∧ within_ 1 p.pressRunout 120 ∧ within_ 10 p.dischargeTimeout 600 ∧ loopGood p.grinder ∧ loopGood p.press
          ∧ p.condBand ≤ 200 ∧ within_ 10 p.condTimeout 1800 ∧ within_ 1 p.steamGain 64
          ∧ within_ 1000 p.finishedCapacity 16777215 ∧ p.batchSize + 500 ≤ p.finishedCapacity)
      ∧ (p.baggerInitial ≤ p.baggerFMax ∧ within_ 1 p.baggerJogTime 50 ∧ p.baggerJogLimit ≤ 3
          ∧ within_ 1 p.bagTolerance 1000 ∧ within_ 5 p.chargeLimit 300)
      ∧ (within_ 10 p.holdDuration 600 ∧ within_ 10 p.renewalPeriod 600 ∧ within_ 10 p.guardTime 600
          ∧ within_ 1 p.contentionWindow 50 ∧ p.contentionWindow + p.renewalPeriod + p.guardTime < p.holdDuration
          ∧ within_ 5 p.claimWindow 100 ∧ within_ 1 p.batchCycle 3600 ∧ within_ 60 p.peerDrawAge 7200
          ∧ within_ 60 p.staleAge 65535 ∧ p.bagAllowance ≤ 100 ∧ within_ 10 p.levelSendPeriod 3600
          ∧ within_ 1 p.levelStep 1000000)))
  ∧ (∀ (m : List Byte) (p c : Nat), p < 8 → c < 8 →
    matrixEntry (readParams m).matrix p c = (if p = 0 ∨ c = 0 then 0 else byteAt (197 + 8 * p + c) m))

/-- R24, R41, R61, R86, R125, R140, R158, R178, R189, R202, R206: what a warm reset keeps and clears: the batches
admitted of an order fall by its lost ones not flagged REWORK, its make-up ones by themselves; the bins of DRAWING
entries gain UNCERTAIN. That the line state follows the STOP line as read, and not the local stop input read beside
it, is the model's choice (notes/assumptions/44.md). R189: a warm reset that lost anything raises UNACCOUNTED with
what was lost; the LINE-STATE notice follows; one that lost nothing raises nothing. R41: at the close of an event that
leaves the outbound queue room, the first id leaves the list, and its TAKE is queued where the order is still held; a
freed order's id has left the list before. -/
def Obligations.WarmResetKeepsAndClears : Prop :=
  (∀ (inp : Inputs) (s : State), s.power = .running → (s.slots.map Order.id).Nodup →
    let lost (o : Order) (makeUp : Bool) : Nat := ((pipeline s).filter (fun b =>
      decide (b.order = some o.id ∧ b.rework = false ∧ b.makeUp = makeUp))).length
    let drawn (bin : Nat) : Prop := ∃ p, s.plan = some p ∧ ∃ e ∈ p.entries, e.status = .drawing ∧ e.bin = bin
    ∃ u, Becomes (.warmReset inp) s u
      ∧ (u.power = .running ∧ u.resetPin = false ∧ u.straps = s.straps ∧ u.params = s.params ∧ u.divider = s.divider
          ∧ u.millTime = s.millTime ∧ u.inputs = inp)
      ∧ u.slots = (keptOrders s).map (fun o => { o with
          state := .held, waits := ⟨false, false, false, false, false⟩
          plan := { o.plan with
            admitted := o.plan.admitted - lost o false
            makeUp := o.plan.makeUp.map (fun m => { m with admitted := m.admitted - lost o true }) } })
      ∧ (∃ l : List Order, l.Perm (keptOrders s) ∧ u.reannounce = l.map Order.id
          ∧ l.Pairwise (fun a b => a.takeOrder.getD 0 ≤ b.takeOrder.getD 0))
      ∧ (u.takeCounter = s.takeCounter ∧ u.batchCounter = s.batchCounter ∧ u.carry = s.carry)
      ∧ (u.bins.length = s.bins.length ∧ ∀ (i : Nat) (b : BinEntry), s.bins[i]? = some b →
          (drawn b.bin → u.bins[i]? = some { b with uncertain := true }) ∧ (¬drawn b.bin → u.bins[i]? = some b))
      ∧ ((s.reservations.map Reservation.code).Nodup →
          Releases (s.slots.filter (fun o => decide (o.state = .claiming) || o.cancelled)) s.reservations u.reservations)
      ∧ (u.peers = s.peers ∧ u.levels = s.levels ∧ u.plan = none ∧ u.trucks = s.trucks)
      ∧ u.scale.state = (if s.scale.batch.isSome ∨ s.scale.state = .dumping ∨ s.scale.state = .unknown
          ∨ (s.scale.state = .held ∧ s.scale.resume = some .unknown) then .unknown else .idle)
      ∧ (u.scale.batch = none ∧ u.scale.holdSet = [] ∧ u.scale.resume = none)
      ∧ u.channels = s.channels.map (fun c => { c with output := .off })
      ∧ u.scaleConv = { s.scaleConv with gross := [], filtered := [], raw := [], stable := false }
      ∧ u.bucketConv = { s.bucketConv with gross := [], filtered := [], raw := [], stable := false }
      ∧ u.finConv = { s.finConv with gross := [], filtered := [], raw := [], stable := false }
      ∧ (∀ i, stageOf i u = StageRec.ofState (if (stageOf i s).state = .empty then .empty else .unknown))
      ∧ u.fin = { s.fin with mass := none, entering := false, dumping := false, unknown := s.fin.unknown || s.fin.dumping }
      ∧ (u.train.motorsHeld = true ∧ u.train.grinder.mode = .idle ∧ u.train.presser.mode = .idle
          ∧ u.train.steam.running = false ∧ u.train.steam.valve = 0 ∧ u.train.mix = .stopped)
      ∧ (u.bagger.mode = .bagging ∧ u.bagger.charge = none ∧ u.bagger.zeroed = false
          ∧ u.bagger.inFlight = s.bagger.inFlight
          ∧ u.bagger.bucket = (if s.bagger.charge.isSome ∨ s.bagger.bucket ∈
              [.discharging, .unknown false, .unknown true] then .unknown false else .empty)
          ∧ u.bagger.spout = (if s.bagger.spout = .receiving then (if inp.bagClamp then .filled else .vacant)
              else s.bagger.spout))
      ∧ u.hold = OwnHold.blank ∧ u.step = none
      ∧ u.bays = s.bays.map (fun b => if b.holder = some s.straps.node then { holder := none, remaining := 0 } else b)
      ∧ u.line = (if inp.stopLine then .stopped else .paused) ∧ u.reports = Reports.blank
      ∧ u.rx = { assembler := .hunting, inbound := [], idle := none, barred := false, listening := true
                 resetKind := .warm, readback := none, seen := false })
  ∧ (∀ (inp : Inputs) (s : State), s.power = .running →
    let charge := s.bagger.charge.isSome || decide (s.bagger.spout = .receiving)
    let lost := pipeline s
    let notice : Body := .notice (.lineState (if inp.stopLine then .stopped else .paused) .reset)
    ∃ u, Becomes (.warmReset inp) s u
      ∧ (lost = [] ∧ charge = false ∧ s.step = none → u.faults = s.faults ∧ u.tx.map OutEntry.body = [notice])
      ∧ (lost ≠ [] ∨ charge = true ∨ s.step ≠ none →
          u.faults = bumpFault .unaccounted (lost.head?.map Batch.number) s.millTime s.faults
          ∧ ∃ r, r ∈ u.faults ∧ r.key = .unaccounted ∧ r.acked = false
            ∧ u.tx.map OutEntry.body = [.notice (.fault r
                [.word lost.length, .byte charge.toNat, .byte s.step.isSome.toNat]), notice]))
  ∧ (∀ s u t : State, t = settled s u → ∃ q : State, t.slots = q.slots ∧ q.reannounce.Sublist u.reannounce
    ∧ (∀ id ∈ u.reannounce, id ∉ q.reannounce → findOrder id q = none)
    ∧ (q.reannounce = [] ∨ 8 ≤ q.tx.length → t.reannounce = q.reannounce ∧ t.tx = q.tx)
    ∧ ∀ id ids, q.reannounce = id :: ids → q.tx.length < 8 → t.reannounce = ids
      ∧ (findOrder id q = none → t.tx = q.tx)
      ∧ ∀ o, findOrder id q = some o → t.tx = q.tx ++ [OutEntry.fresh (.take id o.lead o.started)])

/-! ### The mill bus -/

/-- R191: samples that read as a character the node sends give that byte and flag; a start bit read as 1, a stop bit
read as 0 and any single bit read wrongly between them are found. R191, R195, R196: what a character does to the
assembler. A start bit ends the idle (R199), and with it the bar that an acknowledged ADDRESS_CLASH leaves on it
(R196); a header ends the wait for a readback (the model's choice, notes/assumptions/11.md). R195, R196, R197, R201: a
complete frame of another station. A frame that is not valid leaves no trace; a valid one ends the listening; a NOTICE
is discarded; any other joins the inbound queue, or is dropped with RX_DROP where 4 wait. R196, R201: a valid frame of
the node's own source is the readback of its own transmission, once for each, or another station's and raises
ADDRESS_CLASH; it is discarded. It ends the listening as any valid frame does. How the readback is told is the model's
choice (notes/assumptions/11.md), and so is that the HELLO is queued ahead of the notice of the fault
(notes/assumptions/49.md). R201: 240 bit times of 1 end the listening; a HELLO is queued. The count kept is 228 bit
times of idle beyond the first 12 (notes/assumptions/12.md). -/
def Obligations.CharactersAndFramesAreJudged : Prop :=
  (∀ (header : Bool) (b : Byte) (samples : BitVec 36),
    (Reads samples (txCharacter header b) → judgeCharacter samples = .good header b)
    ∧ (majority samples 0 = true → judgeCharacter samples = .falseStart)
    ∧ (majority samples 0 = false → majority samples 11 = false → judgeCharacter samples = .framingError)
    ∧ (∀ k, 1 ≤ k → k ≤ 10 → Reads samples (txCharacter header b ^^^ (1#12 <<< k)) →
        judgeCharacter samples = .parityError))
  ∧ (∀ (s : State) (samples : BitVec 36), ready s = true →
    let heard : Receiver := { s.rx with idle := none, barred := false }
    (judgeCharacter samples = .falseStart → Becomes (.characterReceived samples) s { s with rx := heard })
    ∧ (judgeCharacter samples = .framingError ∨ judgeCharacter samples = .parityError →
        Becomes (.characterReceived samples) s { s with rx := { heard with assembler := .hunting } })
    ∧ (∀ b, judgeCharacter samples = .good true b →
        Becomes (.characterReceived samples) s
          { s with rx := { heard with assembler := .assembling [b], readback := none } })
    ∧ (∀ b, judgeCharacter samples = .good false b → s.rx.assembler = .hunting →
        Becomes (.characterReceived samples) s { s with rx := heard })
    ∧ (∀ b bytes, judgeCharacter samples = .good false b → s.rx.assembler = .assembling bytes →
        (bytes.length = 2 → 96 < b.toNat →
          Becomes (.characterReceived samples) s { s with rx := { heard with assembler := .hunting } })
        ∧ (bytes.length < 2 ∨ (bytes.length = 2 ∧ b.toNat ≤ 96)
            ∨ (3 ≤ bytes.length ∧ bytes.length < byteAt 2 bytes + 4) →
          Becomes (.characterReceived samples) s
            { s with rx := { heard with assembler := .assembling (bytes ++ [b]) } })
        ∧ (∀ f : RawFrame, frameBytes f = bytes ++ [b] → f.payload.length ≤ 96 →
            exec (.characterReceived samples) s = exec (.frameReceived f) s)))
  ∧ (∀ (s : State) (f : RawFrame), ready s = true →
    let r1 : Receiver := { s.rx with assembler := .hunting, idle := none, barred := false }
    let r2 : Receiver := { r1 with readback := none }
    (validFrame f = false → Becomes (.frameReceived f) s { s with rx := r1 })
    ∧ (validFrame f = true → f.source.toNat ≠ s.straps.node → s.rx.listening = false →
        Becomes (.frameReceived f) s
          (if f.kind.toNat = 0x10 then { s with rx := r2 }
           else if s.rx.inbound.length < 4 then { s with rx := { r2 with inbound := s.rx.inbound ++ [f] } }
           else raiseFault .rxDrop none [] { s with rx := r2 }))
    ∧ (validFrame f = true → f.source.toNat ≠ s.straps.node → s.rx.listening = true →
        ∃ u, Becomes (.frameReceived f) s u ∧ u.rx.listening = false
          ∧ (s.tx.length < 8 → OutEntry.fresh (ownHello s) ∈ u.tx)
          ∧ (f.kind.toNat ≠ 0x10 → s.rx.inbound.length < 4 → u.rx.inbound = s.rx.inbound ++ [f])))
  ∧ (∀ (s : State) (f : RawFrame), ready s = true → validFrame f = true → f.source.toNat = s.straps.node →
    let r1 : Receiver := { s.rx with assembler := .hunting, idle := none, barred := false, listening := false }
    let heard : State :=
      if s.rx.listening then queueFrame (ownHello s) { s with rx := r1 } else { s with rx := r1 }
    let mine := s.rx.seen = false ∧ ∃ e, underWay s = some e ∧ wireFrame s.straps.node e.body = f
    (mine → Becomes (.frameReceived f) s { heard with rx := { r1 with seen := true } })
    ∧ (¬mine → s.rx.readback = some f → Becomes (.frameReceived f) s { heard with rx := { r1 with readback := none } })
    ∧ (¬mine → s.rx.readback ≠ some f →
        Becomes (.frameReceived f) s (raiseFault .addressClash none [] { heard with rx := { r1 with readback := none } })))
  ∧ (∀ s : State, ready s = true → s.rx.listening = true →
    Becomes .listeningEnd s
      (queueFrame (ownHello s) { s with rx := { s.rx with listening := false, idle := some 228 } }))

/-- R190, R191, R195: the characters of a frame, read as they are sent, leave the receiver with exactly that frame,
whatever it was assembling before; the header ends the wait for a readback (the model's choice,
notes/assumptions/11.md). -/
def Obligations.FrameCharactersAssembleToFrame : Prop :=
  ∀ (s : State) (f : RawFrame) (samples : List (BitVec 36)), f.payload.length ≤ 96 →
    List.Forall₂ Reads samples (frameCharacters f) →
    samples.foldl (fun t c => receiveCharacter c t) s = frameComplete f { s with rx := { s.rx with readback := none } }

/-- R193: the check of the nine digits; a register of 0 over a whole frame exactly when its check is the one computed.
R194, R195: which frames are valid: the check matching, kind and source in range, the length that of the kind, the
kinds of the office terminal from it alone. R193, R194, R195: every frame a node sends is valid at a receiver. -/
def Obligations.FrameChecksDetectAndPass : Prop :=
  (crc ([1, 2, 3, 4, 5, 6, 7, 8, 9].map (fun d => BitVec.ofNat 8 (0x30 + d))) = 0x29B1#16
    ∧ ∀ f : RawFrame, crc (frameBytes f) = 0#16 ↔ f.check = crc (frameBody f))
  ∧ ((∀ f : RawFrame,
    let kind := f.kind.toNat
    let source := f.source.toNat
    validFrame f = true ↔ f.check = crc (frameBody f) ∧ 1 ≤ kind ∧ kind ≤ 0x13 ∧ 1 ≤ source ∧ source ≤ 31
      ∧ f.payload.length ≤ 96 ∧ lengthOk kind f.payload = true
      ∧ (kind ∈ [0x01, 0x02, 0x06, 0x07, 0x08, 0x09, 0x0D, 0x11, 0x12] → source = 31))
  ∧ ∀ p : List Byte,
    let n := p.length
    let b (k : Nat) : Nat := ((p[k]?).getD 0).toNat
    (∀ q ∈ [(0x01, 3), (0x03, 4), (0x04, 5), (0x05, 2), (0x06, 4), (0x07, 2), (0x09, 6), (0x0C, 6), (0x0E, 5), (0x0F, 7),
        (0x11, 3), (0x12, 2), (0x13, 3)], lengthOk q.1 p = true ↔ n = q.2)
    ∧ (lengthOk 0x02 p = true ↔ n = 21 + 4 * b 20 ∧ b 17 ≤ 1)
    ∧ (lengthOk 0x08 p = true ↔ ∃ k, 1 ≤ k ∧ k ≤ 48 ∧ n = 2 * k)
    ∧ (lengthOk 0x0A p = true ↔ n = 4 ∨ n = 6)
    ∧ (lengthOk 0x0B p = true ↔ ∃ k, 1 ≤ k ∧ k ≤ 16 ∧ n = 2 + 4 * k)
    ∧ (lengthOk 0x0D p = true ↔ (n = 2 ∧ b 1 = 0)
        ∨ (n = 7 + 6 * b 6 ∧ b 1 = 1 ∧ ∀ k < b 6, b (7 + 6 * k) ≤ 1))
    ∧ (lengthOk 0x10 p = true ↔ 1 ≤ n ∧ n ≤ 24))
  ∧ (∀ (node : Nat) (b : Body), 1 ≤ node → node ≤ 30 → b.fits → validFrame (wireFrame node b) = true)

/-- R196, R198, R199: the head is the oldest frame of the lowest class; its attempt begins where the count of idle bit
times reaches 32 times its class plus the node number, unless the node listens, ADDRESS_CLASH stands, or it was
acknowledged in this idle (R196); otherwise the count is kept. That a count beyond the deferral begins one too is the
model's choice (notes/assumptions/12.md), as is the bookkeeping of the readback (notes/assumptions/11.md). R168, R199:
a lost attempt is counted, and the eighth drops the frame with TX_ABANDON; a completed one sends it. The bookkeeping
of the readback is the model's choice (notes/assumptions/11.md). R165, R168, R198: what the fate of a BAY-HOLD does.
One with a duration that is sent: TAKING becomes CONTENDING with the own remaining time loaded and the contention
window running, HELD reloads the own remaining time, NONE answers with a release, which frees the bay where this node
holds it (notes/assumptions/17.md). One that is dropped, at the queueing too: TAKING becomes NONE and frees the bay
where this node holds it. That neither has an effect in CONTENDING, and the truck of that release, are the model's
choice (notes/assumptions/34.md). -/
def Obligations.AttemptsBeginAndEndByRule : Prop :=
  (∀ (s : State) (idle : Nat), ready s = true → (∀ e ∈ s.tx, e.underWay = false) →
    let waits := Becomes (.transmitAttempt idle) s { s with rx := { s.rx with idle := some idle } }
    (s.tx = [] → waits)
    ∧ ∀ before h after, s.tx = before ++ h :: after → (∀ e ∈ before, h.body.cls < e.body.cls) →
        (∀ e ∈ after, h.body.cls ≤ e.body.cls) →
        (s.rx.listening = true ∨ standing .addressClash s = true ∨ s.rx.barred = true ∨ idle < 32 * h.body.cls + s.straps.node → waits)
        ∧ (s.rx.listening = false → standing .addressClash s = false → s.rx.barred = false →
            32 * h.body.cls + s.straps.node ≤ idle →
            Becomes (.transmitAttempt idle) s
              { s with tx := before ++ { h with underWay := true } :: after
                       rx := { s.rx with idle := none, readback := none, seen := false } }))
  ∧ (∀ (s : State) (before after : List OutEntry) (e : OutEntry), ready s = true → s.tx = before ++ e :: after →
    e.underWay = true → (∀ x ∈ before, x.underWay = false) → (∀ x ∈ after, x.underWay = false) →
    let r : Receiver := { s.rx with idle := none, seen := false }
    (e.attempts < 7 → Becomes .attemptLost s
      { s with tx := before ++ { e with attempts := e.attempts + 1, underWay := false } :: after, rx := r })
    ∧ (7 ≤ e.attempts → Becomes .attemptLost s (reportDropped e.body
        (raiseFault .txAbandon none [.byte e.body.kind] { s with tx := before ++ after, rx := r })))
    ∧ Becomes .attemptComplete s (reportSent e.body
        { s with tx := before ++ after
                 rx := { r with readback := if s.rx.seen then none else some (wireFrame s.straps.node e.body) } }))
  ∧ (∀ (s : State) (b : Body) (bay truck duration : Nat) (loading : Bool),
    let h : Body := .bayHold bay truck duration loading
    let mine (k : Nat) : Prop := ∃ t, findBay k s = some t ∧ t.holder = some s.straps.node
    let freed (k : Nat) : State := { s with bays := s.bays.modify (k - 1) (fun _ => { holder := none, remaining := 0 }) }
    let room := s.tx.length < 8 ∨ ∃ e ∈ s.tx, e.body.cls = 2 ∧ e.underWay = false
    (b.kind ≠ 0x0E → reportSent b s = s ∧ reportDropped b s = s)
    ∧ (duration = 0 → reportSent h s = s ∧ reportDropped h s = s)
    ∧ (0 < duration →
      (s.hold.state = .taking → reportSent h s = { s with hold := { s.hold with
          state := .contending, remaining := duration, sent := true, contention := .running s.params.contentionWindow } })
      ∧ (s.hold.state = .held → reportSent h s = { s with hold := { s.hold with remaining := duration } })
      ∧ (s.hold.state = .nothing → mine bay → reportSent h s = queueFrame (.bayHold bay truck 0 false) (freed bay))
      ∧ (s.hold.state = .nothing → ¬mine bay → reportSent h s = queueFrame (.bayHold bay truck 0 false) s)
      ∧ (s.hold.state = .contending → reportSent h s = s)
      ∧ (∀ k, s.hold.state = .taking → s.hold.bay = some k →
          (mine k → reportDropped h s = { freed k with hold := OwnHold.blank })
          ∧ (¬mine k → reportDropped h s = { s with hold := OwnHold.blank }))
      ∧ (s.hold.state ≠ .taking → reportDropped h s = s)
      ∧ (room → queueHold h s = queueFrame h s)
      ∧ (¬room → queueHold h s = reportDropped h (queueFrame h s))))

/-- R198: a frame joins a queue of fewer than 8; on a full queue a class-2 frame is dropped and one of class 0 or 1
takes the place of the newest class-2 frame not under way, or is dropped with TX_ABANDON. -/
def Obligations.FullQueueEvictsOrDrops : Prop :=
  ∀ (b : Body) (s : State),
    (s.tx.length < 8 → queueFrame b s = { s with tx := s.tx ++ [{ body := b, attempts := 0, underWay := false }] })
    ∧ (8 ≤ s.tx.length → b.cls = 2 → queueFrame b s = s)
    ∧ (8 ≤ s.tx.length → b.cls ≠ 2 → ∀ before v after, s.tx = before ++ v :: after →
        v.body.cls = 2 → v.underWay = false → (∀ e ∈ after, e.body.cls = 2 → e.underWay = true) →
        queueFrame b s = { s with tx := before ++ after ++ [{ body := b, attempts := 0, underWay := false }] })
    ∧ (8 ≤ s.tx.length → b.cls ≠ 2 → (∀ e ∈ s.tx, e.body.cls = 2 → e.underWay = true) →
        queueFrame b s = raiseFault .txAbandon none [.byte b.kind] s)

/-- R200: a TIME sets the mill clock; one above 86,399 has no effect. The test for departures follows (R163). R43,
R50, R59, R200: one second on clock, entries, peer draws and level records; that an age expiry is that whole second is
the model's choice (notes/assumptions/7.md). R163: the test for missed departures notes each compartment of an order
the book holds, in whatever state (notes/assumptions/18.md), not LOADED and not noted, whose truck's departure the
mill time has reached, and nothing else of the table. R165, R168, R170: one step of 0.1 s on the bay timers and the
own remaining time; at the guard the hold is lost. That the three rows of that step are one and the same step, where
their consequence is due, is the model's choice (notes/assumptions/7.md). -/
def Obligations.TimeStepsAgeAndCountDown : Prop :=
  (∀ (s s1 : State) (f : RawFrame) (t : Nat), t < 16777216 → f.payload = be3 t → Arrives .busPort 0x01 f s s1 →
    Becomes .time s (if t ≤ 86399 then testDepartures { s1 with millTime := some t } else s1))
  ∧ (∀ s : State, ready s = true → FiguresWithin s →
    let u : State := { s with
      millTime := s.millTime.map nextSecond
      bins := s.bins.map (fun e => { e with age := min 65535 (e.age + 1)
                                            stale := e.stale || decide (s.params.staleAge < min 65535 (e.age + 1)) })
      peers := (s.peers.map (fun p => { p with age := min 65535 (p.age + 1) })).filter
        (fun p => decide (p.age ≤ s.params.peerDrawAge))
      levels := s.levels.map (fun r => { r with since := min 65535 (r.since + 1) }) }
    Becomes .oneSecondEvent s (if s.millTime.isSome then testDepartures u else u)
    ∧ (∀ e ∈ s.bins, findBin e.bin s = some e → e.stale = false → s.params.staleAge < min 65535 (e.age + 1) →
        exec (.staleAgeExpiry e.bin) s = exec .oneSecondEvent s)
    ∧ (∀ p ∈ s.peers, s.params.peerDrawAge < min 65535 (p.age + 1) →
        exec (.peerDrawAgeExpiry p.node p.batch p.bin) s = exec .oneSecondEvent s))
  ∧ (∀ s : State, (s.trucks.map Truck.truck).Nodup →
    let missed (t : Truck) (c : Compartment) : Prop :=
      (∃ id, c.order = some id ∧ holdsOrder id s = true) ∧ c.state ≠ .loaded ∧ c.noted = false
        ∧ ∃ d now, t.departure = some d ∧ s.millTime = some now ∧ d * 60 ≤ now
    (testDepartures s).trucks.map Truck.truck = s.trucks.map Truck.truck
    ∧ (∀ t ∈ s.trucks, ∀ k c, t.comp k = some c →
        (missed t c → findComp t.truck k (testDepartures s) = some { c with noted := true })
        ∧ (¬missed t c → findComp t.truck k (testDepartures s) = some c))
    ∧ ((∃ t ∈ s.trucks, ∃ c ∈ t.comps, missed t c) → standing .missedDeparture (testDepartures s) = true)
    ∧ ((∀ t ∈ s.trucks, ∀ c ∈ t.comps, ¬missed t c) → testDepartures s = s))
  ∧ (∀ s : State, ready s = true → RecordsWhole s →
    let bays := s.bays.map (fun b => if b.remaining ≤ 1 then { holder := none, remaining := 0 }
      else { b with remaining := b.remaining - 1 })
    let left := if s.hold.state = .contending ∨ s.hold.state = .held then s.hold.remaining - 1 else s.hold.remaining
    let u : State := { s with bays := bays, hold := { s.hold with remaining := left } }
    (¬(s.hold.state = .held ∧ left ≤ s.params.guardTime) → Becomes .bayTimeStep s u)
    ∧ (s.hold.state = .held → left ≤ s.params.guardTime → ∃ w, Becomes .bayTimeStep s w ∧ w.bays = bays
        ∧ w.hold = OwnHold.blank ∧ standing .bayLost w = true ∧ spoutOpen w = false
        ∧ (∀ e ∈ w.tx, e.body.kind = 0x0E → e.underWay = true)
        ∧ exec .bayLost s = exec .bayTimeStep s)
    ∧ (∀ bay b, findBay bay s = some b → b.remaining = 1 → exec (.bayTimerExpiry bay) s = exec .bayTimeStep s))

/-! ### The Bin View -/

/-- R44: an INTAKE. -/
def Obligations.IntakeRefillsBin : Prop :=
  ∀ (s s1 : State) (f : RawFrame) (bin code mass : Nat), bin < 256 → code < 65536 → mass < 16777216 →
    f.payload = be1 bin ++ be2 code ++ be3 mass → Arrives .binView 0x09 f s s1 →
    Becomes .intake s
      (if bin = 0 ∨ 48 < bin ∨ code = 0 ∨ 61440 ≤ code then s1
       else { s1 with bins := s1.bins.map (fun e =>
          if e.bin = bin then
            { e with ingredient := some code
                     estimate := some (min 16777215
                      ((if e.ingredient.isSome ∧ e.ingredient ≠ some code then 0 else e.estimate.getD 0) + mass))
                     age := 0, stale := false, uncertain := false, emptySuspect := false }
          else e) })

/-- R45: a LEVEL, with and without an ingredient code. R45, R59, R100: a reading of a level sensor. -/
def Obligations.LevelReplacesEstimate : Prop :=
  (∀ (s s1 : State) (f : RawFrame) (bin mass : Nat) (code : Option Nat), bin < 256 → mass < 16777216 →
    (∀ c, code = some c → c < 65536) →
    f.payload = be1 bin ++ be3 mass ++ (match code with | some c => be2 c | none => []) →
    Arrives .binView 0x0A f s s1 →
    Becomes .level s
      (if bin = 0 ∨ 48 < bin then s1
       else { s1 with bins := s1.bins.map (fun e =>
          if e.bin = bin then
            { e with estimate := some mass, reporter := some f.source.toNat, age := 0, stale := false
                     uncertain := false, emptySuspect := false
                     ingredient := (match code with
                      | some c => if c = 0 ∨ 61440 ≤ c then e.ingredient else some c
                      | none => e.ingredient) }
          else e) }))
  ∧ (∀ (s : State) (k : Fin 4) (n : BitVec 16) (r : LevelRec) (p : LevelParams), ready s = true →
    s.levels[k.val]? = some r → s.params.levels[k.val]? = some p →
    let mass := n.toNat * p.capacity / 1000
    let due := r.lastSent = none ∨ (∃ m, r.lastSent = some m ∧ (m + s.params.levelStep ≤ mass ∨ mass + s.params.levelStep ≤ m))
      ∨ s.params.levelSendPeriod ≤ r.since
    (r.bin = 0 ∨ 1000 < n.toNat ∨ ¬due → Becomes (.levelSensorReading k n) s s)
    ∧ (r.bin ≠ 0 → n.toNat ≤ 1000 → due → ∃ u, Becomes (.levelSensorReading k n) s u
        ∧ (s.tx.length < 8 → u.tx = s.tx ++ [OutEntry.fresh (.level r.bin mass)])
        ∧ u.levels = s.levels.modify k.val (fun x => { x with lastSent := some mass, since := 0 })
        ∧ u.bins = s.bins.map (fun e => if e.bin = r.bin then
            { e with estimate := some mass, reporter := some s.straps.node, age := 0, stale := false
                     uncertain := false, emptySuspect := false } else e)))

/-- R48: a DRAW-NOTICE, pair by pair; one of source 31 has no effect. One of batch 0 is stored like any other: the
spec gives it no effect of its own (the model's choice, notes/assumptions/36.md). R49: a DRAW-REPORT. R51: a HELLO;
the node is the frame's source (notes/assumptions/25.md). -/
def Obligations.PeerDrawsAreKeptAndAnswered : Prop :=
  (∀ (s s1 : State) (f : RawFrame) (batch : Nat) (pairs : List (Nat × Nat)), s.peers.length ≤ 64 → batch < 65536 →
    (∀ p ∈ pairs, p.1 < 256 ∧ p.2 < 16777216) →
    f.payload = be2 batch ++ (pairs.map (fun p => be1 p.1 ++ be3 p.2)).flatten → Arrives .binView 0x0B f s s1 →
    Becomes .drawNotice s
      (if f.source.toNat = 31 then s1 else { s1 with peers := pairs.foldl (joinPeer f.source.toNat batch) s1.peers }))
  ∧ (∀ (s s1 : State) (f : RawFrame) (batch bin actual : Nat), batch < 65536 → bin < 256 → actual < 16777216 →
    f.payload = be2 batch ++ be1 bin ++ be3 actual → Arrives .binView 0x0C f s s1 →
    Becomes .drawReport s
      (if bin = 0 ∨ 48 < bin ∨ f.source.toNat = 31 then s1
       else { s1 with
          bins := s1.bins.map (fun e =>
            if e.bin = bin then { e with estimate := e.estimate.map (fun m => m - actual) } else e)
          peers := s1.peers.filter (fun p =>
            !decide (p.node = f.source.toNat ∧ p.batch = batch ∧ p.bin = bin)) }))
  ∧ (∀ (s s1 : State) (f : RawFrame), Arrives .binView 0x13 f s s1 →
    Becomes .hello s
      (if f.source.toNat = 31 then s1
       else { s1 with
          peers := s1.peers.filter (fun p => decide (p.node ≠ f.source.toNat))
          bins := s1.bins.map (fun e => if e.reporter = some f.source.toNat then { e with stale := true } else e) }))

/-- R46, R47, R77: a QUARANTINE sets the states of its list, the last that names a bin standing (the plan being
checked once the whole list stands: notes/assumptions/19.md). The component in progress is cut where its bin turns ON
while it draws, in TARE, a feed, JOG, a first, jog or resume settle, and in HELD with resume point resume settle or
TARE; in any other state, and in HELD with any other resume point, the bins alone change. -/
def Obligations.QuarantineSetsBinsAndCuts : Prop :=
  ∀ (s s1 : State) (f : RawFrame) (pairs : List (Nat × Nat)), RecordsWhole s →
    (∀ p ∈ pairs, p.1 < 256 ∧ p.2 < 256) → f.payload = (pairs.map (fun p => be1 p.1 ++ be1 p.2)).flatten →
    Arrives .binView 0x08 f s s1 →
    let bins := s1.bins.map (fun e => { e with quarantine := quarantineAfter e.bin pairs e.quarantine })
    let reached (d : Dose) (e : PlanEntry) : Prop := curDose s = some d ∧ planEntry d.position s = some e
      ∧ e.status = .drawing
      ∧ ∃ q, findBin e.bin s = some q ∧ q.quarantine ≠ .on ∧ quarantineAfter e.bin pairs q.quarantine = .on
    let feeds := s.scale.state ∈ [.tare, .feedFast, .feedSlow, .jog false, .jog true, .settle .first, .settle .jog,
      .settle .resume]
    let waits := s.scale.state = .held
      ∧ s.scale.resume ∈ [some .resumeSettle, some (.tare false), some (.tare true)]
    ((∀ d e, ¬reached d e) ∨ (¬feeds ∧ ¬waits) → Becomes .quarantine s { s1 with bins := bins })
    ∧ ∀ d e, reached d e → feeds ∨ waits → ∃ u, Becomes .quarantine s u
      ∧ (let a := actualOf d s
        (d.tare = none → a = 0)
        ∧ (∀ t w, d.tare = some t → s.scaleConv.weight = some w →
            (a : Int) = min 16777215 (max 0 (w - t - d.reported)))
        ∧ u.bins = bins.map (fun b => if b.bin = e.bin then { b with estimate := b.estimate.map (fun m => m - a) } else b)
        ∧ u.scale.state = .held ∧ u.scale.resume = some .rechoose
        ∧ (∀ k, k ∈ u.scale.holdSet ↔ k = .quarantineCut ∨ k ∈ s.scale.holdSet)
        ∧ standing .quarantineCut u = true ∧ feedRate u = .off
        ∧ (s.tx.length < 8 → ∃ rest, u.tx = s.tx ++ OutEntry.fresh (.drawReport (scaleNumber s) e.bin a) :: rest)
        ∧ planEntry d.position u = some { e with drawn := min 16777215 (e.drawn + a), status := .planned }
        ∧ curDose u = some { d with reported := min 16777215 (d.reported + a), announced := false, interrupted := true })

/-- R53 to R56: the bin chosen for a component is eligible; none is chosen only where none is eligible; one that is
trusted and can give the target is taken before any other, the greatest free mass and then the lowest number deciding.
-/
def Obligations.ChosenBinIsEligibleAndBest : Prop :=
  ∀ (code target : Nat) (skip : Option Nat) (s : State), RecordsWhole s →
    (chooseBin code target skip s = none → ∀ e ∈ s.bins, eligible code e = false)
    ∧ ∀ b, chooseBin code target skip s = some b →
      ∃ e ∈ s.bins, e.bin = b ∧ eligible code e = true
        ∧ ∀ x ∈ s.bins, eligible code x = true →
          let full (y : BinEntry) : Prop := target ≤ freeMass skip y s
          let rank (y : BinEntry) : Nat := if (full y ∧ y.trusted = true) then 0 else if full y then 1 else 2
          (full x ∧ x.trusted = true → full e ∧ e.trusted = true)
          ∧ (full x → full e)
          ∧ (rank x = rank e → freeMass skip x s ≤ freeMass skip e s)
          ∧ (rank x = rank e → freeMass skip x s = freeMass skip e s → e.bin ≤ x.bin)

/-! ### Claiming orders -/

/-- R25 to R31: an OFFER is stored as CLAIMING, and its CLAIM queued, or ignored. R2, R3, R26 to R31: what holds of an
offer that is stored, and the record it is stored as. R25 to R30: an offer that meets every test is stored. That the
Bus Port has stopped transmitting only while ADDRESS_CLASH is unacknowledged is the model's choice
(notes/assumptions/38.md). R194: an OFFER's payload is read field by field as it was formed, whatever the bytes of a
departure that is not present hold. -/
def Obligations.OffersStoredAreEligible : Prop :=
  (∀ (s s1 : State) (f : RawFrame), Arrives .orderBook 0x02 f s s1 →
    (∀ o, evaluateOffer (parseOffer f.payload) s1 = some o →
      Becomes .offer s (queueFrame (.claim o.id o.lead) { s1 with slots := s1.slots ++ [o] }))
    ∧ (evaluateOffer (parseOffer f.payload) s1 = none → Becomes .offer s s1))
  ∧ (∀ (f : OfferFields) (s : State) (o : Order), evaluateOffer f s = some o →
    (s.slots.length < 24 ∧ findOrder o.id s = none ∧ standing .addressClash s = false)
    ∧ (o.id = f.order ∧ 1 ≤ o.id ∧ o.level ≤ 15 ∧ o.group ≤ 3 ∧ 1 ≤ o.runCount ∧ o.runCount ≤ 255
        ∧ 1 ≤ o.cls ∧ o.cls ≤ 7)
    ∧ (o.form = .pellet → s.straps.press = true ∧ ∃ t, o.target = some t ∧ 600 ≤ t ∧ t ≤ 950)
    ∧ (o.form = .mash → o.target = none)
    ∧ (∀ size bags, o.delivery = .bagged size bags → s.straps.bagger = true ∧ 100 ≤ size ∧ size ≤ 500 ∧ 1 ≤ bags
        ∧ bags ≤ 4000 ∧ bags * size * (1000 + s.params.bagAllowance) ≤ o.runMass * 1000
        ∧ o.runMass * 1000 < bags * size * (1000 + s.params.bagAllowance) + 1000)
    ∧ (∀ m, o.delivery = .bulk m → s.straps.loadout = true ∧ 500 ≤ m ∧ m ≤ 150000 ∧ o.runMass = m)
    ∧ (o.formula = f.formula ∧ o.formula.length ≤ 16 ∧ (o.formula.map Component.code).Nodup
        ∧ (o.formula.map Component.share).sum = 10000)
    ∧ (∀ c ∈ plannedOf o.runMass o.formula, c.code < 61440 → c.target ≤ claimAvailability c.code s)
    ∧ ((machineParts o.runMass o.formula).filter
        (fun c => !s.reservations.any (fun r => decide (r.code = c.code)))).length ≤ 64 - s.reservations.length
    ∧ (splitCount o.runMass s.params.batchSize = 1 → s.params.minBatch ≤ o.runMass)
    ∧ (offerFlush o.level o.cls o.form s = 0 ∨ flushSource s = true)
    ∧ o.lead = min 65535 (s.params.batchCycle * ((pipeline s).length
        + ((countedOrders o.level s).map (fun x => x.plan.left)).sum
        + splitCount o.runMass s.params.batchSize + offerFlush o.level o.cls o.form s))
    ∧ (∀ d, d ∈ departures o.id f.departure s → ∃ t, s.millTime = some t ∧ o.lead ≤ d * 60 - t)
    ∧ (o.state = .claiming ∧ o.takeOrder = none ∧ o.started = false ∧ o.cancelled = false ∧ o.rival = none
        ∧ o.claimTimer = .running s.params.claimWindow ∧ o.waits.isEmpty = true ∧ o.plan = Plan.blank
        ∧ ∀ r ∈ o.remainders, r.mass = 0))
  ∧ (∀ (f : OfferFields) (s : State) (form : Form) (way : Delivery),
    ((f.delivery = 0 ∧ 100 ≤ f.bagSize ∧ f.bagSize ≤ 500 ∧ 1 ≤ f.bags ∧ f.bags ≤ 4000 ∧ way = .bagged f.bagSize f.bags
        ∧ s.straps.bagger = true)
      ∨ (f.delivery = 1 ∧ 500 ≤ f.runMass ∧ f.runMass ≤ 150000 ∧ way = .bulk f.runMass ∧ s.straps.loadout = true)) →
    ((f.form = 0 ∧ form = .mash) ∨ (f.form = 1 ∧ 600 ≤ f.target ∧ f.target ≤ 950 ∧ form = .pellet
        ∧ s.straps.press = true)) →
    (1 ≤ f.order ∧ f.order ≤ 65535 ∧ f.level ≤ 15 ∧ f.group ≤ 3 ∧ 1 ≤ f.runCount ∧ f.runCount ≤ 255 ∧ 1 ≤ f.cls
        ∧ f.cls ≤ 7 ∧ ∀ d, f.departure = some d → d ≤ 1439) →
    (1 ≤ f.formula.length ∧ f.formula.length ≤ 16
        ∧ (∀ c ∈ f.formula, 1 ≤ c.code ∧ c.code ≤ 65535 ∧ 1 ≤ c.share ∧ c.share ≤ 10000)
        ∧ (f.formula.map Component.code).Nodup ∧ (f.formula.map Component.share).sum = 10000) →
    (s.slots.length < 24 ∧ findOrder f.order s = none ∧ standing .addressClash s = false) →
    let mass := runMassOf s.params.bagAllowance way
    let flushes := offerFlush f.level f.cls form s
    let lead := min 65535 (s.params.batchCycle * ((pipeline s).length
      + ((countedOrders f.level s).map (fun x => x.plan.left)).sum + splitCount mass s.params.batchSize + flushes))
    (splitCount mass s.params.batchSize = 1 → s.params.minBatch ≤ mass) →
    (∀ c ∈ plannedOf mass f.formula, c.code < 61440 → c.target ≤ claimAvailability c.code s) →
    ((machineParts mass f.formula).filter
        (fun c => !s.reservations.any (fun r => decide (r.code = c.code)))).length ≤ 64 - s.reservations.length →
    (flushes = 0 ∨ flushSource s = true) →
    (∀ d ∈ departures f.order f.departure s, ∃ t, s.millTime = some t ∧ lead ≤ d * 60 - t) →
    ∃ o, evaluateOffer f s = some o ∧ o.id = f.order ∧ o.level = f.level ∧ o.group = f.group ∧ o.runCount = f.runCount
      ∧ o.cls = f.cls ∧ o.form = form ∧ o.delivery = way ∧ o.formula = f.formula ∧ o.runMass = mass ∧ o.lead = lead)
  ∧ (∀ (g : OfferFields) (filler : Nat), g.order < 65536 → g.level < 256 → g.group < 256 → g.runCount < 256 → g.cls < 256 →
    g.form < 256 → g.target < 65536 → g.delivery < 256 → g.bagSize < 65536 → g.bags < 65536 → g.runMass < 16777216 →
    (∀ d, g.departure = some d → d < 65536) → filler < 65536 → g.formula.length < 256 →
    (∀ c ∈ g.formula, c.code < 65536 ∧ c.share < 65536) →
    parseOffer (offerPayload g filler) = g ∧ lengthOk 0x02 (offerPayload g filler) = true)

/-- R32: a CLAIM. R39: a YIELD is taken, whatever it names and whatever its source, and has no effect. R33, R35 to
R39: a TAKE of another node meets the order it names. -/
def Obligations.ClaimsAndTakesMeetOrders : Prop :=
  (∀ (s s1 : State) (f : RawFrame) (id lead : Nat), id < 65536 → lead < 65536 → f.payload = be2 id ++ be2 lead →
    Arrives .orderBook 0x03 f s s1 →
    let other : Rival := { node := f.source.toNat, lead := lead }
    Becomes .claim s
      (if f.source.toNat = 31 then s1
       else { s1 with slots := s1.slots.map (fun o =>
          if o.id = id ∧ o.state = .claiming then
            { o with rival := (match o.rival with
                | none => some other
                | some r => if lead < r.lead ∨ (lead = r.lead ∧ f.source.toNat < r.node) then some other else some r) }
          else o) }))
  ∧ (∀ (s s1 : State) (f : RawFrame), Arrives .orderBook 0x05 f s s1 → Becomes .yieldReceived s s1)
  ∧ (∀ (s s1 : State) (f : RawFrame) (id lead started : Nat), id < 65536 → lead < 65536 → started < 256 →
    f.payload = be2 id ++ be2 lead ++ be1 started →
    Arrives .orderBook 0x04 f s s1 →
      (f.source.toNat = 31 ∨ 1 < started ∨ findOrder id s = none → Becomes .take s s1)
      ∧ ∀ o, f.source.toNat ≠ 31 → started ≤ 1 → findOrder id s = some o →
        let nearer := lead < o.lead ∨ (lead = o.lead ∧ f.source.toNat < s.straps.node)
        (o.state = .claiming → started = 1 ∨ nearer → Becomes .take s (freeSlot id s1))
        ∧ (o.state = .claiming → started = 0 → ¬nearer → Becomes .take s
            (updOrder id (Order.hearClaim { node := f.source.toNat, lead := lead }) s1))
        ∧ (o.state ≠ .claiming → started = 1 → o.started = true → Becomes .take s
            (raiseFault .duplicateTake (some id) [.byte f.source.toNat] s1))
        ∧ (o.state ≠ .claiming → o.started = false → started = 1 ∨ nearer → Becomes .take s
            (queueFrame (.yielded id) (freeSlot id s1)))
        ∧ (o.state ≠ .claiming → started = 0 → (o.started = true ∨ ¬nearer) → Becomes .take s
            (queueFrame (.take id o.lead o.started) s1)))

/-- R2, R5, R7, R31, R34, R52, R162: at the end of the window the order is HELD with the next take order and its
split, where the own claim is best, and a TAKE queued; its run is reserved, in the table and in its remainders; its
compartments are refused where they are too small, with COMPARTMENT_SMALL where one newly is; otherwise its slot is
freed, its remainders released and nothing queued. -/
def Obligations.ClaimWindowDecidesOrder : Prop :=
  ∀ (s : State) (o : Order) (full : Nat), ready s = true → KeysDistinct s → findOrder o.id s = some o →
    o.state = .claiming → o.claimTimer = .running full →
    let lost := ∃ r, o.rival = some r ∧ ¬(o.lead < r.lead ∨ (o.lead = r.lead ∧ s.straps.node < r.node))
    ∃ u, Becomes (.claimWindowExpiry o.id) s u
      ∧ (lost → u.slots = s.slots.filter (fun x => decide (x.id ≠ o.id)) ∧ u.tx = s.tx
          ∧ Releases [o] s.reservations u.reservations)
      ∧ (¬lost → ∃ w, findOrder o.id u = some w
          ∧ Reserves (machineParts o.runMass o.formula) s.reservations u.reservations w.remainders)
      ∧ (¬lost → ∀ t ∈ s.trucks, ∀ k c, t.comp k = some c → findComp t.truck k u =
          some { c with refused := if c.order = some o.id then decide (c.capacity < o.runMass) else c.refused })
      ∧ (¬lost → (∃ t ∈ s.trucks, ∃ c ∈ t.comps, c.order = some o.id ∧ c.capacity < o.runMass ∧ c.refused = false) →
          standing .compartmentSmall u = true)
      ∧ (¬lost → s.takeCounter < 65535 → ∃ w, findOrder o.id u = some w ∧ w.state = .held
          ∧ w.takeOrder = some s.takeCounter ∧ w.plan.n = some (splitCount o.runMass s.params.batchSize)
          ∧ w.waits.isEmpty = true ∧ w.claimTimer = .stopped ∧ u.takeCounter = s.takeCounter + 1
          ∧ (s.tx.length < 8 → OutEntry.fresh (.take o.id o.lead false) ∈ u.tx)
          ∧ u.slots.filter (fun x => decide (x.id ≠ o.id)) = s.slots.filter (fun x => decide (x.id ≠ o.id)))
      ∧ (¬lost → s.takeCounter = 65535 → ∃ w, findOrder o.id u = some w ∧ w.state = .held
          ∧ w.takeOrder = some ((s.slots.filter (fun x => x.takeOrder.isSome)).length + 1)
          ∧ u.takeCounter = (s.slots.filter (fun x => x.takeOrder.isSome)).length + 2)

/-! ### The Order Book -/

/-- R20: a RELEVEL. R7, R21, R83, R118, R151: a CANCEL, by the order's state and by what of it is on the line. Its
remainders leave the table; its records gain the REWORK flag, an open outflow into the finished bin being switched and
a component in TARE or HAND_ADD not being dosed. A charge of the order not being discharged goes to the chute in every
case. That of a CLAIMING order the slot alone is freed, CANCELLED staying clear, is the model's choice
(notes/assumptions/42.md). R47, R83: at the CANCEL of an order whose batch is in the scale, not flagged REWORK before,
each announced component that is not dosed, one in TARE or HAND_ADD and those waiting, is answered by a zero DRAW-
REPORT, its entry becoming DONE where it was DRAWING; the others stand as they were. That components waiting while the
unit is fed or HELD are answered in this event is the model's reading (notes/assumptions/15.md). -/
def Obligations.RelevelAndCancelChangeOrder : Prop :=
  (∀ (s s1 : State) (f : RawFrame) (id level group : Nat), id < 65536 → level < 256 → group < 256 →
    f.payload = be2 id ++ be1 level ++ be1 group → Arrives .orderBook 0x06 f s s1 →
    Becomes .relevel s
      (if 15 < level ∨ 3 < group then s1
       else { s1 with slots := s1.slots.map (fun o =>
          if o.id = id ∧ o.cancelled = false then
            { o with level := level, group := group
                     state := if o.state = .active ∧ level = 0 then .held else o.state }
          else o) }))
  ∧ (∀ (s s1 : State) (f : RawFrame) (id : Nat), id < 65536 → f.payload = be2 id → Arrives .orderBook 0x07 f s s1 →
    KeysDistinct s →
    (findOrder id s = none → Becomes .cancel s s1)
    ∧ ∀ o, findOrder id s = some o →
      (o.cancelled = true → Becomes .cancel s s1)
      ∧ (o.cancelled = false → ∃ u, Becomes .cancel s u
        ∧ (∀ c, s.bagger.charge = some c → c.order = id → s.bagger.bucket ≠ .discharging →
            u.bagger.bucket = .charged ∧ u.bagger.charge = some { c with outlet := .chute, cause := some .void })
        ∧ (o.state = .claiming → u.slots = s.slots.filter (fun x => decide (x.id ≠ id)) ∧ u.tx = s.tx ∧ u.fin = s.fin)
        ∧ Releases [o] s.reservations u.reservations
        ∧ (o.state ≠ .claiming → inPipeline id s = false → s.fin.order ≠ some id →
            u.slots = s.slots.filter (fun x => decide (x.id ≠ id))
            ∧ (s.tx.length < 8 →
                u.tx = s.tx ++ [OutEntry.fresh (.notice (.orderCancelled id o.tally o.plan.finished))]))
        ∧ (o.state ≠ .claiming → inPipeline id s = true ∨ s.fin.order = some id →
            ∃ w, findOrder id u = some w ∧ w.cancelled = true ∧ w.plan.makeUp = none
              ∧ w.state = (if o.state = .active then .draining else o.state) ∧ (∀ r ∈ w.remainders, r.mass = 0)
              ∧ (∀ b ∈ pipeline u, b.order = some id → b.rework = true)
              ∧ (s.fin.order = some id → u.fin.cancelled = true)
              ∧ u.surge = flagged id s.surge
              ∧ (feedsFinished id .discharging s.mixer → u.mixer = { flagged id s.mixer with dest := some .rework })
              ∧ (¬feedsFinished id .discharging s.mixer → u.mixer = flagged id s.mixer)
              ∧ (feedsFinished id .pressing s.press → u.press = { flagged id s.press with dest := some .rework })
              ∧ (¬feedsFinished id .pressing s.press → u.press = flagged id s.press)
              ∧ (feedsFinished id .discharging s.mixer ∨ feedsFinished id .pressing s.press → u.fin.entering = false)
              ∧ (¬feedsFinished id .discharging s.mixer → ¬feedsFinished id .pressing s.press →
                  u.fin.entering = s.fin.entering)
              ∧ (∀ b, scaleRecord s = some b → b.order = some id → b.rework = false → u.scale.state =
                  (if s.scale.state = .tare ∨ s.scale.state = .handAdd then .complete else s.scale.state)))
        ∧ u.slots.filter (fun x => decide (x.id ≠ id)) = s.slots.filter (fun x => decide (x.id ≠ id))))
  ∧ (∀ (s s1 : State) (f : RawFrame) (id : Nat) (o : Order) (b : Batch), id < 65536 → f.payload = be2 id →
    Arrives .orderBook 0x07 f s s1 → KeysDistinct s → findOrder id s = some o → o.cancelled = false →
    o.state ≠ .claiming → scaleRecord s = some b → b.order = some id → b.rework = false →
    s.tx.length + (dosesOf s).length ≤ 8 →
    let inHand := s.scale.state = .tare ∨ s.scale.state = .handAdd
    let worked := inHand ∨ s.scale.state ∈ [.feedFast, .feedSlow, .jog true, .jog false, .held]
      ∨ ∃ p, s.scale.state = .settle p
    let undosed (x : Dose) : Prop := (x.status = .waiting ∧ worked) ∨ (curDose s = some x ∧ inHand)
    let zeros (l : List Dose) : List OutEntry := l.filterMap (fun x => if x.announced then
      (planEntry x.position s).map (fun e => OutEntry.fresh (.drawReport b.number e.bin 0)) else none)
    let waiting := (dosesOf s).filter (fun x => decide (x.status = .waiting))
    ∃ u, Becomes .cancel s u ∧ u.bins = s.bins
      ∧ (inHand → u.tx = s.tx ++ zeros (curDose s).toList ++ zeros waiting)
      ∧ (worked → ¬inHand → u.tx = s.tx ++ zeros waiting)
      ∧ (¬worked → u.tx = s.tx)
      ∧ (dosesOf u).length = (dosesOf s).length
      ∧ ∀ (i : Nat) (x y : Dose), (dosesOf s)[i]? = some x → (dosesOf u)[i]? = some y →
        (¬undosed x → y = x ∧ planEntry x.position u = planEntry x.position s)
        ∧ (undosed x → y = { x with announced := false
                                    status := if x.status = .waiting then .waiting else .done })
        ∧ (undosed x → x.announced = false → planEntry x.position u = planEntry x.position s)
        ∧ (∀ e, undosed x → x.announced = true → planEntry x.position s = some e → planEntry x.position u = some
            (if e.status = .drawing then { e with drawn := min 16777215 e.drawn, status := .done } else e)))

/-- R5, R6: a run is split into the least number of batches of at most the batch size, which differ by one unit at
most, the heavier ones first, and which total the run mass; each of several batches is at least half the batch size.
R92: the parts of the largest-remainder split total the mass exactly; each is its quotient or one more; of two, a
larger remainder, and among equal ones the earlier place, takes the unit first. -/
def Obligations.SplitsTotalTheirMass : Prop :=
  (∀ M B : Nat, 0 < M → 0 < B →
    let n := splitCount M B
    1 ≤ n ∧ M ≤ n * B ∧ (n - 1) * B < M
    ∧ (∀ k, splitMass M n k = M / n + (if k ≤ M % n then 1 else 0) ∧ (1 ≤ k → k ≤ n → splitMass M n k ≤ B))
    ∧ ((List.range n).map (fun k => splitMass M n (k + 1))).sum = M
    ∧ (2 ≤ n → ∀ k, B ≤ 2 * splitMass M n k))
  ∧ (∀ (M : Nat) (shares : List Nat), shares.sum = 10000 →
    (largestRemainder M shares).length = shares.length
    ∧ (largestRemainder M shares).sum = M
    ∧ (∀ (i x t : Nat), shares[i]? = some x → (largestRemainder M shares)[i]? = some t →
        t = M * x / 10000 ∨ t = M * x / 10000 + 1)
    ∧ (∀ (i j x y t u : Nat), shares[i]? = some x → shares[j]? = some y →
        (largestRemainder M shares)[i]? = some t → (largestRemainder M shares)[j]? = some u →
        (M * y % 10000 < M * x % 10000 ∨ (M * y % 10000 = M * x % 10000 ∧ i < j)) →
        u = M * y / 10000 + 1 → t = M * x / 10000 + 1))

/-- R131, R132, R133: a product batch is let in only where no stage of its route needs a flush; each flush let in on
its behalf lowers the count by one; the flush takes the press's route only where the press needs it. -/
def Obligations.ProductBatchNeedsNoFlush : Prop :=
  ∀ (s : State) (o : Order), FiguresWithin s →
    let m := s.params.matrix
    let need (r : CarryRec) : Nat := matrixEntry m r.cls o.cls - r.flushes
    let count := orderFlush o s
    (count = 0 ↔ need s.carry.scale = 0 ∧ need s.carry.surge = 0 ∧ need s.carry.mixer = 0
        ∧ (o.form = .pellet → need s.carry.press = 0))
    ∧ (1 ≤ count → admitBatch o s = admitFlush o s)
    ∧ (count = 0 → admitBatch o s = admitProduct o s)
    ∧ (1 ≤ count →
        flushCount m (s.carry.flush (flushForm m s.carry o.cls o.form)) o.cls o.form = count - 1)
    ∧ (flushForm m s.carry o.cls o.form = .pellet ↔ o.form = .pellet ∧ 1 ≤ need s.carry.press)

/-- R4, R17, R19, R129, R130: what an admission records: the batch number advances, the projection follows the batch's
route, the chosen order starts, an ACTIVE order other than the chosen one is HELD. -/
def Obligations.AdmissionRecordsBatch : Prop :=
  ∀ (s : State) (o : Order), KeysDistinct s → findOrder o.id s = some o →
    let u := admitProduct o s
    let v := admitFlush o s
    let form := flushForm s.params.matrix s.carry o.cls o.form
    let bump (r : CarryRec) : CarryRec := { r with flushes := min 2 (r.flushes + 1) }
    (u.batchCounter = (if s.batchCounter = 65535 then 1 else s.batchCounter + 1) ∧ v.batchCounter = u.batchCounter)
    ∧ (scaleRecord u = some { number := s.batchCounter, kind := .product, order := some o.id
                              makeUp := o.plan.makeUp.isSome, mass := o.nextMass, form := o.form, target := o.target
                              cls := o.cls, rework := false, short := false, excess := false })
    ∧ (scaleRecord v = some { number := s.batchCounter, kind := .flush, order := none, makeUp := false
                              mass := s.params.flushMass, form := form, target := none, cls := 0
                              rework := false, short := false, excess := false })
    ∧ u.carry = { scale := ⟨o.cls, 0⟩, surge := ⟨o.cls, 0⟩, mixer := ⟨o.cls, 0⟩
                  press := if o.form = .pellet then ⟨o.cls, 0⟩ else s.carry.press }
    ∧ v.carry = { scale := bump s.carry.scale, surge := bump s.carry.surge, mixer := bump s.carry.mixer
                  press := if form = .pellet then bump s.carry.press else s.carry.press }
    ∧ (∃ w, findOrder o.id u = some w ∧ w.started = true
        ∧ w.plan = (match o.plan.makeUp with
          | none => { o.plan with admitted := o.plan.admitted + 1 }
          | some m => { o.plan with makeUp :=
              if m.admitted + 1 = m.batches then none else some { m with admitted := m.admitted + 1 } })
        ∧ w.state = (if w.plan.remains then .active else .draining))
    ∧ (∀ x ∈ u.slots, x.id ≠ o.id → x.state ≠ .active) ∧ (∀ x ∈ v.slots, x.id ≠ o.id → x.state ≠ .active)
    ∧ findOrder o.id v = some o

/-- R13, R14: the wait set of an order, for its next batch, and the recomputation, which raises SHORT_STOCK once for each
order that SHORT newly enters, with the order's id as its reference, and for no other. R183: so the record counts these
raises, a record made by them keeps the first one's id, and each is reported where the queue has room. R15, R16, R17: when an attempt is made, whom it chooses, and that after every event at
which an attempt is due no order is left that it could have chosen. -/
def Obligations.AttemptsChooseFromWaitSets : Prop :=
  (∀ s : State,
    (∀ o : Order,
      let w := waitsFor o s
      let parts := machineParts o.nextMass o.formula
      let shut (code : Nat) : Prop := (∀ e ∈ s.bins, eligible code e = false)
        ∧ ∃ e ∈ s.bins, e.channel ≠ none ∧ e.ingredient = some code ∧ e.quarantine ≠ .off
      (o.awaits = true ↔ (o.state = .held ∨ o.state = .active) ∧ 1 ≤ o.level ∧ o.cancelled = false
        ∧ (o.plan.admitted < o.plan.n.getD 0 ∨ o.plan.makeUp ≠ none))
      ∧ (w.quarantine = true ↔ ∃ c ∈ parts, shut c.code)
      ∧ (w.short = true ↔ ∃ c ∈ parts, ¬shut c.code ∧ admissionAvailability c.code (some o) s < c.target)
      ∧ (w.truck = true ↔ o.bagged = false ∧ ∀ t ∈ s.trucks, ∀ c ∈ t.comps, c.order = some o.id →
          c.state = .opened ∨ c.state = .loading → c.capacity < o.runMass)
      ∧ (w.flush = true ↔ 1 ≤ orderFlush o s ∧ ∀ e ∈ s.bins, eligible s.params.flushIngredient e = true →
          min (freeMass none e s) (admissionAvailability s.params.flushIngredient none s) < s.params.flushMass)
      ∧ (w.finishedBin = true ↔ s.fin.unknown = true ∨ s.fin.cancelled = true))
    ∧ (recomputeWaits s).slots = s.slots.map (fun o => if o.awaits then { o with waits := waitsFor o s } else o)
    ∧ (let u := recomputeWaits s
       let record (x : State) : Option FaultRecord := x.faults.find? (fun r => decide (r.key = .shortStock))
       ∃ entering : List Order,
        entering.Perm (s.slots.filter (fun o => o.awaits && !o.waits.short && (waitsFor o s).short))
        ∧ u = entering.foldl (fun x o => raiseFault .shortStock (some o.id) [] x) { s with slots := u.slots }
        ∧ (entering = [] → u.faults = s.faults ∧ u.tx = s.tx)
        ∧ (∀ o rest, entering = o :: rest → ∃ r, record u = some r ∧ r.acked = false ∧ r.last = s.millTime
            ∧ (record s = none → r.reference = some o.id ∧ r.first = s.millTime ∧ r.count = min 255 entering.length)
            ∧ (∀ q, record s = some q → r.reference = q.reference ∧ r.first = q.first
                ∧ r.count = min 255 (q.count + entering.length)))
        ∧ (s.tx.length + entering.length ≤ 8 → ∃ notices : List FaultRecord, notices.length = entering.length
            ∧ u.tx = s.tx ++ notices.map (fun r => OutEntry.fresh (.notice (.fault r [])))
            ∧ ∀ r ∈ notices, r.key = .shortStock ∧ r.acked = false)))
  ∧ (∀ s : State,
    (attemptDue s = true ↔ s.scale.state = .idle ∧ s.line = .run ∧ (pipeline s).length < 4
      ∧ ∀ r ∈ s.faults, r.key.unit = .dosing → r.key.severity = .hold ∨ r.key.severity = .stop → r.acked = true)
    ∧ (attemptDue s = false → admissionAttempt s = s)
    ∧ (attemptDue s = true → chooseOrder (recomputeWaits s) = none → admissionAttempt s = recomputeWaits s)
    ∧ (∀ o, attemptDue s = true → chooseOrder (recomputeWaits s) = some o →
        admissionAttempt s = admitBatch o (recomputeWaits s))
    ∧ (let candidate (o : Order) : Prop := o ∈ s.slots ∧ o.awaits = true ∧ o.waits.isEmpty = true
       let leads (a : Order) : Prop := candidate a ∧ a.state = .active ∧ ∀ x, candidate x → x.level ≤ a.level
       (chooseOrder s = none ↔ ∀ o, ¬candidate o)
       ∧ ∀ o, chooseOrder s = some o → candidate o
        ∧ (KeysDistinct s → OneActive s → ∀ a, leads a → o = a)
        ∧ (KeysDistinct s → OneActive s → (∀ a, ¬leads a) → ∀ x, candidate x →
            x.level < o.level ∨ (x.level = o.level
              ∧ (orderFlush o s < orderFlush x s ∨ (orderFlush o s = orderFlush x s
                ∧ (x.group < o.group ∨ (x.group = o.group ∧ o.takeOrder.getD 0 ≤ x.takeOrder.getD 0)))))))
    ∧ ∀ u : State, attemptDue (settled s u) = true → ∀ o ∈ (settled s u).slots, o.awaits = true →
        o.waits = waitsFor o (settled s u) ∧ o.waits.isEmpty = false)

/-- R5, R12, R89, R154: the orders whose run is short while nothing of it remains to come, the make-up batches made
for them, and which of them becomes ACTIVE; of several due in one event the first in the ranking of R16 is (the
model's choice, notes/assumptions/37.md). That none is due while the finished bin holds the order's material and its
mass is not yet formed (R89) is read from the rules (notes/assumptions/21.md). After no event is an order left that is
due. R7, R11, R22: a cancelled order none of whose batches is in the pipeline leaves the book with its notice, and its
remainders the table; after no event is one left. -/
def Obligations.MakeUpsAndCancelledOrders : Prop :=
  ((∀ (o : Order) (s : State),
    let common := o.state ≠ .claiming ∧ o.cancelled = false ∧ o.plan.n = some o.plan.admitted ∧ o.plan.makeUp = none
      ∧ inPipeline o.id s = false
    let charge := ∃ c, s.bagger.charge = some c ∧ c.order = o.id ∧ c.outlet = .bag
    (∀ size bags, o.delivery = .bagged size bags → (makeUpDue o s = true ↔ common ∧ o.plan.bags < bags ∧ ¬charge
        ∧ (s.fin.order ≠ some o.id ∨ ∃ m, s.fin.mass = some m ∧ m < size)))
    ∧ (∀ m, o.delivery = .bulk m → (makeUpDue o s = true ↔ common ∧ o.plan.massFinished < o.runMass)))
  ∧ (∀ s : State, KeysDistinct s →
    let u := makeUps s
    let first (o : Order) : Prop := 1 ≤ o.level ∧ ∀ x ∈ s.slots, makeUpDue x s = true → 1 ≤ x.level → x.id ≠ o.id →
      ranksAhead s o x = true
    ∀ o ∈ s.slots,
      (makeUpDue o s = false → findOrder o.id u = some o)
      ∧ (makeUpDue o s = true → ∃ w, findOrder o.id u = some w
        ∧ (∃ m, w.plan =
              { o.plan with makeUp := some { mass := m, batches := splitCount m s.params.batchSize, admitted := 0 } }
          ∧ (∀ size bags, o.delivery = .bagged size bags → m = max s.params.minBatch
              (((bags - o.plan.bags) * size * (1000 + s.params.bagAllowance) + 999) / 1000))
          ∧ (∀ mass, o.delivery = .bulk mass → m = max s.params.minBatch (o.runMass - o.plan.massFinished)))
        ∧ (w.state = .held ∨ (w.state = .active ∧ 1 ≤ o.level))
        ∧ w.remainders = o.remainders ∧ u.reservations = s.reservations
        ∧ ((∀ x ∈ s.slots, x.state ≠ .active) → first o → w.state = .active)
        ∧ ((∃ a ∈ s.slots, a.state = .active ∧ makeUpDue a s = false) → w.state = .held)))
  ∧ ∀ (s u : State), IdleScaleEmpty u → ∀ o ∈ (settled s u).slots, makeUpDue o (settled s u) = false)
  ∧ ((∀ s : State, KeysDistinct s →
    let gone := s.slots.filter (fun o => o.cancelled && !inPipeline o.id s)
    let u := freeCancelled s
    u.slots = s.slots.filter (fun o => !(o.cancelled && !inPipeline o.id s))
    ∧ Releases gone s.reservations u.reservations
    ∧ (s.tx.length + gone.length ≤ 8 → ∀ o ∈ gone,
        OutEntry.fresh (.notice (.orderCancelled o.id o.tally o.plan.finished)) ∈ u.tx)
    ∧ (gone = [] → u = s))
  ∧ ∀ (s u : State), IdleScaleEmpty u → ∀ o ∈ (settled s u).slots, o.cancelled = true → inPipeline o.id (settled s u) = true)

/-! ### The Delivery Table and the bays -/

/-- R160 to R163: a TRUCK-PLAN is discarded, removes a truck, or stores a new one with every compartment OPEN; a full
table gives up the departed truck of the earliest departure, then of the lower id, or raises TRUCK_TABLE_FULL. A plan
for a truck of the table replaces its record; departure noted is kept where order and departure are unchanged; an own
hold whose target it leaves unusable is released, its step closing with cause TARGET; that a target FULL before the
plan already is one (lost below) is the model's choice (notes/assumptions/43.md). That a compartment made FULL by a
change of its order becomes LOADING for the new order at a further plan with more capacity, as R161's words have it
against the law of R159 and R173, is the model's choice (notes/assumptions/48.md). The other trucks stay, but for
departures noted. A compartment of the truck is then refused where its order is held and its capacity below that
order's run mass, with COMPARTMENT_SMALL where it was not refused before. That an order in any slot counts as held for
the refusal and for a missed departure, a CLAIMING one too, is the model's reading (notes/assumptions/18.md). R161:
which plans have their fields in range. R194: a TRUCK-PLAN's payload is read as the removal or the plan it was formed
from, whatever the bytes of a bay, a departure or an order that is not present hold. -/
def Obligations.TruckPlanStoresOrRefuses : Prop :=
  (∀ (s s1 : State) (f : RawFrame), KeysDistinct s → Arrives .deliveryTable 0x0D f s s1 →
    (∀ truck, parsePlan f.payload = (truck, none) →
      (truck = 0 ∨ findTruck truck s = none → Becomes .truckPlan s s1)
      ∧ (truck ≠ 0 → ∃ u, Becomes .truckPlan s u ∧ u.trucks = s.trucks.filter (fun t => decide (t.truck ≠ truck))
          ∧ (findTruck truck s ≠ none → s.hold.state ≠ .nothing → s.hold.truck = some truck → u.hold = OwnHold.blank ∧ u.step = none)))
    ∧ ∀ truck p, parsePlan f.payload = (truck, some p) →
      let gone (x : Truck) : Prop := ∃ d now, x.departure = some d ∧ s.millTime = some now ∧ d * 60 ≤ now
      let missed (x : Truck) (c : Compartment) : Prop :=
        (∃ id, c.order = some id ∧ holdsOrder id s = true) ∧ c.state ≠ .loaded ∧ gone x
      let first (x y : Truck) : Prop := x.departure.getD 0 < y.departure.getD 0
        ∨ (x.departure.getD 0 = y.departure.getD 0 ∧ x.truck ≤ y.truck)
      let givenUp (x : Truck) : Prop := findTruck truck s = none ∧ 12 ≤ s.trucks.length ∧ gone x
        ∧ ∀ y ∈ s.trucks, gone y → first x y
      let targets (id : Nat) : Prop := s.hold.state ≠ .nothing ∧ s.hold.truck = some id
      (truck = 0 ∨ p.inRange = false → Becomes .truckPlan s s1)
      ∧ (truck ≠ 0 → p.inRange = true → ∃ u, Becomes .truckPlan s u
        ∧ (∀ t, findTruck truck u = some t → ∀ c ∈ t.comps, (c.refused = true ↔
            ∃ id o, c.order = some id ∧ findOrder id s = some o ∧ c.capacity < o.runMass))
        ∧ (∀ t, findTruck truck u = some t → (∃ (k : Nat) (c : Compartment), t.comps[k]? = some c ∧ c.refused = true
            ∧ ∀ t0 old, findTruck truck s = some t0 → t0.comps[k]? = some old → old.refused = false) →
            standing .compartmentSmall u = true)
        ∧ (findTruck truck s = none → s.trucks.length < 12 ∨ (∃ t ∈ s.trucks, departed s t = true) →
            ∃ t, findTruck truck u = some t ∧ t.bay = p.bay ∧ t.departure = p.departure
              ∧ t.comps.map (fun c => (c.capacity, c.order, c.mass, c.state, c.here))
                = p.comps.map (fun c => (c.capacity, c.order, 0, CompState.opened, false))
              ∧ ∀ c ∈ t.comps, (c.noted = true ↔ missed t c))
        ∧ (∀ x ∈ s.trucks, givenUp x →
            u.trucks.map Truck.truck = (s.trucks.map Truck.truck).filter (fun id => decide (id ≠ x.truck)) ++ [truck]
            ∧ (targets x.truck → u.hold = OwnHold.blank ∧ u.step = none)
            ∧ (¬targets x.truck → u.hold = s.hold ∧ u.step = s.step))
        ∧ (∀ x ∈ s.trucks, x.truck ≠ truck → ¬givenUp x → ∃ y, findTruck x.truck u = some y ∧ y.bay = x.bay
            ∧ y.departure = x.departure ∧ y.comps.length = x.comps.length
            ∧ ∀ (k : Nat) (c c1 : Compartment), x.comps[k]? = some c → y.comps[k]? = some c1 →
              c1 = { c with noted := c1.noted } ∧ (c1.noted = true ↔ c.noted = true
                ∨ ((findTruck truck s ≠ none ∨ s.trucks.length < 12 ∨ ∃ z ∈ s.trucks, gone z) ∧ missed x c)))
        ∧ (findTruck truck s = none → s.trucks.length < 12 → u.hold = s.hold ∧ u.step = s.step)
        ∧ (findTruck truck s = none → s.trucks.length < 12 →
            (u.trucks.map Truck.truck) = s.trucks.map Truck.truck ++ [truck])
        ∧ (findTruck truck s = none → 12 ≤ s.trucks.length → (∀ t ∈ s.trucks, departed s t = false) →
            u = raiseFault .truckTableFull none [.byte truck] s1)
        ∧ (∀ t0, findTruck truck s = some t0 → ∃ t, findTruck truck u = some t ∧ t.bay = p.bay
            ∧ t.departure = p.departure ∧ t.comps.length = p.comps.length
            ∧ (∀ (k : Nat) (c : PlanComp) (new : Compartment), p.comps[k]? = some c → t0.comps[k]? = none →
                t.comps[k]? = some new → new.capacity = c.capacity ∧ new.order = c.order ∧ new.mass = 0
                  ∧ new.state = .opened ∧ new.here = false ∧ (new.noted = true ↔ missed t new))
            ∧ (¬targets truck → u.hold = s.hold ∧ u.step = s.step)
            ∧ (∀ (k : Nat) (old : Compartment), targets truck → s.hold.comp = some (k + 1) → t0.comps[k]? = some old →
                let lost := p.comps.length ≤ k ∨ p.bay ≠ s.hold.bay
                  ∨ ∃ new, t.comps[k]? = some new ∧ (new.order ≠ old.order ∨ new.state = .full)
                (lost → u.hold = OwnHold.blank
                  ∧ u.step = s.step.map (fun st => { st with cause := some (st.cause.getD .target) }))
                ∧ (¬lost → u.hold = s.hold ∧ u.step = s.step))
            ∧ ∀ (k : Nat) (c : PlanComp) (old new : Compartment), p.comps[k]? = some c → t0.comps[k]? = some old →
              t.comps[k]? = some new → new.capacity = c.capacity ∧ new.order = c.order
                ∧ (new.noted = true ↔ (old.noted = true ∧ old.order = c.order ∧ t0.departure = p.departure)
                    ∨ missed t new)
                ∧ (old.state = .opened → new.mass = 0 ∧ new.state = .opened ∧ new.here = false)
                ∧ (old.state ≠ .opened → new.mass = old.mass ∧ new.here = old.here
                    ∧ (old.order ≠ c.order ∨ c.order = none → new.state = .full)
                    ∧ (old.order = c.order → c.order ≠ none → new.state =
                        (if old.state = .full ∧ old.mass + s.params.spoutF < c.capacity then .loading
                         else old.state))))))
  ∧ (∀ p : PlanFields, p.inRange = true ↔ (∀ b, p.bay = some b → 1 ≤ b ∧ b ≤ 4) ∧ (∀ d, p.departure = some d → d ≤ 1439)
    ∧ 1 ≤ p.comps.length ∧ p.comps.length ≤ 6 ∧ ∀ c ∈ p.comps, c.capacity ≠ 0 ∧ c.order ≠ some 0)
  ∧ (∀ (truck : Nat) (p : PlanFields) (bay departure order : Nat), truck < 256 → bay < 256 → departure < 65536 →
    order < 65536 → (∀ b, p.bay = some b → b < 256) → (∀ d, p.departure = some d → d < 65536) → p.comps.length < 256 →
    (∀ c ∈ p.comps, c.capacity < 16777216 ∧ ∀ id, c.order = some id → id < 65536) →
    parsePlan (planPayload truck p bay departure order) = (truck, some p)
    ∧ lengthOk 0x0D (planPayload truck p bay departure order) = true
    ∧ parsePlan (be1 truck ++ be1 0) = (truck, none) ∧ lengthOk 0x0D (be1 truck ++ be1 0) = true)

/-- R165, R169: a BAY-HOLD of another node sets or frees the bay's timer, and is ranked against the own hold of that
bay. -/
def Obligations.BayHoldSetsTimerAndRanks : Prop :=
  ∀ (s s1 : State) (f : RawFrame) (bay truck duration loading : Nat), bay < 256 → truck < 256 → duration < 65536 →
    loading < 256 → f.payload = be1 bay ++ be1 truck ++ be2 duration ++ be1 loading → RecordsWhole s →
    Arrives .deliveryTable 0x0E f s s1 →
    let n := f.source.toNat
    (bay = 0 ∨ 4 < bay ∨ truck = 0 ∨ 600 < duration ∨ n = 31 → Becomes .bayHold s s1)
    ∧ (1 ≤ bay → bay ≤ 4 → truck ≠ 0 → duration ≤ 600 → n ≠ 31 →
      let concerns := 0 < duration ∧ s.hold.state ≠ .nothing ∧ s.hold.bay = some bay
      let mine := s.hold.loading = true ∧ loading ≠ 1 ∨ (s.hold.loading = decide (loading = 1) ∧ s.straps.node ≤ n)
      let both := s.hold.loading = true ∧ loading = 1
      let set1 : State := { s1 with bays := s1.bays.modify (bay - 1) (fun _ => { holder := some n, remaining := duration }) }
      (¬concerns → 0 < duration → Becomes .bayHold s set1)
      ∧ (¬concerns → duration = 0 → ∀ b, findBay bay s = some b → Becomes .bayHold s
          (if b.holder = some n then
            { s1 with bays := s1.bays.modify (bay - 1) (fun _ => { holder := none, remaining := 0 }) } else s1))
      ∧ (concerns → both → Becomes .bayHold s set1)
      ∧ (concerns → ¬both → ¬mine → Becomes .bayHold s
          { set1 with hold := OwnHold.blank
                      tx := s.tx.filter (fun e => e.underWay || decide (e.body.kind ≠ 0x0E)) })
      ∧ (concerns → ¬both → mine → ∃ u, Becomes .bayHold s u
          ∧ (s.hold.state ≠ .contending ∨ s.tx.length < 8 →
              findBay bay u = some { holder := some s.straps.node, remaining := s.params.holdDuration })
          ∧ (s.hold.state = .taking → u.tx = s.tx ∧ u.hold = s.hold)
          ∧ (s.hold.state = .held → s.tx.length < 8 → u.hold = s.hold ∧ u.tx = s.tx ++
              [OutEntry.fresh (.bayHold bay (s.hold.truck.getD 0) s.params.holdDuration s.hold.loading)])
          ∧ (s.hold.state = .contending → s.tx.length < 8 →
              u.hold = { s.hold with state := .taking, contention := .stopped } ∧ u.tx = s.tx ++
                [OutEntry.fresh (.bayHold bay (s.hold.truck.getD 0) s.params.holdDuration false)])))

/-- R165, R167, R171: which target is chosen, the taking of its bay, the giving up of a hold with no step begun; and
what stands after every event: such a hold has every condition of its taking, and no bay that could be taken is left
but for a full queue (R168). R10, R11, R176: the run that is filled, the compartment marked LOADED for it with its
frame, the run then completing; after no event is a marking left that could be made. -/
def Obligations.BaysAreTakenAndRunsMarked : Prop :=
  (∀ s : State,
    let fits (id : Nat) (p : Truck × Nat × Compartment) : Prop :=
      p.1 ∈ s.trucks ∧ p.1.comp p.2.1 = some p.2.2 ∧ p.2.2.order = some id
        ∧ (p.2.2.state = .opened ∨ p.2.2.state = .loading) ∧ p.2.2.refused = false ∧ p.1.bay ≠ none
        ∧ p.2.2.mass + s.params.spoutF < p.2.2.capacity
    (∀ id, chooseTarget id s = none ↔ ∀ p, ¬fits id p)
    ∧ (∀ id p, chooseTarget id s = some p → fits id p ∧ ∀ q, fits id q → q ≠ p →
        (p.2.2.state = .loading ∧ q.2.2.state ≠ .loading) ∨ ((p.2.2.state = .loading ↔ q.2.2.state = .loading)
          ∧ (p.1.departure.getD 1440 < q.1.departure.getD 1440 ∨ (p.1.departure.getD 1440 = q.1.departure.getD 1440
            ∧ (p.1.truck < q.1.truck ∨ (p.1.truck = q.1.truck ∧ p.2.1 ≤ q.2.1))))))
    ∧ (loadoutWanted s = true ↔ s.straps.loadout = true ∧ s.line = .run ∧ unitHeld .loadout s = false
        ∧ s.rx.listening = false ∧ standing .addressClash s = false ∧ permitsDrawing s = true ∧ s.fin.entering = false
        ∧ (∃ w, s.finConv.weight = some w ∧ (s.params.emptyBand : Int) < w)
        ∧ ∃ id o, s.fin.order = some id ∧ findOrder id s = some o ∧ o.bagged = false ∧ o.cancelled = false)
    ∧ (let due (v : State) (p : Truck × Nat × Compartment) (bay : Nat) : Prop :=
         v.hold.state = .nothing ∧ v.step = none ∧ loadoutWanted v = true
           ∧ (∃ id, v.fin.order = some id ∧ chooseTarget id v = some p) ∧ p.1.bay = some bay
           ∧ ∃ b, findBay bay v = some b ∧ b.remaining = 0
       ((∀ p bay, ¬due s p bay) → takeBay s = s)
       ∧ (∀ p bay, due s p bay → s.tx.length < 8 → takeBay s = { s with
           tx := s.tx ++ [OutEntry.fresh (.bayHold bay p.1.truck s.params.holdDuration false)]
           bays := s.bays.modify (bay - 1) (fun _ => { holder := some s.straps.node, remaining := s.params.holdDuration })
           hold := { OwnHold.blank with state := .taking, bay := some bay, truck := some p.1.truck, comp := some p.2.1 } })
       ∧ ∀ u p bay, due (settled s u) p bay → 8 ≤ (settled s u).tx.length)
    ∧ (s.hold.state = .nothing ∨ s.hold.stepped = true ∨ (loadoutWanted s = true ∧ holdQualifies s = true) →
        abandonBay s = s)
    ∧ (s.hold.state ≠ .nothing → s.hold.stepped = false → loadoutWanted s = false ∨ holdQualifies s = false →
        abandonBay s = releaseHold s)
    ∧ (∀ id t k c, s.fin.order = some id → s.hold.truck = some t.truck → s.hold.comp = some k →
        findTruck t.truck s = some t → t.comp k = some c →
        (holdQualifies s = true ↔ fits id (t, k, c) ∧ t.bay = s.hold.bay))
    ∧ ∀ u, KeysDistinct u → (settled s u).hold.state ≠ .nothing → (settled s u).hold.stepped = false →
        loadoutWanted (settled s u) = true ∧ holdQualifies (settled s u) = true)
  ∧ (let due (o : Order) (s : State) : Prop := runFilled o s = true ∧ s.fin.order ≠ some o.id ∧ s.step = none
  let marks (o : Order) (s : State) (p : Truck × Nat × Compartment) : Prop :=
    p.1 ∈ s.trucks ∧ p.1.comp p.2.1 = some p.2.2 ∧ p.2.2.order = some o.id
      ∧ (p.2.2.state = .opened ∨ p.2.2.state = .loading) ∧ p.2.2.refused = false
  (∀ (o : Order) (s : State), runFilled o s = true ↔ o.state ≠ .claiming ∧ o.bagged = false
      ∧ o.plan.n = some o.plan.admitted ∧ o.plan.makeUp = none ∧ inPipeline o.id s = false
      ∧ o.runMass ≤ o.plan.massFinished)
  ∧ (∀ (o : Order) (s : State), o.cancelled = false →
      (¬due o s ∨ (∀ p, ¬marks o s p) → markLoadedFor o s = s)
      ∧ (due o s → ∀ p, marks o s p → (∀ q, marks o s q → q ≠ p → targetAhead p q = true) →
          markLoadedFor o s = completeRun o.id (queueFrame (.loaded p.1.truck p.2.1 o.id p.2.2.mass)
            (updComp p.1.truck p.2.1 (fun c => { c with state := .loaded, here := true }) s))))
  ∧ ∀ (s u : State), KeysDistinct u → FiguresWithin u → u.power = .running → IdleScaleEmpty u →
      ∀ o ∈ (settled s u).slots, o.cancelled = false → due o (settled s u) → ∀ p, ¬marks o (settled s u) p)

/-- R164: a LOADED of another node. R171: a release withdraws the node's own BAY-HOLDs not under way, frees the bay
and sends a hold of duration 0, unless no hold of this take was ever sent. That the bay's timer is freed whoever holds
it is read from R171 against R165's table (notes/assumptions/17.md). -/
def Obligations.LoadedMarksAndReleaseFrees : Prop :=
  (∀ (s s1 : State) (f : RawFrame) (truck number order mass : Nat), truck < 256 → number < 256 → order < 65536 →
    mass < 16777216 → f.payload = be1 truck ++ be1 number ++ be2 order ++ be3 mass →
    Arrives .deliveryTable 0x0F f s s1 →
    let applies := f.source.toNat ≠ 31 ∧ ∃ c, findComp truck number s = some c ∧ c.order = some order ∧ c.here = false
    let u := updComp truck number (fun c => { c with state := .loaded, mass := mass, here := false }) s1
    let target := s.hold.state ≠ .nothing ∧ s.hold.truck = some truck ∧ s.hold.comp = some number
    (¬applies → Becomes .loaded s s1)
    ∧ (applies → ¬target → Becomes .loaded s u)
    ∧ (applies → target → Becomes .loaded s (releaseHold (closeSpout .target u))))
  ∧ (∀ s : State,
    let rest := s.tx.filter (fun e => e.underWay || decide (e.body.kind ≠ 0x0E))
    let bay := s.hold.bay.getD 0
    let freed (q : State) : State := { q with
      hold := OwnHold.blank, bays := s.bays.modify (bay - 1) (fun _ => { holder := none, remaining := 0 }) }
    (s.hold.state = .nothing → releaseHold s = s)
    ∧ (s.hold.state = .taking → s.hold.sent = false → releaseHold s = freed { s with tx := rest })
    ∧ (s.hold.state ≠ .nothing → s.hold.state ≠ .taking ∨ s.hold.sent = true →
        releaseHold s = freed (queueFrame (.bayHold bay (s.hold.truck.getD 0) 0 false) { s with tx := rest })))

/-! ### Line Control -/

/-- R183, R187: a raise makes a record, or raises its count and marks it unacknowledged, keeping first time and
reference; a FAULT notice is queued where the queue has room. -/
def Obligations.FaultRaiseCountsAndReports : Prop :=
  ∀ (k : FaultKey) (ref : Option Nat) (detail : List DetailField) (s : State), KeysDistinct s →
    let u := raiseFault k ref detail s
    ∃ r, r ∈ u.faults ∧ r.key = k ∧ r.acked = false ∧ r.last = s.millTime
      ∧ ((∀ q ∈ s.faults, q.key ≠ k) →
          r.count = 1 ∧ r.first = s.millTime ∧ r.reference = ref ∧ u.faults = s.faults ++ [r])
      ∧ (∀ before q after, s.faults = before ++ q :: after → q.key = k →
          r = { q with count := min 255 (q.count + 1), last := s.millTime, acked := false }
          ∧ u.faults = before ++ r :: after)
      ∧ (s.tx.length < 8 → u = { s with faults := u.faults, tx := s.tx ++ [OutEntry.fresh (.notice (.fault r detail))] })
      ∧ (8 ≤ s.tx.length → u = { s with faults := u.faults })

/-- R74, R184, R196: an ACK naming this node or all nodes, or the local input, acknowledges the records it names; the
Dosing Unit's hold set loses their kinds. That an ACK of ADDRESS_CLASH tells whether the line stands idle, by its
operand or by a count of that idle, so that transmission waits for the next, is the model's choice
(notes/assumptions/12.md). -/
def Obligations.AckAcknowledgesNamedRecords : Prop :=
  ∀ (s s1 : State) (f : RawFrame) (node unit kind : Nat) (idle : Bool), node < 256 → unit < 256 → kind < 256 → KeysDistinct s →
    f.payload = be1 node ++ be1 unit ++ be1 kind →
    let named (k : FaultKey) : Prop := unit = 0 ∨ (k.unit.code = unit ∧ k.number = kind)
    (Arrives .lineControl 0x11 f s s1 → node ≠ 0 → node ≠ s.straps.node → Becomes (.ack ⟨.frame, idle⟩) s s1)
    ∧ (Arrives .lineControl 0x11 f s s1 → node = 0 ∨ node = s.straps.node →
        ∃ keys, (∀ k, k ∈ keys ↔ named k) ∧ Becomes (.ack ⟨.frame, idle⟩) s (acknowledge keys idle s1))
    ∧ (ready s = true → Becomes (.ack ⟨.input, idle⟩) s (acknowledge FaultKey.all idle s))
    ∧ ∀ keys : List FaultKey,
        let u := acknowledge keys idle s
        (∀ r ∈ s.faults, r.key ∉ keys → r.acked = false → standing r.key u = true)
        ∧ (s.scale.state ≠ .held → u = { s with
            faults := s.faults.map (fun r => if r.key ∈ keys then { r with acked := true } else r)
            rx := if ∃ r ∈ s.faults, r.key = .addressClash ∧ r.key ∈ keys ∧ r.acked = false
              then { s.rx with barred := idle || s.rx.idle.isSome } else s.rx })
        ∧ (s.scale.state = .held → (∃ k ∈ s.scale.holdSet, ¬(k ∈ keys ∧ standing k s = true)) →
            u.scale.state = .held ∧ u.scale.resume = s.scale.resume
            ∧ u.faults = s.faults.map (fun r => if r.key ∈ keys then { r with acked := true } else r)
            ∧ u.scale.holdSet = s.scale.holdSet.filter (fun k => !(keys.contains k && standing k s)))

/-- R174, R179, R181: PAUSE and RESUME, from a frame that names this node or all nodes and from the local inputs. R80,
R122, R155, R180: at the close of an event the line goes from PAUSING to PAUSED when the units have reported, with one
notice; the pause points of the Dosing Unit and of the bagger. -/
def Obligations.PauseAndResumeMoveLine : Prop :=
  ((∀ (s s1 : State) (f : RawFrame) (node : Nat), node < 256 → Arrives .lineControl 0x12 f s s1 →
    (f.payload = be1 node ++ be1 1 → node = 0 ∨ node = s.straps.node → Becomes (.pause .frame) s (pauseLine s1))
    ∧ (f.payload = be1 node ++ be1 1 → node ≠ 0 → node ≠ s.straps.node → Becomes (.pause .frame) s s1)
    ∧ (f.payload = be1 node ++ be1 2 → node = 0 ∨ node = s.straps.node → Becomes (.resume .frame) s (resumeLine s1))
    ∧ (f.payload = be1 node ++ be1 2 → node ≠ 0 → node ≠ s.straps.node → Becomes (.resume .frame) s s1))
  ∧ ∀ s : State,
    (ready s = true → Becomes (.pause .input) s (pauseLine s) ∧ Becomes (.resume .input) s (resumeLine s))
    ∧ (s.line = .run → (pauseLine s).line = .pausing ∧ (pauseLine s).reports = Reports.blank
        ∧ (pauseLine s).train.grinder.mode = .idle ∧ (pauseLine s).train.presser.mode = .idle
        ∧ spoutOpen (pauseLine s) = false
        ∧ (s.tx.length < 8 → (pauseLine s).tx = s.tx ++ [OutEntry.fresh (.notice (.lineState .pausing .pause))]))
    ∧ (s.line ≠ .run → pauseLine s = s) ∧ (s.line = .run → resumeLine s = s)
    ∧ (s.line = .pausing ∨ s.line = .paused → unitHeld .line s = false →
        (resumeLine s).line = .run ∧ (resumeLine s).reports = Reports.blank ∧ (resumeLine s).train.motorsHeld = false
        ∧ (s.tx.length < 8 → (resumeLine s).tx = s.tx ++ [OutEntry.fresh (.notice (.lineState .run .resume))]))
    ∧ (s.line = .stopped ∨ (s.line ≠ .run ∧ unitHeld .line s = true) →
        resumeLine s = raiseFault .resumeRefused none [.byte s.line.code] s))
  ∧ (∀ s : State, s.line = .pausing →
    let r : Reports := { dosing := s.reports.dosing || dosingAtPause s, train := true
                         packing := s.reports.packing || baggerAtPause s }
    (r.dosing = true → r.packing = true → (pauseReports s).line = .paused ∧ (pauseReports s).reports = Reports.blank
        ∧ (s.tx.length < 8 →
            (pauseReports s).tx = s.tx ++ [OutEntry.fresh (.notice (.lineState .paused .pauseComplete))]))
    ∧ (r.dosing = false ∨ r.packing = false → pauseReports s = { s with reports := r })
    ∧ (dosingAtPause s = true ↔ s.scale.state ∈ [.idle, .tare, .jog false, .handAdd, .held, .complete, .discharge,
        .dumping, .unknown, .settle .resume])
    ∧ (baggerAtPause s = true ↔ s.bagger.bucket ∈ [.empty, .charged, .discharging, .unknown false, .unknown true,
        .settling .resume, .jog false]))

/-- R84, R123, R156, R174, R182: the STOP line seen asserted and released, and the node's own drive of it. R156: a charge
in FILLING, under a running pulse, or in a first or jog settle is interrupted and goes to the resume settle; the bagger's
other states, its mode and its spout stand. At the stop every feeder, gate and motor is off, the bagger's fill, settle and
jog timers stop and its discharge timer is frozen; at the release the gates that were open reopen and the discharge timer
runs on, while motors and steam loop stay as they were. A pulse that is pending where the finished bin permits no drawing
is the one charge the event's close may yet reject (R146). -/
def Obligations.StopLineStopsEverything : Prop :=
  ∀ s : State, ready s = true →
    let b := s.bagger
    let charging := b.bucket ∈ [.filling true, .filling false, .jog true, .settling .first, .settling .jog]
    let empties := b.bucket = .discharging ∨ b.bucket = .unknown true
    let pulseWaits := b.bucket = .jog false → permitsDrawing s = true
    let toOutlet (out : Outlet) : Prop := b.bucket = .discharging ∧ ∃ c, b.charge = some c ∧ c.outlet = out
    (s.inputs.stopLine = false → ∃ u, Becomes .stopAsserted s u ∧ u.line = .stopped ∧ u.inputs.stopLine = true
      ∧ u.reports = Reports.blank ∧ feedRate u = .off ∧ bagFeed u = .off ∧ spoutOpen u = false
      ∧ u.train.grinder.speed = 0 ∧ u.train.presser.speed = 0 ∧ u.train.steam.running = false
      ∧ u.train.steam.valve = s.train.steam.valve ∧ u.train.motorsHeld = true
      ∧ (s.scale.state ∈ [.feedFast, .feedSlow, .jog true, .settle .first, .settle .jog] →
          u.scale.state = .settle .resume)
      ∧ (s.scale.state ∉ [.feedFast, .feedSlow, .jog true, .settle .first, .settle .jog] →
          u.scale.state = s.scale.state)
      ∧ (∀ d, curDose u = some d → d.interrupted = true)
      ∧ (u.surge = s.surge ∧ u.mixer = s.mixer ∧ u.press = s.press ∧ u.fin = s.fin)
      ∧ (charging → u.bagger = { b with
          bucket := .settling .resume, charge := b.charge.map (fun c => { c with interrupted := true }) })
      ∧ (¬charging → u.bagger = b)
      ∧ (s.line ≠ .stopped → s.tx.length < 8 →
          u.tx = s.tx ++ [OutEntry.fresh (.notice (.lineState .stopped .stopAsserted))])
      ∧ ∀ t, t = settled s u →
        t.line = .stopped ∧ t.bagger.mode = b.mode ∧ t.bagger.spout = b.spout ∧ t.bagger.zeroed = b.zeroed
        ∧ (pulseWaits → t.bagger.bucket = u.bagger.bucket ∧ t.bagger.charge = u.bagger.charge
            ∧ t.bagger.inFlight = b.inFlight)
        ∧ t.bagger.fill = .stopped ∧ t.bagger.settle = .stopped ∧ t.bagger.jog = .stopped
        ∧ (∀ left, empties → b.discharge = .running left → t.bagger.discharge = .frozen left)
        ∧ (∀ rate ∈ t.pins.bagFeeder :: t.pins.channels, rate = .off)
        ∧ (∀ gate ∈ [t.pins.scaleDischarge, t.pins.scaleDump, t.pins.mixerDischarge, t.pins.surgeDump, t.pins.mixerDump,
            t.pins.pressDump, t.pins.finishedDump, t.pins.bagGate, t.pins.rejectGate, t.pins.spout], gate = false)
        ∧ (∀ motor ∈ [t.pins.grinderMotor, t.pins.mixerMotor, t.pins.pressMotor, t.pins.cooler], motor = false)
        ∧ t.pins.grinderFeed = 0 ∧ t.pins.pressFeed = 0 ∧ t.pins.steamValve = 0
        ∧ (t.pins.release = true ↔ s.straps.bagger = true ∧ b.spout = .filled))
    ∧ (s.inputs.stopLine = true → s.inputs.localStop = false → ∃ u, Becomes .stopReleased s u
      ∧ u = queueNotice (.lineState .paused .stopReleased)
          { s with line := .paused, inputs := { s.inputs with stopLine := false } }
      ∧ ∀ t, t = settled s u →
        t.line = .paused ∧ t.train.motorsHeld = s.train.motorsHeld ∧ t.train.steam = s.train.steam
        ∧ (t.pins.scaleDischarge = true ↔ s.scale.state = .discharge)
        ∧ (t.pins.scaleDump = true ↔ s.scale.state = .dumping) ∧ (t.pins.finishedDump = true ↔ s.fin.dumping = true)
        ∧ (s.mixer.state = .busy → s.mixer.phase = some .discharging → t.pins.mixerDischarge = true)
        ∧ (s.surge.state = .busy → s.surge.phase = some .dumping → t.pins.surgeDump = true)
        ∧ (s.mixer.state = .busy → s.mixer.phase = some .dumping → t.pins.mixerDump = true)
        ∧ (s.press.state = .busy → s.press.phase = some .dumping → t.pins.pressDump = true)
        ∧ (s.straps.bagger = true → (t.pins.bagGate = true ↔ toOutlet .bag)
            ∧ (t.pins.rejectGate = true ↔ toOutlet .chute ∨ b.bucket = .unknown true))
        ∧ (∀ left, empties → b.discharge = .frozen left → t.bagger.discharge = .running left))
    ∧ (∀ a t, Becomes (.localStopInput a) s { s with inputs := { s.inputs with localStop := a } }
        ∧ (exec (.localStopInput a) s = .next t → t.pins.stopDrive = a))

/-- R186, R203: the FAULT lamp is steady for a HOLD or STOP that stands, flashes for a NOTE alone, and is off for
none; the RUN lamp is steady in RUN, flashes in PAUSING, and is off otherwise; a flash timer turns its lamp over.
Strap pins 1 to 4 carry the lamps, and pins 5 to 11 are driven off. -/
def Obligations.LampsShowFaultsAndLine : Prop :=
  ∀ s u t : State, ready u = true → t = settled s u →
    let some_ (p : FaultKey → Prop) : Prop := ∃ r ∈ t.faults, r.acked = false ∧ p r.key
    (some_ (fun k => k.severity ≠ .note) → t.pins.faultLamp = true)
    ∧ (¬some_ (fun _ => True) → t.pins.faultLamp = false ∧ t.lamps.fault.timer = .stopped)
    ∧ (¬some_ (fun k => k.severity ≠ .note) → some_ (fun _ => True) →
        t.lamps.fault.timer.isRunning = true ∧ t.pins.faultLamp = t.lamps.fault.lit)
    ∧ (t.line = .run → t.pins.runLamp = true)
    ∧ (t.line = .paused ∨ t.line = .stopped → t.pins.runLamp = false)
    ∧ (t.line = .pausing → t.lamps.run.timer.isRunning = true ∧ t.pins.runLamp = t.lamps.run.lit)
    ∧ t.pins.strapPins = [t.pins.faultLamp, t.pins.runLamp, t.pins.handAddLamp, t.pins.bayLamp] ++ List.replicate 7 false
    ∧ (t.lamps.fault.timer.isRunning = true → Becomes (.flashTimerExpiry .fault) t
        { t with lamps := { t.lamps with fault := { t.lamps.fault with lit := !t.lamps.fault.lit } } })
    ∧ (t.lamps.run.timer.isRunning = true → Becomes (.flashTimerExpiry .run) t
        { t with lamps := { t.lamps with run := { t.lamps.run with lit := !t.lamps.run.lit } } })

/-- R82, R119, R121: a dump request, from a frame or a local input, is taken or ignored by the line state and the
state of what it dumps. R82, R105, R119, R120, R121: what a dump does: the scale empties to rework with its hold set
empty, a stage is DUMPING with its record flagged REWORK and its transfer ended, the finished bin's gate opens. The
dump of the scale closes the component that has a tare and reports its actual, answers every announcement left with a
report of 0, and tells the Bin View. -/
def Obligations.DumpsAreTakenAndFlagBatches : Prop :=
  (∀ (c : Origin → Instr) (request : Nat) (f : State → State),
    (c, request, f) ∈ [(Instr.dumpScale, 3, fun s => if dumpTaken s then dumpScaleBatch s else s),
      (Instr.dumpSurge, 4, fun s => if stageDumpTaken .surge s then dumpStage .surge s else s),
      (Instr.dumpMixer, 5, fun s => if stageDumpTaken .mixer s then dumpStage .mixer s else s),
      (Instr.dumpPress, 6, fun s => if stageDumpTaken .press s then dumpStage .press s else s),
      (Instr.dumpFinished, 7, fun s => if finishedDumpTaken s then openFinishedDump s else s)] →
    (∀ s, ready s = true → Becomes (c .input) s (f s))
    ∧ (∀ (s s1 : State) (fr : RawFrame) (node : Nat), node < 256 → fr.payload = be1 node ++ be1 request →
        Arrives .lineControl 0x12 fr s s1 →
        (node = 0 ∨ node = s.straps.node → Becomes (c .frame) s (f s1))
        ∧ (node ≠ 0 → node ≠ s.straps.node → Becomes (c .frame) s s1)))
  ∧ (∀ s : State,
    (dumpTaken s = true ↔ (s.line = .paused ∧ s.scale.state ≠ .discharge ∧ s.scale.state ≠ .dumping)
        ∨ (s.scale.state = .held ∧ (s.line = .run ∨ s.line = .paused)))
    ∧ (let u := dumpScaleBatch s
       u.scale.state = .dumping ∧ u.scale.holdSet = [] ∧ u.scale.resume = none
        ∧ scaleRecord u = (scaleRecord s).map (fun b => { b with rework := true })
        ∧ (s.surge.busyWith .receiving = true → u.surge = StageRec.ofState .unknown)
        ∧ u.reservations = s.reservations ∧ u.channels = s.channels ∧ feedRate u = .off
        ∧ (∀ x ∈ dosesOf u, x.tare.isSome = true → x.status = .done)
        ∧ (KeysDistinct s →
          let closes (d : Dose) : Bool := d.tare.isSome && decide (d.status ≠ .done)
          let reports := (dosesOf s).filterMap (fun d => (planEntry d.position s).bind (fun e =>
            if closes d then (if d.fed then some (e.bin, actualOf d s) else none)
            else if d.announced then some (e.bin, 0) else none))
          (s.tx.length + reports.length ≤ 8 →
            u.tx = s.tx ++ reports.map (fun r => OutEntry.fresh (.drawReport (scaleNumber s) r.1 r.2)))
          ∧ u.bins = s.bins.map (fun b => { b with estimate := b.estimate.map (fun m =>
              m - ((reports.filter (fun r => decide (r.1 = b.bin))).map Prod.snd).sum) })
          ∧ ∀ d ∈ dosesOf s, ∀ e, planEntry d.position s = some e →
            let done (a : Nat) : Prop :=
              planEntry d.position u = some { e with drawn := min 16777215 (e.drawn + a), status := .done }
            let same : Prop := planEntry d.position u = some e
            (closes d = true → d.fed = true → done (actualOf d s)
              ∧ ∀ t w, d.tare = some t → s.scaleConv.weight = some w →
                (actualOf d s : Int) = min 16777215 (max 0 (w - t - d.reported)))
            ∧ (closes d = true → d.fed = false → same)
            ∧ (closes d = false → d.announced = true → e.status = .drawing → done 0)
            ∧ (closes d = false → d.announced = false ∨ e.status ≠ .drawing → same)))
    ∧ (∀ i, stageDumpTaken i s = true ↔
        (s.line = .paused ∨ ((stageOf i s).state = .held ∧ (s.line = .run ∨ s.line = .paused)))
        ∧ ¬((stageOf i s).state = .busy ∧ (stageOf i s).phase ∈ [some .receiving, some .dumping, some .discharging]))
    ∧ (∀ i, let u := dumpStage i s
       stageOf i u = { state := .busy, phase := some .dumping, dest := none, resume := none
                       batch := (stageOf i s).batch.map (fun b => { b with rework := true }) }
        ∧ (i = .surge → u.train.grinder.mode = .idle ∧ ((stageOf i s).within .grinding = true →
            (stageOf i s).dest = some .mixer → u.mixer = StageRec.ofState .unknown))
        ∧ (i = .mixer → (stageOf i s).within .discharging = true →
            ((stageOf i s).dest = some .press → u.press = StageRec.ofState .unknown)
            ∧ ((stageOf i s).dest = some .finished → u.fin = { s.fin with entering := false }))
        ∧ (i = .press → u.train.presser.mode = .idle ∧ u.train.steam.running = false
            ∧ u.train.steam.valve = s.train.steam.valve ∧ ((stageOf i s).within .pressing = true →
            (stageOf i s).dest = some .finished → u.fin = { s.fin with entering := false })))
    ∧ (finishedDumpTaken s = true ↔ s.line = .paused ∧ s.fin.entering = false ∧ s.fin.dumping = false)
    ∧ openFinishedDump s = { s with fin := { s.fin with dumping := true } })

/-- R73, R107, R114, R117, R148: the empty inputs, HAND-ADD DONE and the bag clamp. -/
def Obligations.InputsAreTaken : Prop :=
  ∀ s : State, ready s = true →
    (∀ b, Becomes (.surgeEmptyInput b) s { s with inputs := { s.inputs with surgeEmpty := b } })
    ∧ (∀ b, Becomes (.mixerEmptyInput b) s { s with inputs := { s.inputs with mixerEmpty := b } })
    ∧ (∀ b, Becomes (.pressBinEmptyInput b) s { s with inputs := { s.inputs with pressBinEmpty := b } })
    ∧ (s.scale.state = .handAdd → s.line = .run → Becomes .handAddDone s
        { s with scale := { s.scale with state := .settle .handAdd } })
    ∧ (s.scale.state ≠ .handAdd ∨ s.line ≠ .run → Becomes .handAddDone s s)
    ∧ (s.straps.bagger = true →
        let present : State := { s with inputs := { s.inputs with bagClamp := true } }
        let absent : State := { s with inputs := { s.inputs with bagClamp := false } }
        (s.inputs.bagClamp = false → s.bagger.spout = .vacant →
          Becomes (.bagClamp true) s { present with bagger := { s.bagger with spout := .ready } })
        ∧ (s.inputs.bagClamp = false → s.bagger.spout ≠ .vacant → Becomes (.bagClamp true) s present)
        ∧ (s.inputs.bagClamp = true → s.bagger.spout = .vacant → Becomes (.bagClamp false) s absent)
        ∧ (s.inputs.bagClamp = true → s.bagger.spout = .ready ∨ s.bagger.spout = .filled →
          Becomes (.bagClamp false) s { absent with bagger := { s.bagger with spout := .vacant } })
        ∧ (∀ c, s.inputs.bagClamp = true → s.bagger.spout = .receiving → s.bagger.charge = some c →
          Becomes (.bagClamp false) s (raiseFault .chargeReject (some c.order) []
            { absent with bagger := { s.bagger with
                spout := .vacant, bucket := .charged
                charge := some { c with outlet := .chute, cause := some .reject } } })))

/-! ### Weighing -/

/-- R87, R88, R89, R90, R91: what a sample forms in a converter, and an auto-zero. -/
def Obligations.ConverterFormsWeights : Prop :=
  ∀ (band : Nat) (c : Int) (v : Converter), v.gross.length ≤ 4 → v.filtered.length ≤ 8 → v.raw.length ≤ 8 →
    let w := v.sample band c
    let gross := v.gross.drop (v.gross.length - 3) ++ [((c - v.zero) * v.mult + 32768) / 65536]
    w.gross = gross ∧ w.zero = v.zero ∧ w.mult = v.mult
    ∧ (gross.length < 4 → w.filtered = v.filtered ∧ w.raw = v.raw ∧ w.stable = false)
    ∧ (gross.length = 4 →
        w.filtered = v.filtered.drop (v.filtered.length - 7) ++ [(gross.sum + 2) / 4]
        ∧ w.raw = v.raw.drop (v.raw.length - 7) ++ [c]
        ∧ (w.stable = true ↔ w.filtered.length = 8 ∧ ∀ a ∈ w.filtered, ∀ b ∈ w.filtered, a - b ≤ band))
    ∧ v.autoZero = { v with zero := (v.raw.sum + 4) / 8 }

/-- R94: the tolerance of a target, and the judgement of an error by it. R62, R95: adaptation stays within 0 and the
ceiling; a gain of 0 leaves F; a gain of 8 moves it by the whole error; a component that settled high raises F and one
that settled low lowers it (R95; a sentence of R75 has the first otherwise, and the model follows R95:
notes/assumptions/46.md). -/
def Obligations.ToleranceJudgesAndFlightAdapts : Prop :=
  (∀ (absolute relative target : Nat) (e : Int),
    let tol : Int := max (absolute : Int) ((target : Int) * relative / 1000)
    ((tolerance absolute relative target : Nat) : Int) = tol
    ∧ (judge (tolerance absolute relative target) e = .within ↔ -tol ≤ e ∧ e ≤ tol)
    ∧ (judge (tolerance absolute relative target) e = .under ↔ e < -tol)
    ∧ (judge (tolerance absolute relative target) e = .above ↔ tol < e))
  ∧ (∀ (g ceiling f : Nat) (e1 : Int), f ≤ ceiling →
    adapt g ceiling f e1 ≤ ceiling ∧ adapt 0 ceiling f e1 = f
    ∧ (0 ≤ (f : Int) + e1 → (f : Int) + e1 ≤ ceiling → ((adapt 8 ceiling f e1 : Nat) : Int) = f + e1)
    ∧ (0 ≤ e1 → f ≤ adapt g ceiling f e1) ∧ (e1 ≤ 0 → adapt g ceiling f e1 ≤ f)
    ∧ (0 < adapt g ceiling f e1 → adapt g ceiling f e1 < ceiling →
        let d : Int := 8 * (((adapt g ceiling f e1 : Nat) : Int) - f) - e1 * g
        d ≤ 4 ∧ -4 ≤ d ∧ (d = 4 → 0 < e1) ∧ (d = -4 → e1 < 0)))

/-- R56, R65: at its admission the batch is taken into the scale with its draw plan, one entry for each machine
component that has a bin, announced in one DRAW-NOTICE; then its first component starts. R57, R65, R66, R76: how a
component starts: a target of 0 is done at once, a hand-add ingredient or a dose below the channel's minimum is added
by hand, another asks the Bin View for its bin; after the last component the batch is COMPLETE. -/
def Obligations.ComponentsStartAsPlanned : Prop :=
  (∀ (b : Batch) (comps : List Planned) (s : State), ∃ q : State, admitToScale b comps s = startComponent q
    ∧ ∃ p, q.plan = some p ∧ p.batch = b.number ∧ (p.flush = true ↔ b.kind = .flush)
    ∧ p.entries = comps.filterMap (fun c => if 61440 ≤ c.code then none
        else (chooseBin c.code c.target none s).map (fun bin =>
          { position := c.position, ingredient := c.code, target := c.target, bin := bin, drawn := 0
            status := .planned }))
    ∧ q.scale.batch = some
        { record := b, firstTare := none
          doses := comps.map (fun c =>
            { position := c.position, ingredient := c.code, target := c.target, mode := none, status := .waiting
              tare := none, reported := 0, jogs := 0, e1 := none, interrupted := false, outcome := none
              announced := p.entries.any (fun e => decide (e.position = c.position)) }) }
    ∧ (p.entries = [] → q.tx = s.tx)
    ∧ (p.entries ≠ [] → s.tx.length < 8 → q.tx = s.tx ++
        [OutEntry.fresh (.drawNotice b.number (p.entries.map (fun e => (e.bin, e.target))))]))
  ∧ (∀ s : State, s.scale.state ≠ .held ∨ s.scale.resume = none →
    (nextWaiting s = none → startComponent s = setScale .complete s)
    ∧ ∀ d, nextWaiting s = some d →
      (d.target = 0 →
        let passed := updDose d.position (fun x => { x with mode := some .nothing, status := .done }) s
        (planEntry d.position s = none → startComponent s = startComponent passed)
        ∧ (∀ e, planEntry d.position s = some e → startComponent s = startComponent
            (updDose d.position (fun x => { x with announced := false })
              (queueFrame (.drawReport (scaleNumber s) e.bin 0) passed))))
      ∧ (d.target ≠ 0 → curDose s = none → KeysDistinct s →
        let u := startComponent s
        let small := ∃ c, doseChannel d s = some c ∧ d.target < c.minDose
        (61440 ≤ d.ingredient → u.scale.state = .tare ∧ u.tx = s.tx ∧ u.plan = s.plan
            ∧ curDose u = some { d with status := .inProgress, mode := some .hand })
        ∧ (d.ingredient < 61440 → small → u.scale.state = .tare ∧ u.plan = s.plan
            ∧ curDose u = some { d with status := .inProgress, mode := some .hand, announced := false }
            ∧ ∀ e, planEntry d.position s = some e → s.tx.length < 8 →
                u.tx = s.tx ++ [OutEntry.fresh (.drawReport (scaleNumber s) e.bin 0)])
        ∧ (d.ingredient < 61440 → ¬small → ∀ e, planEntry d.position s = some e →
            ConfirmsBin { d with status := .inProgress } e s u
            ∧ ∃ x, curDose u = some x ∧ x.position = d.position)
        ∧ (d.ingredient < 61440 → planEntry d.position s = none → u.scale.state = .held
            ∧ u.scale.resume = some (.tare true) ∧ standing .noSource u = true)))

/-- R64, R67, R68, R71, R73, R75, R78, R79, R81, R82, R93: a sample of the batch scale that raises no overload (none
above the capacity, the unit DUMPING, or SCALE_OVERLOAD in the hold set already), by the state of the unit: the tare
and what opens on it, the cutoffs, a settle, the end of a discharge and of a dump. That the cutoff of an interrupted
component leads to a resume settle also where its feed opened at its tare (shut below), and that a state entered by
the sample waits for the next one, are the model's choices (notes/assumptions/40.md, 41.md). That a discharge or dump
ends in every line state is the model's reading (notes/assumptions/20.md). R78: a sample above the scale capacity.
That the overload is taken before the state's own test, so that a stable sample in TARE takes no tare and one in
DISCHARGE keeps the batch, is the model's reading (notes/assumptions/27.md). -/
def Obligations.ScaleSamplesFollowState : Prop :=
  (∀ (s : State) (n : BitVec 24), ready s = true →
    let v := s.scaleConv.sample s.params.stableBand n.toInt
    let s1 : State := { s with scaleConv := v }
    (∀ g, v.lastGross = some g → g ≤ s.params.scaleCapacity) ∨ s.scale.state = .dumping
        ∨ .scaleOverload ∈ s.scale.holdSet →
    (s.scale.state ∈ [.held, .complete, .unknown, .handAdd, .jog false, .jog true] → Becomes (.scaleSample n) s s1)
    ∧ (s.scale.state = .idle → ∀ g, v.lastGross = some g →
        Becomes (.scaleSample n) s
          (if v.stable = true ∧ -(s.params.zeroBand : Int) ≤ g ∧ g ≤ s.params.zeroBand
            then { s with scaleConv := { v with zero := (v.raw.sum + 4) / 8 } } else s1))
    ∧ (s.scale.state = .discharge ∨ s.scale.state = .dumping →
        let done := v.stable = true ∧ ∃ w, v.weight = some w ∧ -(s.params.emptyBand : Int) ≤ w ∧ w ≤ s.params.emptyBand
        (¬done → Becomes (.scaleSample n) s s1)
        ∧ (done → ∃ u, Becomes (.scaleSample n) s u ∧ u.scale.state = .idle ∧ u.scale.batch = none ∧ u.plan = none
          ∧ (s.scale.state = .dumping → u.surge = s.surge ∧ u.slots = s.slots ∧ u.tx = s.tx)
          ∧ (s.scale.state = .discharge → ∀ b, scaleRecord s = some b → u.surge = StageRec.doneWith b
              ∧ (b.short = false ∧ b.excess = false → u.tx = s.tx)
              ∧ (b.short = true ∨ b.excess = true → s.tx.length < 8 → u.tx = s.tx ++ [OutEntry.fresh (.notice
                  (.batchOffWeight b.number b.order b.short b.excess b.rework s.scale.net))]))))
    ∧ ∀ d w, curDose s = some d → v.weight = some w →
      (s.scale.state = .tare → v.stable = false ∨ s.line ≠ .run → Becomes (.scaleSample n) s s1)
      ∧ (s.scale.state = .tare → v.stable = true → s.line = .run → ∃ u, Becomes (.scaleSample n) s u
          ∧ (∀ x, curDose u = some x → x.tare = some w)
          ∧ (∀ b, s.scale.batch = some b → u.scale.batch.map ScaleBatch.firstTare = some (some (b.firstTare.getD w)))
          ∧ (d.mode = some .hand → u.scale.state = .handAdd ∧ (s.tx.length < 8 → u.tx = s.tx ++
              [OutEntry.fresh (.notice (.handAdd (scaleNumber s) d.ingredient d.target))]))
          ∧ (d.mode ≠ some .hand → d.target ≤ flightOf d s → u.scale.state = .jog false
              ∧ ∀ x, curDose u = some x → x.jogs = d.jogs + 1 ∧ x.mode = some .jogOnly)
          ∧ (d.mode ≠ some .hand → flightOf d s < d.target →
              u.scale.state = (if d.target ≤ slowOf d s then .feedSlow else .feedFast)
              ∧ u.scale.noted = 0 ∧ ∀ x, curDose u = some x → x.mode = some .feed))
      ∧ ∀ t, d.tare = some t →
        let closes := (d.target : Int) - flightOf d s ≤ w - t
        let slows := (d.target : Int) - slowOf d s ≤ w - t
        let shut : ScaleState := .settle (if d.interrupted then .resume else .first)
        (s.scale.state = .feedFast → Becomes (.scaleSample n) s
            (if closes then setScale shut s1 else if slows then setScale .feedSlow s1 else s1))
        ∧ (s.scale.state = .feedSlow → Becomes (.scaleSample n) s (if closes then setScale shut s1 else s1))
        ∧ (∀ p, s.scale.state = .settle p → v.stable = false → Becomes (.scaleSample n) s s1)
        ∧ (∀ p, s.scale.state = .settle p → v.stable = true → Becomes (.scaleSample n) s (settleSample p (w - t) d s1))
        ∧ (s.scale.state = .settle .resume → s.line ≠ .run → Becomes (.scaleSample n) s s1))
  ∧ (∀ (s : State) (n : BitVec 24) (g : Int), ready s = true →
    let v := s.scaleConv.sample s.params.stableBand n.toInt
    v.lastGross = some g → (s.params.scaleCapacity : Int) < g → s.scale.state ≠ .dumping →
    .scaleOverload ∉ s.scale.holdSet →
    ∃ u, Becomes (.scaleSample n) s u ∧ u.scaleConv = v ∧ u.scale.state = .held ∧ feedRate u = .off
      ∧ .scaleOverload ∈ u.scale.holdSet ∧ standing .scaleOverload u = true ∧ u.scale.batch.isSome = s.scale.batch.isSome
      ∧ (s.scale.state ∈ [.feedFast, .feedSlow, .jog false, .jog true, .settle .first, .settle .jog, .settle .resume] →
          u.scale.resume = some .resumeSettle)
      ∧ (s.scale.state ∈ [.feedFast, .feedSlow, .jog false, .jog true, .settle .first, .settle .jog] →
          ∀ d, curDose u = some d → d.interrupted = true)
      ∧ (s.scale.state = .tare → u.scale.resume = some (.tare false))
      ∧ (s.scale.state = .handAdd ∨ s.scale.state = .settle .handAdd → u.scale.resume = some .handAddSettle)
      ∧ (s.scale.state = .idle → u.scale.resume = some .idle)
      ∧ (s.scale.state = .complete → u.scale.resume = some .complete)
      ∧ (s.scale.state = .discharge → u.scale.resume = some .discharge)
      ∧ (s.scale.state = .unknown → u.scale.resume = some .unknown)
      ∧ (s.scale.state = .held → s.scale.resume.isSome → u.scale.resume = s.scale.resume))

/-- R70, R72, R73, R76, R83: the judgement at the end of a settle, which a stable sample makes
(ScaleSamplesFollowState): in RUN, and but for a resume settle in PAUSING. A batch flagged REWORK is recorded WITHIN
without a check at every settle purpose (R83 says it of a component in FEED_FAST, FEED_SLOW or JOG:
notes/assumptions/15.md). At a resume settle the close point is tested before the switch point (read from the rows of
R76: notes/assumptions/16.md). That a hand-add settle judged under queues no second HAND-ADD notice is the model's
reading (notes/assumptions/27.md). -/
def Obligations.SettleJudgesComponent : Prop :=
  ∀ (p : SettlePurpose) (g : Int) (d : Dose) (s : State), curDose s = some d → s.scale.state = .settle p →
    let judged := s.line = .run ∨ (s.line = .pausing ∧ p ≠ .resume)
    let e := g - d.target
    let tol : Int := tolerance s.params.absTolerance s.params.relTolerance d.target
    let u := settleSample p g d s
    let weighs := p ≠ .resume ∨ (d.target : Int) - flightOf d s ≤ g
    (¬judged → u = s)
    ∧ (judged → scaleRework s = true → u = recordStep .within false d s)
    ∧ (judged → scaleRework s = false →
    (weighs → -tol ≤ e → e ≤ tol →
        u = recordStep .within true (if p = .first then { d with e1 := some e } else d)
          (if p = .first then updDose d.position (fun x => { x with e1 := some e }) s else s))
    ∧ (weighs → tol < e → u.scale.state = .held ∧ u.scale.resume = some (.accept .excess)
        ∧ standing .overdose u = true ∧ .overdose ∈ u.scale.holdSet)
    ∧ (p = .handAdd → e < -tol → u = setScale .handAdd s)
    ∧ (p ≠ .handAdd → weighs → e < -tol → d.jogs < s.params.jogLimit → u.scale.state = .jog false
        ∧ ∀ x, curDose u = some x → x.jogs = d.jogs + 1)
    ∧ (p ≠ .handAdd → weighs → e < -tol → s.params.jogLimit ≤ d.jogs → u.scale.state = .held
        ∧ u.scale.resume = some (.accept .short) ∧ standing .underdose u = true)
    ∧ (p = .resume → ¬weighs → u.scale.state =
        (if g < (d.target : Int) - slowOf d s then .feedFast else .feedSlow) ∧ u.scale.noted = g))

/-- R7, R47, R52, R72, R75, R83, R101: the record step reports the draw, its entry of the plan being DONE, consumes
the target from the order's reservation, in the table and in its remainder, adapts an uninterrupted FEED component,
and passes to the next component or to COMPLETE. That an error above T raises F at an accepted OVERDOSE too is the
model's reading, R75 and R95 being at odds (notes/assumptions/46.md). R7, R72, R75, R83: the record step of a
component by hand, a machine component below its channel's least dose among them: no DRAW-REPORT, no change of bins,
channels or its entry; the machine component's target is consumed all the same. -/
def Obligations.RecordStepReportsDraw : Prop :=
  (∀ (outcome : DoseOutcome) (adapts : Bool) (d : Dose) (e : PlanEntry) (s : State), curDose s = some d →
    planEntry d.position s = some e → d.fed = true → s.tx = [] → KeysDistinct s →
    let a := actualOf d s
    let u := recordStep outcome adapts d s
    (∃ rest, u.tx = OutEntry.fresh (.drawReport (scaleNumber s) e.bin a) :: rest)
    ∧ (∀ g, gainOf d s = some g → (a : Int) = min 16777215 (max 0 (g - d.reported)))
    ∧ u.bins = s.bins.map (fun b =>
        if b.bin = e.bin then { b with estimate := b.estimate.map (fun m => m - a) } else b)
    ∧ (∃ x, u.scale.batch.bind (fun b => b.doses.find? (fun y => decide (y.position = d.position))) = some x
        ∧ x.status = .done ∧ x.outcome = some outcome ∧ x.announced = false)
    ∧ planEntry d.position u = some { e with drawn := min 16777215 (e.drawn + a), status := .done }
    ∧ (∀ b id o, scaleRecord s = some b → b.kind = .product → b.order = some id → findOrder id s = some o →
        findOrder id u = some { o with remainders := o.remainders.map (fun r =>
            if r.code = d.ingredient then { r with mass := r.mass - d.target } else r) }
        ∧ massOf d.ingredient u.reservations =
            massOf d.ingredient s.reservations - min d.target (massOf d.ingredient o.remainders)
        ∧ ∀ code, code ≠ d.ingredient → massOf code u.reservations = massOf code s.reservations)
    ∧ ((∀ b, scaleRecord s = some b → b.kind = .flush ∨ b.order = none) →
        u.reservations = s.reservations ∧ u.slots = s.slots)
    ∧ ((adapts = false ∨ d.mode ≠ some .feed ∨ d.interrupted = true ∨ d.e1 = none) → u.channels = s.channels)
    ∧ (∀ c e1, adapts = true → d.mode = some .feed → d.interrupted = false → d.e1 = some e1 → doseChannel d s = some c →
        u.channels = s.channels.map (fun x =>
          if x.number = c.number then { x with inFlight := adapt s.params.adaptGain x.fMax x.inFlight e1 } else x))
    ∧ (scaleRework s = true ∨ (∀ x ∈ dosesOf s, x.position ≠ d.position → x.status = .done) → u.scale.state = .complete)
    ∧ (scaleRework s = false → ∀ x, nextWaiting s = some x → x.target ≠ 0 →
        ∃ y ∈ dosesOf u, y.position = x.position ∧ y.status = .inProgress))
  ∧ (∀ (outcome : DoseOutcome) (adapts : Bool) (d : Dose) (s : State), curDose s = some d → d.mode = some .hand →
    KeysDistinct s →
    let u := recordStep outcome adapts d s
    let last := ∀ x ∈ dosesOf s, x.position ≠ d.position → x.status = .done
    (u.bins = s.bins ∧ u.channels = s.channels ∧ planEntry d.position u = planEntry d.position s)
    ∧ (∃ x, u.scale.batch.bind (fun b => b.doses.find? (fun y => decide (y.position = d.position))) = some x
        ∧ x.status = .done ∧ x.outcome = some outcome)
    ∧ (∀ b id o, d.ingredient < 61440 → scaleRecord s = some b → b.kind = .product → b.order = some id →
        findOrder id s = some o →
        findOrder id u = some { o with remainders := o.remainders.map (fun r =>
            if r.code = d.ingredient then { r with mass := r.mass - d.target } else r) }
        ∧ massOf d.ingredient u.reservations =
            massOf d.ingredient s.reservations - min d.target (massOf d.ingredient o.remainders)
        ∧ ∀ code, code ≠ d.ingredient → massOf code u.reservations = massOf code s.reservations)
    ∧ (61440 ≤ d.ingredient ∨ (∀ b, scaleRecord s = some b → b.kind = .flush ∨ b.order = none) →
        u.reservations = s.reservations ∧ u.slots = s.slots)
    ∧ (last → u.tx = s.tx ∧ u.plan = s.plan)
    ∧ (scaleRework s = true ∨ last → u.scale.state = .complete)
    ∧ (scaleRework s = false → ∀ x, nextWaiting s = some x → x.target ≠ 0 →
        (∃ y ∈ dosesOf u, y.position = x.position ∧ y.status = .inProgress)
        ∧ u = startComponent { s with
            slots := u.slots, reservations := u.reservations
            scale := { s.scale with batch := s.scale.batch.map (fun b => { b with doses := b.doses.map (fun y =>
              if y.position = d.position then { y with outcome := some outcome, status := .done } else y) }) } }))

/-- R57, R58, R74, R75, R83, R184: an acknowledgement tells the Dosing Unit the kinds of the records it acknowledged;
where that empties the hold set, the unit goes on from its resume point. One accepted is recorded SHORT or OVER, its
batch flagged to match, with the adaptation of the record step allowed (R75; which way F then moves:
notes/assumptions/46.md). At the resume point TARE of a NO_SOURCE the Bin View is asked again, and may answer so
again. How an ACK of ADDRESS_CLASH tells that the line stands idle is the model's choice (notes/assumptions/12.md). -/
def Obligations.HoldEndsAtResumePoint : Prop :=
  (∀ (keys : List FaultKey) (idle : Bool) (s : State), ∃ acked : List FaultKey, (∀ k, k ∈ acked ↔ k ∈ keys ∧ standing k s = true)
    ∧ let told := ackDosing acked
        { s with faults := s.faults.map (fun r => if r.key ∈ keys then { r with acked := true } else r) }
      acknowledge keys idle s = { told with rx := { told.rx with
        barred := if FaultKey.addressClash ∈ acked then idle || told.rx.idle.isSome else told.rx.barred } })
  ∧ ∀ (keys : List FaultKey) (s : State), s.scale.state = .held → (∀ k ∈ s.scale.holdSet, k ∈ keys) →
    let u := ackDosing keys s
    (s.scale.resume = some .idle → u.scale.state = .idle) ∧ (s.scale.resume = some .complete → u.scale.state = .complete)
    ∧ (s.scale.resume = some .discharge → u.scale.state = .discharge)
    ∧ (s.scale.resume = some .unknown → u.scale.state = .unknown)
    ∧ ∀ d, curDose s = some d →
      (∀ o, s.scale.resume = some (.accept o) →
          u = recordStep o true d { s with scale := { s.scale with
            holdSet := [], resume := none
            batch := s.scale.batch.map (fun b => { b with record := match o with
              | .short => { b.record with short := true }
              | .excess => { b.record with excess := true }
              | .within => b.record }) } })
      ∧ (scaleRework s = false →
        (s.scale.resume = some .resumeSettle → u.scale.state = (if d.tare.isSome then .settle .resume else .tare))
        ∧ (s.scale.resume = some .handAddSettle → u.scale.state = .settle .handAdd)
        ∧ (s.scale.resume = some (.tare false) → u.scale.state = .tare)
        ∧ (s.scale.resume = some (.tare true) → ∀ e, planEntry d.position s = some e → ConfirmsBin d e s u)
        ∧ (s.scale.resume = some .rechoose → ∀ e, planEntry d.position s = some e →
            (∀ b, rechoose e s = some b → u.scale.state = (if d.tare.isSome then .settle .resume else .tare)
              ∧ (∃ e1, planEntry d.position u = some e1 ∧ e1.bin = b ∧ e1.status = .drawing)
              ∧ (s.tx.length < 8 →
                  u.tx = s.tx ++ [OutEntry.fresh (.drawNotice (scaleNumber s) [(b, e.target - e.drawn)])]))
            ∧ (rechoose e s = none → u.scale.state = .held ∧ u.scale.resume = some .rechoose
              ∧ standing .noSource u = true)))
      ∧ (scaleRework s = true → s.scale.resume ∈ [some .resumeSettle, some .handAddSettle, some (.tare false),
            some (.tare true), some .rechoose] → u.scale.state = .complete)

/-- R67, R69, R70, R71, R73, R76, R81, R82: after every event each timer of the Dosing Unit runs exactly while its
condition holds, started in full. How much of its time has passed is not held (notes/assumptions/6.md). R67, R69, R70,
R71, R73, R81, R82: the timers of the Dosing Unit run out. -/
def Obligations.DosingTimersExpire : Prop :=
  (∀ s u t : State, t = settled s u →
    let x := t.scale
    let runs := t.line = .run
    let moves := t.line = .run ∨ t.line = .pausing
    RunsWhile ((x.state = .tare ∧ runs) ∨ ((∃ p, x.state = .settle p) ∧ moves)) t.params.settleTimeout
      u.scale.settle x.settle
    ∧ RunsWhile (x.state = .feedFast ∨ x.state = .feedSlow) t.params.stallWindow u.scale.stall x.stall
    ∧ (∀ d c, curDose t = some d → doseChannel d t = some c →
        RunsWhile (x.state = .jog true) c.jogTime u.scale.jog x.jog)
    ∧ (x.state ≠ .jog true → x.jog = .stopped)
    ∧ RunsWhile ((x.state = .discharge ∨ x.state = .dumping) ∧ t.line ≠ .stopped ∧ t.scaleConv.stable = true
        ∧ ∃ w, t.scaleConv.weight = some w ∧ (t.params.emptyBand : Int) < w) t.params.settleTimeout
      u.scale.residue x.residue)
  ∧ (∀ s : State, ready s = true →
    (s.scale.jog.isRunning = true → Becomes .jogTimerExpiry s { s with scale := { s.scale with state := .settle .jog } })
    ∧ (s.scale.residue.isRunning = true → s.scale.state = .discharge ∨ s.scale.state = .dumping →
        ∃ u, Becomes .residueTimerExpiry s u ∧ standing .scaleResidue u = true
          ∧ u.scale.state = .idle ∧ u.scale.batch = none ∧ u.plan = none
          ∧ (s.scale.state = .discharge → ∀ b, scaleRecord s = some b → u.surge = StageRec.doneWith b))
    ∧ ∀ d, curDose s = some d →
      (s.scale.settle.isRunning = true →
        (s.scale.state = .tare → Becomes .settleTimeout s (holdScale .unstable [.byte d.position] (.tare false) s))
        ∧ (s.scale.state = .settle .handAdd →
            Becomes .settleTimeout s (holdScale .unstable [.byte d.position] .handAddSettle s))
        ∧ (∀ p, s.scale.state = .settle p → p ≠ .handAdd → Becomes .settleTimeout s
            (holdScale .unstable [.byte d.position] .resumeSettle
              (updDose d.position (fun x => { x with interrupted := true }) s))))
      ∧ (s.scale.stall.isRunning = true → ∀ g, gainOf d s = some g →
        ((s.params.stallMinimum : Int) ≤ g - s.scale.noted → Becomes .stallTimerExpiry s
          { s with scale := { s.scale with noted := g, stall := .running s.params.stallWindow } })
        ∧ (g - s.scale.noted < s.params.stallMinimum → ∀ e, planEntry d.position s = some e → ∃ u,
          Becomes .stallTimerExpiry s u ∧ u.scale.state = .held ∧ feedRate u = .off ∧ standing .stall u = true
          ∧ (s.scale.state ≠ .held → u.scale.resume = some .rechoose)
          ∧ u.bins = s.bins.map (fun b => if b.bin = e.bin then
              { b with estimate := b.estimate.map (fun m => m - actualOf d s), emptySuspect := true } else b)
          ∧ (s.tx.length < 8 → OutEntry.fresh (.drawReport (scaleNumber s) e.bin (actualOf d s)) ∈ u.tx)
          ∧ (∀ x, curDose u = some x → x.interrupted = true ∧ x.announced = false))))

/-! ### The Process Train -/

/-- R97, R98: a current sample of a loop, by its mode; a start and a halt. R99: a temperature sample steers the steam
valve while its loop runs, and judges the band whether it runs or not; with no target since the start it judges out of
band (notes/assumptions/28.md). R98, R104, R114, R116, R183: the faults of the train's timers carry the batch in the
stage as their reference, and the current or the temperature as their detail; they hold their stages, a stage held
already staying as it is. With no temperature sampled yet the detail is a free value (notes/assumptions/10.md). R97,
R104: after every event a stage in HELD is one that is barred, its feeder at 0 and its gate closed; a stage no longer
barred goes on in its own phase, its loop started afresh where it may run, or is EMPTY after a dump. -/
def Obligations.TrainLoopsSteerAndFaultsHold : Prop :=
  ((∀ (p : LoopParams) (i : Nat) (l : FeedLoop),
    (l.mode = .idle → l.sample p i = l)
    ∧ (l.mode = .running → i < p.trip →
        let x : Int := l.speed + Int.tdiv (((p.setpoint : Int) - i) * p.gain) 64
        (l.sample p i).mode = .running ∧ (l.sample p i).timer = l.timer
        ∧ (((l.sample p i).speed : Nat) : Int) = (if x < 0 then 0 else if 1000 < x then 1000 else x))
    ∧ (l.mode = .running → p.trip ≤ i → l.sample p i =
        { mode := .overload, speed := 0, timer := .running p.overloadLimit, current := some i })
    ∧ (l.mode = .overload → i ≤ p.resume → l.sample p i =
        { mode := .running, speed := p.startSpeed, timer := .stopped, current := some i })
    ∧ (l.mode = .overload → p.resume < i → l.sample p i = { l with current := some i })
    ∧ l.halt = { l with mode := .idle, speed := 0, timer := .stopped }
    ∧ (l.mode = .idle → l.start p = { l with mode := .running, speed := p.startSpeed })
    ∧ (l.mode ≠ .idle → l.start p = l))
  ∧ ∀ (s : State) (i : BitVec 12), ready s = true →
    Becomes (.currentSample .grinder i) s
      { s with train := { s.train with grinder := s.train.grinder.sample s.params.grinder i.toNat } }
    ∧ Becomes (.currentSample .press i) s
      { s with train := { s.train with presser := s.train.presser.sample s.params.press i.toNat } })
  ∧ ((∀ (s : State) (t : BitVec 16), ready s = true → s.train.steam.target = none → s.train.steam.running = false →
    Becomes (.temperatureSample t) s { s with train := { s.train with
      steam := { s.train.steam with inBand := false, last := some t.toInt } } })
  ∧ ∀ (s : State) (t : BitVec 16) (target : Nat), ready s = true → s.train.steam.target = some target →
    let x : Int := s.train.steam.valve + Int.tdiv (((target : Int) - t.toInt) * s.params.steamGain) 64
    ∃ m : Steam, Becomes (.temperatureSample t) s { s with train := { s.train with steam := m } }
      ∧ m.running = s.train.steam.running ∧ m.target = some target ∧ m.last = some t.toInt
      ∧ (m.inBand = true ↔ (target : Int) - s.params.condBand ≤ t.toInt)
      ∧ (s.train.steam.running = false → m.valve = s.train.steam.valve)
      ∧ (s.train.steam.running = true →
          ((m.valve : Nat) : Int) = (if x < 0 then 0 else if 1000 < x then 1000 else x)))
  ∧ (∀ s : State, ready s = true →
    let heldIn (r u : StageRec) : Prop :=
      (∀ p, r.state = .busy → r.phase = some p → p = .grinding ∨ p = .discharging ∨ p = .pressing →
        u = { r with state := .held, resume := some (.phase p) })
      ∧ (r.state ≠ .busy → u = r)
    (s.train.dischargeLimit.isRunning = true → ∃ u, Becomes .dischargeTimeout s u
        ∧ Raised .dischargeTimeout (s.mixer.batch.map Batch.number) s u ∧ Reported .dischargeTimeout [] s u
        ∧ heldIn s.mixer u.mixer ∧ u.train = s.train)
    ∧ (s.train.grinder.timer.isRunning = true → ∃ u, Becomes (.overloadTimerExpiry .grinder) s u
        ∧ Raised .grinderOverload (s.surge.batch.map Batch.number) s u ∧ heldIn s.surge u.surge
        ∧ (∀ i, s.train.grinder.current = some i → Reported .grinderOverload [.word i] s u)
        ∧ u.train = { s.train with grinder :=
            { s.train.grinder with timer := .running s.params.grinder.overloadLimit } })
    ∧ (s.train.presser.timer.isRunning = true → ∃ u, Becomes (.overloadTimerExpiry .press) s u
        ∧ Raised .pressOverload (s.press.batch.map Batch.number) s u ∧ heldIn s.press u.press
        ∧ (∀ i, s.train.presser.current = some i → Reported .pressOverload [.word i] s u)
        ∧ u.train = { s.train with presser :=
            { s.train.presser with timer := .running s.params.press.overloadLimit } })
    ∧ (s.train.conditioning.isRunning = true → ∃ u, Becomes .condLow s u
        ∧ Raised .condLow (s.press.batch.map Batch.number) s u ∧ heldIn s.press u.press ∧ u.train = s.train
        ∧ (∀ t, s.train.steam.last = some t → u.free = s.free ∧ Reported .condLow [.word t] s u)
        ∧ (s.train.steam.last = none → ∃ k, Reported .condLow [.freeWord k] s u)))
  ∧ (∀ s u t : State, t = settled s u →
    (∀ i, (stageOf i t).state = .held → stageBarred i t = true)
    ∧ (∀ i, (stageOf i u).state = .held → stageBarred i u = false →
        (∀ p, (stageOf i u).resume = some (.phase p) →
          stageOf i t = StageRec.busyIn p (stageOf i u).batch (stageOf i u).dest
          ∧ (i = .surge → p = .grinding → u.line = .run → t.train.grinder.mode = .running
              ∧ t.train.grinder.speed = u.params.grinder.startSpeed)
          ∧ (i = .press → p = .pressing → u.line = .run → u.train.steam.inBand = true → t.train.presser.mode = .running
              ∧ t.train.presser.speed = u.params.press.startSpeed))
        ∧ ((stageOf i u).resume = some .empty → u.line ≠ .run → stageOf i t = StageRec.ofState .empty))
    ∧ (ready u = true →
        (t.surge.state = .held → t.pins.grinderFeed = 0) ∧ (t.press.state = .held → t.pins.pressFeed = 0)
        ∧ (t.mixer.state = .held → t.pins.mixerDischarge = false)))

/-- R107, R109, R114, R116, R117, R119, R120, R121: after every event each timer of the train runs exactly while its
condition holds, started in full (notes/assumptions/6.md); the mix time is frozen off RUN, the discharge timeout while
STOPPED. R8, R107, R109, R112, R114, R117, R120, R121: the runouts and the mix time of the train; a record that leaves
for the finished bin is reported retired into it. R8: a batch retired into the finished bin, not flagged REWORK,
counts in its order's plan; no other retirement does. -/
def Obligations.TrainRunoutsPassBatch : Prop :=
  (∀ s u t : State, t = settled s u →
    let runs := t.line = .run
    let flows := t.line ≠ .stopped
    let busy (r : StageRec) (p : Phase) : Prop := r.state = .busy ∧ r.phase = some p
    let p := t.params
    let before := u.train
    let after := t.train
    RunsWhile (busy t.surge .grinding ∧ runs ∧ t.inputs.surgeEmpty = true) p.grindRunout before.grindRunout
      after.grindRunout
    ∧ FreezesOff (busy t.mixer .mixing) runs p.mixTime before.mix after.mix
    ∧ RunsWhile (busy t.mixer .discharging ∧ flows ∧ t.inputs.mixerEmpty = true) p.mixerRunout before.mixerRunout
        after.mixerRunout
    ∧ FreezesOff (busy t.mixer .discharging) flows p.dischargeTimeout before.dischargeLimit after.dischargeLimit
    ∧ RunsWhile (busy t.press .pressing ∧ runs ∧ t.inputs.pressBinEmpty = true) p.pressRunout before.pressRunout
        after.pressRunout
    ∧ RunsWhile (busy t.press .pressing ∧ runs ∧ t.train.steam.inBand = false ∧ t.inputs.pressBinEmpty = false)
        p.condTimeout before.conditioning after.conditioning
    ∧ RunsWhile (busy t.surge .dumping ∧ flows ∧ t.inputs.surgeEmpty = true) p.grindRunout before.surgeDump
        after.surgeDump
    ∧ RunsWhile (busy t.mixer .dumping ∧ flows ∧ t.inputs.mixerEmpty = true) p.mixerRunout before.mixerDump
        after.mixerDump
    ∧ RunsWhile (busy t.press .dumping ∧ flows ∧ t.inputs.pressBinEmpty = true) p.pressRunout before.pressDump
        after.pressDump
    ∧ RunsWhile (t.fin.dumping = true ∧ flows ∧ t.finConv.stable = true
        ∧ ∃ w, t.finConv.weight = some w ∧ (p.emptyBand : Int) < w) p.settleTimeout before.finishedDump
        after.finishedDump)
  ∧ (∀ s : State, ready s = true →
    (s.train.grindRunout.isRunning = true → ∃ u, Becomes .grindRunoutExpiry s u
        ∧ u.surge = StageRec.ofState .empty ∧ u.mixer = StageRec.busyIn .mixing s.surge.batch none
        ∧ u.train.grinder.mode = .idle ∧ u.train.grinder.speed = 0)
    ∧ (s.train.mix.isRunning = true → Becomes .mixTimerExpiry s
        { s with mixer := { state := .done, phase := none, batch := s.mixer.batch, dest := none, resume := none } })
    ∧ (s.train.mixerRunout.isRunning = true → ∃ u, Becomes .mixerRunoutExpiry s u ∧ u.mixer = StageRec.ofState .empty
        ∧ (s.mixer.dest = some .press → u.press.state = .done ∧ u.press.batch = s.mixer.batch ∧ u.slots = s.slots)
        ∧ (s.mixer.dest = some .finished → u.press = s.press ∧ u.fin = { s.fin with entering := false }
            ∧ (∀ b, s.mixer.batch = some b → u.slots = (reportRetired true b s).slots)
            ∧ (s.mixer.batch = none → u.slots = s.slots))
        ∧ (s.mixer.dest = some .rework → u.press = s.press ∧ u.fin = s.fin ∧ u.slots = s.slots))
    ∧ (s.train.pressRunout.isRunning = true → ∃ u, Becomes .pressRunoutExpiry s u ∧ u.press = StageRec.ofState .empty
        ∧ u.train.presser.mode = .idle ∧ u.train.steam = { s.train.steam with running := false }
        ∧ (s.press.dest = some .finished → u.fin = { s.fin with entering := false }
            ∧ (∀ b, s.press.batch = some b → u.slots = (reportRetired true b s).slots)
            ∧ (s.press.batch = none → u.slots = s.slots))
        ∧ (s.press.dest = some .rework → u.fin = s.fin ∧ u.slots = s.slots))
    ∧ (∀ i, dumpRuns i s = true → ∃ u, Becomes (.dumpRunoutExpiry i) s u ∧ u.slots = s.slots
        ∧ (stageBarred i s = false → stageOf i u = StageRec.ofState .empty)
        ∧ (stageBarred i s = true → (stageOf i u).state = .held ∧ (stageOf i u).resume = some .empty
            ∧ (stageOf i u).batch = none))
    ∧ (s.train.finishedDump.isRunning = true → Becomes .finishedDumpTimerExpiry s
        { s with fin := { s.fin with dumping := false, order := none, cancelled := false, unknown := false }
                 bagger := { s.bagger with mode := .bagging } }))
  ∧ (∀ (s : State) (b : Batch) (into : Bool),
    reportRetired into b s =
      (if b.kind = .product ∧ into = true ∧ b.rework = false then
        { s with slots := s.slots.map (fun o =>
            if b.order = some o.id then
              { o with plan := { o.plan with finished := o.plan.finished + 1
                                             massFinished := min 16777215 (o.plan.massFinished + b.mass) } }
            else o) }
       else s))

/-- R106, R110, R113, R115: a transfer begins at the first event after which its conditions hold; a batch enters the
finished bin only through its open gate, and one of class FLUSH or flagged REWORK never does. R62, R71, R81, R105,
R106, R111, R113, R115, R146, R149, R150: at the close of an event on a line that is RUN, a grind, a mixer discharge,
a press, the scale's discharge, a jog pulse of either scale and a discharge of the bucket begin where their conditions
hold. -/
def Obligations.WorkBeginsWhenFree : Prop :=
  (∀ s : State,
    (s.surge.state = .done → s.mixer.state = .empty → s.line = .run →
        (beginGrind s).surge = StageRec.busyIn .grinding s.surge.batch (some .mixer)
        ∧ (beginGrind s).mixer = StageRec.busyIn .receiving none none)
    ∧ (s.surge.state ≠ .done ∨ s.mixer.state ≠ .empty ∨ s.line ≠ .run → beginGrind s = s)
    ∧ (∀ b, s.mixer.batch = some b → s.mixer.state = .done → s.line = .run →
        let dest : Dest := if b.rework = true ∨ (b.kind = .flush ∧ b.form = .mash) then .rework
          else if b.form = .pellet then .press else .finished
        (dest = .press → s.press.state = .empty → (beginDischargeMixer s).press = StageRec.busyIn .receiving none none)
        ∧ (dest = .press → s.press.state ≠ .empty → beginDischargeMixer s = s)
        ∧ (dest ≠ .press → s.press.batch ≠ none → beginDischargeMixer s = s)
        ∧ (dest = .finished → gateOpenFor b s = false → beginDischargeMixer s = s)
        ∧ ((dest = .press ∧ s.press.state = .empty) ∨ (dest = .rework ∧ s.press.batch = none)
            ∨ (dest = .finished ∧ s.press.batch = none ∧ gateOpenFor b s = true) →
            (beginDischargeMixer s).mixer = StageRec.busyIn .discharging (some b) (some dest)))
    ∧ (∀ b, s.press.batch = some b → s.press.state = .done → s.line = .run →
        let rework := b.kind = .flush ∨ b.rework = true
        (rework ∨ gateOpenFor b s = true →
            (beginPress s).press = StageRec.busyIn .pressing (some b) (some (if rework then .rework else .finished))
            ∧ (beginPress s).train.steam.running = true ∧ (beginPress s).train.steam.inBand = false)
        ∧ (¬rework → gateOpenFor b s = false → beginPress s = s)
        ∧ (rework → (beginPress s).fin = s.fin))
    ∧ (∀ (b : Batch) (id : Nat), b.order = some id → (gateOpenFor b s = true ↔
        s.fin.unknown = false ∧ s.fin.dumping = false ∧ s.fin.entering = false
        ∧ (s.fin.order = none ∨ (s.fin.order = some id ∧ s.fin.cancelled = false))
        ∧ s.finConv.weight ≠ none ∧ s.fin.mass.getD 0 + b.mass ≤ s.params.finishedCapacity)))
  ∧ (∀ s u t : State, u.line = .run → t = settled s u →
    (u.surge.state = .done → u.mixer.state = .empty →
        t.surge = StageRec.busyIn .grinding u.surge.batch (some .mixer) ∧ t.mixer = StageRec.busyIn .receiving none none
        ∧ (u.train.grinder.mode = .idle → t.train.grinder.mode = .running
            ∧ t.train.grinder.speed = u.params.grinder.startSpeed))
    ∧ (∀ b, u.mixer.batch = some b → u.mixer.state = .done →
        (mixerDest b = .press → u.press.state = .empty →
          t.mixer = StageRec.busyIn .discharging (some b) (some .press) ∧ t.press = StageRec.busyIn .receiving none none)
        ∧ (mixerDest b = .rework → u.press.batch = none →
          t.mixer = StageRec.busyIn .discharging (some b) (some .rework))
        ∧ (mixerDest b = .finished → u.press.batch = none → gateOpenFor b u = true →
          t.mixer = StageRec.busyIn .discharging (some b) (some .finished) ∧ t.fin.entering = true
          ∧ t.fin.order = (if u.fin.order.isSome then u.fin.order else b.order)))
    ∧ (∀ b, u.press.batch = some b → u.press.state = .done →
        (b.kind = .flush ∨ b.rework = true → t.press = StageRec.busyIn .pressing (some b) (some .rework))
        ∧ (b.kind ≠ .flush → b.rework = false → gateOpenFor b u = true →
          t.press = StageRec.busyIn .pressing (some b) (some .finished) ∧ t.fin.entering = true
          ∧ t.fin.order = (if u.fin.order.isSome then u.fin.order else b.order))
        ∧ (b.kind = .flush ∨ b.rework = true ∨ gateOpenFor b u = true → t.train.steam.running = true
          ∧ t.train.steam.target = some (if b.kind = .flush then u.params.flushTemperature else b.target.getD 0)))
    ∧ (u.scale.state = .complete → u.surge.state = .empty →
        t.scale.state = .discharge ∧ t.scale.net = netMass u ∧ t.surge = StageRec.busyIn .receiving none none)
    ∧ (u.scale.state = .jog false → t.scale.state = .jog true)
    ∧ (u.bagger.bucket = .jog false → permitsDrawing u = true → t.bagger.bucket = .jog true)
    ∧ (∀ c, u.bagger.bucket = .charged → u.bagger.charge = some c →
        (c.outlet = .bag → u.bagger.spout = .ready →
          t.bagger.bucket = .discharging ∧ t.bagger.spout = .receiving
          ∧ t.bagger.discharge = .running u.params.settleTimeout)
        ∧ (c.outlet = .chute → t.bagger.bucket = .discharging ∧ t.bagger.spout = u.bagger.spout
          ∧ t.bagger.discharge = .running u.params.settleTimeout))
    ∧ (u.bagger.bucket = .unknown false → t.bagger.bucket = .unknown true
        ∧ t.bagger.discharge = .running u.params.settleTimeout)
    ∧ (∀ b m w, u.scale.batch = some b → b.firstTare = some m → u.scaleConv.weight = some w →
        (netMass u : Int) = max 0 (min 16777215 (w - m))))

/-- R89, R111, R121, R173, R174, R175: a sample of the finished bin: the mass from the first filtered weight on, the
record going empty (CANCELLED too: the model's choice, notes/assumptions/32.md), the end of a dump, the opening of the
spout where no step stands, the close of a spout, with the record going empty at a close EMPTY, the end of its settle
by a stable sample. That a settle which a sample's own event begins waits for the next one is the model's choice
(notes/assumptions/41.md). The order in which one sample drives these, and that a dump ends in every line state, are
the model's reading (notes/assumptions/27.md, 20.md). R172, R173: at a sample the spout opens into the target of the
own hold where every condition holds, and not otherwise. -/
def Obligations.FinishedBinAndSpoutFollowSamples : Prop :=
  (∀ (s : State) (n : BitVec 24), ready s = true →
    let v := s.finConv.sample s.params.stableBand n.toInt
    (v.weight = none → Becomes (.finishedBinSample n) s { s with finConv := v })
    ∧ ∀ w, v.weight = some w →
      let mass := some (min 16777215 w.toNat)
      let low := -(s.params.emptyBand : Int) ≤ w ∧ w ≤ s.params.emptyBand
      let goesEmpty := low ∧ s.fin.entering = false ∧ s.fin.dumping = false ∧ s.fin.unknown = false
      let dumped := low ∧ s.fin.dumping = true ∧ v.stable = true
      let u0 : State :=
        if dumped then
          { s with finConv := v, bagger := { s.bagger with mode := .bagging }
                   fin := { s.fin with mass := mass, order := none, cancelled := false, dumping := false
                                       unknown := false } }
        else if goesEmpty then
          { s with finConv := v, fin := { s.fin with mass := mass, order := none, cancelled := false } }
        else { s with finConv := v, fin := { s.fin with mass := mass } }
      (s.step = none → Becomes (.finishedBinSample n) s (trySpout u0) ∧ (s.hold.state ≠ .held → trySpout u0 = u0))
      ∧ (∀ st, s.step = some st → st.cause ≠ none → v.stable = false → Becomes (.finishedBinSample n) s u0)
      ∧ (∀ st, s.step = some st → st.cause ≠ none → v.stable = true → ∃ u, Becomes (.finishedBinSample n) s u
          ∧ u.step = none ∧ u.stepTimer = .stopped ∧ u.finConv = v ∧ u.fin = u0.fin
          ∧ (s.hold.state = .held → u.hold = OwnHold.blank) ∧ (s.hold.state ≠ .held → u.hold = s.hold ∧ u.tx = s.tx)
          ∧ ((s.trucks.map Truck.truck).Nodup → ∀ c, findComp st.truck st.comp s = some c →
            let takes := c.order = some st.order ∧ (c.state = .loading ∨ c.state = .full)
            (takes → findComp st.truck st.comp u = some { c with
              mass := min 16777215 (st.base + min 16777215 (st.weight - w).toNat) })
            ∧ (¬takes → findComp st.truck st.comp u = some c)))
      ∧ ∀ st c, s.step = some st → st.cause = none → (s.trucks.map Truck.truck).Nodup →
          findComp st.truck st.comp s = some c →
          let loaded := min 16777215 (st.base + min 16777215 (st.weight - w).toNat)
          let full := c.capacity ≤ loaded + s.params.spoutF
          ∃ u, Becomes (.finishedBinSample n) s u ∧ u.finConv = v ∧ u.fin = u0.fin ∧ u.bagger = u0.bagger
            ∧ (low ∨ full → u.stepTimer = .running s.params.settleTimeout)
            ∧ (low → u.step = some { st with cause := some .empty }
                ∧ findComp st.truck st.comp u = some { c with mass := loaded })
            ∧ (¬low → full → u.step = some { st with cause := some .full } ∧ standing .compartmentFull u = true
                ∧ findComp st.truck st.comp u = some { c with mass := loaded, state := .full })
            ∧ (¬low → ¬full → u.step = some st ∧ findComp st.truck st.comp u = some { c with mass := loaded }))
  ∧ (∀ s : State,
    (spoutAllowed s = true ↔ s.straps.loadout = true ∧ s.hold.state = .held ∧ s.params.guardTime < s.hold.remaining
      ∧ s.step = none ∧ s.hold.stepped = false ∧ s.line = .run ∧ unitHeld .loadout s = false
      ∧ permitsDrawing s = true ∧ s.fin.entering = false ∧ s.finConv.stable = true
      ∧ (∃ w, s.finConv.weight = some w ∧ (s.params.emptyBand : Int) < w)
      ∧ ∃ id o, s.fin.order = some id ∧ findOrder id s = some o ∧ o.bagged = false ∧ o.cancelled = false)
    ∧ (spoutAllowed s = false ∨ holdQualifies s = false → trySpout s = s)
    ∧ ∀ w id truck number c, s.finConv.weight = some w → s.fin.order = some id → s.hold.truck = some truck →
        s.hold.comp = some number → findComp truck number s = some c → spoutAllowed s = true →
        holdQualifies s = true → (s.trucks.map Truck.truck).Nodup →
        let u := trySpout s
        u.step = some { truck := truck, comp := number, order := id, weight := w, base := c.mass, cause := none }
          ∧ spoutOpen u = true ∧ u.hold = { s.hold with loading := true, stepped := true }
          ∧ findComp truck number u = some { c with state := .loading })

/-! ### The Packing Unit -/

/-- R142, R143, R144, R145, R147, R149, R150, R156: a sample of the bagger's bucket, by the bucket's state: the begin
of a charge, of an order and on a line that allow it, the auto-zero wherever none begins, the cutoffs, the judgement
of a first, a jog or a resume settle, the end of a discharge. At a resume settle the close point is tested before the
switch point (notes/assumptions/16.md). That a state entered by the sample waits for the next one is the model's
choice (notes/assumptions/41.md), that a discharge ends in every line state its reading (notes/assumptions/20.md). -/
def Obligations.BucketSamplesFollowState : Prop :=
  ∀ (s : State) (n : BitVec 24), ready s = true → s.straps.bagger = true →
    let v := s.bucketConv.sample s.params.stableBand n.toInt
    let s1 : State := { s with bucketConv := v }
    (∀ o, chargeOrder s = some o ↔ ∃ id size bags, s.fin.order = some id ∧ findOrder id s = some o
      ∧ o.delivery = .bagged size bags ∧ o.cancelled = false ∧ o.plan.bags < bags ∧ size ≤ s.fin.mass.getD 0)
    ∧ (s.bagger.bucket ∈ [.jog false, .jog true, .charged, .unknown false] → Becomes (.bucketSample n) s s1)
    ∧ (s.bagger.bucket = .empty → v.stable = false → Becomes (.bucketSample n) s s1)
    ∧ (s.bagger.bucket = .empty → v.stable = true → ∀ o w, chargeOrder s = some o → v.weight = some w →
        s.bagger.mode = .bagging → permitsDrawing s = true → s.line = .run → Becomes (.bucketSample n) s
          { s1 with bagger := { s.bagger with
              charge := some { order := o.id, target := o.bagSize, tare := w, jogOnly := decide (o.bagSize ≤ s.bagger.inFlight)
                               jogs := if o.bagSize ≤ s.bagger.inFlight then 1 else 0, e1 := none, interrupted := false
                               outlet := .bag, cause := none }
              bucket := if o.bagSize ≤ s.bagger.inFlight then .jog false
                else .filling (decide (s.params.baggerSlow < o.bagSize)) } })
    ∧ (s.bagger.bucket = .empty → v.stable = true →
        chargeOrder s = none ∨ s.bagger.mode ≠ .bagging ∨ permitsDrawing s = false ∨ s.line ≠ .run → ∀ g, v.lastGross = some g →
        Becomes (.bucketSample n) s
          (if s.bagger.zeroed = false ∧ -(s.params.zeroBand : Int) ≤ g ∧ g ≤ s.params.zeroBand
            then { s with bucketConv := { v with zero := (v.raw.sum + 4) / 8 }, bagger := { s.bagger with zeroed := true } }
            else s1))
    ∧ (∀ c w, s.bagger.charge = some c → v.weight = some w →
        let closes := (c.target : Int) - s.bagger.inFlight ≤ w - c.tare
        let slows := (c.target : Int) - s.params.baggerSlow ≤ w - c.tare
        let shut : Bucket := .settling (if c.interrupted then .resume else .first)
        (s.bagger.bucket = .filling true → Becomes (.bucketSample n) s
            (if closes then setBucket shut s1 else if slows then setBucket (.filling false) s1 else s1))
        ∧ (s.bagger.bucket = .filling false → Becomes (.bucketSample n) s (if closes then setBucket shut s1 else s1))
        ∧ ∀ p, s.bagger.bucket = .settling p →
          let runs := s.line = .run ∨ (s.line = .pausing ∧ p ≠ .resume)
          let judged := v.stable = true ∧ runs ∧ (p = .resume → closes ∨ permitsDrawing s = false)
          let e : Int := w - c.tare - c.target
          let c1 : Charge := if p = .first then { c with e1 := some e } else c
          let flight : Nat := if c.jogOnly = false ∧ c.interrupted = false then
            (c1.e1.map (adapt s.params.adaptGain s.params.baggerFMax s.bagger.inFlight)).getD s.bagger.inFlight
            else s.bagger.inFlight
          let jogs := e < -(s.params.bagTolerance : Int) ∧ c.jogs < s.params.baggerJogLimit ∧ permitsDrawing s = true
          let within_ := -(s.params.bagTolerance : Int) ≤ e ∧ e ≤ s.params.bagTolerance
          (v.stable = false ∨ ¬runs → Becomes (.bucketSample n) s s1)
          ∧ (v.stable = true → runs → ¬judged → Becomes (.bucketSample n) s
              (setBucket (.filling (decide (w - c.tare < (c.target : Int) - s.params.baggerSlow))) s1))
          ∧ (judged → within_ → Becomes (.bucketSample n) s
              { s1 with bagger := { s.bagger with bucket := .charged, charge := some c1, inFlight := flight } })
          ∧ (judged → jogs → Becomes (.bucketSample n) s
              { s1 with bagger := { s.bagger with bucket := .jog false, charge := some { c1 with jogs := c.jogs + 1 } } })
          ∧ (judged → ¬within_ → ¬jogs → ∃ u, Becomes (.bucketSample n) s u
              ∧ u.bagger = { s.bagger with
                  bucket := .charged, inFlight := flight
                  charge := some { c1 with outlet := .chute, cause := some .reject } }
              ∧ Raised .chargeReject (some c.order) s u ∧ Reported .chargeReject [.wide e] s u))
    ∧ ∀ w, v.weight = some w → s.bagger.bucket = .discharging ∨ s.bagger.bucket = .unknown true →
      let ended := (-(s.params.emptyBand : Int) ≤ w ∧ w ≤ s.params.emptyBand)
        ∨ (s.bagger.discharge = .expired ∧ v.stable = true)
      let emptied : Bagger :=
        { s.bagger with bucket := .empty, charge := none, zeroed := false, discharge := .stopped }
      (¬ended → Becomes (.bucketSample n) s s1)
      ∧ (ended → s.bagger.bucket = .unknown true → Becomes (.bucketSample n) s { s1 with bagger := emptied })
      ∧ (∀ c, ended → s.bagger.bucket = .discharging → s.bagger.charge = some c →
          (c.outlet = .chute → Becomes (.bucketSample n) s { s1 with bagger := emptied })
          ∧ (c.outlet = .bag → Becomes (.bucketSample n) s
              (countBag c.order { s1 with bagger := { emptied with spout := .filled } })))

/-- R7, R9, R11, R118, R152: a bag raises its order's count, never above the bags of a run; the last one completes the
run: its notice, its reservations released and, for a further run, made anew, its records in the pipeline flagged
REWORK, an open outflow switched, and the bagger in BAG_END with a clearance where the finished bin's record names the
order. That the run's notice stands first among the frames of the event, before RESIDUE, is the model's order
(notes/assumptions/5.md). A bag reported for an order that is not held, cancelled or BULK is not counted; that one
reported for a CLAIMING order is not either is the model's reading (notes/assumptions/18.md). R153: the clearance of a
remainder begins where its conditions hold, and after no event do they still stand. That it needs a node with a bagger
is the model's reading (notes/assumptions/14.md). -/
def Obligations.BagsCountToRunCompletion : Prop :=
  ((∀ (s : State) (id : Nat), (∀ o, findOrder id s = some o → o.state = .claiming ∨ o.cancelled = true
      ∨ ∃ m, o.delivery = .bulk m) → countBag id s = s)
  ∧ ∀ (s : State) (o : Order) (size bags : Nat), KeysDistinct s → findOrder o.id s = some o → o.state ≠ .claiming →
    o.delivery = .bagged size bags → o.cancelled = false →
    let u := countBag o.id s
    let count := if o.runCount = 255 then 255 else o.runCount - 1
    let done (n : Notice) : Prop := s.tx.length < 8 → (∀ b, scaleRecord s = some b → b.order ≠ some o.id) →
      ∃ rest, u.tx = s.tx ++ OutEntry.fresh (.notice n) :: rest
    (bags ≤ o.plan.bags → u = s)
    ∧ (o.plan.bags + 1 < bags → u = { s with slots := s.slots.map (fun x =>
        if x.id = o.id then { x with plan := { x.plan with bags := x.plan.bags + 1 } } else x) })
    ∧ (o.plan.bags + 1 = bags →
        (∀ b ∈ pipeline u, b.order = some o.id → b.rework = true)
        ∧ (feedsFinished o.id .discharging s.mixer → u.mixer = { flagged o.id s.mixer with dest := some .rework })
        ∧ (feedsFinished o.id .pressing s.press → u.press = { flagged o.id s.press with dest := some .rework })
        ∧ (feedsFinished o.id .discharging s.mixer ∨ feedsFinished o.id .pressing s.press → u.fin.entering = false)
        ∧ (o.runCount ≤ 1 → findOrder o.id u = none ∧ done (.orderDone o.id bags o.plan.finished)
            ∧ Releases [o] s.reservations u.reservations)
        ∧ (2 ≤ o.runCount → done (.runDone o.id count bags o.plan.finished)
            ∧ ∃ w, findOrder o.id u = some w ∧ w.state = .held ∧ w.plan.bags = 0 ∧ w.plan.admitted = 0
            ∧ w.plan.finished = 0 ∧ w.plan.massFinished = 0 ∧ w.waits = ⟨false, false, false, false, false⟩
            ∧ w.plan.makeUp = none ∧ w.plan.n = some (splitCount o.runMass s.params.batchSize)
            ∧ w.runCount = count ∧ w.takeOrder = o.takeOrder ∧ w.started = o.started
            ∧ ∃ freed, Releases [o] s.reservations freed ∧ freed.length ≤ s.reservations.length
                ∧ Reserves (machineParts o.runMass o.formula) freed u.reservations w.remainders)
        ∧ (s.fin.order = some o.id → u.bagger.mode = .bagEnd ∧ u.fin.dumping = true
            ∧ (∀ m, s.fin.mass = some m → s.params.emptyBand < m → Raised .residue (some o.id) s u))
        ∧ (s.fin.order ≠ some o.id → u.bagger.mode = s.bagger.mode ∧ u.fin.dumping = s.fin.dumping)))
  ∧ (let due (s : State) (m : Nat) : Prop :=
    s.straps.bagger = true ∧ s.bagger.mode = .bagging ∧ s.bagger.bucket = .empty ∧ s.line = .run
      ∧ s.fin.cancelled = false ∧ s.fin.unknown = false ∧ s.fin.entering = false ∧ s.fin.dumping = false
      ∧ s.fin.mass = some m ∧ s.params.emptyBand < m
      ∧ ∃ id, s.fin.order = some id ∧ (findOrder id s = none ∨ ∃ o, findOrder id s = some o ∧ o.bagged = true
          ∧ o.state = .held ∧ inPipeline id s = false ∧ m < o.bagSize)
  (∀ s : State, (∀ m, ¬due s m) → beginRemainder s = s)
  ∧ (∀ (s : State) (m : Nat), due s m →
      let u := beginRemainder s
      u.bagger = { s.bagger with mode := .remainder } ∧ u.fin = { s.fin with dumping := true }
      ∧ Raised .residue s.fin.order s u ∧ Reported .residue [.mass m] s u)
  ∧ ∀ (s u : State) (m : Nat), ¬due (settled s u) m)

/-- R144, R145, R146, R149, R150, R156: after every event each timer of the bagger runs exactly while its condition
holds, started in full (notes/assumptions/6.md); that of a discharge is frozen while the line is STOPPED, the gates
being shut. R144, R145, R146, R149, R150: the bagger's timers run out. R144, R146: where the finished bin's record
ceases to permit drawing, a charge being filled is closed and interrupted, a running pulse ended, and a charge whose
pulse is pending rejected; and so it is at the close of the event. R168, R173, R174, R175: the timers of the loadout
run out; no step outlasts an event after which a transfer into the finished bin or a dump of it stands, begun in its
close too; a close of the spout starts the settle timer. -/
def Obligations.PackingTimersExpire : Prop :=
  (∀ s u t : State, t = settled s u →
    let moves := t.line = .run ∨ t.line = .pausing
    let empties (b : Bucket) : Prop := b = .discharging ∨ b = .unknown true
    let x := t.bagger
    RunsWhile ((∃ fast, x.bucket = .filling fast) ∧ moves) t.params.chargeLimit u.bagger.fill x.fill
    ∧ RunsWhile ((∃ p, x.bucket = .settling p) ∧ moves) t.params.settleTimeout u.bagger.settle x.settle
    ∧ RunsWhile (x.bucket = .jog true) t.params.baggerJogTime u.bagger.jog x.jog
    ∧ (empties u.bagger.bucket → FreezesOff (empties x.bucket) (t.line ≠ .stopped) t.params.settleTimeout
        u.bagger.discharge x.discharge)
    ∧ (¬empties u.bagger.bucket → empties x.bucket → x.discharge = .running t.params.settleTimeout)
    ∧ (¬empties x.bucket → x.discharge = .stopped))
  ∧ (∀ s : State, ready s = true →
    (s.bagger.fill.isRunning = true → Becomes .fillTimerExpiry s
        { s with bagger := { s.bagger with
            bucket := .settling .first, charge := s.bagger.charge.map (fun c => { c with interrupted := true }) } })
    ∧ (s.bagger.jog.isRunning = true →
        Becomes .baggerJogTimerExpiry s { s with bagger := { s.bagger with bucket := .settling .jog } })
    ∧ (s.bagger.discharge.isRunning = true →
        Becomes .dischargeTimerExpiry s { s with bagger := { s.bagger with discharge := .expired } })
    ∧ (∀ c, s.bagger.settle.isRunning = true → s.bagger.charge = some c → ∃ u, Becomes .baggerSettleTimeout s u
        ∧ u.bagger = { s.bagger with
            bucket := .charged
            charge := some { c with interrupted := true, outlet := .chute, cause := some .reject } }
        ∧ standing .chargeReject u = true ∧ u.bins = s.bins ∧ u.slots = s.slots))
  ∧ ((∀ s : State, permitsDrawing s = true ↔ (∃ id, s.fin.order = some id) ∧ s.fin.cancelled = false
      ∧ s.fin.unknown = false ∧ s.fin.dumping = false)
  ∧ (∀ s : State, permitsDrawing s = true → watchPermission s = s)
  ∧ ∀ (s : State) (c : Charge), permitsDrawing s = false → s.bagger.charge = some c →
    let u := watchPermission s
    let settles (p : BucketPurpose) : State := { s with bagger := { s.bagger with
      bucket := .settling p, charge := some { c with interrupted := true } } }
    (∀ fast, s.bagger.bucket = .filling fast → u = settles .first)
    ∧ (s.bagger.bucket = .jog true → u = settles .jog)
    ∧ (s.bagger.bucket = .jog false → u.bagger.bucket = .charged
        ∧ u.bagger.charge = some { c with outlet := .chute, cause := some .reject }
        ∧ Raised .chargeReject (some c.order) s u)
    ∧ (s.bagger.bucket ∉ [.filling true, .filling false, .jog true, .jog false] → u = s)
    ∧ ∀ q t : State, t = settled q s →
      (∀ fast, s.bagger.bucket = .filling fast →
          t.bagger.bucket = .settling .first ∧ t.bagger.charge = some { c with interrupted := true })
      ∧ (s.bagger.bucket = .jog true →
          t.bagger.bucket = .settling .jog ∧ t.bagger.charge = some { c with interrupted := true })
      ∧ (s.bagger.bucket = .jog false → t.bagger.bucket = (if s.line = .run then .discharging else .charged)
          ∧ t.bagger.charge = some { c with outlet := .chute, cause := some .reject }))
  ∧ ((∀ s u t : State, t = settled s u →
      u.fin.entering = true ∨ u.fin.dumping = true ∨ t.fin.entering = true ∨ t.fin.dumping = true → t.step = none)
  ∧ (∀ (s : State) (st : LoadStep) (cause : CloseCause), s.step = some st → st.cause = none → closeSpout cause s =
      { s with step := some { st with cause := some cause }, stepTimer := .running s.params.settleTimeout })
  ∧ ∀ s : State, ready s = true →
    (s.hold.contention.isRunning = true → Becomes .contentionTimerExpiry s
        { s with hold := { s.hold with state := .held, contention := .stopped
                                       renewal := .running s.params.renewalPeriod } })
    ∧ (s.hold.renewal.isRunning = true →
        let again : State := { s with hold := { s.hold with renewal := .running s.params.renewalPeriod } }
        (holdQueued s = true → Becomes .renewalTimerExpiry s again)
        ∧ (holdQueued s = false → ∀ bay truck, s.hold.bay = some bay → s.hold.truck = some truck →
            Becomes .renewalTimerExpiry s
              (queueHold (.bayHold bay truck s.params.holdDuration s.hold.loading)
                { again with bays := s.bays.modify (bay - 1) (fun _ =>
                    { holder := some s.straps.node, remaining := s.params.holdDuration }) })))
    ∧ (∀ st, s.stepTimer.isRunning = true → s.step = some st → ∃ u, Becomes .loadoutSettleTimeout s u
        ∧ u.step = none ∧ u.stepTimer = .stopped
        ∧ (s.hold.state = .held → u.hold = OwnHold.blank)
        ∧ (s.hold.state = .nothing → u.tx = s.tx ∧ u.bays = s.bays)
        ∧ ((s.trucks.map Truck.truck).Nodup → ∀ c w, findComp st.truck st.comp s = some c → s.finConv.weight = some w →
            c.order = some st.order → c.state = .loading ∨ c.state = .full →
            findComp st.truck st.comp u = some { c with
              mass := min 16777215 (st.base + min 16777215 (st.weight - w).toNat) })))

/-! ### Invariants -/

/-- R62, R186, R205, R206: after every step each output stands as the state calls for. R62, R73, R81, R82, R97, R99,
R108, R113, R115, R119, R121, R141, R149, R150, R167, R172, R182: what each output is while the node takes events: the
channel of the component in progress, the gates, closed while the line is STOPPED, feeder figures, steam valve,
motors, bagger, spout, and the HAND_ADD and BAY lamps. A diverter stands to its destination from the begin of a
discharge or press to its end (notes/assumptions/33.md). -/
def Obligations.OutputsFollowEveryStep : Prop :=
  (∀ s t : State, OutputsFollow s → step s = .next t → OutputsFollow t)
  ∧ (∀ s : State, ready s = true → OutputsFollow s →
    let o := s.pins
    let flows := s.line ≠ .stopped
    let busy (r : StageRec) (p : Phase) : Prop := r.state = .busy ∧ r.phase = some p
    let standsIn (r : StageRec) (p : Phase) : Prop := (r.state = .busy ∨ r.state = .held) ∧ r.phase = some p
    let discharges (out : Outlet) : Prop := s.bagger.bucket = .discharging ∧ ∃ c, s.bagger.charge = some c ∧ c.outlet = out
    o.channels.length = s.channels.length
    ∧ (∀ (i : Nat) (c : Channel), s.channels[i]? = some c →
        let inUse := ∃ d e x, curDose s = some d ∧ planEntry d.position s = some e ∧ channelOfBin e.bin s = some x
          ∧ x.number = c.number
        (inUse → s.scale.state = .feedFast → o.channels[i]? = some .fast)
        ∧ (inUse → s.scale.state = .feedSlow ∨ s.scale.state = .jog true → o.channels[i]? = some .slow)
        ∧ (¬inUse ∨ s.scale.state ∉ [.feedFast, .feedSlow, .jog true] → o.channels[i]? = some .off))
    ∧ (o.scaleDischarge = true ↔ s.scale.state = .discharge ∧ flows)
    ∧ (o.scaleDump = true ↔ s.scale.state = .dumping ∧ flows)
    ∧ (busy s.surge .grinding → o.grinderFeed = s.train.grinder.speed) ∧ (¬busy s.surge .grinding → o.grinderFeed = 0)
    ∧ (busy s.press .pressing → o.pressFeed = s.train.presser.speed) ∧ (¬busy s.press .pressing → o.pressFeed = 0)
    ∧ o.steamValve = (if s.train.steam.running then s.train.steam.valve else 0)
    ∧ (o.grinderMotor = true ↔ s.train.motorsHeld = false ∧ standsIn s.surge .grinding)
    ∧ (o.mixerMotor = true ↔ s.train.motorsHeld = false ∧ s.mixer.state ∈ [.busy, .done, .held])
    ∧ (o.pressMotor = true ↔ s.train.motorsHeld = false ∧ standsIn s.press .pressing) ∧ o.cooler = o.pressMotor
    ∧ (o.mixerDischarge = true ↔ busy s.mixer .discharging ∧ flows)
    ∧ (standsIn s.mixer .discharging → o.mixerDiverter = s.mixer.dest)
    ∧ (¬standsIn s.mixer .discharging → o.mixerDiverter = none)
    ∧ (standsIn s.press .pressing → o.pressDiverter = s.press.dest)
    ∧ (¬standsIn s.press .pressing → o.pressDiverter = none)
    ∧ (o.surgeDump = true ↔ busy s.surge .dumping ∧ flows) ∧ (o.mixerDump = true ↔ busy s.mixer .dumping ∧ flows)
    ∧ (o.pressDump = true ↔ busy s.press .dumping ∧ flows) ∧ (o.finishedDump = true ↔ s.fin.dumping = true ∧ flows)
    ∧ (s.straps.bagger = true →
        (s.bagger.bucket = .filling true → o.bagFeeder = .fast)
        ∧ (s.bagger.bucket = .filling false ∨ s.bagger.bucket = .jog true → o.bagFeeder = .slow)
        ∧ (s.bagger.bucket ∉ [.filling true, .filling false, .jog true] → o.bagFeeder = .off)
        ∧ (o.bagGate = true ↔ discharges .bag ∧ flows)
        ∧ (o.rejectGate = true ↔ (discharges .chute ∨ s.bagger.bucket = .unknown true) ∧ flows)
        ∧ (o.release = true ↔ s.bagger.spout = .filled))
    ∧ (s.straps.bagger = false → o.bagFeeder = .off ∧ o.bagGate = false ∧ o.rejectGate = false ∧ o.release = false)
    ∧ (o.spout = true ↔ ∃ st, s.step = some st ∧ st.cause = none)
    ∧ (o.handAddLamp = true ↔ s.scale.state = .handAdd ∨ s.scale.state = .settle .handAdd)
    ∧ (o.bayLamp = true ↔ s.hold.state = .held) ∧ o.stopDrive = s.inputs.localStop)

/-- R1, R48, R52, R159, R197, R198: no step overfills a table or a queue. -/
def Obligations.TablesStayBounded : Prop := ∀ s t : State, TablesBounded s → step s = .next t → TablesBounded t

/-- R1, R25, R52, R63, R159, R183: no step makes two orders or trucks of one id, two fault records of one key, two
reservations of one ingredient, two dose records of one position, or two components of one ingredient. R4: no step
makes two orders of the book ACTIVE. R42, R62, R165: every step keeps one entry for each bin, one record for each
channel, one timer for each bay. -/
def Obligations.KeysStayDistinctAndRecordsWhole : Prop :=
  (∀ s t : State, KeysDistinct s → step s = .next t → KeysDistinct t)
  ∧ (∀ s t : State, OneActive s → step s = .next t → OneActive t)
  ∧ (∀ s t : State, RecordsWhole s → step s = .next t → RecordsWhole t)

/-- R3, R62, R97, R99, R127, R165, R183, R200, R204: every step keeps the figures within their ranges. -/
def Obligations.FiguresStayWithin : Prop := ∀ s t : State, FiguresWithin s → step s = .next t → FiguresWithin t

/-- R62, R80, R182: every step keeps the law of the feeders: no channel is driven while the line is PAUSED or STOPPED,
and the line is STOPPED while the STOP line is seen asserted. R46, R57, R62, R77: every step keeps a component that
draws to a bin whose quarantine is OFF; so no channel runs while the quarantine of its bin is other than OFF. R65,
R78, R81, R82: no step leaves a batch in a scale that is IDLE, or held to return to IDLE. -/
def Obligations.FeedersStayLawful : Prop :=
  (∀ s t : State, FeedLawful s → step s = .next t → FeedLawful t)
  ∧ ((∀ s t : State, KeysDistinct s → RecordsWhole s → DrawsFromOpenBin s → step s = .next t → DrawsFromOpenBin t)
  ∧ ∀ (s : State) (c : Channel), DrawsFromOpenBin s → channelOutput s c ≠ .off → ∃ d e b, curDose s = some d
      ∧ planEntry d.position s = some e ∧ findBin e.bin s = some b ∧ b.channel = some c.number ∧ b.quarantine = .off)
  ∧ (∀ s t : State, IdleScaleEmpty s → step s = .next t → IdleScaleEmpty t)

/-- R205, R206: the invariants hold at State.reset (the node before power is applied, the model's choice:
notes/assumptions/1.md) and right after every power-on; a warm reset keeps each of them. -/
def Obligations.StartsSatisfyInvariants : Prop :=
  (OutputsFollow State.reset ∧ TablesBounded State.reset ∧ KeysDistinct State.reset ∧ RecordsWhole State.reset
    ∧ FiguresWithin State.reset ∧ FeedLawful State.reset ∧ OneActive State.reset ∧ IdleScaleEmpty State.reset
    ∧ DrawsFromOpenBin State.reset)
  ∧ (∀ (pins : BitVec 11) (m : List Byte) (inp : Inputs) (s t : State), exec (.powerOn pins m inp) s = .next t →
      OutputsFollow t ∧ TablesBounded t ∧ KeysDistinct t ∧ RecordsWhole t ∧ FiguresWithin t ∧ FeedLawful t ∧ OneActive t
      ∧ IdleScaleEmpty t ∧ DrawsFromOpenBin t)
  ∧ ∀ (inp : Inputs) (s t : State), exec (.warmReset inp) s = .next t →
      (OutputsFollow s → OutputsFollow t) ∧ (TablesBounded s → TablesBounded t) ∧ (KeysDistinct s → KeysDistinct t)
      ∧ (RecordsWhole s → RecordsWhole t) ∧ (FiguresWithin s → FiguresWithin t) ∧ (FeedLawful s → FeedLawful t)
      ∧ (OneActive s → OneActive t) ∧ (IdleScaleEmpty s → IdleScaleEmpty t) ∧ (DrawsFromOpenBin s → DrawsFromOpenBin t)
end

