-- ==== Sys2Proof/Laws/Kept.lean ====
section
/-! SUPPORT. Nothing that a frame queued, a fault raised, or a begin at the close of an event changes is in the kept part of
a state (Safety.lean): one lemma for each shared operation, cited in place of its unfolding. -/
namespace Sys2Proof.Machine

theorem pushSoft_kept (b : Body) (s : State) : (pushSoft b s).kept = s.kept := by
  unfold pushSoft
  split <;> rfl

theorem raiseFault_kept (k : FaultKey) (reference : Option Nat) (detail : List DetailField) (s : State) :
    (raiseFault k reference detail s).kept = s.kept := by
  unfold raiseFault
  dsimp only
  (repeat' split) <;> (try simp only [pushSoft_kept]) <;> rfl

theorem queueFrame_kept (b : Body) (s : State) : (queueFrame b s).kept = s.kept := by
  unfold queueFrame
  try dsimp only
  (repeat' split) <;> (try simp only [raiseFault_kept]) <;> rfl

theorem queueNotice_kept (n : Notice) (s : State) : (queueNotice n s).kept = s.kept := by
  simp only [queueNotice, pushSoft_kept]

theorem withdrawHolds_kept (s : State) : (withdrawHolds s).kept = s.kept := rfl

theorem updOrder_kept (id : Nat) (f : Order → Order) (s : State) : (updOrder id f s).kept = s.kept := rfl

theorem updPlanEntry_kept (position : Nat) (f : PlanEntry → PlanEntry) (s : State) :
    (updPlanEntry position f s).kept = s.kept := rfl

theorem updComp_kept (truck number : Nat) (f : Compartment → Compartment) (s : State) :
    (updComp truck number f s).kept = s.kept := rfl

theorem setBay_kept (bay : Nat) (holder : Option Nat) (remaining : Nat) (s : State) :
    (setBay bay holder remaining s).kept = s.kept := rfl

theorem reserveRun_kept (id : Nat) (s : State) : (reserveRun id s).kept = s.kept := by
  unfold reserveRun
  split <;> rfl

theorem releaseReservations_kept (id : Nat) (s : State) : (releaseReservations id s).kept = s.kept := by
  unfold releaseReservations
  split <;> rfl

theorem freeSlot_kept (id : Nat) (s : State) : (freeSlot id s).kept = s.kept := by
  unfold freeSlot
  exact (releaseReservations_kept _ _).trans rfl

theorem completeRun_kept (id : Nat) (s : State) : (completeRun id s).kept = s.kept := by
  unfold completeRun
  (repeat' split) <;> simp only [queueNotice_kept, updOrder_kept, reserveRun_kept, releaseReservations_kept, freeSlot_kept]

theorem setScale_kept (st : ScaleState) (s : State) : (setScale st s).kept = s.kept := rfl

theorem updDose_kept (position : Nat) (f : Dose → Dose) (s : State) : (updDose position f s).kept = s.kept := rfl

theorem holdScale_kept (k : FaultKey) (detail : List DetailField) (resume : ResumePoint) (s : State) :
    (holdScale k detail resume s).kept = s.kept := by
  unfold holdScale
  try dsimp only
  split <;> first | rfl | exact (raiseFault_kept _ _ _ _).trans rfl

theorem answerZero_kept (d : Dose) (s : State) : (answerZero d s).kept = s.kept := by
  unfold answerZero
  split <;> simp only [queueFrame_kept, updDose_kept]

theorem moveBin_kept (d : Dose) (bin : Nat) (s : State) : (moveBin d bin s).kept = s.kept := by
  unfold moveBin
  split <;> simp only [queueFrame_kept, updPlanEntry_kept, updDose_kept]

theorem confirmStart_kept (d : Dose) (s : State) : (confirmStart d s).kept = s.kept := by
  unfold confirmStart
  split <;> simp only [updPlanEntry_kept, setScale_kept, updDose_kept, holdScale_kept, moveBin_kept]

theorem startDose_kept (d : Dose) (s : State) : (startDose d s).kept = s.kept := by
  unfold startDose
  dsimp only
  (repeat' split) <;> simp only [setScale_kept, updDose_kept, answerZero_kept, confirmStart_kept]

theorem startNext_kept (k : Nat) (s : State) : (startNext k s).kept = s.kept := by
  induction k generalizing s with
  | zero => rfl
  | succ k ih =>
    unfold startNext
    try dsimp only
    (repeat' split) <;> (try simp only [ih, setScale_kept, updDose_kept, answerZero_kept, startDose_kept]) <;> rfl

theorem startComponent_kept (s : State) : (startComponent s).kept = s.kept := by
  simp only [startComponent, startNext_kept]

theorem admitToScale_kept (b : Batch) (comps : List Planned) (s : State) :
    (admitToScale b comps s).kept = s.kept := by
  unfold admitToScale
  dsimp only
  (repeat' split) <;> (try simp only [queueFrame_kept, startComponent_kept]) <;> rfl

theorem beginDischarge_kept (s : State) : (beginDischarge s).kept = s.kept := by
  unfold beginDischarge
  split <;> rfl

theorem beginJogPulse_kept (s : State) : (beginJogPulse s).kept = s.kept := by
  unfold beginJogPulse
  split <;> rfl

theorem raiseShort_kept (l : List Order) (s : State) : (raiseShort l s).kept = s.kept := by
  induction l generalizing s with
  | nil => rfl
  | cons o os ih =>
    unfold raiseShort
    rw [ih, raiseFault_kept]

theorem recomputeWaits_kept (s : State) : (recomputeWaits s).kept = s.kept := by
  unfold recomputeWaits
  simp only [raiseShort_kept]
  rfl

theorem preempt_kept (chosen : Nat) (s : State) : (preempt chosen s).kept = s.kept := rfl

theorem admitProduct_kept (o : Order) (s : State) : (admitProduct o s).kept = s.kept := by
  unfold admitProduct
  rw [admitToScale_kept]
  rfl

theorem admitFlush_kept (o : Order) (s : State) : (admitFlush o s).kept = s.kept := by
  unfold admitFlush
  rw [admitToScale_kept]
  rfl

theorem admitBatch_kept (o : Order) (s : State) : (admitBatch o s).kept = s.kept := by
  unfold admitBatch
  split <;> simp only [admitProduct_kept, admitFlush_kept]

theorem admissionAttempt_kept (s : State) : (admissionAttempt s).kept = s.kept := by
  unfold admissionAttempt
  dsimp only
  (repeat' split) <;> simp only [recomputeWaits_kept, admitBatch_kept]

theorem closeSpout_kept (cause : CloseCause) (s : State) : (closeSpout cause s).kept = s.kept := by
  unfold closeSpout
  (repeat' split) <;> rfl

theorem freeBay_kept (bay : Nat) (s : State) : (freeBay bay s).kept = s.kept := rfl

theorem setOwnBay_kept (bay : Nat) (s : State) : (setOwnBay bay s).kept = s.kept := rfl

theorem dropHold_kept (s : State) : (dropHold s).kept = s.kept := rfl

theorem releaseHold_kept (s : State) : (releaseHold s).kept = s.kept := by
  unfold releaseHold
  (repeat' split) <;> simp only [queueFrame_kept, withdrawHolds_kept, freeBay_kept, dropHold_kept]

theorem haltGrinder_kept (s : State) : (haltGrinder s).kept = s.kept := rfl

theorem haltPresser_kept (s : State) : (haltPresser s).kept = s.kept := rfl

theorem setStage_kept (i : StageId) (r : StageRec) (s : State) : (setStage i r s).kept = s.kept := by
  unfold setStage
  split <;> rfl

theorem haltStageLoop_kept (i : StageId) (s : State) : (haltStageLoop i s).kept = s.kept := by
  unfold haltStageLoop
  split <;> rfl

theorem unbarStage_kept (i : StageId) (s : State) : (unbarStage i s).kept = s.kept := by
  unfold unbarStage
  dsimp only
  (repeat' split) <;> simp only [setStage_kept, haltStageLoop_kept]

theorem unbarStages_kept (s : State) : (unbarStages s).kept = s.kept := by
  simp only [unbarStages, unbarStage_kept]

theorem enterFinished_kept (b : Batch) (s : State) : (enterFinished b s).kept = s.kept := rfl

theorem beginGrind_kept (s : State) : (beginGrind s).kept = s.kept := by
  unfold beginGrind
  split <;> rfl

theorem openDischarge_kept (b : Batch) (s : State) : (openDischarge b s).kept = s.kept := by
  unfold openDischarge
  split <;> rfl

theorem beginDischargeMixer_kept (s : State) : (beginDischargeMixer s).kept = s.kept := by
  unfold beginDischargeMixer
  (repeat' split) <;> simp only [openDischarge_kept]

theorem openPress_kept (b : Batch) (s : State) : (openPress b s).kept = s.kept := by
  unfold openPress
  split <;> rfl

theorem beginPress_kept (s : State) : (beginPress s).kept = s.kept := by
  unfold beginPress
  (repeat' split) <;> simp only [openPress_kept]

theorem followLoops_kept (s : State) : (followLoops s).kept = s.kept := rfl

theorem openFinishedDump_kept (s : State) : (openFinishedDump s).kept = s.kept := rfl

theorem trainTimers_kept (s : State) : (trainTimers s).kept = s.kept := rfl

theorem takeBayFor_kept (truck number bay : Nat) (s : State) : (takeBayFor truck number bay s).kept = s.kept := by
  unfold takeBayFor
  try dsimp only
  (repeat' split) <;> (try simp only [setOwnBay_kept]) <;> first | rfl | exact (queueFrame_kept _ _).trans rfl

theorem takeBay_kept (s : State) : (takeBay s).kept = s.kept := by
  unfold takeBay
  (repeat' split) <;> simp only [takeBayFor_kept]

theorem abandonBay_kept (s : State) : (abandonBay s).kept = s.kept := by
  unfold abandonBay
  split <;> simp only [releaseHold_kept]

theorem writeLoaded_kept (st : LoadStep) (w : Int) (s : State) : (writeLoaded st w s).kept = s.kept := rfl

theorem writeFinal_kept (st : LoadStep) (s : State) : (writeFinal st s).kept = s.kept := by
  unfold writeFinal
  (repeat' split) <;> rfl

theorem endStep_kept (s : State) : (endStep s).kept = s.kept := by
  unfold endStep
  try dsimp only
  (repeat' split) <;> first | rfl | (refine (releaseHold_kept _).trans ?_; first | rfl | exact (writeFinal_kept _ _).trans rfl) | exact (writeFinal_kept _ _).trans rfl

theorem watchStep_kept (s : State) : (watchStep s).kept = s.kept := by
  unfold watchStep
  dsimp only
  (repeat' split) <;> simp only [closeSpout_kept, endStep_kept]

theorem markLoadedFor_kept (o : Order) (s : State) : (markLoadedFor o s).kept = s.kept := by
  unfold markLoadedFor
  (repeat' split) <;> simp only [queueFrame_kept, updComp_kept, completeRun_kept]

theorem markAll_kept (l : List Order) (s : State) : (markAll l s).kept = s.kept := by
  induction l generalizing s with
  | nil => rfl
  | cons o os ih =>
    unfold markAll
    rw [ih, markLoadedFor_kept]

theorem markLoaded_kept (s : State) : (markLoaded s).kept = s.kept := by
  simp only [markLoaded, markAll_kept]

theorem setBucket_kept (b : Bucket) (s : State) : (setBucket b s).kept = s.kept := rfl

theorem updCharge_kept (f : Charge → Charge) (s : State) : (updCharge f s).kept = s.kept := rfl

theorem interruptCharge_kept (s : State) : (interruptCharge s).kept = s.kept := rfl

theorem adaptBagger_kept (c : Charge) (s : State) : (adaptBagger c s).kept = s.kept := by
  unfold adaptBagger
  split <;> rfl

theorem rejectCharge_kept (c : Charge) (detail : List DetailField) (s : State) :
    (rejectCharge c detail s).kept = s.kept := by
  simp only [rejectCharge, raiseFault_kept, setBucket_kept, updCharge_kept, adaptBagger_kept]

theorem beginClearance_kept (mode : BaggerMode) (id : Nat) (s : State) :
    (beginClearance mode id s).kept = s.kept := by
  unfold beginClearance
  split <;> simp only [raiseFault_kept, openFinishedDump_kept] <;> rfl

theorem baggerTimers_kept (s : State) : (baggerTimers s).kept = s.kept := rfl

theorem watchPermission_kept (s : State) : (watchPermission s).kept = s.kept := by
  unfold watchPermission
  (repeat' split) <;> simp only [setBucket_kept, interruptCharge_kept, rejectCharge_kept]

theorem beginBaggerPulse_kept (s : State) : (beginBaggerPulse s).kept = s.kept := by
  unfold beginBaggerPulse
  split <;> rfl

theorem beginBucketDischarge_kept (s : State) : (beginBucketDischarge s).kept = s.kept := by
  unfold beginBucketDischarge
  (repeat' split) <;> rfl

theorem beginRemainder_kept (s : State) : (beginRemainder s).kept = s.kept := by
  unfold beginRemainder
  split <;> simp only [beginClearance_kept]

theorem makeUpFor_kept (o : Order) (s : State) : (makeUpFor o s).kept = s.kept := by
  unfold makeUpFor
  split <;> rfl

theorem makeUpAll_kept (l : List Order) (s : State) : (makeUpAll l s).kept = s.kept := by
  induction l generalizing s with
  | nil => rfl
  | cons o os ih =>
    unfold makeUpAll
    rw [ih, makeUpFor_kept]

theorem makeUps_kept (s : State) : (makeUps s).kept = s.kept := by
  simp only [makeUps, makeUpAll_kept]

theorem drive_kept (s : State) : (drive s).kept = s.kept := by
  unfold drive
  (repeat' split) <;> rfl

theorem scaleTimers_kept (s : State) : (scaleTimers s).kept = s.kept := rfl

theorem timers_kept (s : State) : (timers s).kept = s.kept := rfl

theorem endCancelled_kept (o : Order) (s : State) : (endCancelled o s).kept = s.kept := by
  unfold endCancelled
  split <;> simp only [queueNotice_kept, freeSlot_kept]

theorem endAllCancelled_kept (l : List Order) (s : State) : (endAllCancelled l s).kept = s.kept := by
  induction l generalizing s with
  | nil => rfl
  | cons o os ih =>
    unfold endAllCancelled
    rw [ih, endCancelled_kept]

theorem freeCancelled_kept (s : State) : (freeCancelled s).kept = s.kept := by
  simp only [freeCancelled, endAllCancelled_kept]

theorem setLine_kept (l : LineState) (cause : LineCause) (s : State) : (setLine l cause s).kept = s.kept := by
  unfold setLine
  simp only [queueNotice_kept]
  rfl

theorem pauseReports_kept (s : State) : (pauseReports s).kept = s.kept := by
  unfold pauseReports
  dsimp only
  (repeat' split) <;> (try simp only [setLine_kept]) <;> rfl

theorem reannounce_kept (s : State) : (reannounce s).kept = s.kept := by
  unfold reannounce
  dsimp only
  (repeat' split) <;> (try simp only [queueFrame_kept]) <;> rfl

theorem passLine_kept (s : State) : (passLine s).kept = s.kept := by
  simp only [passLine, beginDischarge_kept, beginJogPulse_kept, unbarStages_kept, beginGrind_kept, beginDischargeMixer_kept, beginPress_kept, watchPermission_kept, beginBaggerPulse_kept]

theorem passBook_kept (s : State) : (passBook s).kept = s.kept := by
  simp only [passBook, admissionAttempt_kept, watchStep_kept, markLoaded_kept, beginBucketDischarge_kept, beginRemainder_kept, makeUps_kept, freeCancelled_kept]

theorem pass_kept (s : State) : (pass s).kept = s.kept := by
  simp only [pass, followLoops_kept, passLine_kept, passBook_kept]

theorem rounds_kept (s : State) : (rounds s).kept = s.kept := by
  simp only [rounds, pass_kept]

end Sys2Proof.Machine
end

