-- ==== Sys2Proof/Laws/Clocks.lean ====
section
/-! SUPPORT. The timers that the closing of an event sets (R67 to R71, R81; R107 to R121; R144 to R146) stand, until it sets
them, as the event left them: one lemma for each shared operation, cited in place of its unfolding. The bucket's discharge
timer is not among them: the opening of a gate stops it, to be started afresh. -/
namespace Sys2Proof.Machine

/-- The timers of the Dosing Unit, the Process Train and the bagger but the bucket's discharge timer. -/
def State.clocks (s : State) : List Timer :=
  [s.scale.settle, s.scale.stall, s.scale.jog, s.scale.residue, s.train.grindRunout, s.train.mix, s.train.mixerRunout,
    s.train.dischargeLimit, s.train.pressRunout, s.train.conditioning, s.train.surgeDump, s.train.mixerDump,
    s.train.pressDump, s.train.finishedDump, s.bagger.fill, s.bagger.settle, s.bagger.jog]

theorem pushSoft_clocks (b : Body) (s : State) : (pushSoft b s).clocks = s.clocks := by
  unfold pushSoft
  split <;> rfl

theorem raiseFault_clocks (k : FaultKey) (reference : Option Nat) (detail : List DetailField) (s : State) :
    (raiseFault k reference detail s).clocks = s.clocks := by
  unfold raiseFault
  dsimp only
  (repeat' split) <;> (try simp only [pushSoft_clocks]) <;> rfl

theorem queueFrame_clocks (b : Body) (s : State) : (queueFrame b s).clocks = s.clocks := by
  unfold queueFrame
  try dsimp only
  (repeat' split) <;> (try simp only [raiseFault_clocks]) <;> rfl

theorem queueNotice_clocks (n : Notice) (s : State) : (queueNotice n s).clocks = s.clocks := by
  simp only [queueNotice, pushSoft_clocks]

theorem withdrawHolds_clocks (s : State) : (withdrawHolds s).clocks = s.clocks := rfl

theorem updOrder_clocks (id : Nat) (f : Order → Order) (s : State) : (updOrder id f s).clocks = s.clocks := rfl

theorem updPlanEntry_clocks (position : Nat) (f : PlanEntry → PlanEntry) (s : State) :
    (updPlanEntry position f s).clocks = s.clocks := rfl

theorem updComp_clocks (truck number : Nat) (f : Compartment → Compartment) (s : State) :
    (updComp truck number f s).clocks = s.clocks := rfl

theorem setBay_clocks (bay : Nat) (holder : Option Nat) (remaining : Nat) (s : State) :
    (setBay bay holder remaining s).clocks = s.clocks := rfl

theorem reserveRun_clocks (id : Nat) (s : State) : (reserveRun id s).clocks = s.clocks := by
  unfold reserveRun
  split <;> rfl

theorem releaseReservations_clocks (id : Nat) (s : State) : (releaseReservations id s).clocks = s.clocks := by
  unfold releaseReservations
  split <;> rfl

theorem freeSlot_clocks (id : Nat) (s : State) : (freeSlot id s).clocks = s.clocks := by
  unfold freeSlot
  exact (releaseReservations_clocks _ _).trans rfl

theorem completeRun_clocks (id : Nat) (s : State) : (completeRun id s).clocks = s.clocks := by
  unfold completeRun
  (repeat' split) <;> simp only [queueNotice_clocks, updOrder_clocks, reserveRun_clocks, releaseReservations_clocks, freeSlot_clocks]

theorem setScale_clocks (st : ScaleState) (s : State) : (setScale st s).clocks = s.clocks := rfl

theorem updDose_clocks (position : Nat) (f : Dose → Dose) (s : State) : (updDose position f s).clocks = s.clocks := rfl

theorem holdScale_clocks (k : FaultKey) (detail : List DetailField) (resume : ResumePoint) (s : State) :
    (holdScale k detail resume s).clocks = s.clocks := by
  unfold holdScale
  try dsimp only
  split <;> first | rfl | exact (raiseFault_clocks _ _ _ _).trans rfl

theorem answerZero_clocks (d : Dose) (s : State) : (answerZero d s).clocks = s.clocks := by
  unfold answerZero
  split <;> simp only [queueFrame_clocks, updDose_clocks]

theorem moveBin_clocks (d : Dose) (bin : Nat) (s : State) : (moveBin d bin s).clocks = s.clocks := by
  unfold moveBin
  split <;> simp only [queueFrame_clocks, updPlanEntry_clocks, updDose_clocks]

theorem confirmStart_clocks (d : Dose) (s : State) : (confirmStart d s).clocks = s.clocks := by
  unfold confirmStart
  split <;> simp only [updPlanEntry_clocks, setScale_clocks, updDose_clocks, holdScale_clocks, moveBin_clocks]

theorem startDose_clocks (d : Dose) (s : State) : (startDose d s).clocks = s.clocks := by
  unfold startDose
  dsimp only
  (repeat' split) <;> simp only [setScale_clocks, updDose_clocks, answerZero_clocks, confirmStart_clocks]

theorem startNext_clocks (k : Nat) (s : State) : (startNext k s).clocks = s.clocks := by
  induction k generalizing s with
  | zero => rfl
  | succ k ih =>
    unfold startNext
    try dsimp only
    (repeat' split) <;> (try simp only [ih, setScale_clocks, updDose_clocks, answerZero_clocks, startDose_clocks]) <;> rfl

theorem startComponent_clocks (s : State) : (startComponent s).clocks = s.clocks := by
  simp only [startComponent, startNext_clocks]

theorem admitToScale_clocks (b : Batch) (comps : List Planned) (s : State) :
    (admitToScale b comps s).clocks = s.clocks := by
  unfold admitToScale
  dsimp only
  (repeat' split) <;> (try simp only [queueFrame_clocks, startComponent_clocks]) <;> rfl

theorem beginDischarge_clocks (s : State) : (beginDischarge s).clocks = s.clocks := by
  unfold beginDischarge
  split <;> rfl

theorem beginJogPulse_clocks (s : State) : (beginJogPulse s).clocks = s.clocks := by
  unfold beginJogPulse
  split <;> rfl

theorem raiseShort_clocks (l : List Order) (s : State) : (raiseShort l s).clocks = s.clocks := by
  induction l generalizing s with
  | nil => rfl
  | cons o os ih =>
    unfold raiseShort
    rw [ih, raiseFault_clocks]

theorem recomputeWaits_clocks (s : State) : (recomputeWaits s).clocks = s.clocks := by
  unfold recomputeWaits
  simp only [raiseShort_clocks]
  rfl

theorem preempt_clocks (chosen : Nat) (s : State) : (preempt chosen s).clocks = s.clocks := rfl

theorem admitProduct_clocks (o : Order) (s : State) : (admitProduct o s).clocks = s.clocks := by
  unfold admitProduct
  rw [admitToScale_clocks]
  rfl

theorem admitFlush_clocks (o : Order) (s : State) : (admitFlush o s).clocks = s.clocks := by
  unfold admitFlush
  rw [admitToScale_clocks]
  rfl

theorem admitBatch_clocks (o : Order) (s : State) : (admitBatch o s).clocks = s.clocks := by
  unfold admitBatch
  split <;> simp only [admitProduct_clocks, admitFlush_clocks]

theorem admissionAttempt_clocks (s : State) : (admissionAttempt s).clocks = s.clocks := by
  unfold admissionAttempt
  dsimp only
  (repeat' split) <;> simp only [recomputeWaits_clocks, admitBatch_clocks]

theorem closeSpout_clocks (cause : CloseCause) (s : State) : (closeSpout cause s).clocks = s.clocks := by
  unfold closeSpout
  (repeat' split) <;> rfl

theorem freeBay_clocks (bay : Nat) (s : State) : (freeBay bay s).clocks = s.clocks := rfl

theorem setOwnBay_clocks (bay : Nat) (s : State) : (setOwnBay bay s).clocks = s.clocks := rfl

theorem dropHold_clocks (s : State) : (dropHold s).clocks = s.clocks := rfl

theorem releaseHold_clocks (s : State) : (releaseHold s).clocks = s.clocks := by
  unfold releaseHold
  (repeat' split) <;> simp only [queueFrame_clocks, withdrawHolds_clocks, freeBay_clocks, dropHold_clocks]

theorem haltGrinder_clocks (s : State) : (haltGrinder s).clocks = s.clocks := rfl

theorem haltPresser_clocks (s : State) : (haltPresser s).clocks = s.clocks := rfl

theorem setStage_clocks (i : StageId) (r : StageRec) (s : State) : (setStage i r s).clocks = s.clocks := by
  unfold setStage
  split <;> rfl

theorem haltStageLoop_clocks (i : StageId) (s : State) : (haltStageLoop i s).clocks = s.clocks := by
  unfold haltStageLoop
  split <;> rfl

theorem unbarStage_clocks (i : StageId) (s : State) : (unbarStage i s).clocks = s.clocks := by
  unfold unbarStage
  dsimp only
  (repeat' split) <;> simp only [setStage_clocks, haltStageLoop_clocks]

theorem unbarStages_clocks (s : State) : (unbarStages s).clocks = s.clocks := by
  simp only [unbarStages, unbarStage_clocks]

theorem enterFinished_clocks (b : Batch) (s : State) : (enterFinished b s).clocks = s.clocks := rfl

theorem beginGrind_clocks (s : State) : (beginGrind s).clocks = s.clocks := by
  unfold beginGrind
  split <;> rfl

theorem openDischarge_clocks (b : Batch) (s : State) : (openDischarge b s).clocks = s.clocks := by
  unfold openDischarge
  split <;> rfl

theorem beginDischargeMixer_clocks (s : State) : (beginDischargeMixer s).clocks = s.clocks := by
  unfold beginDischargeMixer
  (repeat' split) <;> simp only [openDischarge_clocks]

theorem openPress_clocks (b : Batch) (s : State) : (openPress b s).clocks = s.clocks := by
  unfold openPress
  split <;> rfl

theorem beginPress_clocks (s : State) : (beginPress s).clocks = s.clocks := by
  unfold beginPress
  (repeat' split) <;> simp only [openPress_clocks]

theorem followLoops_clocks (s : State) : (followLoops s).clocks = s.clocks := rfl

theorem openFinishedDump_clocks (s : State) : (openFinishedDump s).clocks = s.clocks := rfl

theorem takeBayFor_clocks (truck number bay : Nat) (s : State) : (takeBayFor truck number bay s).clocks = s.clocks := by
  unfold takeBayFor
  try dsimp only
  (repeat' split) <;> (try simp only [setOwnBay_clocks]) <;> first | rfl | exact (queueFrame_clocks _ _).trans rfl

theorem takeBay_clocks (s : State) : (takeBay s).clocks = s.clocks := by
  unfold takeBay
  (repeat' split) <;> simp only [takeBayFor_clocks]

theorem abandonBay_clocks (s : State) : (abandonBay s).clocks = s.clocks := by
  unfold abandonBay
  split <;> simp only [releaseHold_clocks]

theorem writeLoaded_clocks (st : LoadStep) (w : Int) (s : State) : (writeLoaded st w s).clocks = s.clocks := rfl

theorem writeFinal_clocks (st : LoadStep) (s : State) : (writeFinal st s).clocks = s.clocks := by
  unfold writeFinal
  (repeat' split) <;> rfl

theorem endStep_clocks (s : State) : (endStep s).clocks = s.clocks := by
  unfold endStep
  try dsimp only
  (repeat' split) <;> first | rfl | (refine (releaseHold_clocks _).trans ?_; first | rfl | exact (writeFinal_clocks _ _).trans rfl) | exact (writeFinal_clocks _ _).trans rfl

theorem watchStep_clocks (s : State) : (watchStep s).clocks = s.clocks := by
  unfold watchStep
  dsimp only
  (repeat' split) <;> simp only [closeSpout_clocks, endStep_clocks]

theorem markLoadedFor_clocks (o : Order) (s : State) : (markLoadedFor o s).clocks = s.clocks := by
  unfold markLoadedFor
  (repeat' split) <;> simp only [queueFrame_clocks, updComp_clocks, completeRun_clocks]

theorem markAll_clocks (l : List Order) (s : State) : (markAll l s).clocks = s.clocks := by
  induction l generalizing s with
  | nil => rfl
  | cons o os ih =>
    unfold markAll
    rw [ih, markLoadedFor_clocks]

theorem markLoaded_clocks (s : State) : (markLoaded s).clocks = s.clocks := by
  simp only [markLoaded, markAll_clocks]

theorem setBucket_clocks (b : Bucket) (s : State) : (setBucket b s).clocks = s.clocks := rfl

theorem updCharge_clocks (f : Charge → Charge) (s : State) : (updCharge f s).clocks = s.clocks := rfl

theorem interruptCharge_clocks (s : State) : (interruptCharge s).clocks = s.clocks := rfl

theorem adaptBagger_clocks (c : Charge) (s : State) : (adaptBagger c s).clocks = s.clocks := by
  unfold adaptBagger
  split <;> rfl

theorem rejectCharge_clocks (c : Charge) (detail : List DetailField) (s : State) :
    (rejectCharge c detail s).clocks = s.clocks := by
  simp only [rejectCharge, raiseFault_clocks, setBucket_clocks, updCharge_clocks, adaptBagger_clocks]

theorem beginClearance_clocks (mode : BaggerMode) (id : Nat) (s : State) :
    (beginClearance mode id s).clocks = s.clocks := by
  unfold beginClearance
  split <;> simp only [raiseFault_clocks, openFinishedDump_clocks] <;> rfl

theorem watchPermission_clocks (s : State) : (watchPermission s).clocks = s.clocks := by
  unfold watchPermission
  (repeat' split) <;> simp only [setBucket_clocks, interruptCharge_clocks, rejectCharge_clocks]

theorem beginBaggerPulse_clocks (s : State) : (beginBaggerPulse s).clocks = s.clocks := by
  unfold beginBaggerPulse
  split <;> rfl

theorem beginBucketDischarge_clocks (s : State) : (beginBucketDischarge s).clocks = s.clocks := by
  unfold beginBucketDischarge
  (repeat' split) <;> rfl

theorem beginRemainder_clocks (s : State) : (beginRemainder s).clocks = s.clocks := by
  unfold beginRemainder
  split <;> simp only [beginClearance_clocks]

theorem makeUpFor_clocks (o : Order) (s : State) : (makeUpFor o s).clocks = s.clocks := by
  unfold makeUpFor
  split <;> rfl

theorem makeUpAll_clocks (l : List Order) (s : State) : (makeUpAll l s).clocks = s.clocks := by
  induction l generalizing s with
  | nil => rfl
  | cons o os ih =>
    unfold makeUpAll
    rw [ih, makeUpFor_clocks]

theorem makeUps_clocks (s : State) : (makeUps s).clocks = s.clocks := by
  simp only [makeUps, makeUpAll_clocks]

theorem drive_clocks (s : State) : (drive s).clocks = s.clocks := by
  unfold drive
  (repeat' split) <;> rfl

theorem endCancelled_clocks (o : Order) (s : State) : (endCancelled o s).clocks = s.clocks := by
  unfold endCancelled
  split <;> simp only [queueNotice_clocks, freeSlot_clocks]

theorem endAllCancelled_clocks (l : List Order) (s : State) : (endAllCancelled l s).clocks = s.clocks := by
  induction l generalizing s with
  | nil => rfl
  | cons o os ih =>
    unfold endAllCancelled
    rw [ih, endCancelled_clocks]

theorem freeCancelled_clocks (s : State) : (freeCancelled s).clocks = s.clocks := by
  simp only [freeCancelled, endAllCancelled_clocks]

theorem setLine_clocks (l : LineState) (cause : LineCause) (s : State) : (setLine l cause s).clocks = s.clocks := by
  unfold setLine
  simp only [queueNotice_clocks]
  rfl

theorem pauseReports_clocks (s : State) : (pauseReports s).clocks = s.clocks := by
  unfold pauseReports
  dsimp only
  (repeat' split) <;> (try simp only [setLine_clocks]) <;> rfl

theorem reannounce_clocks (s : State) : (reannounce s).clocks = s.clocks := by
  unfold reannounce
  dsimp only
  (repeat' split) <;> (try simp only [queueFrame_clocks]) <;> rfl

theorem passLine_clocks (s : State) : (passLine s).clocks = s.clocks := by
  simp only [passLine, beginDischarge_clocks, beginJogPulse_clocks, unbarStages_clocks, beginGrind_clocks, beginDischargeMixer_clocks, beginPress_clocks, watchPermission_clocks, beginBaggerPulse_clocks]

theorem passBook_clocks (s : State) : (passBook s).clocks = s.clocks := by
  simp only [passBook, admissionAttempt_clocks, watchStep_clocks, markLoaded_clocks, beginBucketDischarge_clocks, beginRemainder_clocks, makeUps_clocks, freeCancelled_clocks]

theorem pass_clocks (s : State) : (pass s).clocks = s.clocks := by
  simp only [pass, followLoops_clocks, passLine_clocks, passBook_clocks]

theorem rounds_clocks (s : State) : (rounds s).clocks = s.clocks := by
  simp only [rounds, pass_clocks]

/-- Up to the setting of the timers the close of an event leaves them alone. -/
theorem beforeTimers_clocks (s : State) : (pauseReports (takeBay (abandonBay (rounds s)))).clocks = s.clocks := by
  simp only [pauseReports_clocks, takeBay_clocks, abandonBay_clocks, rounds_clocks]

/-! ### What the two kinds of timers do -/

theorem Timer.during_runsWhile (c : Bool) (full : Nat) (t : Timer) :
    RunsWhile (c = true) full t (Timer.during c full t) := by
  refine ⟨fun h hr => ?_, fun h hr => ?_, fun h => ?_⟩ <;> simp_all [Timer.during]

theorem Timer.freezing_freezesOff (active run : Bool) (full : Nat) (t : Timer) :
    FreezesOff (active = true) (run = true) full t (Timer.freezing active run full t) := by
  refine ⟨fun h => ?_, fun h ht => ?_, fun left h ht => ⟨fun hr => ?_, fun hr => ?_⟩⟩
  · simp_all [Timer.freezing]
  · simp_all [Timer.freezing]
  · rcases ht with ⟨rfl, rfl⟩ | rfl | rfl <;> simp_all [Timer.freezing]
  · rcases ht with ⟨rfl, rfl⟩ | rfl | rfl <;> simp_all [Timer.freezing]

theorem RunsWhile.congr {c d : Prop} (h : c ↔ d) {full : Nat} {x y : Timer} : RunsWhile c full x y ↔ RunsWhile d full x y := by
  rw [propext h]

end Sys2Proof.Machine
end

