-- ==== Sys2Proof/Laws/Events.lean ====
section
/-! SUPPORT. What the forms of an event answer, once for all: an event of a ready node whose guard holds, a frame that
arrives, a request, a command that cannot come about. -/
namespace Sys2Proof.Machine

theorem event_next (guard : Bool) (f : State → State) (s : State) (hr : ready s = true) (hg : guard = true) :
    event guard f s = .next (settled s (f s)) := by simp [event, hr, hg]

theorem event_absent (guard : Bool) (f : State → State) (s : State) (hg : guard = false) :
    event guard f s = .next s := by simp [event, hg]

theorem event_unready (guard : Bool) (f : State → State) (s : State) (hr : ready s = false) :
    event guard f s = .next s := by simp [event, hr]

/-- The queue of commands is not the event's. -/
theorem settled_pending (s u : State) : (settled s u).pending = s.pending := rfl

/-- An event leaves the queue of commands as it was. -/
theorem event_pending (guard : Bool) (f : State → State) (s t : State) (h : event guard f s = .next t) :
    t.pending = s.pending := by
  unfold event at h
  split at h
  · injection h with h
    rw [← h]
    exact settled_pending _ _
  · injection h with h
    rw [h]

/-! ### The inbound queue -/

theorem takeOwned_split (block : Block) (want : RawFrame → Bool) (before after : List RawFrame) (f : RawFrame)
    (hb : ∀ g ∈ before, ownerOf g.kind.toNat ≠ some block) (hf : ownerOf f.kind.toNat = some block)
    (hw : want f = true) : takeOwned block want (before ++ f :: after) = some (f, before ++ after) := by
  induction before with
  | nil => simp [takeOwned, hf, hw]
  | cons g gs ih =>
    have hg := hb g (by simp)
    have := ih (fun x hx => hb x (by simp [hx]))
    simp [takeOwned, hg, this]

theorem takeOwned_none (block : Block) (want : RawFrame → Bool) (q : List RawFrame)
    (h : ∀ f ∈ q, want f = false) : takeOwned block want q = none := by
  induction q with
  | nil => rfl
  | cons f fs ih =>
    have hf := h f (by simp)
    have := ih (fun x hx => h x (by simp [hx]))
    unfold takeOwned
    split <;> simp [hf, this]

/-- A frame that arrives is taken, and its effect follows on the state without it. -/
theorem frameEvent_arrives {block : Block} {kind : Nat} {f : RawFrame} {s s1 : State}
    (h : Arrives block kind f s s1) (g : RawFrame → State → State) :
    frameEvent block kind g s = .next (settled s (g f s1)) := by
  obtain ⟨hr, hk, ho, before, after, hq, hb, rfl⟩ := h
  have ht : takeOwned block (isKind kind) s.rx.inbound = some (f, before ++ after) := by
    rw [hq]; exact takeOwned_split _ _ _ _ _ hb (by rw [hk]; exact ho) (by simp [isKind, hk])
  simp [frameEvent, event, owns, takeFrame, ht, hr]

/-- Where no frame of the kind waits, nothing is taken. -/
theorem frameEvent_none {block : Block} {kind : Nat} {s : State} (h : NoneWaits kind s) (g : RawFrame → State → State) :
    frameEvent block kind g s = .next s := by
  have ht : takeOwned block (isKind kind) s.rx.inbound = none :=
    takeOwned_none _ _ _ (fun f hf => by simp [isKind, h f hf])
  simp [frameEvent, event, owns, ht]

/-- A request of the node's own input. -/
theorem requestEvent_input (want : RawFrame → Bool) (f : RawFrame → State → State) (local_ : State → State) (s : State)
    (hr : ready s = true) : requestEvent .input want f local_ s = .next (settled s (local_ s)) := by
  simp [requestEvent, event, hr]

/-- A request of a frame that arrives: it acts where it names this node or all nodes. -/
theorem requestEvent_arrives {kind : Nat} {f : RawFrame} {s s1 : State} (h : Arrives .lineControl kind f s s1)
    (want : RawFrame → Bool) (hw : want f = true) (g : RawFrame → State → State)
    (local_ : State → State) :
    requestEvent .frame want g local_ s = .next (settled s (if namesNode s1 f then g f s1 else s1)) := by
  obtain ⟨hr, hk, ho, before, after, hq, hb, rfl⟩ := h
  have ht : takeOwned .lineControl want s.rx.inbound = some (f, before ++ after) := by
    rw [hq]; exact takeOwned_split _ _ _ _ _ hb (by rw [hk]; exact ho) hw
  simp [requestEvent, event, owns, takeFrame, ht, hr]

/-- R194: a LINE request of the node's own input. -/
theorem lineEvent_input (request : Nat) (f : State → State) (s : State) (hr : ready s = true) :
    lineEvent .input request f s = .next (settled s (f s)) := requestEvent_input _ _ _ s hr

/-- R194: a LINE frame of a request from 1 to 7 acts where it names this node or all nodes. -/
theorem lineEvent_arrives {request : Nat} {fr : RawFrame} {s s1 : State} (h : Arrives .lineControl 0x12 fr s s1)
    (hb : byteAt 1 fr.payload = request) (h1 : 1 ≤ request) (h7 : request ≤ 7) (f : State → State) :
    lineEvent .frame request f s = .next (settled s (if namesNode s1 fr then f s1 else s1)) := by
  have hm : meaningless fr = false := by simp [meaningless, h.2.1, hb, h1, h7]
  have hw : (isRequest request fr || meaningless fr) = true := by simp [isRequest, h.2.1, hb]
  refine (requestEvent_arrives h _ hw _ _).trans ?_
  simp only [hm, Bool.false_eq_true, if_false]

/-- R197: a LINE frame of no request leaves the queue at any row of a LINE request, with no effect. -/
theorem lineEvent_meaningless {request : Nat} {fr : RawFrame} {s s1 : State} (h : Arrives .lineControl 0x12 fr s s1)
    (hm : meaningless fr = true) (f : State → State) : lineEvent .frame request f s = .next (settled s s1) := by
  refine (requestEvent_arrives h _ (by rw [hm, Bool.or_true]) _ _).trans ?_
  simp only [hm, if_true, ite_self]

/-! ### What an event preserves -/

theorem takeOwned_length {block : Block} {want : RawFrame → Bool} {q : List RawFrame} {p : RawFrame × List RawFrame}
    (h : takeOwned block want q = some p) : p.2.length + 1 = q.length := by
  induction q generalizing p with
  | nil => simp [takeOwned] at h
  | cons f fs ih =>
    unfold takeOwned at h
    split at h
    · split at h
      · injection h with h; rw [← h]; rfl
      · cases h
    · cases hq : takeOwned block want fs with
      | none => simp [hq] at h
      | some q => simp [hq] at h; rw [← h]; simp [ih hq]

section Preserves
variable {P : State → Prop} (hq : ∀ s q, P s → P { s with pending := q }) (hc : ∀ s, P s → P (close s))
include hq hc

/-- A property that the close and the queue keep, and the effect gives, holds after the event. -/
theorem event_preserves {guard : Bool} {f : State → State} {s t : State} (hf : P s → P (f s)) (hs : P s)
    (h : event guard f s = .next t) : P t := by
  unfold event at h
  split at h <;> injection h with h <;> subst h
  · exact hq _ _ (hc _ (hf hs))
  · exact hs

variable (hi : ∀ s q, q.length ≤ s.rx.inbound.length → P s → P { s with rx := { s.rx with inbound := q } })
include hi

omit hq hc in
/-- The same of a frame that is taken: the effect is met on the state less its frame. -/
theorem takeFrame_preserves {block : Block} {want : RawFrame → Bool} {f : RawFrame → State → State} {s : State}
    (hf : ∀ fr u, P u → P (f fr u)) (hs : P s) : P (takeFrame block want f s) := by
  unfold takeFrame
  split
  · rename_i p hp
    have := takeOwned_length hp
    exact hf _ _ (hi _ _ (by omega) hs)
  · exact hs

theorem frameEvent_preserves {block : Block} {kind : Nat} {f : RawFrame → State → State} {s t : State}
    (hf : ∀ fr u, P u → P (f fr u)) (hs : P s) (h : frameEvent block kind f s = .next t) : P t :=
  event_preserves hq hc (fun hs => takeFrame_preserves hi hf hs) hs h

theorem requestEvent_preserves {origin : Origin} {want : RawFrame → Bool} {f : RawFrame → State → State}
    {g : State → State} {s t : State} (hf : ∀ fr u, P u → P (f fr u)) (hg : ∀ u, P u → P (g u)) (hs : P s)
    (h : requestEvent origin want f g s = .next t) : P t := by
  unfold requestEvent at h
  split at h
  · exact event_preserves hq hc (fun hs => hg _ hs) hs h
  · refine event_preserves hq hc (fun hs => ?_) hs h
    refine takeFrame_preserves hi (fun fr u hu => ?_) hs
    split
    · exact hf _ _ hu
    · exact hu

end Preserves

end Sys2Proof.Machine
end

