-- ==== Sys2Proof/Laws/Ops.lean ====
section
/-! SUPPORT. Which fields each shared operation writes: the operation equals its argument with those fields replaced, so that
every other field reads as before by rfl. -/
namespace Sys2Proof.Machine

/-- An entry that joins a list in an order of preference is in it once more, and nothing else changes. -/
theorem insertBy_perm {α : Type} (ahead : α → α → Bool) (x : α) (l : List α) : (insertBy ahead x l).Perm (x :: l) := by
  induction l with
  | nil => exact List.Perm.refl _
  | cons y ys ih =>
    unfold insertBy
    split
    · exact List.Perm.refl _
    · exact (ih.cons y).trans (List.Perm.swap x y ys)

/-- A list in an order of preference has the entries it had. -/
theorem sortBy_perm {α : Type} (ahead : α → α → Bool) (l : List α) : (sortBy ahead l).Perm l := by
  induction l with
  | nil => exact List.Perm.refl _
  | cons x xs ih => exact (insertBy_perm ahead x _).trans (ih.cons x)

theorem mem_ranked {s : State} {l : List Order} {o : Order} : o ∈ ranked s l ↔ o ∈ l := (sortBy_perm _ _).mem_iff

theorem openBucket_only (b : Bucket) (s : State) : openBucket b s = { s with bagger := (openBucket b s).bagger } := rfl

theorem closeDose_only (d : Dose) (s : State) : closeDose d s = { s with scale := (closeDose d s).scale } := rfl

theorem pushSoft_only (b : Body) (s : State) : pushSoft b s = { s with tx := (pushSoft b s).tx } := by
  unfold pushSoft; split <;> rfl

theorem raiseFault_only (k : FaultKey) (reference : Option Nat) (detail : List DetailField) (s : State) :
    raiseFault k reference detail s =
      { s with faults := bumpFault k reference s.millTime s.faults, tx := (raiseFault k reference detail s).tx } := by
  unfold raiseFault
  dsimp only
  split
  · exact (pushSoft_only _ _).trans rfl
  · rfl

theorem queueFrame_only (b : Body) (s : State) :
    queueFrame b s = { s with faults := (queueFrame b s).faults, tx := (queueFrame b s).tx } := by
  unfold queueFrame
  repeat' split
  · rfl
  · rfl
  · rw [raiseFault_only]

theorem queueNotice_only (n : Notice) (s : State) : queueNotice n s = { s with tx := (queueNotice n s).tx } :=
  pushSoft_only _ _

theorem updOrder_only (id : Nat) (f : Order → Order) (s : State) :
    updOrder id f s = { s with slots := (updOrder id f s).slots } := rfl

theorem reserveRun_only (id : Nat) (s : State) :
    reserveRun id s = { s with slots := (reserveRun id s).slots, reservations := (reserveRun id s).reservations } := by
  unfold reserveRun; split <;> rfl

theorem consume_only (id code t : Nat) (s : State) :
    consume id code t s =
      { s with slots := (consume id code t s).slots, reservations := (consume id code t s).reservations } := by
  unfold consume; split <;> rfl

theorem releaseReservations_only (id : Nat) (s : State) :
    releaseReservations id s =
      { s with slots := (releaseReservations id s).slots, reservations := (releaseReservations id s).reservations } := by
  unfold releaseReservations; split <;> rfl

theorem freeSlot_only (id : Nat) (s : State) :
    freeSlot id s = { s with slots := (freeSlot id s).slots, reservations := (freeSlot id s).reservations
                             reannounce := s.reannounce.filter (fun i => decide (i ≠ id)) } := by
  unfold freeSlot
  dsimp only
  rw [releaseReservations_only id s]

theorem releaseHold_only (s : State) :
    releaseHold s = { s with hold := (releaseHold s).hold, bays := (releaseHold s).bays, tx := (releaseHold s).tx
                             faults := (releaseHold s).faults } := by
  unfold releaseHold
  split
  · rfl
  · dsimp only [dropHold, freeBay, setBay]
    split
    · rfl
    · rw [queueFrame_only]; rfl

end Sys2Proof.Machine
end

