-- ==== Sys2Proof/Laws/Halted.lean ====
section
/-! SUPPORT. What the close of an event leaves alone on a line that is not RUN: the line's own state, the scale, the finished
bin, the steam loop, the stages that are not HELD, and the bagger, but for a charge whose finished bin no longer permits
drawing. One lemma for each shared operation, cited in place of its unfolding. -/
namespace Sys2Proof.Machine

/-- What no begin and no withdrawal of a permission changes on a line that is not RUN. -/
structure Still where
  line       : LineState
  scale      : Scale
  fin        : FinishedBin
  motorsHeld : Bool
  steam      : Steam
  mode       : BaggerMode
  spout      : BagSpout
  zeroed     : Bool

def State.still (s : State) : Still :=
  { line := s.line, scale := s.scale, fin := s.fin, motorsHeld := s.train.motorsHeld, steam := s.train.steam
    mode := s.bagger.mode, spout := s.bagger.spout, zeroed := s.bagger.zeroed }

/-- The same with the bagger and the stages, which the book's and the loadout's operations leave alone too. -/
structure Works extends Still where
  bagger : Bagger
  surge  : StageRec
  mixer  : StageRec
  press  : StageRec

def State.works (s : State) : Works :=
  { s.still with bagger := s.bagger, surge := s.surge, mixer := s.mixer, press := s.press }

theorem works_still {s u : State} (h : u.works = s.works) : u.still = s.still := congrArg Works.toStill h

theorem works_bagger {s u : State} (h : u.works = s.works) : u.bagger = s.bagger := congrArg Works.bagger h

theorem works_stage {s u : State} (h : u.works = s.works) (j : StageId) : stageOf j u = stageOf j s := by
  cases j
  · exact congrArg Works.surge h
  · exact congrArg Works.mixer h
  · exact congrArg Works.press h

/-! ### Frames, faults, the book, the loadout -/

theorem raiseFault_works (k : FaultKey) (reference : Option Nat) (detail : List DetailField) (s : State) :
    (raiseFault k reference detail s).works = s.works := by rw [raiseFault_only]; rfl

theorem queueFrame_works (b : Body) (s : State) : (queueFrame b s).works = s.works := by rw [queueFrame_only]; rfl

theorem queueNotice_works (n : Notice) (s : State) : (queueNotice n s).works = s.works := by rw [queueNotice_only]; rfl

theorem updOrder_works (id : Nat) (f : Order → Order) (s : State) : (updOrder id f s).works = s.works := rfl

theorem updComp_works (truck number : Nat) (f : Compartment → Compartment) (s : State) :
    (updComp truck number f s).works = s.works := rfl

theorem reserveRun_works (id : Nat) (s : State) : (reserveRun id s).works = s.works := by rw [reserveRun_only]; rfl

theorem releaseReservations_works (id : Nat) (s : State) : (releaseReservations id s).works = s.works := by
  rw [releaseReservations_only]; rfl

theorem freeSlot_works (id : Nat) (s : State) : (freeSlot id s).works = s.works := by rw [freeSlot_only]; rfl

theorem completeRun_works (id : Nat) (s : State) : (completeRun id s).works = s.works := by
  unfold completeRun
  (repeat' split) <;>
    simp only [queueNotice_works, updOrder_works, reserveRun_works, releaseReservations_works, freeSlot_works]

theorem releaseHold_works (s : State) : (releaseHold s).works = s.works := by rw [releaseHold_only]; rfl

theorem closeSpout_works (cause : CloseCause) (s : State) : (closeSpout cause s).works = s.works := by
  unfold closeSpout
  (repeat' split) <;> rfl

theorem writeFinal_works (st : LoadStep) (s : State) : (writeFinal st s).works = s.works := by
  unfold writeFinal
  (repeat' split) <;> rfl

theorem endStep_works (s : State) : (endStep s).works = s.works := by
  unfold endStep
  dsimp only
  (repeat' split) <;> first
    | rfl
    | exact (releaseHold_works _).trans (writeFinal_works _ _)
    | exact writeFinal_works _ _

theorem watchStep_works (s : State) : (watchStep s).works = s.works := by
  unfold watchStep
  dsimp only
  (repeat' split) <;> simp only [closeSpout_works, endStep_works]

theorem markLoadedFor_works (o : Order) (s : State) : (markLoadedFor o s).works = s.works := by
  unfold markLoadedFor
  (repeat' split) <;> simp only [queueFrame_works, updComp_works, completeRun_works]

theorem markAll_works (l : List Order) (s : State) : (markAll l s).works = s.works := by
  induction l generalizing s with
  | nil => rfl
  | cons o os ih => exact (ih _).trans (markLoadedFor_works o s)

theorem makeUpFor_works (o : Order) (s : State) : (makeUpFor o s).works = s.works := by
  unfold makeUpFor
  split <;> rfl

theorem makeUpAll_works (l : List Order) (s : State) : (makeUpAll l s).works = s.works := by
  induction l generalizing s with
  | nil => rfl
  | cons o os ih => exact (ih _).trans (makeUpFor_works o s)

theorem endCancelled_works (o : Order) (s : State) : (endCancelled o s).works = s.works := by
  unfold endCancelled
  split <;> simp only [queueNotice_works, freeSlot_works]

theorem endAllCancelled_works (l : List Order) (s : State) : (endAllCancelled l s).works = s.works := by
  induction l generalizing s with
  | nil => rfl
  | cons o os ih => exact (ih _).trans (endCancelled_works o s)

theorem abandonBay_works (s : State) : (abandonBay s).works = s.works := by
  unfold abandonBay
  split <;> simp only [releaseHold_works]

theorem abandonBay_train (s : State) : (abandonBay s).train = s.train := by
  unfold abandonBay
  split
  · rw [releaseHold_only]
  · rfl

/-- R41: the take that is announced again changes the list, the queue and the fault table alone. -/
theorem reannounce_only (s : State) : reannounce s =
    { s with reannounce := (reannounce s).reannounce, tx := (reannounce s).tx, faults := (reannounce s).faults } := by
  unfold reannounce
  dsimp only
  (repeat' split) <;> first | rfl | (rw [queueFrame_only])

/-! ### What begins in RUN alone -/

section OffRun
variable {s : State} (h : s.line ≠ .run)
include h

theorem beginDischarge_offRun : beginDischarge s = s := by simp [beginDischarge, h]

theorem beginGrind_offRun : beginGrind s = s := by simp [beginGrind, h]

theorem beginDischargeMixer_offRun : beginDischargeMixer s = s := by
  unfold beginDischargeMixer
  split <;> simp [h]

theorem beginPress_offRun : beginPress s = s := by
  unfold beginPress
  split <;> simp [h]

theorem beginJogPulse_offRun : beginJogPulse s = s := by simp [beginJogPulse, h]

theorem beginBaggerPulse_offRun : beginBaggerPulse s = s := by simp [beginBaggerPulse, h]

theorem beginBucketDischarge_offRun : beginBucketDischarge s = s := by simp [beginBucketDischarge, h]

theorem beginRemainder_offRun : beginRemainder s = s := by simp [beginRemainder, h]

theorem admissionAttempt_offRun : admissionAttempt s = s := by simp [admissionAttempt, attemptDue, h]

theorem takeBay_offRun : takeBay s = s := by simp [takeBay, loadoutWanted, h]

end OffRun

/-! ### Stages -/

theorem setStage_still (i : StageId) (r : StageRec) (s : State) : (setStage i r s).still = s.still := by
  cases i <;> rfl

theorem haltStageLoop_still (i : StageId) (s : State) : (haltStageLoop i s).still = s.still := by cases i <;> rfl

theorem unbarStage_still (i : StageId) (s : State) : (unbarStage i s).still = s.still := by
  unfold unbarStage
  dsimp only
  (repeat' split) <;> simp only [setStage_still, haltStageLoop_still]

theorem unbarStages_still (s : State) : (unbarStages s).still = s.still := by
  simp only [unbarStages, unbarStage_still]

theorem unbarStage_bagger (i : StageId) (s : State) : (unbarStage i s).bagger = s.bagger := by
  unfold unbarStage
  dsimp only
  (repeat' split) <;> cases i <;> rfl

theorem unbarStages_bagger (s : State) : (unbarStages s).bagger = s.bagger := by
  simp only [unbarStages, unbarStage_bagger]

/-- A stage that is not HELD stands as it is. -/
theorem unbarStage_other (i j : StageId) (s : State) (h : (stageOf j s).state ≠ .held) :
    stageOf j (unbarStage i s) = stageOf j s := by
  unfold unbarStage
  dsimp only
  split
  · rename_i hc
    have hij : i ≠ j := fun e => h (e ▸ hc.1)
    (repeat' split) <;> cases i <;> cases j <;> first | rfl | exact absurd rfl hij
  · rfl

theorem unbarStages_other (j : StageId) (s : State) (h : (stageOf j s).state ≠ .held) :
    stageOf j (unbarStages s) = stageOf j s := by
  have h1 := unbarStage_other .surge j s h
  have h2 := unbarStage_other .mixer j _ (h1 ▸ h)
  have h3 := unbarStage_other .press j _ (h2.trans h1 ▸ h)
  exact h3.trans (h2.trans h1)

/-! ### The bagger's permission -/

theorem adaptBagger_still (c : Charge) (s : State) : (adaptBagger c s).still = s.still := by
  unfold adaptBagger
  split <;> rfl

theorem rejectCharge_still (c : Charge) (detail : List DetailField) (s : State) :
    (rejectCharge c detail s).still = s.still :=
  (works_still (raiseFault_works _ _ _ _)).trans (adaptBagger_still c s)

theorem watchPermission_still (s : State) : (watchPermission s).still = s.still := by
  unfold watchPermission
  (repeat' split) <;> first | rfl | exact rejectCharge_still _ _ _

theorem watchPermission_stage (j : StageId) (s : State) : stageOf j (watchPermission s) = stageOf j s := by
  have hr : ∀ c d, stageOf j (rejectCharge c d s) = stageOf j s := by
    intro c d
    unfold rejectCharge adaptBagger
    dsimp only
    rw [raiseFault_only]
    cases j <;> split <;> rfl
  unfold watchPermission
  (repeat' split) <;> first | exact hr _ _ | (cases j <;> rfl)

/-- No charge of the bagger waits on a permission to draw that is not given. -/
def State.permitted (s : State) : Prop :=
  permitsDrawing s = true ∨ s.bagger.bucket ∉ [Bucket.filling true, .filling false, .jog true, .jog false]

theorem watchPermission_permitted {s : State} (h : s.permitted) : watchPermission s = s := by
  unfold watchPermission
  rcases h with h | h
  · rw [if_pos h]
  · simp only [List.mem_cons, List.not_mem_nil, or_false, not_or] at h
    split
    · rfl
    · split
      · rename_i f _ hb _
        cases f
        · exact absurd hb h.2.1
        · exact absurd hb h.1
      · rename_i hb _
        exact absurd hb h.2.2.1
      · rename_i hb _
        exact absurd hb h.2.2.2
      · rfl

theorem permitted_of_eq {s u : State} (hs : u.still = s.still) (hb : u.bagger = s.bagger) (h : s.permitted) :
    u.permitted := by
  have hf : u.fin = s.fin := congrArg Still.fin hs
  unfold State.permitted permitsDrawing at *
  rw [hf, hb]
  exact h

/-! ### The close of an event -/

theorem still_line {s u : State} (h : u.still = s.still) : u.line = s.line := congrArg Still.line h

theorem passLine_offRun {s : State} (h : s.line ≠ .run) : passLine s = watchPermission (unbarStages s) := by
  have hw : (watchPermission (unbarStages s)).line ≠ .run := by
    rw [still_line ((watchPermission_still _).trans (unbarStages_still s))]; exact h
  unfold passLine
  rw [beginJogPulse_offRun hw, beginBaggerPulse_offRun hw, beginPress_offRun hw, beginDischargeMixer_offRun hw,
    beginGrind_offRun hw, beginDischarge_offRun hw]

theorem passBook_works {s : State} (h : s.line ≠ .run) : (passBook s).works = s.works := by
  have hm : (makeUps (markLoaded (freeCancelled (watchStep s)))).works = s.works := by
    unfold makeUps markLoaded freeCancelled
    rw [makeUpAll_works, markAll_works, endAllCancelled_works, watchStep_works]
  have hl : (makeUps (markLoaded (freeCancelled (watchStep s)))).line ≠ .run := by
    rw [still_line (works_still hm)]; exact h
  unfold passBook
  rw [admissionAttempt_offRun hl, beginBucketDischarge_offRun hl, beginRemainder_offRun hl]
  exact hm

theorem followLoops_works (s : State) : (followLoops s).works = s.works := rfl

theorem passLine_still {s : State} (h : s.line ≠ .run) : (passLine s).still = s.still := by
  rw [passLine_offRun h]; exact (watchPermission_still _).trans (unbarStages_still s)

theorem pass_works {s : State} (h : s.line ≠ .run) : (pass s).works = (passLine s).works := by
  have hl : (passLine s).line ≠ .run := by rw [still_line (passLine_still h)]; exact h
  unfold pass
  rw [followLoops_works, passBook_works hl]

theorem pass_still {s : State} (h : s.line ≠ .run) : (pass s).still = s.still := by
  exact (works_still (pass_works h)).trans (passLine_still h)

theorem pass_bagger {s : State} (h : s.line ≠ .run) (hp : s.permitted) : (pass s).bagger = s.bagger := by
  refine (works_bagger (pass_works h)).trans ?_
  rw [passLine_offRun h, watchPermission_permitted
    (permitted_of_eq (unbarStages_still s) (unbarStages_bagger s) hp), unbarStages_bagger]

theorem pass_stage {s : State} (h : s.line ≠ .run) (j : StageId) (hj : (stageOf j s).state ≠ .held) :
    stageOf j (pass s) = stageOf j s := by
  rw [works_stage (pass_works h), passLine_offRun h, watchPermission_stage, unbarStages_other j s hj]

/-- A loop whose stage is not HELD is halted (R107, R116). -/
theorem followLoops_offRun {s : State} (h : s.line ≠ .run) :
    ((followLoops s).surge.state ≠ .held → (followLoops s).train.grinder.speed = 0)
      ∧ ((followLoops s).press.state ≠ .held → (followLoops s).train.presser.speed = 0) := by
  constructor <;> intro hh <;> simp only [followLoops] at hh <;>
    simp [followLoops, FeedLoop.follow, FeedLoop.halt, grinderWanted, presserWanted, hh, h]

theorem rounds_loops {s : State} (h : s.line ≠ .run) :
    ((rounds s).surge.state ≠ .held → (rounds s).train.grinder.speed = 0)
      ∧ ((rounds s).press.state ≠ .held → (rounds s).train.presser.speed = 0) := by
  have l1 : (pass s).line ≠ .run := by rw [still_line (pass_still h)]; exact h
  have l2 : (pass (pass s)).line ≠ .run := by rw [still_line (pass_still l1)]; exact l1
  have l3 : (passLine (pass (pass s))).line ≠ .run := by rw [still_line (passLine_still l2)]; exact l2
  have l4 : (passBook (passLine (pass (pass s)))).line ≠ .run := by
    rw [still_line (works_still (passBook_works l3))]; exact l3
  have he : rounds s = followLoops (passBook (passLine (pass (pass s)))) := by unfold rounds; exact pass.eq_1 _
  rw [he]
  exact followLoops_offRun l4

theorem rounds_still {s : State} (h : s.line ≠ .run) : (rounds s).still = s.still := by
  have h1 := pass_still h
  have h2 := pass_still (s := pass s) (by rw [still_line h1]; exact h)
  have h3 := pass_still (s := pass (pass s)) (by rw [still_line (h2.trans h1)]; exact h)
  exact h3.trans (h2.trans h1)

theorem rounds_bagger {s : State} (h : s.line ≠ .run) (hp : s.permitted) : (rounds s).bagger = s.bagger := by
  have h1 := pass_still h
  have b1 := pass_bagger h hp
  have p1 := permitted_of_eq h1 b1 hp
  have l1 : (pass s).line ≠ .run := by rw [still_line h1]; exact h
  have h2 := pass_still l1
  have b2 := pass_bagger l1 p1
  have p2 := permitted_of_eq h2 b2 p1
  have b3 := pass_bagger (s := pass (pass s)) (by rw [still_line h2]; exact l1) p2
  exact b3.trans (b2.trans b1)

theorem rounds_stage {s : State} (h : s.line ≠ .run) (j : StageId) (hj : (stageOf j s).state ≠ .held) :
    stageOf j (rounds s) = stageOf j s := by
  have l1 : (pass s).line ≠ .run := by rw [still_line (pass_still h)]; exact h
  have l2 : (pass (pass s)).line ≠ .run := by rw [still_line (pass_still l1)]; exact l1
  have e1 := pass_stage h j hj
  have e2 := pass_stage l1 j (by rw [e1]; exact hj)
  have e3 := pass_stage l2 j (by rw [e2, e1]; exact hj)
  exact e3.trans (e2.trans e1)

end Sys2Proof.Machine
end

