-- ==== Sys2Proof/Laws/Payloads.lean ====
section
/-! SUPPORT. The numbers that bytes spell (R193, R194): what is formed from a number is read back as it. The bins that a
configuration memory names (R204). -/
namespace Sys2Proof.Machine

theorem beNat_be1 (n : Nat) (h : n < 256) : beNat (be1 n) = n := by
  simp [beNat, be1]; omega

theorem beNat_be2 (n : Nat) (h : n < 65536) : beNat (be2 n) = n := by
  simp [beNat, be2]; omega

theorem beNat_be3 (n : Nat) (h : n < 16777216) : beNat (be3 n) = n := by
  simp [beNat, be3]; omega

@[simp] theorem be1_length (n : Nat) : (be1 n).length = 1 := rfl
@[simp] theorem be2_length (n : Nat) : (be2 n).length = 2 := rfl
@[simp] theorem be3_length (n : Nat) : (be3 n).length = 3 := rfl

/-- A field that stands after `k` bytes. -/
theorem field_at (k n : Nat) (a b c : List Byte) (ha : a.length = k) (hb : b.length = n) :
    field k n (a ++ b ++ c) = beNat b := by
  subst ha hb
  simp [field]

theorem byteAt_at (k : Nat) (a c : List Byte) (n : Nat) (ha : a.length = k) (hn : n < 256) :
    byteAt k (a ++ be1 n ++ c) = n := by
  subst ha
  simp [byteAt, be1]
  omega

/-- The pairs of a list, each a byte and a field of `n` bytes, are read back. -/
theorem pairsOf_flatten (n : Nat) (enc : Nat → List Byte) (hl : ∀ v, (enc v).length = n) (pairs : List (Nat × Nat))
    (h1 : ∀ p ∈ pairs, p.1 < 256) (h2 : ∀ p ∈ pairs, beNat (enc p.2) = p.2) :
    pairsOf n pairs.length (pairs.map (fun p => be1 p.1 ++ enc p.2)).flatten = pairs := by
  unfold pairsOf
  induction pairs with
  | nil => rfl
  | cons p ps ih =>
    have ih := ih (fun q hq => h1 q (by simp [hq])) (fun q hq => h2 q (by simp [hq]))
    have hp := h1 p (by simp)
    have hv := h2 p (by simp)
    rw [List.length_cons, List.range_succ_eq_map, List.map_cons, List.map_map]
    refine congrArg₂ _ ?_ ?_
    · have e1 : field 1 n (be1 p.1 ++ enc p.2 ++ (ps.map (fun p => be1 p.1 ++ enc p.2)).flatten) = beNat (enc p.2) :=
        field_at 1 n (be1 p.1) (enc p.2) _ rfl (hl _)
      have e2 := byteAt_at 0 [] (enc p.2 ++ (ps.map (fun p => be1 p.1 ++ enc p.2)).flatten) p.1 rfl hp
      simp only [List.map_cons, List.flatten_cons, Nat.zero_mul, Nat.zero_add, e1, hv]
      simp only [List.nil_append, List.append_assoc] at e2 ⊢
      rw [e2]
    · conv_rhs => rw [← ih]
      refine List.map_congr_left ?_
      intro k _
      have hlen : (be1 p.1 ++ enc p.2).length = n + 1 := by simp [hl]; omega
      have hd : (k + 1) * (n + 1) = (be1 p.1 ++ enc p.2).length + k * (n + 1) := by rw [hlen]; ring
      have hd2 : (k + 1) * (n + 1) + 1 = (be1 p.1 ++ enc p.2).length + (k * (n + 1) + 1) := by rw [hlen]; ring
      simp only [Function.comp, Nat.succ_eq_add_one, List.map_cons, List.flatten_cons, byteAt, field]
      rw [hd2, hd, List.drop_length_add_append, List.getElem?_append_right (by omega), Nat.add_sub_cancel_left]

/-- A payload that lists records of `w` bytes each: past the bytes of the first `k` stand the records that follow. -/
theorem drop_flatten_records {α : Type} (w : Nat) (enc : α → List Byte) (hl : ∀ x, (enc x).length = w) (l : List α)
    (k : Nat) : (l.map enc).flatten.drop (w * k) = ((l.drop k).map enc).flatten := by
  induction l generalizing k with
  | nil => simp
  | cons x xs ih =>
    cases k with
    | zero => simp
    | succ k =>
      have h : w * (k + 1) = (enc x).length + w * k := by rw [hl]; ring
      rw [List.map_cons, List.flatten_cons, h, List.drop_length_add_append, ih, List.drop_succ_cons]

/-- R204: no bin but 0 is named twice. -/
theorem distinctBins_iff (l : List Nat) : distinctBins l = true ↔
    ∀ i j a : Nat, i < j → l[i]? = some a → l[j]? = some a → a = 0 := by
  induction l with
  | nil => simp [distinctBins]
  | cons x xs ih =>
    simp only [distinctBins, Bool.and_eq_true, Bool.or_eq_true, decide_eq_true_eq, Bool.not_eq_true', ih]
    constructor
    · rintro ⟨h, h2⟩ i j a hij ha hb
      obtain ⟨j, rfl⟩ : ∃ m, j = m + 1 := ⟨j - 1, by omega⟩
      cases i with
      | zero =>
        simp only [List.getElem?_cons_zero, Option.some.injEq, List.getElem?_cons_succ] at ha hb
        subst ha
        exact h.resolve_right (by simp [List.mem_of_getElem? hb])
      | succ i => exact h2 i j a (by omega) (by simpa using ha) (by simpa using hb)
    · intro h
      refine ⟨?_, fun i j a hij ha hb => h (i + 1) (j + 1) a (by omega) (by simpa using ha) (by simpa using hb)⟩
      by_cases hx : x ∈ xs
      · obtain ⟨j, hj, e⟩ := List.mem_iff_getElem.1 hx
        exact .inl (h 0 (j + 1) x (by omega) (by simp) (by simp [hj, e]))
      · exact .inr (by simpa using hx)

end Sys2Proof.Machine
end

