-- ==== Sys2Proof/WellFormed.lean ====
section
/-! DEFINITION. Which commands are well formed: their operands lie in the ranges of 00_scope.md (Identifiers) and of
the rules named. The node gives an ill-formed command no effect of its own (notes/assumptions/3.md). -/
namespace Sys2Proof

/-- The operands of a command lie in range. -/
def Instr.wf : Instr → Bool
  | .powerOn _ memory _ => decide (memory.length ≤ 512)                            -- R204
  | .frameReceived f => decide (f.payload.length ≤ 96)                             -- R193
  | .staleAgeExpiry bin => decide (1 ≤ bin ∧ bin ≤ 48)                             -- R42
  | .peerDrawAgeExpiry node batch bin =>
      decide (1 ≤ node ∧ node ≤ 30 ∧ 1 ≤ batch ∧ batch ≤ 65535 ∧ 1 ≤ bin ∧ bin ≤ 48)  -- R48
  | .bayTimerExpiry bay => decide (1 ≤ bay ∧ bay ≤ 4)                              -- R165
  | .claimWindowExpiry order => decide (1 ≤ order ∧ order ≤ 65535)                 -- R2
  | .levelSensorReading _ _ => true
  | .resetAssert | .warmReset _ | .listeningEnd | .transmitAttempt _ | .attemptLost | .attemptComplete
  | .time | .offer | .claim | .take | .yieldReceived | .relevel | .cancel | .quarantine | .intake | .level
  | .drawNotice | .drawReport | .hello | .truckPlan | .bayHold | .loaded | .ack _ | .pause _ | .resume _
  | .dumpScale _ | .dumpSurge _ | .dumpMixer _ | .dumpPress _ | .dumpFinished _ | .localStopInput _
  | .stopAsserted | .stopReleased | .handAddDone | .bagClamp _ | .surgeEmptyInput _ | .mixerEmptyInput _
  | .pressBinEmptyInput _ | .scaleSample _ | .bucketSample _ | .finishedBinSample _ | .currentSample _ _
  | .temperatureSample _ | .oneSecondEvent | .bayTimeStep | .bayLost | .settleTimeout | .stallTimerExpiry
  | .jogTimerExpiry | .residueTimerExpiry | .grindRunoutExpiry | .mixTimerExpiry | .mixerRunoutExpiry
  | .dischargeTimeout | .pressRunoutExpiry | .condLow | .overloadTimerExpiry _ | .dumpRunoutExpiry _
  | .finishedDumpTimerExpiry | .fillTimerExpiry | .baggerSettleTimeout | .baggerJogTimerExpiry
  | .dischargeTimerExpiry | .contentionTimerExpiry | .renewalTimerExpiry | .loadoutSettleTimeout
  | .flashTimerExpiry _ | .characterReceived _ => true

end Sys2Proof
end

