-- ==== Sys2Proof/Laws/PerInstr.lean ====
section
/-! SUPPORT. The family `Operands`: for every command, what well-formedness says of its operands (00_scope.md,
Identifiers). -/
namespace Sys2Proof.Laws.Operands

/-- The ranges of a command's operands, as the manual states them. -/
def InRange : Instr → Prop
  | .powerOn _ memory _ => memory.length < 513
  | .frameReceived f => f.payload.length < 97
  | .staleAgeExpiry bin => bin ≠ 0 ∧ bin < 49
  | .peerDrawAgeExpiry node batch bin =>
      node ≠ 0 ∧ node < 31 ∧ batch ≠ 0 ∧ batch < 65536 ∧ bin ≠ 0 ∧ bin < 49
  | .bayTimerExpiry bay => bay ≠ 0 ∧ bay < 5
  | .claimWindowExpiry order => order ≠ 0 ∧ order < 65536
  | _ => True

/-- A command is well formed exactly when its operands lie in range. -/
def Statement (i : Instr) : Prop := i.wf = true ↔ InRange i

theorem powerOn (pins : BitVec 11) (memory : List Byte) (inputs : Inputs) : Statement (.powerOn pins memory inputs) := by
  simp only [Statement, Instr.wf, InRange, decide_eq_true_eq]; omega
theorem resetAssert : Statement (.resetAssert) := ⟨fun _ => trivial, fun _ => rfl⟩
theorem warmReset (inputs : Inputs) : Statement (.warmReset inputs) := ⟨fun _ => trivial, fun _ => rfl⟩
theorem listeningEnd : Statement (.listeningEnd) := ⟨fun _ => trivial, fun _ => rfl⟩
theorem frameReceived (f : RawFrame) : Statement (.frameReceived f) := by
  simp only [Statement, Instr.wf, InRange, decide_eq_true_eq]; omega
theorem transmitAttempt (idle : Nat) : Statement (.transmitAttempt idle) := ⟨fun _ => trivial, fun _ => rfl⟩
theorem attemptLost : Statement (.attemptLost) := ⟨fun _ => trivial, fun _ => rfl⟩
theorem attemptComplete : Statement (.attemptComplete) := ⟨fun _ => trivial, fun _ => rfl⟩
theorem time : Statement (.time) := ⟨fun _ => trivial, fun _ => rfl⟩
theorem offer : Statement (.offer) := ⟨fun _ => trivial, fun _ => rfl⟩
theorem claim : Statement (.claim) := ⟨fun _ => trivial, fun _ => rfl⟩
theorem take : Statement (.take) := ⟨fun _ => trivial, fun _ => rfl⟩
theorem yieldReceived : Statement (.yieldReceived) := ⟨fun _ => trivial, fun _ => rfl⟩
theorem relevel : Statement (.relevel) := ⟨fun _ => trivial, fun _ => rfl⟩
theorem cancel : Statement (.cancel) := ⟨fun _ => trivial, fun _ => rfl⟩
theorem quarantine : Statement (.quarantine) := ⟨fun _ => trivial, fun _ => rfl⟩
theorem intake : Statement (.intake) := ⟨fun _ => trivial, fun _ => rfl⟩
theorem level : Statement (.level) := ⟨fun _ => trivial, fun _ => rfl⟩
theorem drawNotice : Statement (.drawNotice) := ⟨fun _ => trivial, fun _ => rfl⟩
theorem drawReport : Statement (.drawReport) := ⟨fun _ => trivial, fun _ => rfl⟩
theorem hello : Statement (.hello) := ⟨fun _ => trivial, fun _ => rfl⟩
theorem truckPlan : Statement (.truckPlan) := ⟨fun _ => trivial, fun _ => rfl⟩
theorem bayHold : Statement (.bayHold) := ⟨fun _ => trivial, fun _ => rfl⟩
theorem loaded : Statement (.loaded) := ⟨fun _ => trivial, fun _ => rfl⟩
theorem ack (origin : AckOrigin) : Statement (.ack origin) := ⟨fun _ => trivial, fun _ => rfl⟩
theorem pause (origin : Origin) : Statement (.pause origin) := ⟨fun _ => trivial, fun _ => rfl⟩
theorem resume (origin : Origin) : Statement (.resume origin) := ⟨fun _ => trivial, fun _ => rfl⟩
theorem dumpScale (origin : Origin) : Statement (.dumpScale origin) := ⟨fun _ => trivial, fun _ => rfl⟩
theorem dumpSurge (origin : Origin) : Statement (.dumpSurge origin) := ⟨fun _ => trivial, fun _ => rfl⟩
theorem dumpMixer (origin : Origin) : Statement (.dumpMixer origin) := ⟨fun _ => trivial, fun _ => rfl⟩
theorem dumpPress (origin : Origin) : Statement (.dumpPress origin) := ⟨fun _ => trivial, fun _ => rfl⟩
theorem dumpFinished (origin : Origin) : Statement (.dumpFinished origin) := ⟨fun _ => trivial, fun _ => rfl⟩
theorem localStopInput (active : Bool) : Statement (.localStopInput active) := ⟨fun _ => trivial, fun _ => rfl⟩
theorem stopAsserted : Statement (.stopAsserted) := ⟨fun _ => trivial, fun _ => rfl⟩
theorem stopReleased : Statement (.stopReleased) := ⟨fun _ => trivial, fun _ => rfl⟩
theorem handAddDone : Statement (.handAddDone) := ⟨fun _ => trivial, fun _ => rfl⟩
theorem bagClamp (present : Bool) : Statement (.bagClamp present) := ⟨fun _ => trivial, fun _ => rfl⟩
theorem surgeEmptyInput (empty : Bool) : Statement (.surgeEmptyInput empty) := ⟨fun _ => trivial, fun _ => rfl⟩
theorem mixerEmptyInput (empty : Bool) : Statement (.mixerEmptyInput empty) := ⟨fun _ => trivial, fun _ => rfl⟩
theorem pressBinEmptyInput (empty : Bool) : Statement (.pressBinEmptyInput empty) := ⟨fun _ => trivial, fun _ => rfl⟩
theorem scaleSample (count : BitVec 24) : Statement (.scaleSample count) := ⟨fun _ => trivial, fun _ => rfl⟩
theorem bucketSample (count : BitVec 24) : Statement (.bucketSample count) := ⟨fun _ => trivial, fun _ => rfl⟩
theorem finishedBinSample (count : BitVec 24) : Statement (.finishedBinSample count) := ⟨fun _ => trivial, fun _ => rfl⟩
theorem currentSample (loop : LoopId) (current : BitVec 12) : Statement (.currentSample loop current) := ⟨fun _ => trivial, fun _ => rfl⟩
theorem temperatureSample (temperature : BitVec 16) : Statement (.temperatureSample temperature) := ⟨fun _ => trivial, fun _ => rfl⟩
theorem levelSensorReading (sensor : Fin 4) (reading : BitVec 16) : Statement (.levelSensorReading sensor reading) := ⟨fun _ => trivial, fun _ => rfl⟩
theorem oneSecondEvent : Statement (.oneSecondEvent) := ⟨fun _ => trivial, fun _ => rfl⟩
theorem staleAgeExpiry (bin : Nat) : Statement (.staleAgeExpiry bin) := by
  simp only [Statement, Instr.wf, InRange, decide_eq_true_eq]; omega
theorem peerDrawAgeExpiry (node batch bin : Nat) : Statement (.peerDrawAgeExpiry node batch bin) := by
  simp only [Statement, Instr.wf, InRange, decide_eq_true_eq]; omega
theorem bayTimeStep : Statement (.bayTimeStep) := ⟨fun _ => trivial, fun _ => rfl⟩
theorem bayTimerExpiry (bay : Nat) : Statement (.bayTimerExpiry bay) := by
  simp only [Statement, Instr.wf, InRange, decide_eq_true_eq]; omega
theorem bayLost : Statement (.bayLost) := ⟨fun _ => trivial, fun _ => rfl⟩
theorem claimWindowExpiry (order : Nat) : Statement (.claimWindowExpiry order) := by
  simp only [Statement, Instr.wf, InRange, decide_eq_true_eq]; omega
theorem settleTimeout : Statement (.settleTimeout) := ⟨fun _ => trivial, fun _ => rfl⟩
theorem stallTimerExpiry : Statement (.stallTimerExpiry) := ⟨fun _ => trivial, fun _ => rfl⟩
theorem jogTimerExpiry : Statement (.jogTimerExpiry) := ⟨fun _ => trivial, fun _ => rfl⟩
theorem residueTimerExpiry : Statement (.residueTimerExpiry) := ⟨fun _ => trivial, fun _ => rfl⟩
theorem grindRunoutExpiry : Statement (.grindRunoutExpiry) := ⟨fun _ => trivial, fun _ => rfl⟩
theorem mixTimerExpiry : Statement (.mixTimerExpiry) := ⟨fun _ => trivial, fun _ => rfl⟩
theorem mixerRunoutExpiry : Statement (.mixerRunoutExpiry) := ⟨fun _ => trivial, fun _ => rfl⟩
theorem dischargeTimeout : Statement (.dischargeTimeout) := ⟨fun _ => trivial, fun _ => rfl⟩
theorem pressRunoutExpiry : Statement (.pressRunoutExpiry) := ⟨fun _ => trivial, fun _ => rfl⟩
theorem condLow : Statement (.condLow) := ⟨fun _ => trivial, fun _ => rfl⟩
theorem overloadTimerExpiry (loop : LoopId) : Statement (.overloadTimerExpiry loop) := ⟨fun _ => trivial, fun _ => rfl⟩
theorem dumpRunoutExpiry (stage : StageId) : Statement (.dumpRunoutExpiry stage) := ⟨fun _ => trivial, fun _ => rfl⟩
theorem finishedDumpTimerExpiry : Statement (.finishedDumpTimerExpiry) := ⟨fun _ => trivial, fun _ => rfl⟩
theorem fillTimerExpiry : Statement (.fillTimerExpiry) := ⟨fun _ => trivial, fun _ => rfl⟩
theorem baggerSettleTimeout : Statement (.baggerSettleTimeout) := ⟨fun _ => trivial, fun _ => rfl⟩
theorem baggerJogTimerExpiry : Statement (.baggerJogTimerExpiry) := ⟨fun _ => trivial, fun _ => rfl⟩
theorem dischargeTimerExpiry : Statement (.dischargeTimerExpiry) := ⟨fun _ => trivial, fun _ => rfl⟩
theorem contentionTimerExpiry : Statement (.contentionTimerExpiry) := ⟨fun _ => trivial, fun _ => rfl⟩
theorem renewalTimerExpiry : Statement (.renewalTimerExpiry) := ⟨fun _ => trivial, fun _ => rfl⟩
theorem loadoutSettleTimeout : Statement (.loadoutSettleTimeout) := ⟨fun _ => trivial, fun _ => rfl⟩
theorem flashTimerExpiry (lamp : LampId) : Statement (.flashTimerExpiry lamp) := ⟨fun _ => trivial, fun _ => rfl⟩
theorem characterReceived (samples : BitVec 36) : Statement (.characterReceived samples) := ⟨fun _ => trivial, fun _ => rfl⟩

end Sys2Proof.Laws.Operands
end

