-- ==== Sys2Proof/Laws/State.lean ====
section
/-! SUPPORT. One lemma per field for each named update of the state, true by rfl, so that no proof unfolds a record update. -/
namespace Sys2Proof.Machine

/-! ### setScale -/

@[simp] theorem setScale_power (st : ScaleState) (s : State) : (setScale st s).power = s.power := rfl
@[simp] theorem setScale_resetPin (st : ScaleState) (s : State) : (setScale st s).resetPin = s.resetPin := rfl
@[simp] theorem setScale_straps (st : ScaleState) (s : State) : (setScale st s).straps = s.straps := rfl
@[simp] theorem setScale_params (st : ScaleState) (s : State) : (setScale st s).params = s.params := rfl
@[simp] theorem setScale_divider (st : ScaleState) (s : State) : (setScale st s).divider = s.divider := rfl
@[simp] theorem setScale_inputs (st : ScaleState) (s : State) : (setScale st s).inputs = s.inputs := rfl
@[simp] theorem setScale_rx (st : ScaleState) (s : State) : (setScale st s).rx = s.rx := rfl
@[simp] theorem setScale_tx (st : ScaleState) (s : State) : (setScale st s).tx = s.tx := rfl
@[simp] theorem setScale_millTime (st : ScaleState) (s : State) : (setScale st s).millTime = s.millTime := rfl
@[simp] theorem setScale_slots (st : ScaleState) (s : State) : (setScale st s).slots = s.slots := rfl
@[simp] theorem setScale_takeCounter (st : ScaleState) (s : State) : (setScale st s).takeCounter = s.takeCounter := rfl
@[simp] theorem setScale_batchCounter (st : ScaleState) (s : State) : (setScale st s).batchCounter = s.batchCounter := rfl
@[simp] theorem setScale_reannounce (st : ScaleState) (s : State) : (setScale st s).reannounce = s.reannounce := rfl
@[simp] theorem setScale_carry (st : ScaleState) (s : State) : (setScale st s).carry = s.carry := rfl
@[simp] theorem setScale_bins (st : ScaleState) (s : State) : (setScale st s).bins = s.bins := rfl
@[simp] theorem setScale_peers (st : ScaleState) (s : State) : (setScale st s).peers = s.peers := rfl
@[simp] theorem setScale_reservations (st : ScaleState) (s : State) : (setScale st s).reservations = s.reservations := rfl
@[simp] theorem setScale_plan (st : ScaleState) (s : State) : (setScale st s).plan = s.plan := rfl
@[simp] theorem setScale_levels (st : ScaleState) (s : State) : (setScale st s).levels = s.levels := rfl
@[simp] theorem setScale_scaleConv (st : ScaleState) (s : State) : (setScale st s).scaleConv = s.scaleConv := rfl
@[simp] theorem setScale_bucketConv (st : ScaleState) (s : State) : (setScale st s).bucketConv = s.bucketConv := rfl
@[simp] theorem setScale_finConv (st : ScaleState) (s : State) : (setScale st s).finConv = s.finConv := rfl
@[simp] theorem setScale_channels (st : ScaleState) (s : State) : (setScale st s).channels = s.channels := rfl
@[simp] theorem setScale_scale (st : ScaleState) (s : State) : (setScale st s).scale = { s.scale with state := st } := rfl
@[simp] theorem setScale_surge (st : ScaleState) (s : State) : (setScale st s).surge = s.surge := rfl
@[simp] theorem setScale_mixer (st : ScaleState) (s : State) : (setScale st s).mixer = s.mixer := rfl
@[simp] theorem setScale_press (st : ScaleState) (s : State) : (setScale st s).press = s.press := rfl
@[simp] theorem setScale_train (st : ScaleState) (s : State) : (setScale st s).train = s.train := rfl
@[simp] theorem setScale_fin (st : ScaleState) (s : State) : (setScale st s).fin = s.fin := rfl
@[simp] theorem setScale_bagger (st : ScaleState) (s : State) : (setScale st s).bagger = s.bagger := rfl
@[simp] theorem setScale_hold (st : ScaleState) (s : State) : (setScale st s).hold = s.hold := rfl
@[simp] theorem setScale_step (st : ScaleState) (s : State) : (setScale st s).step = s.step := rfl
@[simp] theorem setScale_stepTimer (st : ScaleState) (s : State) : (setScale st s).stepTimer = s.stepTimer := rfl
@[simp] theorem setScale_trucks (st : ScaleState) (s : State) : (setScale st s).trucks = s.trucks := rfl
@[simp] theorem setScale_bays (st : ScaleState) (s : State) : (setScale st s).bays = s.bays := rfl
@[simp] theorem setScale_line (st : ScaleState) (s : State) : (setScale st s).line = s.line := rfl
@[simp] theorem setScale_reports (st : ScaleState) (s : State) : (setScale st s).reports = s.reports := rfl
@[simp] theorem setScale_faults (st : ScaleState) (s : State) : (setScale st s).faults = s.faults := rfl
@[simp] theorem setScale_lamps (st : ScaleState) (s : State) : (setScale st s).lamps = s.lamps := rfl
@[simp] theorem setScale_pins (st : ScaleState) (s : State) : (setScale st s).pins = s.pins := rfl
@[simp] theorem setScale_free (st : ScaleState) (s : State) : (setScale st s).free = s.free := rfl
@[simp] theorem setScale_pending (st : ScaleState) (s : State) : (setScale st s).pending = s.pending := rfl

/-! ### updDose -/

@[simp] theorem updDose_power (p : Nat) (f : Dose → Dose) (s : State) : (updDose p f s).power = s.power := rfl
@[simp] theorem updDose_resetPin (p : Nat) (f : Dose → Dose) (s : State) : (updDose p f s).resetPin = s.resetPin := rfl
@[simp] theorem updDose_straps (p : Nat) (f : Dose → Dose) (s : State) : (updDose p f s).straps = s.straps := rfl
@[simp] theorem updDose_params (p : Nat) (f : Dose → Dose) (s : State) : (updDose p f s).params = s.params := rfl
@[simp] theorem updDose_divider (p : Nat) (f : Dose → Dose) (s : State) : (updDose p f s).divider = s.divider := rfl
@[simp] theorem updDose_inputs (p : Nat) (f : Dose → Dose) (s : State) : (updDose p f s).inputs = s.inputs := rfl
@[simp] theorem updDose_rx (p : Nat) (f : Dose → Dose) (s : State) : (updDose p f s).rx = s.rx := rfl
@[simp] theorem updDose_tx (p : Nat) (f : Dose → Dose) (s : State) : (updDose p f s).tx = s.tx := rfl
@[simp] theorem updDose_millTime (p : Nat) (f : Dose → Dose) (s : State) : (updDose p f s).millTime = s.millTime := rfl
@[simp] theorem updDose_slots (p : Nat) (f : Dose → Dose) (s : State) : (updDose p f s).slots = s.slots := rfl
@[simp] theorem updDose_takeCounter (p : Nat) (f : Dose → Dose) (s : State) : (updDose p f s).takeCounter = s.takeCounter := rfl
@[simp] theorem updDose_batchCounter (p : Nat) (f : Dose → Dose) (s : State) : (updDose p f s).batchCounter = s.batchCounter := rfl
@[simp] theorem updDose_reannounce (p : Nat) (f : Dose → Dose) (s : State) : (updDose p f s).reannounce = s.reannounce := rfl
@[simp] theorem updDose_carry (p : Nat) (f : Dose → Dose) (s : State) : (updDose p f s).carry = s.carry := rfl
@[simp] theorem updDose_bins (p : Nat) (f : Dose → Dose) (s : State) : (updDose p f s).bins = s.bins := rfl
@[simp] theorem updDose_peers (p : Nat) (f : Dose → Dose) (s : State) : (updDose p f s).peers = s.peers := rfl
@[simp] theorem updDose_reservations (p : Nat) (f : Dose → Dose) (s : State) : (updDose p f s).reservations = s.reservations := rfl
@[simp] theorem updDose_plan (p : Nat) (f : Dose → Dose) (s : State) : (updDose p f s).plan = s.plan := rfl
@[simp] theorem updDose_levels (p : Nat) (f : Dose → Dose) (s : State) : (updDose p f s).levels = s.levels := rfl
@[simp] theorem updDose_scaleConv (p : Nat) (f : Dose → Dose) (s : State) : (updDose p f s).scaleConv = s.scaleConv := rfl
@[simp] theorem updDose_bucketConv (p : Nat) (f : Dose → Dose) (s : State) : (updDose p f s).bucketConv = s.bucketConv := rfl
@[simp] theorem updDose_finConv (p : Nat) (f : Dose → Dose) (s : State) : (updDose p f s).finConv = s.finConv := rfl
@[simp] theorem updDose_channels (p : Nat) (f : Dose → Dose) (s : State) : (updDose p f s).channels = s.channels := rfl
@[simp] theorem updDose_surge (p : Nat) (f : Dose → Dose) (s : State) : (updDose p f s).surge = s.surge := rfl
@[simp] theorem updDose_mixer (p : Nat) (f : Dose → Dose) (s : State) : (updDose p f s).mixer = s.mixer := rfl
@[simp] theorem updDose_press (p : Nat) (f : Dose → Dose) (s : State) : (updDose p f s).press = s.press := rfl
@[simp] theorem updDose_train (p : Nat) (f : Dose → Dose) (s : State) : (updDose p f s).train = s.train := rfl
@[simp] theorem updDose_fin (p : Nat) (f : Dose → Dose) (s : State) : (updDose p f s).fin = s.fin := rfl
@[simp] theorem updDose_bagger (p : Nat) (f : Dose → Dose) (s : State) : (updDose p f s).bagger = s.bagger := rfl
@[simp] theorem updDose_hold (p : Nat) (f : Dose → Dose) (s : State) : (updDose p f s).hold = s.hold := rfl
@[simp] theorem updDose_step (p : Nat) (f : Dose → Dose) (s : State) : (updDose p f s).step = s.step := rfl
@[simp] theorem updDose_stepTimer (p : Nat) (f : Dose → Dose) (s : State) : (updDose p f s).stepTimer = s.stepTimer := rfl
@[simp] theorem updDose_trucks (p : Nat) (f : Dose → Dose) (s : State) : (updDose p f s).trucks = s.trucks := rfl
@[simp] theorem updDose_bays (p : Nat) (f : Dose → Dose) (s : State) : (updDose p f s).bays = s.bays := rfl
@[simp] theorem updDose_line (p : Nat) (f : Dose → Dose) (s : State) : (updDose p f s).line = s.line := rfl
@[simp] theorem updDose_reports (p : Nat) (f : Dose → Dose) (s : State) : (updDose p f s).reports = s.reports := rfl
@[simp] theorem updDose_faults (p : Nat) (f : Dose → Dose) (s : State) : (updDose p f s).faults = s.faults := rfl
@[simp] theorem updDose_lamps (p : Nat) (f : Dose → Dose) (s : State) : (updDose p f s).lamps = s.lamps := rfl
@[simp] theorem updDose_pins (p : Nat) (f : Dose → Dose) (s : State) : (updDose p f s).pins = s.pins := rfl
@[simp] theorem updDose_free (p : Nat) (f : Dose → Dose) (s : State) : (updDose p f s).free = s.free := rfl
@[simp] theorem updDose_pending (p : Nat) (f : Dose → Dose) (s : State) : (updDose p f s).pending = s.pending := rfl

/-! ### updRecord -/

@[simp] theorem updRecord_power (f : Batch → Batch) (s : State) : (updRecord f s).power = s.power := rfl
@[simp] theorem updRecord_resetPin (f : Batch → Batch) (s : State) : (updRecord f s).resetPin = s.resetPin := rfl
@[simp] theorem updRecord_straps (f : Batch → Batch) (s : State) : (updRecord f s).straps = s.straps := rfl
@[simp] theorem updRecord_params (f : Batch → Batch) (s : State) : (updRecord f s).params = s.params := rfl
@[simp] theorem updRecord_divider (f : Batch → Batch) (s : State) : (updRecord f s).divider = s.divider := rfl
@[simp] theorem updRecord_inputs (f : Batch → Batch) (s : State) : (updRecord f s).inputs = s.inputs := rfl
@[simp] theorem updRecord_rx (f : Batch → Batch) (s : State) : (updRecord f s).rx = s.rx := rfl
@[simp] theorem updRecord_tx (f : Batch → Batch) (s : State) : (updRecord f s).tx = s.tx := rfl
@[simp] theorem updRecord_millTime (f : Batch → Batch) (s : State) : (updRecord f s).millTime = s.millTime := rfl
@[simp] theorem updRecord_slots (f : Batch → Batch) (s : State) : (updRecord f s).slots = s.slots := rfl
@[simp] theorem updRecord_takeCounter (f : Batch → Batch) (s : State) : (updRecord f s).takeCounter = s.takeCounter := rfl
@[simp] theorem updRecord_batchCounter (f : Batch → Batch) (s : State) : (updRecord f s).batchCounter = s.batchCounter := rfl
@[simp] theorem updRecord_reannounce (f : Batch → Batch) (s : State) : (updRecord f s).reannounce = s.reannounce := rfl
@[simp] theorem updRecord_carry (f : Batch → Batch) (s : State) : (updRecord f s).carry = s.carry := rfl
@[simp] theorem updRecord_bins (f : Batch → Batch) (s : State) : (updRecord f s).bins = s.bins := rfl
@[simp] theorem updRecord_peers (f : Batch → Batch) (s : State) : (updRecord f s).peers = s.peers := rfl
@[simp] theorem updRecord_reservations (f : Batch → Batch) (s : State) : (updRecord f s).reservations = s.reservations := rfl
@[simp] theorem updRecord_plan (f : Batch → Batch) (s : State) : (updRecord f s).plan = s.plan := rfl
@[simp] theorem updRecord_levels (f : Batch → Batch) (s : State) : (updRecord f s).levels = s.levels := rfl
@[simp] theorem updRecord_scaleConv (f : Batch → Batch) (s : State) : (updRecord f s).scaleConv = s.scaleConv := rfl
@[simp] theorem updRecord_bucketConv (f : Batch → Batch) (s : State) : (updRecord f s).bucketConv = s.bucketConv := rfl
@[simp] theorem updRecord_finConv (f : Batch → Batch) (s : State) : (updRecord f s).finConv = s.finConv := rfl
@[simp] theorem updRecord_channels (f : Batch → Batch) (s : State) : (updRecord f s).channels = s.channels := rfl
@[simp] theorem updRecord_surge (f : Batch → Batch) (s : State) : (updRecord f s).surge = s.surge := rfl
@[simp] theorem updRecord_mixer (f : Batch → Batch) (s : State) : (updRecord f s).mixer = s.mixer := rfl
@[simp] theorem updRecord_press (f : Batch → Batch) (s : State) : (updRecord f s).press = s.press := rfl
@[simp] theorem updRecord_train (f : Batch → Batch) (s : State) : (updRecord f s).train = s.train := rfl
@[simp] theorem updRecord_fin (f : Batch → Batch) (s : State) : (updRecord f s).fin = s.fin := rfl
@[simp] theorem updRecord_bagger (f : Batch → Batch) (s : State) : (updRecord f s).bagger = s.bagger := rfl
@[simp] theorem updRecord_hold (f : Batch → Batch) (s : State) : (updRecord f s).hold = s.hold := rfl
@[simp] theorem updRecord_step (f : Batch → Batch) (s : State) : (updRecord f s).step = s.step := rfl
@[simp] theorem updRecord_stepTimer (f : Batch → Batch) (s : State) : (updRecord f s).stepTimer = s.stepTimer := rfl
@[simp] theorem updRecord_trucks (f : Batch → Batch) (s : State) : (updRecord f s).trucks = s.trucks := rfl
@[simp] theorem updRecord_bays (f : Batch → Batch) (s : State) : (updRecord f s).bays = s.bays := rfl
@[simp] theorem updRecord_line (f : Batch → Batch) (s : State) : (updRecord f s).line = s.line := rfl
@[simp] theorem updRecord_reports (f : Batch → Batch) (s : State) : (updRecord f s).reports = s.reports := rfl
@[simp] theorem updRecord_faults (f : Batch → Batch) (s : State) : (updRecord f s).faults = s.faults := rfl
@[simp] theorem updRecord_lamps (f : Batch → Batch) (s : State) : (updRecord f s).lamps = s.lamps := rfl
@[simp] theorem updRecord_pins (f : Batch → Batch) (s : State) : (updRecord f s).pins = s.pins := rfl
@[simp] theorem updRecord_free (f : Batch → Batch) (s : State) : (updRecord f s).free = s.free := rfl
@[simp] theorem updRecord_pending (f : Batch → Batch) (s : State) : (updRecord f s).pending = s.pending := rfl

/-! ### setResume -/

@[simp] theorem setResume_power (r : ResumePoint) (s : State) : (setResume r s).power = s.power := rfl
@[simp] theorem setResume_resetPin (r : ResumePoint) (s : State) : (setResume r s).resetPin = s.resetPin := rfl
@[simp] theorem setResume_straps (r : ResumePoint) (s : State) : (setResume r s).straps = s.straps := rfl
@[simp] theorem setResume_params (r : ResumePoint) (s : State) : (setResume r s).params = s.params := rfl
@[simp] theorem setResume_divider (r : ResumePoint) (s : State) : (setResume r s).divider = s.divider := rfl
@[simp] theorem setResume_inputs (r : ResumePoint) (s : State) : (setResume r s).inputs = s.inputs := rfl
@[simp] theorem setResume_rx (r : ResumePoint) (s : State) : (setResume r s).rx = s.rx := rfl
@[simp] theorem setResume_tx (r : ResumePoint) (s : State) : (setResume r s).tx = s.tx := rfl
@[simp] theorem setResume_millTime (r : ResumePoint) (s : State) : (setResume r s).millTime = s.millTime := rfl
@[simp] theorem setResume_slots (r : ResumePoint) (s : State) : (setResume r s).slots = s.slots := rfl
@[simp] theorem setResume_takeCounter (r : ResumePoint) (s : State) : (setResume r s).takeCounter = s.takeCounter := rfl
@[simp] theorem setResume_batchCounter (r : ResumePoint) (s : State) : (setResume r s).batchCounter = s.batchCounter := rfl
@[simp] theorem setResume_reannounce (r : ResumePoint) (s : State) : (setResume r s).reannounce = s.reannounce := rfl
@[simp] theorem setResume_carry (r : ResumePoint) (s : State) : (setResume r s).carry = s.carry := rfl
@[simp] theorem setResume_bins (r : ResumePoint) (s : State) : (setResume r s).bins = s.bins := rfl
@[simp] theorem setResume_peers (r : ResumePoint) (s : State) : (setResume r s).peers = s.peers := rfl
@[simp] theorem setResume_reservations (r : ResumePoint) (s : State) : (setResume r s).reservations = s.reservations := rfl
@[simp] theorem setResume_plan (r : ResumePoint) (s : State) : (setResume r s).plan = s.plan := rfl
@[simp] theorem setResume_levels (r : ResumePoint) (s : State) : (setResume r s).levels = s.levels := rfl
@[simp] theorem setResume_scaleConv (r : ResumePoint) (s : State) : (setResume r s).scaleConv = s.scaleConv := rfl
@[simp] theorem setResume_bucketConv (r : ResumePoint) (s : State) : (setResume r s).bucketConv = s.bucketConv := rfl
@[simp] theorem setResume_finConv (r : ResumePoint) (s : State) : (setResume r s).finConv = s.finConv := rfl
@[simp] theorem setResume_channels (r : ResumePoint) (s : State) : (setResume r s).channels = s.channels := rfl
@[simp] theorem setResume_scale (r : ResumePoint) (s : State) : (setResume r s).scale = { s.scale with resume := some r } := rfl
@[simp] theorem setResume_surge (r : ResumePoint) (s : State) : (setResume r s).surge = s.surge := rfl
@[simp] theorem setResume_mixer (r : ResumePoint) (s : State) : (setResume r s).mixer = s.mixer := rfl
@[simp] theorem setResume_press (r : ResumePoint) (s : State) : (setResume r s).press = s.press := rfl
@[simp] theorem setResume_train (r : ResumePoint) (s : State) : (setResume r s).train = s.train := rfl
@[simp] theorem setResume_fin (r : ResumePoint) (s : State) : (setResume r s).fin = s.fin := rfl
@[simp] theorem setResume_bagger (r : ResumePoint) (s : State) : (setResume r s).bagger = s.bagger := rfl
@[simp] theorem setResume_hold (r : ResumePoint) (s : State) : (setResume r s).hold = s.hold := rfl
@[simp] theorem setResume_step (r : ResumePoint) (s : State) : (setResume r s).step = s.step := rfl
@[simp] theorem setResume_stepTimer (r : ResumePoint) (s : State) : (setResume r s).stepTimer = s.stepTimer := rfl
@[simp] theorem setResume_trucks (r : ResumePoint) (s : State) : (setResume r s).trucks = s.trucks := rfl
@[simp] theorem setResume_bays (r : ResumePoint) (s : State) : (setResume r s).bays = s.bays := rfl
@[simp] theorem setResume_line (r : ResumePoint) (s : State) : (setResume r s).line = s.line := rfl
@[simp] theorem setResume_reports (r : ResumePoint) (s : State) : (setResume r s).reports = s.reports := rfl
@[simp] theorem setResume_faults (r : ResumePoint) (s : State) : (setResume r s).faults = s.faults := rfl
@[simp] theorem setResume_lamps (r : ResumePoint) (s : State) : (setResume r s).lamps = s.lamps := rfl
@[simp] theorem setResume_pins (r : ResumePoint) (s : State) : (setResume r s).pins = s.pins := rfl
@[simp] theorem setResume_free (r : ResumePoint) (s : State) : (setResume r s).free = s.free := rfl
@[simp] theorem setResume_pending (r : ResumePoint) (s : State) : (setResume r s).pending = s.pending := rfl

/-! ### updOrder -/

@[simp] theorem updOrder_power (id : Nat) (f : Order → Order) (s : State) : (updOrder id f s).power = s.power := rfl
@[simp] theorem updOrder_resetPin (id : Nat) (f : Order → Order) (s : State) : (updOrder id f s).resetPin = s.resetPin := rfl
@[simp] theorem updOrder_straps (id : Nat) (f : Order → Order) (s : State) : (updOrder id f s).straps = s.straps := rfl
@[simp] theorem updOrder_params (id : Nat) (f : Order → Order) (s : State) : (updOrder id f s).params = s.params := rfl
@[simp] theorem updOrder_divider (id : Nat) (f : Order → Order) (s : State) : (updOrder id f s).divider = s.divider := rfl
@[simp] theorem updOrder_inputs (id : Nat) (f : Order → Order) (s : State) : (updOrder id f s).inputs = s.inputs := rfl
@[simp] theorem updOrder_rx (id : Nat) (f : Order → Order) (s : State) : (updOrder id f s).rx = s.rx := rfl
@[simp] theorem updOrder_tx (id : Nat) (f : Order → Order) (s : State) : (updOrder id f s).tx = s.tx := rfl
@[simp] theorem updOrder_millTime (id : Nat) (f : Order → Order) (s : State) : (updOrder id f s).millTime = s.millTime := rfl
@[simp] theorem updOrder_slots (id : Nat) (f : Order → Order) (s : State) : (updOrder id f s).slots = s.slots.map (fun o => if o.id = id then f o else o) := rfl
@[simp] theorem updOrder_takeCounter (id : Nat) (f : Order → Order) (s : State) : (updOrder id f s).takeCounter = s.takeCounter := rfl
@[simp] theorem updOrder_batchCounter (id : Nat) (f : Order → Order) (s : State) : (updOrder id f s).batchCounter = s.batchCounter := rfl
@[simp] theorem updOrder_reannounce (id : Nat) (f : Order → Order) (s : State) : (updOrder id f s).reannounce = s.reannounce := rfl
@[simp] theorem updOrder_carry (id : Nat) (f : Order → Order) (s : State) : (updOrder id f s).carry = s.carry := rfl
@[simp] theorem updOrder_bins (id : Nat) (f : Order → Order) (s : State) : (updOrder id f s).bins = s.bins := rfl
@[simp] theorem updOrder_peers (id : Nat) (f : Order → Order) (s : State) : (updOrder id f s).peers = s.peers := rfl
@[simp] theorem updOrder_reservations (id : Nat) (f : Order → Order) (s : State) : (updOrder id f s).reservations = s.reservations := rfl
@[simp] theorem updOrder_plan (id : Nat) (f : Order → Order) (s : State) : (updOrder id f s).plan = s.plan := rfl
@[simp] theorem updOrder_levels (id : Nat) (f : Order → Order) (s : State) : (updOrder id f s).levels = s.levels := rfl
@[simp] theorem updOrder_scaleConv (id : Nat) (f : Order → Order) (s : State) : (updOrder id f s).scaleConv = s.scaleConv := rfl
@[simp] theorem updOrder_bucketConv (id : Nat) (f : Order → Order) (s : State) : (updOrder id f s).bucketConv = s.bucketConv := rfl
@[simp] theorem updOrder_finConv (id : Nat) (f : Order → Order) (s : State) : (updOrder id f s).finConv = s.finConv := rfl
@[simp] theorem updOrder_channels (id : Nat) (f : Order → Order) (s : State) : (updOrder id f s).channels = s.channels := rfl
@[simp] theorem updOrder_scale (id : Nat) (f : Order → Order) (s : State) : (updOrder id f s).scale = s.scale := rfl
@[simp] theorem updOrder_surge (id : Nat) (f : Order → Order) (s : State) : (updOrder id f s).surge = s.surge := rfl
@[simp] theorem updOrder_mixer (id : Nat) (f : Order → Order) (s : State) : (updOrder id f s).mixer = s.mixer := rfl
@[simp] theorem updOrder_press (id : Nat) (f : Order → Order) (s : State) : (updOrder id f s).press = s.press := rfl
@[simp] theorem updOrder_train (id : Nat) (f : Order → Order) (s : State) : (updOrder id f s).train = s.train := rfl
@[simp] theorem updOrder_fin (id : Nat) (f : Order → Order) (s : State) : (updOrder id f s).fin = s.fin := rfl
@[simp] theorem updOrder_bagger (id : Nat) (f : Order → Order) (s : State) : (updOrder id f s).bagger = s.bagger := rfl
@[simp] theorem updOrder_hold (id : Nat) (f : Order → Order) (s : State) : (updOrder id f s).hold = s.hold := rfl
@[simp] theorem updOrder_step (id : Nat) (f : Order → Order) (s : State) : (updOrder id f s).step = s.step := rfl
@[simp] theorem updOrder_stepTimer (id : Nat) (f : Order → Order) (s : State) : (updOrder id f s).stepTimer = s.stepTimer := rfl
@[simp] theorem updOrder_trucks (id : Nat) (f : Order → Order) (s : State) : (updOrder id f s).trucks = s.trucks := rfl
@[simp] theorem updOrder_bays (id : Nat) (f : Order → Order) (s : State) : (updOrder id f s).bays = s.bays := rfl
@[simp] theorem updOrder_line (id : Nat) (f : Order → Order) (s : State) : (updOrder id f s).line = s.line := rfl
@[simp] theorem updOrder_reports (id : Nat) (f : Order → Order) (s : State) : (updOrder id f s).reports = s.reports := rfl
@[simp] theorem updOrder_faults (id : Nat) (f : Order → Order) (s : State) : (updOrder id f s).faults = s.faults := rfl
@[simp] theorem updOrder_lamps (id : Nat) (f : Order → Order) (s : State) : (updOrder id f s).lamps = s.lamps := rfl
@[simp] theorem updOrder_pins (id : Nat) (f : Order → Order) (s : State) : (updOrder id f s).pins = s.pins := rfl
@[simp] theorem updOrder_free (id : Nat) (f : Order → Order) (s : State) : (updOrder id f s).free = s.free := rfl
@[simp] theorem updOrder_pending (id : Nat) (f : Order → Order) (s : State) : (updOrder id f s).pending = s.pending := rfl

/-! ### updBin -/

@[simp] theorem updBin_power (b : Nat) (f : BinEntry → BinEntry) (s : State) : (updBin b f s).power = s.power := rfl
@[simp] theorem updBin_resetPin (b : Nat) (f : BinEntry → BinEntry) (s : State) : (updBin b f s).resetPin = s.resetPin := rfl
@[simp] theorem updBin_straps (b : Nat) (f : BinEntry → BinEntry) (s : State) : (updBin b f s).straps = s.straps := rfl
@[simp] theorem updBin_params (b : Nat) (f : BinEntry → BinEntry) (s : State) : (updBin b f s).params = s.params := rfl
@[simp] theorem updBin_divider (b : Nat) (f : BinEntry → BinEntry) (s : State) : (updBin b f s).divider = s.divider := rfl
@[simp] theorem updBin_inputs (b : Nat) (f : BinEntry → BinEntry) (s : State) : (updBin b f s).inputs = s.inputs := rfl
@[simp] theorem updBin_rx (b : Nat) (f : BinEntry → BinEntry) (s : State) : (updBin b f s).rx = s.rx := rfl
@[simp] theorem updBin_tx (b : Nat) (f : BinEntry → BinEntry) (s : State) : (updBin b f s).tx = s.tx := rfl
@[simp] theorem updBin_millTime (b : Nat) (f : BinEntry → BinEntry) (s : State) : (updBin b f s).millTime = s.millTime := rfl
@[simp] theorem updBin_slots (b : Nat) (f : BinEntry → BinEntry) (s : State) : (updBin b f s).slots = s.slots := rfl
@[simp] theorem updBin_takeCounter (b : Nat) (f : BinEntry → BinEntry) (s : State) : (updBin b f s).takeCounter = s.takeCounter := rfl
@[simp] theorem updBin_batchCounter (b : Nat) (f : BinEntry → BinEntry) (s : State) : (updBin b f s).batchCounter = s.batchCounter := rfl
@[simp] theorem updBin_reannounce (b : Nat) (f : BinEntry → BinEntry) (s : State) : (updBin b f s).reannounce = s.reannounce := rfl
@[simp] theorem updBin_carry (b : Nat) (f : BinEntry → BinEntry) (s : State) : (updBin b f s).carry = s.carry := rfl
@[simp] theorem updBin_bins (b : Nat) (f : BinEntry → BinEntry) (s : State) : (updBin b f s).bins = s.bins.map (fun e => if e.bin = b then f e else e) := rfl
@[simp] theorem updBin_peers (b : Nat) (f : BinEntry → BinEntry) (s : State) : (updBin b f s).peers = s.peers := rfl
@[simp] theorem updBin_reservations (b : Nat) (f : BinEntry → BinEntry) (s : State) : (updBin b f s).reservations = s.reservations := rfl
@[simp] theorem updBin_plan (b : Nat) (f : BinEntry → BinEntry) (s : State) : (updBin b f s).plan = s.plan := rfl
@[simp] theorem updBin_levels (b : Nat) (f : BinEntry → BinEntry) (s : State) : (updBin b f s).levels = s.levels := rfl
@[simp] theorem updBin_scaleConv (b : Nat) (f : BinEntry → BinEntry) (s : State) : (updBin b f s).scaleConv = s.scaleConv := rfl
@[simp] theorem updBin_bucketConv (b : Nat) (f : BinEntry → BinEntry) (s : State) : (updBin b f s).bucketConv = s.bucketConv := rfl
@[simp] theorem updBin_finConv (b : Nat) (f : BinEntry → BinEntry) (s : State) : (updBin b f s).finConv = s.finConv := rfl
@[simp] theorem updBin_channels (b : Nat) (f : BinEntry → BinEntry) (s : State) : (updBin b f s).channels = s.channels := rfl
@[simp] theorem updBin_scale (b : Nat) (f : BinEntry → BinEntry) (s : State) : (updBin b f s).scale = s.scale := rfl
@[simp] theorem updBin_surge (b : Nat) (f : BinEntry → BinEntry) (s : State) : (updBin b f s).surge = s.surge := rfl
@[simp] theorem updBin_mixer (b : Nat) (f : BinEntry → BinEntry) (s : State) : (updBin b f s).mixer = s.mixer := rfl
@[simp] theorem updBin_press (b : Nat) (f : BinEntry → BinEntry) (s : State) : (updBin b f s).press = s.press := rfl
@[simp] theorem updBin_train (b : Nat) (f : BinEntry → BinEntry) (s : State) : (updBin b f s).train = s.train := rfl
@[simp] theorem updBin_fin (b : Nat) (f : BinEntry → BinEntry) (s : State) : (updBin b f s).fin = s.fin := rfl
@[simp] theorem updBin_bagger (b : Nat) (f : BinEntry → BinEntry) (s : State) : (updBin b f s).bagger = s.bagger := rfl
@[simp] theorem updBin_hold (b : Nat) (f : BinEntry → BinEntry) (s : State) : (updBin b f s).hold = s.hold := rfl
@[simp] theorem updBin_step (b : Nat) (f : BinEntry → BinEntry) (s : State) : (updBin b f s).step = s.step := rfl
@[simp] theorem updBin_stepTimer (b : Nat) (f : BinEntry → BinEntry) (s : State) : (updBin b f s).stepTimer = s.stepTimer := rfl
@[simp] theorem updBin_trucks (b : Nat) (f : BinEntry → BinEntry) (s : State) : (updBin b f s).trucks = s.trucks := rfl
@[simp] theorem updBin_bays (b : Nat) (f : BinEntry → BinEntry) (s : State) : (updBin b f s).bays = s.bays := rfl
@[simp] theorem updBin_line (b : Nat) (f : BinEntry → BinEntry) (s : State) : (updBin b f s).line = s.line := rfl
@[simp] theorem updBin_reports (b : Nat) (f : BinEntry → BinEntry) (s : State) : (updBin b f s).reports = s.reports := rfl
@[simp] theorem updBin_faults (b : Nat) (f : BinEntry → BinEntry) (s : State) : (updBin b f s).faults = s.faults := rfl
@[simp] theorem updBin_lamps (b : Nat) (f : BinEntry → BinEntry) (s : State) : (updBin b f s).lamps = s.lamps := rfl
@[simp] theorem updBin_pins (b : Nat) (f : BinEntry → BinEntry) (s : State) : (updBin b f s).pins = s.pins := rfl
@[simp] theorem updBin_free (b : Nat) (f : BinEntry → BinEntry) (s : State) : (updBin b f s).free = s.free := rfl
@[simp] theorem updBin_pending (b : Nat) (f : BinEntry → BinEntry) (s : State) : (updBin b f s).pending = s.pending := rfl

/-! ### updPlanEntry -/

@[simp] theorem updPlanEntry_power (p : Nat) (f : PlanEntry → PlanEntry) (s : State) : (updPlanEntry p f s).power = s.power := rfl
@[simp] theorem updPlanEntry_resetPin (p : Nat) (f : PlanEntry → PlanEntry) (s : State) : (updPlanEntry p f s).resetPin = s.resetPin := rfl
@[simp] theorem updPlanEntry_straps (p : Nat) (f : PlanEntry → PlanEntry) (s : State) : (updPlanEntry p f s).straps = s.straps := rfl
@[simp] theorem updPlanEntry_params (p : Nat) (f : PlanEntry → PlanEntry) (s : State) : (updPlanEntry p f s).params = s.params := rfl
@[simp] theorem updPlanEntry_divider (p : Nat) (f : PlanEntry → PlanEntry) (s : State) : (updPlanEntry p f s).divider = s.divider := rfl
@[simp] theorem updPlanEntry_inputs (p : Nat) (f : PlanEntry → PlanEntry) (s : State) : (updPlanEntry p f s).inputs = s.inputs := rfl
@[simp] theorem updPlanEntry_rx (p : Nat) (f : PlanEntry → PlanEntry) (s : State) : (updPlanEntry p f s).rx = s.rx := rfl
@[simp] theorem updPlanEntry_tx (p : Nat) (f : PlanEntry → PlanEntry) (s : State) : (updPlanEntry p f s).tx = s.tx := rfl
@[simp] theorem updPlanEntry_millTime (p : Nat) (f : PlanEntry → PlanEntry) (s : State) : (updPlanEntry p f s).millTime = s.millTime := rfl
@[simp] theorem updPlanEntry_slots (p : Nat) (f : PlanEntry → PlanEntry) (s : State) : (updPlanEntry p f s).slots = s.slots := rfl
@[simp] theorem updPlanEntry_takeCounter (p : Nat) (f : PlanEntry → PlanEntry) (s : State) : (updPlanEntry p f s).takeCounter = s.takeCounter := rfl
@[simp] theorem updPlanEntry_batchCounter (p : Nat) (f : PlanEntry → PlanEntry) (s : State) : (updPlanEntry p f s).batchCounter = s.batchCounter := rfl
@[simp] theorem updPlanEntry_reannounce (p : Nat) (f : PlanEntry → PlanEntry) (s : State) : (updPlanEntry p f s).reannounce = s.reannounce := rfl
@[simp] theorem updPlanEntry_carry (p : Nat) (f : PlanEntry → PlanEntry) (s : State) : (updPlanEntry p f s).carry = s.carry := rfl
@[simp] theorem updPlanEntry_bins (p : Nat) (f : PlanEntry → PlanEntry) (s : State) : (updPlanEntry p f s).bins = s.bins := rfl
@[simp] theorem updPlanEntry_peers (p : Nat) (f : PlanEntry → PlanEntry) (s : State) : (updPlanEntry p f s).peers = s.peers := rfl
@[simp] theorem updPlanEntry_reservations (p : Nat) (f : PlanEntry → PlanEntry) (s : State) : (updPlanEntry p f s).reservations = s.reservations := rfl
@[simp] theorem updPlanEntry_levels (p : Nat) (f : PlanEntry → PlanEntry) (s : State) : (updPlanEntry p f s).levels = s.levels := rfl
@[simp] theorem updPlanEntry_scaleConv (p : Nat) (f : PlanEntry → PlanEntry) (s : State) : (updPlanEntry p f s).scaleConv = s.scaleConv := rfl
@[simp] theorem updPlanEntry_bucketConv (p : Nat) (f : PlanEntry → PlanEntry) (s : State) : (updPlanEntry p f s).bucketConv = s.bucketConv := rfl
@[simp] theorem updPlanEntry_finConv (p : Nat) (f : PlanEntry → PlanEntry) (s : State) : (updPlanEntry p f s).finConv = s.finConv := rfl
@[simp] theorem updPlanEntry_channels (p : Nat) (f : PlanEntry → PlanEntry) (s : State) : (updPlanEntry p f s).channels = s.channels := rfl
@[simp] theorem updPlanEntry_scale (p : Nat) (f : PlanEntry → PlanEntry) (s : State) : (updPlanEntry p f s).scale = s.scale := rfl
@[simp] theorem updPlanEntry_surge (p : Nat) (f : PlanEntry → PlanEntry) (s : State) : (updPlanEntry p f s).surge = s.surge := rfl
@[simp] theorem updPlanEntry_mixer (p : Nat) (f : PlanEntry → PlanEntry) (s : State) : (updPlanEntry p f s).mixer = s.mixer := rfl
@[simp] theorem updPlanEntry_press (p : Nat) (f : PlanEntry → PlanEntry) (s : State) : (updPlanEntry p f s).press = s.press := rfl
@[simp] theorem updPlanEntry_train (p : Nat) (f : PlanEntry → PlanEntry) (s : State) : (updPlanEntry p f s).train = s.train := rfl
@[simp] theorem updPlanEntry_fin (p : Nat) (f : PlanEntry → PlanEntry) (s : State) : (updPlanEntry p f s).fin = s.fin := rfl
@[simp] theorem updPlanEntry_bagger (p : Nat) (f : PlanEntry → PlanEntry) (s : State) : (updPlanEntry p f s).bagger = s.bagger := rfl
@[simp] theorem updPlanEntry_hold (p : Nat) (f : PlanEntry → PlanEntry) (s : State) : (updPlanEntry p f s).hold = s.hold := rfl
@[simp] theorem updPlanEntry_step (p : Nat) (f : PlanEntry → PlanEntry) (s : State) : (updPlanEntry p f s).step = s.step := rfl
@[simp] theorem updPlanEntry_stepTimer (p : Nat) (f : PlanEntry → PlanEntry) (s : State) : (updPlanEntry p f s).stepTimer = s.stepTimer := rfl
@[simp] theorem updPlanEntry_trucks (p : Nat) (f : PlanEntry → PlanEntry) (s : State) : (updPlanEntry p f s).trucks = s.trucks := rfl
@[simp] theorem updPlanEntry_bays (p : Nat) (f : PlanEntry → PlanEntry) (s : State) : (updPlanEntry p f s).bays = s.bays := rfl
@[simp] theorem updPlanEntry_line (p : Nat) (f : PlanEntry → PlanEntry) (s : State) : (updPlanEntry p f s).line = s.line := rfl
@[simp] theorem updPlanEntry_reports (p : Nat) (f : PlanEntry → PlanEntry) (s : State) : (updPlanEntry p f s).reports = s.reports := rfl
@[simp] theorem updPlanEntry_faults (p : Nat) (f : PlanEntry → PlanEntry) (s : State) : (updPlanEntry p f s).faults = s.faults := rfl
@[simp] theorem updPlanEntry_lamps (p : Nat) (f : PlanEntry → PlanEntry) (s : State) : (updPlanEntry p f s).lamps = s.lamps := rfl
@[simp] theorem updPlanEntry_pins (p : Nat) (f : PlanEntry → PlanEntry) (s : State) : (updPlanEntry p f s).pins = s.pins := rfl
@[simp] theorem updPlanEntry_free (p : Nat) (f : PlanEntry → PlanEntry) (s : State) : (updPlanEntry p f s).free = s.free := rfl
@[simp] theorem updPlanEntry_pending (p : Nat) (f : PlanEntry → PlanEntry) (s : State) : (updPlanEntry p f s).pending = s.pending := rfl

/-! ### updChannel -/

@[simp] theorem updChannel_power (n : Nat) (f : Channel → Channel) (s : State) : (updChannel n f s).power = s.power := rfl
@[simp] theorem updChannel_resetPin (n : Nat) (f : Channel → Channel) (s : State) : (updChannel n f s).resetPin = s.resetPin := rfl
@[simp] theorem updChannel_straps (n : Nat) (f : Channel → Channel) (s : State) : (updChannel n f s).straps = s.straps := rfl
@[simp] theorem updChannel_params (n : Nat) (f : Channel → Channel) (s : State) : (updChannel n f s).params = s.params := rfl
@[simp] theorem updChannel_divider (n : Nat) (f : Channel → Channel) (s : State) : (updChannel n f s).divider = s.divider := rfl
@[simp] theorem updChannel_inputs (n : Nat) (f : Channel → Channel) (s : State) : (updChannel n f s).inputs = s.inputs := rfl
@[simp] theorem updChannel_rx (n : Nat) (f : Channel → Channel) (s : State) : (updChannel n f s).rx = s.rx := rfl
@[simp] theorem updChannel_tx (n : Nat) (f : Channel → Channel) (s : State) : (updChannel n f s).tx = s.tx := rfl
@[simp] theorem updChannel_millTime (n : Nat) (f : Channel → Channel) (s : State) : (updChannel n f s).millTime = s.millTime := rfl
@[simp] theorem updChannel_slots (n : Nat) (f : Channel → Channel) (s : State) : (updChannel n f s).slots = s.slots := rfl
@[simp] theorem updChannel_takeCounter (n : Nat) (f : Channel → Channel) (s : State) : (updChannel n f s).takeCounter = s.takeCounter := rfl
@[simp] theorem updChannel_batchCounter (n : Nat) (f : Channel → Channel) (s : State) : (updChannel n f s).batchCounter = s.batchCounter := rfl
@[simp] theorem updChannel_reannounce (n : Nat) (f : Channel → Channel) (s : State) : (updChannel n f s).reannounce = s.reannounce := rfl
@[simp] theorem updChannel_carry (n : Nat) (f : Channel → Channel) (s : State) : (updChannel n f s).carry = s.carry := rfl
@[simp] theorem updChannel_bins (n : Nat) (f : Channel → Channel) (s : State) : (updChannel n f s).bins = s.bins := rfl
@[simp] theorem updChannel_peers (n : Nat) (f : Channel → Channel) (s : State) : (updChannel n f s).peers = s.peers := rfl
@[simp] theorem updChannel_reservations (n : Nat) (f : Channel → Channel) (s : State) : (updChannel n f s).reservations = s.reservations := rfl
@[simp] theorem updChannel_plan (n : Nat) (f : Channel → Channel) (s : State) : (updChannel n f s).plan = s.plan := rfl
@[simp] theorem updChannel_levels (n : Nat) (f : Channel → Channel) (s : State) : (updChannel n f s).levels = s.levels := rfl
@[simp] theorem updChannel_scaleConv (n : Nat) (f : Channel → Channel) (s : State) : (updChannel n f s).scaleConv = s.scaleConv := rfl
@[simp] theorem updChannel_bucketConv (n : Nat) (f : Channel → Channel) (s : State) : (updChannel n f s).bucketConv = s.bucketConv := rfl
@[simp] theorem updChannel_finConv (n : Nat) (f : Channel → Channel) (s : State) : (updChannel n f s).finConv = s.finConv := rfl
@[simp] theorem updChannel_channels (n : Nat) (f : Channel → Channel) (s : State) : (updChannel n f s).channels = s.channels.map (fun c => if c.number = n then f c else c) := rfl
@[simp] theorem updChannel_scale (n : Nat) (f : Channel → Channel) (s : State) : (updChannel n f s).scale = s.scale := rfl
@[simp] theorem updChannel_surge (n : Nat) (f : Channel → Channel) (s : State) : (updChannel n f s).surge = s.surge := rfl
@[simp] theorem updChannel_mixer (n : Nat) (f : Channel → Channel) (s : State) : (updChannel n f s).mixer = s.mixer := rfl
@[simp] theorem updChannel_press (n : Nat) (f : Channel → Channel) (s : State) : (updChannel n f s).press = s.press := rfl
@[simp] theorem updChannel_train (n : Nat) (f : Channel → Channel) (s : State) : (updChannel n f s).train = s.train := rfl
@[simp] theorem updChannel_fin (n : Nat) (f : Channel → Channel) (s : State) : (updChannel n f s).fin = s.fin := rfl
@[simp] theorem updChannel_bagger (n : Nat) (f : Channel → Channel) (s : State) : (updChannel n f s).bagger = s.bagger := rfl
@[simp] theorem updChannel_hold (n : Nat) (f : Channel → Channel) (s : State) : (updChannel n f s).hold = s.hold := rfl
@[simp] theorem updChannel_step (n : Nat) (f : Channel → Channel) (s : State) : (updChannel n f s).step = s.step := rfl
@[simp] theorem updChannel_stepTimer (n : Nat) (f : Channel → Channel) (s : State) : (updChannel n f s).stepTimer = s.stepTimer := rfl
@[simp] theorem updChannel_trucks (n : Nat) (f : Channel → Channel) (s : State) : (updChannel n f s).trucks = s.trucks := rfl
@[simp] theorem updChannel_bays (n : Nat) (f : Channel → Channel) (s : State) : (updChannel n f s).bays = s.bays := rfl
@[simp] theorem updChannel_line (n : Nat) (f : Channel → Channel) (s : State) : (updChannel n f s).line = s.line := rfl
@[simp] theorem updChannel_reports (n : Nat) (f : Channel → Channel) (s : State) : (updChannel n f s).reports = s.reports := rfl
@[simp] theorem updChannel_faults (n : Nat) (f : Channel → Channel) (s : State) : (updChannel n f s).faults = s.faults := rfl
@[simp] theorem updChannel_lamps (n : Nat) (f : Channel → Channel) (s : State) : (updChannel n f s).lamps = s.lamps := rfl
@[simp] theorem updChannel_pins (n : Nat) (f : Channel → Channel) (s : State) : (updChannel n f s).pins = s.pins := rfl
@[simp] theorem updChannel_free (n : Nat) (f : Channel → Channel) (s : State) : (updChannel n f s).free = s.free := rfl
@[simp] theorem updChannel_pending (n : Nat) (f : Channel → Channel) (s : State) : (updChannel n f s).pending = s.pending := rfl

/-! ### updComp -/

@[simp] theorem updComp_power (k n : Nat) (f : Compartment → Compartment) (s : State) : (updComp k n f s).power = s.power := rfl
@[simp] theorem updComp_resetPin (k n : Nat) (f : Compartment → Compartment) (s : State) : (updComp k n f s).resetPin = s.resetPin := rfl
@[simp] theorem updComp_straps (k n : Nat) (f : Compartment → Compartment) (s : State) : (updComp k n f s).straps = s.straps := rfl
@[simp] theorem updComp_params (k n : Nat) (f : Compartment → Compartment) (s : State) : (updComp k n f s).params = s.params := rfl
@[simp] theorem updComp_divider (k n : Nat) (f : Compartment → Compartment) (s : State) : (updComp k n f s).divider = s.divider := rfl
@[simp] theorem updComp_inputs (k n : Nat) (f : Compartment → Compartment) (s : State) : (updComp k n f s).inputs = s.inputs := rfl
@[simp] theorem updComp_rx (k n : Nat) (f : Compartment → Compartment) (s : State) : (updComp k n f s).rx = s.rx := rfl
@[simp] theorem updComp_tx (k n : Nat) (f : Compartment → Compartment) (s : State) : (updComp k n f s).tx = s.tx := rfl
@[simp] theorem updComp_millTime (k n : Nat) (f : Compartment → Compartment) (s : State) : (updComp k n f s).millTime = s.millTime := rfl
@[simp] theorem updComp_slots (k n : Nat) (f : Compartment → Compartment) (s : State) : (updComp k n f s).slots = s.slots := rfl
@[simp] theorem updComp_takeCounter (k n : Nat) (f : Compartment → Compartment) (s : State) : (updComp k n f s).takeCounter = s.takeCounter := rfl
@[simp] theorem updComp_batchCounter (k n : Nat) (f : Compartment → Compartment) (s : State) : (updComp k n f s).batchCounter = s.batchCounter := rfl
@[simp] theorem updComp_reannounce (k n : Nat) (f : Compartment → Compartment) (s : State) : (updComp k n f s).reannounce = s.reannounce := rfl
@[simp] theorem updComp_carry (k n : Nat) (f : Compartment → Compartment) (s : State) : (updComp k n f s).carry = s.carry := rfl
@[simp] theorem updComp_bins (k n : Nat) (f : Compartment → Compartment) (s : State) : (updComp k n f s).bins = s.bins := rfl
@[simp] theorem updComp_peers (k n : Nat) (f : Compartment → Compartment) (s : State) : (updComp k n f s).peers = s.peers := rfl
@[simp] theorem updComp_reservations (k n : Nat) (f : Compartment → Compartment) (s : State) : (updComp k n f s).reservations = s.reservations := rfl
@[simp] theorem updComp_plan (k n : Nat) (f : Compartment → Compartment) (s : State) : (updComp k n f s).plan = s.plan := rfl
@[simp] theorem updComp_levels (k n : Nat) (f : Compartment → Compartment) (s : State) : (updComp k n f s).levels = s.levels := rfl
@[simp] theorem updComp_scaleConv (k n : Nat) (f : Compartment → Compartment) (s : State) : (updComp k n f s).scaleConv = s.scaleConv := rfl
@[simp] theorem updComp_bucketConv (k n : Nat) (f : Compartment → Compartment) (s : State) : (updComp k n f s).bucketConv = s.bucketConv := rfl
@[simp] theorem updComp_finConv (k n : Nat) (f : Compartment → Compartment) (s : State) : (updComp k n f s).finConv = s.finConv := rfl
@[simp] theorem updComp_channels (k n : Nat) (f : Compartment → Compartment) (s : State) : (updComp k n f s).channels = s.channels := rfl
@[simp] theorem updComp_scale (k n : Nat) (f : Compartment → Compartment) (s : State) : (updComp k n f s).scale = s.scale := rfl
@[simp] theorem updComp_surge (k n : Nat) (f : Compartment → Compartment) (s : State) : (updComp k n f s).surge = s.surge := rfl
@[simp] theorem updComp_mixer (k n : Nat) (f : Compartment → Compartment) (s : State) : (updComp k n f s).mixer = s.mixer := rfl
@[simp] theorem updComp_press (k n : Nat) (f : Compartment → Compartment) (s : State) : (updComp k n f s).press = s.press := rfl
@[simp] theorem updComp_train (k n : Nat) (f : Compartment → Compartment) (s : State) : (updComp k n f s).train = s.train := rfl
@[simp] theorem updComp_fin (k n : Nat) (f : Compartment → Compartment) (s : State) : (updComp k n f s).fin = s.fin := rfl
@[simp] theorem updComp_bagger (k n : Nat) (f : Compartment → Compartment) (s : State) : (updComp k n f s).bagger = s.bagger := rfl
@[simp] theorem updComp_hold (k n : Nat) (f : Compartment → Compartment) (s : State) : (updComp k n f s).hold = s.hold := rfl
@[simp] theorem updComp_step (k n : Nat) (f : Compartment → Compartment) (s : State) : (updComp k n f s).step = s.step := rfl
@[simp] theorem updComp_stepTimer (k n : Nat) (f : Compartment → Compartment) (s : State) : (updComp k n f s).stepTimer = s.stepTimer := rfl
@[simp] theorem updComp_bays (k n : Nat) (f : Compartment → Compartment) (s : State) : (updComp k n f s).bays = s.bays := rfl
@[simp] theorem updComp_line (k n : Nat) (f : Compartment → Compartment) (s : State) : (updComp k n f s).line = s.line := rfl
@[simp] theorem updComp_reports (k n : Nat) (f : Compartment → Compartment) (s : State) : (updComp k n f s).reports = s.reports := rfl
@[simp] theorem updComp_faults (k n : Nat) (f : Compartment → Compartment) (s : State) : (updComp k n f s).faults = s.faults := rfl
@[simp] theorem updComp_lamps (k n : Nat) (f : Compartment → Compartment) (s : State) : (updComp k n f s).lamps = s.lamps := rfl
@[simp] theorem updComp_pins (k n : Nat) (f : Compartment → Compartment) (s : State) : (updComp k n f s).pins = s.pins := rfl
@[simp] theorem updComp_free (k n : Nat) (f : Compartment → Compartment) (s : State) : (updComp k n f s).free = s.free := rfl
@[simp] theorem updComp_pending (k n : Nat) (f : Compartment → Compartment) (s : State) : (updComp k n f s).pending = s.pending := rfl

/-! ### setBay -/

@[simp] theorem setBay_power (b : Nat) (h : Option Nat) (r : Nat) (s : State) : (setBay b h r s).power = s.power := rfl
@[simp] theorem setBay_resetPin (b : Nat) (h : Option Nat) (r : Nat) (s : State) : (setBay b h r s).resetPin = s.resetPin := rfl
@[simp] theorem setBay_straps (b : Nat) (h : Option Nat) (r : Nat) (s : State) : (setBay b h r s).straps = s.straps := rfl
@[simp] theorem setBay_params (b : Nat) (h : Option Nat) (r : Nat) (s : State) : (setBay b h r s).params = s.params := rfl
@[simp] theorem setBay_divider (b : Nat) (h : Option Nat) (r : Nat) (s : State) : (setBay b h r s).divider = s.divider := rfl
@[simp] theorem setBay_inputs (b : Nat) (h : Option Nat) (r : Nat) (s : State) : (setBay b h r s).inputs = s.inputs := rfl
@[simp] theorem setBay_rx (b : Nat) (h : Option Nat) (r : Nat) (s : State) : (setBay b h r s).rx = s.rx := rfl
@[simp] theorem setBay_tx (b : Nat) (h : Option Nat) (r : Nat) (s : State) : (setBay b h r s).tx = s.tx := rfl
@[simp] theorem setBay_millTime (b : Nat) (h : Option Nat) (r : Nat) (s : State) : (setBay b h r s).millTime = s.millTime := rfl
@[simp] theorem setBay_slots (b : Nat) (h : Option Nat) (r : Nat) (s : State) : (setBay b h r s).slots = s.slots := rfl
@[simp] theorem setBay_takeCounter (b : Nat) (h : Option Nat) (r : Nat) (s : State) : (setBay b h r s).takeCounter = s.takeCounter := rfl
@[simp] theorem setBay_batchCounter (b : Nat) (h : Option Nat) (r : Nat) (s : State) : (setBay b h r s).batchCounter = s.batchCounter := rfl
@[simp] theorem setBay_reannounce (b : Nat) (h : Option Nat) (r : Nat) (s : State) : (setBay b h r s).reannounce = s.reannounce := rfl
@[simp] theorem setBay_carry (b : Nat) (h : Option Nat) (r : Nat) (s : State) : (setBay b h r s).carry = s.carry := rfl
@[simp] theorem setBay_bins (b : Nat) (h : Option Nat) (r : Nat) (s : State) : (setBay b h r s).bins = s.bins := rfl
@[simp] theorem setBay_peers (b : Nat) (h : Option Nat) (r : Nat) (s : State) : (setBay b h r s).peers = s.peers := rfl
@[simp] theorem setBay_reservations (b : Nat) (h : Option Nat) (r : Nat) (s : State) : (setBay b h r s).reservations = s.reservations := rfl
@[simp] theorem setBay_plan (b : Nat) (h : Option Nat) (r : Nat) (s : State) : (setBay b h r s).plan = s.plan := rfl
@[simp] theorem setBay_levels (b : Nat) (h : Option Nat) (r : Nat) (s : State) : (setBay b h r s).levels = s.levels := rfl
@[simp] theorem setBay_scaleConv (b : Nat) (h : Option Nat) (r : Nat) (s : State) : (setBay b h r s).scaleConv = s.scaleConv := rfl
@[simp] theorem setBay_bucketConv (b : Nat) (h : Option Nat) (r : Nat) (s : State) : (setBay b h r s).bucketConv = s.bucketConv := rfl
@[simp] theorem setBay_finConv (b : Nat) (h : Option Nat) (r : Nat) (s : State) : (setBay b h r s).finConv = s.finConv := rfl
@[simp] theorem setBay_channels (b : Nat) (h : Option Nat) (r : Nat) (s : State) : (setBay b h r s).channels = s.channels := rfl
@[simp] theorem setBay_scale (b : Nat) (h : Option Nat) (r : Nat) (s : State) : (setBay b h r s).scale = s.scale := rfl
@[simp] theorem setBay_surge (b : Nat) (h : Option Nat) (r : Nat) (s : State) : (setBay b h r s).surge = s.surge := rfl
@[simp] theorem setBay_mixer (b : Nat) (h : Option Nat) (r : Nat) (s : State) : (setBay b h r s).mixer = s.mixer := rfl
@[simp] theorem setBay_press (b : Nat) (h : Option Nat) (r : Nat) (s : State) : (setBay b h r s).press = s.press := rfl
@[simp] theorem setBay_train (b : Nat) (h : Option Nat) (r : Nat) (s : State) : (setBay b h r s).train = s.train := rfl
@[simp] theorem setBay_fin (b : Nat) (h : Option Nat) (r : Nat) (s : State) : (setBay b h r s).fin = s.fin := rfl
@[simp] theorem setBay_bagger (b : Nat) (h : Option Nat) (r : Nat) (s : State) : (setBay b h r s).bagger = s.bagger := rfl
@[simp] theorem setBay_hold (b : Nat) (h : Option Nat) (r : Nat) (s : State) : (setBay b h r s).hold = s.hold := rfl
@[simp] theorem setBay_step (b : Nat) (h : Option Nat) (r : Nat) (s : State) : (setBay b h r s).step = s.step := rfl
@[simp] theorem setBay_stepTimer (b : Nat) (h : Option Nat) (r : Nat) (s : State) : (setBay b h r s).stepTimer = s.stepTimer := rfl
@[simp] theorem setBay_trucks (b : Nat) (h : Option Nat) (r : Nat) (s : State) : (setBay b h r s).trucks = s.trucks := rfl
@[simp] theorem setBay_bays (b : Nat) (h : Option Nat) (r : Nat) (s : State) : (setBay b h r s).bays = s.bays.modify (b - 1) (fun _ => { holder := h, remaining := r }) := rfl
@[simp] theorem setBay_line (b : Nat) (h : Option Nat) (r : Nat) (s : State) : (setBay b h r s).line = s.line := rfl
@[simp] theorem setBay_reports (b : Nat) (h : Option Nat) (r : Nat) (s : State) : (setBay b h r s).reports = s.reports := rfl
@[simp] theorem setBay_faults (b : Nat) (h : Option Nat) (r : Nat) (s : State) : (setBay b h r s).faults = s.faults := rfl
@[simp] theorem setBay_lamps (b : Nat) (h : Option Nat) (r : Nat) (s : State) : (setBay b h r s).lamps = s.lamps := rfl
@[simp] theorem setBay_pins (b : Nat) (h : Option Nat) (r : Nat) (s : State) : (setBay b h r s).pins = s.pins := rfl
@[simp] theorem setBay_free (b : Nat) (h : Option Nat) (r : Nat) (s : State) : (setBay b h r s).free = s.free := rfl
@[simp] theorem setBay_pending (b : Nat) (h : Option Nat) (r : Nat) (s : State) : (setBay b h r s).pending = s.pending := rfl

/-! ### dropHold -/

@[simp] theorem dropHold_power (s : State) : (dropHold s).power = s.power := rfl
@[simp] theorem dropHold_resetPin (s : State) : (dropHold s).resetPin = s.resetPin := rfl
@[simp] theorem dropHold_straps (s : State) : (dropHold s).straps = s.straps := rfl
@[simp] theorem dropHold_params (s : State) : (dropHold s).params = s.params := rfl
@[simp] theorem dropHold_divider (s : State) : (dropHold s).divider = s.divider := rfl
@[simp] theorem dropHold_inputs (s : State) : (dropHold s).inputs = s.inputs := rfl
@[simp] theorem dropHold_rx (s : State) : (dropHold s).rx = s.rx := rfl
@[simp] theorem dropHold_tx (s : State) : (dropHold s).tx = s.tx := rfl
@[simp] theorem dropHold_millTime (s : State) : (dropHold s).millTime = s.millTime := rfl
@[simp] theorem dropHold_slots (s : State) : (dropHold s).slots = s.slots := rfl
@[simp] theorem dropHold_takeCounter (s : State) : (dropHold s).takeCounter = s.takeCounter := rfl
@[simp] theorem dropHold_batchCounter (s : State) : (dropHold s).batchCounter = s.batchCounter := rfl
@[simp] theorem dropHold_reannounce (s : State) : (dropHold s).reannounce = s.reannounce := rfl
@[simp] theorem dropHold_carry (s : State) : (dropHold s).carry = s.carry := rfl
@[simp] theorem dropHold_bins (s : State) : (dropHold s).bins = s.bins := rfl
@[simp] theorem dropHold_peers (s : State) : (dropHold s).peers = s.peers := rfl
@[simp] theorem dropHold_reservations (s : State) : (dropHold s).reservations = s.reservations := rfl
@[simp] theorem dropHold_plan (s : State) : (dropHold s).plan = s.plan := rfl
@[simp] theorem dropHold_levels (s : State) : (dropHold s).levels = s.levels := rfl
@[simp] theorem dropHold_scaleConv (s : State) : (dropHold s).scaleConv = s.scaleConv := rfl
@[simp] theorem dropHold_bucketConv (s : State) : (dropHold s).bucketConv = s.bucketConv := rfl
@[simp] theorem dropHold_finConv (s : State) : (dropHold s).finConv = s.finConv := rfl
@[simp] theorem dropHold_channels (s : State) : (dropHold s).channels = s.channels := rfl
@[simp] theorem dropHold_scale (s : State) : (dropHold s).scale = s.scale := rfl
@[simp] theorem dropHold_surge (s : State) : (dropHold s).surge = s.surge := rfl
@[simp] theorem dropHold_mixer (s : State) : (dropHold s).mixer = s.mixer := rfl
@[simp] theorem dropHold_press (s : State) : (dropHold s).press = s.press := rfl
@[simp] theorem dropHold_train (s : State) : (dropHold s).train = s.train := rfl
@[simp] theorem dropHold_fin (s : State) : (dropHold s).fin = s.fin := rfl
@[simp] theorem dropHold_bagger (s : State) : (dropHold s).bagger = s.bagger := rfl
@[simp] theorem dropHold_hold (s : State) : (dropHold s).hold = OwnHold.blank := rfl
@[simp] theorem dropHold_step (s : State) : (dropHold s).step = s.step := rfl
@[simp] theorem dropHold_stepTimer (s : State) : (dropHold s).stepTimer = s.stepTimer := rfl
@[simp] theorem dropHold_trucks (s : State) : (dropHold s).trucks = s.trucks := rfl
@[simp] theorem dropHold_bays (s : State) : (dropHold s).bays = s.bays := rfl
@[simp] theorem dropHold_line (s : State) : (dropHold s).line = s.line := rfl
@[simp] theorem dropHold_reports (s : State) : (dropHold s).reports = s.reports := rfl
@[simp] theorem dropHold_faults (s : State) : (dropHold s).faults = s.faults := rfl
@[simp] theorem dropHold_lamps (s : State) : (dropHold s).lamps = s.lamps := rfl
@[simp] theorem dropHold_pins (s : State) : (dropHold s).pins = s.pins := rfl
@[simp] theorem dropHold_free (s : State) : (dropHold s).free = s.free := rfl
@[simp] theorem dropHold_pending (s : State) : (dropHold s).pending = s.pending := rfl

/-! ### setBucket -/

@[simp] theorem setBucket_power (b : Bucket) (s : State) : (setBucket b s).power = s.power := rfl
@[simp] theorem setBucket_resetPin (b : Bucket) (s : State) : (setBucket b s).resetPin = s.resetPin := rfl
@[simp] theorem setBucket_straps (b : Bucket) (s : State) : (setBucket b s).straps = s.straps := rfl
@[simp] theorem setBucket_params (b : Bucket) (s : State) : (setBucket b s).params = s.params := rfl
@[simp] theorem setBucket_divider (b : Bucket) (s : State) : (setBucket b s).divider = s.divider := rfl
@[simp] theorem setBucket_inputs (b : Bucket) (s : State) : (setBucket b s).inputs = s.inputs := rfl
@[simp] theorem setBucket_rx (b : Bucket) (s : State) : (setBucket b s).rx = s.rx := rfl
@[simp] theorem setBucket_tx (b : Bucket) (s : State) : (setBucket b s).tx = s.tx := rfl
@[simp] theorem setBucket_millTime (b : Bucket) (s : State) : (setBucket b s).millTime = s.millTime := rfl
@[simp] theorem setBucket_slots (b : Bucket) (s : State) : (setBucket b s).slots = s.slots := rfl
@[simp] theorem setBucket_takeCounter (b : Bucket) (s : State) : (setBucket b s).takeCounter = s.takeCounter := rfl
@[simp] theorem setBucket_batchCounter (b : Bucket) (s : State) : (setBucket b s).batchCounter = s.batchCounter := rfl
@[simp] theorem setBucket_reannounce (b : Bucket) (s : State) : (setBucket b s).reannounce = s.reannounce := rfl
@[simp] theorem setBucket_carry (b : Bucket) (s : State) : (setBucket b s).carry = s.carry := rfl
@[simp] theorem setBucket_bins (b : Bucket) (s : State) : (setBucket b s).bins = s.bins := rfl
@[simp] theorem setBucket_peers (b : Bucket) (s : State) : (setBucket b s).peers = s.peers := rfl
@[simp] theorem setBucket_reservations (b : Bucket) (s : State) : (setBucket b s).reservations = s.reservations := rfl
@[simp] theorem setBucket_plan (b : Bucket) (s : State) : (setBucket b s).plan = s.plan := rfl
@[simp] theorem setBucket_levels (b : Bucket) (s : State) : (setBucket b s).levels = s.levels := rfl
@[simp] theorem setBucket_scaleConv (b : Bucket) (s : State) : (setBucket b s).scaleConv = s.scaleConv := rfl
@[simp] theorem setBucket_bucketConv (b : Bucket) (s : State) : (setBucket b s).bucketConv = s.bucketConv := rfl
@[simp] theorem setBucket_finConv (b : Bucket) (s : State) : (setBucket b s).finConv = s.finConv := rfl
@[simp] theorem setBucket_channels (b : Bucket) (s : State) : (setBucket b s).channels = s.channels := rfl
@[simp] theorem setBucket_scale (b : Bucket) (s : State) : (setBucket b s).scale = s.scale := rfl
@[simp] theorem setBucket_surge (b : Bucket) (s : State) : (setBucket b s).surge = s.surge := rfl
@[simp] theorem setBucket_mixer (b : Bucket) (s : State) : (setBucket b s).mixer = s.mixer := rfl
@[simp] theorem setBucket_press (b : Bucket) (s : State) : (setBucket b s).press = s.press := rfl
@[simp] theorem setBucket_train (b : Bucket) (s : State) : (setBucket b s).train = s.train := rfl
@[simp] theorem setBucket_fin (b : Bucket) (s : State) : (setBucket b s).fin = s.fin := rfl
@[simp] theorem setBucket_bagger (b : Bucket) (s : State) : (setBucket b s).bagger = { s.bagger with bucket := b } := rfl
@[simp] theorem setBucket_hold (b : Bucket) (s : State) : (setBucket b s).hold = s.hold := rfl
@[simp] theorem setBucket_step (b : Bucket) (s : State) : (setBucket b s).step = s.step := rfl
@[simp] theorem setBucket_stepTimer (b : Bucket) (s : State) : (setBucket b s).stepTimer = s.stepTimer := rfl
@[simp] theorem setBucket_trucks (b : Bucket) (s : State) : (setBucket b s).trucks = s.trucks := rfl
@[simp] theorem setBucket_bays (b : Bucket) (s : State) : (setBucket b s).bays = s.bays := rfl
@[simp] theorem setBucket_line (b : Bucket) (s : State) : (setBucket b s).line = s.line := rfl
@[simp] theorem setBucket_reports (b : Bucket) (s : State) : (setBucket b s).reports = s.reports := rfl
@[simp] theorem setBucket_faults (b : Bucket) (s : State) : (setBucket b s).faults = s.faults := rfl
@[simp] theorem setBucket_lamps (b : Bucket) (s : State) : (setBucket b s).lamps = s.lamps := rfl
@[simp] theorem setBucket_pins (b : Bucket) (s : State) : (setBucket b s).pins = s.pins := rfl
@[simp] theorem setBucket_free (b : Bucket) (s : State) : (setBucket b s).free = s.free := rfl
@[simp] theorem setBucket_pending (b : Bucket) (s : State) : (setBucket b s).pending = s.pending := rfl

/-! ### updCharge -/

@[simp] theorem updCharge_power (f : Charge → Charge) (s : State) : (updCharge f s).power = s.power := rfl
@[simp] theorem updCharge_resetPin (f : Charge → Charge) (s : State) : (updCharge f s).resetPin = s.resetPin := rfl
@[simp] theorem updCharge_straps (f : Charge → Charge) (s : State) : (updCharge f s).straps = s.straps := rfl
@[simp] theorem updCharge_params (f : Charge → Charge) (s : State) : (updCharge f s).params = s.params := rfl
@[simp] theorem updCharge_divider (f : Charge → Charge) (s : State) : (updCharge f s).divider = s.divider := rfl
@[simp] theorem updCharge_inputs (f : Charge → Charge) (s : State) : (updCharge f s).inputs = s.inputs := rfl
@[simp] theorem updCharge_rx (f : Charge → Charge) (s : State) : (updCharge f s).rx = s.rx := rfl
@[simp] theorem updCharge_tx (f : Charge → Charge) (s : State) : (updCharge f s).tx = s.tx := rfl
@[simp] theorem updCharge_millTime (f : Charge → Charge) (s : State) : (updCharge f s).millTime = s.millTime := rfl
@[simp] theorem updCharge_slots (f : Charge → Charge) (s : State) : (updCharge f s).slots = s.slots := rfl
@[simp] theorem updCharge_takeCounter (f : Charge → Charge) (s : State) : (updCharge f s).takeCounter = s.takeCounter := rfl
@[simp] theorem updCharge_batchCounter (f : Charge → Charge) (s : State) : (updCharge f s).batchCounter = s.batchCounter := rfl
@[simp] theorem updCharge_reannounce (f : Charge → Charge) (s : State) : (updCharge f s).reannounce = s.reannounce := rfl
@[simp] theorem updCharge_carry (f : Charge → Charge) (s : State) : (updCharge f s).carry = s.carry := rfl
@[simp] theorem updCharge_bins (f : Charge → Charge) (s : State) : (updCharge f s).bins = s.bins := rfl
@[simp] theorem updCharge_peers (f : Charge → Charge) (s : State) : (updCharge f s).peers = s.peers := rfl
@[simp] theorem updCharge_reservations (f : Charge → Charge) (s : State) : (updCharge f s).reservations = s.reservations := rfl
@[simp] theorem updCharge_plan (f : Charge → Charge) (s : State) : (updCharge f s).plan = s.plan := rfl
@[simp] theorem updCharge_levels (f : Charge → Charge) (s : State) : (updCharge f s).levels = s.levels := rfl
@[simp] theorem updCharge_scaleConv (f : Charge → Charge) (s : State) : (updCharge f s).scaleConv = s.scaleConv := rfl
@[simp] theorem updCharge_bucketConv (f : Charge → Charge) (s : State) : (updCharge f s).bucketConv = s.bucketConv := rfl
@[simp] theorem updCharge_finConv (f : Charge → Charge) (s : State) : (updCharge f s).finConv = s.finConv := rfl
@[simp] theorem updCharge_channels (f : Charge → Charge) (s : State) : (updCharge f s).channels = s.channels := rfl
@[simp] theorem updCharge_scale (f : Charge → Charge) (s : State) : (updCharge f s).scale = s.scale := rfl
@[simp] theorem updCharge_surge (f : Charge → Charge) (s : State) : (updCharge f s).surge = s.surge := rfl
@[simp] theorem updCharge_mixer (f : Charge → Charge) (s : State) : (updCharge f s).mixer = s.mixer := rfl
@[simp] theorem updCharge_press (f : Charge → Charge) (s : State) : (updCharge f s).press = s.press := rfl
@[simp] theorem updCharge_train (f : Charge → Charge) (s : State) : (updCharge f s).train = s.train := rfl
@[simp] theorem updCharge_fin (f : Charge → Charge) (s : State) : (updCharge f s).fin = s.fin := rfl
@[simp] theorem updCharge_bagger (f : Charge → Charge) (s : State) : (updCharge f s).bagger = { s.bagger with charge := s.bagger.charge.map f } := rfl
@[simp] theorem updCharge_hold (f : Charge → Charge) (s : State) : (updCharge f s).hold = s.hold := rfl
@[simp] theorem updCharge_step (f : Charge → Charge) (s : State) : (updCharge f s).step = s.step := rfl
@[simp] theorem updCharge_stepTimer (f : Charge → Charge) (s : State) : (updCharge f s).stepTimer = s.stepTimer := rfl
@[simp] theorem updCharge_trucks (f : Charge → Charge) (s : State) : (updCharge f s).trucks = s.trucks := rfl
@[simp] theorem updCharge_bays (f : Charge → Charge) (s : State) : (updCharge f s).bays = s.bays := rfl
@[simp] theorem updCharge_line (f : Charge → Charge) (s : State) : (updCharge f s).line = s.line := rfl
@[simp] theorem updCharge_reports (f : Charge → Charge) (s : State) : (updCharge f s).reports = s.reports := rfl
@[simp] theorem updCharge_faults (f : Charge → Charge) (s : State) : (updCharge f s).faults = s.faults := rfl
@[simp] theorem updCharge_lamps (f : Charge → Charge) (s : State) : (updCharge f s).lamps = s.lamps := rfl
@[simp] theorem updCharge_pins (f : Charge → Charge) (s : State) : (updCharge f s).pins = s.pins := rfl
@[simp] theorem updCharge_free (f : Charge → Charge) (s : State) : (updCharge f s).free = s.free := rfl
@[simp] theorem updCharge_pending (f : Charge → Charge) (s : State) : (updCharge f s).pending = s.pending := rfl

/-! ### leaveFinished -/

@[simp] theorem leaveFinished_power (s : State) : (leaveFinished s).power = s.power := rfl
@[simp] theorem leaveFinished_resetPin (s : State) : (leaveFinished s).resetPin = s.resetPin := rfl
@[simp] theorem leaveFinished_straps (s : State) : (leaveFinished s).straps = s.straps := rfl
@[simp] theorem leaveFinished_params (s : State) : (leaveFinished s).params = s.params := rfl
@[simp] theorem leaveFinished_divider (s : State) : (leaveFinished s).divider = s.divider := rfl
@[simp] theorem leaveFinished_inputs (s : State) : (leaveFinished s).inputs = s.inputs := rfl
@[simp] theorem leaveFinished_rx (s : State) : (leaveFinished s).rx = s.rx := rfl
@[simp] theorem leaveFinished_tx (s : State) : (leaveFinished s).tx = s.tx := rfl
@[simp] theorem leaveFinished_millTime (s : State) : (leaveFinished s).millTime = s.millTime := rfl
@[simp] theorem leaveFinished_slots (s : State) : (leaveFinished s).slots = s.slots := rfl
@[simp] theorem leaveFinished_takeCounter (s : State) : (leaveFinished s).takeCounter = s.takeCounter := rfl
@[simp] theorem leaveFinished_batchCounter (s : State) : (leaveFinished s).batchCounter = s.batchCounter := rfl
@[simp] theorem leaveFinished_reannounce (s : State) : (leaveFinished s).reannounce = s.reannounce := rfl
@[simp] theorem leaveFinished_carry (s : State) : (leaveFinished s).carry = s.carry := rfl
@[simp] theorem leaveFinished_bins (s : State) : (leaveFinished s).bins = s.bins := rfl
@[simp] theorem leaveFinished_peers (s : State) : (leaveFinished s).peers = s.peers := rfl
@[simp] theorem leaveFinished_reservations (s : State) : (leaveFinished s).reservations = s.reservations := rfl
@[simp] theorem leaveFinished_plan (s : State) : (leaveFinished s).plan = s.plan := rfl
@[simp] theorem leaveFinished_levels (s : State) : (leaveFinished s).levels = s.levels := rfl
@[simp] theorem leaveFinished_scaleConv (s : State) : (leaveFinished s).scaleConv = s.scaleConv := rfl
@[simp] theorem leaveFinished_bucketConv (s : State) : (leaveFinished s).bucketConv = s.bucketConv := rfl
@[simp] theorem leaveFinished_finConv (s : State) : (leaveFinished s).finConv = s.finConv := rfl
@[simp] theorem leaveFinished_channels (s : State) : (leaveFinished s).channels = s.channels := rfl
@[simp] theorem leaveFinished_scale (s : State) : (leaveFinished s).scale = s.scale := rfl
@[simp] theorem leaveFinished_surge (s : State) : (leaveFinished s).surge = s.surge := rfl
@[simp] theorem leaveFinished_mixer (s : State) : (leaveFinished s).mixer = s.mixer := rfl
@[simp] theorem leaveFinished_press (s : State) : (leaveFinished s).press = s.press := rfl
@[simp] theorem leaveFinished_train (s : State) : (leaveFinished s).train = s.train := rfl
@[simp] theorem leaveFinished_fin (s : State) : (leaveFinished s).fin = { s.fin with entering := false } := rfl
@[simp] theorem leaveFinished_bagger (s : State) : (leaveFinished s).bagger = s.bagger := rfl
@[simp] theorem leaveFinished_hold (s : State) : (leaveFinished s).hold = s.hold := rfl
@[simp] theorem leaveFinished_step (s : State) : (leaveFinished s).step = s.step := rfl
@[simp] theorem leaveFinished_stepTimer (s : State) : (leaveFinished s).stepTimer = s.stepTimer := rfl
@[simp] theorem leaveFinished_trucks (s : State) : (leaveFinished s).trucks = s.trucks := rfl
@[simp] theorem leaveFinished_bays (s : State) : (leaveFinished s).bays = s.bays := rfl
@[simp] theorem leaveFinished_line (s : State) : (leaveFinished s).line = s.line := rfl
@[simp] theorem leaveFinished_reports (s : State) : (leaveFinished s).reports = s.reports := rfl
@[simp] theorem leaveFinished_faults (s : State) : (leaveFinished s).faults = s.faults := rfl
@[simp] theorem leaveFinished_lamps (s : State) : (leaveFinished s).lamps = s.lamps := rfl
@[simp] theorem leaveFinished_pins (s : State) : (leaveFinished s).pins = s.pins := rfl
@[simp] theorem leaveFinished_free (s : State) : (leaveFinished s).free = s.free := rfl
@[simp] theorem leaveFinished_pending (s : State) : (leaveFinished s).pending = s.pending := rfl

/-! ### setAssembler -/

@[simp] theorem setAssembler_power (a : Assembler) (s : State) : (setAssembler a s).power = s.power := rfl
@[simp] theorem setAssembler_resetPin (a : Assembler) (s : State) : (setAssembler a s).resetPin = s.resetPin := rfl
@[simp] theorem setAssembler_straps (a : Assembler) (s : State) : (setAssembler a s).straps = s.straps := rfl
@[simp] theorem setAssembler_params (a : Assembler) (s : State) : (setAssembler a s).params = s.params := rfl
@[simp] theorem setAssembler_divider (a : Assembler) (s : State) : (setAssembler a s).divider = s.divider := rfl
@[simp] theorem setAssembler_inputs (a : Assembler) (s : State) : (setAssembler a s).inputs = s.inputs := rfl
@[simp] theorem setAssembler_rx (a : Assembler) (s : State) : (setAssembler a s).rx = { s.rx with assembler := a } := rfl
@[simp] theorem setAssembler_tx (a : Assembler) (s : State) : (setAssembler a s).tx = s.tx := rfl
@[simp] theorem setAssembler_millTime (a : Assembler) (s : State) : (setAssembler a s).millTime = s.millTime := rfl
@[simp] theorem setAssembler_slots (a : Assembler) (s : State) : (setAssembler a s).slots = s.slots := rfl
@[simp] theorem setAssembler_takeCounter (a : Assembler) (s : State) : (setAssembler a s).takeCounter = s.takeCounter := rfl
@[simp] theorem setAssembler_batchCounter (a : Assembler) (s : State) : (setAssembler a s).batchCounter = s.batchCounter := rfl
@[simp] theorem setAssembler_reannounce (a : Assembler) (s : State) : (setAssembler a s).reannounce = s.reannounce := rfl
@[simp] theorem setAssembler_carry (a : Assembler) (s : State) : (setAssembler a s).carry = s.carry := rfl
@[simp] theorem setAssembler_bins (a : Assembler) (s : State) : (setAssembler a s).bins = s.bins := rfl
@[simp] theorem setAssembler_peers (a : Assembler) (s : State) : (setAssembler a s).peers = s.peers := rfl
@[simp] theorem setAssembler_reservations (a : Assembler) (s : State) : (setAssembler a s).reservations = s.reservations := rfl
@[simp] theorem setAssembler_plan (a : Assembler) (s : State) : (setAssembler a s).plan = s.plan := rfl
@[simp] theorem setAssembler_levels (a : Assembler) (s : State) : (setAssembler a s).levels = s.levels := rfl
@[simp] theorem setAssembler_scaleConv (a : Assembler) (s : State) : (setAssembler a s).scaleConv = s.scaleConv := rfl
@[simp] theorem setAssembler_bucketConv (a : Assembler) (s : State) : (setAssembler a s).bucketConv = s.bucketConv := rfl
@[simp] theorem setAssembler_finConv (a : Assembler) (s : State) : (setAssembler a s).finConv = s.finConv := rfl
@[simp] theorem setAssembler_channels (a : Assembler) (s : State) : (setAssembler a s).channels = s.channels := rfl
@[simp] theorem setAssembler_scale (a : Assembler) (s : State) : (setAssembler a s).scale = s.scale := rfl
@[simp] theorem setAssembler_surge (a : Assembler) (s : State) : (setAssembler a s).surge = s.surge := rfl
@[simp] theorem setAssembler_mixer (a : Assembler) (s : State) : (setAssembler a s).mixer = s.mixer := rfl
@[simp] theorem setAssembler_press (a : Assembler) (s : State) : (setAssembler a s).press = s.press := rfl
@[simp] theorem setAssembler_train (a : Assembler) (s : State) : (setAssembler a s).train = s.train := rfl
@[simp] theorem setAssembler_fin (a : Assembler) (s : State) : (setAssembler a s).fin = s.fin := rfl
@[simp] theorem setAssembler_bagger (a : Assembler) (s : State) : (setAssembler a s).bagger = s.bagger := rfl
@[simp] theorem setAssembler_hold (a : Assembler) (s : State) : (setAssembler a s).hold = s.hold := rfl
@[simp] theorem setAssembler_step (a : Assembler) (s : State) : (setAssembler a s).step = s.step := rfl
@[simp] theorem setAssembler_stepTimer (a : Assembler) (s : State) : (setAssembler a s).stepTimer = s.stepTimer := rfl
@[simp] theorem setAssembler_trucks (a : Assembler) (s : State) : (setAssembler a s).trucks = s.trucks := rfl
@[simp] theorem setAssembler_bays (a : Assembler) (s : State) : (setAssembler a s).bays = s.bays := rfl
@[simp] theorem setAssembler_line (a : Assembler) (s : State) : (setAssembler a s).line = s.line := rfl
@[simp] theorem setAssembler_reports (a : Assembler) (s : State) : (setAssembler a s).reports = s.reports := rfl
@[simp] theorem setAssembler_faults (a : Assembler) (s : State) : (setAssembler a s).faults = s.faults := rfl
@[simp] theorem setAssembler_lamps (a : Assembler) (s : State) : (setAssembler a s).lamps = s.lamps := rfl
@[simp] theorem setAssembler_pins (a : Assembler) (s : State) : (setAssembler a s).pins = s.pins := rfl
@[simp] theorem setAssembler_free (a : Assembler) (s : State) : (setAssembler a s).free = s.free := rfl
@[simp] theorem setAssembler_pending (a : Assembler) (s : State) : (setAssembler a s).pending = s.pending := rfl

/-! ### withdrawHolds -/

@[simp] theorem withdrawHolds_power (s : State) : (withdrawHolds s).power = s.power := rfl
@[simp] theorem withdrawHolds_resetPin (s : State) : (withdrawHolds s).resetPin = s.resetPin := rfl
@[simp] theorem withdrawHolds_straps (s : State) : (withdrawHolds s).straps = s.straps := rfl
@[simp] theorem withdrawHolds_params (s : State) : (withdrawHolds s).params = s.params := rfl
@[simp] theorem withdrawHolds_divider (s : State) : (withdrawHolds s).divider = s.divider := rfl
@[simp] theorem withdrawHolds_inputs (s : State) : (withdrawHolds s).inputs = s.inputs := rfl
@[simp] theorem withdrawHolds_rx (s : State) : (withdrawHolds s).rx = s.rx := rfl
@[simp] theorem withdrawHolds_millTime (s : State) : (withdrawHolds s).millTime = s.millTime := rfl
@[simp] theorem withdrawHolds_slots (s : State) : (withdrawHolds s).slots = s.slots := rfl
@[simp] theorem withdrawHolds_takeCounter (s : State) : (withdrawHolds s).takeCounter = s.takeCounter := rfl
@[simp] theorem withdrawHolds_batchCounter (s : State) : (withdrawHolds s).batchCounter = s.batchCounter := rfl
@[simp] theorem withdrawHolds_reannounce (s : State) : (withdrawHolds s).reannounce = s.reannounce := rfl
@[simp] theorem withdrawHolds_carry (s : State) : (withdrawHolds s).carry = s.carry := rfl
@[simp] theorem withdrawHolds_bins (s : State) : (withdrawHolds s).bins = s.bins := rfl
@[simp] theorem withdrawHolds_peers (s : State) : (withdrawHolds s).peers = s.peers := rfl
@[simp] theorem withdrawHolds_reservations (s : State) : (withdrawHolds s).reservations = s.reservations := rfl
@[simp] theorem withdrawHolds_plan (s : State) : (withdrawHolds s).plan = s.plan := rfl
@[simp] theorem withdrawHolds_levels (s : State) : (withdrawHolds s).levels = s.levels := rfl
@[simp] theorem withdrawHolds_scaleConv (s : State) : (withdrawHolds s).scaleConv = s.scaleConv := rfl
@[simp] theorem withdrawHolds_bucketConv (s : State) : (withdrawHolds s).bucketConv = s.bucketConv := rfl
@[simp] theorem withdrawHolds_finConv (s : State) : (withdrawHolds s).finConv = s.finConv := rfl
@[simp] theorem withdrawHolds_channels (s : State) : (withdrawHolds s).channels = s.channels := rfl
@[simp] theorem withdrawHolds_scale (s : State) : (withdrawHolds s).scale = s.scale := rfl
@[simp] theorem withdrawHolds_surge (s : State) : (withdrawHolds s).surge = s.surge := rfl
@[simp] theorem withdrawHolds_mixer (s : State) : (withdrawHolds s).mixer = s.mixer := rfl
@[simp] theorem withdrawHolds_press (s : State) : (withdrawHolds s).press = s.press := rfl
@[simp] theorem withdrawHolds_train (s : State) : (withdrawHolds s).train = s.train := rfl
@[simp] theorem withdrawHolds_fin (s : State) : (withdrawHolds s).fin = s.fin := rfl
@[simp] theorem withdrawHolds_bagger (s : State) : (withdrawHolds s).bagger = s.bagger := rfl
@[simp] theorem withdrawHolds_hold (s : State) : (withdrawHolds s).hold = s.hold := rfl
@[simp] theorem withdrawHolds_step (s : State) : (withdrawHolds s).step = s.step := rfl
@[simp] theorem withdrawHolds_stepTimer (s : State) : (withdrawHolds s).stepTimer = s.stepTimer := rfl
@[simp] theorem withdrawHolds_trucks (s : State) : (withdrawHolds s).trucks = s.trucks := rfl
@[simp] theorem withdrawHolds_bays (s : State) : (withdrawHolds s).bays = s.bays := rfl
@[simp] theorem withdrawHolds_line (s : State) : (withdrawHolds s).line = s.line := rfl
@[simp] theorem withdrawHolds_reports (s : State) : (withdrawHolds s).reports = s.reports := rfl
@[simp] theorem withdrawHolds_faults (s : State) : (withdrawHolds s).faults = s.faults := rfl
@[simp] theorem withdrawHolds_lamps (s : State) : (withdrawHolds s).lamps = s.lamps := rfl
@[simp] theorem withdrawHolds_pins (s : State) : (withdrawHolds s).pins = s.pins := rfl
@[simp] theorem withdrawHolds_free (s : State) : (withdrawHolds s).free = s.free := rfl
@[simp] theorem withdrawHolds_pending (s : State) : (withdrawHolds s).pending = s.pending := rfl

end Sys2Proof.Machine
end

