-- ==== Sys2Proof/Tests/Slice0.lean ====
section
/-! SUPPORT. Tests: ill-formed commands refused by the check of well-formedness, worked figures of the manual, one step of
each family, and for every statement with premises a state and operands that meet them. -/
namespace Sys2Proof.Tests
open Sys2Proof Sys2Proof.Machine

-- One test at a time: tests that wait for the kernel side by side each hold a thread, and its stack, of a checker whose
-- memory is bounded.
set_option Elab.async false

/-! ### Well-formedness: each check refuses a term outside its range and passes one at its edge -/

def blankFrame (n : Nat) : RawFrame := { kind := 0x10, source := 31, payload := List.replicate n 0, check := 0 }

theorem test_wf_memory : Instr.wf (.powerOn 0 (List.replicate 513 0) Inputs.blank) = false
    ∧ Instr.wf (.powerOn 0 (List.replicate 512 0) Inputs.blank) = true := by decide +kernel

theorem test_wf_payload : Instr.wf (.frameReceived (blankFrame 97)) = false
    ∧ Instr.wf (.frameReceived (blankFrame 96)) = true := by decide +kernel

theorem test_wf_stale_bin : [0, 49].map (fun b => Instr.wf (.staleAgeExpiry b)) = [false, false]
    ∧ [1, 48].map (fun b => Instr.wf (.staleAgeExpiry b)) = [true, true] := by decide

theorem test_wf_peer_draw : [(0, 1, 1), (31, 1, 1), (1, 0, 1), (1, 65536, 1), (1, 1, 0), (1, 1, 49)].map
      (fun (p : Nat × Nat × Nat) => Instr.wf (.peerDrawAgeExpiry p.1 p.2.1 p.2.2)) = List.replicate 6 false
    ∧ Instr.wf (.peerDrawAgeExpiry 30 65535 48) = true := by decide

theorem test_wf_bay : [0, 5].map (fun b => Instr.wf (.bayTimerExpiry b)) = [false, false]
    ∧ [1, 4].map (fun b => Instr.wf (.bayTimerExpiry b)) = [true, true] := by decide

theorem test_wf_order : [0, 65536].map (fun n => Instr.wf (.claimWindowExpiry n)) = [false, false]
    ∧ [1, 65535].map (fun n => Instr.wf (.claimWindowExpiry n)) = [true, true] := by decide

/-- No row of the table gives bits, so no word spells a command. -/
theorem test_no_word_spells_a_command : decodeTableWord 16 0 = none ∧ decodeTableWord 0 0 = none := ⟨rfl, rfl⟩

/-! ### A small node -/

/-- The state after a command, the state itself where the command does not answer next. -/
def after (c : Instr) (s : State) : State :=
  match exec c s with
  | .next t => t
  | _ => s

def run (cs : List Instr) (s : State) : State := cs.foldl (fun s c => after c s) s

/-- Node 9 of a mill, running, with press, bagger and loadout, its line in RUN and its stages empty; channel 1 is wired
to bin 4, which holds 5,000 of ingredient 100. -/
def rig : State :=
  { State.reset with
    power := .running
    straps := { node := 9, rate := 3, fast := false, press := true, bagger := true, loadout := true }
    params := { Params.blank with
      scale := { zero := 0, mult := 65535 }, bucket := { zero := 0, mult := 65535 }, finished := { zero := 0, mult := 65535 }
      batchSize := 40000, minBatch := 100, scaleCapacity := 60000, stableBand := 2, zeroBand := 50, emptyBand := 20
      stallWindow := 50, stallMinimum := 20, absTolerance := 5, relTolerance := 4, adaptGain := 2, jogLimit := 2
      flushIngredient := 100, flushMass := 1000, finishedCapacity := 120000, baggerSlow := 40, baggerFMax := 20
      baggerJogLimit := 1, bagTolerance := 3, spoutF := 150, holdDuration := 200, guardTime := 40, renewalPeriod := 80
      claimWindow := 20, batchCycle := 420, peerDrawAge := 1800, staleAge := 7200, levelSendPeriod := 300
      levelStep := 5000, grinder := { setpoint := 1800, trip := 2600, resume := 2000, gain := 16, startSpeed := 400, overloadLimit := 30 }
      press := { setpoint := 1800, trip := 2600, resume := 2000, gain := 16, startSpeed := 400, overloadLimit := 30 }
      steamGain := 8, condBand := 30
      levels := { bin := 4, capacity := 600000 } :: List.replicate 3 { bin := 0, capacity := 0 } }
    channels := { Channel.blank 1 with bin := 4, slowMargin := 300, fMax := 80, inFlight := 42 }
      :: (List.range 11).map (fun k => Channel.blank (k + 2))
    bins := State.reset.bins.map (fun e => if e.bin = 4 then
      { e with ingredient := some 100, estimate := some 5000, quarantine := .off, channel := some 1 } else e)
    levels := { bin := 4, lastSent := none, since := 0 } :: List.replicate 3 { bin := 0, lastSent := none, since := 0 }
    surge := StageRec.ofState .empty, mixer := StageRec.ofState .empty, press := StageRec.ofState .empty
    fin := { FinishedBin.blank with unknown := false }
    line := .run }

def someOrder : Order :=
  { id := 501, level := 6, group := 1, runCount := 1, form := .mash, target := none, cls := 2
    delivery := .bagged 250 40, formula := [{ code := 100, share := 10000 }], runMass := 10100
    plan := { Plan.blank with n := some 1 }, state := .held, waits := Waits.none, lead := 420, takeOrder := some 1
    started := false, cancelled := false, remainders := [{ code := 100, mass := 1000 }], rival := none
    claimTimer := .stopped }

def someBatch : Batch :=
  { number := 2045, kind := .product, order := some 501, makeUp := false, mass := 1000, form := .mash, target := none
    cls := 2, rework := false, short := false, excess := false }

def someDose : Dose :=
  { position := 1, ingredient := 100, target := 1000, mode := some .feed, status := .inProgress, tare := some 0
    reported := 0, jogs := 0, e1 := none, interrupted := false, announced := true, outcome := none }

/-- The rig with one component of batch 2,045 in progress from bin 4, its last filtered weight this one. -/
def dosing (st : ScaleState) (w : Int) : State :=
  { rig with
    scale := { Scale.blank with state := st, batch := some { record := someBatch, doses := [someDose], firstTare := some 0 } }
    scaleConv := { rig.scaleConv with mult := 65535, gross := List.replicate 4 w, filtered := List.replicate 8 w
                                      raw := List.replicate 8 w, stable := true }
    plan := some { batch := 2045, flush := false, entries :=
      [{ position := 1, ingredient := 100, target := 1000, bin := 4, drawn := 0, status := .drawing }] } }

/-- The rig settling, with this record and these doses. -/
def weighing (b : Batch) (doses : List Dose) : State :=
  let s := dosing (.settle .first) 1000
  { s with scale := { s.scale with batch := some { record := b, doses := doses, firstTare := some 0 } } }

/-- The rig with the scale held by this fault at this resume point. -/
def heldAt (r : ResumePoint) : State :=
  let s := dosing .held 500
  { s with scale := { s.scale with holdSet := [.stall], resume := some r } }

def someCharge : Charge :=
  { order := 501, target := 250, tare := 0, jogOnly := false, jogs := 0, e1 := none, interrupted := false, outlet := .bag
    cause := none }

/-- The rig with a charge in the bucket and the finished bin holding its order. -/
def bagging (b : Bucket) : State :=
  { rig with
    slots := [{ someOrder with state := .draining, started := true }]
    fin := { rig.fin with order := some 501, mass := some 10000 }
    bagger := { rig.bagger with bucket := b, charge := some someCharge, spout := .receiving }
    bucketConv := { rig.bucketConv with mult := 65535, gross := List.replicate 4 0, filtered := List.replicate 8 0
                                        raw := List.replicate 8 0, stable := true } }

def someComp : Compartment :=
  { capacity := 5000, order := some 640, mass := 0, state := .opened, here := false, refused := false, noted := false }

def bulkOrder : Order := { someOrder with id := 640, delivery := .bulk 10000, state := .draining, started := true }

/-- The rig holding bay 2 for compartment 1 of truck 41, the finished bin stable at 1,000 of order 640. -/
def holding (h : HoldState) : State :=
  { rig with
    slots := [bulkOrder]
    trucks := [{ truck := 41, bay := some 2, departure := some 10, comps := [someComp] }]
    fin := { rig.fin with order := some 640, mass := some 1000 }
    finConv := { rig.finConv with mult := 65535, gross := List.replicate 4 1000, filtered := List.replicate 8 1000
                                  raw := List.replicate 8 1000, stable := true }
    hold := { OwnHold.blank with state := h, bay := some 2, truck := some 41, comp := some 1, remaining := 100 } }

/-- The holding rig with its spout open. -/
def loading : State :=
  let s := holding .held
  { s with step := some { truck := 41, comp := 1, order := 640, weight := 1000, base := 0, cause := none }
           hold := { s.hold with stepped := true, loading := true } }

/-- A frame as it stands on the line, its check the one computed. -/
def frame (kind source : Nat) (payload : List Byte) : RawFrame :=
  let f : RawFrame := { kind := BitVec.ofNat 8 kind, source := BitVec.ofNat 8 source, payload := payload, check := 0 }
  { f with check := crc (frameBody f) }

/-- A state with this frame alone in its inbound queue. -/
def hearing (f : RawFrame) (s : State) : State := { s with rx := { s.rx with inbound := [f] } }

/-- A frame alone in the queue of a ready state arrives at the block of its kind. -/
theorem arrives_alone (block : Block) (kind : Nat) (f : RawFrame) (s : State) (hr : ready s = true)
    (hk : f.kind.toNat = kind) (ho : ownerOf kind = some block) :
    Arrives block kind f (hearing f s) { s with rx := { s.rx with inbound := [] } } :=
  ⟨hr, hk, ho, [], [], rfl, fun _ h => absurd h List.not_mem_nil, rfl⟩

/-- The samples that read each bit time as it was sent. -/
def tripled (c : BitVec 12) : BitVec 36 :=
  (List.range 36).foldl (fun r k => if c.getLsbD (k / 3) then r ||| (1#36 <<< k) else r) 0#36

/-! ### Premises met: step, form of an event, starts -/

theorem test_premises_StepRunsFrontCommand :
    ({ rig with pending := [.time, .offer] } : State).pending = .time :: [.offer] ∧ rig.pending = [] := ⟨rfl, rfl⟩

theorem test_premises_EventsThatCannotComeChangeNothing : ready State.reset = false ∧ ready { rig with resetPin := true } = false
    ∧ (∀ p m i, Instr.time ≠ .powerOn p m i) ∧ Instr.time ≠ .resetAssert ∧ (∀ i, Instr.time ≠ .warmReset i)
    ∧ (∀ l, Instr.time ≠ .flashTimerExpiry l) := by
  refine ⟨rfl, rfl, ?_, ?_, ?_, ?_⟩ <;> intros <;> exact nofun

/-- The rig meets every premise of an event that cannot come about but those that exclude one another. -/
theorem test_premises_absent_events :
    (∀ t ∈ [rig.scale.settle, rig.scale.stall, rig.scale.jog, rig.scale.residue, rig.train.grindRunout, rig.train.mix,
      rig.train.mixerRunout, rig.train.dischargeLimit, rig.train.pressRunout, rig.train.conditioning,
      rig.train.grinder.timer, rig.train.presser.timer, rig.train.surgeDump, rig.train.mixerDump, rig.train.pressDump,
      rig.train.finishedDump, rig.bagger.fill, rig.bagger.settle, rig.bagger.jog, rig.bagger.discharge,
      rig.hold.contention, rig.hold.renewal, rig.stepTimer, rig.lamps.fault.timer, rig.lamps.run.timer],
      t.isRunning = false)
    ∧ findOrder 501 rig = none ∧ rig.rx.listening = false ∧ underWay rig = none
    ∧ (underWay { rig with tx := [{ OutEntry.fresh (.yielded 501) with underWay := true }] }).isSome = true
    ∧ ({ rig with inputs := { Inputs.blank with stopLine := true } } : State).inputs.stopLine = true
    ∧ rig.inputs.stopLine = false ∧ rig.inputs.bagClamp = false
    ∧ ({ rig with straps := Straps.blank } : State).straps.bagger = false
    ∧ rig.rx.inbound = [] := by decide +kernel

theorem test_premises_NothingBeginsOffRun :
    [LineState.pausing, .paused, .stopped].all (fun l => decide (({ rig with line := l } : State).line ≠ .run)) = true := by
  decide

def word (n k : Nat) : List Byte := (List.range k).map (fun i => BitVec.ofNat 8 (n / 256 ^ (k - 1 - i)))

def padTo (n : Nat) (l : List Byte) : List Byte := l ++ List.replicate (n - l.length) 0

def loopBytes : List Byte := word 1800 2 ++ word 2600 2 ++ word 2000 2 ++ word 16 1 ++ word 400 2 ++ word 30 2

def channelBytes (bin s i f j m : Nat) : List Byte := word bin 1 ++ word s 2 ++ word i 2 ++ word f 2 ++ word j 1 ++ word m 2

/-- A configuration memory within its ranges, but for its sum. -/
def memoryBody : List Byte :=
  let a := padTo 61 ([0x44, 0x4C] ++ word 1250 3 ++ word 4096 2 ++ word 0 3 ++ word 65535 2 ++ word 0 3 ++ word 65535 2
    ++ word 40000 2 ++ word 10000 2 ++ word 60000 3 ++ word 2 2 ++ word 50 2 ++ word 20 2 ++ word 10 1 ++ word 5 1
    ++ word 50 2 ++ word 20 2 ++ word 5 1 ++ word 4 1 ++ word 2 1)
  let b := a ++ channelBytes 4 300 42 80 5 10 ++ channelBytes 21 200 30 60 5 10
    ++ (List.replicate 10 (channelBytes 0 0 0 0 1 0)).flatten
  let c := b ++ (word 4 1 ++ word 600000 3) ++ (List.replicate 3 (word 0 1 ++ word 1 3)).flatten
  let d := c ++ List.replicate 64 0 ++ word 900 2 ++ word 1000 2 ++ word 700 2 ++ word 300 2 ++ word 10 1 ++ word 10 1
    ++ word 10 1 ++ word 100 2 ++ loopBytes ++ loopBytes ++ word 30 1 ++ word 60 2 ++ word 8 1 ++ word 120000 3
  let e := padTo 331 d ++ word 40 2 ++ word 7 2 ++ word 20 2 ++ word 5 1 ++ word 1 1 ++ word 3 2 ++ word 60 2
  padTo 510 (padTo 361 e ++ word 150 2 ++ word 200 2 ++ word 80 2 ++ word 40 2 ++ word 5 1 ++ word 20 1 ++ word 420 2
    ++ word 1800 2 ++ word 7200 2 ++ word 10 1 ++ word 300 2 ++ word 5000 3)

def goodMemory : List Byte := memoryBody ++ word (memoryBody.map BitVec.toNat).sum 2

/-- Node 9 at 115,200 bit/s of the slow clock, with press, bagger and loadout. -/
def goodPins : BitVec 11 := BitVec.ofNat 11 (9 + 3 * 32 + 256 + 512 + 1024)

theorem test_premises_PowerOnValuesOfEveryBlock : startFault (readStraps goodPins) goodMemory = none := by decide +kernel

theorem test_premises_StartsAreJudgedAndFaultsSilence :
    startFault (readStraps 0#11) goodMemory = some .badNode
    ∧ startFault (readStraps 31#11) goodMemory = some .badNode
    ∧ startFault (readStraps (9#11 ||| (2#11 <<< 5) ||| (1#11 <<< 7))) goodMemory = some .badRate
    ∧ startFault (readStraps 9#11) memoryBody = some .badMemory := by decide +kernel

/-- The memory of the start, its values at the first and last byte of their regions, and one that did not answer whole. -/
theorem test_premises_memory_values :
    (goodMemory.length = 512 ∧ memoryGood goodMemory = true ∧ memoryGood memoryBody = false)
    ∧ (let p := readParams goodMemory
       p.scale = { zero := 1250, mult := 4096 } ∧ p.jogLimit = 2 ∧ p.channels.map ChannelParams.bin = [4, 21] ++ List.replicate 10 0
        ∧ p.levels.map LevelParams.capacity = [600000, 1, 1, 1] ∧ p.flushTemperature = 700 ∧ p.finishedCapacity = 120000
        ∧ p.chargeLimit = 60 ∧ p.guardTime = 40 ∧ p.levelStep = 5000)
    ∧ (readParams (goodMemory.set 2 0x80)).scale.zero = 1250 - 8388608
    ∧ memoryGood ((goodMemory.set 367 0).set 368 9) = false := by decide +kernel

theorem test_premises_WarmResetKeepsAndClears :
    (rig.power = .running ∧ (rig.slots.map Order.id).Nodup)
    ∧ ((holding .held).power = .running ∧ ((holding .held).slots.map Order.id).Nodup)
    ∧ (pipeline rig = [] ∧ (rig.bagger.charge.isSome || decide (rig.bagger.spout = .receiving)) = false ∧ rig.step = none)
    ∧ pipeline (dosing .idle 0) ≠ [] ∧ (bagging .charged).bagger.charge.isSome = true ∧ loading.step ≠ none := by
  decide +kernel

/-! ### Premises met: the mill bus -/

theorem test_premises_CharactersAndFramesAreJudged :
    (∀ k < 12, majority (tripled (txCharacter true 0x2A)) k = (txCharacter true 0x2A).getLsbD k)
    ∧ majority (tripled 1#12) 0 = true
    ∧ (majority (tripled 0#12) 0 = false ∧ majority (tripled 0#12) 11 = false)
    ∧ (∀ k ∈ [1, 10], ∀ j < 12, majority (tripled (txCharacter false 0xFF ^^^ (1#12 <<< k))) j
        = (txCharacter false 0xFF ^^^ (1#12 <<< k)).getLsbD j)
    ∧ ready rig = true ∧ judgeCharacter (tripled 1#12) = .falseStart ∧ judgeCharacter (tripled 0#12) = .framingError
    ∧ judgeCharacter (tripled (txCharacter false 0xFF ^^^ 2#12)) = .parityError
    ∧ judgeCharacter (tripled (txCharacter true 0x2A)) = .good true 0x2A
    ∧ judgeCharacter (tripled (txCharacter false 97)) = .good false 97
    ∧ judgeCharacter (tripled (txCharacter false 96)) = .good false 96 := by decide +kernel

/-- The assembler's lengths at their edges: two bytes before the length byte, and the last byte of a frame of payload 0. -/
theorem test_premises_assembler_lengths :
    ([0x13#8, 3#8] : List Byte).length = 2 ∧ 96 < (97#8 : Byte).toNat ∧ (96#8 : Byte).toNat ≤ 96
    ∧ (3 ≤ ([0x13#8, 3#8, 0#8] : List Byte).length
      ∧ ([0x13#8, 3#8, 0#8] : List Byte).length < byteAt 2 [0x13#8, 3#8, 0#8] + 4)
    ∧ frameBytes { kind := 0x13, source := 3, payload := [], check := 0x1234 } = [0x13#8, 3#8, 0#8, 0x12#8] ++ [0x34#8] := by
  decide

theorem test_premises_FrameCharactersAssembleToFrame :
    List.Forall₂ Reads ((frameCharacters (frame 0x13 3 [3, 7, 0])).map tripled) (frameCharacters (frame 0x13 3 [3, 7, 0]))
    ∧ (frame 0x13 3 [3, 7, 0]).payload.length ≤ 96 := by
  refine ⟨?_, by decide⟩
  rw [List.forall₂_map_left_iff, List.forall₂_same]
  unfold Reads
  decide +kernel

theorem test_frame_characters_leave_the_frame :
    (((frameCharacters (frame 0x13 3 [3, 7, 0])).map tripled).foldl (fun t c => receiveCharacter c t) rig).rx.inbound
      = [frame 0x13 3 [3, 7, 0]] := by decide +kernel

theorem test_premises_complete_frames :
    validFrame { frame 0x13 3 [3, 7, 0] with check := 0 } = false
    ∧ (validFrame (frame 0x13 3 [3, 7, 0]) = true ∧ (frame 0x13 3 [3, 7, 0]).source.toNat ≠ rig.straps.node
      ∧ rig.rx.listening = false ∧ rig.tx.length < 8)
    ∧ ({ rig with rx := { rig.rx with listening := true } } : State).rx.listening = true
    ∧ (validFrame (wireFrame 9 (.yielded 501)) = true ∧ (wireFrame 9 (.yielded 501)).source.toNat = rig.straps.node)
    ∧ (let s : State := { rig with tx := [{ OutEntry.fresh (.yielded 501) with underWay := true }] }
       s.rx.seen = false ∧ (underWay s).map (fun e => wireFrame s.straps.node e.body) = some (wireFrame 9 (.yielded 501)))
    ∧ underWay rig = none
    ∧ ({ rig with rx := { rig.rx with readback := some (wireFrame 9 (.yielded 501)) } } : State).rx.readback
        = some (wireFrame 9 (.yielded 501))
    ∧ rig.rx.readback ≠ some (wireFrame 9 (.yielded 501)) := by decide +kernel

theorem test_premises_FrameChecksDetectAndPass :
    Body.fits (.drawNotice 2045 [(4, 1000)]) ∧ Body.fits (.drawNotice 2045 (List.replicate 16 (48, 16777215)))
    ∧ Body.fits (.yielded 501) ∧ 1 ≤ 30 ∧ 30 ≤ 30 := by
  refine ⟨?_, ?_, trivial, ?_, ?_⟩ <;> first | decide | (constructor <;> decide)

/-- A head behind a frame of a higher class; the idle counts at the edge of its deferral. -/
theorem test_premises_AttemptsBeginAndEndByRule :
    (let h := OutEntry.fresh (.claim 501 420)
     let before := [OutEntry.fresh (.level 4 100)]
     let after := [OutEntry.fresh (.drawReport 1 4 0)]
     let s : State := { rig with tx := before ++ h :: after }
     (∀ e ∈ s.tx, e.underWay = false) ∧ (∀ e ∈ before, h.body.cls < e.body.cls) ∧ (∀ e ∈ after, h.body.cls ≤ e.body.cls)
      ∧ s.rx.listening = false ∧ standing .addressClash s = false ∧ ready s = true
      ∧ 40 < 32 * h.body.cls + s.straps.node ∧ 32 * h.body.cls + s.straps.node ≤ 41)
    ∧ ({ rig with rx := { rig.rx with listening := true } } : State).rx.listening = true ∧ rig.rx.barred = false
    ∧ ({ rig with rx := { rig.rx with barred := true } } : State).rx.barred = true
    ∧ standing .addressClash (raiseFault .addressClash none [] rig) = true
    ∧ (∀ n ∈ [6, 7], ∀ e ∈ [({ body := .yielded 501, attempts := n, underWay := true } : OutEntry)],
        e.underWay = true ∧ (e.attempts < 7 ∨ 7 ≤ e.attempts)) := by decide +kernel

/-- An own hold in each state, its bay held by this node and by none, and a queue with and without room. -/
theorem test_premises_hold_fates :
    (∀ h ∈ [HoldState.taking, .contending, .held, .nothing],
      (holding h).hold.state = h ∧ (holding h).hold.bay = some 2 ∧ (holding h).tx.length < 8
        ∧ (findBay 2 (holding h)).map BayTimer.holder = some none
        ∧ (findBay 2 (setOwnBay 2 (holding h))).map BayTimer.holder = some (some (holding h).straps.node))
    ∧ (Body.yielded 501).kind ≠ 0x0E
    ∧ (let s : State := { rig with tx := List.replicate 8 (OutEntry.fresh (.yielded 501)) }
       ¬s.tx.length < 8 ∧ ∀ e ∈ s.tx, e.body.cls ≠ 2) := by decide +kernel

def fullQueue (b : Body) : List OutEntry := List.replicate 8 (OutEntry.fresh b)

theorem test_premises_FullQueueEvictsOrDrops :
    rig.tx.length < 8 ∧ 8 ≤ (fullQueue (.level 4 0)).length ∧ (Body.level 4 0).cls = 2 ∧ (Body.yielded 501).cls ≠ 2
    ∧ fullQueue (.level 4 0) = List.replicate 7 (OutEntry.fresh (.level 4 0)) ++ OutEntry.fresh (.level 4 0) :: []
    ∧ (OutEntry.fresh (.level 4 0)).underWay = false
    ∧ (∀ e ∈ fullQueue (.yielded 501), e.body.cls = 2 → e.underWay = true) := by decide

theorem test_premises_TimeStepsAgeAndCountDown :
    (∃ s1, Arrives .busPort 0x01 (frame 0x01 31 (be3 86399)) (hearing (frame 0x01 31 (be3 86399)) rig) s1)
    ∧ (∃ s1, Arrives .busPort 0x01 (frame 0x01 31 (be3 86400)) (hearing (frame 0x01 31 (be3 86400)) rig) s1)
    ∧ FiguresWithin rig ∧ ready rig = true := by
  refine ⟨⟨_, arrives_alone _ _ _ _ ?_ ?_ ?_⟩, ⟨_, arrives_alone _ _ _ _ ?_ ?_ ?_⟩, ?_, ?_⟩
  all_goals first | rfl | skip
  refine ⟨?_, ?_, ?_, ?_, ?_, ?_, ?_, ?_, ?_, ?_, ?_, ?_, ?_, ?_⟩
  all_goals decide +kernel

theorem test_premises_ages_and_departures :
    (let e : BinEntry := { BinEntry.blank 4 with age := 7200 }
     let s : State := { rig with bins := [e] }
     findBin e.bin s = some e ∧ e.stale = false ∧ s.params.staleAge < min 65535 (e.age + 1))
    ∧ (let p : PeerDraw := { node := 3, batch := 7, bin := 4, target := 10, age := 1800 }
       rig.params.peerDrawAge < min 65535 (p.age + 1))
    ∧ ((holding .held).trucks.map Truck.truck).Nodup
    ∧ (let s : State := { holding .held with millTime := some 600 }
       ∃ t ∈ s.trucks, ∃ c ∈ t.comps, t.comp 1 = some c ∧ c.order = some 640 ∧ holdsOrder 640 s = true ∧ c.state ≠ .loaded
        ∧ c.noted = false ∧ t.departure = some 10 ∧ 10 * 60 ≤ 600) := by
  refine ⟨by decide +kernel, by decide +kernel, by decide +kernel, _, List.mem_singleton.2 rfl, _, List.mem_singleton.2 rfl, ?_⟩
  decide +kernel

/-! ### Premises met: the Bin View -/

/-- A frame of a kind, alone in the rig's queue, arrives. -/
theorem arrives_rig (block : Block) (kind source : Nat) (p : List Byte) (s : State) (hr : ready s = true)
    (hk : (frame kind source p).kind.toNat = kind) (ho : ownerOf kind = some block) :
    ∃ s1, Arrives block kind (frame kind source p) (hearing (frame kind source p) s) s1 :=
  ⟨_, arrives_alone _ _ _ _ hr hk ho⟩

theorem test_premises_IntakeRefillsBin : ∀ bin ∈ [0, 1, 48, 49, 255], ∃ s1,
    Arrives .binView 0x09 (frame 0x09 31 (be1 bin ++ be2 61440 ++ be3 16777215))
      (hearing (frame 0x09 31 (be1 bin ++ be2 61440 ++ be3 16777215)) rig) s1 :=
  fun _ _ => arrives_rig _ _ _ _ _ rfl rfl rfl

theorem test_premises_LevelReplacesEstimate :
    (∀ bin ∈ [0, 1, 48, 49], ∀ code ∈ [none, some 0, some 61439, some 61440], ∃ s1,
      let p := be1 bin ++ be3 16777215 ++ (match code with | some c => be2 c | none => [])
      Arrives .binView 0x0A (frame 0x0A 3 p) (hearing (frame 0x0A 3 p) rig) s1)
    ∧ (∃ r p, rig.levels[0]? = some r ∧ rig.params.levels[0]? = some p ∧ r.bin ≠ 0 ∧ r.lastSent = none)
    ∧ (∃ r p, rig.levels[3]? = some r ∧ rig.params.levels[3]? = some p ∧ r.bin = 0)
    ∧ (1000#16).toNat ≤ 1000 ∧ 1000 < (1001#16).toNat ∧ rig.tx.length < 8 := by
  refine ⟨fun _ _ _ _ => arrives_rig _ _ _ _ _ rfl rfl rfl, ⟨_, _, rfl, rfl, ?_⟩, ⟨_, _, rfl, rfl, ?_⟩, ?_⟩ <;> decide

theorem test_premises_PeerDrawsAreKeptAndAnswered :
    (∀ source ∈ [3, 31], ∃ s1, let p := be2 65535 ++ ([(48, 16777215), (49, 1)].map (fun q => be1 q.1 ++ be3 q.2)).flatten
      Arrives .binView 0x0B (frame 0x0B source p) (hearing (frame 0x0B source p) rig) s1)
    ∧ (∀ bin ∈ [0, 1, 48, 49], ∃ s1, let p := be2 7 ++ be1 bin ++ be3 100
      Arrives .binView 0x0C (frame 0x0C 3 p) (hearing (frame 0x0C 3 p) rig) s1)
    ∧ (∀ source ∈ [30, 31], ∃ s1,
      Arrives .binView 0x13 (frame 0x13 source [3, 7, 0]) (hearing (frame 0x13 source [3, 7, 0]) rig) s1)
    ∧ rig.peers.length ≤ 64
    ∧ ({ rig with peers := List.replicate 64 { node := 3, batch := 7, bin := 4, target := 1, age := 0 } } : State).peers.length
      ≤ 64 := by
  refine ⟨fun _ _ => arrives_rig _ _ _ _ _ rfl ?_ rfl, fun _ _ => arrives_rig _ _ _ _ _ rfl rfl rfl,
    fun _ _ => arrives_rig _ _ _ _ _ rfl ?_ rfl, ?_, ?_⟩ <;> first | rfl | decide

theorem recordsWhole_rig : RecordsWhole rig := ⟨by decide +kernel, by decide +kernel, by decide⟩

/-- The bin drawn from is turned ON while its component is fed. -/
theorem test_premises_QuarantineSetsBinsAndCuts : RecordsWhole (dosing .feedFast 100)
    ∧ (∃ s1, Arrives .binView 0x08 (frame 0x08 31 (be1 4 ++ be1 1))
        (hearing (frame 0x08 31 (be1 4 ++ be1 1)) (dosing .feedFast 100)) s1)
    ∧ (∀ st ∈ [ScaleState.tare, .feedFast, .feedSlow, .jog false, .jog true, .settle .first, .settle .jog, .settle .resume],
      let s := hearing (frame 0x08 31 (be1 4 ++ be1 1)) (dosing st 100)
      curDose s = some someDose ∧ (planEntry 1 s).map (fun e => (e.status, e.bin)) = some (.drawing, 4)
        ∧ (findBin 4 s).map BinEntry.quarantine = some .off ∧ s.scale.state = st)
    ∧ quarantineAfter 4 [(4, 1)] .off = .on ∧ curDose rig = none :=
  ⟨recordsWhole_rig, arrives_rig _ _ _ _ _ rfl rfl rfl, by decide +kernel, rfl, rfl⟩

/-- The same while the unit is HELD at each resume point: the two that a cut concerns, and others; a unit that is not cut. -/
theorem test_premises_quarantine_of_a_held_scale :
    (∀ r ∈ [ResumePoint.resumeSettle, .tare false, .tare true, .accept .short, .rechoose, .handAddSettle],
      let s := heldAt r
      s.scale.state = .held ∧ s.scale.resume = some r ∧ curDose s = some someDose
        ∧ (planEntry 1 s).map (fun e => (e.status, e.bin)) = some (.drawing, 4)
        ∧ (findBin 4 s).map BinEntry.quarantine = some .off ∧ s.tx.length < 8)
    ∧ curDose (dosing .complete 0) = some someDose
    ∧ (let f := frame 0x08 31 (be1 4 ++ be1 1)
       let t := after .quarantine (hearing f (heldAt .resumeSettle))
       let u := after .quarantine (hearing f (heldAt (.accept .short)))
       t.scale.resume = some .rechoose ∧ t.tx.head?.map OutEntry.body = some (.drawReport 2045 4 500)
        ∧ u.scale.resume = some (.accept .short) ∧ u.tx = []) := by decide +kernel

/-- The edge of each step of the choice: a target that the bin's free mass just gives, and one that it does not. -/
theorem test_premises_ChosenBinIsEligibleAndBest :
    chooseBin 100 5000 none rig = some 4 ∧ chooseBin 100 5001 none rig = some 4 ∧ chooseBin 200 1 none rig = none
    ∧ ({ rig with bins := rig.bins.map (fun e => if e.bin = 9 then
        { e with ingredient := some 100, estimate := some 5000, quarantine := .off, channel := some 2, stale := true } else e) }
      : State).bins.countP (eligible 100) = 2 := by decide +kernel

/-! ### Premises met: orders -/

def offerBytes : List Byte := word 501 2 ++ word 6 1 ++ word 1 1 ++ word 1 1 ++ word 2 1 ++ word 0 1 ++ word 0 2 ++ word 0 1
  ++ word 250 2 ++ word 4 2 ++ word 0 3 ++ word 0 1 ++ word 0 2 ++ word 1 1 ++ word 100 2 ++ word 10000 2

theorem test_premises_OffersStoredAreEligible :
    (∃ s1, Arrives .orderBook 0x02 (frame 0x02 31 offerBytes) (hearing (frame 0x02 31 offerBytes) rig) s1)
    ∧ (evaluateOffer (parseOffer offerBytes) rig).map (fun o => (o.id, o.runMass, o.lead)) = some (501, 1000, 420)
    ∧ evaluateOffer (parseOffer offerBytes) State.reset = none
    ∧ (evaluateOffer { parseOffer offerBytes with bags := 20 } rig).map Order.runMass = some 5000
    ∧ evaluateOffer { parseOffer offerBytes with bags := 21 } rig = none := by
  refine ⟨arrives_rig _ _ _ _ _ rfl rfl rfl, ?_⟩; decide +kernel

/-- The bytes of an OFFER written out are those formed from its fields, and fields at the ends of their ranges are read back. -/
theorem test_premises_offer_bytes :
    offerPayload (parseOffer offerBytes) 0 = offerBytes
    ∧ (∀ d ∈ [none, some 65535],
      let g : OfferFields :=
        { order := 65535, level := 255, group := 255, runCount := 255, cls := 255, form := 255, target := 65535
          delivery := 255, bagSize := 65535, bags := 65535, runMass := 16777215, departure := d
          formula := [{ code := 65535, share := 65535 }, { code := 0, share := 0 }] }
      parseOffer (offerPayload g 65535) = g ∧ lengthOk 0x02 (offerPayload g 65535) = true) := by decide +kernel

/-- Offers that meet every test: bagged, of pellets, and of bulk with a departure that the lead time still leaves. -/
theorem test_premises_eligible_offers :
    let f := parseOffer offerBytes
    let clock : State := { rig with millTime := some 0 }
    let bulk : OfferFields := { f with delivery := 1, runMass := 500, departure := some 1439 }
    (f.delivery = 0 ∧ 100 ≤ f.bagSize ∧ f.bagSize ≤ 500 ∧ 1 ≤ f.bags ∧ f.bags ≤ 4000 ∧ rig.straps.bagger = true
      ∧ f.form = 0 ∧ rig.straps.press = true ∧ rig.straps.loadout = true)
    ∧ (f.order = 501 ∧ f.level ≤ 15 ∧ f.group ≤ 3 ∧ 1 ≤ f.runCount ∧ f.runCount ≤ 255 ∧ 1 ≤ f.cls ∧ f.cls ≤ 7
      ∧ f.departure = none ∧ f.formula = [{ code := 100, share := 10000 }] ∧ rig.slots.length < 24
      ∧ findOrder f.order rig = none ∧ standing .addressClash rig = false)
    ∧ (∀ m ∈ [1000, 500], splitCount m rig.params.batchSize = 1 ∧ rig.params.minBatch ≤ m
      ∧ (∀ c ∈ plannedOf m f.formula, c.target ≤ claimAvailability c.code rig)
      ∧ (machineParts m f.formula).length ≤ 64 - rig.reservations.length)
    ∧ runMassOf rig.params.bagAllowance (.bagged 250 4) = 1000 ∧ offerFlush f.level f.cls .pellet rig = 0
    ∧ departures f.order f.departure rig = [] ∧ departures bulk.order bulk.departure clock = [1439]
    ∧ (evaluateOffer { f with form := 1, target := 600 } rig).isSome = true
    ∧ (evaluateOffer bulk clock).map Order.lead = some 420 := by decide +kernel

def booked (o : Order) : State := { rig with slots := [o] }

theorem keysDistinct_booked {o : Order} (h : o.formula = someOrder.formula) : KeysDistinct (booked o) :=
  ⟨List.nodup_singleton _, List.nodup_nil, List.nodup_nil, List.nodup_nil, List.nodup_nil,
    fun _ hx => List.mem_singleton.1 hx ▸ h ▸ List.nodup_singleton _⟩

/-- A YIELD (R39, R194: two bytes) is taken from the queue and changes no slot. -/
theorem test_yield_leaves_the_book :
    let o : Order := { someOrder with state := .claiming, claimTimer := .running 20 }
    let t := after .yieldReceived (hearing (frame 0x05 3 (be2 501)) (booked o))
    t.slots = [o] ∧ t.rx.inbound = [] := by decide +kernel

/-- Every way a TAKE meets an order: by its own started byte and lead (420 at node 8 against 420 at node 9 is nearer,
at node 10 not), by the order's state and started mark. -/
theorem test_premises_ClaimsAndTakesMeetOrders :
    (∀ source ∈ [3, 31], ∃ s1, Arrives .orderBook 0x03 (frame 0x03 source (be2 501 ++ be2 420))
      (hearing (frame 0x03 source (be2 501 ++ be2 420)) (booked { someOrder with state := .claiming })) s1)
    ∧ (∀ source ∈ [8, 10, 31], ∀ started ∈ [0, 1, 2], ∃ s1,
      let f := frame 0x04 source (be2 501 ++ be2 420 ++ be1 started)
      Arrives .orderBook 0x04 f (hearing f (booked someOrder)) s1)
    ∧ (∀ source ∈ [3, 31], ∃ s1, let f := frame 0x05 source (be2 501)
      Arrives .orderBook 0x05 f (hearing f (booked someOrder)) s1)
    ∧ validFrame (frame 0x05 3 (be2 501)) = true
    ∧ findOrder 501 rig = none
    ∧ (∀ st ∈ [OrderState.claiming, .held], ∀ mark ∈ [true, false],
      findOrder 501 (booked { someOrder with state := st, started := mark })
        = some { someOrder with state := st, started := mark })
    ∧ (420 = someOrder.lead ∧ 8 < rig.straps.node ∧ ¬10 < rig.straps.node) := by
  refine ⟨fun _ _ => ?_, fun _ _ _ _ => ?_, fun _ _ => ?_, by decide +kernel⟩ <;>
    exact arrives_rig _ _ _ _ _ rfl rfl rfl

/-- A window lost to a rival of the same lead and a lower node, one won against a higher node, and the last take order. -/
theorem test_premises_ClaimWindowDecidesOrder :
    (∀ r ∈ [none, some { node := 8, lead := 420 }, some { node := 10, lead := 420 }],
      let o := { someOrder with state := .claiming, claimTimer := .running 20, rival := r }
      ready (booked o) = true ∧ KeysDistinct (booked o) ∧ findOrder o.id (booked o) = some o ∧ o.state = .claiming
        ∧ o.claimTimer = .running 20)
    ∧ ¬(420 < 420 ∨ (420 = 420 ∧ rig.straps.node < 8)) ∧ rig.straps.node < 10 ∧ rig.takeCounter < 65535
    ∧ ({ rig with takeCounter := 65535 } : State).takeCounter = 65535 ∧ rig.tx.length < 8 := by
  refine ⟨fun _ _ => ⟨rfl, keysDistinct_booked rfl, rfl, rfl, rfl⟩, by decide⟩

/-- A compartment of the order, at, just below its run mass, and refused before. -/
theorem test_premises_claim_window_compartments :
    ∀ p ∈ [(10100, false), (10099, false), (10099, true)],
      let c : Compartment := { someComp with order := some 501, capacity := p.1, refused := p.2 }
      let s : State := { booked { someOrder with state := .claiming, claimTimer := .running 20 } with
        trucks := [{ truck := 41, bay := some 2, departure := none, comps := [c] }] }
      s.trucks.map (fun t => t.comp 1) = [some c] ∧ (findOrder 501 s).isSome = true
        ∧ (c.capacity < someOrder.runMass ↔ p.1 = 10099) := by decide +kernel

theorem test_premises_RelevelAndCancelChangeOrder :
    (∀ level ∈ [0, 15, 16], ∀ group ∈ [3, 4], ∃ s1, let f := frame 0x06 31 (be2 501 ++ be1 level ++ be1 group)
      Arrives .orderBook 0x06 f (hearing f (booked someOrder)) s1)
    ∧ (∃ s1, let f := frame 0x07 31 (be2 501); Arrives .orderBook 0x07 f (hearing f (booked someOrder)) s1)
    ∧ KeysDistinct (booked someOrder) ∧ findOrder 501 rig = none
    ∧ (∀ st ∈ [OrderState.claiming, .held, .active], ∀ c ∈ [true, false],
        findOrder 501 (booked { someOrder with state := st, cancelled := c }) = some { someOrder with state := st, cancelled := c })
    ∧ inPipeline 501 (booked someOrder) = false ∧ (booked someOrder).fin.order ≠ some 501
    ∧ inPipeline 501 { booked someOrder with surge := StageRec.doneWith someBatch } = true
    ∧ (bagging .charged).fin.order = some 501
    ∧ ((bagging .charged).bagger.charge = some someCharge ∧ someCharge.order = 501
        ∧ (bagging .charged).bagger.bucket ≠ .discharging)
    ∧ (let r := StageRec.busyIn .discharging (some someBatch) (some .finished)
       ofOrder 501 r.batch = true ∧ r.state = .busy ∧ r.phase = some .discharging ∧ r.dest = some .finished)
    ∧ (∀ st ∈ [ScaleState.tare, .handAdd, .feedFast], scaleRecord (dosing st 0) = some someBatch ∧ someBatch.rework = false
        ∧ (dosing st 0).scale.state = st) := by
  refine ⟨fun _ _ _ _ => arrives_rig _ _ _ _ _ rfl rfl rfl, arrives_rig _ _ _ _ _ rfl rfl rfl, keysDistinct_booked rfl, ?_⟩
  decide +kernel

theorem test_premises_SplitsTotalTheirMass :
    0 < 40001 ∧ 0 < 40000 ∧ 2 ≤ splitCount 40001 40000 ∧ splitCount 40000 40000 = 1
    ∧ ([6000, 2500, 1500] : List Nat).sum = 10000
    ∧ (largestRemainder 1001 [6000, 2500, 1500])[0]? = some 601 ∧ (largestRemainder 1001 [6000, 2500, 1500])[1]? = some 250
    ∧ 1001 * 2500 % 10000 < 1001 * 6000 % 10000 := by decide +kernel

theorem figuresWithin_rig : FiguresWithin rig := by
  refine ⟨?_, ?_, ?_, ?_, ?_, ?_, ?_, ?_, ?_, ?_, ?_, ?_, ?_, ?_⟩ <;> decide +kernel

/-- A mill whose matrix asks one flush from class 5 to class 2: no flush after class 0, one after class 5. -/
theorem test_premises_ProductBatchNeedsNoFlush :
    FiguresWithin rig ∧ orderFlush someOrder rig = 0
    ∧ (let s : State := { rig with
        params := { rig.params with matrix := (List.range 64).map (fun k => if k = 42 then 1 else 0) }
        carry := { rig.carry with scale := ⟨5, 0⟩, press := ⟨5, 0⟩ } }
       orderFlush someOrder s = 1 ∧ orderFlush { someOrder with form := .pellet } s = 1
        ∧ matrixEntry s.params.matrix 5 2 - s.carry.press.flushes = 1 ∧ (∀ e ∈ s.params.matrix, e ≤ 2)) :=
  ⟨figuresWithin_rig, by decide +kernel, by decide +kernel⟩

theorem test_premises_AdmissionRecordsBatch : KeysDistinct (booked someOrder)
    ∧ findOrder someOrder.id (booked someOrder) = some someOrder
    ∧ ({ booked someOrder with batchCounter := 65535 } : State).batchCounter = 65535
    ∧ (let o := { someOrder with plan := { someOrder.plan with makeUp := some { mass := 500, batches := 1, admitted := 0 } } }
       findOrder o.id (booked o) = some o) :=
  ⟨keysDistinct_booked rfl, rfl, rfl, rfl⟩

/-- An ACTIVE order of level 6 and a HELD one of this level, both without waits. -/
def rivals (level : Nat) : State :=
  { rig with slots := [{ someOrder with id := 502, level := level, takeOrder := some 2, runMass := 1000 },
    { someOrder with state := .active, runMass := 1000 }] }

theorem oneActive_rivals (level : Nat) : OneActive (rivals level) := by
  intro x hx y hy
  simp only [rivals, List.mem_cons, List.not_mem_nil, or_false] at hx hy
  rcases hx with rfl | rfl <;> rcases hy with rfl | rfl <;> simp [someOrder]

theorem keysDistinct_rivals (level : Nat) : KeysDistinct (rivals level) := by
  refine ⟨by simp [rivals, someOrder], List.nodup_nil, List.nodup_nil, List.nodup_nil, List.nodup_nil, ?_⟩
  intro x hx
  simp only [rivals, List.mem_cons, List.not_mem_nil, or_false] at hx
  rcases hx with rfl | rfl <;> simp [someOrder]

/-- Of the two the ACTIVE one is chosen where it has the highest level, else the other. -/
theorem test_premises_AttemptsChooseFromWaitSets :
    (∀ l ∈ [6, 7], attemptDue (rivals l) = true
      ∧ (rivals l).slots.map (fun o => (o.awaits, o.waits.isEmpty)) = [(true, true), (true, true)]
      ∧ (chooseOrder (recomputeWaits (rivals l))).map Order.id = some (if l = 6 then 501 else 502))
    ∧ attemptDue { rig with line := .paused } = false
    ∧ (attemptDue rig = true ∧ chooseOrder (recomputeWaits rig) = none)
    ∧ (let s := booked { someOrder with runMass := 60000, plan := { Plan.blank with n := some 2 } }
       s.slots.map (fun o => (o.awaits, o.waits.short, (waitsFor o s).short)) = [(true, false, true)]
        ∧ attemptDue (settled s s) = true) := by decide +kernel

/-- Two orders that SHORT newly enters at the next recomputation. -/
def twoShort : State :=
  let o : Order := { someOrder with runMass := 60000, plan := { Plan.blank with n := some 2 } }
  { rig with slots := [{ o with id := 502, takeOrder := some 2 }, o] }

/-- Two orders that SHORT newly enters, with this record of SHORT_STOCK. -/
def twoShortAgain (count : Nat) : State :=
  { twoShort with faults :=
      [{ key := .shortStock, count := count, first := none, last := none, reference := some 640, acked := true }] }

/-- The count and reference of each record after a recomputation. -/
def shortRaises (s : State) : List (Nat × Option Nat) :=
  (recomputeWaits s).faults.map (fun r => (r.count, r.reference))

/-- R14, R183: two raises, with no record of SHORT_STOCK, with an acknowledged one, and with no room in the queue; the
record has the id of the first or keeps its own. An order that stays SHORT raises nothing. -/
theorem test_premises_short_stock_raises :
    shortRaises twoShort = [(2, some 501)] ∧ (recomputeWaits twoShort).tx.length = 2
    ∧ shortRaises (twoShortAgain 7) = [(9, some 640)] ∧ shortRaises (twoShortAgain 254) = [(255, some 640)]
    ∧ (recomputeWaits { twoShort with tx := fullQueue (.yielded 501) }).tx.length = 8
    ∧ shortRaises (recomputeWaits twoShort) = shortRaises twoShort := by decide +kernel

/-- Bagged and bulk orders whose runs are short, with no order ACTIVE and with one that is not due; a cancelled order. -/
theorem test_premises_MakeUpsAndCancelledOrders :
    let short (o : Order) : Order := { o with state := .draining, plan := { o.plan with n := some 1, admitted := 1 } }
    let s : State := { rig with slots := [short someOrder, short { bulkOrder with level := 9 }] }
    let s2 : State := { s with slots := { someOrder with id := 502, state := .active } :: s.slots }
    (∀ o ∈ s.slots, makeUpDue o s = true ∧ makeUpDue o s2 = true ∧ o.state ≠ .active ∧ 1 ≤ o.level)
    ∧ s.slots.map (fun o => s.slots.all (fun x => decide (x.id = o.id) || ranksAhead s o x)) = [false, true]
    ∧ (∃ a ∈ s2.slots, a.state = .active ∧ makeUpDue a s2 = false)
    ∧ KeysDistinct s2 ∧ IdleScaleEmpty s
    ∧ (let c := booked { someOrder with cancelled := true }
       inPipeline 501 c = false ∧ c.tx.length + 1 ≤ 8) := by
  refine ⟨by decide +kernel, by decide +kernel, ⟨_, List.mem_cons_self, by decide +kernel⟩, ⟨?_, ?_, ?_, ?_, ?_, ?_⟩, ⟨?_, ?_⟩,
    by decide +kernel⟩ <;> decide +kernel

/-! ### Premises met: trucks and bays -/

/-- A plan for truck 41: bay 2, departure 10, one compartment of 5,000 for order 640. -/
def planBytes : List Byte := word 41 1 ++ word 1 1 ++ word 3 1 ++ word 2 1 ++ word 10 2 ++ word 1 1 ++ word 1 1 ++ word 5000 3
  ++ word 640 2

def trucksOf (n : Nat) (departure : Option Nat) : List Truck :=
  (List.range n).map (fun k => { truck := k + 100, bay := none, departure := departure, comps := [someComp] })

theorem test_premises_TruckPlanStoresOrRefuses :
    (∀ p ∈ [planBytes, [41, 0], [0, 0]], ∀ s ∈ [rig, holding .held], ∃ s1,
      Arrives .deliveryTable 0x0D (frame 0x0D 31 p) (hearing (frame 0x0D 31 p) s) s1)
    ∧ KeysDistinct (holding .held)
    ∧ (parsePlan planBytes).1 = 41 ∧ ((parsePlan planBytes).2.map PlanFields.inRange) = some true
    ∧ parsePlan [41, 0] = (41, none) ∧ parsePlan [0, 0] = (0, none)
    ∧ ((parsePlan (planBytes.set 3 5)).2.map PlanFields.inRange) = some false
    ∧ findTruck 41 rig = none ∧ rig.trucks.length < 12
    ∧ (let s : State := { rig with trucks := trucksOf 12 (some 10), millTime := some 600 }
       findTruck 41 s = none ∧ 12 ≤ s.trucks.length ∧ (∃ t ∈ s.trucks, departed s t = true))
    ∧ (let s : State := { rig with trucks := trucksOf 12 none, millTime := some 600 }
       findTruck 41 s = none ∧ 12 ≤ s.trucks.length ∧ (∀ t ∈ s.trucks, departed s t = false))
    ∧ ((findTruck 41 (holding .held)).isSome = true ∧ (holding .held).hold.state ≠ .nothing
        ∧ (holding .held).hold.truck = some 41)
    ∧ (∀ st ∈ [CompState.opened, .loading, .loaded, .full], ∀ order ∈ [some 640, some 641, none],
      let s : State := { rig with trucks :=
        [{ truck := 41, bay := none, departure := none, comps := [{ someComp with state := st, order := order }] }] }
      (findTruck 41 s).isSome = true) := by
  refine ⟨?_, ⟨by decide, by decide, by decide⟩, ?_⟩
  · intro p _ s hs
    simp only [List.mem_cons, List.not_mem_nil, or_false] at hs
    rcases hs with rfl | rfl <;> exact arrives_rig _ _ _ _ _ rfl rfl rfl
  · decide +kernel

/-- The bytes of a plan written out are those formed from it, and plans with every field present and absent are read back. -/
theorem test_premises_plan_bytes :
    (parsePlan planBytes).2.map (fun p => planPayload 41 p 0 0 0) = some planBytes
    ∧ (∀ p ∈ [({ bay := some 255, departure := some 65535, comps := [⟨16777215, some 65535⟩, ⟨0, none⟩] } : PlanFields),
        { bay := none, departure := none, comps := [] }],
      parsePlan (planPayload 255 p 255 65535 65535) = (255, some p)
        ∧ lengthOk 0x0D (planPayload 255 p 255 65535 65535) = true) := by decide +kernel

/-- A full table that gives up the departed truck of the earliest departure, at equal departures the lower id; the hold's
target among them, and not. -/
theorem test_premises_truck_given_up :
    let trucks := trucksOf 10 (some 10) ++ [{ truck := 50, bay := none, departure := some 10, comps := [someComp] },
      { truck := 51, bay := none, departure := some 11, comps := [someComp] }]
    let s : State := { holding .held with
      trucks := trucks, millTime := some 660, hold := { (holding .held).hold with truck := some 50 } }
    let t := after .truckPlan (hearing (frame 0x0D 31 planBytes) s)
    (findTruck 41 s = none ∧ 12 ≤ s.trucks.length ∧ ∀ x ∈ s.trucks, departed s x = true)
    ∧ t.trucks.map Truck.truck = (List.range 10).map (fun k => k + 100) ++ [51, 41] ∧ t.hold = OwnHold.blank := by
  decide +kernel

/-- Plans that leave the own hold's target usable, and that take it away: another order, another bay, no such compartment,
one become FULL; and a plan with a compartment more than the record. -/
theorem test_premises_plan_and_own_target :
    let plan (bay comps : Nat) (order : Nat) : List Byte := planPayload 41
      { bay := some bay, departure := some 10, comps := List.replicate comps ⟨5000, some order⟩ } 0 0 0
    let heldAfter (p : List Byte) (s : State) : HoldState := (after .truckPlan (hearing (frame 0x0D 31 p) s)).hold.state
    let two : State := { loading with
      trucks := [{ truck := 41, bay := some 2, departure := some 10, comps := [someComp, someComp] }]
      hold := { loading.hold with comp := some 2 } }
    (loading.hold.state ≠ .nothing ∧ loading.hold.truck = some 41 ∧ loading.hold.comp = some 1
      ∧ (findTruck 41 loading).map (fun t => t.comps[0]?) = some (some someComp))
    ∧ [plan 2 1 640, plan 2 2 640, plan 2 1 641, plan 3 1 640].map (fun p => heldAfter p loading)
        = [.held, .held, .nothing, .nothing]
    ∧ [plan 2 2 640, plan 2 1 640].map (fun p => heldAfter p two) = [.held, .nothing]
    ∧ (let s : State := { loading with trucks := loading.trucks.map (fun t =>
         { t with comps := t.comps.map (fun c => { c with state := .full, mass := 4900 }) }) }
       heldAfter (plan 2 1 640) s = .nothing)
    ∧ ((after .truckPlan (hearing (frame 0x0D 31 (plan 3 1 640)) loading)).step.map LoadStep.cause)
        = some (some .target) := by decide +kernel

/-- A plan whose compartment is small for the order the book holds, and was not refused before. -/
theorem test_premises_truck_plan_refuses :
    let s : State := { holding .nothing with slots := [{ bulkOrder with runMass := 10000 }] }
    (findOrder 640 s).map Order.runMass = some 10000 ∧ 5000 < 10000
    ∧ (findTruck 41 s).map (fun t => t.comps.map Compartment.refused) = some [false]
    ∧ ((after .truckPlan (hearing (frame 0x0D 31 planBytes) s)).trucks.map (fun t => t.comps.map Compartment.refused))
        = [[true]] := by decide +kernel

/-- A bay that can be taken, a hold that keeps its conditions and one that has lost them; a filled run that is marked. -/
theorem test_premises_BaysAreTakenAndRunsMarked :
    let free : State := { holding .nothing with hold := OwnHold.blank }
    let filled : Order := { bulkOrder with plan := { bulkOrder.plan with n := some 1, admitted := 1, massFinished := 10100 } }
    (loadoutWanted free = true ∧ free.hold.state = .nothing ∧ free.step = none ∧ free.fin.order = some 640
      ∧ (chooseTarget 640 free).map (fun p => (p.1.truck, p.1.bay, p.2.1)) = some (41, some 2, 1)
      ∧ (findBay 2 free).map BayTimer.remaining = some 0 ∧ free.tx.length < 8)
    ∧ (chooseTarget 641 free).isNone = true
    ∧ (8 ≤ ({ free with tx := fullQueue (.yielded 501) } : State).tx.length)
    ∧ ((holding .held).hold.state ≠ .nothing ∧ (holding .held).hold.stepped = false
      ∧ loadoutWanted (holding .held) = true ∧ holdQualifies (holding .held) = true)
    ∧ loadoutWanted { holding .held with line := .paused } = false
    ∧ (findTruck 41 (holding .held)).map (fun t => (t.comp 1).isSome) = some true
    ∧ KeysDistinct (holding .held)
    ∧ (let s : State := { holding .nothing with slots := [filled], fin := rig.fin }
       runFilled filled s = true ∧ s.fin.order ≠ some filled.id ∧ s.step = none ∧ filled.cancelled = false
        ∧ s.trucks.map (fun t => t.comps.map (fun c => (c.order, c.state, c.refused))) = [[(some 640, .opened, false)]]) := by
  refine ⟨by decide +kernel, by decide +kernel, by decide +kernel, by decide +kernel, by decide +kernel, by decide +kernel,
    ⟨?_, ?_, ?_, ?_, ?_, ?_⟩, by decide +kernel⟩ <;> decide +kernel

/-- After an event that queues the hold the bay is taken. -/
theorem test_bay_is_taken : let s : State := { holding .nothing with hold := OwnHold.blank }
    (settled s s).hold.state = .taking ∧ (settled s s).tx.map OutEntry.body = [.bayHold 2 41 200 false] := by decide +kernel

theorem recordsWhole_holding (h : HoldState) : RecordsWhole (holding h) :=
  ⟨recordsWhole_rig.1, recordsWhole_rig.2.1, recordsWhole_rig.2.2⟩

/-- Frames at the edges of each range, and the three ways an own hold meets a hold of its bay: a lower node at equal
loading ranks ahead, a higher one does not, and two loading holds stand. -/
theorem test_premises_BayHoldSetsTimerAndRanks :
    (∀ bay ∈ [0, 1, 2, 4, 5], ∀ truck ∈ [0, 1], ∀ duration ∈ [0, 1, 600, 601], ∀ source ∈ [8, 10, 31], ∃ s1,
      let f := frame 0x0E source (be1 bay ++ be1 truck ++ be2 duration ++ be1 1)
      Arrives .deliveryTable 0x0E f (hearing f (holding .held)) s1)
    ∧ RecordsWhole (holding .held)
    ∧ (∀ h ∈ [HoldState.taking, .contending, .held],
      0 < 1 ∧ (holding h).hold.state ≠ .nothing ∧ (holding h).hold.bay = some 2 ∧ (holding h).hold.loading = false
        ∧ (holding h).straps.node ≤ 10 ∧ ¬(holding h).straps.node ≤ 8)
    ∧ loading.hold.loading = true ∧ rig.hold.state = .nothing
    ∧ (findBay 2 (holding .held)).isSome = true ∧ rig.tx.length < 8
    ∧ (holding .held).hold.state ≠ .contending := by
  refine ⟨?_, recordsWhole_holding _, by decide +kernel⟩
  intro _ _ _ _ _ _ n hn
  simp only [List.mem_cons, List.not_mem_nil, or_false] at hn
  rcases hn with rfl | rfl | rfl <;> exact arrives_rig _ _ _ _ _ rfl rfl rfl

/-- The guard of 40 is reached by the step that leaves 40, and not by the one that leaves 41. -/
theorem test_premises_bay_step :
    ready (holding .held) = true ∧ RecordsWhole (holding .held)
    ∧ (let s := { holding .held with hold := { (holding .held).hold with remaining := 41 } }
       s.hold.state = .held ∧ s.hold.remaining - 1 ≤ s.params.guardTime)
    ∧ (let s := { holding .held with hold := { (holding .held).hold with remaining := 42 } }
       s.hold.state = .held ∧ ¬s.hold.remaining - 1 ≤ s.params.guardTime)
    ∧ (let s : State := { rig with bays := [⟨some 3, 1⟩, ⟨none, 0⟩, ⟨none, 0⟩, ⟨some 4, 1⟩] }
       [1, 4].map (fun k => (findBay k s).map BayTimer.remaining) = [some 1, some 1]) :=
  ⟨rfl, recordsWhole_holding _, by decide, by decide, by decide⟩

theorem test_premises_LoadedMarksAndReleaseFrees :
    (∀ source ∈ [3, 31], ∃ s1, let f := frame 0x0F source (be1 41 ++ be1 1 ++ be2 640 ++ be3 900)
      Arrives .deliveryTable 0x0F f (hearing f (holding .held)) s1)
    ∧ (∃ c, findComp 41 1 (holding .held) = some c ∧ c.order = some 640 ∧ c.here = false)
    ∧ ((holding .held).hold.state ≠ .nothing ∧ (holding .held).hold.truck = some 41 ∧ (holding .held).hold.comp = some 1)
    ∧ (∃ c, findComp 41 1 (holding .nothing) = some c ∧ c.order = some 640 ∧ c.here = false)
    ∧ (holding .nothing).hold.state = .nothing
    ∧ ((holding .taking).hold.state = .taking ∧ (holding .taking).hold.sent = false)
    ∧ (let s := { holding .taking with hold := { (holding .taking).hold with sent := true } }
       s.hold.state ≠ .nothing ∧ s.hold.sent = true)
    ∧ ((holding .contending).hold.state ≠ .nothing ∧ (holding .contending).hold.state ≠ .taking) := by
  refine ⟨?_, ⟨_, rfl, rfl, rfl⟩, by decide, ⟨_, rfl, rfl, rfl⟩, by decide, by decide, by decide, by decide⟩
  intro n hn
  simp only [List.mem_cons, List.not_mem_nil, or_false] at hn
  rcases hn with rfl | rfl <;> exact arrives_rig _ _ _ _ _ rfl rfl rfl

/-! ### Premises met: Line Control -/

def stallRecord : FaultRecord :=
  { key := .stall, count := 255, first := none, last := none, reference := some 2045, acked := false }

theorem test_premises_FaultRaiseCountsAndReports :
    KeysDistinct rig ∧ (∀ q ∈ rig.faults, q.key ≠ .stall) ∧ rig.tx.length < 8
    ∧ (let s : State := { rig with faults := [stallRecord], tx := fullQueue (.yielded 501) }
       KeysDistinct s ∧ s.faults = [] ++ stallRecord :: [] ∧ stallRecord.key = .stall ∧ 8 ≤ s.tx.length) := by
  refine ⟨⟨by decide, by decide, by decide⟩, by decide, by decide, ⟨by decide, by decide, by decide⟩, rfl, rfl, by decide⟩

/-- Holds with their fault named, and not; the keys that unit 1 and kind 3 name. -/
theorem test_premises_AckAcknowledgesNamedRecords :
    (∀ node ∈ [0, 9, 10], ∃ s1, let f := frame 0x11 31 (be1 node ++ be1 1 ++ be1 3)
      Arrives .lineControl 0x11 f (hearing f rig) s1)
    ∧ KeysDistinct rig ∧ rig.straps.node = 9 ∧ ready rig = true
    ∧ (let s : State := { heldAt .resumeSettle with faults := [stallRecord] }
       s.scale.state = .held ∧ .stall ∈ s.scale.holdSet ∧ standing .stall s = true
        ∧ (∃ r ∈ s.faults, r.acked = false ∧ r.key ∉ [FaultKey.overdose]))
    ∧ rig.scale.state ≠ .held := by
  refine ⟨?_, ⟨by decide, by decide, by decide⟩, rfl, rfl, by decide +kernel, by decide⟩
  intro n hn
  exact arrives_rig _ _ _ _ _ rfl rfl rfl

theorem test_premises_PauseAndResumeMoveLine :
    (∀ node ∈ [0, 9, 10], ∀ request ∈ [1, 2], ∃ s1, let f := frame 0x12 31 (be1 node ++ be1 request)
      Arrives .lineControl 0x12 f (hearing f rig) s1)
    ∧ (rig.line = .run ∧ ready rig = true ∧ rig.tx.length < 8)
    ∧ (∀ l ∈ [LineState.pausing, .paused], ({ rig with line := l } : State).line = l
        ∧ unitHeld .line { rig with line := l } = false)
    ∧ ({ rig with line := .stopped } : State).line = .stopped
    ∧ (let s : State := { rig with line := .pausing }
       (s.reports.dosing || dosingAtPause s) = true ∧ (s.reports.packing || baggerAtPause s) = true)
    ∧ (let s : State := { dosing .feedFast 0 with line := .pausing }
       s.line = .pausing ∧ (s.reports.dosing || dosingAtPause s) = false ∧ s.scale.state = .feedFast) := by
  refine ⟨fun _ _ _ _ => arrives_rig _ _ _ _ _ rfl rfl rfl, by decide +kernel⟩

theorem test_premises_StopLineStopsEverything :
    ready (dosing .feedFast 0) = true ∧ (dosing .feedFast 0).inputs.stopLine = false ∧ (dosing .feedFast 0).line ≠ .stopped
    ∧ (dosing .tare 0).scale.state ∉ [ScaleState.feedFast, .feedSlow, .jog true, .settle .first, .settle .jog]
    ∧ (let s : State := { rig with line := .stopped, inputs := { Inputs.blank with stopLine := true } }
       s.inputs.stopLine = true ∧ s.inputs.localStop = false) := by decide +kernel

/-- The bagger at the STOP line: a charge under way and one whose pulse is pending, with and without the permission; a
discharge to either outlet, its timer frozen and its gate shut, and both again at the release. -/
theorem test_premises_bagger_at_the_stop :
    (∀ b ∈ [Bucket.filling true, .filling false, .jog true, .settling .first, .settling .jog],
      let t := after .stopAsserted (bagging b)
      t.bagger.bucket = .settling .resume ∧ t.bagger.charge = some { someCharge with interrupted := true })
    ∧ (∀ b ∈ [Bucket.jog false, .settling .resume, .charged],
      let t := after .stopAsserted (bagging b)
      permitsDrawing (bagging b) = true ∧ t.bagger.bucket = b ∧ t.bagger.charge = some someCharge)
    ∧ (let s : State := { bagging (.jog false) with fin := rig.fin }
       permitsDrawing s = false ∧ (after .stopAsserted s).bagger.bucket = .charged)
    ∧ ∀ out ∈ [Outlet.bag, .chute],
      let s := bagging .discharging
      let s : State := { s with bagger := { s.bagger with
        charge := some { someCharge with outlet := out }, discharge := .running 12 } }
      let t := after .stopAsserted s
      let u := after .stopReleased t
      t.bagger.discharge = .frozen 12 ∧ t.pins.bagGate = false ∧ t.pins.rejectGate = false
        ∧ t.inputs.stopLine = true ∧ t.inputs.localStop = false ∧ u.line = .paused ∧ u.bagger.discharge = .running 12
        ∧ u.pins.bagGate = decide (out = .bag) ∧ u.pins.rejectGate = decide (out = .chute) := by decide +kernel

/-- States whose close shows each lamp: a hold, a note alone, none; each line state. -/
theorem test_premises_LampsShowFaultsAndLine :
    (let t := settled rig { rig with faults := [stallRecord] }
     ready rig = true ∧ (∃ r ∈ t.faults, r.acked = false ∧ r.key.severity ≠ .note) ∧ t.line = .run)
    ∧ (let t := settled rig { rig with faults := [{ stallRecord with key := .rxDrop }], line := .paused }
       (∃ r ∈ t.faults, r.acked = false) ∧ (∀ r ∈ t.faults, r.key.severity = .note) ∧ t.lamps.fault.timer.isRunning = true
        ∧ t.line = .paused)
    ∧ (let t := settled rig { dosing .feedFast 0 with line := .pausing }
       t.line = .pausing ∧ t.faults = [] ∧ t.lamps.run.timer.isRunning = true) := by decide +kernel

/-- A stage in every state that a dump takes or leaves, and the transfers a dump ends. -/
theorem test_premises_DumpsAreTakenAndFlagBatches :
    (∀ node ∈ [0, 9, 10], ∀ request ∈ [3, 4, 5, 6, 7], ∃ s1, let f := frame 0x12 31 (be1 node ++ be1 request)
      Arrives .lineControl 0x12 f (hearing f rig) s1)
    ∧ ready rig = true
    ∧ (let s : State := { rig with surge := StageRec.busyIn .grinding (some someBatch) (some .mixer) }
       (stageOf .surge s).within .grinding = true ∧ (stageOf .surge s).dest = some .mixer)
    ∧ (∀ d ∈ [Dest.press, .finished], let s : State := { rig with mixer := StageRec.busyIn .discharging (some someBatch) (some d) }
       (stageOf .mixer s).within .discharging = true ∧ (stageOf .mixer s).dest = some d)
    ∧ (let s : State := { rig with press := StageRec.busyIn .pressing (some someBatch) (some .finished) }
       (stageOf .press s).within .pressing = true ∧ (stageOf .press s).dest = some .finished)
    ∧ ({ dosing .discharge 0 with surge := StageRec.busyIn .receiving none none } : State).surge.busyWith .receiving = true := by
  refine ⟨fun _ _ _ _ => arrives_rig _ _ _ _ _ rfl rfl rfl, by decide +kernel⟩

/-- Dose records of every kind at a dump of the scale: the one being dosed, one dosed by hand, one announced with its entry
DRAWING, and one that is not announced. -/
theorem test_premises_scale_dump_reports :
    let doses := [someDose, { someDose with position := 2, ingredient := 61440, mode := some .hand, announced := false },
      { someDose with position := 3, status := .waiting, tare := none },
      { someDose with position := 4, status := .waiting, tare := none, announced := false }]
    let entry (k : Nat) : PlanEntry :=
      { position := k, ingredient := 100, target := 1000, bin := 4, drawn := 0, status := .drawing }
    let s : State :=
      { weighing someBatch doses with plan := some { batch := 2045, flush := false, entries := [1, 3, 4].map entry } }
    KeysDistinct s ∧ doses.map Dose.fed = [true, false, true, true]
    ∧ (dumpScaleBatch s).tx.map OutEntry.body = [.drawReport 2045 4 1000, .drawReport 2045 4 0]
    ∧ (dumpScaleBatch s).plan.map (fun p => p.entries.map (fun e => (e.position, e.drawn, e.status)))
        = some [(1, 1000, .done), (3, 0, .done), (4, 0, .drawing)] := by
  refine ⟨⟨?_, ?_, ?_, ?_, ?_, ?_⟩, ?_⟩ <;> decide +kernel

theorem test_premises_InputsAreTaken :
    ready (dosing .handAdd 0) = true ∧ ((dosing .handAdd 0).scale.state = .handAdd ∧ (dosing .handAdd 0).line = .run)
    ∧ rig.scale.state ≠ .handAdd ∧ rig.straps.bagger = true ∧ rig.inputs.bagClamp = false ∧ rig.bagger.spout = .vacant
    ∧ (∀ p ∈ [BagSpout.vacant, .ready, .receiving, .filled],
      let s : State := { bagging .charged with
        inputs := { Inputs.blank with bagClamp := true }, bagger := { (bagging .charged).bagger with spout := p } }
      s.inputs.bagClamp = true ∧ s.bagger.spout = p ∧ s.bagger.charge = some someCharge) := by decide +kernel

/-! ### Premises met: weighing -/

theorem test_premises_ConverterFormsWeights :
    (∀ k ∈ [0, 2, 3, 4], (List.replicate k (0 : Int)).length ≤ 4) ∧ (List.replicate 8 (0 : Int)).length ≤ 8
    ∧ ((List.replicate 2 (0 : Int)).drop (2 - 3) ++ [0]).length < 4
    ∧ ((List.replicate 3 (0 : Int)).drop (3 - 3) ++ [0]).length = 4
    ∧ ((List.replicate 4 (0 : Int)).drop (4 - 3) ++ [0]).length = 4 := by decide

theorem test_premises_ToleranceJudgesAndFlightAdapts :
    42 ≤ 80 ∧ (0 : Int) ≤ (42 : Nat) + (-42) ∧ ((42 : Nat) : Int) + 38 ≤ (80 : Nat)
    ∧ (0 < adapt 2 80 42 19 ∧ adapt 2 80 42 19 < 80) ∧ (0 < adapt 2 80 42 (-18) ∧ adapt 2 80 42 (-18) < 80) := by
  decide

/-- The rig about to start a component of this ingredient and target, planned from bin 4. -/
def starting (ingredient target minDose : Nat) : State :=
  let s := dosing .tare 0
  let d : Dose := { someDose with ingredient := ingredient, target := target, mode := none, status := .waiting, tare := none }
  { s with
    channels := s.channels.map (fun c => { c with minDose := minDose })
    scale := { s.scale with batch := some { record := someBatch, doses := [d], firstTare := none } } }

/-- The rig with another bin of its ingredient, on channel 2, and bin 4 quarantined. -/
def barredBin (s : State) : State :=
  { s with bins := s.bins.map (fun e => if e.bin = 9 then
      { e with ingredient := some 100, estimate := some 5000, quarantine := .off, channel := some 2 }
      else { e with quarantine := .on }) }

/-- Components of every kind waiting: none, one of target 0, by hand, below the least dose, of a planned bin that is
eligible, that has another in its place, that has none, and of no entry in the plan. -/
theorem test_premises_ComponentsStartAsPlanned :
    nextWaiting (dosing .tare 0) = none ∧ (dosing .tare 0).scale.resume = none ∧ rig.tx.length < 8
    ∧ (∀ p ∈ [(100, 0, 0), (61440, 1000, 0), (100, 1000, 1001), (100, 1000, 1000)],
      let s := starting p.1 p.2.1 p.2.2
      (nextWaiting s).map Dose.target = some p.2.1 ∧ curDose s = none ∧ (planEntry 1 s).isSome = true)
    ∧ (nextWaiting (starting 100 1000 1001)).map (fun d => (doseChannel d (starting 100 1000 1001)).map Channel.minDose)
        = some (some 1001)
    ∧ (let s := starting 100 1000 0
       KeysDistinct s ∧ (findBin 4 s).map (eligible 100) = some true
        ∧ (findBin 4 (barredBin s)).map (eligible 100) = some false
        ∧ (planEntry 1 s).map (fun e => rechoose e (barredBin s)) = some (some 9)
        ∧ (planEntry 1 s).map (fun e => rechoose e { s with bins := State.reset.bins }) = some none
        ∧ (findBin 4 { s with bins := State.reset.bins }).map (eligible 100) = some false
        ∧ planEntry 1 { s with plan := none } = none)
    ∧ (plannedOf 1000 [{ code := 100, share := 10000 }]).map (fun c => chooseBin c.code c.target none rig) = [some 4] := by
  refine ⟨by decide +kernel, rfl, by decide, by decide +kernel, by decide +kernel, ⟨⟨?_, ?_, ?_, ?_, ?_, ?_⟩, ?_⟩, ?_⟩ <;>
    decide +kernel

/-- Samples of every state: no overload at the capacity itself, one above it. -/
theorem test_premises_ScaleSamplesFollowState :
    (∀ st ∈ [ScaleState.held, .complete, .unknown, .handAdd, .jog false, .jog true, .idle, .tare, .feedFast, .feedSlow,
        .settle .first, .settle .resume],
      let s := dosing st 500
      let v := s.scaleConv.sample s.params.stableBand 500
      ready s = true ∧ v.lastGross = some 500 ∧ 500 ≤ s.params.scaleCapacity ∧ v.weight = some 500 ∧ v.stable = true
        ∧ curDose s = some someDose ∧ someDose.tare = some 0)
    ∧ (∀ st ∈ [ScaleState.discharge, .dumping],
      let s := dosing st 20
      let v := s.scaleConv.sample s.params.stableBand 20
      s.scale.state = st ∧ v.stable = true ∧ v.weight = some 20 ∧ (20 : Int) ≤ s.params.emptyBand
        ∧ (scaleRecord s).map (fun b => b.short || b.excess) = some false)
    ∧ (scaleRecord (weighing { someBatch with short := true } [someDose])).map Batch.short = some true
    ∧ (∀ w ∈ [21, -21], ¬(-(rig.params.emptyBand : Int) ≤ w ∧ w ≤ rig.params.emptyBand))
    ∧ (rig.scaleConv.sample rig.params.stableBand 500).stable = false
    ∧ (∀ m ∈ [DoseMode.feed, .jogOnly, .hand], ({ someDose with mode := some m } : Dose).mode = some m)
    ∧ (let s := dosing .feedFast 60000
       (s.scaleConv.sample s.params.stableBand 60001).lastGross = some 60000
        ∧ ((dosing .feedFast 0).scaleConv.sample 2 60002).lastGross = some 60001 ∧ s.params.scaleCapacity = 60000
        ∧ .scaleOverload ∉ s.scale.holdSet ∧ s.scale.state ≠ .dumping)
    ∧ (heldAt .discharge).scale.resume.isSome = true := by decide +kernel

/-- A sample above the capacity that raises no overload: while DUMPING, and with SCALE_OVERLOAD in the hold set. -/
theorem test_premises_overload_not_raised :
    (let s := dosing .dumping 60001
     (s.scaleConv.sample s.params.stableBand 60002).lastGross = some 60001 ∧ s.scale.state = .dumping
      ∧ after (.scaleSample 60002) s = settled s { s with scaleConv := s.scaleConv.sample s.params.stableBand 60002 })
    ∧ (let s : State := { heldAt .resumeSettle with scale := { (heldAt .resumeSettle).scale with holdSet := [.scaleOverload] } }
       .scaleOverload ∈ s.scale.holdSet ∧ s.scale.state = .held ∧ (after (.scaleSample 60002) s).faults = []) := by
  decide +kernel

/-- Errors at, just inside and just beyond the tolerance of 5 on a target of 1,000, and jogs at their limit of 2. -/
theorem test_premises_SettleJudgesComponent :
    (∀ p ∈ [SettlePurpose.first, .jog, .resume, .handAdd], let s := dosing (.settle p) 1000
      curDose s = some someDose ∧ scaleRework s = false ∧ s.scale.state = .settle p ∧ s.line = .run
        ∧ ({ s with line := .pausing } : State).line = .pausing)
    ∧ scaleRework (weighing { someBatch with rework := true } [someDose]) = true
    ∧ tolerance 5 4 1000 = 5
    ∧ (-5 ≤ (995 : Int) - 1000 ∧ (994 : Int) - 1000 < -5 ∧ (1005 : Int) - 1000 ≤ 5 ∧ 5 < (1006 : Int) - 1000)
    ∧ flightOf someDose (dosing .idle 0) = 42 ∧ slowOf someDose (dosing .idle 0) = 300
    ∧ ((1000 : Int) - 42 ≤ 958 ∧ ¬(1000 : Int) - 42 ≤ 957)
    ∧ (1 < rig.params.jogLimit ∧ rig.params.jogLimit ≤ 2) := by decide +kernel

theorem test_premises_RecordStepReportsDraw :
    (let s := dosing (.settle .first) 1000
     curDose s = some someDose ∧ (planEntry someDose.position s).isSome = true ∧ someDose.fed = true ∧ s.tx = []
      ∧ gainOf someDose s = some 1000 ∧ (doseChannel someDose s).isSome = true
      ∧ (∀ x ∈ dosesOf s, x.position ≠ someDose.position → x.status = .done))
    ∧ (let d := { someDose with e1 := some (-29) }
       d.mode = some .feed ∧ d.interrupted = false ∧ d.e1 = some (-29))
    ∧ (let s : State := { weighing someBatch [someDose] with
         slots := [{ someOrder with state := .draining, started := true }], reservations := [{ code := 100, mass := 1000 }] }
       scaleRecord s = some someBatch ∧ someBatch.kind = .product ∧ someBatch.order = some 501
        ∧ (findOrder 501 s).map (fun o => massOf 100 o.remainders) = some 1000 ∧ massOf 100 s.reservations = 1000)
    ∧ (let b : Batch := { someBatch with kind := .flush, order := none }
       scaleRecord (weighing b [someDose]) = some b)
    ∧ (let s := weighing someBatch [someDose, { someDose with position := 2, status := .waiting }]
       scaleRework s = false ∧ (nextWaiting s).map (fun x => (x.position, x.target)) = some (2, 1000)
        ∧ curDose s = some someDose)
    ∧ KeysDistinct (dosing (.settle .first) 1000) := by
  refine ⟨by decide +kernel, by decide, by decide +kernel, by decide +kernel, by decide +kernel, ⟨?_, ?_, ?_, ?_, ?_, ?_⟩⟩ <;>
    decide +kernel

theorem test_premises_HoldEndsAtResumePoint :
    (∀ r ∈ [ResumePoint.idle, .complete, .discharge, .unknown, .accept .short, .resumeSettle, .handAddSettle, .tare false,
        .tare true, .rechoose],
      (heldAt r).scale.state = .held ∧ (∀ k ∈ (heldAt r).scale.holdSet, k ∈ FaultKey.all) ∧ (heldAt r).scale.resume = some r
        ∧ curDose (heldAt r) = some someDose ∧ scaleRework (heldAt r) = false)
    ∧ ((planEntry 1 (heldAt .rechoose)).bind (fun e => rechoose e (heldAt .rechoose)) = some 4
        ∧ (heldAt .rechoose).tx.length < 8)
    ∧ (let s : State := { heldAt .rechoose with bins := State.reset.bins }
       (planEntry 1 s).map (fun e => rechoose e s) = some none)
    ∧ ((planEntry 1 (heldAt (.tare true))).bind (fun e => findBin e.bin (heldAt (.tare true)))).map (eligible 100) = some true
    ∧ (let s := barredBin (heldAt (.tare true))
       ((planEntry 1 s).bind (fun e => findBin e.bin s)).map (eligible 100) = some false
        ∧ (planEntry 1 s).map (fun e => rechoose e s) = some (some 9))
    ∧ (let s : State := { heldAt (.tare true) with bins := State.reset.bins }
       ((planEntry 1 s).bind (fun e => findBin e.bin s)).map (eligible 100) = some false
        ∧ (planEntry 1 s).map (fun e => rechoose e s) = some none)
    ∧ (let s := heldAt .rechoose
       scaleRework { s with scale := { s.scale with batch := s.scale.batch.map (fun b =>
        { b with record := { b.record with rework := true } }) } } = true) := by decide +kernel

/-- Every timer of the Dosing Unit running; a gain that reaches the stall minimum of 20 and one that does not. -/
theorem test_premises_DosingTimersExpire :
    (let s := dosing (.settle .first) 500
     let on (f : Scale → Scale) : State := { s with scale := f s.scale }
     ready s = true ∧ (on (fun c => { c with jog := .running 5 })).scale.jog.isRunning = true
      ∧ (on (fun c => { c with settle := .running 10 })).scale.settle.isRunning = true
      ∧ (on (fun c => { c with stall := .running 50 })).scale.stall.isRunning = true
      ∧ curDose s = some someDose ∧ gainOf someDose s = some 500 ∧ s.params.stallMinimum = 20)
    ∧ ((20 : Int) ≤ 500 - 480 ∧ (500 : Int) - 481 < 20)
    ∧ (∀ st ∈ [ScaleState.discharge, .dumping],
      let s := dosing st 500
      let u : State := { s with scale := { s.scale with residue := .running 60 } }
      ready u = true ∧ u.scale.residue.isRunning = true ∧ u.scale.state = st ∧ scaleRecord u = some someBatch)
    ∧ (planEntry 1 (dosing .feedSlow 500)).isSome = true ∧ rig.tx.length < 8 := by decide +kernel

/-! ### Premises met: the Process Train -/

theorem test_premises_TrainLoopsSteerAndFaultsHold :
    (let l : FeedLoop := { mode := .running, speed := 400, timer := .stopped, current := none }
     l.mode = .running ∧ 2599 < rig.params.grinder.trip ∧ rig.params.grinder.trip ≤ 2600
      ∧ 2000 ≤ rig.params.grinder.resume ∧ rig.params.grinder.resume < 2001)
    ∧ FeedLoop.blank.mode = .idle
    ∧ ({ mode := .overload, speed := 0, timer := .running 30, current := none } : FeedLoop).mode = .overload
    ∧ (ready rig = true ∧ rig.train.steam.target = none ∧ rig.train.steam.running = false)
    ∧ (∀ on ∈ [true, false], let s : State := { rig with train := { rig.train with steam :=
        { rig.train.steam with running := on, target := some 700 } } }
       s.train.steam.target = some 700 ∧ s.train.steam.running = on) := by decide

/-- Stages that stand in HELD, barred and not, in their phases and after a dump. -/
theorem test_premises_held_stages :
    (∀ p ∈ [(StageId.surge, Phase.grinding), (.mixer, .discharging), (.press, .pressing)],
      let r : StageRec := { StageRec.busyIn p.2 (some someBatch) (some .finished) with
        state := .held, resume := some (.phase p.2) }
      let e : StageRec := { StageRec.ofState .held with resume := some .empty }
      (∀ x ∈ [r, e], let u : State := { rig with surge := x, mixer := x, press := x }
        (stageOf p.1 u).state = .held ∧ stageBarred p.1 u = false ∧ u.line = .run ∧ ({ u with line := .paused } : State).line ≠ .run)
      ∧ r.resume = some (.phase p.2) ∧ e.resume = some .empty)
    ∧ ({ rig with train := { rig.train with steam := { rig.train.steam with inBand := true } } } : State).train.steam.inBand = true
    ∧ (let r : StageRec := { StageRec.busyIn .grinding (some someBatch) (some .mixer) with
         state := .held, resume := some (.phase .grinding) }
       let t := settled rig { rig with surge := r, faults := [{ stallRecord with key := .grinderOverload }] }
       ready rig = true ∧ t.surge.state = .held ∧ t.pins.grinderFeed = 0) := by decide +kernel

/-- The rig with the train's timers changed. -/
def timed (f : Train → Train) : State := { rig with train := f rig.train }

theorem test_premises_TrainRunoutsPassBatch :
    ready rig = true ∧ (timed (fun t => { t with grindRunout := .running 10 })).train.grindRunout.isRunning = true
    ∧ (timed (fun t => { t with mix := .running 300 })).train.mix.isRunning = true
    ∧ (∀ d ∈ [Dest.press, .finished, .rework],
      let s : State := { timed (fun t => { t with mixerRunout := .running 10 }) with
        mixer := StageRec.busyIn .discharging (some someBatch) (some d) }
      s.train.mixerRunout.isRunning = true ∧ s.mixer.dest = some d)
    ∧ (∀ d ∈ [Dest.finished, .rework],
      let s : State := { timed (fun t => { t with pressRunout := .running 10 }) with
        press := StageRec.busyIn .pressing (some someBatch) (some d) }
      s.train.pressRunout.isRunning = true ∧ s.press.dest = some d)
    ∧ (let s := timed (fun t => { t with surgeDump := .running 10, mixerDump := .running 10, pressDump := .running 10 })
       ∀ i ∈ [StageId.surge, .mixer, .press], dumpRuns i s = true ∧ stageBarred i s = false)
    ∧ stageBarred .surge { rig with faults := [{ stallRecord with key := .grinderOverload }] } = true
    ∧ (timed (fun t => { t with finishedDump := .running 300 })).train.finishedDump.isRunning = true := by decide +kernel

theorem test_premises_train_faults :
    ready rig = true ∧ (timed (fun t => { t with dischargeLimit := .running 100 })).train.dischargeLimit.isRunning = true
    ∧ (timed (fun t => { t with grinder := { t.grinder with timer := .running 30 } })).train.grinder.timer.isRunning = true
    ∧ (timed (fun t => { t with presser := { t.presser with timer := .running 30 } })).train.presser.timer.isRunning = true
    ∧ (timed (fun t => { t with conditioning := .running 60 })).train.conditioning.isRunning = true
    ∧ (timed (fun t => { t with steam := { t.steam with last := some 650 } })).train.steam.last = some 650
    ∧ (∀ p ∈ [Phase.grinding, .discharging, .pressing],
      (StageRec.busyIn p (some someBatch) none).state = .busy ∧ (StageRec.busyIn p (some someBatch) none).phase = some p)
    ∧ rig.tx.length < 8 := by decide

theorem test_premises_WorkBeginsWhenFree :
    (let s : State := { rig with surge := StageRec.doneWith someBatch }
     s.surge.state = .done ∧ s.mixer.state = .empty ∧ s.line = .run)
    ∧ rig.surge.state ≠ .done
    ∧ (let free : State := { rig with finConv := { rig.finConv with filtered := [0] } }
       gateOpenFor someBatch free = true ∧ gateOpenFor someBatch rig = false
        ∧ ∀ b ∈ [someBatch, { someBatch with form := .pellet }, { someBatch with rework := true },
          { someBatch with kind := .flush, order := none }],
          (({ free with mixer := StageRec.doneWith b } : State).mixer.state = .done
            ∧ ({ free with mixer := StageRec.doneWith b } : State).mixer.batch = some b)
          ∧ ({ free with press := StageRec.doneWith b } : State).press.batch = some b
          ∧ ({ free with press := StageRec.doneWith b } : State).press.state = .done
          ∧ free.press.state = .empty ∧ free.press.batch = none)
    ∧ ((({ someBatch with rework := true } : Batch).rework = true) ∧ someBatch.order = some 501) := by decide +kernel

/-- What begins at the close of an event, from a state that meets the premises of each. -/
theorem test_premises_work_at_the_close :
    (let u := dosing .complete 1000
     u.line = .run ∧ u.scale.state = .complete ∧ u.surge.state = .empty ∧ netMass u = 1000
      ∧ (settled u u).scale.state = .discharge)
    ∧ (dosing (.jog false) 0).scale.state = .jog false
    ∧ (let u := bagging (.jog false)
       u.line = .run ∧ u.bagger.bucket = .jog false ∧ permitsDrawing u = true)
    ∧ (∀ o ∈ [Outlet.bag, .chute], let c := { someCharge with outlet := o }
       let u : State := { bagging .charged with bagger := { (bagging .charged).bagger with charge := some c, spout := .ready } }
       u.bagger.bucket = .charged ∧ u.bagger.charge = some c ∧ u.bagger.spout = .ready)
    ∧ (bagging (.unknown false)).bagger.bucket = .unknown false
    ∧ rig.train.grinder.mode = .idle := by decide +kernel

theorem test_premises_FinishedBinAndSpoutFollowSamples :
    (ready rig = true ∧ (rig.finConv.sample 2 500).weight = none)
    ∧ (let s := holding .nothing
       (s.finConv.sample s.params.stableBand 1000).weight = some 1000 ∧ s.step = none ∧ s.hold.state ≠ .held)
    ∧ (let zeros : Converter := { rig.finConv with
         mult := 65535, gross := List.replicate 4 0, filtered := List.replicate 8 0, raw := List.replicate 8 0 }
       (∀ n ∈ [20, -20, 84], (zeros.sample 2 n).weight.isSome = true)
        ∧ (zeros.sample 2 80).weight = some 20 ∧ (zeros.sample 2 84).weight = some 21 ∧ (zeros.sample 2 0).stable = true
        ∧ ({ rig with fin := { rig.fin with dumping := true } } : State).fin.dumping = true)
    ∧ (loading.step.map LoadStep.cause = some none ∧ (loading.trucks.map Truck.truck).Nodup
        ∧ (findComp 41 1 loading).isSome = true)
    ∧ (∀ h ∈ [HoldState.held, .nothing], ∀ st ∈ [CompState.loading, .full, .opened],
      let s : State := { loading with
        hold := { loading.hold with state := h }
        step := loading.step.map (fun x => { x with cause := some .line })
        trucks := [{ truck := 41, bay := some 2, departure := some 10, comps := [{ someComp with state := st }] }] }
      s.step.map LoadStep.cause = some (some .line) ∧ (s.trucks.map Truck.truck).Nodup ∧ s.hold.state = h
        ∧ findComp 41 1 s = some { someComp with state := st } ∧ (s.finConv.sample 2 1000).stable = true
        ∧ (rig.finConv.sample 2 1000).stable = false)
    ∧ spoutAllowed (holding .held) = true ∧ holdQualifies (holding .held) = true
    ∧ (spoutAllowed rig = false ∧ (holding .held).finConv.weight = some 1000 ∧ (holding .held).fin.order = some 640
        ∧ (holding .held).hold.truck = some 41 ∧ (holding .held).hold.comp = some 1) := by decide +kernel

/-! ### Premises met: the Packing Unit -/

theorem test_premises_BucketSamplesFollowState :
    (∀ b ∈ [Bucket.jog false, .jog true, .charged, .unknown false, .empty, .filling true, .filling false, .settling .first,
        .settling .jog, .settling .resume, .discharging],
      let s := bagging b
      let v := s.bucketConv.sample s.params.stableBand 0
      ready s = true ∧ s.straps.bagger = true ∧ s.bagger.bucket = b ∧ v.stable = true ∧ v.weight = some 0
        ∧ v.lastGross = some 0 ∧ s.bagger.charge = some someCharge ∧ s.line = .run)
    ∧ (rig.bucketConv.sample 2 0).stable = false
    ∧ ((chargeOrder (bagging .empty)).isSome = true ∧ (bagging .empty).bagger.mode = .bagging
        ∧ permitsDrawing (bagging .empty) = true)
    ∧ chargeOrder rig = none
    ∧ (rig.params.bagTolerance = 3 ∧ (-3 : Int) ≤ 247 - 0 - 250 ∧ (253 : Int) - 0 - 250 ≤ 3 ∧ (3 : Int) < 254 - 0 - 250)
    ∧ (({ someCharge with outlet := .chute } : Charge).outlet = .chute ∧ someCharge.outlet = .bag)
    ∧ (permitsDrawing { bagging (.settling .resume) with fin := rig.fin } = false
        ∧ ({ bagging (.settling .first) with line := .pausing } : State).line = .pausing
        ∧ ({ bagging (.settling .resume) with line := .pausing } : State).line = .pausing)
    ∧ (someCharge.jogs < rig.params.baggerJogLimit ∧ ¬({ someCharge with jogs := 1 } : Charge).jogs < rig.params.baggerJogLimit)
    ∧ (let s := bagging .discharging
       let u : State := { s with bagger := { s.bagger with discharge := .expired } }
       u.bagger.discharge = .expired ∧ (u.bucketConv.sample 2 0).stable = true) := by decide +kernel

/-- The order of a charge at its edges, and the charges that are not allowed, each with a sample that zeroes the bucket. -/
theorem test_premises_charge_order_and_auto_zero :
    (let s := bagging .empty
     let with_ (bags mass : Nat) : State := { s with
       slots := [{ someOrder with plan := { someOrder.plan with bags := bags } }], fin := { s.fin with mass := some mass } }
     [(39, 250), (40, 250), (39, 249)].map (fun q => (chargeOrder (with_ q.1 q.2)).isSome) = [true, false, false])
    ∧ (let s := bagging .empty
       ∀ u ∈ [{ s with bagger := { s.bagger with mode := .bagEnd } }, { s with fin := { s.fin with dumping := true } },
          { s with line := .paused }],
        (chargeOrder u).isSome = true ∧ (u.bagger.mode ≠ .bagging ∨ permitsDrawing u = false ∨ u.line ≠ .run)
          ∧ (after (.bucketSample 0) u).bagger.zeroed = true) := by decide +kernel

/-- Orders for which a reported bag is not counted: none of that id, one CLAIMING, one cancelled, one of bulk. -/
theorem test_premises_bag_not_counted :
    findOrder 502 (booked someOrder) = none
    ∧ (∀ o ∈ [{ someOrder with state := .claiming }, { someOrder with cancelled := true }, bulkOrder],
      findOrder o.id (booked o) = some o ∧ countBag o.id (booked o) = booked o) := by decide +kernel

/-- A run of 40 bags with 38, 39 and 40 counted, of one run and of two. -/
theorem test_premises_BagsCountToRunCompletion :
    ∀ n ∈ [38, 39, 40], ∀ c ∈ [1, 2],
      let o : Order := { someOrder with runCount := c, plan := { someOrder.plan with bags := n } }
      KeysDistinct (booked o) ∧ findOrder o.id (booked o) = some o ∧ o.state ≠ .claiming ∧ o.delivery = .bagged 250 40
        ∧ o.cancelled = false :=
  fun _ _ _ _ => ⟨keysDistinct_booked rfl, rfl, nofun, rfl, rfl⟩

/-- The order's batch on its way into the finished bin at its last bag, the bin's record its own; a remainder whose
clearance is due, of a bin no order of the book holds. -/
theorem test_premises_last_bag_and_remainder :
    (let r := StageRec.busyIn .discharging (some someBatch) (some .finished)
     ofOrder 501 r.batch = true ∧ r.state = .busy ∧ r.phase = some .discharging ∧ r.dest = some .finished)
    ∧ (scaleRecord (booked someOrder) = none ∧ (booked someOrder).tx.length < 8)
    ∧ ((bagging .empty).fin.order = some 501 ∧ (bagging .empty).fin.mass = some 10000 ∧ (booked someOrder).fin.order ≠ some 501)
    ∧ (∀ slots ∈ [[], [{ someOrder with delivery := .bagged 500 20 }]],
      let s : State := { bagging .empty with
        slots := slots, fin := { (bagging .empty).fin with mass := some 21 }
        bagger := { (bagging .empty).bagger with charge := none } }
      s.straps.bagger = true ∧ s.bagger.mode = .bagging ∧ s.bagger.bucket = .empty ∧ s.line = .run
        ∧ permitsDrawing s = true ∧ s.fin.entering = false ∧ s.params.emptyBand < 21 ∧ remainderDue s = true
        ∧ (beginRemainder s).bagger.mode = .remainder) := by decide +kernel

theorem test_premises_PackingTimersExpire :
    (let b := (bagging (.settling .first)).bagger
     let on (f : Bagger → Bagger) : State := { bagging (.settling .first) with bagger := f b }
     ready rig = true ∧ (on (fun b => { b with fill := .running 60 })).bagger.fill.isRunning = true
      ∧ (on (fun b => { b with jog := .running 5 })).bagger.jog.isRunning = true
      ∧ (on (fun b => { b with discharge := .running 60 })).bagger.discharge.isRunning = true
      ∧ (on (fun b => { b with settle := .running 10 })).bagger.settle.isRunning = true ∧ b.charge = some someCharge)
    ∧ (let h := (holding .contending).hold
       ({ holding .contending with hold := { h with contention := .running 5 } } : State).hold.contention.isRunning = true)
    ∧ (let h := (holding .held).hold
       let s : State := { holding .held with hold := { h with renewal := .running 80 } }
       s.hold.renewal.isRunning = true ∧ holdQueued s = false ∧ s.hold.bay = some 2 ∧ s.hold.truck = some 41
        ∧ holdQueued { s with tx := [OutEntry.fresh (.bayHold 2 41 200 false)] } = true)
    ∧ (∀ h ∈ [HoldState.held, .nothing], ∀ st ∈ [CompState.loading, .full],
      let s : State := { loading with
        stepTimer := .running 10, hold := { loading.hold with state := h }
        trucks := [{ truck := 41, bay := some 2, departure := some 10, comps := [{ someComp with state := st }] }] }
      s.stepTimer.isRunning = true ∧ s.step.isSome = true ∧ s.hold.state = h ∧ (s.trucks.map Truck.truck).Nodup
        ∧ findComp 41 1 s = some { someComp with state := st } ∧ s.finConv.weight = some 1000
        ∧ someComp.order = some 640) := by decide +kernel

/-- Charges in every state at the withdrawal of the permission; loadouts at the begin of a transfer. -/
theorem test_premises_permission_and_step :
    (∀ b ∈ [Bucket.filling true, .filling false, .jog true, .jog false, .charged],
      let s : State := { bagging b with fin := rig.fin }
      permitsDrawing s = false ∧ s.bagger.charge = some someCharge ∧ s.bagger.bucket = b)
    ∧ permitsDrawing (bagging .charged) = true
    ∧ ({ loading with fin := { loading.fin with entering := true } } : State).fin.entering = true := by decide +kernel

/-! ### Premises met: invariants -/

/-- A blank scale has no component that draws. -/
theorem drawsFromOpenBin_blank (s : State) (h : s.scale = Scale.blank) : DrawsFromOpenBin s := by
  have hd : dosesOf s = [] := by unfold dosesOf; rw [h]; rfl
  have hc : curDose s = none := by unfold curDose; rw [h]; rfl
  unfold DrawsFromOpenBin
  rw [hd, hc, h]
  exact ⟨fun _ hx => absurd hx List.not_mem_nil, fun _ hx => absurd hx List.not_mem_nil,
    fun _ hx => absurd hx (Option.some_ne_none _).symm, fun _ hx => absurd hx (Option.some_ne_none _).symm,
    fun hr => absurd hr (by decide), fun hr => absurd hr (by decide)⟩

/-- A state that meets every invariant and has a step to take. -/
theorem test_premises_invariants :
    (let s : State := { State.reset with pending := [.resetAssert] }
     OutputsFollow s ∧ TablesBounded s ∧ KeysDistinct s ∧ RecordsWhole s ∧ FiguresWithin s ∧ FeedLawful s ∧ OneActive s
      ∧ IdleScaleEmpty s ∧ DrawsFromOpenBin s ∧ ∃ t, step s = .next t) := by
  refine ⟨rfl, ?_, ?_, ?_, ?_, ?_, fun _ h => absurd h List.not_mem_nil, ⟨fun _ => rfl, nofun⟩,
    drawsFromOpenBin_blank _ rfl, _, rfl⟩
  · refine ⟨?_, ?_, ?_, ?_, ?_, ?_⟩ <;> decide
  · refine ⟨?_, ?_, ?_, ?_, ?_, ?_⟩ <;> decide
  · refine ⟨?_, ?_, ?_⟩ <;> decide
  · refine ⟨?_, ?_, ?_, ?_, ?_, ?_, ?_, ?_, ?_, ?_, ?_, ?_, ?_, ?_⟩ <;> decide +kernel
  · refine ⟨?_, ?_⟩ <;> decide

/-- Driven states of every kind that the content of the outputs speaks of. -/
theorem test_premises_outputs_content :
    (∀ st ∈ [ScaleState.feedFast, .feedSlow, .jog true, .tare],
      let s := drive (dosing st 100)
      ready s = true ∧ s.pins = shownOutputs s ∧ curDose s = some someDose
        ∧ ((planEntry 1 s).bind (fun e => channelOfBin e.bin s)).map Channel.number = some 1
        ∧ s.pins.channels.head? = some (if st = .feedFast then .fast else if st = .tare then .off else .slow))
    ∧ (let s := drive { rig with surge := StageRec.busyIn .grinding (some someBatch) (some .mixer)
                                 mixer := StageRec.busyIn .discharging (some someBatch) (some .finished)
                                 press := StageRec.busyIn .pressing (some someBatch) (some .rework)
                                 train := { rig.train with motorsHeld := false } }
       s.pins = shownOutputs s ∧ s.pins.grinderMotor = true ∧ s.pins.pressMotor = true ∧ s.pins.mixerDischarge = true
        ∧ s.pins.mixerDiverter = some .finished ∧ s.pins.pressDiverter = some .rework)
    ∧ (let s := drive { rig with straps := { rig.straps with bagger := false } }
       s.pins = shownOutputs s ∧ ready s = true ∧ s.straps.bagger = false)
    ∧ (∀ b ∈ [Bucket.filling true, .filling false, .jog true, .charged, .discharging], let s := drive (bagging b)
       s.pins = shownOutputs s ∧ s.bagger.bucket = b ∧ s.pins.bagGate = decide (b = .discharging)) := by decide +kernel

/-- A start meets its invariants' premise. -/
theorem test_premises_StartsSatisfyInvariants :
    ∃ t, exec (.powerOn goodPins goodMemory Inputs.blank) State.reset = .next t ∧ t.power = .running := by
  refine ⟨_, rfl, ?_⟩; decide +kernel

/-- notes/assumptions/44.md: a start whose local stop input is active and whose STOP line operand reads released. -/
theorem test_start_with_local_stop_reads_line_first :
    let t := after (.powerOn goodPins goodMemory { Inputs.blank with localStop := true, stopLine := false }) State.reset
    t.line = .paused ∧ t.pins.stopDrive = true := by decide +kernel

theorem test_premises_warm_reset_answers : ∃ t, exec (.warmReset Inputs.blank) rig = .next t := ⟨_, rfl⟩

/-- A component with its entry DRAWING from bin 4, which is OFF, the unit in such a state, its timers stopped. -/
theorem drawsFromOpenBin_rig (s : State) (h : dosesOf s = [someDose]) (hp : planEntry 1 s = planEntry 1 (dosing .tare 0))
    (hb : s.bins = rig.bins) (hs : s.scale.stall = .stopped) (hj : s.scale.jog = .stopped) (hc : curDose s = some someDose) :
    DrawsFromOpenBin s := by
  unfold DrawsFromOpenBin
  rw [h, hs, hj, hc]
  refine ⟨by decide, fun x hx hw => ?_, fun d hd hm => ?_, fun d hd _ _ => ?_,
    fun hr => absurd hr (by decide), fun hr => absurd hr (by decide)⟩
  · rw [List.mem_singleton.1 hx] at hw
    exact absurd hw (by decide)
  · rw [← Option.some.inj hd] at hm
    exact absurd hm (by decide)
  · rw [← Option.some.inj hd]
    refine ⟨_, hp.trans rfl, rfl, fun b hf => ?_⟩
    have h4 : findBin 4 s = findBin 4 rig := by unfold findBin; rw [hb]
    rw [h4, show findBin 4 rig = some { BinEntry.blank 4 with
      ingredient := some 100, estimate := some 5000, quarantine := .off, channel := some 1 } by decide +kernel] at hf
    rw [← Option.some.inj hf]

/-- A component fed from a bin that is open, its channel running: the law of the feeders and its bin. -/
theorem test_premises_FeedersStayOffQuarantine :
    (∀ st, DrawsFromOpenBin (dosing st 100)) ∧ DrawsFromOpenBin (heldAt .resumeSettle)
    ∧ ((dosing .feedFast 100).channels.map (channelOutput (dosing .feedFast 100))).take 2 = [.fast, .off] :=
  ⟨fun _ => drawsFromOpenBin_rig _ rfl rfl rfl rfl rfl rfl, drawsFromOpenBin_rig _ rfl rfl rfl rfl rfl rfl, by decide +kernel⟩

/-- A bin turned ON under a running feeder: the channel is off, the unit held. -/
theorem test_quarantine_stops_feeder :
    let t := after .quarantine (hearing (frame 0x08 31 [4, 1]) (dosing .feedFast 100))
    t.scale.state = .held ∧ t.pins.channels = List.replicate 12 .off ∧ t.bins.map BinEntry.quarantine ≠ rig.bins.map BinEntry.quarantine := by
  decide +kernel

/-! ### Premises met: timers, and what the third review asked for -/

/-- A dosing timer in each state that runs it, off its line states, and where the state is another. -/
theorem test_premises_dosing_timers :
    let at_ (l : LineState) (s : State) : Scale := let u : State := { s with line := l }; (settled u u).scale
    let full := Timer.running rig.params.settleTimeout
    ([.run, .pausing, .paused].map (fun l => (at_ l (dosing .tare 0)).settle) = [full, .stopped, .stopped])
    ∧ ([.run, .pausing, .stopped].map (fun l => (at_ l (dosing (.settle .first) 0)).settle) = [full, full, .stopped])
    ∧ ([ScaleState.feedFast, .feedSlow, .tare].map (fun st => (at_ .run (dosing st 0)).stall)
        = [.running 50, .running 50, .stopped])
    ∧ ((curDose (dosing (.jog true) 0)).bind (fun d => doseChannel d (dosing (.jog true) 0))).isSome = true
    ∧ ([ScaleState.jog true, .handAdd].map (fun st => ((at_ .run (dosing st 0)).jog).isRunning) = [true, false])
    ∧ ([(LineState.run, (21 : Int)), (.run, 20), (.stopped, 21)].map (fun p => (at_ p.1 (dosing .dumping p.2)).residue)
        = [full, .stopped, .stopped]) := by decide +kernel

/-- The train's timers: running, frozen and stopped by the line, stopped by an input. -/
theorem test_premises_train_timers :
    let at_ (l : LineState) (i : Bool) (r : Phase) (f : Train → Train) : Train :=
      let stage := StageRec.busyIn r (some someBatch) (some .rework)
      let u : State := { timed f with
        line := l, surge := stage, mixer := stage, press := stage
        inputs := { rig.inputs with surgeEmpty := i, mixerEmpty := i, pressBinEmpty := i } }
      (settled u u).train
    let p := rig.params
    ([(LineState.run, true), (.pausing, true), (.run, false)].map (fun q => (at_ q.1 q.2 .grinding id).grindRunout)
        = [.running p.grindRunout, .stopped, .stopped])
    ∧ ([LineState.run, .paused].map (fun l => (at_ l true .mixing id).mix) = [.running p.mixTime, .frozen p.mixTime])
    ∧ ([LineState.run, .paused].map (fun l => (at_ l true .mixing (fun t => { t with mix := .frozen 7 })).mix)
        = [.running 7, .frozen 7])
    ∧ ([LineState.paused, .stopped].map (fun l => let t := at_ l true .discharging id; (t.mixerRunout, t.dischargeLimit))
        = [(.running p.mixerRunout, .running p.dischargeTimeout), (.stopped, .frozen p.dischargeTimeout)])
    ∧ ([true, false].map (fun i => let t := at_ .run i .pressing id; (t.pressRunout, t.conditioning))
        = [(.running p.pressRunout, .stopped), (.stopped, .running p.condTimeout)])
    ∧ (let t := at_ .paused true .dumping id
       (t.surgeDump, t.mixerDump, t.pressDump)
        = (.running p.grindRunout, .running p.mixerRunout, .running p.pressRunout)) := by decide +kernel

/-- The bagger's timers; a discharge going on is frozen by the STOP line, one that opens starts in full. -/
theorem test_premises_bagger_timers :
    let at_ (l : LineState) (b : Bucket) (d : Timer) : Bagger :=
      let s := bagging b
      let u : State := { s with line := l, bagger := { s.bagger with discharge := d, spout := .ready } }
      (settled u u).bagger
    let p := rig.params
    ([LineState.pausing, .paused].map (fun l => (at_ l (.filling true) .stopped).fill) = [.running p.chargeLimit, .stopped])
    ∧ ([LineState.pausing, .paused].map (fun l => (at_ l (.settling .jog) .stopped).settle)
        = [.running p.settleTimeout, .stopped])
    ∧ (at_ .paused (.jog true) .stopped).jog = .running p.baggerJogTime
    ∧ ([LineState.paused, .stopped].map (fun l => (at_ l .discharging (.running 9)).discharge) = [.running 9, .frozen 9])
    ∧ (at_ .run .charged .stopped).discharge = .running p.settleTimeout
    ∧ (at_ .run (.settling .first) (.running 9)).discharge = .stopped := by decide +kernel

/-- An id of the re-announce list held, and not; a full outbound queue. -/
theorem test_premises_ReannouncementFollowsRoom :
    let u (ids : List Nat) (n : Nat) : State := { booked { someOrder with state := .held, level := 0 } with
      reannounce := ids, tx := List.replicate n (OutEntry.fresh (.yielded 9)) }
    let t (ids : List Nat) (n : Nat) : State := settled (u ids n) (u ids n)
    ((t [501, 7] 7).reannounce = [7] ∧ (t [501, 7] 7).tx.map OutEntry.body
        = List.replicate 7 (.yielded 9) ++ [.take 501 420 false])
    ∧ ((t [7] 0).reannounce = [] ∧ (t [7] 0).tx = [])
    ∧ ((t [501] 8).reannounce = [501] ∧ (t [501] 8).tx.length = 8) := by decide +kernel

/-- Frames of each fault that makes a frame not valid, and ones at the edges that are. -/
theorem test_valid_frames :
    [frame 0x00 3 [1], frame 0x14 3 [1], frame 0x10 0 [1], frame 0x10 32 [1], frame 0x07 30 [1, 2], frame 0x07 31 [1],
      { frame 0x10 3 [1] with check := 0 }, frame 0x02 31 (List.replicate 20 0), frame 0x0D 31 [1, 2]].map validFrame
        = List.replicate 9 false
    ∧ [frame 0x01 31 [0, 0, 1], frame 0x13 1 [1, 0, 0], frame 0x10 30 [1], frame 0x07 31 [1, 2], frame 0x0D 31 [1, 0],
      frame 0x08 31 [1, 1], frame 0x0B 3 (List.replicate 6 0)].map validFrame = List.replicate 7 true := by decide +kernel

/-- A valid frame of the own number while the node listens: another station's, and the readback of an attempt. -/
theorem test_premises_own_source_while_listening :
    let f := wireFrame 9 (.yielded 501)
    let s : State := { rig with rx := { rig.rx with listening := true } }
    let u : State := { s with tx := [{ OutEntry.fresh (.yielded 501) with underWay := true }] }
    ready s = true ∧ validFrame f = true ∧ f.source.toNat = s.straps.node ∧ s.rx.seen = false ∧ underWay s = none
      ∧ s.rx.readback ≠ some f ∧ (underWay u).map (fun e => wireFrame 9 e.body) = some f
      ∧ standing .addressClash (after (.frameReceived f) s) = true
      ∧ (after (.frameReceived f) s).rx.listening = false ∧ (after (.frameReceived f) u).faults = [] := by decide +kernel

/-- A component by hand of an ingredient added by hand, and of a machine ingredient below its channel's least dose. -/
theorem test_premises_HandStepReportsNothing :
    ∀ code ∈ [100, 61440],
      let d : Dose := { someDose with mode := some .hand, ingredient := code, announced := false }
      let s : State := { weighing someBatch [d] with
        slots := [{ someOrder with state := .draining, started := true }], reservations := [{ code := 100, mass := 1000 }] }
      curDose s = some d ∧ d.mode = some .hand ∧ ((dosesOf s).map Dose.position).Nodup ∧ scaleRecord s = some someBatch
        ∧ (findOrder 501 s).isSome = true ∧ (recordStep .within true d s).tx = []
        ∧ (massOf 100 (recordStep .within true d s).reservations = if code = 100 then 0 else 1000) := by decide +kernel

/-- CANCEL of the order in the scale: in TARE with its entry DRAWING and another component waiting, in FEED and COMPLETE. -/
theorem test_premises_CancelAnswersAnnouncements :
    (∃ s1, let f := frame 0x07 31 (be2 501); Arrives .orderBook 0x07 f (hearing f (booked someOrder)) s1)
    ∧ ∀ st ∈ [ScaleState.tare, .feedFast, .complete],
      let d2 : Dose := { someDose with position := 2, status := .waiting, mode := none }
      let s0 := dosing st 0
      let s : State := { s0 with
        slots := [{ someOrder with state := .draining, started := true }]
        scale := { s0.scale with batch := some { record := someBatch, doses := [someDose, d2], firstTare := none } }
        plan := some { batch := 2045, flush := false, entries :=
          [{ position := 1, ingredient := 100, target := 1000, bin := 4, drawn := 0, status := .drawing },
           { position := 2, ingredient := 100, target := 1000, bin := 4, drawn := 0, status := .planned }] } }
      let u := takeCancel 501 s
      (findOrder 501 s).map (fun o => (o.cancelled, o.state)) = some (false, .draining)
        ∧ scaleRecord s = some someBatch ∧ curDose s = some someDose ∧ s.tx.length + (dosesOf s).length ≤ 8
        ∧ u.tx.length = (if st = .tare then 2 else if st = .feedFast then 1 else 0)
        ∧ ((planEntry 1 u).map PlanEntry.status = some (if st = .tare then .done else .drawing)) := by
  refine ⟨arrives_rig _ _ _ _ _ rfl rfl rfl, ?_⟩
  decide +kernel

/-- A transfer that begins in the close itself ends the step that stands; an open spout closes and its timer starts. -/
theorem test_premises_step_ends_in_the_close :
    let b : Batch := { someBatch with order := some 640 }
    let u : State := { loading with mixer := StageRec.doneWith b, slots := [] }
    u.fin.entering = false ∧ u.step.isSome = true ∧ (settled u u).fin.entering = true ∧ (settled u u).step = none
      ∧ (closeSpout .line loading).stepTimer = .running loading.params.settleTimeout := by decide +kernel

/-- The spout's close EMPTY takes the record with it; a sample at the edge of the band. -/
theorem test_close_empty_clears_record :
    let zeros : Converter := { rig.finConv with
      mult := 65535, gross := List.replicate 4 0, filtered := List.replicate 8 0, raw := List.replicate 8 0 }
    let s : State := { loading with finConv := zeros }
    let t := after (.finishedBinSample 80) s
    (zeros.sample 2 80).weight = some 20 ∧ t.fin.order = none ∧ t.step.map LoadStep.cause = some (some .empty)
      ∧ t.stepTimer = .running s.params.settleTimeout := by decide +kernel

/-- A warm reset with a lost batch of a kept order, split and make-up, and a DRAWING entry. -/
theorem test_premises_warm_reset_reduces :
    ∀ mk ∈ [true, false], ∀ rw ∈ [true, false],
      let b : Batch := { someBatch with makeUp := mk, rework := rw }
      let s : State := { dosing .tare 0 with
        slots := [{ someOrder with
          state := .draining
          plan := { someOrder.plan with admitted := 1, makeUp := some { mass := 500, batches := 2, admitted := 1 } } }]
        surge := StageRec.doneWith b, scale := rig.scale }
      let t := after (.warmReset Inputs.blank) s
      t.slots.map (fun o => (o.plan.admitted, o.plan.makeUp.map MakeUp.admitted))
          = [(if mk || rw then 1 else 0, some (if mk && !rw then 0 else 1))]
        ∧ (t.bins.filter (fun e => e.uncertain)).map BinEntry.bin = [4] := by decide +kernel

/-- A further run starts with no mass finished and no waits. -/
theorem test_further_run_starts_clear :
    let o : Order := { someOrder with
      runCount := 2, waits := { Waits.none with short := true }
      plan := { someOrder.plan with bags := 39, massFinished := 900 } }
    (countBag 501 (booked o)).slots.map (fun w => (w.plan.massFinished, w.waits.isEmpty, w.runCount))
      = [(0, true, 1)] := by decide +kernel

/-! ### One step of the families, and worked figures of the manual -/

theorem test_reset_idles : step State.reset = .next State.reset := rfl

/-- A start leaves the node listening with its LINE-STATE notice queued. -/
theorem test_power_on :
    let t := after (.powerOn goodPins goodMemory Inputs.blank) State.reset
    t.line = .paused ∧ t.rx.listening = true ∧ t.tx.map OutEntry.body = [.notice (.lineState .paused .reset)]
      ∧ t.divider = 7 ∧ (t.channels.map Channel.inFlight).take 2 = [42, 30] := by decide +kernel

/-- The offer is claimed, its window ends, the order is taken and its batch let in at the close of the event. -/
theorem test_offer_to_admission :
    let t := run [.offer, .claimWindowExpiry 501] (hearing (frame 0x02 31 offerBytes) rig)
    t.slots.map (fun o => (o.id, o.state, o.started)) = [(501, .draining, true)]
      ∧ (scaleRecord t).map (fun b => (b.number, b.mass)) = some (1, 1000) ∧ t.scale.state = .tare
      ∧ t.tx.map OutEntry.body = [.claim 501 420, .take 501 420 false, .drawNotice 1 [(4, 1000)]] := by decide +kernel

/-- Batch 2,045: the feed closes at T − F, settles, is recorded within tolerance and adapts F. -/
theorem test_feed_closes_and_settles :
    (after (.scaleSample 958) (dosing .feedSlow 958)).scale.state = .settle .first
    ∧ (let t := after (.scaleSample 997) (dosing (.settle .first) 997)
       t.scale.state = .complete ∨ t.scale.state = .discharge) := by decide +kernel

theorem test_stop_line : let t := after .stopAsserted (dosing .feedFast 100)
    t.line = .stopped ∧ t.scale.state = .settle .resume ∧ t.pins.channels = List.replicate 12 .off := by decide +kernel

theorem test_character_by_character : (after (.characterReceived (tripled (txCharacter true 0x13))) rig).rx.assembler
    = .assembling [0x13] := by decide +kernel

/-- R192, R206: at a refused rate the divider is computed all the same; at a node number that is not taken it is not. -/
theorem test_divider_at_a_fault :
    (after (.powerOn (9#11 ||| (2#11 <<< 5) ||| (1#11 <<< 7)) goodMemory Inputs.blank) State.reset).divider = 16
    ∧ (after (.powerOn (31#11 ||| (3#11 <<< 5)) goodMemory Inputs.blank) State.reset).divider = 0 := by decide +kernel

/-- R196: after the ACK of an ADDRESS_CLASH no attempt begins in the idle that stands, whether ACK or a count tells of it,
and one begins in the next; where the line was not idle, the idle that follows is the next. -/
theorem test_transmission_waits_for_the_next_idle :
    (∀ q ∈ [(true, none), (true, some 100), (false, some 100)],
      let s : State := { raiseFault .addressClash none [] rig with rx := { rig.rx with idle := q.2 } }
      let t := run [.ack ⟨.input, q.1⟩, .transmitAttempt 100] s
      s.tx.length = 1 ∧ t.tx.map OutEntry.underWay = [false]
      ∧ (run [.characterReceived (tripled 1#12), .transmitAttempt 100] t).tx.map OutEntry.underWay = [true])
    ∧ (let s : State := raiseFault .addressClash none [] rig
       s.rx.idle = none ∧ (run [.ack ⟨.input, false⟩, .transmitAttempt 100] s).tx.map OutEntry.underWay = [true]) := by
  decide +kernel

/-- R197: a LINE frame of no request leaves the queue in an event of its own. -/
theorem test_line_frame_of_no_request_is_taken :
    (after (.pause .frame) (hearing (frame 0x12 31 [0, 9]) rig)).rx.inbound = [] := by decide +kernel

/-- R111: a sample in the empty band clears the record of a cancelled order (notes/assumptions/32.md). -/
theorem test_empty_bin_clears_cancelled :
    let s := holding .nothing
    let t := after (.finishedBinSample 0) { s with
      fin := { s.fin with cancelled := true }
      finConv := { s.finConv with gross := List.replicate 4 0, filtered := List.replicate 8 0 } }
    t.fin.order = none ∧ t.fin.cancelled = false := by decide +kernel

/-- A split by largest remainder (R92): 1,001 units at 6,000, 2,500 and 1,500 parts. -/
theorem test_largest_remainder : largestRemainder 1001 [6000, 2500, 1500] = [601, 250, 150] := by decide +kernel

end Sys2Proof.Tests
end

