-- ==== Sys2Proof/Proofs/Writes.lean ====
section
/-! SUPPORT. Which fields the operations of the close of an event write, in the form of Sys2Proof/Laws/Ops.lean: every field
that is not named reads as before. -/
namespace Sys2Proof.Machine

/-! ### What begins on the line -/

theorem setStage_only (i : StageId) (r : StageRec) (s : State) :
    setStage i r s = { s with surge := (setStage i r s).surge, mixer := (setStage i r s).mixer
                              press := (setStage i r s).press } := by cases i <;> rfl

theorem haltStageLoop_only (i : StageId) (s : State) :
    haltStageLoop i s = { s with train := (haltStageLoop i s).train } := by cases i <;> rfl

theorem unbarStage_only (i : StageId) (s : State) :
    unbarStage i s = { s with surge := (unbarStage i s).surge, mixer := (unbarStage i s).mixer
                              press := (unbarStage i s).press, train := (unbarStage i s).train } := by
  unfold unbarStage
  dsimp only
  (repeat' split) <;> cases i <;> rfl

theorem unbarStages_only (s : State) :
    unbarStages s = { s with surge := (unbarStages s).surge, mixer := (unbarStages s).mixer
                             press := (unbarStages s).press, train := (unbarStages s).train } := by
  unfold unbarStages
  rw [unbarStage_only .press, unbarStage_only .mixer, unbarStage_only .surge]

theorem adaptBagger_only (c : Charge) (s : State) : adaptBagger c s = { s with bagger := (adaptBagger c s).bagger } := by
  unfold adaptBagger; split <;> rfl

theorem rejectCharge_only (c : Charge) (detail : List DetailField) (s : State) :
    rejectCharge c detail s = { s with bagger := (rejectCharge c detail s).bagger
                                       faults := (rejectCharge c detail s).faults
                                       tx := (rejectCharge c detail s).tx } := by
  unfold rejectCharge
  dsimp only
  rw [raiseFault_only, adaptBagger_only]
  rfl

theorem watchPermission_only (s : State) :
    watchPermission s = { s with bagger := (watchPermission s).bagger, faults := (watchPermission s).faults
                                 tx := (watchPermission s).tx } := by
  unfold watchPermission
  (repeat' split) <;> first | rfl | exact rejectCharge_only _ _ _

theorem beginJogPulse_only (s : State) : beginJogPulse s = { s with scale := (beginJogPulse s).scale } := by
  unfold beginJogPulse; split <;> rfl

theorem beginBaggerPulse_only (s : State) : beginBaggerPulse s = { s with bagger := (beginBaggerPulse s).bagger } := by
  unfold beginBaggerPulse; split <;> rfl

theorem openPress_only (b : Batch) (s : State) :
    openPress b s = { s with press := (openPress b s).press, train := (openPress b s).train
                             fin := (openPress b s).fin } := by
  unfold openPress
  dsimp only
  split <;> rfl

theorem beginPress_only (s : State) :
    beginPress s = { s with press := (beginPress s).press, train := (beginPress s).train, fin := (beginPress s).fin } := by
  unfold beginPress
  (repeat' split) <;> first | rfl | exact openPress_only _ _

theorem openDischarge_only (b : Batch) (s : State) :
    openDischarge b s = { s with mixer := (openDischarge b s).mixer, press := (openDischarge b s).press
                                 fin := (openDischarge b s).fin } := by
  unfold openDischarge
  dsimp only
  split <;> rfl

theorem beginDischargeMixer_only (s : State) :
    beginDischargeMixer s = { s with mixer := (beginDischargeMixer s).mixer, press := (beginDischargeMixer s).press
                                     fin := (beginDischargeMixer s).fin } := by
  unfold beginDischargeMixer
  (repeat' split) <;> first | rfl | exact openDischarge_only _ _

theorem beginGrind_only (s : State) :
    beginGrind s = { s with surge := (beginGrind s).surge, mixer := (beginGrind s).mixer } := by
  unfold beginGrind; split <;> rfl

theorem beginDischarge_only (s : State) :
    beginDischarge s = { s with scale := (beginDischarge s).scale, surge := (beginDischarge s).surge } := by
  unfold beginDischarge; split <;> rfl

/-! ### The book, the loadout and the bagger -/

theorem closeSpout_only (cause : CloseCause) (s : State) :
    closeSpout cause s = { s with step := (closeSpout cause s).step, stepTimer := (closeSpout cause s).stepTimer } := by
  unfold closeSpout; (repeat' split) <;> rfl

theorem writeFinal_only (st : LoadStep) (s : State) :
    writeFinal st s = { s with trucks := (writeFinal st s).trucks } := by
  unfold writeFinal; (repeat' split) <;> rfl

theorem endStep_only (s : State) :
    endStep s = { s with step := (endStep s).step, stepTimer := (endStep s).stepTimer, trucks := (endStep s).trucks
                         hold := (endStep s).hold, bays := (endStep s).bays, tx := (endStep s).tx
                         faults := (endStep s).faults } := by
  unfold endStep
  dsimp only
  split
  · rw [writeFinal_only]
    split
    · rw [releaseHold_only]
    · rfl
  · rfl

theorem watchStep_only (s : State) :
    watchStep s = { s with step := (watchStep s).step, stepTimer := (watchStep s).stepTimer
                           trucks := (watchStep s).trucks, hold := (watchStep s).hold, bays := (watchStep s).bays
                           tx := (watchStep s).tx, faults := (watchStep s).faults } := by
  unfold watchStep
  dsimp only
  (repeat' split) <;> first | rfl | (rw [endStep_only, closeSpout_only]) | rw [closeSpout_only] | rw [endStep_only]

theorem completeRun_only (id : Nat) (s : State) :
    completeRun id s = { s with slots := (completeRun id s).slots, reservations := (completeRun id s).reservations
                                reannounce := (completeRun id s).reannounce, tx := (completeRun id s).tx } := by
  unfold completeRun
  split
  · rfl
  · split
    · rw [freeSlot_only, queueNotice_only, releaseReservations_only]
    · rw [reserveRun_only, queueNotice_only, releaseReservations_only]
      rfl

theorem endCancelled_only (o : Order) (s : State) :
    endCancelled o s = { s with slots := (endCancelled o s).slots, reservations := (endCancelled o s).reservations
                                reannounce := (endCancelled o s).reannounce, tx := (endCancelled o s).tx } := by
  unfold endCancelled
  split
  · rw [freeSlot_only, queueNotice_only]
  · rfl

theorem endAllCancelled_only (l : List Order) (s : State) :
    endAllCancelled l s = { s with slots := (endAllCancelled l s).slots, reservations := (endAllCancelled l s).reservations
                                   reannounce := (endAllCancelled l s).reannounce, tx := (endAllCancelled l s).tx } := by
  induction l generalizing s with
  | nil => rfl
  | cons o os ih =>
    unfold endAllCancelled
    rw [ih, endCancelled_only]

theorem markLoadedFor_only (o : Order) (s : State) :
    markLoadedFor o s = { s with trucks := (markLoadedFor o s).trucks, slots := (markLoadedFor o s).slots
                                 reservations := (markLoadedFor o s).reservations
                                 reannounce := (markLoadedFor o s).reannounce, tx := (markLoadedFor o s).tx
                                 faults := (markLoadedFor o s).faults } := by
  unfold markLoadedFor
  split
  · split
    · rw [completeRun_only, queueFrame_only]
      rfl
    · rfl
  · rfl

theorem markAll_only (l : List Order) (s : State) :
    markAll l s = { s with trucks := (markAll l s).trucks, slots := (markAll l s).slots
                           reservations := (markAll l s).reservations, reannounce := (markAll l s).reannounce
                           tx := (markAll l s).tx, faults := (markAll l s).faults } := by
  induction l generalizing s with
  | nil => rfl
  | cons o os ih =>
    unfold markAll
    rw [ih, markLoadedFor_only]

theorem makeUpFor_only (o : Order) (s : State) : makeUpFor o s = { s with slots := (makeUpFor o s).slots } := by
  unfold makeUpFor; split <;> rfl

theorem makeUpAll_only (l : List Order) (s : State) : makeUpAll l s = { s with slots := (makeUpAll l s).slots } := by
  induction l generalizing s with
  | nil => rfl
  | cons o os ih =>
    unfold makeUpAll
    rw [ih, makeUpFor_only]

theorem raiseShort_only (l : List Order) (s : State) :
    raiseShort l s = { s with faults := (raiseShort l s).faults, tx := (raiseShort l s).tx } := by
  induction l generalizing s with
  | nil => rfl
  | cons o os ih =>
    unfold raiseShort
    rw [ih, raiseFault_only]

theorem recomputeWaits_only (s : State) :
    recomputeWaits s = { s with slots := (recomputeWaits s).slots, faults := (recomputeWaits s).faults
                                tx := (recomputeWaits s).tx } := by
  unfold recomputeWaits
  rw [raiseShort_only]

theorem holdScale_only (k : FaultKey) (detail : List DetailField) (resume : ResumePoint) (s : State) :
    holdScale k detail resume s = { s with scale := (holdScale k detail resume s).scale
                                           faults := (holdScale k detail resume s).faults
                                           tx := (holdScale k detail resume s).tx } := by
  unfold holdScale
  dsimp only
  rw [raiseFault_only]

theorem answerZero_only (d : Dose) (s : State) :
    answerZero d s = { s with scale := (answerZero d s).scale, tx := (answerZero d s).tx
                              faults := (answerZero d s).faults } := by
  unfold answerZero
  split
  · rw [queueFrame_only]; rfl
  · rfl

theorem moveBin_only (d : Dose) (bin : Nat) (s : State) :
    moveBin d bin s = { s with scale := (moveBin d bin s).scale, plan := (moveBin d bin s).plan
                               tx := (moveBin d bin s).tx, faults := (moveBin d bin s).faults } := by
  unfold moveBin
  split
  · rw [queueFrame_only]; rfl
  · rfl

theorem confirmStart_only (d : Dose) (s : State) :
    confirmStart d s = { s with scale := (confirmStart d s).scale, plan := (confirmStart d s).plan
                                tx := (confirmStart d s).tx, faults := (confirmStart d s).faults } := by
  unfold confirmStart
  split
  · rfl
  · dsimp only; rw [moveBin_only]; rfl
  · rw [holdScale_only]; rfl

theorem startDose_only (d : Dose) (s : State) :
    startDose d s = { s with scale := (startDose d s).scale, plan := (startDose d s).plan
                             tx := (startDose d s).tx, faults := (startDose d s).faults } := by
  unfold startDose
  dsimp only
  split
  · rfl
  · split
    · rw [answerZero_only]; rfl
    · rw [confirmStart_only]; rfl

theorem startNext_only (k : Nat) (s : State) :
    startNext k s = { s with scale := (startNext k s).scale, plan := (startNext k s).plan
                             tx := (startNext k s).tx, faults := (startNext k s).faults } := by
  induction k generalizing s with
  | zero => rfl
  | succ k ih =>
    unfold startNext
    split
    · rfl
    · split
      · rw [ih, answerZero_only]; rfl
      · exact startDose_only _ _

theorem startComponent_only (s : State) :
    startComponent s = { s with scale := (startComponent s).scale, plan := (startComponent s).plan
                                tx := (startComponent s).tx, faults := (startComponent s).faults } :=
  startNext_only _ _

theorem admitToScale_only (b : Batch) (comps : List Planned) (s : State) :
    admitToScale b comps s = { s with scale := (admitToScale b comps s).scale, plan := (admitToScale b comps s).plan
                                      tx := (admitToScale b comps s).tx, faults := (admitToScale b comps s).faults } := by
  unfold admitToScale
  dsimp only
  rw [startComponent_only]
  split
  · rfl
  · rw [queueFrame_only]

theorem admitBatch_only (o : Order) (s : State) :
    admitBatch o s = { s with slots := (admitBatch o s).slots, batchCounter := (admitBatch o s).batchCounter
                              carry := (admitBatch o s).carry, scale := (admitBatch o s).scale
                              plan := (admitBatch o s).plan, tx := (admitBatch o s).tx
                              faults := (admitBatch o s).faults } := by
  unfold admitBatch
  split
  · unfold admitFlush; dsimp only; rw [admitToScale_only]; rfl
  · unfold admitProduct; dsimp only; rw [admitToScale_only]; rfl

theorem admissionAttempt_only (s : State) :
    admissionAttempt s =
      { s with slots := (admissionAttempt s).slots, batchCounter := (admissionAttempt s).batchCounter
               carry := (admissionAttempt s).carry, scale := (admissionAttempt s).scale
               plan := (admissionAttempt s).plan, tx := (admissionAttempt s).tx
               faults := (admissionAttempt s).faults } := by
  unfold admissionAttempt
  dsimp only
  split
  · split
    · rw [admitBatch_only, recomputeWaits_only]
    · rw [recomputeWaits_only]
  · rfl

theorem beginBucketDischarge_only (s : State) :
    beginBucketDischarge s = { s with bagger := (beginBucketDischarge s).bagger } := by
  unfold beginBucketDischarge; (repeat' split) <;> rfl

theorem beginClearance_only (mode : BaggerMode) (id : Nat) (s : State) :
    beginClearance mode id s = { s with bagger := { s.bagger with mode := mode }, fin := { s.fin with dumping := true }
                                        faults := (beginClearance mode id s).faults
                                        tx := (beginClearance mode id s).tx } := by
  unfold beginClearance
  dsimp only
  split
  · rw [raiseFault_only]; rfl
  · rfl

theorem beginRemainder_only (s : State) :
    beginRemainder s = { s with bagger := (beginRemainder s).bagger, fin := (beginRemainder s).fin
                                faults := (beginRemainder s).faults, tx := (beginRemainder s).tx } := by
  unfold beginRemainder
  split
  · rw [beginClearance_only]
  · rfl

/-! ### The bay, the pause reports, the outputs -/

theorem abandonBay_only (s : State) :
    abandonBay s = { s with hold := (abandonBay s).hold, bays := (abandonBay s).bays, tx := (abandonBay s).tx
                            faults := (abandonBay s).faults } := by
  unfold abandonBay
  split
  · exact releaseHold_only s
  · rfl

theorem takeBayFor_only (truck number bay : Nat) (s : State) :
    takeBayFor truck number bay s =
      { s with hold := (takeBayFor truck number bay s).hold, bays := (takeBayFor truck number bay s).bays
               tx := (takeBayFor truck number bay s).tx, faults := (takeBayFor truck number bay s).faults } := by
  unfold takeBayFor
  dsimp only
  rw [queueFrame_only]
  split <;> rfl

theorem takeBay_only (s : State) :
    takeBay s = { s with hold := (takeBay s).hold, bays := (takeBay s).bays, tx := (takeBay s).tx
                         faults := (takeBay s).faults } := by
  unfold takeBay
  (repeat' split) <;> first | rfl | exact takeBayFor_only _ _ _ _

theorem setLine_only (l : LineState) (cause : LineCause) (s : State) :
    setLine l cause s = { s with line := l, tx := (setLine l cause s).tx } := by
  unfold setLine
  rw [queueNotice_only]

theorem pauseReports_only (s : State) :
    pauseReports s = { s with line := (pauseReports s).line, reports := (pauseReports s).reports
                              tx := (pauseReports s).tx } := by
  unfold pauseReports
  dsimp only
  split
  · split
    · rw [setLine_only]
    · rfl
  · rfl

theorem drive_only (s : State) :
    drive s = { s with channels := (drive s).channels, lamps := (drive s).lamps, pins := (drive s).pins } := by
  unfold drive
  (repeat' split) <;> rfl

end Sys2Proof.Machine
end

