-- ==== Sys2Proof/Proofs/Invariants.lean ====
section
/-! SUPPORT. The step invariants O56 to O58 speak of (Safety.lean), taken together: what a change of one table asks, then one
lemma for each operation of the model, in the order of the model's files. `l.holds` is one of the invariants; `op_keeps` says
that the operation keeps each of them. -/
namespace Sys2Proof.Machine

/-- The invariants, by name. -/
inductive Law
  | tables | keys | active | records | figures

def Law.holds : Law → State → Prop
  | .tables => TablesBounded
  | .keys => KeysDistinct
  | .active => OneActive
  | .records => RecordsWhole
  | .figures => FiguresWithin

/-- What the invariants read of an order. -/
def Order.face (o : Order) : Nat × Bool × List Component × Nat :=
  (o.id, decide (o.state = .active), o.formula, o.runMass)

/-- What the invariants read of a state. -/
structure Vital where
  power        : Power
  params       : Params
  millTime     : Option Nat
  orders       : List (Nat × Bool × List Component × Nat)
  trucks       : List Nat
  peers        : Nat
  reservations : List Reservation
  inbound      : Nat
  queued       : Nat
  faults       : List (FaultKey × Nat)
  doses        : List Nat
  bins         : List Nat
  channels     : List (Nat × Nat × Nat)
  bays         : List BayTimer
  inFlight     : Nat
  grinder      : Nat
  presser      : Nat
  valve        : Nat

def State.vital (s : State) : Vital :=
  { power := s.power, params := s.params, millTime := s.millTime, orders := s.slots.map Order.face
    trucks := s.trucks.map Truck.truck, peers := s.peers.length, reservations := s.reservations
    inbound := s.rx.inbound.length, queued := s.tx.length, faults := s.faults.map (fun r => (r.key, r.count))
    doses := (dosesOf s).map Dose.position, bins := s.bins.map BinEntry.bin
    channels := s.channels.map (fun c => (c.number, c.inFlight, c.fMax)), bays := s.bays
    inFlight := s.bagger.inFlight, grinder := s.train.grinder.speed, presser := s.train.presser.speed
    valve := s.train.steam.valve }

/-- An invariant, as it reads the vital part of a state. -/
def Law.asks : Law → Vital → Prop
  | .tables => fun v => v.orders.length ≤ 24 ∧ v.trucks.length ≤ 12 ∧ v.peers ≤ 64 ∧ v.reservations.length ≤ 64
      ∧ v.inbound ≤ 4 ∧ v.queued ≤ 8
  | .keys => fun v => (v.orders.map Prod.fst).Nodup ∧ v.trucks.Nodup ∧ (v.faults.map Prod.fst).Nodup
      ∧ (v.reservations.map Reservation.code).Nodup ∧ v.doses.Nodup
      ∧ ∀ o ∈ v.orders, (o.2.2.1.map Component.code).Nodup
  | .active => fun v => ∀ x ∈ v.orders, ∀ y ∈ v.orders, x.2.1 = true → y.2.1 = true → x.1 = y.1
  | .records => fun v => v.bins = (List.range 48).map (fun k => k + 1)
      ∧ v.channels.map Prod.fst = (List.range 12).map (fun k => k + 1) ∧ v.bays.length = 4
  | .figures => fun v => (∀ c ∈ v.channels, c.2.1 ≤ c.2.2) ∧ v.inFlight ≤ v.params.baggerFMax
      ∧ v.grinder ≤ 1000 ∧ v.presser ≤ 1000 ∧ v.valve ≤ 1000
      ∧ v.params.grinder.startSpeed ≤ 1000 ∧ v.params.press.startSpeed ≤ 1000 ∧ v.params.holdDuration ≤ 600
      ∧ (∀ b ∈ v.bays, b.remaining ≤ 600) ∧ (∀ r ∈ v.faults, 1 ≤ r.2 ∧ r.2 ≤ 255)
      ∧ (∀ e ∈ v.params.matrix, e ≤ 2) ∧ (∀ t, v.millTime = some t → t ≤ 86399)
      ∧ (∀ o ∈ v.orders, 0 < o.2.2.2) ∧ (v.power = .running → 0 < v.params.batchSize)

/-- The invariants read the vital part of a state alone. -/
theorem Law.holds_iff (l : Law) (s : State) : l.holds s ↔ l.asks s.vital := by
  cases l <;>
    simp [Law.holds, Law.asks, TablesBounded, KeysDistinct, OneActive, RecordsWhole, FiguresWithin, State.vital,
      Order.face, Function.comp_def]

variable {l : Law} {s u : State}

theorem Law.congr (h : l.holds s) (e : u.vital = s.vital) : l.holds u := by
  rw [Law.holds_iff] at h ⊢
  rwa [e]


/-! ### What a change of one table asks -/

theorem keeps_tx {t : List OutEntry} (ht : s.tx.length ≤ 8 → t.length ≤ 8) (h : l.holds s) :
    l.holds { s with tx := t } := by
  cases l with
  | tables =>
    obtain ⟨h1, h2, h3, h4, h5, h6⟩ := h
    exact ⟨h1, h2, h3, h4, h5, ht h6⟩
  | _ => exact h

theorem keeps_inbound {r : Receiver} (hr : s.rx.inbound.length ≤ 4 → r.inbound.length ≤ 4) (h : l.holds s) :
    l.holds { s with rx := r } := by
  cases l with
  | tables =>
    obtain ⟨h1, h2, h3, h4, h5, h6⟩ := h
    exact ⟨h1, h2, h3, h4, hr h5, h6⟩
  | _ => exact h

theorem keeps_peers {p : List PeerDraw} (hp : s.peers.length ≤ 64 → p.length ≤ 64) (h : l.holds s) :
    l.holds { s with peers := p } := by
  cases l with
  | tables =>
    obtain ⟨h1, h2, h3, h4, h5, h6⟩ := h
    exact ⟨h1, h2, hp h3, h4, h5, h6⟩
  | _ => exact h

theorem keeps_reservations {r : List Reservation} (hl : s.reservations.length ≤ 64 → r.length ≤ 64)
    (hn : (s.reservations.map Reservation.code).Nodup → (r.map Reservation.code).Nodup) (h : l.holds s) :
    l.holds { s with reservations := r } := by
  cases l with
  | tables =>
    obtain ⟨h1, h2, h3, h4, h5, h6⟩ := h
    exact ⟨h1, h2, h3, hl h4, h5, h6⟩
  | keys =>
    obtain ⟨h1, h2, h3, h4, h5, h6⟩ := h
    exact ⟨h1, h2, h3, hn h4, h5, h6⟩
  | _ => exact h

theorem keeps_trucks {t : List Truck} (hl : l = .tables → s.trucks.length ≤ 12 → t.length ≤ 12)
    (hn : (s.trucks.map Truck.truck).Nodup → (t.map Truck.truck).Nodup) (h : l.holds s) :
    l.holds { s with trucks := t } := by
  cases l with
  | tables =>
    obtain ⟨h1, h2, h3, h4, h5, h6⟩ := h
    exact ⟨h1, hl rfl h2, h3, h4, h5, h6⟩
  | keys =>
    obtain ⟨h1, h2, h3, h4, h5, h6⟩ := h
    exact ⟨h1, hn h2, h3, h4, h5, h6⟩
  | _ => exact h

/-- Orders leave the book, or change but for their id, formula and run mass. -/
theorem keeps_slots_of {os : List Order} (hl : os.length ≤ s.slots.length)
    (hid : (os.map Order.id).Sublist (s.slots.map Order.id))
    (ho : ∀ o ∈ os, ∃ x ∈ s.slots, x.formula = o.formula ∧ x.runMass = o.runMass)
    (ha : OneActive s → OneActive { s with slots := os }) (h : l.holds s) : l.holds { s with slots := os } := by
  cases l with
  | tables =>
    obtain ⟨h1, h2, h3, h4, h5, h6⟩ := h
    exact ⟨hl.trans h1, h2, h3, h4, h5, h6⟩
  | keys =>
    obtain ⟨h1, h2, h3, h4, h5, h6⟩ := h
    refine ⟨hid.nodup h1, h2, h3, h4, h5, fun o hm => ?_⟩
    obtain ⟨x, hx, hf, -⟩ := ho o hm
    exact hf ▸ h6 x hx
  | active => exact ha h
  | records => exact h
  | figures =>
    obtain ⟨h1, h2, h3, h4, h5, h6, h7, h8, h9, h10, h11, h12, h13, h14⟩ := h
    refine ⟨h1, h2, h3, h4, h5, h6, h7, h8, h9, h10, h11, h12, fun o hm => ?_, h14⟩
    obtain ⟨x, hx, -, hr⟩ := ho o hm
    exact hr ▸ h13 x hx

/-- The same, where no order becomes ACTIVE. -/
theorem keeps_slots {os : List Order} (hl : os.length ≤ s.slots.length)
    (hid : (os.map Order.id).Sublist (s.slots.map Order.id))
    (ho : ∀ o ∈ os, ∃ x ∈ s.slots, x.id = o.id ∧ x.formula = o.formula ∧ x.runMass = o.runMass
      ∧ (o.state = .active → x.state = .active)) (h : l.holds s) : l.holds { s with slots := os } := by
  refine keeps_slots_of hl hid (fun o hm => ?_) (fun h a ha b hb haa hba => ?_) h
  · obtain ⟨x, hx, -, hf, hr, -⟩ := ho o hm
    exact ⟨x, hx, hf, hr⟩
  · obtain ⟨x, hx, hxi, -, -, hxa⟩ := ho a ha
    obtain ⟨y, hy, hyi, -, -, hya⟩ := ho b hb
    exact hxi ▸ hyi ▸ h x hx y hy (hxa haa) (hya hba)

/-- A change of an order that leaves its id, formula and run mass and does not make it ACTIVE. -/
def Order.TameAt (f : Order → Order) (o : Order) : Prop :=
  (f o).id = o.id ∧ (f o).formula = o.formula ∧ (f o).runMass = o.runMass ∧ ((f o).state = .active → o.state = .active)

def Order.Tame (f : Order → Order) : Prop := ∀ o, Order.TameAt f o

theorem keeps_slots_map {f : Order → Order} (hf : ∀ o ∈ s.slots, Order.TameAt f o) (h : l.holds s) :
    l.holds { s with slots := s.slots.map f } := by
  refine keeps_slots (by simp) ?_ (fun o ho => ?_) h
  · have he : s.slots.map (Order.id ∘ f) = s.slots.map Order.id := List.map_congr_left (fun o ho => (hf o ho).1)
    rw [List.map_map, he]
  · obtain ⟨x, hx, rfl⟩ := List.mem_map.1 ho
    obtain ⟨hi, hm, hr, ha⟩ := hf x hx
    exact ⟨x, hx, hi.symm, hm.symm, hr.symm, ha⟩

theorem keeps_slots_filter (p : Order → Bool) (h : l.holds s) : l.holds { s with slots := s.slots.filter p } :=
  keeps_slots (List.length_filter_le _ _) (List.filter_sublist.map _)
    (fun o ho => ⟨o, (List.mem_filter.1 ho).1, rfl, rfl, rfl, fun h => h⟩) h

/-- One change of an order or another, by a test of the order. -/
theorem Order.Tame.ite {f g : Order → Order} {c : Order → Prop} [DecidablePred c] (hf : Order.Tame f)
    (hg : Order.Tame g) : Order.Tame (fun o => if c o then f o else g o) := by
  intro o
  unfold Order.TameAt
  dsimp only
  split
  · exact hf o
  · exact hg o

theorem Order.tame_id : Order.Tame (fun o => o) := fun _ => ⟨rfl, rfl, rfl, fun h => h⟩

theorem updOrder_keeps (id : Nat) {f : Order → Order} (hf : Order.Tame f) (h : l.holds s) :
    l.holds (updOrder id f s) := keeps_slots_map (fun o _ => hf.ite Order.tame_id o) h

theorem bumpFault_keys (k : FaultKey) (reference now : Option Nat) (rs : List FaultRecord) :
    (bumpFault k reference now rs).map FaultRecord.key =
      if k ∈ rs.map FaultRecord.key then rs.map FaultRecord.key else rs.map FaultRecord.key ++ [k] := by
  induction rs with
  | nil => simp [bumpFault]
  | cons r rs ih =>
    unfold bumpFault
    by_cases hr : r.key = k
    · simp [hr]
    · simp only [hr, if_false, List.map_cons, ih, List.mem_cons, Ne.symm hr, false_or]
      split <;> simp

theorem bumpFault_counts (k : FaultKey) (reference now : Option Nat) (rs : List FaultRecord)
    (h : ∀ r ∈ rs, 1 ≤ r.count ∧ r.count ≤ 255) : ∀ r ∈ bumpFault k reference now rs, 1 ≤ r.count ∧ r.count ≤ 255 := by
  induction rs with
  | nil => simp [bumpFault]
  | cons q qs ih =>
    have hq := h q (by simp)
    have ih := ih (fun r hr => h r (by simp [hr]))
    unfold bumpFault
    intro r hr
    split at hr
    · rcases List.mem_cons.1 hr with rfl | hr
      · dsimp only; omega
      · exact h r (by simp [hr])
    · rcases List.mem_cons.1 hr with rfl | hr
      · exact hq
      · exact ih r hr

theorem keeps_bump (k : FaultKey) (reference now : Option Nat) (h : l.holds s) :
    l.holds { s with faults := bumpFault k reference now s.faults } := by
  cases l with
  | keys =>
    obtain ⟨h1, h2, h3, h4, h5, h6⟩ := h
    refine ⟨h1, h2, ?_, h4, h5, h6⟩
    rw [bumpFault_keys]
    split
    · exact h3
    · rename_i hk
      exact List.nodup_append.2 ⟨h3, by simp, fun x hx y hy e => hk (by simp_all)⟩
  | figures =>
    obtain ⟨h1, h2, h3, h4, h5, h6, h7, h8, h9, h10, h11, h12, h13, h14⟩ := h
    exact ⟨h1, h2, h3, h4, h5, h6, h7, h8, h9, bumpFault_counts _ _ _ _ h10, h11, h12, h13, h14⟩
  | _ => exact h

theorem keeps_bays {bs : List BayTimer} (hl : bs.length = s.bays.length)
    (hb : s.params.holdDuration ≤ 600 → (∀ b ∈ s.bays, b.remaining ≤ 600) → ∀ b ∈ bs, b.remaining ≤ 600)
    (h : l.holds s) : l.holds { s with bays := bs } := by
  cases l with
  | records =>
    obtain ⟨h1, h2, h3⟩ := h
    exact ⟨h1, h2, hl.trans h3⟩
  | figures =>
    obtain ⟨h1, h2, h3, h4, h5, h6, h7, h8, h9, h10, h11, h12, h13, h14⟩ := h
    exact ⟨h1, h2, h3, h4, h5, h6, h7, h8, hb h8 h9, h10, h11, h12, h13, h14⟩
  | _ => exact h

theorem keeps_channels {cs : List Channel} (hn : cs.map Channel.number = s.channels.map Channel.number)
    (hc : (∀ c ∈ s.channels, c.inFlight ≤ c.fMax) → ∀ c ∈ cs, c.inFlight ≤ c.fMax) (h : l.holds s) :
    l.holds { s with channels := cs } := by
  cases l with
  | records =>
    obtain ⟨h1, h2, h3⟩ := h
    exact ⟨h1, hn.trans h2, h3⟩
  | figures =>
    obtain ⟨h1, h⟩ := h
    exact ⟨hc h1, h⟩
  | _ => exact h

theorem keeps_bagger {b : Bagger} (hb : s.bagger.inFlight ≤ s.params.baggerFMax → b.inFlight ≤ s.params.baggerFMax)
    (h : l.holds s) : l.holds { s with bagger := b } := by
  cases l with
  | figures =>
    obtain ⟨h1, h2, h⟩ := h
    exact ⟨h1, hb h2, h⟩
  | _ => exact h

/-- Loop speeds and valve figure of a train that has changed; the start speeds of the parameters bear on them. -/
theorem keeps_train {t : Train}
    (hg : s.params.grinder.startSpeed ≤ 1000 → s.train.grinder.speed ≤ 1000 → t.grinder.speed ≤ 1000)
    (hp : s.params.press.startSpeed ≤ 1000 → s.train.presser.speed ≤ 1000 → t.presser.speed ≤ 1000)
    (hv : s.train.steam.valve ≤ 1000 → t.steam.valve ≤ 1000) (h : l.holds s) : l.holds { s with train := t } := by
  cases l with
  | figures =>
    obtain ⟨h1, h2, h3, h4, h5, h6, h7, h⟩ := h
    exact ⟨h1, h2, hg h6 h3, hp h7 h4, hv h5, h6, h7, h⟩
  | _ => exact h

theorem keeps_millTime {m : Option Nat}
    (hm : (∀ t, s.millTime = some t → t ≤ 86399) → ∀ t, m = some t → t ≤ 86399) (h : l.holds s) :
    l.holds { s with millTime := m } := by
  cases l with
  | figures =>
    obtain ⟨h1, h2, h3, h4, h5, h6, h7, h8, h9, h10, h11, h12, h13, h14⟩ := h
    exact ⟨h1, h2, h3, h4, h5, h6, h7, h8, h9, h10, h11, hm h12, h13, h14⟩
  | _ => exact h

theorem keeps_scale {c : Scale}
    (hd : ((dosesOf s).map Dose.position).Nodup → ((dosesOf { s with scale := c }).map Dose.position).Nodup)
    (h : l.holds s) : l.holds { s with scale := c } := by
  cases l with
  | keys =>
    obtain ⟨h1, h2, h3, h4, h5, h6⟩ := h
    exact ⟨h1, h2, h3, h4, hd h5, h6⟩
  | _ => exact h

/-! ### The outbound queue and the fault table -/

theorem pushSoft_keeps (b : Body) (h : l.holds s) : l.holds (pushSoft b s) := by
  unfold pushSoft
  split
  · refine keeps_tx (fun _ => ?_) h
    rw [List.length_append]
    simp only [List.length_cons, List.length_nil]
    omega
  · exact h

theorem raiseFault_keeps (k : FaultKey) (reference : Option Nat) (detail : List DetailField) (h : l.holds s) :
    l.holds (raiseFault k reference detail s) := by
  unfold raiseFault
  dsimp only
  split
  · exact pushSoft_keeps _ (keeps_bump _ _ _ h)
  · exact keeps_bump _ _ _ h

theorem dropFirst_length (p : OutEntry → Bool) (q : List OutEntry) (h : q.any p = true) :
    (dropFirst p q).length + 1 = q.length := by
  induction q with
  | nil => simp at h
  | cons e es ih =>
    unfold dropFirst
    by_cases he : p e = true
    · simp [he]
    · simp only [he, Bool.false_eq_true, if_false, List.length_cons]
      exact congrArg (· + 1) (ih (by simpa [he] using h))

/-- A full queue that gives up its newest class-2 frame has one place. -/
theorem evictNewest_length (q : List OutEntry) (h : q.any OutEntry.evictable = true) :
    (evictNewest q).length + 1 = q.length := by
  unfold evictNewest
  rw [List.length_reverse, dropFirst_length _ _ (by simpa using h), List.length_reverse]

theorem pushFrame_length {b : Body} (hr : hasRoom b s = true) (h : s.tx.length ≤ 8) :
    (pushFrame b s.tx).length ≤ 8 := by
  unfold pushFrame
  split
  · simp only [List.length_append, List.length_cons, List.length_nil]; omega
  · rename_i hf
    have he : s.tx.any OutEntry.evictable = true := by simp [hasRoom, hf] at hr; simpa using hr.2
    have := evictNewest_length _ he
    simp only [List.length_append, List.length_cons, List.length_nil]; omega

theorem queueFrame_keeps (b : Body) (h : l.holds s) : l.holds (queueFrame b s) := by
  unfold queueFrame
  split
  · rename_i hr
    exact keeps_tx (pushFrame_length hr) h
  · split
    · exact h
    · exact raiseFault_keeps _ _ _ h

theorem queueNotice_keeps (n : Notice) (h : l.holds s) : l.holds (queueNotice n s) := pushSoft_keeps _ h

theorem withdrawHolds_keeps (h : l.holds s) : l.holds (withdrawHolds s) :=
  keeps_tx (List.length_filter_le _ _).trans h

/-! ### Records by key -/

theorem updBin_keeps (bin : Nat) {f : BinEntry → BinEntry} (hf : ∀ e, (f e).bin = e.bin) (h : l.holds s) :
    l.holds (updBin bin f s) := by
  have hb : (updBin bin f s).bins.map BinEntry.bin = s.bins.map BinEntry.bin := by
    unfold updBin
    rw [List.map_map]
    refine List.map_congr_left (fun e _ => ?_)
    simp only [Function.comp]
    split
    · exact hf e
    · rfl
  exact Law.congr h (congrArg (fun b => { s.vital with bins := b }) hb)

theorem updPlanEntry_keeps (position : Nat) (f : PlanEntry → PlanEntry) (h : l.holds s) :
    l.holds (updPlanEntry position f s) := Law.congr h rfl

theorem updComp_keeps (truck number : Nat) (f : Compartment → Compartment) (h : l.holds s) :
    l.holds (updComp truck number f s) := by
  have ht : (updComp truck number f s).trucks.map Truck.truck = s.trucks.map Truck.truck := by
    unfold updComp
    rw [List.map_map]
    refine List.map_congr_left (fun t _ => ?_)
    simp only [Function.comp]
    split <;> rfl
  exact Law.congr h (congrArg (fun t => { s.vital with trucks := t }) ht)

theorem setBay_keeps (bay : Nat) (holder : Option Nat) {n : Nat} (hn : s.params.holdDuration ≤ 600 → n ≤ 600)
    (h : l.holds s) : l.holds (setBay bay holder n s) := by
  refine keeps_bays (by simp) (fun hd hb b hm => ?_) h
  obtain ⟨i, hi, rfl⟩ := List.mem_iff_getElem.1 hm
  rw [List.getElem_modify]
  split
  · exact hn hd
  · exact hb _ (List.getElem_mem _)


end Sys2Proof.Machine
end

