-- ==== Sys2Proof/Proofs/Kept1.lean ====
section
/-! SUPPORT. The invariants of Invariants.lean are kept by the operations of the Bin View, the Order Book, the Dosing Unit and
the admission of batches. -/
namespace Sys2Proof.Machine

variable {l : Law} {s : State}

theorem keeps_ite {c : Prop} [Decidable c] {t e : State} (ht : l.holds t) (he : l.holds e) :
    l.holds (if c then t else e) := by
  split
  · exact ht
  · exact he

/-! ### The Bin View -/

theorem reportComplete_keeps (position bin a : Nat) (h : l.holds s) : l.holds (reportComplete position bin a s) :=
  updPlanEntry_keeps _ _ (updBin_keeps _ (fun _ => rfl) h)

theorem reportPartial_keeps (position bin a : Nat) (h : l.holds s) : l.holds (reportPartial position bin a s) :=
  updPlanEntry_keeps _ _ (updBin_keeps _ (fun _ => rfl) h)

theorem markSuspect_keeps (bin : Nat) (h : l.holds s) : l.holds (markSuspect bin s) := updBin_keeps _ (fun _ => rfl) h

theorem applyLevel_keeps (bin mass source : Nat) (code : Option Nat) (h : l.holds s) :
    l.holds (applyLevel bin mass source code s) := updBin_keeps _ (fun _ => rfl) h

theorem quarantinePair_keeps (p : Nat × Nat) (h : l.holds s) : l.holds (quarantinePair p s) := by
  unfold quarantinePair
  split
  · exact updBin_keeps _ (fun _ => rfl) h
  · split
    · exact updBin_keeps _ (fun _ => rfl) h
    · exact h

theorem quarantinePairs_keeps (ps : List (Nat × Nat)) (h : l.holds s) : l.holds (quarantinePairs ps s) := by
  induction ps generalizing s with
  | nil => exact h
  | cons p ps ih => exact ih (quarantinePair_keeps p h)

/-- Every bin entry changes, but for its bin number. -/
theorem keeps_bins_map {f : BinEntry → BinEntry} (hf : ∀ e, (f e).bin = e.bin) (h : l.holds s) :
    l.holds { s with bins := s.bins.map f } := by
  have hb : (s.bins.map f).map BinEntry.bin = s.bins.map BinEntry.bin := by
    rw [List.map_map, show BinEntry.bin ∘ f = BinEntry.bin from funext hf]
  exact Law.congr h (congrArg (fun b => { s.vital with bins := b }) hb)

theorem applyHello_keeps (n : Nat) (h : l.holds s) : l.holds (applyHello n s) :=
  keeps_bins_map (fun e => by split <;> rfl) (keeps_peers (List.length_filter_le _ _).trans h)

theorem pushPeer_length (d : PeerDraw) (p : List PeerDraw) (h : p.length ≤ 64) : (pushPeer d p).length ≤ 64 := by
  have := List.length_filter_le (fun q => !q.same d.node d.batch d.bin) p
  unfold pushPeer
  dsimp only
  rw [List.length_append, List.length_singleton]
  split
  · omega
  · rw [List.length_drop]; omega

theorem noticePairs_length (node batch : Nat) (ps : List (Nat × Nat)) (p : List PeerDraw) (h : p.length ≤ 64) :
    (noticePairs node batch ps p).length ≤ 64 := by
  induction ps generalizing p with
  | nil => exact h
  | cons q qs ih =>
    unfold noticePairs
    split
    · exact ih _ (pushPeer_length _ _ h)
    · exact ih _ h

theorem applyDrawReport_keeps (node batch bin actual : Nat) (h : l.holds s) :
    l.holds (applyDrawReport node batch bin actual s) :=
  keeps_peers (List.length_filter_le _ _).trans (updBin_keeps _ (fun _ => rfl) h)

theorem ageBinView_keeps (h : l.holds s) : l.holds (ageBinView s) := by
  have hp : (agePeers s.params.peerDrawAge s.peers).length ≤ s.peers.length :=
    (List.length_filter_le _ _).trans (by simp)
  exact Law.congr (keeps_bins_map (f := ageEntry s.params.staleAge) (fun _ => rfl) (keeps_peers hp.trans h)) rfl

/-! ### The Order Book -/

theorem addReservation_bounds {code m : Nat} {t r : List Reservation} (h : addReservation code m t = some r) :
    (t.length ≤ 64 → r.length ≤ 64) ∧ ((t.map Reservation.code).Nodup → (r.map Reservation.code).Nodup) := by
  unfold addReservation at h
  split at h
  · obtain rfl := Option.some.inj h
    refine ⟨by simp, fun hn => ?_⟩
    rw [List.map_map]
    convert hn using 2
    funext x
    simp only [Function.comp]
    split <;> rfl
  · rename_i hc
    split at h
    · obtain rfl := Option.some.inj h
      exact ⟨fun h => h, fun h => h⟩
    · split at h
      · obtain rfl := Option.some.inj h
        refine ⟨fun _ => by simp; omega, fun hn => ?_⟩
        rw [List.map_append]
        refine List.nodup_append.2 ⟨hn, by simp, fun x hx y hy e => ?_⟩
        simp only [List.map_cons, List.map_nil, List.mem_singleton] at hy
        obtain ⟨q, hq, rfl⟩ := List.mem_map.1 hx
        exact hc (List.any_eq_true.2 ⟨q, hq, by simp [e, hy]⟩)
      · cases h

theorem reserveParts_bounds (ps : List Planned) (t : List Reservation) :
    (t.length ≤ 64 → (reserveParts ps t).1.length ≤ 64)
      ∧ ((t.map Reservation.code).Nodup → ((reserveParts ps t).1.map Reservation.code).Nodup) := by
  induction ps generalizing t with
  | nil => exact ⟨fun h => h, fun h => h⟩
  | cons c cs ih =>
    unfold reserveParts
    split
    · rename_i r hr
      obtain ⟨hl, hn⟩ := addReservation_bounds hr
      exact ⟨fun h => (ih r).1 (hl h), fun h => (ih r).2 (hn h)⟩
    · exact ih t

theorem subReservation_codes (code m : Nat) (t : List Reservation) :
    ((subReservation code m t).map Reservation.code).Sublist (t.map Reservation.code) := by
  induction t with
  | nil => exact .slnil
  | cons r rs ih =>
    unfold subReservation at ih ⊢
    rw [List.filterMap_cons]
    split
    · exact ih.cons _
    · rename_i b hb
      have : b.code = r.code := by
        split at hb
        · split at hb
          · cases hb
          · rw [← Option.some.inj hb]
        · rw [← Option.some.inj hb]
      rw [List.map_cons, List.map_cons, this]
      exact ih.cons_cons _

theorem foldl_subReservation_codes (rs t : List Reservation) :
    ((rs.foldl (fun l r => subReservation r.code r.mass l) t).map Reservation.code).Sublist (t.map Reservation.code) := by
  induction rs generalizing t with
  | nil => exact List.Sublist.refl _
  | cons r rs ih => exact (ih _).trans (subReservation_codes _ _ _)

theorem keeps_fewer_reservations {r : List Reservation}
    (hr : (r.map Reservation.code).Sublist (s.reservations.map Reservation.code)) (h : l.holds s) :
    l.holds { s with reservations := r } :=
  keeps_reservations (fun hs => le_trans (by simpa using hr.length_le) hs) hr.nodup h

theorem reserveRun_keeps (id : Nat) (h : l.holds s) : l.holds (reserveRun id s) := by
  unfold reserveRun
  split
  · exact updOrder_keeps _ (fun _ => ⟨rfl, rfl, rfl, fun h => h⟩)
      (keeps_reservations (reserveParts_bounds _ _).1 (reserveParts_bounds _ _).2 h)
  · exact h

theorem consume_keeps (id code t : Nat) (h : l.holds s) : l.holds (consume id code t s) := by
  unfold consume
  split
  · exact updOrder_keeps _ (fun _ => ⟨rfl, rfl, rfl, fun h => h⟩)
      (keeps_fewer_reservations (subReservation_codes _ _ _) h)
  · exact h

theorem releaseReservations_keeps (id : Nat) (h : l.holds s) : l.holds (releaseReservations id s) := by
  unfold releaseReservations
  split
  · exact updOrder_keeps _ (fun _ => ⟨rfl, rfl, rfl, fun h => h⟩)
      (keeps_fewer_reservations (foldl_subReservation_codes _ _) h)
  · exact h

theorem freeSlot_keeps (id : Nat) (h : l.holds s) : l.holds (freeSlot id s) :=
  Law.congr (keeps_slots_filter (fun o => decide (o.id ≠ id)) (releaseReservations_keeps id h)) rfl

theorem reportRetired_keeps (into : Bool) (b : Batch) (h : l.holds s) : l.holds (reportRetired into b s) := by
  unfold reportRetired
  split
  · split
    · exact updOrder_keeps _ (fun _ => ⟨rfl, rfl, rfl, fun h => h⟩) h
    · exact h
  · exact h

theorem completeRun_keeps (id : Nat) (h : l.holds s) : l.holds (completeRun id s) := by
  unfold completeRun
  split
  · exact h
  · split
    · exact freeSlot_keeps _ (queueNotice_keeps _ (releaseReservations_keeps _ h))
    · exact reserveRun_keeps _ (updOrder_keeps _ (fun _ => ⟨rfl, rfl, rfl, nofun⟩)
        (queueNotice_keeps _ (releaseReservations_keeps _ h)))

theorem renumber_keeps (h : l.holds s) : l.holds (renumber s) := by
  unfold renumber
  refine keeps_ite h ?_
  have h1 (rank : Nat → Nat) : l.holds { s with slots := s.slots.map (fun o => { o with takeOrder := o.takeOrder.map rank }) } :=
    keeps_slots_map (fun _ _ => ⟨rfl, rfl, rfl, fun h => h⟩) h
  exact Law.congr (h1 _) rfl

/-! ### The Dosing Unit -/

theorem setScale_keeps (st : ScaleState) (h : l.holds s) : l.holds (setScale st s) := Law.congr h rfl

theorem setResume_keeps (r : ResumePoint) (h : l.holds s) : l.holds (setResume r s) := Law.congr h rfl

theorem updDose_positions (position : Nat) {f : Dose → Dose} (hf : ∀ d, (f d).position = d.position) (s : State) :
    (dosesOf (updDose position f s)).map Dose.position = (dosesOf s).map Dose.position := by
  unfold dosesOf updDose
  cases s.scale.batch with
  | none => rfl
  | some b =>
    simp only [Option.map_some, List.map_map]
    refine List.map_congr_left (fun d _ => ?_)
    simp only [Function.comp]
    split
    · exact hf d
    · rfl

theorem updDose_keeps (position : Nat) {f : Dose → Dose} (hf : ∀ d, (f d).position = d.position) (h : l.holds s) :
    l.holds (updDose position f s) :=
  Law.congr h (congrArg (fun d => { s.vital with doses := d }) (updDose_positions position hf s))

theorem updRecord_keeps (f : Batch → Batch) (h : l.holds s) : l.holds (updRecord f s) := by
  have hd : dosesOf (updRecord f s) = dosesOf s := by
    unfold dosesOf updRecord
    cases s.scale.batch <;> rfl
  exact Law.congr h (congrArg (fun d : List Dose => { s.vital with doses := d.map Dose.position }) hd)

theorem holdScale_keeps (k : FaultKey) (detail : List DetailField) (r : ResumePoint) (h : l.holds s) :
    l.holds (holdScale k detail r s) := Law.congr (raiseFault_keeps k (scaleRef s) detail h) rfl

theorem zeroReport_keeps (d : Dose) (h : l.holds s) : l.holds (zeroReport d s) := by
  unfold zeroReport
  split
  · split
    · dsimp only
      refine updDose_keeps _ (fun _ => rfl) ?_
      split
      · exact reportComplete_keeps _ _ _ (queueFrame_keeps _ h)
      · exact queueFrame_keeps _ h
    · exact updDose_keeps _ (fun _ => rfl) h
  · exact h

theorem answerZero_keeps (d : Dose) (h : l.holds s) : l.holds (answerZero d s) := by
  unfold answerZero
  split
  · exact updDose_keeps _ (fun _ => rfl) (queueFrame_keeps _ h)
  · exact h

theorem completeReport_keeps (d : Dose) (h : l.holds s) : l.holds (completeReport d s) := by
  unfold completeReport
  split
  · exact updDose_keeps _ (fun _ => rfl) (reportComplete_keeps _ _ _ (queueFrame_keeps _ h))
  · exact h

theorem partialReport_keeps (d : Dose) (h : l.holds s) : l.holds (partialReport d s) := by
  unfold partialReport
  split
  · exact updDose_keeps _ (fun _ => rfl) (reportPartial_keeps _ _ _ (queueFrame_keeps _ h))
  · exact updDose_keeps _ (fun _ => rfl) h

theorem moveBin_keeps (d : Dose) (bin : Nat) (h : l.holds s) : l.holds (moveBin d bin s) := by
  unfold moveBin
  split
  · exact updDose_keeps _ (fun _ => rfl) (queueFrame_keeps _ (updPlanEntry_keeps _ _ h))
  · exact h

theorem confirmStart_keeps (d : Dose) (h : l.holds s) : l.holds (confirmStart d s) := by
  unfold confirmStart
  split
  · exact setScale_keeps _ (updDose_keeps _ (fun _ => rfl) (updPlanEntry_keeps _ _ h))
  · exact setScale_keeps _ (updDose_keeps _ (fun _ => rfl) (moveBin_keeps _ _ h))
  · exact holdScale_keeps _ _ _ (updDose_keeps _ (fun _ => rfl) h)

theorem startDose_keeps (d : Dose) (h : l.holds s) : l.holds (startDose d s) := by
  have h1 : l.holds (updDose d.position (fun d => { d with status := .inProgress }) s) := updDose_keeps _ (fun _ => rfl) h
  unfold startDose
  dsimp only
  split
  · exact setScale_keeps _ (updDose_keeps _ (fun _ => rfl) h1)
  · split
    · exact setScale_keeps _ (updDose_keeps _ (fun _ => rfl) (answerZero_keeps _ h1))
    · exact confirmStart_keeps _ h1

theorem startNext_keeps (k : Nat) (h : l.holds s) : l.holds (startNext k s) := by
  induction k generalizing s with
  | zero => exact setScale_keeps _ h
  | succ k ih =>
    unfold startNext
    split
    · exact setScale_keeps _ h
    · split
      · exact ih (answerZero_keeps _ (updDose_keeps _ (fun _ => rfl) h))
      · exact startDose_keeps _ h

theorem startComponent_keeps (h : l.holds s) : l.holds (startComponent s) := startNext_keeps _ h

theorem closeWaiting_keeps (ds : List Dose) (h : l.holds s) : l.holds (closeWaiting ds s) := by
  induction ds generalizing s with
  | nil => exact h
  | cons d ds ih =>
    unfold closeWaiting
    split
    · exact ih (zeroReport_keeps _ h)
    · exact ih h

/-- A batch in the scale, whose components stand at positions of their own. -/
theorem keeps_batch (p : Option DrawPlan) {b : ScaleBatch} (hb : (b.doses.map Dose.position).Nodup) (h : l.holds s) :
    l.holds { s with plan := p, scale := { s.scale with batch := some b } } :=
  Law.congr (keeps_scale (c := { s.scale with batch := some b }) (fun _ => hb) h) rfl

theorem admitToScale_keeps (b : Batch) {comps : List Planned} (hc : (comps.map Planned.position).Nodup)
    (h : l.holds s) : l.holds (admitToScale b comps s) := by
  unfold admitToScale
  dsimp only
  refine startComponent_keeps (keeps_ite ?_ (queueFrame_keeps _ ?_)) <;>
    exact keeps_batch _ (by simpa [Function.comp_def, Dose.fresh] using hc) h

theorem openFeed_keeps (fast : Bool) (gain : Int) (h : l.holds s) : l.holds (openFeed fast gain s) := Law.congr h rfl

theorem enterJog_keeps (d : Dose) (h : l.holds s) : l.holds (enterJog d s) :=
  setScale_keeps _ (updDose_keeps _ (fun _ => rfl) h)

theorem takeTare_keeps (d : Dose) (w : Int) (h : l.holds s) : l.holds (takeTare d w s) := by
  have h1 : l.holds { s with scale := { s.scale with batch := s.scale.batch.map (fun b =>
      { b with firstTare := match b.firstTare with | some t => some t | none => some w }) } } := by
    refine Law.congr h (congrArg (fun d : List Dose => { s.vital with doses := d.map Dose.position }) ?_)
    unfold dosesOf
    cases s.scale.batch <;> rfl
  have h2 := updDose_keeps d.position (f := fun d => { d with tare := some w }) (fun _ => rfl) h1
  unfold takeTare
  dsimp only
  split
  · exact queueNotice_keeps _ (setScale_keeps _ h2)
  · split
    · exact enterJog_keeps _ (updDose_keeps _ (fun _ => rfl) h2)
    · exact openFeed_keeps _ _ (updDose_keeps _ (fun _ => rfl) h2)

theorem feedSample_keeps (fast : Bool) (d : Dose) (h : l.holds s) : l.holds (feedSample fast d s) := by
  unfold feedSample
  (repeat' split) <;> first | exact h | exact setScale_keeps _ h

theorem clampInt_le (x lo hi : Int) (h : lo ≤ hi) : clampInt x lo hi ≤ hi := by
  unfold clampInt
  (repeat' split) <;> omega

theorem adapt_le (gain fMax inFlight : Nat) (e1 : Int) : adapt gain fMax inFlight e1 ≤ fMax := by
  have := clampInt_le (inFlight + roundEighth (e1 * gain)) 0 fMax (Int.natCast_nonneg _)
  unfold adapt
  omega

theorem loopFigure_le (figure gain : Nat) (d : Int) : loopFigure figure gain d ≤ 1000 := by
  have := clampInt_le (figure + Int.tdiv (d * gain) 64) 0 1000 (by decide)
  unfold loopFigure
  omega

theorem adaptChannel_keeps (d : Dose) (h : l.holds s) : l.holds (adaptChannel d s) := by
  unfold adaptChannel
  split
  · refine keeps_channels ?_ (fun hc c hm => ?_) h
    · rw [List.map_map]
      refine List.map_congr_left (fun c _ => ?_)
      simp only [Function.comp]
      split <;> rfl
    · obtain ⟨x, hx, rfl⟩ := List.mem_map.1 hm
      split
      · exact adapt_le _ _ _ _
      · exact hc x hx
  · exact h

theorem consumeDose_keeps (d : Dose) (h : l.holds s) : l.holds (consumeDose d s) := by
  unfold consumeDose
  (repeat' split) <;> first | exact h | exact consume_keeps _ _ _ h

theorem recordStep_keeps (outcome : DoseOutcome) (adapts : Bool) (d : Dose) (h : l.holds s) :
    l.holds (recordStep outcome adapts d s) := by
  have h1 : l.holds (if adapts then adaptChannel d s else s) := keeps_ite (adaptChannel_keeps d h) h
  have h2 := keeps_ite (c := d.fed = true) (completeReport_keeps d h1) h1
  have h4 := updDose_keeps d.position (f := fun d => { d with outcome := some outcome, status := .done }) (fun _ => rfl)
    (consumeDose_keeps d h2)
  exact keeps_ite (setScale_keeps _ (closeWaiting_keeps _ h4)) (startComponent_keeps h4)

theorem acceptDose_keeps (outcome : DoseOutcome) (d : Dose) (h : l.holds s) : l.holds (acceptDose outcome d s) :=
  recordStep_keeps _ _ _ (updRecord_keeps _ h)

theorem judgeDose_keeps (first : Bool) (g : Int) (d : Dose) (h : l.holds s) : l.holds (judgeDose first g d s) := by
  have h1 : l.holds (if first then updDose d.position (fun d' => { d' with e1 := some (g - d.target) }) s else s) :=
    keeps_ite (updDose_keeps _ (fun _ => rfl) h) h
  unfold judgeDose
  dsimp only
  split
  · exact recordStep_keeps _ _ _ h1
  · exact holdScale_keeps _ _ _ h1
  · exact keeps_ite (enterJog_keeps _ h1) (holdScale_keeps _ _ _ h1)

theorem resumeDose_keeps (g : Int) (d : Dose) (h : l.holds s) : l.holds (resumeDose g d s) := by
  unfold resumeDose
  split
  · exact judgeDose_keeps _ _ _ h
  · exact openFeed_keeps _ _ h

theorem judgeHand_keeps (g : Int) (d : Dose) (h : l.holds s) : l.holds (judgeHand g d s) := by
  unfold judgeHand
  dsimp only
  split
  · exact recordStep_keeps _ _ _ h
  · exact setScale_keeps _ h
  · exact holdScale_keeps _ _ _ h

theorem settleSample_keeps (p : SettlePurpose) (g : Int) (d : Dose) (h : l.holds s) :
    l.holds (settleSample p g d s) := by
  unfold settleSample
  refine keeps_ite (keeps_ite (recordStep_keeps _ _ _ h) ?_) h
  split
  · exact judgeDose_keeps _ _ _ h
  · exact judgeDose_keeps _ _ _ h
  · exact resumeDose_keeps _ _ h
  · exact judgeHand_keeps _ _ h

theorem beginDischarge_keeps (h : l.holds s) : l.holds (beginDischarge s) := by
  unfold beginDischarge
  split
  · exact Law.congr h rfl
  · exact h

theorem emptyScale_keeps (h : l.holds s) : l.holds (emptyScale s) :=
  Law.congr (keeps_scale (c := { s.scale with state := .idle, batch := none, holdSet := [], resume := none })
    (fun _ => List.nodup_nil) h) rfl

theorem offWeightNotice_keeps (b : Batch) (h : l.holds s) : l.holds (offWeightNotice b s) := by
  unfold offWeightNotice
  split
  · exact queueNotice_keeps _ h
  · exact h

theorem completeDischarge_keeps (h : l.holds s) : l.holds (completeDischarge s) := by
  unfold completeDischarge
  split
  · exact emptyScale_keeps (offWeightNotice_keeps _ (Law.congr h rfl))
  · exact emptyScale_keeps h

theorem completeDump_keeps (h : l.holds s) : l.holds (completeDump s) := by
  unfold completeDump
  split
  · exact reportRetired_keeps _ _ (emptyScale_keeps h)
  · exact emptyScale_keeps h

theorem closeDose_keeps (d : Dose) (h : l.holds s) : l.holds (closeDose d s) := updDose_keeps _ (fun _ => rfl) h

theorem dumpDose_keeps (d : Dose) (h : l.holds s) : l.holds (dumpDose d s) := by
  unfold dumpDose
  split
  · split
    · exact closeDose_keeps _ (completeReport_keeps _ h)
    · exact closeDose_keeps _ h
  · exact zeroReport_keeps _ h

theorem dumpDoses_keeps (ds : List Dose) (h : l.holds s) : l.holds (dumpDoses ds s) := by
  induction ds generalizing s with
  | nil => exact h
  | cons d ds ih => exact ih (dumpDose_keeps d h)

theorem dumpScaleBatch_keeps (h : l.holds s) : l.holds (dumpScaleBatch s) := by
  have h2 := updRecord_keeps (fun b => { b with rework := true }) (dumpDoses_keeps (dosesOf s) h)
  unfold dumpScaleBatch
  dsimp only
  split <;> exact Law.congr h2 rfl

theorem cutFeed_keeps (d : Dose) (bin : Nat) (h : l.holds s) : l.holds (cutFeed d bin s) :=
  setResume_keeps _ (holdScale_keeps _ _ _ (partialReport_keeps _ h))

theorem quarantineNotice_keeps (bin : Nat) (h : l.holds s) : l.holds (quarantineNotice bin s) := by
  unfold quarantineNotice
  (repeat' split) <;> first | exact h | exact cutFeed_keeps _ _ h

theorem interruptDose_keeps (h : l.holds s) : l.holds (interruptDose s) := by
  unfold interruptDose
  split
  · exact updDose_keeps _ (fun _ => rfl) h
  · exact h

theorem overloadCheck_keeps (h : l.holds s) : l.holds (overloadCheck s) := by
  unfold overloadCheck
  (repeat' split) <;> first | exact h | exact holdScale_keeps _ _ _ h | exact holdScale_keeps _ _ _ (interruptDose_keeps h)

theorem weighSample_keeps (h : l.holds s) : l.holds (weighSample s) := by
  unfold weighSample
  (repeat' split) <;> first
    | exact h
    | exact takeTare_keeps _ _ h
    | exact feedSample_keeps _ _ h
    | exact settleSample_keeps _ _ _ h
    | exact completeDischarge_keeps h
    | exact completeDump_keeps h
    | exact Law.congr h rfl

theorem stallExpiry_keeps (h : l.holds s) : l.holds (stallExpiry s) := by
  unfold stallExpiry
  (repeat' split) <;> first
    | exact h
    | exact Law.congr h rfl
    | exact holdScale_keeps _ _ _ (markSuspect_keeps _ (partialReport_keeps _ h))
    | exact holdScale_keeps _ _ _ (partialReport_keeps _ h)

theorem settleExpiry_keeps (h : l.holds s) : l.holds (settleExpiry s) := by
  unfold settleExpiry
  (repeat' split) <;> first | exact h | exact holdScale_keeps _ _ _ h | exact holdScale_keeps _ _ _ (interruptDose_keeps h)

theorem residueExpiry_keeps (h : l.holds s) : l.holds (residueExpiry s) := by
  have h1 := raiseFault_keeps .scaleResidue (scaleRef s) [.wide (s.scaleConv.weight.getD 0)] h
  unfold residueExpiry
  dsimp only
  split
  · exact completeDischarge_keeps h1
  · exact completeDump_keeps h1
  · exact h

theorem closeRework_keeps (h : l.holds s) : l.holds (closeRework s) := by
  unfold closeRework
  dsimp only
  split
  · exact setScale_keeps _ (closeWaiting_keeps _ (closeDose_keeps _ (zeroReport_keeps _ h)))
  · exact setScale_keeps _ (closeWaiting_keeps _ h)

theorem rechooseBin_keeps (d : Dose) (h : l.holds s) : l.holds (rechooseBin d s) := by
  unfold rechooseBin
  split
  · dsimp only
    split <;> exact setScale_keeps _ (moveBin_keeps _ _ h)
  · exact holdScale_keeps _ _ _ h

theorem resumeComponent_keeps (r : ResumePoint) (d : Dose) (h : l.holds s) : l.holds (resumeComponent r d s) := by
  unfold resumeComponent
  (repeat' split) <;> first | exact setScale_keeps _ h | exact confirmStart_keeps _ h | exact rechooseBin_keeps _ h

theorem leaveHeld_keeps (h : l.holds s) : l.holds (leaveHeld s) := by
  have h1 : l.holds { s with scale := { s.scale with resume := none } } := Law.congr h rfl
  unfold leaveHeld
  dsimp only
  (repeat' split) <;> first
    | exact h
    | exact setScale_keeps _ h1
    | exact acceptDose_keeps _ _ h1
    | exact closeRework_keeps h1
    | exact resumeComponent_keeps _ _ h1

theorem ackDosing_keeps (keys : List FaultKey) (h : l.holds s) : l.holds (ackDosing keys s) := by
  unfold ackDosing
  dsimp only
  split
  · split
    · exact leaveHeld_keeps (Law.congr h rfl)
    · exact Law.congr h rfl
  · exact h

theorem reworkScale_keeps (h : l.holds s) : l.holds (reworkScale s) := by
  have h1 := updRecord_keeps (fun b => { b with rework := true }) h
  unfold reworkScale
  dsimp only
  (repeat' split) <;> first | exact h | exact closeRework_keeps h1 | exact closeWaiting_keeps _ h1 | exact h1

theorem beginJogPulse_keeps (h : l.holds s) : l.holds (beginJogPulse s) := by
  unfold beginJogPulse
  split
  · exact setScale_keeps _ h
  · exact h

theorem stopDosing_keeps (h : l.holds s) : l.holds (stopDosing s) := by
  have h1 := interruptDose_keeps h
  unfold stopDosing
  dsimp only
  split <;> first | exact h1 | exact setScale_keeps _ h1

/-! ### Admission -/

theorem raiseShort_keeps (os : List Order) (h : l.holds s) : l.holds (raiseShort os s) := by
  induction os generalizing s with
  | nil => exact h
  | cons o os ih => exact ih (raiseFault_keeps _ _ _ h)

theorem recomputeWaits_keeps (h : l.holds s) : l.holds (recomputeWaits s) :=
  raiseShort_keeps _ (keeps_slots_map (fun o _ =>
    Order.Tame.ite (f := fun o => { o with waits := waitsFor o s }) (fun _ => ⟨rfl, rfl, rfl, fun h => h⟩) Order.tame_id o) h)

theorem preempt_keeps (chosen : Nat) (h : l.holds s) : l.holds (preempt chosen s) :=
  keeps_slots_map (fun o _ =>
    Order.Tame.ite (f := fun o => { o with state := .held }) (fun _ => ⟨rfl, rfl, rfl, nofun⟩) Order.tame_id o) h

theorem preempt_others (chosen : Nat) (s : State) :
    ∀ o ∈ (preempt chosen s).slots, o.state = .active → o.id = chosen := by
  intro o ho ha
  obtain ⟨x, hx, rfl⟩ := List.mem_map.1 ho
  by_contra hne
  by_cases hc : x.id ≠ chosen ∧ x.state = .active
  · simp [hc] at ha
  · rw [if_neg hc] at ha hne
    exact hc ⟨hne, ha⟩

/-- An order may become ACTIVE while no other is. -/
theorem updOrder_keeps_alone (id : Nat) {f : Order → Order}
    (hf : ∀ o, (f o).id = o.id ∧ (f o).formula = o.formula ∧ (f o).runMass = o.runMass)
    (ha : ∀ o ∈ s.slots, o.state = .active → o.id = id) (h : l.holds s) : l.holds (updOrder id f s) := by
  have hone : ∀ x ∈ (updOrder id f s).slots, x.state = .active → x.id = id := by
    intro x hx hxa
    obtain ⟨y, hy, rfl⟩ := List.mem_map.1 hx
    by_cases hi : y.id = id
    · rw [if_pos hi, (hf y).1, hi]
    · rw [if_neg hi] at hxa ⊢
      exact ha y hy hxa
  refine keeps_slots_of (by simp) ?_ (fun o ho => ?_)
    (fun _ x hx y hy hxa hya => (hone x hx hxa).trans (hone y hy hya).symm) h
  · have he : Order.id ∘ (fun o => if o.id = id then f o else o) = Order.id := by
      funext o
      simp only [Function.comp]
      split
      · exact (hf o).1
      · rfl
    rw [List.map_map, he]
  · obtain ⟨x, hx, rfl⟩ := List.mem_map.1 ho
    refine ⟨x, hx, ?_⟩
    split
    · exact ⟨(hf x).2.1.symm, (hf x).2.2.symm⟩
    · exact ⟨rfl, rfl⟩

/-- R92: components stand at positions of their own. -/
theorem plannedOf_positions (mass : Nat) (formula : List Component) :
    ((plannedOf mass formula).map Planned.position).Nodup := by
  have hp : (plannedOf mass formula).map Planned.position =
      ((formula.zip (largestRemainder mass (formula.map Component.share))).zipIdx.map Prod.snd).map (· + 1) := by
    simp only [plannedOf, List.map_map, Function.comp_def]
  rw [hp, List.zipIdx_map_snd]
  exact (List.nodup_range' ..).map (fun _ _ h => Nat.succ_injective h)

theorem admitProduct_keeps (o : Order) (h : l.holds s) : l.holds (admitProduct o s) := by
  have h1 : l.holds (updOrder o.id Order.afterAdmission (preempt o.id s)) :=
    updOrder_keeps_alone _ (fun _ => ⟨rfl, rfl, rfl⟩) (preempt_others _ _) (preempt_keeps _ h)
  exact admitToScale_keeps _ (plannedOf_positions _ _) (Law.congr h1 rfl)

theorem admitFlush_keeps (o : Order) (h : l.holds s) : l.holds (admitFlush o s) :=
  admitToScale_keeps _ (by simp) (Law.congr (preempt_keeps o.id h) rfl)

theorem admitBatch_keeps (o : Order) (h : l.holds s) : l.holds (admitBatch o s) :=
  keeps_ite (admitFlush_keeps o h) (admitProduct_keeps o h)

theorem admissionAttempt_keeps (h : l.holds s) : l.holds (admissionAttempt s) := by
  unfold admissionAttempt
  dsimp only
  refine keeps_ite ?_ h
  split
  · exact admitBatch_keeps _ (recomputeWaits_keeps h)
  · exact recomputeWaits_keeps h

end Sys2Proof.Machine
end

