-- ==== Sys2Proof/Proofs/Kept2.lean ====
section
/-! SUPPORT. The invariants of Invariants.lean are kept by the operations of the bays, the Delivery Table, the claims, the
Process Train, the loadout and the Packing Unit. -/
namespace Sys2Proof.Machine

variable {l : Law} {s : State}

/-! ### Bays and the own hold -/

theorem closeSpout_keeps (cause : CloseCause) (h : l.holds s) : l.holds (closeSpout cause s) := by
  unfold closeSpout
  (repeat' split) <;> first | exact h | exact Law.congr h rfl

theorem freeBay_keeps (bay : Nat) (h : l.holds s) : l.holds (freeBay bay s) :=
  setBay_keeps _ _ (fun _ => Nat.zero_le _) h

theorem setOwnBay_keeps (bay : Nat) (h : l.holds s) : l.holds (setOwnBay bay s) :=
  setBay_keeps _ _ (fun hd => hd) h

theorem dropHold_keeps (h : l.holds s) : l.holds (dropHold s) := Law.congr h rfl

theorem holdDropped_keeps (h : l.holds s) : l.holds (holdDropped s) :=
  keeps_ite (dropHold_keeps (keeps_ite (freeBay_keeps _ h) h)) h

theorem queueHold_keeps (b : Body) (h : l.holds s) : l.holds (queueHold b s) :=
  keeps_ite (queueFrame_keeps _ h) (holdDropped_keeps (queueFrame_keeps _ h))

theorem releaseHold_keeps (h : l.holds s) : l.holds (releaseHold s) :=
  keeps_ite h (dropHold_keeps (freeBay_keeps _ (keeps_ite (withdrawHolds_keeps h)
    (queueFrame_keeps _ (withdrawHolds_keeps h)))))

theorem loseHold_keeps (h : l.holds s) : l.holds (loseHold s) :=
  dropHold_keeps (withdrawHolds_keeps (raiseFault_keeps _ _ _ (closeSpout_keeps _ h)))

theorem contentionPassed_keeps (h : l.holds s) : l.holds (contentionPassed s) := Law.congr h rfl

theorem renewHold_keeps (h : l.holds s) : l.holds (renewHold s) := by
  have h1 : l.holds { s with hold := { s.hold with renewal := .running s.params.renewalPeriod } } := Law.congr h rfl
  exact keeps_ite h1 (queueHold_keeps _ (setOwnBay_keeps _ h1))

theorem holdSent_keeps (bay truck duration : Nat) (h : l.holds s) : l.holds (holdSent bay truck duration s) := by
  unfold holdSent
  refine keeps_ite h ?_
  split
  · exact Law.congr h rfl
  · exact Law.congr h rfl
  · exact queueFrame_keeps _ (keeps_ite (freeBay_keeps _ h) h)
  · exact h

theorem reassertHold_keeps (h : l.holds s) : l.holds (reassertHold s) := by
  have h1 := setOwnBay_keeps (s.hold.bay.getD 0) h
  unfold reassertHold
  dsimp only
  split
  · exact queueHold_keeps _ (Law.congr h1 rfl)
  · exact queueHold_keeps _ h1
  · exact h1

theorem contest_keeps (source : Nat) (loading : Bool) (h : l.holds s) : l.holds (contest source loading s) :=
  keeps_ite h (keeps_ite (dropHold_keeps (withdrawHolds_keeps h)) (reassertHold_keeps h))

theorem applyBayHold_keeps (bay source : Nat) {duration : Nat} (hd : duration ≤ 600) (h : l.holds s) :
    l.holds (applyBayHold bay duration source s) := by
  unfold applyBayHold
  refine keeps_ite (setBay_keeps _ _ (fun _ => hd) h) ?_
  split
  · exact keeps_ite (freeBay_keeps _ h) h
  · exact h

theorem takeBayHold_keeps (source bay truck duration loading : Nat) (h : l.holds s) :
    l.holds (takeBayHold source bay truck duration loading s) := by
  unfold takeBayHold
  split
  · exact h
  · rename_i hc
    have h1 := applyBayHold_keeps bay source (duration := duration) (by omega) h
    exact keeps_ite (contest_keeps _ _ h1) h1

theorem bayTick_keeps (h : l.holds s) : l.holds (bayTick s) := by
  have h1 : l.holds { s with bays := s.bays.map BayTimer.tick, hold := s.hold.tick } := by
    refine Law.congr (keeps_bays (bs := s.bays.map BayTimer.tick) (by simp) (fun _ hb b hm => ?_) h) rfl
    obtain ⟨x, hx, rfl⟩ := List.mem_map.1 hm
    have := hb x hx
    unfold BayTimer.tick
    split <;> dsimp only <;> omega
  exact keeps_ite (loseHold_keeps h1) h1

/-! ### The Delivery Table -/

theorem keeps_fewer_trucks (p : Truck → Bool) (h : l.holds s) : l.holds { s with trucks := s.trucks.filter p } :=
  keeps_trucks (fun _ => (List.length_filter_le _ _).trans) (List.filter_sublist.map _).nodup h

/-- Trucks change, but for their ids. -/
theorem keeps_trucks_map {f : Truck → Truck} (hf : ∀ t, (f t).truck = t.truck) (h : l.holds s) :
    l.holds { s with trucks := s.trucks.map f } := by
  refine keeps_trucks (by simp) (fun hn => ?_) h
  rwa [List.map_map, show Truck.truck ∘ f = Truck.truck from funext hf]

theorem removeTruck_keeps (truck : Nat) (h : l.holds s) : l.holds (removeTruck truck s) := by
  have h1 := keeps_fewer_trucks (fun t => decide (t.truck ≠ truck)) h
  exact keeps_ite (releaseHold_keeps (Law.congr h1 rfl)) h1

theorem testRefusal_keeps (truck number : Nat) (c : Compartment) (h : l.holds s) :
    l.holds (testRefusal truck number c s) :=
  keeps_ite (raiseFault_keeps _ _ _ (updComp_keeps _ _ _ h)) (updComp_keeps _ _ _ h)

theorem testRefusals_keeps (ps : List (Truck × Nat × Compartment)) (h : l.holds s) : l.holds (testRefusals ps s) := by
  induction ps generalizing s with
  | nil => exact h
  | cons p ps ih => exact ih (testRefusal_keeps _ _ _ h)

theorem noteMissed_keeps (ps : List (Truck × Nat × Compartment)) (h : l.holds s) : l.holds (noteMissed ps s) := by
  induction ps generalizing s with
  | nil => exact h
  | cons p ps ih => exact ih (raiseFault_keeps _ _ _ (updComp_keeps _ _ _ h))

theorem testDepartures_keeps (h : l.holds s) : l.holds (testDepartures s) := noteMissed_keeps _ h

theorem loseTarget_keeps (h : l.holds s) : l.holds (loseTarget s) := releaseHold_keeps (closeSpout_keeps _ h)

theorem replaceTruck_keeps (truck : Nat) (p : PlanFields) (h : l.holds s) : l.holds (replaceTruck truck p s) := by
  have h1 : l.holds { s with trucks := s.trucks.map (fun t => if t.truck = truck then t.replan s.params.spoutF p else t) } :=
    keeps_trucks_map (fun t => by split <;> rfl) h
  exact testDepartures_keeps (testRefusals_keeps _ (keeps_ite (loseTarget_keeps h1) h1))

theorem findTruck_none {truck : Nat} (h : (findTruck truck s).isSome = false) : truck ∉ s.trucks.map Truck.truck := by
  unfold findTruck at h
  intro hm
  obtain ⟨t, ht, rfl⟩ := List.mem_map.1 hm
  simpa using List.find?_eq_none.1 (Option.isSome_eq_false_iff.1 h |> Option.isNone_iff_eq_none.1) t ht

/-- A truck joins a table that has room and does not hold it. -/
theorem storeTruck_keeps (truck : Nat) (p : PlanFields) (hl : l = .tables → s.trucks.length < 12)
    (hn : truck ∉ s.trucks.map Truck.truck) (h : l.holds s) : l.holds (storeTruck truck p s) := by
  refine testDepartures_keeps (testRefusals_keeps _ (keeps_trucks (fun e _ => ?_) (fun hd => ?_) h))
  · have := hl e
    simp; omega
  · rw [List.map_append]
    exact List.nodup_append.2 ⟨hd, by simp, fun x hx y hy e => hn (by simp_all)⟩

theorem oldestTruck_mem {ts : List Truck} {t : Truck} (h : oldestTruck ts = some t) : t ∈ ts := by
  induction ts generalizing t with
  | nil => cases h
  | cons u us ih =>
    unfold oldestTruck at h
    split at h
    · simp_all
    · split at h <;> simp_all

theorem removeTruck_trucks (truck : Nat) (s : State) :
    (removeTruck truck s).trucks = s.trucks.filter (fun t => decide (t.truck ≠ truck)) := by
  unfold removeTruck
  dsimp only
  split
  · rw [releaseHold_only]
  · rfl

theorem addTruck_keeps (truck : Nat) (p : PlanFields) (hn : truck ∉ s.trucks.map Truck.truck) (h : l.holds s) :
    l.holds (addTruck truck p s) := by
  unfold addTruck
  split
  · rename_i hl
    exact storeTruck_keeps _ _ (fun _ => hl) hn h
  · rename_i hl
    split
    · rename_i t ht
      have hm : t ∈ s.trucks := (List.mem_filter.1 (oldestTruck_mem ht)).1
      refine storeTruck_keeps _ _ (fun e => ?_) ?_ (removeTruck_keeps _ h)
      · subst e
        have hb : s.trucks.length ≤ 12 := h.2.1
        have := List.length_filter_lt_length_iff_exists (p := fun u => decide (u.truck ≠ t.truck)).2 ⟨t, hm, by simp⟩
        rw [removeTruck_trucks]
        omega
      · rw [removeTruck_trucks]
        exact fun hx => hn ((List.filter_sublist.map _).subset hx)
    · exact raiseFault_keeps _ _ _ h

theorem takePlan_keeps (payload : List Byte) (h : l.holds s) : l.holds (takePlan payload s) := by
  unfold takePlan
  split
  · exact h
  · exact keeps_ite (removeTruck_keeps _ h) h
  · refine keeps_ite h ?_
    split
    · exact replaceTruck_keeps _ _ h
    · rename_i hf
      exact addTruck_keeps _ _ (findTruck_none (by simpa using hf)) h

theorem takeLoaded_keeps (source truck number order mass : Nat) (h : l.holds s) :
    l.holds (takeLoaded source truck number order mass s) := by
  have h1 := updComp_keeps truck number (fun c => { c with state := .loaded, mass := mass, here := false }) h
  exact keeps_ite (keeps_ite (loseTarget_keeps h1) h1) h

/-! ### Claims -/

theorem distinctCodes_nodup (cs : List Component) (h : distinctCodes cs = true) : (cs.map Component.code).Nodup := by
  induction cs with
  | nil => exact List.nodup_nil
  | cons c cs ih =>
    simp only [distinctCodes, Bool.and_eq_true, List.all_eq_true, decide_eq_true_eq] at h
    rw [List.map_cons]
    refine List.nodup_cons.2 ⟨fun hm => ?_, ih h.2⟩
    obtain ⟨d, hd, e⟩ := List.mem_map.1 hm
    exact h.1 d hd e

theorem ceilDiv_pos {a b : Nat} (ha : 0 < a) (hb : 0 < b) : 0 < ceilDiv a b :=
  Nat.div_pos (by omega) hb

theorem runMassOf_pos (allowance : Nat) {f : OfferFields} {way : Delivery} (h : f.way = some way) :
    0 < runMassOf allowance way := by
  unfold OfferFields.way at h
  split at h
  · split at h
    · rename_i hb
      obtain rfl := Option.some.inj h
      have : 0 < f.bags * f.bagSize := Nat.mul_pos (by omega) (by omega)
      exact ceilDiv_pos (Nat.mul_pos this (by omega)) (by decide)
    · cases h
  · split at h
    · split at h
      · rename_i hb
        obtain rfl := Option.some.inj h
        exact Nat.lt_of_lt_of_le (by decide) hb.1
      · cases h
    · cases h

/-- R25 to R30, as far as the tables of the book are concerned: an offer that is stored finds room, brings an id that is new
and a formula of distinct ingredients, and a run mass above 0. -/
theorem evaluateOffer_stored {f : OfferFields} {o : Order} (h : evaluateOffer f s = some o) :
    s.slots.length < 24 ∧ o.id ∉ s.slots.map Order.id ∧ (o.formula.map Component.code).Nodup ∧ 0 < o.runMass
      ∧ o.state = .claiming := by
  unfold evaluateOffer at h
  split at h
  · rename_i way form target hw _
    dsimp only at h
    split at h
    · rename_i hc
      obtain rfl := Option.some.inj h
      simp only [Bool.and_eq_true] at hc
      obtain ⟨⟨⟨⟨hrange, hfits⟩, -⟩, -⟩, -⟩ := hc
      simp only [OfferFields.inRange, formulaOk, Bool.and_eq_true] at hrange
      simp only [nodeFits, Bool.and_eq_true, Bool.not_eq_true', decide_eq_true_eq] at hfits
      obtain ⟨-, ⟨-, hd⟩, -⟩ := hrange
      obtain ⟨⟨⟨⟨⟨hl, hn⟩, -⟩, -⟩, -⟩, -⟩ := hfits
      refine ⟨hl, fun hm => ?_, distinctCodes_nodup _ hd, runMassOf_pos _ hw, rfl⟩
      obtain ⟨x, hx, e⟩ := List.mem_map.1 hm
      have hf : s.slots.find? (fun x => decide (x.id = f.order)) = none := by simpa [holdsOrder, findOrder] using hn
      have := List.find?_eq_none.1 hf x hx
      exact this (by simpa [claimingOrder] using e)
    · cases h
  · cases h

theorem takeOffer_keeps (payload : List Byte) (h : l.holds s) : l.holds (takeOffer payload s) := by
  unfold takeOffer
  split
  · rename_i o ho
    obtain ⟨hlen, hid, hf, hr, hc⟩ := evaluateOffer_stored ho
    refine queueFrame_keeps _ ?_
    cases l with
    | tables =>
      obtain ⟨h1, h2, h3, h4, h5, h6⟩ := h
      exact ⟨by simp; omega, h2, h3, h4, h5, h6⟩
    | keys =>
      obtain ⟨h1, h2, h3, h4, h5, h6⟩ := h
      refine ⟨?_, h2, h3, h4, h5, fun x hx => ?_⟩
      · rw [List.map_append]
        exact List.nodup_append.2 ⟨h1, by simp, fun x hx y hy e => hid (by simp_all)⟩
      · rcases List.mem_append.1 hx with hx | hx
        · exact h6 x hx
        · obtain rfl := List.mem_singleton.1 hx
          exact hf
    | active =>
      have hold : ∀ x ∈ s.slots ++ [o], x.state = .active → x ∈ s.slots := by
        intro x hx hxa
        refine (List.mem_append.1 hx).resolve_right (fun hx => ?_)
        obtain rfl := List.mem_singleton.1 hx
        simp [hc] at hxa
      exact fun x hx y hy hxa hya => h x (hold x hx hxa) y (hold y hy hya) hxa hya
    | records => exact h
    | figures =>
      obtain ⟨h1, h2, h3, h4, h5, h6, h7, h8, h9, h10, h11, h12, h13, h14⟩ := h
      refine ⟨h1, h2, h3, h4, h5, h6, h7, h8, h9, h10, h11, h12, fun x hx => ?_, h14⟩
      rcases List.mem_append.1 hx with hx | hx
      · exact h13 x hx
      · obtain rfl := List.mem_singleton.1 hx
        exact hr
  · exact h

theorem hearClaim_tame (c : Rival) : Order.Tame (Order.hearClaim c) := by
  intro o
  unfold Order.TameAt Order.hearClaim
  (repeat' split) <;> exact ⟨rfl, rfl, rfl, fun h => h⟩

theorem takeClaim_keeps (source order lead : Nat) (h : l.holds s) : l.holds (takeClaim source order lead s) :=
  keeps_ite h (updOrder_keeps _ ((hearClaim_tame _).ite Order.tame_id) h)

theorem meetTake_keeps (other : Rival) (started : Bool) (o : Order) (h : l.holds s) :
    l.holds (meetTake other started o s) :=
  keeps_ite (keeps_ite (freeSlot_keeps _ h) (updOrder_keeps _ (hearClaim_tame _) h))
    (keeps_ite (raiseFault_keeps _ _ _ h) (keeps_ite (queueFrame_keeps _ (freeSlot_keeps _ h)) (queueFrame_keeps _ h)))

theorem takeTake_keeps (source order lead started : Nat) (h : l.holds s) :
    l.holds (takeTake source order lead started s) := by
  unfold takeTake
  refine keeps_ite h ?_
  split
  · exact meetTake_keeps _ _ _ h
  · exact h

theorem winOrder_keeps (id : Nat) (h : l.holds s) : l.holds (winOrder id s) := by
  have h1 : l.holds { renumber s with takeCounter := (renumber s).takeCounter + 1 } := Law.congr (renumber_keeps h) rfl
  have h3 := reserveRun_keeps id (updOrder_keeps id (f := fun o => { o with
    state := .held, takeOrder := some (renumber s).takeCounter, waits := Waits.none, claimTimer := .stopped
    plan := { o.plan with n := some (splitCount o.runMass s.params.batchSize) } })
    (fun _ => ⟨rfl, rfl, rfl, nofun⟩) h1)
  unfold winOrder
  dsimp only
  split
  · exact testRefusals_keeps _ (queueFrame_keeps _ h3)
  · exact h3

theorem closeWindow_keeps (o : Order) (h : l.holds s) : l.holds (closeWindow o s) :=
  keeps_ite (winOrder_keeps _ h) (freeSlot_keeps _ h)

/-! ### The Process Train -/

theorem haltGrinder_keeps (h : l.holds s) : l.holds (haltGrinder s) :=
  keeps_train (fun _ _ => Nat.zero_le _) (fun _ h => h) (fun h => h) h

theorem haltPresser_keeps (h : l.holds s) : l.holds (haltPresser s) :=
  keeps_train (fun _ h => h) (fun _ _ => Nat.zero_le _) (fun h => h) h

theorem haltLoops_keeps (h : l.holds s) : l.holds (haltLoops s) := haltPresser_keeps (haltGrinder_keeps h)

theorem setStage_keeps (i : StageId) (r : StageRec) (h : l.holds s) : l.holds (setStage i r s) := by
  cases i <;> exact Law.congr h rfl

theorem haltStageLoop_keeps (i : StageId) (h : l.holds s) : l.holds (haltStageLoop i s) := by
  cases i
  · exact haltGrinder_keeps h
  · exact h
  · exact haltPresser_keeps h

theorem holdStage_keeps (i : StageId) (k : FaultKey) (detail : List DetailField) (h : l.holds s) :
    l.holds (holdStage i k detail s) := setStage_keeps _ _ (raiseFault_keeps _ _ _ h)

theorem unbarStage_keeps (i : StageId) (h : l.holds s) : l.holds (unbarStage i s) := by
  unfold unbarStage
  refine keeps_ite ?_ h
  split
  · exact setStage_keeps _ _ (haltStageLoop_keeps _ h)
  · exact setStage_keeps _ _ h

theorem unbarStages_keeps (h : l.holds s) : l.holds (unbarStages s) :=
  unbarStage_keeps _ (unbarStage_keeps _ (unbarStage_keeps _ h))

theorem beginGrind_keeps (h : l.holds s) : l.holds (beginGrind s) := keeps_ite (Law.congr h rfl) h

theorem completeGrind_keeps (h : l.holds s) : l.holds (completeGrind s) := haltGrinder_keeps (Law.congr h rfl)

theorem completeMix_keeps (h : l.holds s) : l.holds (completeMix s) := Law.congr h rfl

theorem openDischarge_keeps (b : Batch) (h : l.holds s) : l.holds (openDischarge b s) := by
  unfold openDischarge
  dsimp only
  split <;> exact Law.congr h rfl

theorem beginDischargeMixer_keeps (h : l.holds s) : l.holds (beginDischargeMixer s) := by
  unfold beginDischargeMixer
  split
  · exact keeps_ite (openDischarge_keeps _ h) h
  · exact h

theorem leaveFinished_keeps (h : l.holds s) : l.holds (leaveFinished s) := Law.congr h rfl

theorem retireTo_keeps (dest : Option Dest) (batch : Option Batch) (h : l.holds s) :
    l.holds (retireTo dest batch s) := by
  have h1 : l.holds (if dest = some .finished then leaveFinished s else s) := keeps_ite (leaveFinished_keeps h) h
  unfold retireTo
  dsimp only
  split
  · exact reportRetired_keeps _ _ h1
  · exact h1

theorem completeMixer_keeps (h : l.holds s) : l.holds (completeMixer s) :=
  keeps_ite (Law.congr h rfl) (retireTo_keeps _ _ (Law.congr h rfl))

theorem openPress_keeps (b : Batch) (h : l.holds s) : l.holds (openPress b s) := by
  unfold openPress
  dsimp only
  split <;> exact Law.congr h rfl

theorem beginPress_keeps (h : l.holds s) : l.holds (beginPress s) := by
  unfold beginPress
  split
  · exact keeps_ite (openPress_keeps _ h) h
  · exact h

theorem completePress_keeps (h : l.holds s) : l.holds (completePress s) :=
  retireTo_keeps _ _ (Law.congr (haltPresser_keeps h) rfl)

theorem follow_speed {held wanted : Bool} {p : LoopParams} {f : FeedLoop} (hp : p.startSpeed ≤ 1000)
    (hf : f.speed ≤ 1000) : (f.follow held wanted p).speed ≤ 1000 := by
  unfold FeedLoop.follow FeedLoop.start
  (repeat' split) <;> first | exact hf | exact hp | exact Nat.zero_le _

theorem followLoops_keeps (h : l.holds s) : l.holds (followLoops s) :=
  keeps_train follow_speed follow_speed (fun h => h) h

theorem flagStage_keeps (i : StageId) (p : Phase) (h : l.holds s) : l.holds (flagStage i p s) :=
  keeps_ite (leaveFinished_keeps (setStage_keeps _ _ h)) (setStage_keeps _ _ h)

theorem flagOrder_keeps (id : Nat) (h : l.holds s) : l.holds (flagOrder id s) := by
  have h1 : l.holds (if ofOrder id s.press.batch then flagStage .press .pressing s else s) :=
    keeps_ite (flagStage_keeps _ _ h) h
  unfold flagOrder
  dsimp only
  revert h1
  generalize (if ofOrder id s.press.batch then flagStage .press .pressing s else s) = s1
  intro h1
  have h2 : l.holds (if ofOrder id s1.mixer.batch then flagStage .mixer .discharging s1 else s1) :=
    keeps_ite (flagStage_keeps _ _ h1) h1
  revert h2
  generalize (if ofOrder id s1.mixer.batch then flagStage .mixer .discharging s1 else s1) = s2
  intro h2
  have h3 : l.holds (if ofOrder id s2.surge.batch then { s2 with surge := s2.surge.flag } else s2) :=
    keeps_ite (Law.congr h2 rfl) h2
  exact keeps_ite (reworkScale_keeps h3) h3

theorem settleReceiver_keeps (r : StageRec) (h : l.holds s) : l.holds (settleReceiver r s) := by
  unfold settleReceiver
  split
  · exact keeps_ite (Law.congr h rfl) h
  · exact keeps_ite (Law.congr h rfl) h
  · exact keeps_ite (leaveFinished_keeps h) h
  · exact h

theorem dumpStage_keeps (i : StageId) (h : l.holds s) : l.holds (dumpStage i s) := by
  have h1 := haltStageLoop_keeps i (setStage_keeps i (StageRec.busyIn .dumping (stageOf i s).flag.batch none)
    (settleReceiver_keeps (stageOf i s) h))
  exact keeps_ite (Law.congr h1 rfl) h1

theorem completeStageDump_keeps (i : StageId) (h : l.holds s) : l.holds (completeStageDump i s) :=
  retireTo_keeps _ _ (setStage_keeps _ _ h)

theorem openFinishedDump_keeps (h : l.holds s) : l.holds (openFinishedDump s) := Law.congr h rfl

theorem completeFinishedDump_keeps (h : l.holds s) : l.holds (completeFinishedDump s) := Law.congr h rfl

theorem updateFinishedMass_keeps (h : l.holds s) : l.holds (updateFinishedMass s) := by
  unfold updateFinishedMass
  split
  · exact Law.congr h rfl
  · exact h

theorem emptyFinished_keeps (h : l.holds s) : l.holds (emptyFinished s) := keeps_ite (Law.congr h rfl) h

theorem dumpEmptied_keeps (h : l.holds s) : l.holds (dumpEmptied s) := keeps_ite (completeFinishedDump_keeps h) h

theorem stopTrain_keeps (h : l.holds s) : l.holds (stopTrain s) := Law.congr (haltLoops_keeps h) rfl

theorem resumeTrain_keeps (h : l.holds s) : l.holds (resumeTrain s) :=
  keeps_train (fun _ h => h) (fun _ h => h) (fun h => by dsimp only; split <;> exact h) h

theorem condLow_keeps (h : l.holds s) : l.holds (condLow s) := by
  unfold condLow
  split
  · exact holdStage_keeps _ _ _ h
  · exact holdStage_keeps _ _ _ (Law.congr h rfl)

theorem overloadExpiry_keeps (i : LoopId) (h : l.holds s) : l.holds (overloadExpiry i s) := by
  unfold overloadExpiry
  cases i <;> exact holdStage_keeps _ _ _ (Law.congr h rfl)

/-! ### The loadout -/

theorem takeBayFor_keeps (truck number bay : Nat) (h : l.holds s) : l.holds (takeBayFor truck number bay s) :=
  keeps_ite (setOwnBay_keeps _ (Law.congr (queueFrame_keeps _ h) rfl)) (queueFrame_keeps _ h)

theorem takeBay_keeps (h : l.holds s) : l.holds (takeBay s) := by
  unfold takeBay
  refine keeps_ite ?_ h
  split
  · split
    · exact takeBayFor_keeps _ _ _ h
    · exact h
  · exact h

theorem abandonBay_keeps (h : l.holds s) : l.holds (abandonBay s) := keeps_ite (releaseHold_keeps h) h

theorem trySpout_keeps (h : l.holds s) : l.holds (trySpout s) := by
  unfold trySpout
  split
  · refine keeps_ite ?_ h
    dsimp only
    split
    · exact Law.congr (updComp_keeps _ _ (fun c => { c with state := .loading }) h) rfl
    · exact h
  · exact h

theorem writeLoaded_keeps (st : LoadStep) (w : Int) (h : l.holds s) : l.holds (writeLoaded st w s) :=
  updComp_keeps _ _ _ h

theorem loadSample_keeps (h : l.holds s) : l.holds (loadSample s) := by
  unfold loadSample
  split
  · refine keeps_ite (keeps_ite (closeSpout_keeps _ (writeLoaded_keeps _ _ h)) (keeps_ite ?_ (writeLoaded_keeps _ _ h))) h
    exact raiseFault_keeps _ _ _ (updComp_keeps _ _ _ (closeSpout_keeps _ (writeLoaded_keeps _ _ h)))
  · exact h

theorem writeFinal_keeps (st : LoadStep) (h : l.holds s) : l.holds (writeFinal st s) := by
  unfold writeFinal
  split
  · exact keeps_ite (writeLoaded_keeps _ _ h) h
  · exact h

theorem endStep_keeps (h : l.holds s) : l.holds (endStep s) := by
  unfold endStep
  split
  · rename_i st _
    have h1 : l.holds { writeFinal st s with step := none, stepTimer := .stopped } := Law.congr (writeFinal_keeps st h) rfl
    exact keeps_ite (releaseHold_keeps h1) h1
  · exact h

theorem settleStep_keeps (h : l.holds s) : l.holds (settleStep s) := keeps_ite (endStep_keeps h) h

theorem watchStep_keeps (h : l.holds s) : l.holds (watchStep s) := by
  have h1 : l.holds (if s.fin.entering then closeSpout .entering s else if permitsDrawing s then s else closeSpout .bin s) :=
    keeps_ite (closeSpout_keeps _ h) (keeps_ite h (closeSpout_keeps _ h))
  exact keeps_ite (endStep_keeps h1) h1

theorem markLoadedFor_keeps (o : Order) (h : l.holds s) : l.holds (markLoadedFor o s) := by
  unfold markLoadedFor
  refine keeps_ite ?_ h
  split
  · exact completeRun_keeps _ (queueFrame_keeps _ (updComp_keeps _ _ _ h))
  · exact h

theorem markAll_keeps (os : List Order) (h : l.holds s) : l.holds (markAll os s) := by
  induction os generalizing s with
  | nil => exact h
  | cons o os ih => exact ih (markLoadedFor_keeps o h)

theorem markLoaded_keeps (h : l.holds s) : l.holds (markLoaded s) := markAll_keeps _ h

/-! ### The Packing Unit -/

theorem setBucket_keeps (b : Bucket) (h : l.holds s) : l.holds (setBucket b s) := Law.congr h rfl

theorem updCharge_keeps (f : Charge → Charge) (h : l.holds s) : l.holds (updCharge f s) := Law.congr h rfl

theorem interruptCharge_keeps (h : l.holds s) : l.holds (interruptCharge s) := updCharge_keeps _ h

theorem emptySample_keeps (h : l.holds s) : l.holds (emptySample s) := by
  have hz : l.holds (zeroBucket s) := by
    unfold zeroBucket
    split
    · exact keeps_ite (Law.congr h rfl) h
    · exact h
  unfold emptySample
  split
  · exact keeps_ite (Law.congr h rfl) hz
  · exact hz

theorem adaptBagger_keeps (c : Charge) (h : l.holds s) : l.holds (adaptBagger c s) := by
  unfold adaptBagger
  split
  · exact keeps_bagger (fun _ => adapt_le _ _ _ _) h
  · exact h

theorem acceptCharge_keeps (c : Charge) (h : l.holds s) : l.holds (acceptCharge c s) :=
  setBucket_keeps _ (adaptBagger_keeps c h)

theorem rejectCharge_keeps (c : Charge) (detail : List DetailField) (h : l.holds s) :
    l.holds (rejectCharge c detail s) :=
  raiseFault_keeps _ _ _ (setBucket_keeps _ (updCharge_keeps _ (adaptBagger_keeps c h)))

theorem judgeCharge_keeps (first : Bool) (g : Int) (c : Charge) (h : l.holds s) : l.holds (judgeCharge first g c s) := by
  have h1 : l.holds (if first then updCharge (fun x => { x with e1 := some (g - c.target) }) s else s) :=
    keeps_ite (updCharge_keeps _ h) h
  unfold judgeCharge
  dsimp only
  split
  · exact acceptCharge_keeps _ h1
  · exact rejectCharge_keeps _ _ h1
  · exact keeps_ite (setBucket_keeps _ (updCharge_keeps _ h1)) (rejectCharge_keeps _ _ h1)

theorem settleCharge_keeps (p : BucketPurpose) (g : Int) (c : Charge) (h : l.holds s) :
    l.holds (settleCharge p g c s) := by
  unfold settleCharge resumeCharge
  split
  · exact keeps_ite (judgeCharge_keeps _ _ _ h) h
  · exact keeps_ite (judgeCharge_keeps _ _ _ h) h
  · exact keeps_ite (keeps_ite (judgeCharge_keeps _ _ _ h) (setBucket_keeps _ h)) h

theorem fillSample_keeps (fast : Bool) (g : Int) (c : Charge) (h : l.holds s) : l.holds (fillSample fast g c s) :=
  keeps_ite (setBucket_keeps _ h) (keeps_ite (setBucket_keeps _ h) h)

theorem beginClearance_keeps (mode : BaggerMode) (id : Nat) (h : l.holds s) : l.holds (beginClearance mode id s) := by
  have h1 : l.holds (openFinishedDump { s with bagger := { s.bagger with mode := mode } }) := Law.congr h rfl
  exact keeps_ite (raiseFault_keeps _ _ _ h1) h1

theorem completeBagged_keeps (id : Nat) (h : l.holds s) : l.holds (completeBagged id s) :=
  keeps_ite (beginClearance_keeps _ _ (completeRun_keeps _ (flagOrder_keeps _ h))) (completeRun_keeps _ (flagOrder_keeps _ h))

theorem countBag_keeps (id : Nat) (h : l.holds s) : l.holds (countBag id s) := by
  have h1 := updOrder_keeps id (f := fun o => { o with plan := { o.plan with bags := o.plan.bags + 1 } })
    (fun _ => ⟨rfl, rfl, rfl, fun h => h⟩) h
  unfold countBag
  split
  · exact keeps_ite (keeps_ite (completeBagged_keeps _ h1) h1) h
  · exact h

theorem emptyBucket_keeps (h : l.holds s) : l.holds (emptyBucket s) := Law.congr h rfl

theorem completeBucket_keeps (h : l.holds s) : l.holds (completeBucket s) := by
  unfold completeBucket
  split
  · exact keeps_ite (countBag_keeps _ (Law.congr h rfl)) (emptyBucket_keeps h)
  · exact emptyBucket_keeps h

theorem bucketStep_keeps (h : l.holds s) : l.holds (bucketStep s) := by
  unfold bucketStep
  (repeat' split) <;> first
    | exact h
    | exact emptySample_keeps h
    | exact fillSample_keeps _ _ _ h
    | exact settleCharge_keeps _ _ _ h
    | exact completeBucket_keeps h

theorem bucketTimeout_keeps (h : l.holds s) : l.holds (bucketTimeout s) := by
  unfold bucketTimeout
  split
  · exact rejectCharge_keeps _ _ (interruptCharge_keeps h)
  · exact h

theorem watchPermission_keeps (h : l.holds s) : l.holds (watchPermission s) := by
  unfold watchPermission
  refine keeps_ite h ?_
  split
  · exact setBucket_keeps _ (interruptCharge_keeps h)
  · exact setBucket_keeps _ (interruptCharge_keeps h)
  · exact rejectCharge_keeps _ _ h
  · exact h

theorem beginBaggerPulse_keeps (h : l.holds s) : l.holds (beginBaggerPulse s) := keeps_ite (setBucket_keeps _ h) h

theorem beginBucketDischarge_keeps (h : l.holds s) : l.holds (beginBucketDischarge s) := by
  unfold beginBucketDischarge
  (repeat' split) <;> first | exact h | exact Law.congr h rfl

theorem clampChanged_keeps (present : Bool) (h : l.holds s) : l.holds (clampChanged present s) := by
  have hl : l.holds (loseBag s) := by
    have h1 : l.holds { s with bagger := { s.bagger with spout := .vacant, bucket := .charged } } := Law.congr h rfl
    unfold loseBag
    dsimp only
    split
    · exact raiseFault_keeps _ _ _ (updCharge_keeps _ h1)
    · exact h1
  unfold clampChanged
  split <;> first | exact hl | exact h | exact Law.congr h rfl

theorem voidCharge_keeps (id : Nat) (h : l.holds s) : l.holds (voidCharge id s) := by
  unfold voidCharge
  split
  · exact keeps_ite (setBucket_keeps _ (updCharge_keeps _ h)) h
  · exact h

theorem beginRemainder_keeps (h : l.holds s) : l.holds (beginRemainder s) := keeps_ite (beginClearance_keeps _ _ h) h

/-- R12: a make-up leaves the order HELD, or makes it the one ACTIVE order. -/
theorem makeUpFor_keeps (o : Order) (h : l.holds s) : l.holds (makeUpFor o s) := by
  unfold makeUpFor
  refine keeps_ite ?_ h
  dsimp only
  by_cases ha : noOtherActive o.id s = true
  · refine updOrder_keeps_alone _ (fun _ => ⟨rfl, rfl, rfl⟩) (fun x hx hxa => ?_) h
    simpa [hxa] using List.all_eq_true.1 ha x hx
  · refine keeps_slots_map (fun x _ => ?_) h
    unfold Order.TameAt
    dsimp only
    split
    · rename_i he
      exact ⟨rfl, rfl, rfl, fun hc => by simp [he, ha] at hc⟩
    · exact ⟨rfl, rfl, rfl, fun hc => hc⟩

theorem makeUpAll_keeps (os : List Order) (h : l.holds s) : l.holds (makeUpAll os s) := by
  induction os generalizing s with
  | nil => exact h
  | cons o os ih => exact ih (makeUpFor_keeps o h)

theorem makeUps_keeps (h : l.holds s) : l.holds (makeUps s) := makeUpAll_keeps _ h

theorem stopBagger_keeps (h : l.holds s) : l.holds (stopBagger s) := by
  unfold stopBagger
  split <;> first | exact h | exact setBucket_keeps _ (interruptCharge_keeps h)

end Sys2Proof.Machine
end

