-- ==== Sys2Proof/Proofs/Kept3.lean ====
section
/-! SUPPORT. The invariants of Invariants.lean are kept by the close of an event, the Bus Port, Line Control, the samples and
the starts; then by every command and every step. -/
namespace Sys2Proof.Machine

variable {l : Law} {s : State}

/-! ### The close of an event -/

theorem timers_keeps (h : l.holds s) : l.holds (timers s) := Law.congr h rfl

theorem endCancelled_keeps (o : Order) (h : l.holds s) : l.holds (endCancelled o s) :=
  keeps_ite (freeSlot_keeps _ (queueNotice_keeps _ h)) h

theorem endAllCancelled_keeps (os : List Order) (h : l.holds s) : l.holds (endAllCancelled os s) := by
  induction os generalizing s with
  | nil => exact h
  | cons o os ih => exact ih (endCancelled_keeps o h)

theorem freeCancelled_keeps (h : l.holds s) : l.holds (freeCancelled s) := endAllCancelled_keeps _ h

theorem setLine_keeps (st : LineState) (cause : LineCause) (h : l.holds s) : l.holds (setLine st cause s) :=
  queueNotice_keeps _ (Law.congr h rfl)

theorem pauseReports_keeps (h : l.holds s) : l.holds (pauseReports s) := by
  unfold pauseReports
  dsimp only
  (repeat' split) <;> first | exact setLine_keeps _ _ (Law.congr h rfl) | exact Law.congr h rfl

theorem reannounce_keeps (h : l.holds s) : l.holds (reannounce s) := by
  unfold reannounce
  dsimp only
  (repeat' split) <;> first | exact queueFrame_keeps _ (Law.congr h rfl) | exact Law.congr h rfl

/-- The outputs of the channels are no figure of an invariant. -/
theorem keeps_outputs (g : Channel → FeedRate) (h : l.holds s) :
    l.holds { s with channels := s.channels.map (fun c => { c with output := g c }) } :=
  keeps_channels (by simp [Function.comp_def])
    (fun hc c hm => by obtain ⟨x, hx, rfl⟩ := List.mem_map.1 hm; exact hc x hx) h

theorem drive_keeps (h : l.holds s) : l.holds (drive s) := by
  unfold drive
  dsimp only
  split
  · exact Law.congr (keeps_outputs (channelOutput s) h) rfl
  · split
    · exact Law.congr (keeps_outputs (fun _ => .off) h) rfl
    · split <;> exact Law.congr h rfl

theorem passLine_keeps (h : l.holds s) : l.holds (passLine s) :=
  beginDischarge_keeps (beginGrind_keeps (beginDischargeMixer_keeps (beginPress_keeps (beginBaggerPulse_keeps
    (beginJogPulse_keeps (watchPermission_keeps (unbarStages_keeps h)))))))

theorem passBook_keeps (h : l.holds s) : l.holds (passBook s) :=
  beginRemainder_keeps (beginBucketDischarge_keeps (admissionAttempt_keeps (makeUps_keeps (markLoaded_keeps
    (freeCancelled_keeps (watchStep_keeps h))))))

theorem pass_keeps (h : l.holds s) : l.holds (pass s) := followLoops_keeps (passBook_keeps (passLine_keeps h))

theorem rounds_keeps (h : l.holds s) : l.holds (rounds s) := pass_keeps (pass_keeps (pass_keeps h))

theorem close_keeps (h : l.holds s) : l.holds (close s) := by
  unfold close
  exact drive_keeps (reannounce_keeps (timers_keeps (pauseReports_keeps (takeBay_keeps (abandonBay_keeps
    (rounds_keeps h))))))

/-! ### The Bus Port -/

theorem endListening_keeps (h : l.holds s) : l.holds (endListening s) :=
  keeps_ite (queueFrame_keeps _ (Law.congr h rfl)) h

theorem ownSource_keeps (f : RawFrame) (h : l.holds s) : l.holds (ownSource f s) :=
  keeps_ite (Law.congr h rfl) (keeps_ite (Law.congr h rfl) (raiseFault_keeps _ _ _ (Law.congr h rfl)))

theorem offerInbound_keeps (f : RawFrame) (h : l.holds s) : l.holds (offerInbound f s) := by
  unfold offerInbound
  split
  · refine keeps_inbound (fun _ => ?_) h
    rw [List.length_append, List.length_singleton]
    omega
  · exact raiseFault_keeps _ _ _ h

theorem takeValid_keeps (f : RawFrame) (h : l.holds s) : l.holds (takeValid f s) :=
  keeps_ite (ownSource_keeps _ h) (keeps_ite (Law.congr h rfl) (offerInbound_keeps _ (Law.congr h rfl)))

theorem frameComplete_keeps (f : RawFrame) (h : l.holds s) : l.holds (frameComplete f s) :=
  keeps_ite (takeValid_keeps _ (endListening_keeps (Law.congr h rfl))) (Law.congr h rfl)

theorem appendCharacter_keeps (bytes : List Byte) (b : Byte) (h : l.holds s) : l.holds (appendCharacter bytes b s) := by
  unfold appendCharacter
  dsimp only
  split
  · exact Law.congr h rfl
  · split
    · exact frameComplete_keeps _ h
    · exact Law.congr h rfl

theorem goodCharacter_keeps (header : Bool) (b : Byte) (h : l.holds s) : l.holds (goodCharacter header b s) := by
  unfold goodCharacter
  split
  · exact Law.congr h rfl
  · split
    · exact h
    · exact appendCharacter_keeps _ _ h

theorem receiveCharacter_keeps (samples : BitVec 36) (h : l.holds s) : l.holds (receiveCharacter samples s) := by
  unfold receiveCharacter
  dsimp only
  split
  · exact Law.congr h rfl
  · exact Law.congr h rfl
  · exact Law.congr h rfl
  · exact goodCharacter_keeps _ _ (Law.congr h rfl)

theorem markFirst_length (cls : Nat) (q : List OutEntry) : (markFirst cls q).length = q.length := by
  induction q with
  | nil => rfl
  | cons e es ih =>
    unfold markFirst
    split <;> simp [ih]

theorem attempt_keeps (idle : Nat) (h : l.holds s) : l.holds (attempt idle s) := by
  unfold attempt
  dsimp only
  split
  · exact Law.congr h rfl
  · rename_i e _
    have h1 : l.holds { s with tx := markFirst e.body.cls s.tx } :=
      keeps_tx (fun hs => (markFirst_length e.body.cls s.tx).trans_le hs) h
    exact keeps_ite (Law.congr h1 rfl) (Law.congr h rfl)

theorem keeps_sent (h : l.holds s) : l.holds { s with tx := withoutUnderWay s.tx } :=
  keeps_tx (List.length_filter_le _ _).trans h

theorem reportDropped_keeps (b : Body) (h : l.holds s) : l.holds (reportDropped b s) := by
  unfold reportDropped
  split
  · exact keeps_ite (holdDropped_keeps h) h
  · exact h

theorem reportSent_keeps (b : Body) (h : l.holds s) : l.holds (reportSent b s) := by
  unfold reportSent
  split
  · exact holdSent_keeps _ _ _ h
  · exact h

theorem loseAttempt_keeps (h : l.holds s) : l.holds (loseAttempt s) := by
  unfold loseAttempt
  dsimp only
  split
  · exact h
  · split
    · exact reportDropped_keeps _ (raiseFault_keeps _ _ _ (Law.congr (keeps_sent h) rfl))
    · exact Law.congr (keeps_tx (t := countLoss s.tx) (fun hs => by simpa [countLoss] using hs) h) rfl

theorem completeAttempt_keeps (h : l.holds s) : l.holds (completeAttempt s) := by
  unfold completeAttempt
  dsimp only
  split
  · exact h
  · exact reportSent_keeps _ (Law.congr (keeps_sent h) rfl)

theorem advanceClock_le {t : Nat} (h : t ≤ 86399) : advanceClock t ≤ 86399 := by
  unfold advanceClock
  split <;> omega

theorem secondTick_keeps (h : l.holds s) : l.holds (secondTick s) := by
  have h1 : l.holds (ageBinView { s with millTime := s.millTime.map advanceClock }) := by
    refine ageBinView_keeps (keeps_millTime (fun hm t ht => ?_) h)
    obtain ⟨x, hx, rfl⟩ := Option.map_eq_some_iff.1 ht
    exact advanceClock_le (hm x hx)
  exact keeps_ite (testDepartures_keeps h1) h1

theorem takeTime_keeps (t : Nat) (h : l.holds s) : l.holds (takeTime t s) := by
  unfold takeTime
  split
  · rename_i ht
    exact testDepartures_keeps (keeps_millTime (fun _ x hx => Option.some.inj hx ▸ ht) h)
  · exact h

/-! ### Line Control and the requests of the office terminal -/

theorem pauseLine_keeps (h : l.holds s) : l.holds (pauseLine s) :=
  keeps_ite (closeSpout_keeps _ (haltLoops_keeps (setLine_keeps _ _ (Law.congr h rfl)))) h

theorem resumeLine_keeps (h : l.holds s) : l.holds (resumeLine s) :=
  keeps_ite h (keeps_ite (resumeTrain_keeps (setLine_keeps _ _ (Law.congr h rfl))) (raiseFault_keeps _ _ _ h))

theorem stopLine_keeps (h : l.holds s) : l.holds (stopLine s) := by
  have h1 : l.holds { s with inputs := { s.inputs with stopLine := true }, reports := Reports.blank } := Law.congr h rfl
  exact closeSpout_keeps _ (stopBagger_keeps (stopTrain_keeps (stopDosing_keeps (keeps_ite h1 (setLine_keeps _ _ h1)))))

theorem releaseLine_keeps (h : l.holds s) : l.holds (releaseLine s) := setLine_keeps _ _ (Law.congr h rfl)

/-- The acknowledgement of fault records is no figure of an invariant. -/
theorem keeps_acks (keys : List FaultKey) (h : l.holds s) :
    l.holds { s with faults := s.faults.map (fun r => if keys.contains r.key then { r with acked := true } else r) } := by
  have hf : (s.faults.map (fun r => if keys.contains r.key then { r with acked := true } else r)).map
      (fun r => (r.key, r.count)) = s.faults.map (fun r => (r.key, r.count)) := by
    rw [List.map_map]
    refine List.map_congr_left (fun r _ => ?_)
    simp only [Function.comp]
    split <;> rfl
  exact Law.congr h (congrArg (fun f => { s.vital with faults := f }) hf)

theorem acknowledge_keeps (keys : List FaultKey) (idle : Bool) (h : l.holds s) : l.holds (acknowledge keys idle s) := by
  have h1 := ackDosing_keeps (freshlyAcked keys s) (keeps_acks keys h)
  exact keeps_ite (Law.congr h1 rfl) h1

theorem relevel_tame (level group : Nat) : Order.Tame (Order.relevel level group) := by
  refine fun o => ⟨rfl, rfl, rfl, fun h => ?_⟩
  simp only [Order.relevel] at h
  split at h
  · cases h
  · exact h

theorem takeRelevel_keeps (id level group : Nat) (h : l.holds s) : l.holds (takeRelevel id level group s) :=
  keeps_ite h (updOrder_keeps _ (Order.tame_id.ite (relevel_tame level group)) h)

theorem cancel_tame : Order.Tame Order.cancel := by
  refine fun o => ⟨rfl, rfl, rfl, fun h => ?_⟩
  simp only [Order.cancel] at h
  split at h
  · cases h
  · exact h

theorem cancelOnLine_keeps (id : Nat) (h : l.holds s) : l.holds (cancelOnLine id s) := by
  have h1 := flagOrder_keeps id (updOrder_keeps id cancel_tame (releaseReservations_keeps id h))
  exact keeps_ite (Law.congr h1 rfl) h1

theorem cancelClear_keeps (o : Order) (h : l.holds s) : l.holds (cancelClear o s) :=
  freeSlot_keeps _ (queueNotice_keeps _ (releaseReservations_keeps _ h))

theorem takeCancel_keeps (id : Nat) (h : l.holds s) : l.holds (takeCancel id s) := by
  have h1 := voidCharge_keeps id h
  unfold takeCancel
  split
  · exact h
  · exact keeps_ite h (keeps_ite (freeSlot_keeps _ h1) (keeps_ite (cancelOnLine_keeps _ h1) (cancelClear_keeps _ h1)))

theorem takeIntake_keeps (bin code mass : Nat) (h : l.holds s) : l.holds (takeIntake bin code mass s) :=
  keeps_ite (updBin_keeps _ (fun _ => rfl) h) h

theorem takeLevel_keeps (source : Nat) (p : List Byte) (h : l.holds s) : l.holds (takeLevel source p s) :=
  keeps_ite (applyLevel_keeps _ _ _ _ h) h

theorem cutBins_keeps (before : State) (bins : List Nat) (h : l.holds s) : l.holds (cutBins before bins s) := by
  induction bins generalizing s with
  | nil => exact h
  | cons b bs ih => exact ih (keeps_ite (quarantineNotice_keeps b h) h)

theorem takeQuarantine_keeps (pairs : List (Nat × Nat)) (h : l.holds s) : l.holds (takeQuarantine pairs s) :=
  cutBins_keeps _ _ (quarantinePairs_keeps _ h)

theorem takeDrawNotice_keeps (source : Nat) (p : List Byte) (h : l.holds s) : l.holds (takeDrawNotice source p s) :=
  keeps_ite h (keeps_peers (noticePairs_length _ _ _ _) h)

theorem takeDrawReport_keeps (source batch bin actual : Nat) (h : l.holds s) :
    l.holds (takeDrawReport source batch bin actual s) :=
  keeps_ite h (applyDrawReport_keeps _ _ _ _ h)

theorem takeHello_keeps (source : Nat) (h : l.holds s) : l.holds (takeHello source s) :=
  keeps_ite h (applyHello_keeps _ h)

theorem readLevel_keeps (k reading : Nat) (h : l.holds s) : l.holds (readLevel k reading s) := by
  unfold readLevel
  split
  · exact h
  · exact keeps_ite h (keeps_ite (applyLevel_keeps _ _ _ _ (queueFrame_keeps _ (Law.congr h rfl))) h)

/-! ### Samples, expiries, inputs -/

theorem scaleSample_keeps (count : BitVec 24) (h : l.holds s) : l.holds (scaleSample count s) :=
  weighSample_keeps (overloadCheck_keeps (Law.congr h rfl))

theorem bucketSample_keeps (count : BitVec 24) (h : l.holds s) : l.holds (bucketSample count s) :=
  bucketStep_keeps (Law.congr h rfl)

theorem finishedStep_keeps (h : l.holds s) : l.holds (finishedStep s) :=
  trySpout_keeps (dumpEmptied_keeps (emptyFinished_keeps (loadSample_keeps (settleStep_keeps h))))

theorem finishedSample_keeps (count : BitVec 24) (h : l.holds s) : l.holds (finishedSample count s) := by
  have h1 : l.holds { s with finConv := s.finConv.sample s.params.stableBand count.toInt } := Law.congr h rfl
  exact keeps_ite (finishedStep_keeps (updateFinishedMass_keeps h1)) h1

theorem sample_speed {p : LoopParams} {f : FeedLoop} (i : Nat) (hp : p.startSpeed ≤ 1000) (hf : f.speed ≤ 1000) :
    (f.sample p i).speed ≤ 1000 := by
  unfold FeedLoop.sample
  split
  · exact hf
  · split
    · exact Nat.zero_le _
    · exact loopFigure_le _ _ _
  · split
    · exact hp
    · exact hf

theorem currentSample_keeps (loop : LoopId) (i : BitVec 12) (h : l.holds s) : l.holds (currentSample loop i s) := by
  cases loop
  · exact keeps_train (sample_speed _) (fun _ hs => hs) (fun hs => hs) h
  · exact keeps_train (fun _ hs => hs) (sample_speed _) (fun hs => hs) h

theorem temperatureSample_keeps (t : BitVec 16) (h : l.holds s) : l.holds (temperatureSample t s) := by
  refine keeps_train (fun _ hs => hs) (fun _ hs => hs) (fun hs => ?_) h
  simp only [Steam.sample]
  split
  · exact loopFigure_le _ _ _
  · exact hs

theorem toggleLamp_keeps (lamp : LampId) (h : l.holds s) : l.holds (toggleLamp lamp s) := by
  cases lamp <;> exact Law.congr h rfl

theorem windowExpiry_keeps (order : Nat) (h : l.holds s) :
    l.holds (match findOrder order s with | some o => closeWindow o s | none => s) := by
  split
  · exact closeWindow_keeps _ h
  · exact h

/-! ### Starts -/

theorem loadChannels_number (p : Params) (hp : p.channels.length = 12) :
    (loadChannels p.channels).map Channel.number = (List.range 12).map (fun k => k + 1) := by
  refine List.ext_getElem (by simp [loadChannels, hp]) (fun i _ _ => ?_)
  simp [loadChannels]

/-- What a memory that R204 accepts says of the figures. -/
theorem memoryGood_figures {m : List Byte} (h : memoryGood m = true) :
    (∀ c ∈ (readParams m).channels, c.initial ≤ c.fMax) ∧ (readParams m).baggerInitial ≤ (readParams m).baggerFMax
      ∧ (readParams m).grinder.startSpeed ≤ 1000 ∧ (readParams m).press.startSpeed ≤ 1000
      ∧ (readParams m).holdDuration ≤ 600 ∧ (∀ e ∈ rawMatrix m, e ≤ 2) ∧ 0 < (readParams m).batchSize := by
  simp only [memoryGood, lineOk, binsOk, trainOk, packingOk, loopOk, between, channelOk, Bool.and_eq_true,
    decide_eq_true_eq, List.all_eq_true] at h
  obtain ⟨⟨⟨⟨⟨-, hm⟩, hl⟩, hb⟩, ht⟩, hp⟩ := h
  refine ⟨fun c hc => ?_, ?_, ?_, ?_, ?_, hm, ?_⟩
  · have := hb.1.1.1.1.1.1 c hc; exact this.2
  all_goals omega

theorem forceMatrix_le {m : List Nat} (h : ∀ e ∈ m, e ≤ 2) : ∀ e ∈ forceMatrix m, e ≤ 2 := by
  intro e he
  obtain ⟨⟨x, i⟩, hx, rfl⟩ := List.mem_map.1 he
  dsimp only
  split
  · exact Nat.zero_le _
  · exact h x (List.mem_of_getElem? (List.mem_zipIdx_iff_getElem?.1 hx))

/-- A node with blank tables, with no bay held and every loop at rest. -/
theorem holds_faulted (f : StartFault) (t : Straps) (s : State) : l.holds (faultedState f t s) := by
  cases l with
  | tables => simp [Law.holds, TablesBounded, faultedState, State.reset, Receiver.blank]
  | keys => simp [Law.holds, KeysDistinct, faultedState, State.reset, Scale.blank, dosesOf]
  | active => simp [Law.holds, OneActive, faultedState, State.reset]
  | records => simp [Law.holds, RecordsWhole, faultedState, State.reset, BinEntry.blank, Channel.blank, Function.comp_def]
  | figures =>
    simp [Law.holds, FiguresWithin, faultedState, State.reset, Channel.blank, Bagger.blank, Params.blank, Train.blank,
      BayTimer.blank, Steam.blank, LoopParams.blank, FeedLoop.blank]

theorem holds_started (t : Straps) {m : List Byte} (inputs : Inputs) (s : State) (hm : memoryGood m = true) :
    l.holds (startedState t (readParams m) inputs s) := by
  cases l with
  | tables => simp [Law.holds, TablesBounded, startedState, State.reset, Receiver.blank]
  | keys => simp [Law.holds, KeysDistinct, startedState, State.reset, Scale.blank, dosesOf]
  | active => simp [Law.holds, OneActive, startedState, State.reset]
  | records =>
    refine ⟨by simp [startedState, BinEntry.blank, Function.comp_def], ?_, by simp [startedState, State.reset]⟩
    exact loadChannels_number _ (by simp [readParams])
  | figures =>
    obtain ⟨hc, hbag, hg, hp, hd, hx, hb⟩ := memoryGood_figures hm
    refine ⟨fun c hcm => ?_, hbag, Nat.zero_le _, Nat.zero_le _, Nat.zero_le _, hg, hp, hd, ?_, ?_, forceMatrix_le hx, ?_, ?_,
      fun _ => hb⟩
    · obtain ⟨⟨x, i⟩, hxi, rfl⟩ := List.mem_map.1 hcm
      exact hc x (List.mem_of_getElem? (List.mem_zipIdx_iff_getElem?.1 hxi))
    all_goals simp [startedState, State.reset, BayTimer.blank]

theorem startFault_none {t : Straps} {m : List Byte} (h : startFault t m = none) : memoryGood m = true := by
  unfold startFault at h
  by_contra hm
  rw [Bool.not_eq_true] at hm
  rw [hm] at h
  (repeat' split at h) <;> simp_all

theorem powerOn_keeps (pins : BitVec 11) (memory : List Byte) (inputs : Inputs) (s : State) :
    l.holds (powerOn pins memory inputs s) := by
  unfold powerOn
  dsimp only
  split
  · exact holds_faulted _ _ _
  · rename_i hf
    exact queueNotice_keeps _ (holds_started _ _ _ (startFault_none hf))

theorem warmBins_keeps (h : l.holds s) : l.holds (warmBins s) :=
  Law.congr (keeps_bins_map (f := fun e => if (drawnBins s).contains e.bin then { e with uncertain := true } else e)
    (fun e => by split <;> rfl) h) rfl

theorem freeAll_keeps (os : List Order) (h : l.holds s) : l.holds (freeAll os s) := by
  induction os generalizing s with
  | nil => exact h
  | cons o os ih => exact ih (freeSlot_keeps _ h)

theorem warmOrders_keeps (lost : List Batch) (h : l.holds s) : l.holds (warmOrders lost s) :=
  Law.congr (keeps_slots_map (f := Order.warm lost) (fun _ _ => ⟨rfl, rfl, rfl, nofun⟩)
    (freeAll_keeps (s.slots.filter Order.dropped) h)) rfl

theorem warmScale_keeps (h : l.holds s) : l.holds (warmScale s) := by
  have h1 := keeps_scale (c := { Scale.blank with state := if scaleUnknown s then .unknown else .idle })
    (fun _ => by simp [dosesOf, Scale.blank]) (keeps_outputs (fun _ => .off) h)
  exact Law.congr h1 rfl

theorem warmTrain_keeps (h : l.holds s) : l.holds (warmTrain s) := by
  have h1 := keeps_train (t := { Train.blank with steam := { Steam.blank with target := s.train.steam.target } })
    (fun _ _ => Nat.zero_le _) (fun _ _ => Nat.zero_le _) (fun _ => Nat.zero_le _) h
  exact Law.congr h1 rfl

theorem warmBagger_keeps (inputs : Inputs) (h : l.holds s) : l.holds (warmBagger inputs s) := Law.congr h rfl

theorem warmLoadout_keeps (h : l.holds s) : l.holds (warmLoadout s) := by
  refine Law.congr (keeps_bays (bs := s.bays.map (BayTimer.warm s.straps.node)) (by simp) (fun _ hb b hm => ?_) h) rfl
  obtain ⟨x, hx, rfl⟩ := List.mem_map.1 hm
  unfold BayTimer.warm
  split
  · exact Nat.zero_le _
  · exact hb x hx

theorem raiseUnaccounted_keeps (lost : List Batch) (charge step : Bool) (h : l.holds s) :
    l.holds (raiseUnaccounted lost charge step s) := keeps_ite (raiseFault_keeps _ _ _ h) h

theorem warmPort_keeps (h : l.holds s) : l.holds (warmPort s) :=
  keeps_inbound (r := { Receiver.blank with listening := true, resetKind := .warm }) (fun _ => Nat.zero_le _)
    (keeps_tx (t := []) (fun _ => Nat.zero_le _) h)

theorem warmReset_keeps (inputs : Inputs) (h : l.holds s) : l.holds (warmReset inputs s) := by
  have h1 : l.holds (warmPort { s with resetPin := false, lamps := Lamps.blank }) := warmPort_keeps (Law.congr h rfl)
  have h2 := warmLoadout_keeps (warmBagger_keeps inputs (warmTrain_keeps (warmScale_keeps (warmOrders_keeps (pipeline s)
    (warmBins_keeps h1)))))
  exact queueNotice_keeps _ (Law.congr (raiseUnaccounted_keeps (pipeline s) (losesCharge s) s.step.isSome h2) rfl)

end Sys2Proof.Machine
end

