-- ==== Sys2Proof/Proofs/StepsKeep.lean ====
section
/-! SUPPORT. O56 to O58: every command, so every step, keeps each of the invariants. -/
namespace Sys2Proof.Machine

variable {l : Law}

theorem keeps_pending (s : State) (q : List Instr) (h : l.holds s) : l.holds { s with pending := q } := Law.congr h rfl

theorem keeps_fewer_inbound (s : State) (q : List RawFrame) (hq : q.length ≤ s.rx.inbound.length) (h : l.holds s) :
    l.holds { s with rx := { s.rx with inbound := q } } := keeps_inbound (fun hs => hq.trans hs) h

theorem event_keeps {guard : Bool} {f : State → State} {s t : State} (hs : l.holds s) (h : event guard f s = .next t)
    (hf : ∀ u, l.holds u → l.holds (f u)) : l.holds t :=
  event_preserves (P := l.holds) keeps_pending (fun _ => close_keeps) (hf s) hs h

/-- An effect that the invariants do not read. -/
theorem event_keeps_still {guard : Bool} {f : State → State} {s t : State} (hs : l.holds s)
    (h : event guard f s = .next t) (hf : ∀ u, (f u).vital = u.vital) : l.holds t :=
  event_keeps hs h (fun u hu => Law.congr hu (hf u))

theorem frameEvent_keeps {block : Block} {kind : Nat} {f : RawFrame → State → State} {s t : State} (hs : l.holds s)
    (h : frameEvent block kind f s = .next t) (hf : ∀ fr u, l.holds u → l.holds (f fr u)) : l.holds t :=
  frameEvent_preserves (P := l.holds) keeps_pending (fun _ => close_keeps) keeps_fewer_inbound hf hs h

theorem requestEvent_keeps {origin : Origin} {want : RawFrame → Bool} {f : RawFrame → State → State}
    {g : State → State} {s t : State} (hs : l.holds s) (h : requestEvent origin want f g s = .next t)
    (hf : ∀ fr u, l.holds u → l.holds (f fr u)) (hg : ∀ u, l.holds u → l.holds (g u)) : l.holds t :=
  requestEvent_preserves (P := l.holds) keeps_pending (fun _ => close_keeps) keeps_fewer_inbound hf hg hs h

theorem lineEvent_keeps {origin : Origin} {request : Nat} {f : State → State} {s t : State} (hs : l.holds s)
    (h : lineEvent origin request f s = .next t) (hf : ∀ u, l.holds u → l.holds (f u)) : l.holds t :=
  requestEvent_keeps hs h (fun _ u hu => keeps_ite hu (hf u hu)) hf

/-- The lamp's phase changes at an event, or alone at a start-up fault. -/
theorem execFlashTimerExpiry_keeps (lamp : LampId) {s t : State} (hs : l.holds s)
    (h : execFlashTimerExpiry lamp s = .next t) : l.holds t := by
  unfold execFlashTimerExpiry at h
  split at h
  · exact event_keeps hs h (fun _ => toggleLamp_keeps _)
  · split at h
    · injection h with h
      exact h ▸ drive_keeps (toggleLamp_keeps _ hs)
    · injection h with h
      exact h ▸ hs

theorem execWarmReset_keeps (inputs : Inputs) {s t : State} (hs : l.holds s)
    (h : execWarmReset inputs s = .next t) : l.holds t := by
  unfold execWarmReset at h
  split at h
  · injection h with h
    exact h ▸ keeps_pending _ _ (close_keeps (warmReset_keeps inputs hs))
  · injection h with h
    exact h ▸ hs

theorem exec_keeps (c : Instr) {s t : State} (hs : l.holds s) (h : exec c s = .next t) : l.holds t := by
  cases c with
  | powerOn pins memory inputs =>
    injection h with h
    exact h ▸ drive_keeps (powerOn_keeps _ _ _ _)
  | resetAssert =>
    injection h with h
    exact h ▸ drive_keeps (Law.congr hs rfl)
  | warmReset inputs => exact execWarmReset_keeps _ hs h
  | listeningEnd =>
    unfold exec execListeningEnd at h
    exact event_keeps hs h (fun _ hu => endListening_keeps (Law.congr hu rfl))
  | frameReceived f => exact event_keeps hs h (fun _ => frameComplete_keeps _)
  | characterReceived samples => exact event_keeps hs h (fun _ => receiveCharacter_keeps _)
  | transmitAttempt idle => exact event_keeps hs h (fun _ => attempt_keeps _)
  | attemptLost => exact event_keeps hs h (fun _ => loseAttempt_keeps)
  | attemptComplete => exact event_keeps hs h (fun _ => completeAttempt_keeps)
  | time => exact frameEvent_keeps hs h (fun _ _ => takeTime_keeps _)
  | offer => exact frameEvent_keeps hs h (fun _ _ => takeOffer_keeps _)
  | claim => exact frameEvent_keeps hs h (fun _ _ => takeClaim_keeps _ _ _)
  | take => exact frameEvent_keeps hs h (fun _ _ => takeTake_keeps _ _ _ _)
  | yieldReceived => exact frameEvent_keeps hs h (fun _ _ hu => hu)
  | relevel => exact frameEvent_keeps hs h (fun _ _ => takeRelevel_keeps _ _ _)
  | cancel => exact frameEvent_keeps hs h (fun _ _ => takeCancel_keeps _)
  | quarantine => exact frameEvent_keeps hs h (fun _ _ => takeQuarantine_keeps _)
  | intake => exact frameEvent_keeps hs h (fun _ _ => takeIntake_keeps _ _ _)
  | level => exact frameEvent_keeps hs h (fun _ _ => takeLevel_keeps _ _)
  | drawNotice => exact frameEvent_keeps hs h (fun _ _ => takeDrawNotice_keeps _ _)
  | drawReport => exact frameEvent_keeps hs h (fun _ _ => takeDrawReport_keeps _ _ _ _)
  | hello => exact frameEvent_keeps hs h (fun _ _ => takeHello_keeps _)
  | truckPlan => exact frameEvent_keeps hs h (fun _ _ => takePlan_keeps _)
  | bayHold => exact frameEvent_keeps hs h (fun _ _ => takeBayHold_keeps _ _ _ _ _)
  | loaded => exact frameEvent_keeps hs h (fun _ _ => takeLoaded_keeps _ _ _ _ _)
  | ack origin => exact requestEvent_keeps hs h (fun _ _ => acknowledge_keeps _ _) (fun _ => acknowledge_keeps _ _)
  | pause origin => exact lineEvent_keeps hs h (fun _ => pauseLine_keeps)
  | resume origin => exact lineEvent_keeps hs h (fun _ => resumeLine_keeps)
  | dumpScale origin => exact lineEvent_keeps hs h (fun _ hu => keeps_ite (dumpScaleBatch_keeps hu) hu)
  | dumpSurge origin => exact lineEvent_keeps hs h (fun _ hu => keeps_ite (dumpStage_keeps _ hu) hu)
  | dumpMixer origin => exact lineEvent_keeps hs h (fun _ hu => keeps_ite (dumpStage_keeps _ hu) hu)
  | dumpPress origin => exact lineEvent_keeps hs h (fun _ hu => keeps_ite (dumpStage_keeps _ hu) hu)
  | dumpFinished origin => exact lineEvent_keeps hs h (fun _ hu => keeps_ite (openFinishedDump_keeps hu) hu)
  | localStopInput active =>
    unfold exec execLocalStopInput at h
    exact event_keeps_still hs h (fun _ => rfl)
  | stopAsserted => exact event_keeps hs h (fun _ => stopLine_keeps)
  | stopReleased => exact event_keeps hs h (fun _ => releaseLine_keeps)
  | handAddDone =>
    unfold exec execHandAddDone at h
    exact event_keeps hs h (fun _ hu => keeps_ite (setScale_keeps _ hu) hu)
  | bagClamp present =>
    unfold exec execBagClamp at h
    exact event_keeps hs h (fun _ hu => clampChanged_keeps _ (Law.congr hu rfl))
  | surgeEmptyInput empty =>
    unfold exec execSurgeEmptyInput at h
    exact event_keeps_still hs h (fun _ => rfl)
  | mixerEmptyInput empty =>
    unfold exec execMixerEmptyInput at h
    exact event_keeps_still hs h (fun _ => rfl)
  | pressBinEmptyInput empty =>
    unfold exec execPressBinEmptyInput at h
    exact event_keeps_still hs h (fun _ => rfl)
  | scaleSample count => exact event_keeps hs h (fun _ => scaleSample_keeps _)
  | bucketSample count => exact event_keeps hs h (fun _ => bucketSample_keeps _)
  | finishedBinSample count => exact event_keeps hs h (fun _ => finishedSample_keeps _)
  | currentSample loop current => exact event_keeps hs h (fun _ => currentSample_keeps _ _)
  | temperatureSample temperature => exact event_keeps hs h (fun _ => temperatureSample_keeps _)
  | levelSensorReading sensor reading => exact event_keeps hs h (fun _ => readLevel_keeps _ _)
  | oneSecondEvent => exact event_keeps hs h (fun _ => secondTick_keeps)
  | staleAgeExpiry bin => exact event_keeps hs h (fun _ => secondTick_keeps)
  | peerDrawAgeExpiry node batch bin => exact event_keeps hs h (fun _ => secondTick_keeps)
  | bayTimeStep => exact event_keeps hs h (fun _ => bayTick_keeps)
  | bayTimerExpiry bay => exact event_keeps hs h (fun _ => bayTick_keeps)
  | bayLost => exact event_keeps hs h (fun _ => bayTick_keeps)
  | claimWindowExpiry order =>
    unfold exec execClaimWindowExpiry at h
    exact event_keeps hs h (fun _ => windowExpiry_keeps _)
  | settleTimeout => exact event_keeps hs h (fun _ => settleExpiry_keeps)
  | stallTimerExpiry => exact event_keeps hs h (fun _ => stallExpiry_keeps)
  | jogTimerExpiry => exact event_keeps hs h (fun _ => setScale_keeps _)
  | residueTimerExpiry => exact event_keeps hs h (fun _ => residueExpiry_keeps)
  | grindRunoutExpiry => exact event_keeps hs h (fun _ => completeGrind_keeps)
  | mixTimerExpiry => exact event_keeps hs h (fun _ => completeMix_keeps)
  | mixerRunoutExpiry => exact event_keeps hs h (fun _ => completeMixer_keeps)
  | dischargeTimeout => exact event_keeps hs h (fun _ => holdStage_keeps _ _ _)
  | pressRunoutExpiry => exact event_keeps hs h (fun _ => completePress_keeps)
  | condLow => exact event_keeps hs h (fun _ => condLow_keeps)
  | overloadTimerExpiry loop => exact event_keeps hs h (fun _ => overloadExpiry_keeps _)
  | dumpRunoutExpiry stage => exact event_keeps hs h (fun _ => completeStageDump_keeps _)
  | finishedDumpTimerExpiry => exact event_keeps hs h (fun _ => completeFinishedDump_keeps)
  | fillTimerExpiry => exact event_keeps hs h (fun _ hu => setBucket_keeps _ (interruptCharge_keeps hu))
  | baggerSettleTimeout => exact event_keeps hs h (fun _ => bucketTimeout_keeps)
  | baggerJogTimerExpiry => exact event_keeps hs h (fun _ => setBucket_keeps _)
  | dischargeTimerExpiry => exact event_keeps_still hs h (fun _ => rfl)
  | contentionTimerExpiry => exact event_keeps hs h (fun _ => contentionPassed_keeps)
  | renewalTimerExpiry => exact event_keeps hs h (fun _ => renewHold_keeps)
  | loadoutSettleTimeout => exact event_keeps hs h (fun _ => endStep_keeps)
  | flashTimerExpiry lamp => exact execFlashTimerExpiry_keeps _ hs h

theorem step_keeps {s t : State} (hs : l.holds s) (h : step s = .next t) : l.holds t := by
  unfold step at h
  split at h
  · injection h with h
    exact h ▸ hs
  · exact exec_keeps _ (keeps_pending _ _ hs) h

/-- Settles O56: every operation of every command keeps the bound of each table. -/
theorem tablesStayBounded : Obligations.TablesStayBounded := fun _ _ => step_keeps (l := .tables)

/-- Settles O57: the keys of every table, the one ACTIVE order and the records by key, kept operation by operation. -/
theorem keysStayDistinctAndRecordsWhole : Obligations.KeysStayDistinctAndRecordsWhole :=
  ⟨fun _ _ => step_keeps (l := .keys), fun _ _ => step_keeps (l := .active), fun _ _ => step_keeps (l := .records)⟩

/-- Settles O58: every operation of every command keeps the figures within their ranges. -/
theorem figuresStayWithin : Obligations.FiguresStayWithin := fun _ _ => step_keeps (l := .figures)

end Sys2Proof.Machine
end

