-- ==== Sys2Proof/Proofs/Splits.lean ====
section
/-! SUPPORT. O24: the batch split of R5 and the largest-remainder split of R92. -/
namespace Sys2Proof.Machine

/-! ### The batch split (R5, R6) -/

/-- R5: the count is the least that carries the mass. -/
theorem splitCount_bounds {M B : Nat} (hM : 0 < M) (hB : 0 < B) :
    1 ≤ splitCount M B ∧ M ≤ splitCount M B * B ∧ (splitCount M B - 1) * B < M := by
  have hd := Nat.div_add_mod (M + B - 1) B
  have hm := Nat.mod_lt (M + B - 1) hB
  have h1 : 1 ≤ (M + B - 1) / B := (Nat.one_le_div_iff hB).2 (by omega)
  have hs : ((M + B - 1) / B - 1) * B + B = (M + B - 1) / B * B := by
    rw [← Nat.succ_mul, Nat.succ_eq_add_one, Nat.sub_add_cancel h1]
  rw [Nat.mul_comm] at hd
  unfold splitCount ceilDiv
  exact ⟨h1, by omega, by omega⟩

theorem splitMass_le {M B n : Nat} {k : Nat} (hk : 1 ≤ k) (hMn : M ≤ n * B) : splitMass M n k ≤ B := by
  have hd := Nat.div_add_mod M n
  have hq : M / n ≤ B := Nat.div_le_of_le_mul hMn
  unfold splitMass
  split
  · rcases Nat.lt_or_eq_of_le hq with hlt | he
    · omega
    · rw [he] at hd
      omega
  · omega

/-- The heavier batches are as many as the remainder. -/
theorem sum_splitMass (M n m : Nat) :
    ((List.range m).map (fun k => splitMass M n (k + 1))).sum = m * (M / n) + min m (M % n) := by
  induction m with
  | zero => simp
  | succ m ih =>
    rw [List.range_succ, List.map_append, List.sum_append, ih, Nat.succ_mul]
    simp only [List.map_cons, List.map_nil, List.sum_cons, List.sum_nil, splitMass]
    split <;> omega

/-- R5: a batch of several is at least half the batch size. -/
theorem half_le_splitMass {M B n : Nat} (k : Nat) (hn : 2 ≤ n) (hB : (n - 1) * B < M) : B ≤ 2 * splitMass M n k := by
  have hd := Nat.div_add_mod M n
  have hm := Nat.mod_lt M (by omega : 0 < n)
  suffices h : B ≤ 2 * (M / n) by unfold splitMass; omega
  by_contra hlt
  obtain ⟨m, rfl⟩ : ∃ m, n = m + 2 := ⟨n - 2, by omega⟩
  have h1 : (m + 1) * (2 * (M / (m + 2)) + 1) ≤ (m + 1) * B := Nat.mul_le_mul_left _ (by omega)
  generalize M / (m + 2) = q at *
  have h2 : (m + 1) * (2 * q + 1) = (m + 2) * q + m * q + (m + 1) := by ring
  have h3 : m + 2 - 1 = m + 1 := by omega
  rw [h3] at hB
  omega

/-! ### The largest-remainder split (R92) -/

/-- R92: of two parts, the one that takes a unit first. -/
abbrev before (p q : Nat × Nat) : Prop := q.1 < p.1 ∨ (p.1 = q.1 ∧ p.2 < q.2)

theorem before_trans {p q r : Nat × Nat} (h : before p q) (h' : before q r) : before p r := by
  unfold before at *
  omega

theorem before_irrefl (p : Nat × Nat) : ¬ before p p := by
  unfold before
  omega

theorem before_total {p q : Nat × Nat} (h : p.2 ≠ q.2) : before p q ∨ before q p := by
  unfold before
  omega

/-- R92: the rank of a part, as the number of parts before it. -/
theorem rankOf_eq_card {rs : List (Nat × Nat)} (hrs : rs.Nodup) (p : Nat × Nat) :
    rankOf rs p.1 p.2 = (rs.toFinset.filter (fun q => before q p)).card := by
  unfold rankOf before
  rw [← List.toFinset_card_of_nodup (hrs.filter _), List.toFinset_filter]
  simp

/-- A part that goes before another has the lower rank. -/
theorem rankOf_lt {rs : List (Nat × Nat)} (hrs : rs.Nodup) {p q : Nat × Nat} (hp : p ∈ rs) (h : before p q) :
    rankOf rs p.1 p.2 < rankOf rs q.1 q.2 := by
  rw [rankOf_eq_card hrs, rankOf_eq_card hrs]
  refine Finset.card_lt_card (Finset.ssubset_iff_subset_ne.2 ⟨?_, fun he => ?_⟩)
  · exact Finset.monotone_filter_right _ (fun x _ hx => before_trans hx h)
  · have hm : p ∈ rs.toFinset.filter (fun x => before x q) := Finset.mem_filter.2 ⟨List.mem_toFinset.2 hp, h⟩
    rw [← he] at hm
    exact before_irrefl p (Finset.mem_filter.1 hm).2

theorem rankOf_lt_length {rs : List (Nat × Nat)} (hrs : rs.Nodup) {p : Nat × Nat} (hp : p ∈ rs) :
    rankOf rs p.1 p.2 < rs.length := by
  rw [rankOf_eq_card hrs, ← List.toFinset_card_of_nodup hrs]
  refine Finset.card_lt_card (Finset.filter_ssubset.2 ⟨p, List.mem_toFinset.2 hp, before_irrefl p⟩)

/-- Of distinct ranks below their number, as many are below d as d says. -/
theorem card_rank_lt {α : Type} (T : Finset α) (rank : α → Nat) (hlt : ∀ p ∈ T, rank p < T.card)
    (hinj : Set.InjOn rank T) {d : Nat} (hd : d ≤ T.card) : (T.filter (fun p => rank p < d)).card = d := by
  have himage : T.image rank = Finset.range T.card := by
    refine Finset.eq_of_subset_of_card_le (fun x hx => ?_) ?_
    · obtain ⟨p, hp, rfl⟩ := Finset.mem_image.1 hx
      exact Finset.mem_range.2 (hlt p hp)
    · rw [Finset.card_range, Finset.card_image_of_injOn hinj]
  have hfilter : (Finset.range T.card).filter (fun r => r < d) = Finset.range d := by
    ext r
    simp only [Finset.mem_filter, Finset.mem_range]
    omega
  calc (T.filter (fun p => rank p < d)).card
      = ((T.filter (fun p => rank p < d)).image rank).card :=
        (Finset.card_image_of_injOn (hinj.mono (Finset.coe_subset.2 (Finset.filter_subset _ _)))).symm
    _ = ((T.image rank).filter (fun r => r < d)).card := by rw [Finset.filter_image]
    _ = d := by rw [himage, hfilter, Finset.card_range]

theorem zipIdx_position {l : List Nat} {p q : Nat × Nat} (hp : p ∈ l.zipIdx) (hq : q ∈ l.zipIdx) (h : p.2 = q.2) :
    p = q := by
  have h1 := List.mem_zipIdx_iff_getElem?.1 hp
  have h2 := List.mem_zipIdx_iff_getElem?.1 hq
  rw [h, h2] at h1
  exact Prod.ext (Option.some.inj h1).symm h

theorem zipIdx_nodup (l : List Nat) : l.zipIdx.Nodup := by
  refine List.Nodup.of_map Prod.snd ?_
  rw [List.zipIdx_map_snd]
  exact List.nodup_range'

/-- As many parts take a unit as there are units. -/
theorem countP_rankOf (l : List Nat) {d : Nat} (hd : d ≤ l.length) :
    l.zipIdx.countP (fun p => decide (rankOf l.zipIdx p.1 p.2 < d)) = d := by
  have hn := zipIdx_nodup l
  rw [List.countP_eq_length_filter, ← List.toFinset_card_of_nodup (hn.filter _), List.toFinset_filter]
  have hc : l.zipIdx.toFinset.card = l.length := by rw [List.toFinset_card_of_nodup hn, List.length_zipIdx]
  simp only [decide_eq_true_eq]
  refine card_rank_lt _ (fun p => rankOf l.zipIdx p.1 p.2) (fun p hp => ?_) (fun p hp q hq h => ?_) (hc ▸ hd)
  · rw [List.toFinset_card_of_nodup hn]
    exact rankOf_lt_length hn (List.mem_toFinset.1 hp)
  · replace hp := List.mem_toFinset.1 hp
    replace hq := List.mem_toFinset.1 hq
    by_contra hne
    rcases before_total (fun he => hne (zipIdx_position hp hq he)) with hb | hb
    · exact absurd h (rankOf_lt hn hp hb).ne
    · exact absurd h (rankOf_lt hn hq hb).ne'

/-- R92: the quotients. -/
def quotients (M : Nat) (shares : List Nat) : List Nat := shares.map (fun x => M * x / 10000)

/-- R92: the remainders. -/
def remainders (M : Nat) (shares : List Nat) : List Nat := shares.map (fun x => M * x % 10000)

theorem largestRemainder_eq (M : Nat) (shares : List Nat) :
    largestRemainder M shares = ((quotients M shares).zip (remainders M shares).zipIdx).map
      (fun p => if rankOf (remainders M shares).zipIdx p.2.1 p.2.2 < M - (quotients M shares).sum then p.1 + 1 else p.1) :=
  rfl

theorem largestRemainder_length (M : Nat) (shares : List Nat) :
    (largestRemainder M shares).length = shares.length := by
  simp [largestRemainder_eq, quotients, remainders]

/-- R92: a part is its quotient, with a unit by its rank. -/
theorem largestRemainder_part {M i x t : Nat} {shares : List Nat} (hx : shares[i]? = some x)
    (ht : (largestRemainder M shares)[i]? = some t) :
    t = if rankOf (remainders M shares).zipIdx (M * x % 10000) i < M - (quotients M shares).sum
      then M * x / 10000 + 1 else M * x / 10000 := by
  obtain ⟨hi, rfl⟩ := List.getElem?_eq_some_iff.1 hx
  obtain ⟨_, rfl⟩ := List.getElem?_eq_some_iff.1 ht
  simp only [largestRemainder_eq, quotients, remainders, List.getElem_map, List.getElem_zip, List.getElem_zipIdx,
    Nat.zero_add]
  rfl

theorem sum_quotients (M : Nat) (shares : List Nat) :
    10000 * (quotients M shares).sum + (remainders M shares).sum = M * shares.sum := by
  induction shares with
  | nil => rfl
  | cons x xs ih =>
    have := Nat.div_add_mod (M * x) 10000
    simp only [quotients, remainders, List.map_cons, List.sum_cons, Nat.mul_add] at ih ⊢
    omega

theorem sum_remainders_le (M : Nat) (shares : List Nat) : (remainders M shares).sum ≤ 10000 * shares.length := by
  induction shares with
  | nil => rfl
  | cons x xs ih =>
    have := Nat.mod_lt (M * x) (by decide : 0 < 10000)
    simp only [remainders, List.map_cons, List.sum_cons, List.length_cons] at ih ⊢
    omega

theorem sum_with_units {α : Type} (c : α → Bool) (q : List Nat) (rs : List α) (h : q.length = rs.length) :
    ((q.zip rs).map (fun p => if c p.2 then p.1 + 1 else p.1)).sum = q.sum + rs.countP c := by
  induction q generalizing rs with
  | nil =>
    obtain rfl := List.eq_nil_of_length_eq_zero h.symm
    rfl
  | cons x xs ih =>
    obtain ⟨r, rs, rfl⟩ := List.exists_cons_of_length_eq_add_one h.symm
    have := ih rs (by simpa using h)
    simp only [List.zip_cons_cons, List.map_cons, List.sum_cons, List.countP_cons, this]
    split <;> omega

/-- R92: the parts total the mass. -/
theorem largestRemainder_sum {M : Nat} {shares : List Nat} (h : shares.sum = 10000) :
    (largestRemainder M shares).sum = M := by
  have hq := sum_quotients M shares
  have hr := sum_remainders_le M shares
  rw [h] at hq
  have hl : (remainders M shares).length = shares.length := by simp [remainders]
  have hu := countP_rankOf (remainders M shares) (d := M - (quotients M shares).sum) (by omega)
  have hs := sum_with_units
    (fun p : Nat × Nat => decide (rankOf (remainders M shares).zipIdx p.1 p.2 < M - (quotients M shares).sum))
    (quotients M shares) (remainders M shares).zipIdx (by simp [quotients, remainders])
  simp only [decide_eq_true_eq] at hs
  rw [largestRemainder_eq, hs, hu]
  omega

/-- R92: the part with the larger remainder, and of equal ones the earlier, has the lower rank. -/
theorem rank_of_earlier {M i j x y : Nat} {shares : List Nat} (hx : shares[i]? = some x)
    (h : M * y % 10000 < M * x % 10000 ∨ (M * y % 10000 = M * x % 10000 ∧ i < j)) :
    rankOf (remainders M shares).zipIdx (M * x % 10000) i < rankOf (remainders M shares).zipIdx (M * y % 10000) j := by
  refine rankOf_lt (p := (M * x % 10000, i)) (q := (M * y % 10000, j)) (zipIdx_nodup _) ?_ ?_
  · rw [List.mem_zipIdx_iff_getElem?]
    simp [remainders, hx]
  · unfold before
    omega

/-- Settles O24, by the quotient and remainder of each mass, and by the ranks of R92, which are distinct. -/
theorem splitsTotalTheirMass : Obligations.SplitsTotalTheirMass := by
  refine ⟨fun M B hM hB => ?_, fun M shares hs => ⟨largestRemainder_length M shares, largestRemainder_sum hs,
    fun i x t hx ht => ?_, fun i j x y t u hx hy ht hu hb he => ?_⟩⟩
  · obtain ⟨h1, hn, hl⟩ := splitCount_bounds hM hB
    refine ⟨h1, hn, hl, fun k => ⟨rfl, fun hk _ => splitMass_le hk hn⟩, ?_, fun h2 k => half_le_splitMass k h2 hl⟩
    have hd := Nat.div_add_mod M (splitCount M B)
    have hm := Nat.mod_lt M h1
    rw [sum_splitMass, Nat.min_eq_right hm.le, hd]
  · rw [largestRemainder_part hx ht]
    split
    · exact Or.inr rfl
    · exact Or.inl rfl
  · have hr := rank_of_earlier hx hb
    rw [largestRemainder_part hy hu] at he
    rw [largestRemainder_part hx ht]
    split at he
    · rw [if_pos (by omega)]
    · omega

end Sys2Proof.Machine
end

