-- ==== Sys2Proof/Proofs/Admissions.lean ====
section
/-! SUPPORT. The book's lookups under a change of its records; the scale at the start of a component; O26: what an admission
records. -/
namespace Sys2Proof.Machine

/-! ### Lookups in the book -/

theorem findOrder_mem {id : Nat} {s : State} {o : Order} (h : findOrder id s = some o) : o ∈ s.slots ∧ o.id = id :=
  ⟨List.mem_of_find?_eq_some h, by simpa using List.find?_some h⟩

/-- A lookup reads the book alone. -/
theorem findOrder_congr {s u : State} (h : u.slots = s.slots) (id : Nat) : findOrder id u = findOrder id s := by
  unfold findOrder
  rw [h]

/-- Records that change but for their ids are found where they were. -/
theorem findOrder_map {f : Order → Order} (hf : ∀ o, (f o).id = o.id) (id : Nat) (s : State) :
    findOrder id { s with slots := s.slots.map f } = (findOrder id s).map f := by
  unfold findOrder
  rw [List.find?_map]
  simp only [Function.comp_def, hf]

theorem findOrder_updOrder {f : Order → Order} (hf : ∀ o, (f o).id = o.id) (i id : Nat) (s : State) :
    findOrder i (updOrder id f s) = (findOrder i s).map (fun o => if o.id = id then f o else o) :=
  findOrder_map (fun o => by split <;> simp [hf]) i s

theorem findOrder_updOrder_self {f : Order → Order} (hf : ∀ o, (f o).id = o.id) {id : Nat} {s : State} {o : Order}
    (h : findOrder id s = some o) : findOrder id (updOrder id f s) = some (f o) := by
  rw [findOrder_updOrder hf, h, Option.map_some, if_pos (findOrder_mem h).2]

theorem findOrder_preempt {id : Nat} {s : State} {o : Order} (h : findOrder id s = some o) :
    findOrder id (preempt id s) = some o := by
  have hid := (findOrder_mem h).2
  unfold preempt
  rw [findOrder_map (fun o => by split <;> rfl), h]
  simp [hid]

/-! ### The scale at the start of a component (R65 to R67) -/

@[simp] theorem scaleRecord_updDose (position : Nat) (f : Dose → Dose) (s : State) :
    scaleRecord (updDose position f s) = scaleRecord s := by
  unfold scaleRecord updDose
  cases s.scale.batch <;> rfl

@[simp] theorem scaleRecord_setScale (st : ScaleState) (s : State) : scaleRecord (setScale st s) = scaleRecord s := rfl

@[simp] theorem scaleRecord_queueFrame (b : Body) (s : State) : scaleRecord (queueFrame b s) = scaleRecord s := by
  rw [queueFrame_only]; rfl

@[simp] theorem scaleRecord_holdScale (k : FaultKey) (detail : List DetailField) (r : ResumePoint) (s : State) :
    scaleRecord (holdScale k detail r s) = scaleRecord s := by
  unfold holdScale
  rw [raiseFault_only]; rfl

@[simp] theorem scaleRecord_updPlanEntry (position : Nat) (f : PlanEntry → PlanEntry) (s : State) :
    scaleRecord (updPlanEntry position f s) = scaleRecord s := rfl

@[simp] theorem scaleRecord_answerZero (d : Dose) (s : State) : scaleRecord (answerZero d s) = scaleRecord s := by
  unfold answerZero
  split <;> simp

@[simp] theorem scaleRecord_moveBin (d : Dose) (bin : Nat) (s : State) : scaleRecord (moveBin d bin s) = scaleRecord s := by
  unfold moveBin
  split <;> simp

@[simp] theorem scaleRecord_confirmStart (d : Dose) (s : State) : scaleRecord (confirmStart d s) = scaleRecord s := by
  unfold confirmStart
  split <;> simp

@[simp] theorem scaleRecord_startDose (d : Dose) (s : State) : scaleRecord (startDose d s) = scaleRecord s := by
  unfold startDose
  dsimp only
  (repeat' split) <;> simp

theorem scaleRecord_startNext (k : Nat) (s : State) : scaleRecord (startNext k s) = scaleRecord s := by
  induction k generalizing s with
  | zero => rfl
  | succ k ih =>
    unfold startNext
    (repeat' split) <;> simp [ih]

@[simp] theorem scaleRecord_startComponent (s : State) : scaleRecord (startComponent s) = scaleRecord s :=
  scaleRecord_startNext _ _

/-- A scale that has been given its next component, or has none left, is in a state of work. -/
def ScaleState.atWork (st : ScaleState) : Prop := st = .complete ∨ st = .tare ∨ st = .held

theorem confirmStart_atWork (d : Dose) (s : State) : (confirmStart d s).scale.state.atWork := by
  unfold confirmStart holdScale
  split <;> simp [ScaleState.atWork]

theorem startDose_atWork (d : Dose) (s : State) : (startDose d s).scale.state.atWork := by
  unfold startDose
  dsimp only
  split
  · exact Or.inr (Or.inl rfl)
  · split
    · exact Or.inr (Or.inl rfl)
    · exact confirmStart_atWork _ _

theorem startNext_atWork (k : Nat) (s : State) : (startNext k s).scale.state.atWork := by
  induction k generalizing s with
  | zero => exact Or.inl rfl
  | succ k ih =>
    unfold startNext
    split
    · exact Or.inl rfl
    · split
      · exact ih _
      · exact startDose_atWork _ _

theorem admitToScale_atWork (b : Batch) (comps : List Planned) (s : State) :
    (admitToScale b comps s).scale.state.atWork := startNext_atWork _ _

theorem admitBatch_atWork (o : Order) (s : State) : (admitBatch o s).scale.state.atWork := by
  unfold admitBatch
  split <;> exact admitToScale_atWork _ _ _

theorem scaleRecord_admitToScale (b : Batch) (comps : List Planned) (s : State) :
    scaleRecord (admitToScale b comps s) = some b := by
  unfold admitToScale
  dsimp only
  split <;> simp [scaleRecord_startComponent, scaleRecord_queueFrame] <;> rfl

/-! ### Admission -/

theorem admitToScale_slots (b : Batch) (comps : List Planned) (s : State) :
    (admitToScale b comps s).slots = s.slots := by rw [admitToScale_only]

theorem admitProduct_slots (o : Order) (s : State) :
    (admitProduct o s).slots = (updOrder o.id Order.afterAdmission (preempt o.id s)).slots := admitToScale_slots _ _ _

theorem admitFlush_slots (o : Order) (s : State) : (admitFlush o s).slots = (preempt o.id s).slots :=
  admitToScale_slots _ _ _

theorem findOrder_admitProduct {o : Order} {s : State} (h : findOrder o.id s = some o) :
    findOrder o.id (admitProduct o s) = some o.afterAdmission := by
  rw [findOrder_congr (admitProduct_slots o s)]
  exact findOrder_updOrder_self (f := Order.afterAdmission) (fun _ => rfl) (findOrder_preempt h)

theorem findOrder_admitFlush {o : Order} {s : State} (h : findOrder o.id s = some o) :
    findOrder o.id (admitFlush o s) = some o := by
  rw [findOrder_congr (admitFlush_slots o s)]
  exact findOrder_preempt h

/-- R17: no order but the chosen one is ACTIVE once it is preempted. -/
theorem preempt_inactive (chosen : Nat) (s : State) :
    ∀ x ∈ (preempt chosen s).slots, x.id ≠ chosen → x.state ≠ .active :=
  fun x hx hne ha => hne (preempt_others chosen s x hx ha)

theorem admitProduct_inactive (o : Order) (s : State) : ∀ x ∈ (admitProduct o s).slots, x.id ≠ o.id → x.state ≠ .active := by
  intro x hx hne
  rw [admitProduct_slots] at hx
  obtain ⟨y, hy, rfl⟩ := List.mem_map.1 hx
  by_cases he : y.id = o.id
  · rw [if_pos he] at hne
    exact absurd he hne
  · rw [if_neg he] at hne ⊢
    exact preempt_inactive o.id s y hy hne

theorem admitFlush_inactive (o : Order) (s : State) : ∀ x ∈ (admitFlush o s).slots, x.id ≠ o.id → x.state ≠ .active := by
  rw [admitFlush_slots]
  exact preempt_inactive o.id s

/-- Settles O26, by the fields each admission writes and what the start of the first component leaves of them. -/
theorem admissionRecordsBatch : Obligations.AdmissionRecordsBatch := by
  intro s o _ ho
  have hu : (admitProduct o s).batchCounter = advanceBatch s.batchCounter
      ∧ (admitProduct o s).carry = s.carry.product o.cls o.form := by
    unfold admitProduct
    rw [admitToScale_only]
    exact ⟨rfl, rfl⟩
  have hv : (admitFlush o s).batchCounter = advanceBatch s.batchCounter
      ∧ (admitFlush o s).carry = s.carry.flush (flushForm s.params.matrix s.carry o.cls o.form) := by
    unfold admitFlush
    rw [admitToScale_only]
    exact ⟨rfl, rfl⟩
  refine ⟨⟨hu.1, hv.1.trans hu.1.symm⟩, scaleRecord_admitToScale _ _ _, scaleRecord_admitToScale _ _ _, hu.2, hv.2,
    ⟨o.afterAdmission, findOrder_admitProduct ho, rfl, ?_, rfl⟩, admitProduct_inactive o s, admitFlush_inactive o s,
    findOrder_admitFlush ho⟩
  simp only [Order.afterAdmission, Plan.afterAdmission]
  cases o.plan.makeUp with
  | none => rfl
  | some m =>
    dsimp only
    split <;> rfl

end Sys2Proof.Machine
end

