-- ==== Sys2Proof/Proofs/TrainTimers.lean ====
section
/-! SUPPORT. The close of an event up to its timers; O49: the timers of the train and what their ends do. -/
namespace Sys2Proof.Machine

/-! ### The close of an event -/

/-- What an event has brought about when its timers are set. -/
@[irreducible] def quiesced (s : State) : State := pauseReports (takeBay (abandonBay (rounds s)))

theorem close_eq (s : State) : close s = drive (reannounce (timers (quiesced s))) := by
  unfold close quiesced
  rfl

/-- After the timers are set, an event writes the re-announce list, the queue, the faults and the outputs alone. -/
theorem settled_only (s u : State) : ∃ ids q fs cs la pins,
    settled s u = { timers (quiesced u) with
      reannounce := ids, tx := q, faults := fs, channels := cs, lamps := la, pins := pins, pending := s.pending } := by
  obtain ⟨ids, q, fs, hr⟩ : ∃ ids q fs, reannounce (timers (quiesced u)) =
      { timers (quiesced u) with reannounce := ids, tx := q, faults := fs } := ⟨_, _, _, reannounce_only _⟩
  obtain ⟨cs, la, pins, hd⟩ : ∃ cs la pins, drive (reannounce (timers (quiesced u))) =
      { reannounce (timers (quiesced u)) with channels := cs, lamps := la, pins := pins } := ⟨_, _, _, drive_only _⟩
  unfold settled
  rw [close_eq, hd, hr]
  generalize quiesced u = x
  exact ⟨ids, q, fs, cs, la, pins, rfl⟩

/-! ### The timers -/

/-- The stage is BUSY in the phase. -/
def StageRec.BusyIn (r : StageRec) (p : Phase) : Prop := r.state = .busy ∧ r.phase = some p

theorem busyWith_iff (p : Phase) (r : StageRec) : r.busyWith p = true ↔ r.BusyIn p := by
  simp [StageRec.busyWith, StageRec.BusyIn]

theorem notStopped_iff (s : State) : notStopped s = true ↔ s.line ≠ .stopped := by simp [notStopped]

theorem residueStands_iff (band : Nat) (v : Converter) :
    v.residueStands band = true ↔ v.stable = true ∧ ∃ w, v.weight = some w ∧ (band : Int) < w := by
  unfold Converter.residueStands
  cases v.weight <;> simp

/-- R107 to R121: the timers of a train follow the work they belong to, from what they were. -/
def TrainTimed (before : Train) (t : State) : Prop :=
  RunsWhile (t.surge.BusyIn .grinding ∧ t.line = .run ∧ t.inputs.surgeEmpty = true) t.params.grindRunout
      before.grindRunout t.train.grindRunout
  ∧ FreezesOff (t.mixer.BusyIn .mixing) (t.line = .run) t.params.mixTime before.mix t.train.mix
  ∧ RunsWhile (t.mixer.BusyIn .discharging ∧ t.line ≠ .stopped ∧ t.inputs.mixerEmpty = true) t.params.mixerRunout
      before.mixerRunout t.train.mixerRunout
  ∧ FreezesOff (t.mixer.BusyIn .discharging) (t.line ≠ .stopped) t.params.dischargeTimeout before.dischargeLimit
      t.train.dischargeLimit
  ∧ RunsWhile (t.press.BusyIn .pressing ∧ t.line = .run ∧ t.inputs.pressBinEmpty = true) t.params.pressRunout
      before.pressRunout t.train.pressRunout
  ∧ RunsWhile (t.press.BusyIn .pressing ∧ t.line = .run ∧ t.train.steam.inBand = false ∧ t.inputs.pressBinEmpty = false)
      t.params.condTimeout before.conditioning t.train.conditioning
  ∧ RunsWhile (t.surge.BusyIn .dumping ∧ t.line ≠ .stopped ∧ t.inputs.surgeEmpty = true) t.params.grindRunout
      before.surgeDump t.train.surgeDump
  ∧ RunsWhile (t.mixer.BusyIn .dumping ∧ t.line ≠ .stopped ∧ t.inputs.mixerEmpty = true) t.params.mixerRunout
      before.mixerDump t.train.mixerDump
  ∧ RunsWhile (t.press.BusyIn .dumping ∧ t.line ≠ .stopped ∧ t.inputs.pressBinEmpty = true) t.params.pressRunout
      before.pressDump t.train.pressDump
  ∧ RunsWhile (t.fin.dumping = true ∧ t.line ≠ .stopped ∧ t.finConv.stable = true
        ∧ ∃ w, t.finConv.weight = some w ∧ (t.params.emptyBand : Int) < w) t.params.settleTimeout before.finishedDump
      t.train.finishedDump

theorem during_of_iff {c : Bool} {p : Prop} (h : c = true ↔ p) (full : Nat) (t : Timer) :
    RunsWhile p full t (Timer.during c full t) := (RunsWhile.congr h).1 (Timer.during_runsWhile c full t)

theorem freezing_of_iff {c d : Bool} {p q : Prop} (h : c = true ↔ p) (h' : d = true ↔ q) (full : Nat) (t : Timer) :
    FreezesOff p q full t (Timer.freezing c d full t) := by
  rw [← propext h, ← propext h']
  exact Timer.freezing_freezesOff c d full t

theorem timers_trainTimed (x : State) : TrainTimed x.train (timers x) := by
  refine ⟨during_of_iff ?_ _ _, freezing_of_iff (busyWith_iff _ _) decide_eq_true_iff _ _, during_of_iff ?_ _ _,
    freezing_of_iff (busyWith_iff _ _) (notStopped_iff _) _ _, during_of_iff ?_ _ _, during_of_iff ?_ _ _,
    during_of_iff ?_ _ _, during_of_iff ?_ _ _, during_of_iff ?_ _ _, during_of_iff ?_ _ _⟩ <;>
  simp only [Bool.and_eq_true, busyWith_iff, notStopped_iff, residueStands_iff, decide_eq_true_eq, Bool.not_eq_true',
    and_assoc] <;>
  exact Iff.rfl

/-- The close of an event sets the timers of the train from what the event had left of them. -/
theorem settled_trainTimed (s u : State) : TrainTimed u.train (settled s u) := by
  have hc : (quiesced u).clocks = u.clocks := by
    unfold quiesced
    exact beforeTimers_clocks u
  have h := timers_trainTimed (quiesced u)
  simp only [State.clocks, List.cons.injEq, and_true] at hc
  obtain ⟨-, -, -, -, h1, h2, h3, h4, h5, h6, h7, h8, h9, h10, -⟩ := hc
  obtain ⟨ids, q, fs, cs, la, pins, he⟩ := settled_only s u
  rw [he]
  unfold TrainTimed at h ⊢
  rw [h1, h2, h3, h4, h5, h6, h7, h8, h9, h10] at h
  exact h

/-! ### Retirements (R8) -/

theorem satMass_eq (n : Nat) : satMass n = min 16777215 n := Nat.min_comm _ _

theorem reportRetired_eq (into : Bool) (b : Batch) (s : State) :
    reportRetired into b s =
      (if b.kind = .product ∧ into = true ∧ b.rework = false then
        { s with slots := s.slots.map (fun o =>
            if b.order = some o.id then
              { o with plan := { o.plan with finished := o.plan.finished + 1
                                             massFinished := min 16777215 (o.plan.massFinished + b.mass) } }
            else o) }
       else s) := by
  unfold reportRetired
  split
  · rename_i id hk ho
    simp only [hk, ho, true_and, Bool.and_eq_true, Bool.not_eq_true', Option.some.injEq]
    split
    · refine congrArg (fun f => { s with slots := s.slots.map f }) (funext fun o => ?_)
      by_cases hid : o.id = id
      · rw [if_pos hid, if_pos hid.symm]
        simp only [satMass_eq]
      · rw [if_neg hid, if_neg (Ne.symm hid)]
    · rfl
  · rename_i hn
    split
    · rename_i hb
      have hnone : b.order = none := Option.eq_none_iff_forall_ne_some.2 (fun id => hn id hb.1)
      simp [hnone]
    · rfl

theorem reportRetired_slots (into : Bool) (b : Batch) (s : State) :
    reportRetired into b s = { s with slots := (reportRetired into b s).slots } := by
  rw [reportRetired_eq]
  split <;> rfl

/-- A retirement reads and writes the book alone. -/
theorem reportRetired_slots_congr (into : Bool) (b : Batch) {s u : State} (h : u.slots = s.slots) :
    (reportRetired into b u).slots = (reportRetired into b s).slots := by
  rw [reportRetired_eq, reportRetired_eq]
  split
  · simp only [h]
  · exact h

theorem reportRetired_outside (b : Batch) (s : State) : reportRetired false b s = s := by
  rw [reportRetired_eq]
  simp

theorem retireTo_only (dest : Option Dest) (batch : Option Batch) (s : State) :
    retireTo dest batch s = { s with slots := (retireTo dest batch s).slots, fin := (retireTo dest batch s).fin } := by
  unfold retireTo
  dsimp only
  split
  · rw [reportRetired_slots]
    split <;> rfl
  · split <;> rfl

theorem retireTo_fin (dest : Option Dest) (batch : Option Batch) (s : State) :
    (retireTo dest batch s).fin = if dest = some .finished then { s.fin with entering := false } else s.fin := by
  unfold retireTo
  dsimp only
  split
  · rw [reportRetired_slots]
    split <;> rfl
  · split <;> rfl

theorem retireTo_none (dest : Option Dest) (s : State) : (retireTo dest none s).slots = s.slots := by
  unfold retireTo
  dsimp only
  split <;> rfl

/-- R8: a record that leaves for the finished bin is reported. -/
theorem retireTo_finished (b : Batch) (s : State) :
    (retireTo (some .finished) (some b) s).slots = (reportRetired true b s).slots :=
  reportRetired_slots_congr true b rfl

theorem retireTo_elsewhere {dest : Option Dest} (h : dest ≠ some .finished) (batch : Option Batch) (s : State) :
    (retireTo dest batch s).slots = s.slots := by
  unfold retireTo
  simp only [h, if_false, decide_false]
  split
  · rw [reportRetired_outside]
  · rfl

/-! ### The ends of the timers (R107, R109, R114, R117, R120) -/

theorem completeGrind_effect (s : State) :
    (completeGrind s).surge = StageRec.ofState .empty ∧ (completeGrind s).mixer = StageRec.busyIn .mixing s.surge.batch none
      ∧ (completeGrind s).train.grinder.mode = .idle ∧ (completeGrind s).train.grinder.speed = 0 :=
  ⟨rfl, rfl, rfl, rfl⟩

/-- What a retirement leaves of the stages. -/
theorem retireTo_stages (dest : Option Dest) (batch : Option Batch) (s : State) :
    (retireTo dest batch s).mixer = s.mixer ∧ (retireTo dest batch s).press = s.press
      ∧ (retireTo dest batch s).train = s.train := by
  rw [retireTo_only]
  exact ⟨rfl, rfl, rfl⟩

theorem retireTo_stageOf (dest : Option Dest) (batch : Option Batch) (i : StageId) (s : State) :
    stageOf i (retireTo dest batch s) = stageOf i s := by
  rw [retireTo_only]
  cases i <;> rfl

theorem completeMixer_retires {s : State} (h : s.mixer.dest ≠ some .press) :
    completeMixer s = retireTo s.mixer.dest s.mixer.batch { s with mixer := StageRec.ofState .empty } := if_neg h

theorem completeMixer_to_press {s : State} (h : s.mixer.dest = some .press) :
    completeMixer s = { s with
      mixer := StageRec.ofState .empty
      press := { state := .done, phase := none, batch := s.mixer.batch, dest := none, resume := none } } := if_pos h

theorem completeMixer_mixer (s : State) : (completeMixer s).mixer = StageRec.ofState .empty := by
  by_cases h : s.mixer.dest = some .press
  · rw [completeMixer_to_press h]
  · rw [completeMixer_retires h]
    exact (retireTo_stages _ _ _).1

/-- R8: a record retired into the finished bin is reported, one that is none is not. -/
theorem retireTo_finished_slots {u s : State} (hu : u.slots = s.slots) (batch : Option Batch) :
    (∀ b, batch = some b → (retireTo (some .finished) batch u).slots = (reportRetired true b s).slots)
      ∧ (batch = none → (retireTo (some .finished) batch u).slots = s.slots) := by
  refine ⟨fun b hb => ?_, fun hb => ?_⟩
  · rw [hb, retireTo_finished]
    exact reportRetired_slots_congr true b hu
  · rw [hb, retireTo_none]
    exact hu

theorem completeMixer_to_finished {s : State} (h : s.mixer.dest = some .finished) :
    (completeMixer s).press = s.press ∧ (completeMixer s).fin = { s.fin with entering := false }
      ∧ (∀ b, s.mixer.batch = some b → (completeMixer s).slots = (reportRetired true b s).slots)
      ∧ (s.mixer.batch = none → (completeMixer s).slots = s.slots) := by
  have hr := completeMixer_retires (s := s) (by rw [h]; decide)
  rw [h] at hr
  rw [hr]
  exact ⟨(retireTo_stages _ _ _).2.1, retireTo_fin _ _ _, retireTo_finished_slots (s := s) (by rfl) _⟩

theorem completeMixer_to_rework {s : State} (h : s.mixer.dest = some .rework) :
    (completeMixer s).press = s.press ∧ (completeMixer s).fin = s.fin ∧ (completeMixer s).slots = s.slots := by
  have hr := completeMixer_retires (s := s) (by rw [h]; decide)
  rw [h] at hr
  rw [hr]
  exact ⟨(retireTo_stages _ _ _).2.1, retireTo_fin _ _ _, retireTo_elsewhere (by decide) _ _⟩

theorem completePress_effect (s : State) :
    (completePress s).press = StageRec.ofState .empty ∧ (completePress s).train.presser.mode = .idle
      ∧ (completePress s).train.steam = { s.train.steam with running := false }
      ∧ (s.press.dest = some .finished → (completePress s).fin = { s.fin with entering := false }
          ∧ (∀ b, s.press.batch = some b → (completePress s).slots = (reportRetired true b s).slots)
          ∧ (s.press.batch = none → (completePress s).slots = s.slots))
      ∧ (s.press.dest = some .rework → (completePress s).fin = s.fin ∧ (completePress s).slots = s.slots) := by
  unfold completePress
  dsimp only
  obtain ⟨-, hp, ht⟩ := retireTo_stages s.press.dest s.press.batch { haltPresser s with
    press := StageRec.ofState .empty
    train := { (haltPresser s).train with steam := (haltPresser s).train.steam.halt } }
  rw [hp, ht]
  refine ⟨rfl, rfl, rfl, fun h => ?_, fun h => ?_⟩ <;> rw [h]
  · exact ⟨retireTo_fin _ _ _, retireTo_finished_slots (s := s) (by rfl) _⟩
  · exact ⟨retireTo_fin _ _ _, retireTo_elsewhere (by decide) _ _⟩

theorem stageOf_setStage (i : StageId) (r : StageRec) (s : State) : stageOf i (setStage i r s) = r := by cases i <;> rfl

theorem completeStageDump_effect (i : StageId) (s : State) :
    (completeStageDump i s).slots = s.slots
      ∧ stageOf i (completeStageDump i s) = if stageBarred i s then StageRec.heldEmpty else StageRec.ofState .empty := by
  unfold completeStageDump
  dsimp only
  rw [retireTo_elsewhere (by decide), retireTo_stageOf, stageOf_setStage]
  refine ⟨?_, rfl⟩
  rw [setStage_only]

/-- Settles O49: the timers by what the close sets them to, the ends of the timers by their commands' effects. -/
theorem trainRunoutsPassBatch : Obligations.TrainRunoutsPassBatch := by
  refine ⟨fun s u t ht => ht ▸ settled_trainTimed s u, fun s hr => ⟨fun h => ?_, fun h => ?_, fun h => ?_, fun h => ?_,
    fun i h => ?_, fun h => ?_⟩, fun s b into => reportRetired_eq into b s⟩
  · exact ⟨_, event_next _ _ s hr h, completeGrind_effect s⟩
  · exact event_next _ _ s hr h
  · refine ⟨_, event_next _ _ s hr h, completeMixer_mixer s, fun hd => ?_, completeMixer_to_finished,
      completeMixer_to_rework⟩
    rw [completeMixer_to_press hd]
    exact ⟨rfl, rfl, rfl⟩
  · exact ⟨_, event_next _ _ s hr h, completePress_effect s⟩
  · obtain ⟨hs, hst⟩ := completeStageDump_effect i s
    refine ⟨_, event_next _ _ s hr h, hs, fun hb => ?_, fun hb => ?_⟩ <;> rw [hst, hb]
    · rfl
    · exact ⟨rfl, rfl, rfl⟩
  · exact event_next _ _ s hr h

end Sys2Proof.Machine
end

