-- ==== Sys2Proof/Proofs/OffRun.lean ====
section
/-! SUPPORT. O5: on a line that is not RUN the close of an event begins nothing. `Rests s u` says that nothing has begun from
`s` to `u`; each operation of such a close is one. -/
namespace Sys2Proof.Machine

/-- The stage works in the phase, or goes back to it when it leaves HELD (R104). -/
def StageRec.comesTo (p : Phase) (r : StageRec) : Prop :=
  r.busyWith p = true ∨ (r.state = .held ∧ r.resume = some (.phase p))

/-- The buckets in which the bagger's feeder or a gate works (R141, R149, R150). -/
def Bucket.atWork (b : Bucket) : Prop := b ∈ [.discharging, .jog true, .unknown true, .filling true, .filling false]

/-- What an admission or a dose writes beside the book. -/
structure Dosed where
  batchCounter : Nat
  carry        : Carry
  plan         : Option DrawPlan
  state        : ScaleState
  batch        : Option ScaleBatch
  inFlight     : List Nat

def State.dosed (s : State) : Dosed :=
  { batchCounter := s.batchCounter, carry := s.carry, plan := s.plan, state := s.scale.state, batch := s.scale.batch
    inFlight := s.channels.map Channel.inFlight }

/-- Nothing has begun. -/
structure Rests (s u : State) : Prop where
  line   : s.line ≠ .run → u.line ≠ .run
  dosed  : u.dosed = s.dosed
  bin    : u.fin.entering = true → s.fin.entering = true
  stages : ∀ i p, (stageOf i u).comesTo p → (stageOf i s).comesTo p
  bucket : u.bagger.bucket.atWork → u.bagger.bucket = s.bagger.bucket
  hold   : u.hold.state = .taking → s.hold.state = .taking
  spout  : spoutOpen u = true → spoutOpen s = true

theorem Rests.refl (s : State) : Rests s s := ⟨fun h => h, rfl, fun h => h, fun _ _ h => h, fun _ => rfl, fun h => h, fun h => h⟩

theorem Rests.trans {s u v : State} (h : Rests s u) (h' : Rests u v) : Rests s v where
  line := fun hs => h'.line (h.line hs)
  dosed := h'.dosed.trans h.dosed
  bin := fun hv => h.bin (h'.bin hv)
  stages := fun i p hv => h.stages i p (h'.stages i p hv)
  bucket := fun hv => by
    have he := h'.bucket hv
    rw [he] at hv ⊢
    exact h.bucket hv
  hold := fun hv => h.hold (h'.hold hv)
  spout := fun hv => h.spout (h'.spout hv)

/-- What `Rests` reads of a state. -/
structure Begun where
  line   : LineState
  dosed  : Dosed
  bin    : Bool
  surge  : StageRec
  mixer  : StageRec
  press  : StageRec
  bucket : Bucket
  hold   : HoldState
  step   : Option LoadStep

def State.begun (s : State) : Begun :=
  { line := s.line, dosed := s.dosed, bin := s.fin.entering, surge := s.surge, mixer := s.mixer, press := s.press
    bucket := s.bagger.bucket, hold := s.hold.state, step := s.step }

theorem Rests.of_eq {s u : State} (h : u.begun = s.begun) : Rests s u where
  line := by rw [show u.line = s.line from congrArg Begun.line h]; exact id
  dosed := congrArg Begun.dosed h
  bin := by rw [show u.fin.entering = s.fin.entering from congrArg Begun.bin h]; exact id
  stages := fun i p => by
    have hi : stageOf i u = stageOf i s := by
      cases i
      · exact congrArg Begun.surge h
      · exact congrArg Begun.mixer h
      · exact congrArg Begun.press h
    rw [hi]
    exact id
  bucket := fun _ => congrArg Begun.bucket h
  hold := by rw [show u.hold.state = s.hold.state from congrArg Begun.hold h]; exact id
  spout := by unfold spoutOpen; rw [show u.step = s.step from congrArg Begun.step h]; exact id

theorem Rests.ite {c : Prop} [Decidable c] {s t e : State} (ht : Rests s t) (he : Rests s e) :
    Rests s (if c then t else e) := by
  split
  · exact ht
  · exact he

/-! ### Stages and bucket -/

theorem comesTo_unbarred {r : StageRec} {p q : Phase} (hh : r.state = .held) (hr : r.resume = some (.phase q))
    (h : (StageRec.busyIn q r.batch r.dest).comesTo p) : r.comesTo p := by
  rcases h with h | ⟨h, -⟩
  · obtain ⟨-, hp⟩ := (busyWith_iff _ _).1 h
    exact Or.inr ⟨hh, by rw [hr, Option.some.inj hp]⟩
  · cases h

theorem not_comesTo_empty (p : Phase) : ¬ (StageRec.ofState .empty).comesTo p := by
  simp [StageRec.comesTo, StageRec.busyWith, StageRec.ofState]

/-- The stages of a state in which one has been replaced. -/
theorem stageOf_replaced {i : StageId} {r : StageRec} {s : State} {p : Phase}
    (hr : r.comesTo p → (stageOf i s).comesTo p) (j : StageId) (h : (stageOf j (setStage i r s)).comesTo p) :
    (stageOf j s).comesTo p := by
  cases i <;> cases j <;> first | exact h | exact hr h

theorem setStage_rests {i : StageId} {r : StageRec} {s : State}
    (hr : ∀ p, r.comesTo p → (stageOf i s).comesTo p) : Rests s (setStage i r s) where
  line := by rw [setStage_only]; exact id
  dosed := by rw [setStage_only]; rfl
  bin := by rw [setStage_only]; exact id
  stages := fun j p => stageOf_replaced (hr p) j
  bucket := fun _ => by rw [setStage_only]
  hold := by rw [setStage_only]; exact id
  spout := by rw [setStage_only]; exact id

theorem haltStageLoop_rests (i : StageId) (s : State) : Rests s (haltStageLoop i s) :=
  Rests.of_eq (by rw [haltStageLoop_only]; rfl)

theorem unbarStage_rests (i : StageId) (s : State) : Rests s (unbarStage i s) := by
  unfold unbarStage
  dsimp only
  split
  · rename_i hc
    split
    · rename_i q hq
      have he : stageOf i (haltStageLoop i s) = stageOf i s := by cases i <;> rfl
      exact (haltStageLoop_rests i s).trans (setStage_rests (fun p hp => he ▸ comesTo_unbarred hc.1 hq hp))
    · exact setStage_rests (fun p hp => absurd hp (not_comesTo_empty p))
  · exact Rests.refl s

theorem unbarStages_rests (s : State) : Rests s (unbarStages s) :=
  ((unbarStage_rests .surge s).trans (unbarStage_rests .mixer _)).trans (unbarStage_rests .press _)

/-- The bagger changes, its bucket to one in which nothing works. -/
theorem bagger_rests {s u : State} (h : ∃ b fs q, u = { s with bagger := b, faults := fs, tx := q })
    (hb : ¬ u.bagger.bucket.atWork) : Rests s u := by
  obtain ⟨b, fs, q, rfl⟩ := h
  exact ⟨fun h => h, rfl, fun h => h, fun i p h => by cases i <;> exact h, fun h => absurd h hb, fun h => h, fun h => h⟩

theorem rejectCharge_bucket (c : Charge) (detail : List DetailField) (s : State) :
    (rejectCharge c detail s).bagger.bucket = .charged := by
  unfold rejectCharge
  rw [raiseFault_only]
  rfl

theorem watchPermission_rests (s : State) : Rests s (watchPermission s) := by
  unfold watchPermission
  split
  · exact Rests.refl s
  · split
    · exact bagger_rests ⟨_, _, _, rfl⟩ (by simp [Bucket.atWork, setBucket])
    · exact bagger_rests ⟨_, _, _, rfl⟩ (by simp [Bucket.atWork, setBucket])
    · refine bagger_rests ⟨_, _, _, rejectCharge_only _ _ _⟩ ?_
      rw [rejectCharge_bucket]
      simp [Bucket.atWork]
    · exact Rests.refl s

/-! ### The spout and the bay -/

theorem closeSpout_rests (cause : CloseCause) (s : State) : Rests s (closeSpout cause s) := by
  unfold closeSpout
  split
  · rename_i st hst
    refine Rests.ite ?_ (Rests.refl s)
    exact ⟨fun h => h, rfl, fun h => h, fun i p h => by cases i <;> exact h, fun _ => rfl, fun h => h,
      fun h => by simp [spoutOpen] at h⟩
  · exact Rests.refl s

/-- A hold given up is none. -/
theorem releaseHold_state (s : State) : (releaseHold s).hold.state = .nothing := by
  unfold releaseHold
  split
  · assumption
  · rfl

theorem releaseHold_rests (s : State) : Rests s (releaseHold s) where
  line := by rw [releaseHold_only]; exact id
  dosed := by rw [releaseHold_only]; rfl
  bin := by rw [releaseHold_only]; exact id
  stages := fun i p h => by rw [releaseHold_only] at h; cases i <;> exact h
  bucket := fun _ => by rw [releaseHold_only]
  hold := fun h => by rw [releaseHold_state] at h; cases h
  spout := by rw [releaseHold_only]; exact id

theorem endStep_rests (s : State) : Rests s (endStep s) := by
  unfold endStep
  split
  · rename_i st hst
    have h1 : Rests s { writeFinal st s with step := none, stepTimer := .stopped } := by
      rw [writeFinal_only]
      exact ⟨fun h => h, rfl, fun h => h, fun i p h => by cases i <;> exact h, fun _ => rfl, fun h => h,
        fun h => by simp [spoutOpen] at h⟩
    exact Rests.ite (h1.trans (releaseHold_rests _)) h1
  · exact Rests.refl s

theorem watchStep_rests (s : State) : Rests s (watchStep s) := by
  have h1 : Rests s (if s.fin.entering then closeSpout .entering s else if permitsDrawing s then s else closeSpout .bin s) :=
    Rests.ite (closeSpout_rests _ s) (Rests.ite (Rests.refl s) (closeSpout_rests _ s))
  exact Rests.ite (h1.trans (endStep_rests _)) h1

theorem abandonBay_rests (s : State) : Rests s (abandonBay s) := Rests.ite (releaseHold_rests s) (Rests.refl s)

/-! ### The book, the reports, the timers and the outputs -/

theorem freeCancelled_rests (s : State) : Rests s (freeCancelled s) :=
  Rests.of_eq (by unfold freeCancelled; rw [endAllCancelled_only]; rfl)

theorem markLoaded_rests (s : State) : Rests s (markLoaded s) :=
  Rests.of_eq (by unfold markLoaded; rw [markAll_only]; rfl)

theorem makeUps_rests (s : State) : Rests s (makeUps s) :=
  Rests.of_eq (by unfold makeUps; rw [makeUpAll_only]; rfl)

theorem followLoops_rests (s : State) : Rests s (followLoops s) := Rests.of_eq rfl

/-- R180: the line that pauses comes to PAUSED. -/
theorem pauseReports_rests (s : State) : Rests s (pauseReports s) := by
  have hl : (pauseReports s).line = s.line ∨ (pauseReports s).line = .paused := by
    unfold pauseReports
    dsimp only
    split
    · split
      · right
        rw [setLine_only]
      · exact Or.inl rfl
    · exact Or.inl rfl
  have hw := pauseReports_only s
  generalize pauseReports s = u at hl hw
  constructor
  case line =>
    intro h
    rcases hl with hl | hl <;> rw [hl]
    · exact h
    · decide
  all_goals rw [hw]
  case dosed => rfl
  case bin => exact id
  case stages => exact fun i p h => by cases i <;> exact h
  case bucket => exact fun _ => rfl
  case hold => exact id
  case spout => exact id

theorem timers_rests (s : State) : Rests s (timers s) := Rests.of_eq rfl

theorem reannounce_rests (s : State) : Rests s (reannounce s) := Rests.of_eq (by rw [reannounce_only]; rfl)

theorem drive_inFlight (s : State) : (drive s).channels.map Channel.inFlight = s.channels.map Channel.inFlight := by
  unfold drive
  dsimp only
  (repeat' split) <;> simp [Function.comp_def]

theorem drive_rests (s : State) : Rests s (drive s) := by
  have hc := drive_inFlight s
  have hw := drive_only s
  generalize drive s = u at hc hw
  refine Rests.of_eq ?_
  unfold State.begun State.dosed
  rw [hc, hw]

/-! ### The close of an event -/

theorem passBook_offRun {s : State} (h : s.line ≠ .run) :
    passBook s = makeUps (markLoaded (freeCancelled (watchStep s))) := by
  have hl : (makeUps (markLoaded (freeCancelled (watchStep s)))).line ≠ .run :=
    (((watchStep_rests s).trans (freeCancelled_rests _)).trans ((markLoaded_rests _).trans (makeUps_rests _))).line h
  unfold passBook
  rw [admissionAttempt_offRun hl, beginBucketDischarge_offRun hl, beginRemainder_offRun hl]

theorem pass_rests {s : State} (h : s.line ≠ .run) : Rests s (pass s) := by
  have hl : Rests s (passLine s) := by
    rw [passLine_offRun h]
    exact (unbarStages_rests s).trans (watchPermission_rests _)
  refine (hl.trans ?_).trans (followLoops_rests _)
  rw [passBook_offRun (hl.line h)]
  exact ((watchStep_rests _).trans (freeCancelled_rests _)).trans ((markLoaded_rests _).trans (makeUps_rests _))

theorem rounds_rests {s : State} (h : s.line ≠ .run) : Rests s (rounds s) := by
  have h1 := pass_rests h
  have h2 := pass_rests (h1.line h)
  exact (h1.trans h2).trans (pass_rests (h2.line (h1.line h)))

theorem close_rests {s : State} (h : s.line ≠ .run) : Rests s (close s) := by
  have h1 := (rounds_rests h).trans (abandonBay_rests _)
  unfold close
  rw [takeBay_offRun (h1.line h)]
  exact ((h1.trans (pauseReports_rests _)).trans (timers_rests _)).trans ((reannounce_rests _).trans (drive_rests _))

/-- Settles O5: each operation of the close of an event off RUN begins nothing, so neither does the close. -/
theorem nothingBeginsOffRun : Obligations.NothingBeginsOffRun := by
  rintro s u t h rfl
  have hr := close_rests h
  have hd := hr.dosed
  simp only [State.dosed, Dosed.mk.injEq] at hd
  obtain ⟨hn, hc, hp, hs, hb, hf⟩ := hd
  exact ⟨hr.line h, hn, hc, hp, hs, hb, hf, hr.bin, fun i p hi => hr.stages i p (Or.inl hi), hr.bucket, hr.hold, hr.spout⟩

end Sys2Proof.Machine
end

