-- ==== Sys2Proof/Proofs/PowerOn.lean ====
section
/-! SUPPORT. O6: the values of a node that has been powered on. -/
namespace Sys2Proof.Machine

/-- R189, R206: a start without a fault has the LINE-STATE notice in its queue and nothing else. -/
theorem powerOn_started {pins : BitVec 11} {m : List Byte} (inp : Inputs) (s : State)
    (h : startFault (readStraps pins) m = none) :
    powerOn pins m inp s = { startedState (readStraps pins) (readParams m) inp s with
      tx := [OutEntry.fresh (.notice (.lineState (firstLine inp.stopLine) .reset))] } := by
  unfold powerOn
  simp only [h]
  rfl

/-- R62: the channels of a scale that is not fed are off. -/
theorem channelOutput_idle {s : State} (h : s.scale.state = .idle) (c : Channel) : channelOutput s c = .off := by
  unfold channelOutput feedRate
  rw [h]
  split <;> rfl

theorem firstLine_ne_run (stop : Bool) : firstLine stop ≠ .run ∧ firstLine stop ≠ .pausing := by
  cases stop <;> decide

/-- R186: the RUN lamp of a line that neither runs nor pauses is dark. -/
theorem runLit_dark {s : State} (h : s.line ≠ .run ∧ s.line ≠ .pausing) : runLit s = false := by
  simp [runLit, runFlashes, h.1, h.2]

/-- Settles O6, by evaluation of the start and of the outputs it drives. -/
theorem powerOnValuesOfEveryBlock : Obligations.PowerOnValuesOfEveryBlock := by
  intro pins m inp s h
  refine ⟨_, _, rfl, rfl, ?_⟩
  rw [powerOn_started inp s h]
  generalize hs : ({ startedState (readStraps pins) (readParams m) inp s with
    tx := [OutEntry.fresh (.notice (.lineState (firstLine inp.stopLine) .reset))] } : State) = u
  have hr : ready u = true := by rw [← hs]; rfl
  have hc : u.channels.map (fun c => { c with output := channelOutput u c }) = u.channels := by
    rw [← hs]
    simp [startedState, loadChannels, Function.comp_def, channelOutput_idle, State.reset, Scale.blank]
  unfold drive
  rw [if_pos hr]
  dsimp only
  rw [hc, ← hs]
  refine ⟨rfl, rfl, rfl, rfl, rfl, rfl, rfl, rfl, rfl, rfl, rfl, by simp [startedState], fun k hk => ?_, rfl, rfl, rfl, rfl,
    ⟨rfl, rfl, rfl, rfl, rfl, rfl, rfl, rfl⟩, rfl, rfl, rfl, rfl, ?_, rfl, ?_, ⟨rfl, rfl, rfl⟩, rfl, ?_, rfl, rfl, rfl,
    ⟨rfl, rfl, rfl, rfl, rfl, rfl, rfl⟩, rfl, rfl, rfl, rfl, rfl, ⟨rfl, ?_, rfl, rfl, rfl⟩, rfl, rfl, ?_, rfl, rfl⟩
  · simp [startedState, BinEntry.blank, hk]
  · simp [startedState, State.reset, StageRec.blank]
  · simp [startedState, State.reset, Train.blank, FeedLoop.blank]
  · simp [startedState, State.reset, Train.blank]
  · exact runLit_dark (firstLine_ne_run inp.stopLine)
  · exact congrArg (fun l => lampPins false l false false) (runLit_dark (firstLine_ne_run inp.stopLine))

end Sys2Proof.Machine
end

