-- ==== Sys2Proof/Proofs/Reservations.lean ====
section
/-! SUPPORT. The reservation table of R7 and R52: the mass it holds of each ingredient after an addition, a subtraction, the
reserving of a run and the release of an order. -/
namespace Sys2Proof.Machine

/-- The ingredients of a table are distinct (R52). -/
abbrev Apart (l : List Reservation) : Prop := (l.map Reservation.code).Nodup

/-! ### Subtraction and release -/

theorem massOf_nil (code : Nat) : massOf code [] = 0 := rfl

theorem massOf_cons (code : Nat) (r : Reservation) (l : List Reservation) :
    massOf code (r :: l) = if r.code = code then r.mass else massOf code l := by
  unfold massOf
  rw [List.find?_cons]
  by_cases h : r.code = code <;> simp [h]

theorem massOf_absent {code : Nat} {l : List Reservation} (h : ∀ r ∈ l, r.code ≠ code) : massOf code l = 0 := by
  unfold massOf
  rw [List.find?_eq_none.2 (fun r hr => by simpa using h r hr)]

theorem subReservation_cons (code m : Nat) (r : Reservation) (l : List Reservation) :
    subReservation code m (r :: l) = (if r.code = code then (if r.mass - m = 0 then [] else [{ r with mass := r.mass - m }])
      else [r]) ++ subReservation code m l := by
  unfold subReservation
  rw [List.filterMap_cons]
  by_cases hc : r.code = code
  · by_cases hm : r.mass - m = 0 <;> simp [hc, hm]
  · simp [hc]

theorem subReservation_apart (code m : Nat) {l : List Reservation} (h : Apart l) : Apart (subReservation code m l) :=
  (subReservation_codes code m l).nodup h

/-- R52: the mass subtracted leaves its ingredient, and no other. -/
theorem massOf_subReservation (c code m : Nat) {l : List Reservation} (h : Apart l) :
    massOf c (subReservation code m l) = if c = code then massOf c l - m else massOf c l := by
  induction l with
  | nil => simp [subReservation, massOf_nil]
  | cons r rs ih =>
    obtain ⟨hr, hrs⟩ := List.nodup_cons.1 h
    have ih := ih hrs
    have habs : massOf r.code rs = 0 :=
      massOf_absent (fun q hq e => hr (e ▸ List.mem_map_of_mem hq))
    rw [subReservation_cons, massOf_cons]
    by_cases hc : r.code = code
    · rw [if_pos hc]
      by_cases hm : r.mass - m = 0
      · rw [if_pos hm, List.nil_append, ih]
        by_cases he : c = code
        · subst he
          rw [hc] at habs
          simp [hc, habs, hm]
        · have hne : r.code ≠ c := fun e => he (e ▸ hc)
          simp [he, hne]
      · rw [if_neg hm, List.singleton_append, massOf_cons, ih]
        by_cases he : c = code
        · subst he
          simp [hc]
        · have hne : r.code ≠ c := fun e => he (e ▸ hc)
          simp [he, hne]
    · rw [if_neg hc, List.singleton_append, massOf_cons, ih]
      by_cases he : c = code
      · subst he
        simp [hc]
      · simp [he]

/-- R7: the remainders of a list leave the table. -/
theorem massOf_release (c : Nat) (rs : List Reservation) {l : List Reservation} (h : Apart l) :
    massOf c (rs.foldl (fun l r => subReservation r.code r.mass l) l)
      = massOf c l - ((rs.filter (fun r => decide (r.code = c))).map Reservation.mass).sum := by
  induction rs generalizing l with
  | nil => simp
  | cons r rs ih =>
    rw [List.foldl_cons, ih (subReservation_apart _ _ h), massOf_subReservation _ _ _ h, List.filter_cons]
    by_cases hc : r.code = c
    · simp only [hc, decide_true, if_true, List.map_cons, List.sum_cons]
      omega
    · simp [hc, Ne.symm hc]

theorem releases_one {o : Order} {before after : List Reservation} :
    Releases [o] before after ↔ ∀ code, massOf code after = massOf code before - heldFor code o := by
  simp [Releases]

theorem releases_nil {before after : List Reservation} :
    Releases [] before after ↔ ∀ code, massOf code after = massOf code before := by
  simp [Releases]

theorem Releases.cons {o : Order} {os : List Order} {a b c : List Reservation} (h : Releases [o] a b)
    (h' : Releases os b c) : Releases (o :: os) a c := by
  intro code
  rw [h' code, releases_one.1 h code, List.map_cons, List.sum_cons]
  omega

/-- R7: a release, by the remainders of the order found. -/
theorem releaseReservations_releases {id : Nat} {s : State} {o : Order} (h : Apart s.reservations)
    (ho : findOrder id s = some o) : Releases [o] s.reservations (releaseReservations id s).reservations := by
  rw [releases_one]
  intro code
  unfold releaseReservations
  rw [ho]
  exact massOf_release code o.remainders h

theorem releaseReservations_apart (id : Nat) {s : State} (h : Apart s.reservations) :
    Apart (releaseReservations id s).reservations := by
  unfold releaseReservations
  split
  · exact (foldl_subReservation_codes _ _).nodup h
  · exact h

theorem releaseReservations_length (id : Nat) (s : State) :
    (releaseReservations id s).reservations.length ≤ s.reservations.length := by
  unfold releaseReservations
  split
  · rename_i o _
    simpa using (foldl_subReservation_codes o.remainders s.reservations).length_le
  · exact le_refl _

/-- R7: a release leaves the order with nothing reserved. -/
def Order.released (o : Order) : Order := { o with remainders := o.remainders.map (fun r => { r with mass := 0 }) }

theorem releaseReservations_slots (id : Nat) (s : State) :
    (releaseReservations id s).slots = s.slots.map (fun o => if o.id = id then o.released else o) := by
  unfold releaseReservations
  split
  · rfl
  · rename_i hn
    refine (List.map_id' _).symm.trans (List.map_congr_left (fun o ho => ?_))
    have : o.id ≠ id := by simpa using List.find?_eq_none.1 hn o ho
    rw [if_neg this]

theorem findOrder_releaseReservations (i id : Nat) (s : State) :
    findOrder i (releaseReservations id s) = (findOrder i s).map (fun o => if o.id = id then o.released else o) :=
  (findOrder_congr (releaseReservations_slots id s) i).trans (findOrder_map (fun o => by split <;> rfl) i s)

theorem heldFor_released (code : Nat) (o : Order) : heldFor code o.released = 0 := by
  unfold heldFor Order.released
  rw [List.sum_eq_zero_iff]
  intro m hm
  obtain ⟨r, hr, rfl⟩ := List.mem_map.1 hm
  obtain ⟨q, -, rfl⟩ := List.mem_map.1 (List.mem_filter.1 hr).1
  rfl

/-- A release of an order with nothing reserved changes no mass of the table. -/
theorem releases_released {o : Order} {a b : List Reservation} (h : Releases [o.released] a b) :
    ∀ code, massOf code b = massOf code a := fun code => by
  rw [releases_one.1 h code, heldFor_released, Nat.sub_zero]

theorem freeSlot_reservations (id : Nat) (s : State) :
    (freeSlot id s).reservations = (releaseReservations id s).reservations := rfl

theorem freeSlot_slots (id : Nat) (s : State) : (freeSlot id s).slots = s.slots.filter (fun o => decide (o.id ≠ id)) := by
  show (releaseReservations id s).slots.filter _ = _
  rw [releaseReservations_slots, List.filter_map, List.filter_congr (q := fun o => decide (o.id ≠ id))]
  · refine (List.map_congr_left (fun o ho => ?_)).trans (List.map_id' _)
    rw [if_neg (by simpa using (List.mem_filter.1 ho).2)]
  · intro o _
    simp only [Function.comp]
    split <;> rfl

/-! ### Addition and the reserving of a run -/

theorem massOf_satAdd (c code m : Nat) (l : List Reservation) (h : ∃ r ∈ l, r.code = code) :
    massOf c (l.map (fun r => if r.code = code then { r with mass := satMass (r.mass + m) } else r))
      = if c = code then min 16777215 (massOf c l + m) else massOf c l := by
  induction l with
  | nil => simp at h
  | cons r rs ih =>
    rw [List.map_cons, massOf_cons, massOf_cons]
    by_cases hr : r.code = code
    · by_cases hc : c = code
      · simp [hr, hc, satMass_eq]
      · have hrc : r.code ≠ c := fun e => hc (e ▸ hr)
        by_cases hrs : ∃ q ∈ rs, q.code = code
        · simp [hr, Ne.symm hc, ih hrs, hc]
        · have hid : rs.map (fun r => if r.code = code then { r with mass := satMass (r.mass + m) } else r) = rs := by
            refine (List.map_congr_left (fun q hq => ?_)).trans (List.map_id' _)
            exact if_neg (fun e => hrs ⟨q, hq, e⟩)
          simp [hr, Ne.symm hc, hid, hc]
    · have hrs : ∃ q ∈ rs, q.code = code := by
        obtain ⟨q, hq, he⟩ := h
        rcases List.mem_cons.1 hq with rfl | hq
        · exact absurd he hr
        · exact ⟨q, hq, he⟩
      rw [ih hrs]
      by_cases hc : c = code
      · simp [hr, hc]
      · simp [hr, hc]

theorem massOf_append (c : Nat) (l : List Reservation) (r : Reservation) (h : ∀ q ∈ l, q.code ≠ r.code) :
    massOf c (l ++ [r]) = if c = r.code then r.mass else massOf c l := by
  induction l with
  | nil => simp [massOf_cons, massOf_nil, eq_comm]
  | cons q qs ih =>
    rw [List.cons_append, massOf_cons, massOf_cons, ih (fun x hx => h x (by simp [hx]))]
    have hq := h q (by simp)
    by_cases hc : c = r.code
    · simp [hc, hq]
    · simp [hc]

/-- R52: the mass added joins its ingredient, and no other. -/
theorem massOf_addReservation {c code m : Nat} {l t : List Reservation} (h : addReservation code m l = some t) :
    massOf c t = if c = code then min 16777215 (massOf c l + m) else massOf c l := by
  unfold addReservation at h
  split at h
  · rename_i hany
    obtain rfl := Option.some.inj h
    exact massOf_satAdd c code m l (by simpa using hany)
  · rename_i hany
    have habs : ∀ r ∈ l, r.code ≠ code := by simpa using hany
    split at h
    · rename_i hm
      obtain rfl := Option.some.inj h
      by_cases hc : c = code
      · rw [if_pos hc, hc, massOf_absent habs, hm]
        rfl
      · rw [if_neg hc]
    · split at h
      · obtain rfl := Option.some.inj h
        rw [massOf_append c l _ habs]
        by_cases hc : c = code
        · rw [if_pos hc, if_pos hc, hc, massOf_absent habs, satMass_eq, Nat.zero_add]
        · rw [if_neg hc, if_neg hc]
      · cases h

/-- An entry that stands stays; one that does not is made for its ingredient alone. -/
theorem addReservation_codes {code m : Nat} {l t : List Reservation} (h : addReservation code m l = some t) :
    (∀ c, (∃ r ∈ l, r.code = c) → ∃ r ∈ t, r.code = c)
      ∧ (∀ c, c ≠ code → (∀ r ∈ l, r.code ≠ c) → ∀ r ∈ t, r.code ≠ c)
      ∧ l.length ≤ t.length ∧ t.length ≤ l.length + 1 := by
  unfold addReservation at h
  split at h
  · obtain rfl := Option.some.inj h
    refine ⟨fun c hc => ?_, fun c _ hc r hr => ?_, by simp, by simp⟩
    · obtain ⟨r, hr, he⟩ := hc
      refine ⟨_, List.mem_map_of_mem hr, ?_⟩
      split <;> exact he
    · obtain ⟨q, hq, rfl⟩ := List.mem_map.1 hr
      split <;> exact hc q hq
  · split at h
    · obtain rfl := Option.some.inj h
      exact ⟨fun _ hc => hc, fun _ _ hc => hc, le_refl _, Nat.le_succ _⟩
    · split at h
      · obtain rfl := Option.some.inj h
        refine ⟨fun c ⟨r, hr, he⟩ => ⟨r, List.mem_append_left _ hr, he⟩, fun c hne hc r hr => ?_, by simp, by simp⟩
        rcases List.mem_append.1 hr with hr | hr
        · exact hc r hr
        · obtain rfl := List.mem_singleton.1 hr
          exact Ne.symm hne
      · cases h

theorem addReservation_room {code m : Nat} {l : List Reservation} (h : (∃ r ∈ l, r.code = code) ∨ l.length < 64) :
    ∃ t, addReservation code m l = some t := by
  unfold addReservation
  by_cases hany : l.any (fun r => decide (r.code = code)) = true
  · exact ⟨_, if_pos hany⟩
  · rw [if_neg hany]
    have hl : l.length < 64 := h.resolve_left (fun he => hany (by simpa using he))
    by_cases hm : m = 0
    · exact ⟨_, if_pos hm⟩
    · exact ⟨_, by rw [if_neg hm, if_pos hl]⟩

theorem addReservation_full {code m : Nat} {l : List Reservation} (h : ∀ r ∈ l, r.code ≠ code) (hl : 64 ≤ l.length)
    (hm : m ≠ 0) : addReservation code m l = none := by
  unfold addReservation
  rw [if_neg (by simpa using h), if_neg hm, if_neg (by omega)]

theorem reserveParts_codes (ps : List Planned) (t : List Reservation) :
    (reserveParts ps t).2.map Reservation.code = ps.map Planned.code := by
  induction ps generalizing t with
  | nil => rfl
  | cons c cs ih =>
    unfold reserveParts
    split <;> simp [ih]

theorem massOf_reserveParts_other {code : Nat} {ps : List Planned} (h : ∀ c ∈ ps, c.code ≠ code) (t : List Reservation) :
    massOf code (reserveParts ps t).1 = massOf code t := by
  induction ps generalizing t with
  | nil => rfl
  | cons c cs ih =>
    have ih := ih (fun x hx => h x (by simp [hx]))
    have hc := h c (by simp)
    unfold reserveParts
    split
    · rename_i u hu
      rw [ih, massOf_addReservation hu, if_neg (Ne.symm hc)]
    · exact ih t

/-- R7, R52: the parts of a run, whose ingredients are distinct, enter the table and the remainders. -/
theorem reserveParts_reserves (ps : List Planned) (t : List Reservation) (h : (ps.map Planned.code).Nodup) :
    Reserves ps t (reserveParts ps t).1 (reserveParts ps t).2 := by
  refine ⟨reserveParts_codes ps t, fun code hc => massOf_reserveParts_other hc t, ?_⟩
  induction ps generalizing t with
  | nil => simp
  | cons c cs ih =>
    obtain ⟨hc, hcs⟩ := List.nodup_cons.1 h
    have hother : ∀ x ∈ cs, x.code ≠ c.code := fun x hx e => hc (e ▸ List.mem_map_of_mem hx)
    intro x hx
    unfold reserveParts
    rcases List.mem_cons.1 hx with rfl | hx
    · refine ⟨fun hroom => ?_, fun habs hfull hm => ?_⟩
      · obtain ⟨u, hu⟩ := addReservation_room (m := x.target)
          (hroom.imp_right (fun hl => by rw [List.length_cons] at hl; omega))
        rw [hu]
        dsimp only
        rw [massOf_cons, if_pos rfl, massOf_reserveParts_other hother, massOf_addReservation hu, if_pos rfl]
        exact ⟨rfl, rfl⟩
      · rw [addReservation_full habs hfull hm]
        dsimp only
        rw [massOf_cons, if_pos rfl, massOf_reserveParts_other hother, massOf_absent habs]
        exact ⟨rfl, rfl⟩
    · have hne : c.code ≠ x.code := Ne.symm (hother x hx)
      split
      · rename_i u hu
        obtain ⟨hkeep, hnew, hlow, hup⟩ := addReservation_codes hu
        obtain ⟨h1, h2⟩ := ih u hcs x hx
        have hmass : massOf x.code u = massOf x.code t := by
          rw [massOf_addReservation hu, if_neg (Ne.symm hne)]
        dsimp only
        rw [massOf_cons, if_neg hne, ← hmass]
        refine ⟨fun hroom => h1 (hroom.imp (hkeep x.code) (fun hl => ?_)), fun habs hfull => h2 (hnew _ (Ne.symm hne) habs) (by omega)⟩
        rw [List.length_cons] at hl
        omega
      · obtain ⟨h1, h2⟩ := ih t hcs x hx
        dsimp only
        rw [massOf_cons, if_neg hne]
        refine ⟨fun hroom => h1 (hroom.imp_right (fun hl => ?_)), h2⟩
        rw [List.length_cons] at hl
        omega

/-! ### The parts of a run -/

theorem plannedOf_codes (mass : Nat) (formula : List Component) :
    (plannedOf mass formula).map Planned.code = formula.map Component.code := by
  unfold plannedOf
  refine List.ext_getElem (by simp [largestRemainder_length]) (fun i _ _ => ?_)
  simp

theorem machineParts_codes_nodup (mass : Nat) {formula : List Component} (h : (formula.map Component.code).Nodup) :
    ((machineParts mass formula).map Planned.code).Nodup := by
  refine List.Nodup.sublist (List.filter_sublist.map _) ?_
  rwa [plannedOf_codes]

theorem reserveRun_eq {id : Nat} {s : State} {o : Order} (ho : findOrder id s = some o) :
    reserveRun id s =
      updOrder id (fun x => { x with remainders := (reserveParts (machineParts o.runMass o.formula) s.reservations).2 })
        { s with reservations := (reserveParts (machineParts o.runMass o.formula) s.reservations).1 } := by
  unfold reserveRun
  rw [ho]

/-- R7: the run of the order found is reserved, in the table and in its remainders. -/
theorem reserveRun_reserves {id : Nat} {s : State} {o : Order} (ho : findOrder id s = some o)
    (hf : (o.formula.map Component.code).Nodup) :
    ∃ rem, findOrder id (reserveRun id s) = some { o with remainders := rem }
      ∧ Reserves (machineParts o.runMass o.formula) s.reservations (reserveRun id s).reservations rem := by
  have hr := reserveParts_reserves _ s.reservations (machineParts_codes_nodup o.runMass hf)
  rw [reserveRun_eq ho]
  generalize reserveParts (machineParts o.runMass o.formula) s.reservations = p at hr ⊢
  have hs : findOrder id { s with reservations := p.1 } = some o := ho
  exact ⟨p.2, findOrder_updOrder_self (f := fun x => { x with remainders := p.2 }) (fun _ => rfl) hs, hr⟩

end Sys2Proof.Machine
end

