-- ==== Sys2Proof/Proofs/RecordStep.lean ====
section
/-! SUPPORT. O45: the record step of R72, R83. `Beside p s u` says what the starting and the closing of other components
leave of the component at position p. -/
namespace Sys2Proof.Machine

/-! ### The component at a position -/

/-- The first dose record of a position. -/
def doseAt (p : Nat) (s : State) : Option Dose :=
  s.scale.batch.bind (fun b => b.doses.find? (fun y => decide (y.position = p)))

theorem dosesOf_updDose (q : Nat) (f : Dose → Dose) (s : State) :
    dosesOf (updDose q f s) = (dosesOf s).map (fun d => if d.position = q then f d else d) := by
  unfold dosesOf updDose
  cases s.scale.batch <;> rfl

theorem doseAt_eq (p : Nat) (s : State) : doseAt p s = (dosesOf s).find? (fun y => decide (y.position = p)) := by
  unfold doseAt dosesOf
  cases s.scale.batch <;> rfl

theorem curDose_eq (s : State) : curDose s = (dosesOf s).find? (fun y => decide (y.status = .inProgress)) := by
  unfold curDose dosesOf
  cases s.scale.batch <;> rfl

theorem nextWaiting_eq (s : State) : nextWaiting s = (dosesOf s).find? (fun y => decide (y.status = .waiting)) := by
  unfold nextWaiting dosesOf
  cases s.scale.batch <;> rfl

theorem doseCount_eq (s : State) : doseCount s = (dosesOf s).length := by
  unfold doseCount dosesOf
  cases s.scale.batch <;> rfl

theorem curDose_mem {s : State} {d : Dose} (h : curDose s = some d) : d ∈ dosesOf s ∧ d.status = .inProgress := by
  rw [curDose_eq] at h
  exact ⟨List.mem_of_find?_eq_some h, by simpa using List.find?_some h⟩

theorem nextWaiting_mem {s : State} {d : Dose} (h : nextWaiting s = some d) : d ∈ dosesOf s ∧ d.status = .waiting := by
  rw [nextWaiting_eq] at h
  exact ⟨List.mem_of_find?_eq_some h, by simpa using List.find?_some h⟩

theorem doseAt_updDose_other {p q : Nat} (h : q ≠ p) {f : Dose → Dose} (hf : ∀ d, (f d).position = d.position) (s : State) :
    doseAt p (updDose q f s) = doseAt p s := by
  rw [doseAt_eq, doseAt_eq, dosesOf_updDose, List.find?_map]
  have hp : ∀ d : Dose, (if d.position = q then f d else d).position = d.position := fun d => by
    split
    · exact hf d
    · rfl
  simp only [Function.comp_def, hp]
  cases hd : (dosesOf s).find? (fun y => decide (y.position = p)) with
  | none => rfl
  | some d =>
    have hd : d.position = p := by simpa using List.find?_some hd
    simp [hd, h.symm]

theorem planEntry_updPlanEntry_self {p : Nat} {f : PlanEntry → PlanEntry} (hf : ∀ e, (f e).position = e.position)
    (s : State) : planEntry p (updPlanEntry p f s) = (planEntry p s).map f := by
  unfold planEntry updPlanEntry
  cases s.plan with
  | none => rfl
  | some q =>
    simp only [Option.map_some, Option.bind_some, DrawPlan.entry, List.find?_map]
    have hp : ∀ e : PlanEntry, (if e.position = p then f e else e).position = e.position := fun e => by
      split
      · exact hf e
      · rfl
    simp only [Function.comp_def, hp]
    cases h : q.entries.find? (fun e => decide (e.position = p)) with
    | none => rfl
    | some e =>
      have he : e.position = p := by simpa using List.find?_some h
      simp [he]

theorem planEntry_updPlanEntry_other {p q : Nat} (h : q ≠ p) {f : PlanEntry → PlanEntry}
    (hf : ∀ e, (f e).position = e.position) (s : State) : planEntry p (updPlanEntry q f s) = planEntry p s := by
  unfold planEntry updPlanEntry
  cases s.plan with
  | none => rfl
  | some r =>
    simp only [Option.map_some, Option.bind_some, DrawPlan.entry, List.find?_map]
    have hp : ∀ e : PlanEntry, (if e.position = q then f e else e).position = e.position := fun e => by
      split
      · exact hf e
      · rfl
    simp only [Function.comp_def, hp]
    cases he : r.entries.find? (fun e => decide (e.position = p)) with
    | none => rfl
    | some e =>
      have he : e.position = p := by simpa using List.find?_some he
      simp [he, h.symm]

/-! ### The head of the queue -/

/-- What a queue begins with and cannot lose to a later frame. -/
def Heads (e : OutEntry) (q : List OutEntry) : Prop := e.evictable = false ∧ ∃ rest, q = e :: rest

theorem Heads.append {e : OutEntry} {q : List OutEntry} (h : Heads e q) (r : List OutEntry) : Heads e (q ++ r) := by
  obtain ⟨he, rest, rfl⟩ := h
  exact ⟨he, rest ++ r, rfl⟩

/-- The last entry of a queue stands where it is not of the kind dropped. -/
theorem dropFirst_concat {P : OutEntry → Bool} {e : OutEntry} (he : P e = false) (q : List OutEntry) :
    ∃ r, dropFirst P (q ++ [e]) = r ++ [e] := by
  induction q with
  | nil => exact ⟨[], by simp [dropFirst, he]⟩
  | cons x xs ih =>
    rw [List.cons_append]
    unfold dropFirst
    split
    · exact ⟨xs, rfl⟩
    · obtain ⟨r, hr⟩ := ih
      exact ⟨x :: r, by rw [hr]; rfl⟩

theorem Heads.evict {e : OutEntry} {q : List OutEntry} (h : Heads e q) : Heads e (evictNewest q) := by
  obtain ⟨he, rest, rfl⟩ := h
  obtain ⟨r, hr⟩ := dropFirst_concat he rest.reverse
  refine ⟨he, r.reverse, ?_⟩
  unfold evictNewest
  rw [List.reverse_cons, hr, List.reverse_append]
  rfl

theorem pushSoft_heads {e : OutEntry} (b : Body) {s : State} (h : Heads e s.tx) : Heads e (pushSoft b s).tx := by
  unfold pushSoft
  split
  · exact h.append _
  · exact h

theorem raiseFault_heads {e : OutEntry} (k : FaultKey) (reference : Option Nat) (detail : List DetailField) {s : State}
    (h : Heads e s.tx) : Heads e (raiseFault k reference detail s).tx := by
  unfold raiseFault
  dsimp only
  split
  · exact pushSoft_heads _ h
  · exact h

theorem queueFrame_heads {e : OutEntry} (b : Body) {s : State} (h : Heads e s.tx) : Heads e (queueFrame b s).tx := by
  unfold queueFrame pushFrame
  split
  · dsimp only
    split
    · exact h.append _
    · exact h.evict.append _
  · split
    · exact h
    · exact raiseFault_heads _ _ _ h

/-! ### What other components leave of it -/

/-- The component at position p, the bins, and the head of the queue stand. -/
structure Beside (p : Nat) (s u : State) : Prop where
  dose  : doseAt p u = doseAt p s
  entry : planEntry p u = planEntry p s
  bins  : u.bins = s.bins
  waits : (∀ x ∈ dosesOf s, x.status = .waiting → x.position ≠ p) →
    ∀ x ∈ dosesOf u, x.status = .waiting → x.position ≠ p
  heads : ∀ e, Heads e s.tx → Heads e u.tx

theorem Beside.refl (p : Nat) (s : State) : Beside p s s := ⟨rfl, rfl, rfl, fun h => h, fun _ h => h⟩

theorem Beside.trans {p : Nat} {s u v : State} (h : Beside p s u) (h' : Beside p u v) : Beside p s v :=
  ⟨h'.dose.trans h.dose, h'.entry.trans h.entry, h'.bins.trans h.bins, fun hs => h'.waits (h.waits hs),
    fun e he => h'.heads e (h.heads e he)⟩

theorem queueFrame_beside (p : Nat) (b : Body) (s : State) : Beside p s (queueFrame b s) where
  dose := by rw [queueFrame_only]; rfl
  entry := by rw [queueFrame_only]; rfl
  bins := by rw [queueFrame_only]
  waits := by rw [queueFrame_only]; exact id
  heads := fun _ => queueFrame_heads b

theorem setScale_beside (p : Nat) (st : ScaleState) (s : State) : Beside p s (setScale st s) :=
  ⟨rfl, rfl, rfl, fun h => h, fun _ h => h⟩

theorem holdScale_beside (p : Nat) (k : FaultKey) (detail : List DetailField) (r : ResumePoint) (s : State) :
    Beside p s (holdScale k detail r s) := by
  have h : Beside p s (raiseFault k (scaleRef s) detail s) := by
    constructor
    case heads => exact fun _ => raiseFault_heads _ _ _
    all_goals rw [raiseFault_only]
    case dose => rfl
    case entry => rfl
    case waits => exact id
  exact h.trans ⟨rfl, rfl, rfl, fun h => h, fun _ h => h⟩

theorem updDose_beside {p q : Nat} (h : q ≠ p) {f : Dose → Dose} (hf : ∀ d, (f d).position = d.position) (s : State) :
    Beside p s (updDose q f s) where
  dose := doseAt_updDose_other h hf s
  entry := rfl
  bins := rfl
  waits := fun hs x hx hw => by
    rw [dosesOf_updDose] at hx
    obtain ⟨y, hy, rfl⟩ := List.mem_map.1 hx
    by_cases hq : y.position = q
    · rw [if_pos hq, hf, hq]
      exact h
    · rw [if_neg hq] at hw ⊢
      exact hs y hy hw
  heads := fun _ h => h

theorem updPlanEntry_beside {p q : Nat} (h : q ≠ p) {f : PlanEntry → PlanEntry} (hf : ∀ e, (f e).position = e.position)
    (s : State) : Beside p s (updPlanEntry q f s) :=
  ⟨rfl, planEntry_updPlanEntry_other h hf s, rfl, fun h => h, fun _ h => h⟩

/-- A draw of nothing leaves every estimate. -/
theorem updBin_subEstimate_zero (bin : Nat) (s : State) : updBin bin (subEstimate 0) s = s := by
  have h : s.bins.map (fun e => if e.bin = bin then subEstimate 0 e else e) = s.bins := by
    refine (List.map_congr_left (fun e _ => ?_)).trans (List.map_id' _)
    have : subEstimate 0 e = e := by
      unfold subEstimate
      simp only [Nat.sub_zero, Option.map_id']
    rw [this, ite_self]
  unfold updBin
  rw [h]

section Others
variable {p : Nat} {d : Dose} (h : d.position ≠ p) (s : State)
include h

theorem answerZero_beside : Beside p s (answerZero d s) := by
  unfold answerZero
  split
  · exact (queueFrame_beside p _ s).trans (updDose_beside h (f := fun d => { d with announced := false }) (fun _ => rfl) _)
  · exact Beside.refl p s

theorem zeroReport_beside : Beside p s (zeroReport d s) := by
  unfold zeroReport
  split
  · split
    · rename_i e _
      refine Beside.trans ?_ (updDose_beside h (f := fun d => { d with announced := false }) (fun _ => rfl) _)
      have hq := queueFrame_beside p (.drawReport (scaleNumber s) e.bin 0) s
      split
      · unfold reportComplete
        rw [updBin_subEstimate_zero]
        exact hq.trans (updPlanEntry_beside h
          (f := fun e => { e with drawn := satMass (e.drawn + 0), status := .done }) (fun _ => rfl) _)
      · exact hq
    · exact updDose_beside h (f := fun d => { d with announced := false }) (fun _ => rfl) _
  · exact Beside.refl p s

theorem moveBin_beside (bin : Nat) : Beside p s (moveBin d bin s) := by
  unfold moveBin
  split
  · exact ((updPlanEntry_beside h (f := fun e => { e with bin := bin, status := .drawing }) (fun _ => rfl) s).trans
      (queueFrame_beside p _ _)).trans (updDose_beside h (f := fun d => { d with announced := true }) (fun _ => rfl) _)
  · exact Beside.refl p s

theorem confirmStart_beside : Beside p s (confirmStart d s) := by
  unfold confirmStart
  split
  · exact ((updPlanEntry_beside h (f := fun e => { e with status := .drawing }) (fun _ => rfl) s).trans
      (updDose_beside h (f := fun x => { x with mode := some (feedMode d s) }) (fun _ => rfl) _)).trans (setScale_beside p _ _)
  · rename_i bin _
    exact ((moveBin_beside h s bin).trans
      (updDose_beside h (f := fun x => { x with mode := some (feedMode d (moveBin d bin s)) }) (fun _ => rfl) _)).trans
      (setScale_beside p _ _)
  · exact (updDose_beside h (f := fun x => { x with mode := some (feedMode d s) }) (fun _ => rfl) s).trans
      (holdScale_beside p _ _ _ _)

theorem startDose_beside : Beside p s (startDose d s) := by
  have h1 := updDose_beside h (f := fun d => { d with status := .inProgress }) (fun _ => rfl) s
  have hand (u : State) : Beside p u (setScale .tare (updDose d.position (fun d => { d with mode := some .hand }) u)) :=
    (updDose_beside h (f := fun d => { d with mode := some .hand }) (fun _ => rfl) u).trans (setScale_beside p _ _)
  unfold startDose
  dsimp only
  split
  · exact h1.trans (hand _)
  · split
    · exact (h1.trans (answerZero_beside h _)).trans (hand _)
    · exact h1.trans (confirmStart_beside h _)

end Others

theorem startNext_beside {p : Nat} (k : Nat) {s : State}
    (h : ∀ x ∈ dosesOf s, x.status = .waiting → x.position ≠ p) : Beside p s (startNext k s) := by
  induction k generalizing s with
  | zero => exact setScale_beside p _ s
  | succ k ih =>
    unfold startNext
    split
    · exact setScale_beside p _ s
    · rename_i d hd
      obtain ⟨hm, hw⟩ := nextWaiting_mem hd
      have hp := h d hm hw
      split
      · have h1 := (updDose_beside hp (f := fun d => { d with mode := some .nothing, status := .done }) (fun _ => rfl) s).trans
          (answerZero_beside hp _)
        exact h1.trans (ih (h1.waits h))
      · exact startDose_beside hp s

theorem closeWaiting_beside {p : Nat} {ds : List Dose} (h : ∀ x ∈ ds, x.status = .waiting → x.position ≠ p) (s : State) :
    Beside p s (closeWaiting ds s) := by
  induction ds generalizing s with
  | nil => exact Beside.refl p s
  | cons d ds ih =>
    have ih := ih (fun x hx => h x (by simp [hx]))
    unfold closeWaiting
    split
    · rename_i hw
      exact (zeroReport_beside (h d (by simp) hw) s).trans (ih _)
    · exact ih s

theorem zeroReport_only (d : Dose) (s : State) :
    zeroReport d s = { s with scale := (zeroReport d s).scale, plan := (zeroReport d s).plan, bins := (zeroReport d s).bins
                              tx := (zeroReport d s).tx, faults := (zeroReport d s).faults } := by
  unfold zeroReport
  dsimp only
  split
  · split
    · split <;> rw [queueFrame_only] <;> rfl
    · rfl
  · rfl

theorem closeWaiting_only (ds : List Dose) (s : State) :
    closeWaiting ds s = { s with scale := (closeWaiting ds s).scale, plan := (closeWaiting ds s).plan
                                 bins := (closeWaiting ds s).bins, tx := (closeWaiting ds s).tx
                                 faults := (closeWaiting ds s).faults } := by
  induction ds generalizing s with
  | nil => rfl
  | cons d ds ih =>
    unfold closeWaiting
    rw [ih]
    split
    · rw [zeroReport_only]
    · rfl

/-! ### The record step in two parts (R72, R83) -/

/-- R72: the component is reported, consumed and done. -/
def recorded (outcome : DoseOutcome) (adapts : Bool) (d : Dose) (s : State) : State :=
  updDose d.position (fun d => { d with outcome := some outcome, status := .done })
    (consumeDose d (if d.fed then completeReport d (if adapts then adaptChannel d s else s)
      else if adapts then adaptChannel d s else s))

/-- R72, R83: the next component starts, or a batch flagged REWORK is COMPLETE. -/
def passOn (s : State) : State :=
  if scaleRework s then setScale .complete (closeWaiting (dosesOf s) s) else startComponent s

theorem recordStep_eq (outcome : DoseOutcome) (adapts : Bool) (d : Dose) (s : State) :
    recordStep outcome adapts d s = passOn (recorded outcome adapts d s) := rfl

theorem passOn_beside {p : Nat} {s : State} (h : ∀ x ∈ dosesOf s, x.status = .waiting → x.position ≠ p) :
    Beside p s (passOn s) := by
  unfold passOn
  split
  · exact (closeWaiting_beside h s).trans (setScale_beside p _ _)
  · exact startNext_beside _ h

/-- The book, the reservations and the channels are not touched. -/
theorem passOn_kept (s : State) :
    (passOn s).slots = s.slots ∧ (passOn s).reservations = s.reservations ∧ (passOn s).channels = s.channels := by
  unfold passOn
  split
  · rw [closeWaiting_only]
    exact ⟨rfl, rfl, rfl⟩
  · rw [startComponent_only]
    exact ⟨rfl, rfl, rfl⟩

theorem nextWaiting_none {s : State} (h : ∀ x ∈ dosesOf s, x.status ≠ .waiting) : nextWaiting s = none := by
  rw [nextWaiting_eq]
  exact List.find?_eq_none.2 (fun x hx => by simpa using h x hx)

theorem startComponent_last {s : State} (h : nextWaiting s = none) : startComponent s = setScale .complete s := by
  unfold startComponent
  cases doseCount s with
  | zero => rfl
  | succ k =>
    unfold startNext
    rw [h]

theorem closeWaiting_last {ds : List Dose} (h : ∀ x ∈ ds, x.status ≠ .waiting) (s : State) : closeWaiting ds s = s := by
  induction ds with
  | nil => rfl
  | cons d ds ih =>
    unfold closeWaiting
    rw [if_neg (h d (by simp))]
    exact ih (fun x hx => h x (by simp [hx]))

/-- After the last component the unit is COMPLETE, and nothing else. -/
theorem passOn_last {s : State} (h : ∀ x ∈ dosesOf s, x.status ≠ .waiting) : passOn s = setScale .complete s := by
  unfold passOn
  rw [closeWaiting_last h, startComponent_last (nextWaiting_none h), ite_self]

theorem passOn_rework {s : State} (h : scaleRework s = true) : (passOn s).scale.state = .complete := by
  unfold passOn
  rw [if_pos h]
  rfl

/-- R66: the next component with a target goes to work. -/
theorem startComponent_next {s : State} {x : Dose} (h : nextWaiting s = some x) (ht : x.target ≠ 0) :
    startComponent s = startDose x s := by
  have hc : doseCount s = (doseCount s - 1) + 1 := by
    have := List.length_pos_of_mem (nextWaiting_mem h).1
    rw [doseCount_eq]
    omega
  unfold startComponent
  rw [hc]
  unfold startNext
  rw [h]
  exact if_neg ht

/-! ### The component that goes to work -/

/-- A component at the position is in progress. -/
def InHand (p : Nat) (s : State) : Prop := ∃ y ∈ dosesOf s, y.position = p ∧ y.status = .inProgress

theorem InHand.updDose {p q : Nat} {f : Dose → Dose} (hf : ∀ d, (f d).position = d.position ∧ (f d).status = d.status)
    {s : State} (h : InHand p s) : InHand p (updDose q f s) := by
  obtain ⟨y, hy, hp, hs⟩ := h
  unfold InHand
  rw [dosesOf_updDose]
  refine ⟨_, List.mem_map_of_mem hy, ?_⟩
  split
  · exact ⟨(hf y).1.trans hp, (hf y).2.trans hs⟩
  · exact ⟨hp, hs⟩

theorem InHand.congr {p : Nat} {s u : State} (h : InHand p s) (e : dosesOf u = dosesOf s) : InHand p u := by
  unfold InHand
  rwa [e]

theorem queueFrame_doses (b : Body) (s : State) : dosesOf (queueFrame b s) = dosesOf s := by
  rw [queueFrame_only]; rfl

theorem answerZero_inHand {p : Nat} (d : Dose) {s : State} (h : InHand p s) : InHand p (answerZero d s) := by
  unfold answerZero
  split
  · exact (h.congr (queueFrame_doses _ s)).updDose (f := fun d => { d with announced := false }) (fun _ => ⟨rfl, rfl⟩)
  · exact h

theorem moveBin_inHand {p : Nat} (d : Dose) (bin : Nat) {s : State} (h : InHand p s) : InHand p (moveBin d bin s) := by
  unfold moveBin
  split
  · exact InHand.updDose (f := fun d => { d with announced := true }) (fun _ => ⟨rfl, rfl⟩) (h.congr (queueFrame_doses _ _))
  · exact h

theorem confirmStart_inHand {p : Nat} (d : Dose) {s : State} (h : InHand p s) : InHand p (confirmStart d s) := by
  have mode (m : DoseMode) {u : State} (hu : InHand p u) :
      InHand p (updDose d.position (fun x => { x with mode := some m }) u) :=
    hu.updDose (f := fun x => { x with mode := some m }) (fun _ => ⟨rfl, rfl⟩)
  unfold confirmStart
  split
  · exact mode (feedMode d s) (u := updPlanEntry d.position _ s) h
  · exact mode _ (moveBin_inHand d _ h)
  · refine (mode (feedMode d s) h).congr ?_
    unfold holdScale
    rw [raiseFault_only]
    rfl

theorem startDose_inHand {d : Dose} {s : State} (h : d ∈ dosesOf s) : InHand d.position (startDose d s) := by
  have h1 : InHand d.position (updDose d.position (fun d => { d with status := .inProgress }) s) := by
    unfold InHand
    rw [dosesOf_updDose]
    exact ⟨_, List.mem_map_of_mem h, by simp, by simp⟩
  have hand {u : State} (hu : InHand d.position u) :
      InHand d.position (updDose d.position (fun d => { d with mode := some .hand }) u) :=
    hu.updDose (f := fun d => { d with mode := some .hand }) (fun _ => ⟨rfl, rfl⟩)
  unfold startDose
  dsimp only
  split
  · exact hand h1
  · split
    · exact hand (answerZero_inHand d h1)
    · exact confirmStart_inHand d h1

/-! ### What is consumed (R7, R52) -/

/-- R7: the order once a component of it has settled. -/
def Order.consumed (code t : Nat) (o : Order) : Order :=
  { o with remainders := o.remainders.map (fun r => if r.code = code then { r with mass := r.mass - t } else r) }

theorem consume_eq {id : Nat} {s : State} {o : Order} (ho : findOrder id s = some o) (code t : Nat) :
    consume id code t s = updOrder id (Order.consumed code t)
      { s with reservations := subReservation code (min t (massOf code o.remainders)) s.reservations } := by
  unfold consume
  rw [ho]
  rfl

theorem consume_consumes {id : Nat} {s : State} {o : Order} (ho : findOrder id s = some o) (hs : Apart s.reservations)
    (code t : Nat) :
    findOrder id (consume id code t s) = some (o.consumed code t)
      ∧ massOf code (consume id code t s).reservations = massOf code s.reservations - min t (massOf code o.remainders)
      ∧ ∀ c, c ≠ code → massOf c (consume id code t s).reservations = massOf c s.reservations := by
  rw [consume_eq ho]
  refine ⟨findOrder_updOrder_self (s := { s with reservations := _ }) (f := Order.consumed code t) (fun _ => rfl) ho, ?_,
    fun c hc => ?_⟩
  · exact (massOf_subReservation _ _ _ hs).trans (if_pos rfl)
  · exact (massOf_subReservation _ _ _ hs).trans (if_neg hc)

theorem consumeDose_only (d : Dose) (s : State) :
    consumeDose d s = { s with slots := (consumeDose d s).slots, reservations := (consumeDose d s).reservations } := by
  unfold consumeDose
  split
  · split
    · split
      · rw [consume_only]
      · rfl
    · rfl
  · rfl

theorem consumeDose_machine {d : Dose} {s : State} {b : Batch} {id : Nat} (hd : d.machine = true)
    (hb : scaleRecord s = some b) (hk : b.kind = .product) (hi : b.order = some id) :
    consumeDose d s = consume id d.ingredient d.target s := by
  unfold consumeDose
  simp only [hb, hk, hi, hd, if_true]

theorem consumeDose_none {d : Dose} {s : State}
    (h : d.machine = false ∨ ∀ b, scaleRecord s = some b → b.kind = .flush ∨ b.order = none) : consumeDose d s = s := by
  unfold consumeDose
  split
  · rename_i b hb
    split
    · rename_i id hk ho
      rcases h with h | h
      · simp [h]
      · rcases h b hb with h | h
        · rw [h] at hk
          cases hk
        · rw [h] at ho
          cases ho
    · rfl
  · rfl

/-- R7, R72: what the record step consumes, of a state whose book and table are those of `s`. -/
theorem consumeDose_consumes {d : Dose} {s w : State} {b : Batch} {id : Nat} {o : Order} (hd : d.machine = true)
    (hb : scaleRecord w = some b) (hk : b.kind = .product) (hi : b.order = some id) (ho : findOrder id s = some o)
    (hslots : w.slots = s.slots) (hres : w.reservations = s.reservations) (hs : Apart s.reservations) :
    findOrder id (consumeDose d w) = some (o.consumed d.ingredient d.target)
      ∧ massOf d.ingredient (consumeDose d w).reservations
          = massOf d.ingredient s.reservations - min d.target (massOf d.ingredient o.remainders)
      ∧ ∀ c, c ≠ d.ingredient → massOf c (consumeDose d w).reservations = massOf c s.reservations := by
  rw [consumeDose_machine hd hb hk hi, ← hres]
  exact consume_consumes ((findOrder_congr hslots id).trans ho) (hres ▸ hs) d.ingredient d.target

/-! ### The record of the component (R72) -/

/-- R72: the component is done. -/
def Dose.finish (outcome : DoseOutcome) (d : Dose) : Dose := { d with outcome := some outcome, status := .done }

/-- R72: the component's announcement is answered. -/
def Dose.answered (d : Dose) : Dose := { d with announced := false }

/-- R72 steps 2 and 3: the adaptation and the report. -/
def reported (adapts : Bool) (d : Dose) (s : State) : State :=
  if d.fed then completeReport d (if adapts then adaptChannel d s else s) else if adapts then adaptChannel d s else s

theorem recorded_eq (outcome : DoseOutcome) (adapts : Bool) (d : Dose) (s : State) :
    recorded outcome adapts d s = updDose d.position (Dose.finish outcome) (consumeDose d (reported adapts d s)) := rfl

theorem recorded_rework {outcome : DoseOutcome} {adapts : Bool} {d : Dose} {s : State}
    (h : scaleRecord (reported adapts d s) = scaleRecord s) :
    scaleRework (recorded outcome adapts d s) = scaleRework s := by
  have : scaleRecord (recorded outcome adapts d s) = scaleRecord s := by
    rw [recorded_eq, scaleRecord_updDose, consumeDose_only]
    exact h
  unfold scaleRework
  rw [this]

/-- The components after the record step: that at the position done, the others as they were. -/
theorem recorded_doses {outcome : DoseOutcome} {adapts : Bool} {d : Dose} {s : State} {g : Dose → Dose}
    (h : dosesOf (reported adapts d s) = (dosesOf s).map (fun y => if y.position = d.position then g y else y))
    (hg : ∀ y, (g y).position = y.position) :
    dosesOf (recorded outcome adapts d s) =
      (dosesOf s).map (fun y => if y.position = d.position then (g y).finish outcome else y) := by
  have hc : dosesOf (consumeDose d (reported adapts d s)) = dosesOf (reported adapts d s) := by
    rw [consumeDose_only]; rfl
  rw [recorded_eq, dosesOf_updDose, hc, h, List.map_map]
  refine List.map_congr_left (fun y _ => ?_)
  simp only [Function.comp]
  by_cases hy : y.position = d.position
  · simp [hy, hg]
  · simp [hy]

section Recorded
variable {outcome : DoseOutcome} {d : Dose} {s : State} {g : Dose → Dose} {ds : List Dose}
  (hr : ds = (dosesOf s).map (fun y => if y.position = d.position then (g y).finish outcome else y))
include hr

theorem waits_apart : ∀ x ∈ ds, x.status = .waiting → x.position ≠ d.position := by
  intro x hx hw
  rw [hr] at hx
  obtain ⟨y, -, rfl⟩ := List.mem_map.1 hx
  by_cases hy : y.position = d.position
  · rw [if_pos hy] at hw
    cases hw
  · rwa [if_neg hy]

theorem none_waits (h : ∀ x ∈ dosesOf s, x.position ≠ d.position → x.status = .done) : ∀ x ∈ ds, x.status ≠ .waiting := by
  intro x hx
  rw [hr] at hx
  obtain ⟨y, hy, rfl⟩ := List.mem_map.1 hx
  by_cases hp : y.position = d.position
  · rw [if_pos hp]
    exact nofun
  · rw [if_neg hp, h y hy hp]
    exact nofun

/-- The next component that waits is the one that waited before, where the positions are distinct. -/
theorem first_waiting (hc : curDose s = some d) (hn : ((dosesOf s).map Dose.position).Nodup) :
    ds.find? (fun y => decide (y.status = .waiting)) = nextWaiting s := by
  obtain ⟨hd, hs⟩ := curDose_mem hc
  have heq : ∀ y ∈ dosesOf s, y.position = d.position → y = d := fun y hy he =>
    List.inj_on_of_nodup_map hn hy hd he
  rw [hr, nextWaiting_eq, List.find?_map]
  have hpred : ∀ y ∈ dosesOf s, ((fun y : Dose => decide (y.status = .waiting)) ∘
      (fun y => if y.position = d.position then (g y).finish outcome else y)) y = decide (y.status = .waiting) := by
    intro y hy
    simp only [Function.comp]
    by_cases hp : y.position = d.position
    · have he := heq y hy hp
      simp [he, hs, Dose.finish]
    · simp only [hp, if_false]
  rw [List.find?_congr hpred]
  cases hf : (dosesOf s).find? (fun y => decide (y.status = .waiting)) with
  | none => rfl
  | some x =>
    have hx := List.mem_of_find?_eq_some hf
    have hw : x.status = .waiting := by simpa using List.find?_some hf
    have hp : x.position ≠ d.position := fun he => by
      rw [heq x hx he, hs] at hw
      cases hw
    simp [hp]

end Recorded

/-- What the adaptation of R95 can do. -/
theorem adaptChannel_only (d : Dose) (s : State) : adaptChannel d s = { s with channels := (adaptChannel d s).channels } := by
  unfold adaptChannel
  split <;> rfl

theorem adaptChannel_none {d : Dose} (s : State) (h : d.mode ≠ some .feed ∨ d.interrupted = true ∨ d.e1 = none) :
    adaptChannel d s = s := by
  unfold adaptChannel
  split
  · rename_i hm hi he _
    rcases h with h | h | h <;> simp_all
  · rfl

theorem adaptChannel_some {d : Dose} {s : State} {c : Channel} {e1 : Int} (hm : d.mode = some .feed)
    (hi : d.interrupted = false) (he : d.e1 = some e1) (hc : doseChannel d s = some c) :
    (adaptChannel d s).channels = s.channels.map (fun x =>
      if x.number = c.number then { x with inFlight := adapt s.params.adaptGain x.fMax x.inFlight e1 } else x) := by
  unfold adaptChannel
  rw [hm, hi, he, hc]
  rfl

/-! ### A component fed from a bin -/

section Fed
variable {adapts : Bool} {d : Dose} {s : State} {e : PlanEntry} (hf : d.fed = true)
  (he : planEntry d.position s = some e)
include hf he

theorem reported_fed : reported adapts d s =
    updDose d.position Dose.answered (reportComplete d.position e.bin (actualOf d s)
      (queueFrame (.drawReport (scaleNumber s) e.bin (actualOf d s)) (if adapts then adaptChannel d s else s))) := by
  have hv : (if adapts then adaptChannel d s else s) =
      { s with channels := (if adapts then adaptChannel d s else s).channels } := by
    split
    · exact adaptChannel_only d s
    · rfl
  unfold reported completeReport
  rw [if_pos hf, hv]
  generalize (if adapts then adaptChannel d s else s).channels = cs
  have hp : planEntry d.position { s with channels := cs } = some e := he
  rw [hp]
  rfl

theorem reported_kept :
    (reported adapts d s).slots = s.slots ∧ (reported adapts d s).reservations = s.reservations
      ∧ scaleRecord (reported adapts d s) = scaleRecord s
      ∧ (reported adapts d s).channels = (if adapts then adaptChannel d s else s).channels := by
  rw [reported_fed hf he, scaleRecord_updDose, queueFrame_only]
  split
  · rw [adaptChannel_only]
    exact ⟨rfl, rfl, rfl, rfl⟩
  · exact ⟨rfl, rfl, rfl, rfl⟩

theorem reported_doses : dosesOf (reported adapts d s) =
    (dosesOf s).map (fun y => if y.position = d.position then y.answered else y) := by
  rw [reported_fed hf he, dosesOf_updDose]
  congr 1
  rw [queueFrame_only]
  split
  · rw [adaptChannel_only]
    rfl
  · rfl

theorem reported_bins : (reported adapts d s).bins =
    s.bins.map (fun b => if b.bin = e.bin then { b with estimate := b.estimate.map (fun m => m - actualOf d s) } else b) := by
  rw [reported_fed hf he, queueFrame_only]
  split
  · rw [adaptChannel_only]
    rfl
  · rfl

theorem reported_entry : planEntry d.position (reported adapts d s)
    = some { e with drawn := min 16777215 (e.drawn + actualOf d s), status := .done } := by
  have hq : planEntry d.position (updBin e.bin (subEstimate (actualOf d s))
      (queueFrame (.drawReport (scaleNumber s) e.bin (actualOf d s)) (if adapts then adaptChannel d s else s))) = some e := by
    rw [queueFrame_only]
    split
    · rw [adaptChannel_only]
      exact he
    · exact he
  rw [reported_fed hf he]
  refine (planEntry_updPlanEntry_self (p := d.position)
    (f := fun e => { e with drawn := satMass (e.drawn + actualOf d s), status := .done }) (fun _ => rfl) _).trans ?_
  rw [hq, Option.map_some, satMass_eq]

theorem reported_heads (ht : s.tx = []) :
    (reported adapts d s).tx = [OutEntry.fresh (.drawReport (scaleNumber s) e.bin (actualOf d s))] := by
  have hv : (if adapts then adaptChannel d s else s).tx = [] := by
    split
    · rw [adaptChannel_only]
      exact ht
    · exact ht
  rw [reported_fed hf he]
  show (queueFrame _ _).tx = _
  unfold queueFrame hasRoom pushFrame
  simp [hv]

end Fed

/-- R101: the actual is the gain less what was reported, a mass. -/
theorem actualOf_eq {d : Dose} {s : State} {g : Int} (h : gainOf d s = some g) :
    (actualOf d s : Int) = min 16777215 (max 0 (g - d.reported)) := by
  unfold actualOf
  rw [h]
  dsimp only
  rw [satMass_eq]
  omega

/-- The component's own record, once the step is past it. -/
theorem doseAt_recorded {outcome : DoseOutcome} {adapts : Bool} {d : Dose} {s : State} {g : Dose → Dose}
    (hdoses : dosesOf (recorded outcome adapts d s) =
      (dosesOf s).map (fun y => if y.position = d.position then (g y).finish outcome else y))
    (hg : ∀ y, (g y).position = y.position) (hd : d ∈ dosesOf s) :
    ∃ y, doseAt d.position (recorded outcome adapts d s) = some ((g y).finish outcome) := by
  rw [doseAt_eq, hdoses, List.find?_map]
  have hp : ∀ y : Dose, (if y.position = d.position then (g y).finish outcome else y).position = y.position := fun y => by
    split
    · exact hg y
    · rfl
  simp only [Function.comp_def, hp]
  cases hf : (dosesOf s).find? (fun y => decide (y.position = d.position)) with
  | none => exact absurd (decide_eq_true rfl) (List.find?_eq_none.1 hf d hd)
  | some y =>
    have hy : y.position = d.position := by simpa using List.find?_some hf
    exact ⟨y, by simp [hy]⟩

section Step
variable {outcome : DoseOutcome} {adapts : Bool} {d : Dose} {s : State} {g : Dose → Dose}
  (hdoses : dosesOf (recorded outcome adapts d s) =
    (dosesOf s).map (fun y => if y.position = d.position then (g y).finish outcome else y))
include hdoses

theorem recordStep_beside : Beside d.position (recorded outcome adapts d s) (recordStep outcome adapts d s) := by
  rw [recordStep_eq]
  exact passOn_beside (waits_apart hdoses)

theorem recordStep_last (h : ∀ x ∈ dosesOf s, x.position ≠ d.position → x.status = .done) :
    recordStep outcome adapts d s = setScale .complete (recorded outcome adapts d s) := by
  rw [recordStep_eq]
  exact passOn_last (none_waits hdoses h)

theorem recordStep_complete (hw : scaleRework (recorded outcome adapts d s) = scaleRework s)
    (h : scaleRework s = true ∨ ∀ x ∈ dosesOf s, x.position ≠ d.position → x.status = .done) :
    (recordStep outcome adapts d s).scale.state = .complete := by
  rcases h with h | h
  · rw [recordStep_eq]
    exact passOn_rework (hw.trans h)
  · rw [recordStep_last hdoses h]
    rfl

theorem recordStep_next (hw : scaleRework (recorded outcome adapts d s) = scaleRework s) (hc : curDose s = some d)
    (hn : ((dosesOf s).map Dose.position).Nodup) (hr : scaleRework s = false) {x : Dose} (hx : nextWaiting s = some x)
    (ht : x.target ≠ 0) :
    recordStep outcome adapts d s = startComponent (recorded outcome adapts d s)
      ∧ ∃ y ∈ dosesOf (recordStep outcome adapts d s), y.position = x.position ∧ y.status = .inProgress := by
  have hnext : nextWaiting (recorded outcome adapts d s) = some x := by
    rw [nextWaiting_eq, first_waiting hdoses hc hn, hx]
  have hs : recordStep outcome adapts d s = startComponent (recorded outcome adapts d s) := by
    rw [recordStep_eq]
    unfold passOn
    rw [hw, hr]
    rfl
  refine ⟨hs, ?_⟩
  rw [hs, startComponent_next hnext ht]
  exact startDose_inHand (nextWaiting_mem hnext).1

end Step

/-- R47, R72, R75, R95: the record step of a component fed from a bin. -/
theorem recordStep_fed (outcome : DoseOutcome) (adapts : Bool) (d : Dose) (e : PlanEntry) (s : State)
    (hc : curDose s = some d) (he : planEntry d.position s = some e) (hf : d.fed = true) (ht : s.tx = [])
    (hk : KeysDistinct s) :
    let a := actualOf d s
    let u := recordStep outcome adapts d s
    (∃ rest, u.tx = OutEntry.fresh (.drawReport (scaleNumber s) e.bin a) :: rest)
    ∧ u.bins = s.bins.map (fun b =>
        if b.bin = e.bin then { b with estimate := b.estimate.map (fun m => m - a) } else b)
    ∧ (∃ x, doseAt d.position u = some x ∧ x.status = .done ∧ x.outcome = some outcome ∧ x.announced = false)
    ∧ planEntry d.position u = some { e with drawn := min 16777215 (e.drawn + a), status := .done }
    ∧ (u.slots = (consumeDose d (reported adapts d s)).slots
        ∧ u.reservations = (consumeDose d (reported adapts d s)).reservations)
    ∧ u.channels = (if adapts then adaptChannel d s else s).channels
    ∧ (scaleRework s = true ∨ (∀ x ∈ dosesOf s, x.position ≠ d.position → x.status = .done) → u.scale.state = .complete)
    ∧ (scaleRework s = false → ∀ x, nextWaiting s = some x → x.target ≠ 0 →
        ∃ y ∈ dosesOf u, y.position = x.position ∧ y.status = .inProgress) := by
  obtain ⟨-, -, -, -, hpos, -⟩ := hk
  obtain ⟨-, -, hrec, hchan⟩ := reported_kept (adapts := adapts) hf he
  have hdoses := recorded_doses (outcome := outcome) (reported_doses (adapts := adapts) hf he) (fun _ => rfl)
  have hw := recorded_rework (outcome := outcome) hrec
  have hb := recordStep_beside hdoses
  have hsame : recorded outcome adapts d s = { reported adapts d s with
      slots := (consumeDose d (reported adapts d s)).slots
      reservations := (consumeDose d (reported adapts d s)).reservations
      scale := (recorded outcome adapts d s).scale } := by
    rw [recorded_eq, consumeDose_only]
    rfl
  have hkept := passOn_kept (recorded outcome adapts d s)
  rw [← recordStep_eq] at hkept
  obtain ⟨h1, h2, h3⟩ := hkept
  refine ⟨(hb.heads _ ⟨rfl, [], ?_⟩).2, ?_, ?_, ?_, ⟨?_, ?_⟩, ?_, recordStep_complete hdoses hw,
    fun hr x hx hxt => (recordStep_next hdoses hw hc hpos hr hx hxt).2⟩
  · rw [hsame]
    exact reported_heads hf he ht
  · rw [hb.bins, hsame]
    exact reported_bins hf he
  · obtain ⟨y, hy⟩ := doseAt_recorded hdoses (fun _ => rfl) (curDose_mem hc).1
    exact ⟨_, hb.dose.trans hy, rfl, rfl, rfl⟩
  · rw [hb.entry, hsame]
    exact reported_entry hf he
  · rw [h1, hsame]
  · rw [h2, hsame]
  · rw [h3, hsame]
    exact hchan

/-! ### A component by hand (R73, R83) -/

theorem reported_hand {adapts : Bool} {d : Dose} (s : State) (h : d.mode = some .hand) : reported adapts d s = s := by
  have hf : d.fed = false := by simp [Dose.fed, h]
  have ha : adaptChannel d s = s := adaptChannel_none s (Or.inl (by rw [h]; decide))
  unfold reported
  rw [hf, ha, ite_self]
  rfl

/-- R7, R72: what the record step takes from the reservation of the order. -/
theorem recordStep_consumes {adapts : Bool} {d : Dose} {s u : State} {b : Batch} {id : Nat} {o : Order}
    (hkept : (reported adapts d s).slots = s.slots ∧ (reported adapts d s).reservations = s.reservations
      ∧ scaleRecord (reported adapts d s) = scaleRecord s)
    (hu : u.slots = (consumeDose d (reported adapts d s)).slots
      ∧ u.reservations = (consumeDose d (reported adapts d s)).reservations)
    (hd : d.machine = true) (hb : scaleRecord s = some b) (hp : b.kind = .product) (hi : b.order = some id)
    (ho : findOrder id s = some o) (hs : Apart s.reservations) :
    findOrder id u = some (o.consumed d.ingredient d.target)
      ∧ massOf d.ingredient u.reservations
          = massOf d.ingredient s.reservations - min d.target (massOf d.ingredient o.remainders)
      ∧ ∀ c, c ≠ d.ingredient → massOf c u.reservations = massOf c s.reservations := by
  obtain ⟨h1, h2, h3⟩ := hkept
  rw [findOrder_congr hu.1, hu.2]
  exact consumeDose_consumes hd (h3.trans hb) hp hi ho h1 h2 hs

theorem machine_iff (d : Dose) : d.machine = true ↔ d.ingredient < 61440 := by
  simp [Dose.machine, handCode]

/-- R7, R72, R75, R83: the record step of a component by hand. -/
theorem recordStep_hand (outcome : DoseOutcome) (adapts : Bool) (d : Dose) (s : State) (hc : curDose s = some d)
    (hm : d.mode = some .hand) (hk : KeysDistinct s) :
    let u := recordStep outcome adapts d s
    let last := ∀ x ∈ dosesOf s, x.position ≠ d.position → x.status = .done
    (u.bins = s.bins ∧ u.channels = s.channels ∧ planEntry d.position u = planEntry d.position s)
    ∧ (∃ x, doseAt d.position u = some x ∧ x.status = .done ∧ x.outcome = some outcome)
    ∧ (u.slots = (consumeDose d s).slots ∧ u.reservations = (consumeDose d s).reservations)
    ∧ (last → u.tx = s.tx ∧ u.plan = s.plan)
    ∧ (scaleRework s = true ∨ last → u.scale.state = .complete)
    ∧ (scaleRework s = false → ∀ x, nextWaiting s = some x → x.target ≠ 0 →
        (∃ y ∈ dosesOf u, y.position = x.position ∧ y.status = .inProgress)
        ∧ u = startComponent (updDose d.position (Dose.finish outcome)
          { s with slots := u.slots, reservations := u.reservations })) := by
  obtain ⟨-, -, -, -, hpos, -⟩ := hk
  have hr := reported_hand (adapts := adapts) s hm
  have hdoses : dosesOf (recorded outcome adapts d s) =
      (dosesOf s).map (fun y => if y.position = d.position then (id y).finish outcome else y) := by
    refine recorded_doses ?_ (fun _ => rfl)
    rw [hr]
    simp
  have hw : scaleRework (recorded outcome adapts d s) = scaleRework s := recorded_rework (by rw [hr])
  have hb := recordStep_beside hdoses
  have hsame : recorded outcome adapts d s = updDose d.position (Dose.finish outcome)
      { s with slots := (consumeDose d s).slots, reservations := (consumeDose d s).reservations } := by
    rw [recorded_eq, hr, consumeDose_only]
  have hkept := passOn_kept (recorded outcome adapts d s)
  rw [← recordStep_eq] at hkept
  obtain ⟨h1, h2, h3⟩ := hkept
  have hslots : (recordStep outcome adapts d s).slots = (consumeDose d s).slots := by rw [h1, hsame]; rfl
  have hres : (recordStep outcome adapts d s).reservations = (consumeDose d s).reservations := by rw [h2, hsame]; rfl
  refine ⟨⟨?_, ?_, ?_⟩, ?_, ⟨hslots, hres⟩, fun hl => ?_, recordStep_complete hdoses hw, fun hrw x hx hxt => ?_⟩
  · rw [hb.bins, hsame]
    rfl
  · rw [h3, hsame]
    rfl
  · rw [hb.entry, hsame]
    rfl
  · obtain ⟨y, hy⟩ := doseAt_recorded hdoses (fun _ => rfl) (curDose_mem hc).1
    exact ⟨_, hb.dose.trans hy, rfl, rfl⟩
  · rw [recordStep_last hdoses hl, hsame]
    exact ⟨rfl, rfl⟩
  · obtain ⟨hs, hi⟩ := recordStep_next hdoses hw hc hpos hrw hx hxt
    refine ⟨hi, ?_⟩
    rw [hslots, hres, hs, hsame]

/-- Settles O45: the record step of a component fed, then of one by hand. -/
theorem recordStepReportsDraw : Obligations.RecordStepReportsDraw := by
  refine ⟨fun outcome adapts d e s hc he hf ht hk => ?_, fun outcome adapts d s hc hm hk => ?_⟩
  · obtain ⟨hq, hbin, hdose, hentry, hbook, hchan, hcomp, hnext⟩ := recordStep_fed outcome adapts d e s hc he hf ht hk
    obtain ⟨-, -, -, hapart, -, -⟩ := hk
    obtain ⟨h1, h2, h3, -⟩ := reported_kept (adapts := adapts) hf he
    have hmach : d.machine = true := by
      unfold Dose.fed at hf
      simpa using (Bool.and_eq_true_iff.1 hf).1
    refine ⟨hq, fun g hg => actualOf_eq hg, hbin, hdose, hentry, fun b id o hb hp hi ho =>
      recordStep_consumes ⟨h1, h2, h3⟩ hbook hmach hb hp hi ho hapart, fun hn => ?_, fun ha => ?_,
      fun c e1 ha hm hi he1 hdc => ?_, hcomp, hnext⟩
    · have hcd := consumeDose_none (d := d) (s := reported adapts d s) (Or.inr (by rw [h3]; exact hn))
      rw [hcd] at hbook
      exact ⟨hbook.2.trans h2, hbook.1.trans h1⟩
    · rw [hchan]
      rcases ha with ha | ha
      · rw [ha]
        rfl
      · rw [adaptChannel_none s ha, ite_self]
    · rw [hchan, ha, if_pos rfl]
      exact adaptChannel_some hm hi he1 hdc
  · obtain ⟨hkept, hdose, hbook, hlast, hcomp, hnext⟩ := recordStep_hand outcome adapts d s hc hm hk
    obtain ⟨-, -, -, hapart, -, -⟩ := hk
    have hr := reported_hand (adapts := adapts) s hm
    refine ⟨hkept, hdose, fun b id o hi hb hp ho hf => ?_, fun hn => ?_, hlast, hcomp, hnext⟩
    · exact recordStep_consumes (adapts := adapts) (by rw [hr]; exact ⟨rfl, rfl, rfl⟩) (by rw [hr]; exact hbook)
        ((machine_iff d).2 hi) hb hp ho hf hapart
    · have hcd := consumeDose_none (d := d) (s := s)
        (hn.imp_left (fun h => Bool.eq_false_iff.2 (fun hm => absurd ((machine_iff d).1 hm) (by omega))))
      rw [hcd] at hbook
      exact ⟨hbook.2, hbook.1⟩

end Sys2Proof.Machine
end

