-- ==== Sys2Proof/Proofs/RoundEnd.lean ====
section
/-! SUPPORT. What stands at the close of an event as the Order Book and the bagger left it in the last round: `Rounded r t`
says so of the state after that round and the closed one. -/
namespace Sys2Proof.Machine

/-! ### Faults that bar a unit (R74, R183) -/

/-- A unit barred stays so while faults are raised. -/
def BarsStay (s u : State) : Prop := ∀ k, unitBarred k s = true → unitBarred k u = true

theorem BarsStay.refl (s : State) : BarsStay s s := fun _ h => h

theorem BarsStay.trans {s u v : State} (h : BarsStay s u) (h' : BarsStay u v) : BarsStay s v := fun k hk => h' k (h k hk)

theorem BarsStay.of_faults {s u : State} (h : u.faults = s.faults) : BarsStay s u := fun k hk => by
  unfold unitBarred
  rw [h]
  exact hk

theorem BarsStay.ite {c : Prop} [Decidable c] {s t e : State} (ht : BarsStay s t) (he : BarsStay s e) :
    BarsStay s (if c then t else e) := by
  split
  · exact ht
  · exact he

theorem bumpFault_bars (k : FaultKey) (reference now : Option Nat) (unit : FaultUnit) (rs : List FaultRecord)
    (h : rs.any (fun r => decide (r.key.unit = unit) && r.key.grave && !r.acked) = true) :
    (bumpFault k reference now rs).any (fun r => decide (r.key.unit = unit) && r.key.grave && !r.acked) = true := by
  induction rs with
  | nil => simp at h
  | cons r rs ih =>
    unfold bumpFault
    rw [List.any_cons, Bool.or_eq_true] at h
    split
    · rw [List.any_cons, Bool.or_eq_true]
      refine h.imp_left (fun hr => ?_)
      simp only [Bool.and_eq_true] at hr ⊢
      exact ⟨hr.1, rfl⟩
    · rw [List.any_cons, Bool.or_eq_true]
      exact h.imp_right ih

theorem pushSoft_faults (b : Body) (s : State) : (pushSoft b s).faults = s.faults := by
  unfold pushSoft
  split <;> rfl

theorem raiseFault_faults (k : FaultKey) (reference : Option Nat) (detail : List DetailField) (s : State) :
    (raiseFault k reference detail s).faults = bumpFault k reference s.millTime s.faults := by
  unfold raiseFault
  dsimp only
  split
  · rw [pushSoft_faults]
  · rfl

theorem raiseFault_bars (k : FaultKey) (reference : Option Nat) (detail : List DetailField) (s : State) :
    BarsStay s (raiseFault k reference detail s) := fun unit h => by
  unfold unitBarred
  rw [raiseFault_faults]
  exact bumpFault_bars _ _ _ _ _ h

theorem queueFrame_bars (b : Body) (s : State) : BarsStay s (queueFrame b s) :=
  BarsStay.ite (BarsStay.of_faults rfl) (BarsStay.ite (BarsStay.refl s) (raiseFault_bars _ _ _ s))

theorem releaseHold_bars (s : State) : BarsStay s (releaseHold s) := by
  unfold releaseHold
  refine BarsStay.ite (BarsStay.refl s) ?_
  dsimp only
  split
  · exact BarsStay.of_faults rfl
  · exact queueFrame_bars (.bayHold (s.hold.bay.getD 0) (s.hold.truck.getD 0) 0 false) (withdrawHolds s)

theorem abandonBay_bars (s : State) : BarsStay s (abandonBay s) := BarsStay.ite (releaseHold_bars s) (BarsStay.refl s)

theorem takeBay_bars (s : State) : BarsStay s (takeBay s) := by
  unfold takeBay
  refine BarsStay.ite ?_ (BarsStay.refl s)
  split
  · split
    · unfold takeBayFor
      dsimp only
      split
      · exact (queueFrame_bars _ s).trans (BarsStay.of_faults rfl)
      · exact queueFrame_bars _ s
    · exact BarsStay.refl s
  · exact BarsStay.refl s

theorem reannounce_bars (s : State) : BarsStay s (reannounce s) := by
  unfold reannounce
  dsimp only
  split
  · exact BarsStay.refl s
  · refine BarsStay.ite ?_ (BarsStay.refl s)
    split
    · exact fun k h => queueFrame_bars _ _ k h
    · exact BarsStay.of_faults rfl

theorem beginClearance_bars (mode : BaggerMode) (id : Nat) (s : State) : BarsStay s (beginClearance mode id s) := by
  unfold beginClearance
  dsimp only
  refine BarsStay.ite ?_ (BarsStay.of_faults rfl)
  exact fun k h => raiseFault_bars _ _ _ _ k h

theorem beginRemainder_bars (s : State) : BarsStay s (beginRemainder s) :=
  BarsStay.ite (beginClearance_bars _ _ s) (BarsStay.refl s)

/-! ### After the last round -/

/-- What the close of an event leaves alone once its rounds are over. -/
structure Ledger where
  kept         : Kept
  slots        : List Order
  takeCounter  : Nat
  batchCounter : Nat
  carry        : Carry
  reservations : List Reservation
  plan         : Option DrawPlan
  trucks       : List Truck
  step         : Option LoadStep
  state        : ScaleState
  batch        : Option ScaleBatch
  surge        : StageRec
  mixer        : StageRec
  press        : StageRec
  fin          : FinishedBin
  mode         : BaggerMode
  bucket       : Bucket
  charge       : Option Charge
  spout        : BagSpout

def State.ledger (s : State) : Ledger :=
  { kept := { s.kept with pending := [] }, slots := s.slots, takeCounter := s.takeCounter, batchCounter := s.batchCounter
    carry := s.carry, reservations := s.reservations, plan := s.plan, trucks := s.trucks, step := s.step
    state := s.scale.state, batch := s.scale.batch, surge := s.surge, mixer := s.mixer, press := s.press, fin := s.fin
    mode := s.bagger.mode, bucket := s.bagger.bucket, charge := s.bagger.charge, spout := s.bagger.spout }

/-- From a state to a later one of the same close. -/
structure Rounded (s u : State) : Prop where
  ledger : u.ledger = s.ledger
  line   : u.line = .run ↔ s.line = .run
  bars   : BarsStay s u

theorem Rounded.refl (s : State) : Rounded s s := ⟨rfl, Iff.rfl, BarsStay.refl s⟩

theorem Rounded.trans {s u v : State} (h : Rounded s u) (h' : Rounded u v) : Rounded s v :=
  ⟨h'.ledger.trans h.ledger, h'.line.trans h.line, h.bars.trans h'.bars⟩

theorem Rounded.same {s u : State} (h : u.ledger = s.ledger) (hl : u.line = s.line) (hf : u.faults = s.faults) :
    Rounded s u := ⟨h, by rw [hl], BarsStay.of_faults hf⟩

theorem followLoops_rounded (s : State) : Rounded s (followLoops s) := Rounded.same rfl rfl rfl

theorem abandonBay_rounded (s : State) : Rounded s (abandonBay s) :=
  ⟨by rw [abandonBay_only]; rfl, by rw [abandonBay_only], abandonBay_bars s⟩

theorem takeBay_rounded (s : State) : Rounded s (takeBay s) :=
  ⟨by rw [takeBay_only]; rfl, by rw [takeBay_only], takeBay_bars s⟩

theorem pauseReports_line (s : State) :
    (pauseReports s).line = s.line ∨ (s.line = .pausing ∧ (pauseReports s).line = .paused) := by
  unfold pauseReports
  dsimp only
  split
  · rename_i hp
    split
    · right
      refine ⟨hp, ?_⟩
      rw [setLine_only]
    · exact Or.inl rfl
  · exact Or.inl rfl

theorem pauseReports_rounded (s : State) : Rounded s (pauseReports s) := by
  refine ⟨by rw [pauseReports_only]; rfl, ?_, BarsStay.of_faults (by rw [pauseReports_only])⟩
  rcases pauseReports_line s with h | ⟨h, h'⟩
  · rw [h]
  · rw [h, h']
    decide

theorem timers_rounded (s : State) : Rounded s (timers s) := Rounded.same rfl rfl rfl

theorem reannounce_rounded (s : State) : Rounded s (reannounce s) :=
  ⟨by rw [reannounce_only]; rfl, by rw [reannounce_only], reannounce_bars s⟩

theorem drive_rounded (s : State) : Rounded s (drive s) :=
  Rounded.same (by rw [drive_only]; rfl) (by rw [drive_only]) (by rw [drive_only])

/-- The state in which the last round's Order Book work begins. -/
@[irreducible] def lastRound (u : State) : State := passLine (pass (pass u))

/-- What an event has left in its last round stands at its close. -/
theorem settled_rounded (s u : State) : Rounded (passBook (lastRound u)) (settled s u) := by
  have hr : Rounded (passBook (lastRound u)) (rounds u) := by
    unfold lastRound
    exact followLoops_rounded _
  have hc : Rounded (rounds u) (close u) := by
    unfold close
    exact (((abandonBay_rounded _).trans (takeBay_rounded _)).trans ((pauseReports_rounded _).trans
      (timers_rounded _))).trans ((reannounce_rounded _).trans (drive_rounded _))
  exact (hr.trans hc).trans (Rounded.same rfl rfl rfl)

/-! ### What the bagger's last begins leave (R149, R153) -/

/-- What `beginBucketDischarge` and `beginRemainder` leave alone. -/
structure Book where
  kept         : Kept
  slots        : List Order
  takeCounter  : Nat
  batchCounter : Nat
  carry        : Carry
  reservations : List Reservation
  plan         : Option DrawPlan
  trucks       : List Truck
  step         : Option LoadStep
  state        : ScaleState
  batch        : Option ScaleBatch
  surge        : StageRec
  mixer        : StageRec
  press        : StageRec
  bin          : FinishedBin
  charge       : Option Charge
  deriving DecidableEq

def State.book (s : State) : Book :=
  { kept := { s.kept with pending := [] }, slots := s.slots, takeCounter := s.takeCounter, batchCounter := s.batchCounter
    carry := s.carry, reservations := s.reservations, plan := s.plan, trucks := s.trucks, step := s.step
    state := s.scale.state, batch := s.scale.batch, surge := s.surge, mixer := s.mixer, press := s.press
    bin := { s.fin with dumping := false }, charge := s.bagger.charge }

theorem Rounded.book {s u : State} (h : Rounded s u) : u.book = s.book := by
  have e := h.ledger
  simp only [State.ledger, Ledger.mk.injEq] at e
  obtain ⟨e1, e2, e3, e4, e5, e6, e7, e8, e9, e10, e11, e12, e13, e14, e15, -, -, e16, -⟩ := e
  unfold State.book
  rw [e1, e2, e3, e4, e5, e6, e7, e8, e9, e10, e11, e12, e13, e14, e15, e16]

theorem beginBucketDischarge_book (s : State) : (beginBucketDischarge s).book = s.book := by
  unfold beginBucketDischarge
  (repeat' split) <;> rfl

theorem beginClearance_book (mode : BaggerMode) (id : Nat) (s : State) : (beginClearance mode id s).book = s.book := by
  rw [beginClearance_only]
  rfl

theorem beginRemainder_book (s : State) : (beginRemainder s).book = s.book := by
  unfold beginRemainder
  split
  · exact beginClearance_book _ _ s
  · rfl

/-- The Order Book's work of the last round, up to the admission. -/
def bookReady (x : State) : State := makeUps (markLoaded (freeCancelled (watchStep x)))

/-- The book stands at the close of an event as the last round's admission left it. -/
theorem settled_book (s u : State) : (settled s u).book = (admissionAttempt (bookReady (lastRound u))).book := by
  rw [(settled_rounded s u).book]
  unfold passBook bookReady
  rw [beginRemainder_book, beginBucketDischarge_book]

end Sys2Proof.Machine
end

