-- ==== Sys2Proof/Proofs/MakeUps.lean ====
section
/-! SUPPORT. O28: make-up batches (R12), cancelled orders that leave the book (R22), and what an admission leaves of both. -/
namespace Sys2Proof.Machine

/-! ### The ranking of R16 -/

theorem insertBy_mem {α : Type} (ahead : α → α → Bool) (x y : α) (l : List α) : y ∈ insertBy ahead x l ↔ y = x ∨ y ∈ l := by
  rw [(insertBy_perm ahead x l).mem_iff, List.mem_cons]

/-- A list in an order of preference has none behind that goes ahead of one before. -/
theorem sortBy_pairwise {α : Type} {ahead : α → α → Bool} (hasymm : ∀ a b, ahead a b = true → ahead b a = false)
    (htrans : ∀ a b c, ahead a b = true → ahead b c = true → ahead a c = true) (l : List α) :
    (sortBy ahead l).Pairwise (fun a b => ahead b a = false) := by
  have hins : ∀ (x : α) (l : List α), l.Pairwise (fun a b => ahead b a = false) →
      (insertBy ahead x l).Pairwise (fun a b => ahead b a = false) := by
    intro x l hl
    induction l with
    | nil => simp [insertBy]
    | cons y ys ih =>
      obtain ⟨hy, hys⟩ := List.pairwise_cons.1 hl
      unfold insertBy
      split
      · rename_i hxy
        refine List.pairwise_cons.2 ⟨fun z hz => ?_, hl⟩
        rcases List.mem_cons.1 hz with rfl | hz
        · exact hasymm _ _ hxy
        · by_contra hzx
          rw [Bool.not_eq_false] at hzx
          have := htrans _ _ _ hzx hxy
          rw [hy z hz] at this
          cases this
      · rename_i hxy
        refine List.pairwise_cons.2 ⟨fun z hz => ?_, ih hys⟩
        rcases (insertBy_mem ahead x z ys).1 hz with rfl | hz
        · simpa using hxy
        · exact hy z hz
  induction l with
  | nil => exact List.Pairwise.nil
  | cons x xs ih => exact hins x _ ih

/-- The ranking of R16 as the order of its figures. -/
theorem ranksAhead_iff (s : State) (a b : Order) : ranksAhead s a b = true ↔
    b.level < a.level ∨ (a.level = b.level ∧ (orderFlush a s < orderFlush b s ∨ (orderFlush a s = orderFlush b s
      ∧ (b.group < a.group ∨ (a.group = b.group ∧ a.takeOrder.getD 0 < b.takeOrder.getD 0))))) := by
  unfold ranksAhead
  split
  · rw [decide_eq_true_iff]
    omega
  · split
    · rw [decide_eq_true_iff]
      omega
    · split <;> rw [decide_eq_true_iff] <;> omega

theorem ranksAhead_asymm (s : State) (a b : Order) (h : ranksAhead s a b = true) : ranksAhead s b a = false := by
  rw [ranksAhead_iff] at h
  by_contra hb
  rw [Bool.not_eq_false, ranksAhead_iff] at hb
  omega

theorem ranksAhead_trans (s : State) (a b c : Order) (h : ranksAhead s a b = true) (h' : ranksAhead s b c = true) :
    ranksAhead s a c = true := by
  rw [ranksAhead_iff] at *
  omega

theorem ranked_pairwise (s : State) (l : List Order) : (ranked s l).Pairwise (fun a b => ranksAhead s b a = false) :=
  sortBy_pairwise (ranksAhead_asymm s) (ranksAhead_trans s) l

theorem ranked_perm (s : State) (l : List Order) : (ranked s l).Perm l := sortBy_perm _ _

/-! ### Which orders are due (R5, R12, R89, R154) -/

/-- R12: what a due order and its book have in common. -/
def shortOfBatches (o : Order) (s : State) : Prop :=
  o.state ≠ .claiming ∧ o.cancelled = false ∧ o.plan.n = some o.plan.admitted ∧ o.plan.makeUp = none
    ∧ inPipeline o.id s = false

theorem makeUpDue_iff (o : Order) (s : State) : makeUpDue o s = true ↔ shortOfBatches o s
    ∧ (match o.delivery with
      | .bagged _ bags => o.plan.bags < bags ∧ residueShort o s = true
      | .bulk _ => o.plan.massFinished < o.runMass) := by
  unfold makeUpDue shortOfBatches Order.taken Plan.allAdmitted
  cases o.delivery <;>
    simp only [Bool.and_eq_true, decide_eq_true_eq, Bool.not_eq_true', Option.isNone_iff_eq_none, and_assoc]

theorem inHand_iff (id : Nat) (s : State) :
    inHand id s = true ↔ ∃ c, s.bagger.charge = some c ∧ c.order = id ∧ c.outlet = .bag := by
  unfold inHand
  cases s.bagger.charge <;> simp

theorem residueShort_iff {o : Order} {size bags : Nat} (h : o.delivery = .bagged size bags) (s : State) :
    residueShort o s = true ↔ ¬(∃ c, s.bagger.charge = some c ∧ c.order = o.id ∧ c.outlet = .bag)
      ∧ (s.fin.order ≠ some o.id ∨ ∃ m, s.fin.mass = some m ∧ m < size) := by
  rw [← inHand_iff]
  unfold residueShort Order.bagSize
  rw [h]
  cases s.fin.mass <;> simp

/-- What `makeUpDue` reads beside the order. -/
theorem makeUpDue_congr {s u : State} (h : u.book = s.book) (o : Order) : makeUpDue o u = makeUpDue o s := by
  have hb : u.scale.batch = s.scale.batch := congrArg Book.batch h
  have h1 : u.surge = s.surge := congrArg Book.surge h
  have h2 : u.mixer = s.mixer := congrArg Book.mixer h
  have h3 : u.press = s.press := congrArg Book.press h
  have hc : u.bagger.charge = s.bagger.charge := congrArg Book.charge h
  have ho : u.fin.order = s.fin.order := congrArg (fun b => b.bin.order) h
  have hm : u.fin.mass = s.fin.mass := congrArg (fun b => b.bin.mass) h
  unfold makeUpDue residueShort inHand inPipeline pipeline scaleRecord
  rw [hb, h1, h2, h3, hc, ho, hm]

theorem inPipeline_congr {s u : State} (h : u.book = s.book) (id : Nat) : inPipeline id u = inPipeline id s := by
  have hb : u.scale.batch = s.scale.batch := congrArg Book.batch h
  have h1 : u.surge = s.surge := congrArg Book.surge h
  have h2 : u.mixer = s.mixer := congrArg Book.mixer h
  have h3 : u.press = s.press := congrArg Book.press h
  unfold inPipeline pipeline scaleRecord
  rw [hb, h1, h2, h3]

/-! ### The make-up batches of an order (R12) -/

/-- R12: the order with its make-up batches. -/
def Order.makeUpBy (m : Nat) (size : Nat) (alone : Nat → Bool) (o : Order) : Order :=
  { o with plan := { o.plan with makeUp := some { mass := m, batches := splitCount m size, admitted := 0 } }
           state := if 1 ≤ o.level ∧ alone o.id then .active else .held }

theorem makeUpBy_id (m size : Nat) (alone : Nat → Bool) (o : Order) : (o.makeUpBy m size alone).id = o.id := rfl

theorem makeUpFor_eq (o : Order) (s : State) : makeUpFor o s = if makeUpDue o s then
    updOrder o.id (Order.makeUpBy (makeUpMass s.params.minBatch s.params.bagAllowance o) s.params.batchSize
      (fun id => noOtherActive id s)) s else s := rfl

theorem makeUpFor_due {o : Order} {s : State} (h : makeUpDue o s = true) : makeUpFor o s =
    updOrder o.id (Order.makeUpBy (makeUpMass s.params.minBatch s.params.bagAllowance o) s.params.batchSize
      (fun id => noOtherActive id s)) s := by
  rw [makeUpFor_eq, if_pos h]

theorem makeUpFor_notDue {o : Order} {s : State} (h : makeUpDue o s = false) : makeUpFor o s = s := by
  rw [makeUpFor_eq, h]
  rfl

theorem makeUpDue_makeUpFor (o x : Order) (s : State) : makeUpDue o (makeUpFor x s) = makeUpDue o s := by
  rw [makeUpFor_only]
  rfl

theorem makeUpDue_makeUpAll (o : Order) (l : List Order) (s : State) : makeUpDue o (makeUpAll l s) = makeUpDue o s := by
  rw [makeUpAll_only]
  rfl

theorem makeUpAll_append (l r : List Order) (s : State) : makeUpAll (l ++ r) s = makeUpAll r (makeUpAll l s) := by
  induction l generalizing s with
  | nil => rfl
  | cons o os ih => exact ih _

theorem findOrder_makeUpFor_other {i : Nat} {o : Order} (h : o.id ≠ i) (s : State) :
    findOrder i (makeUpFor o s) = findOrder i s := by
  rw [makeUpFor_eq]
  split
  · rw [findOrder_updOrder (makeUpBy_id _ _ _)]
    cases hf : findOrder i s with
    | none => rfl
    | some x =>
      have hx := (findOrder_mem hf).2
      rw [Option.map_some, if_neg (by rw [hx]; exact Ne.symm h)]
  · rfl

theorem findOrder_makeUpAll_other {i : Nat} {l : List Order} (h : ∀ o ∈ l, o.id ≠ i) (s : State) :
    findOrder i (makeUpAll l s) = findOrder i s := by
  induction l generalizing s with
  | nil => rfl
  | cons o os ih =>
    exact (ih (fun x hx => h x (by simp [hx])) _).trans (findOrder_makeUpFor_other (h o (by simp)) s)

/-- After the make-ups a record has its make-up batches, or is one that was not due. -/
theorem makeUpAll_record (l : List Order) (s : State) : ∀ z ∈ (makeUpAll l s).slots, z.plan.makeUp.isSome = true
    ∨ (z ∈ s.slots ∧ ∀ x ∈ l, x.id = z.id → makeUpDue x s = false) := by
  induction l generalizing s with
  | nil => exact fun z hz => Or.inr ⟨hz, by simp⟩
  | cons o os ih =>
    intro z hz
    rcases ih _ z hz with h | ⟨hm, hd⟩
    · exact Or.inl h
    · simp only [makeUpDue_makeUpFor] at hd
      by_cases hdue : makeUpDue o s = true
      · rw [makeUpFor_due hdue] at hm
        obtain ⟨y, hy, rfl⟩ := List.mem_map.1 hm
        by_cases hid : y.id = o.id
        · rw [if_pos hid]
          exact Or.inl rfl
        · rw [if_neg hid] at hd ⊢
          exact Or.inr ⟨hy, List.forall_mem_cons.2 ⟨fun he => absurd he.symm hid, hd⟩⟩
      · rw [Bool.not_eq_true] at hdue
        rw [makeUpFor_notDue hdue] at hm
        exact Or.inr ⟨hm, List.forall_mem_cons.2 ⟨fun _ => hdue, hd⟩⟩

/-- R12: no order is due once the make-ups are made. -/
theorem makeUps_notDue (s : State) : ∀ z ∈ (makeUps s).slots, makeUpDue z (makeUps s) = false := by
  intro z hz
  unfold makeUps at hz ⊢
  rw [makeUpDue_makeUpAll]
  rcases makeUpAll_record _ s z hz with h | ⟨hm, hd⟩
  · by_contra hdue
    rw [Bool.not_eq_false, makeUpDue_iff] at hdue
    obtain ⟨⟨-, -, -, hn, -⟩, -⟩ := hdue
    rw [hn] at h
    cases h
  · exact hd z (mem_ranked.2 hm) rfl

/-- An ACTIVE order of the book after the make-ups was ACTIVE before, or was due with a level. -/
theorem makeUpAll_active (l : List Order) (s : State) : ∀ y ∈ (makeUpAll l s).slots, y.state = .active → y ∈ s.slots
    ∨ ∃ z ∈ s.slots, z.id = y.id ∧ 1 ≤ z.level ∧ ∃ x ∈ l, x.id = y.id ∧ makeUpDue x s = true := by
  have hone : ∀ (o : Order) (s : State), ∀ y ∈ (makeUpFor o s).slots, ∃ z ∈ s.slots, z.id = y.id ∧ z.level = y.level
      ∧ (y = z ∨ (o.id = y.id ∧ makeUpDue o s = true ∧ (y.state = .active → 1 ≤ z.level))) := by
    intro o s y hy
    by_cases hd : makeUpDue o s = true
    · rw [makeUpFor_due hd] at hy
      obtain ⟨z, hz, rfl⟩ := List.mem_map.1 hy
      by_cases hid : z.id = o.id
      · rw [if_pos hid]
        refine ⟨z, hz, rfl, rfl, Or.inr ⟨hid.symm, hd, fun ha => ?_⟩⟩
        by_contra hl
        simp [Order.makeUpBy, hl] at ha
      · rw [if_neg hid]
        exact ⟨z, hz, rfl, rfl, Or.inl rfl⟩
    · rw [Bool.not_eq_true] at hd
      rw [makeUpFor_notDue hd] at hy
      exact ⟨y, hy, rfl, rfl, Or.inl rfl⟩
  induction l generalizing s with
  | nil => exact fun y hy _ => Or.inl hy
  | cons o os ih =>
    intro y hy ha
    rcases ih (makeUpFor o s) y hy ha with hm | ⟨z, hz, hzi, hzl, x, hx, hxi, hxd⟩
    · obtain ⟨z, hz, hi, hl, h⟩ := hone o s y hm
      rcases h with rfl | ⟨hoi, hd, h1⟩
      · exact Or.inl hz
      · exact Or.inr ⟨z, hz, hi, h1 ha, o, by simp, hoi, hd⟩
    · rw [makeUpDue_makeUpFor] at hxd
      obtain ⟨w, hw, hwi, hwl, -⟩ := hone o s z hz
      exact Or.inr ⟨w, hw, hwi.trans hzi, hwl ▸ hzl, x, by simp [hx], hxi, hxd⟩

/-- A record that is not due, and shares its id with none that is, stays. -/
theorem makeUpAll_stays {l : List Order} {s : State} {a : Order} (ha : a ∈ s.slots)
    (h : ∀ x ∈ l, x.id = a.id → makeUpDue x s = false) : a ∈ (makeUpAll l s).slots := by
  induction l generalizing s with
  | nil => exact ha
  | cons o os ih =>
    refine ih ?_ (fun x hx he => (makeUpDue_makeUpFor x o s).trans (h x (by simp [hx]) he))
    by_cases hd : makeUpDue o s = true
    · have hne : a.id ≠ o.id := fun he => by
        rw [h o (by simp) he.symm] at hd
        cases hd
      rw [makeUpFor_due hd]
      exact List.mem_map.2 ⟨a, ha, if_neg hne⟩
    · rw [Bool.not_eq_true] at hd
      rwa [makeUpFor_notDue hd]

theorem noOtherActive_iff (id : Nat) (s : State) :
    noOtherActive id s = true ↔ ∀ o ∈ s.slots, o.id = id ∨ o.state ≠ .active := by
  simp [noOtherActive]

section MakeUps
variable {s : State} (hn : (s.slots.map Order.id).Nodup) {o : Order} (ho : o ∈ s.slots)
include hn

theorem slot_unique {x y : Order} (hx : x ∈ s.slots) (hy : y ∈ s.slots) (h : x.id = y.id) : x = y :=
  List.inj_on_of_nodup_map hn hx hy h

theorem findOrder_of_mem {x : Order} (hx : x ∈ s.slots) : findOrder x.id s = some x := by
  cases hf : findOrder x.id s with
  | none => exact absurd (decide_eq_true rfl) (List.find?_eq_none.1 hf x hx)
  | some y =>
    obtain ⟨hy, hid⟩ := findOrder_mem hf
    rw [slot_unique hn hy hx hid]

include ho

/-- R12: the make-ups of a book of distinct ids come to an order in its turn of the ranking. -/
theorem makeUps_turn : ∃ before, (∀ x ∈ before, x ∈ s.slots ∧ x.id ≠ o.id ∧ ranksAhead s o x = false)
    ∧ findOrder o.id (makeUps s) = findOrder o.id (makeUpFor o (makeUpAll before s))
    ∧ findOrder o.id (makeUpAll before s) = some o := by
  obtain ⟨l, r, hlr⟩ := List.append_of_mem (mem_ranked (s := s).2 ho)
  have hnr : ((ranked s s.slots).map Order.id).Nodup := ((ranked_perm s s.slots).map Order.id).nodup_iff.2 hn
  have hp := ranked_pairwise s s.slots
  have hsub : ∀ x, x ∈ ranked s s.slots → x ∈ s.slots := fun x => mem_ranked.1
  rw [hlr] at hnr hp hsub
  rw [List.map_append, List.map_cons, List.nodup_append, List.nodup_cons] at hnr
  obtain ⟨-, ⟨hr, -⟩, hd⟩ := hnr
  have hl : ∀ x ∈ l, x.id ≠ o.id := fun x hx => hd _ (List.mem_map_of_mem hx) _ (by simp)
  have hr : ∀ x ∈ r, x.id ≠ o.id := fun x hx he => hr (he ▸ List.mem_map_of_mem hx)
  refine ⟨l, fun x hx => ⟨hsub x (by simp [hx]), hl x hx, ?_⟩, ?_, ?_⟩
  · exact (List.pairwise_append.1 hp).2.2 x hx o (by simp)
  · unfold makeUps
    rw [hlr, makeUpAll_append]
    exact findOrder_makeUpAll_other hr _
  · rw [findOrder_makeUpAll_other hl]
    exact findOrder_of_mem hn ho

theorem makeUps_notDue_order (hd : makeUpDue o s = false) : findOrder o.id (makeUps s) = some o := by
  obtain ⟨l, -, hf, hl⟩ := makeUps_turn hn ho
  rw [hf, makeUpFor_notDue (by rw [makeUpDue_makeUpAll]; exact hd), hl]

/-- R12: the record of an order that is due. -/
theorem makeUps_due_order (hd : makeUpDue o s = true) : ∃ alone : Nat → Bool,
    findOrder o.id (makeUps s) = some (o.makeUpBy (makeUpMass s.params.minBatch s.params.bagAllowance o)
      s.params.batchSize alone)
    ∧ ((∀ x ∈ s.slots, x.state ≠ .active) →
        (∀ x ∈ s.slots, makeUpDue x s = true → 1 ≤ x.level → x.id ≠ o.id → ranksAhead s o x = true) → alone o.id = true)
    ∧ ((∃ a ∈ s.slots, a.state = .active ∧ makeUpDue a s = false) → alone o.id = false) := by
  obtain ⟨l, hbefore, hf, hl⟩ := makeUps_turn hn ho
  have hparams : (makeUpAll l s).params = s.params := by rw [makeUpAll_only]
  refine ⟨fun id => noOtherActive id (makeUpAll l s), ?_, fun hidle hfirst => ?_, fun ⟨a, ha, haa, hand⟩ => ?_⟩
  · rw [hf, makeUpFor_due (by rw [makeUpDue_makeUpAll]; exact hd), hparams]
    exact findOrder_updOrder_self (makeUpBy_id _ _ _) hl
  · refine (noOtherActive_iff _ _).2 (fun y hy => ?_)
    by_contra hcon
    rw [not_or, not_not] at hcon
    obtain ⟨hne, hya⟩ := hcon
    rcases makeUpAll_active l s y hy hya with hm | ⟨z, hz, hzi, hzl, x, hx, hxi, hxd⟩
    · exact hidle y hm hya
    · obtain ⟨hxs, hxo, hxr⟩ := hbefore x hx
      have hxz : x = z := slot_unique hn hxs hz (hxi.trans hzi.symm)
      rw [hfirst x hxs hxd (hxz ▸ hzl) hxo] at hxr
      cases hxr
  · have hne : a.id ≠ o.id := fun he => by
      rw [slot_unique hn ha ho he, hd] at hand
      cases hand
    have hstay : a ∈ (makeUpAll l s).slots := makeUpAll_stays ha (fun x hx he => by
      rw [slot_unique hn (hbefore x hx).1 ha he]
      exact hand)
    by_contra hal
    rw [Bool.not_eq_false] at hal
    exact ((noOtherActive_iff _ _).1 hal a hstay).elim hne (fun h => h haa)

end MakeUps

theorem makeUpBy_state (m size : Nat) (alone : Nat → Bool) (o : Order) :
    (o.makeUpBy m size alone).state = .held ∨ ((o.makeUpBy m size alone).state = .active ∧ 1 ≤ o.level) := by
  unfold Order.makeUpBy
  dsimp only
  split
  · rename_i h
    exact Or.inr ⟨rfl, h.1⟩
  · exact Or.inl rfl

theorem makeUpMass_bagged {o : Order} {size bags : Nat} (h : o.delivery = .bagged size bags) (minBatch allowance : Nat) :
    makeUpMass minBatch allowance o = max minBatch (((bags - o.plan.bags) * size * (1000 + allowance) + 999) / 1000) := by
  unfold makeUpMass
  rw [h]
  rfl

theorem makeUpMass_bulk {o : Order} {mass : Nat} (h : o.delivery = .bulk mass) (minBatch allowance : Nat) :
    makeUpMass minBatch allowance o = max minBatch (o.runMass - o.plan.massFinished) := by
  unfold makeUpMass
  rw [h]

/-! ### Cancelled orders (R22) -/

/-- R22: the order leaves the book. -/
def goes (s : State) (o : Order) : Bool := o.cancelled && !inPipeline o.id s

theorem inPipeline_endCancelled (id : Nat) (o : Order) (s : State) :
    inPipeline id (endCancelled o s) = inPipeline id s := by
  rw [endCancelled_only]
  rfl

theorem goes_endCancelled (o : Order) (s : State) : goes (endCancelled o s) = goes s := by
  funext x
  unfold goes
  rw [inPipeline_endCancelled]

theorem endCancelled_stays {o : Order} {s : State} (h : goes s o = false) : endCancelled o s = s := by
  unfold endCancelled
  exact if_neg (by rw [← goes, h]; decide)

theorem endCancelled_goes {o : Order} {s : State} (h : goes s o = true) :
    endCancelled o s = freeSlot o.id (queueNotice (.orderCancelled o.id o.tally o.plan.finished) s) := if_pos h

theorem endCancelled_slots (o : Order) (s : State) :
    (endCancelled o s).slots = s.slots.filter (fun z => !(goes s o && decide (z.id = o.id))) := by
  cases h : goes s o
  · rw [endCancelled_stays h]
    simp
  · rw [endCancelled_goes h, freeSlot_slots, queueNotice_only]
    simp

theorem endAllCancelled_slots (l : List Order) (s : State) :
    (endAllCancelled l s).slots = s.slots.filter (fun z => l.all (fun o => !(goes s o && decide (z.id = o.id)))) := by
  induction l generalizing s with
  | nil => simp [endAllCancelled]
  | cons o os ih =>
    unfold endAllCancelled
    rw [ih, endCancelled_slots, List.filter_filter]
    simp only [goes_endCancelled, List.all_cons, Bool.and_comm]

theorem inPipeline_freeCancelled (id : Nat) (s : State) : inPipeline id (freeCancelled s) = inPipeline id s := by
  unfold freeCancelled
  rw [endAllCancelled_only]
  rfl

/-- R22: a cancelled order that the book keeps has a batch in the pipeline. -/
theorem freeCancelled_kept_cancelled (s : State) :
    ∀ o ∈ (freeCancelled s).slots, o.cancelled = true → inPipeline o.id (freeCancelled s) = true := by
  intro o ho hc
  rw [inPipeline_freeCancelled]
  unfold freeCancelled at ho
  rw [endAllCancelled_slots, List.mem_filter, List.all_eq_true] at ho
  have h := ho.2 o (mem_ranked.2 ho.1)
  simpa [goes, hc] using h

/-- R22, of a book of distinct ids. -/
theorem freeCancelled_slots {s : State} (hn : (s.slots.map Order.id).Nodup) :
    (freeCancelled s).slots = s.slots.filter (fun o => !goes s o) := by
  unfold freeCancelled
  rw [endAllCancelled_slots]
  refine List.filter_congr (fun z hz => ?_)
  rw [Bool.eq_iff_iff, List.all_eq_true]
  constructor
  · intro h
    simpa using h z (mem_ranked.2 hz)
  · intro h x hx
    by_cases he : z.id = x.id
    · rw [← slot_unique hn hz (mem_ranked.1 hx) he]
      simpa using h
    · simp [he]

theorem freeCancelled_none {s : State} (h : ∀ o ∈ s.slots, goes s o = false) : freeCancelled s = s := by
  have hall : ∀ l : List Order, (∀ o ∈ l, goes s o = false) → endAllCancelled l s = s := by
    intro l hl
    induction l with
    | nil => rfl
    | cons o os ih =>
      unfold endAllCancelled
      rw [endCancelled_stays (hl o (by simp))]
      exact ih (fun x hx => hl x (by simp [hx]))
  exact hall _ (fun o ho => h o (mem_ranked.1 ho))

/-- R7, R22: what the orders that leave take with them, where each stands in the book as listed. -/
theorem endAllCancelled_releases {l : List Order} {s : State} (ha : Apart s.reservations)
    (hn : (l.map Order.id).Nodup) (hl : ∀ o ∈ l, findOrder o.id s = some o) :
    Releases (l.filter (goes s)) s.reservations (endAllCancelled l s).reservations := by
  induction l generalizing s with
  | nil => exact releases_nil.2 (fun _ => rfl)
  | cons o os ih =>
    obtain ⟨ho, hos⟩ := List.nodup_cons.1 hn
    have hne : ∀ x ∈ os, x.id ≠ o.id := fun x hx he => ho (he ▸ List.mem_map_of_mem hx)
    have hfind : ∀ x ∈ os, findOrder x.id (endCancelled o s) = some x := by
      intro x hx
      unfold findOrder
      rw [endCancelled_slots, List.find?_filter]
      have h := hl x (by simp [hx])
      unfold findOrder at h
      rw [← h]
      congr 1
      funext z
      by_cases hz : z.id = x.id
      · simp [hz, hne x hx]
      · simp [hz]
    unfold endAllCancelled
    rw [List.filter_cons]
    cases hg : goes s o
    · rw [endCancelled_stays hg]
      exact ih ha hos (fun x hx => hl x (by simp [hx]))
    · have hq : (queueNotice (.orderCancelled o.id o.tally o.plan.finished) s).reservations = s.reservations := by
        rw [queueNotice_only]
      have hfo : findOrder o.id (queueNotice (.orderCancelled o.id o.tally o.plan.finished) s) = some o := by
        rw [queueNotice_only]
        exact hl o (by simp)
      have hrel : Releases [o] s.reservations (endCancelled o s).reservations := by
        rw [endCancelled_goes hg, freeSlot_reservations, ← hq]
        exact releaseReservations_releases (hq ▸ ha) hfo
      have hap : Apart (endCancelled o s).reservations := by
        rw [endCancelled_goes hg, freeSlot_reservations]
        exact releaseReservations_apart _ (hq ▸ ha)
      have := ih hap hos hfind
      rw [goes_endCancelled] at this
      exact hrel.cons this

/-- R11, R22: the notices of the orders that leave, where the queue has room for them all. -/
theorem endAllCancelled_tx {l : List Order} {s : State} (h : s.tx.length + (l.filter (goes s)).length ≤ 8) :
    (endAllCancelled l s).tx = s.tx ++ (l.filter (goes s)).map
      (fun o => OutEntry.fresh (.notice (.orderCancelled o.id o.tally o.plan.finished))) := by
  induction l generalizing s with
  | nil => simp [endAllCancelled]
  | cons o os ih =>
    unfold endAllCancelled
    rw [List.filter_cons] at h ⊢
    cases hg : goes s o
    · rw [endCancelled_stays hg]
      rw [hg] at h
      exact ih h
    · rw [hg] at h
      simp only [if_true, List.length_cons, List.map_cons] at h ⊢
      have htx : (endCancelled o s).tx = s.tx ++ [OutEntry.fresh (.notice (.orderCancelled o.id o.tally o.plan.finished))] := by
        rw [endCancelled_goes hg, freeSlot_only]
        show (queueNotice _ s).tx = _
        unfold queueNotice pushSoft
        rw [if_pos (by omega)]
      rw [ih (by rw [goes_endCancelled, htx, List.length_append, List.length_singleton]; omega), htx, goes_endCancelled,
        List.append_assoc]
      rfl

theorem Releases.perm {os os' : List Order} (h : os.Perm os') {a b : List Reservation} (hr : Releases os a b) :
    Releases os' a b := fun code => by
  rw [hr code, (h.map (heldFor code)).sum_eq]

/-- R7, R11, R22. -/
theorem freeCancelled_spec {s : State} (hk : KeysDistinct s) :
    (freeCancelled s).slots = s.slots.filter (fun o => !goes s o)
    ∧ Releases (s.slots.filter (goes s)) s.reservations (freeCancelled s).reservations
    ∧ (s.tx.length + (s.slots.filter (goes s)).length ≤ 8 → ∀ o ∈ s.slots.filter (goes s),
        OutEntry.fresh (.notice (.orderCancelled o.id o.tally o.plan.finished)) ∈ (freeCancelled s).tx)
    ∧ (s.slots.filter (goes s) = [] → freeCancelled s = s) := by
  obtain ⟨hn, -, -, ha, -, -⟩ := hk
  have hperm : ((ranked s s.slots).filter (goes s)).Perm (s.slots.filter (goes s)) := (ranked_perm s s.slots).filter _
  refine ⟨freeCancelled_slots hn, ?_, fun hroom o ho => ?_, fun hnone => ?_⟩
  · refine Releases.perm hperm (endAllCancelled_releases ha ?_ (fun o ho => findOrder_of_mem hn (mem_ranked.1 ho)))
    exact ((ranked_perm s s.slots).map Order.id).nodup_iff.2 hn
  · unfold freeCancelled
    rw [endAllCancelled_tx (by rwa [hperm.length_eq]), List.mem_append]
    exact Or.inr (List.mem_map_of_mem (hperm.mem_iff.2 ho))
  · exact freeCancelled_none (fun o ho => by
      by_contra hg
      rw [Bool.not_eq_false] at hg
      exact absurd (List.mem_filter.2 ⟨ho, hg⟩) (by rw [hnone]; simp))

end Sys2Proof.Machine
end

