-- ==== Sys2Proof/Proofs/AfterAdmission.lean ====
section
/-! SUPPORT. O28, the close of an event: an IDLE scale stays empty up to the last admission, and the admission makes no order
due and takes no batch out of the pipeline. -/
namespace Sys2Proof.Machine

/-! ### The scale up to the admission (R65) -/

/-- No batch is in a scale that is IDLE. -/
def IdleEmpty (s : State) : Prop := s.scale.state = .idle → s.scale.batch = none

theorem IdleEmpty.congr {s u : State} (h : IdleEmpty s) (e : u.scale = s.scale) : IdleEmpty u := by
  unfold IdleEmpty
  rw [e]
  exact h

theorem idleEmpty_of_state {s : State} (h : s.scale.state ≠ .idle) : IdleEmpty s := fun hi => absurd hi h

theorem atWork_not_idle {st : ScaleState} (h : st.atWork) : st ≠ .idle := by
  rcases h with h | h | h <;> rw [h] <;> decide

theorem beginJogPulse_idleEmpty {s : State} (h : IdleEmpty s) : IdleEmpty (beginJogPulse s) := by
  unfold beginJogPulse
  split
  · exact idleEmpty_of_state nofun
  · exact h

theorem beginDischarge_idleEmpty {s : State} (h : IdleEmpty s) : IdleEmpty (beginDischarge s) := by
  unfold beginDischarge
  split
  · exact idleEmpty_of_state nofun
  · exact h

theorem passLine_idleEmpty {s : State} (h : IdleEmpty s) : IdleEmpty (passLine s) := by
  have h1 : IdleEmpty (watchPermission (unbarStages s)) :=
    h.congr ((congrArg Still.scale (watchPermission_still _)).trans (congrArg Still.scale (unbarStages_still s)))
  unfold passLine
  refine beginDischarge_idleEmpty (IdleEmpty.congr (beginJogPulse_idleEmpty h1) ?_)
  rw [beginGrind_only, beginDischargeMixer_only, beginPress_only, beginBaggerPulse_only]

theorem bookReady_works (x : State) : (bookReady x).works = x.works := by
  unfold bookReady makeUps markLoaded freeCancelled
  rw [makeUpAll_works, markAll_works, endAllCancelled_works, watchStep_works]

theorem bookReady_scale (x : State) : (bookReady x).scale = x.scale :=
  congrArg Still.scale (works_still (bookReady_works x))

theorem recomputeWaits_scale (s : State) : (recomputeWaits s).scale = s.scale := by rw [recomputeWaits_only]

/-- An admission either recomputes the wait sets alone or leaves the scale at work. -/
theorem admissionAttempt_scale (s : State) :
    (admissionAttempt s).scale = s.scale ∨ (admissionAttempt s).scale.state.atWork := by
  unfold admissionAttempt
  dsimp only
  split
  · split
    · exact Or.inr (admitBatch_atWork _ _)
    · exact Or.inl (recomputeWaits_scale s)
  · exact Or.inl rfl

theorem admissionAttempt_idleEmpty {s : State} (h : IdleEmpty s) : IdleEmpty (admissionAttempt s) := by
  rcases admissionAttempt_scale s with he | ha
  · exact h.congr he
  · exact idleEmpty_of_state (atWork_not_idle ha)

theorem passBook_idleEmpty {s : State} (h : IdleEmpty s) : IdleEmpty (passBook s) := by
  have h1 : IdleEmpty (admissionAttempt (bookReady s)) := admissionAttempt_idleEmpty (h.congr (bookReady_scale s))
  unfold bookReady at h1
  unfold passBook
  refine h1.congr ?_
  rw [beginRemainder_only, beginBucketDischarge_only]

theorem followLoops_scale (s : State) : (followLoops s).scale = s.scale := rfl

theorem pass_idleEmpty {s : State} (h : IdleEmpty s) : IdleEmpty (pass s) := by
  unfold pass
  exact IdleEmpty.congr (passBook_idleEmpty (passLine_idleEmpty h)) (followLoops_scale _)

theorem lastRound_idleEmpty {u : State} (h : IdleEmpty u) : IdleEmpty (lastRound u) := by
  unfold lastRound
  exact passLine_idleEmpty (pass_idleEmpty (pass_idleEmpty h))

/-! ### What an admission does to the records of the book (R4, R14, R17) -/

/-- What makes an order due (R12) is in the record as it was. -/
structure Order.Alike (z y : Order) : Prop where
  delivery  : y.delivery = z.delivery
  runMass   : y.runMass = z.runMass
  plan      : y.plan = z.plan
  claiming  : y.state = .claiming ↔ z.state = .claiming

theorem Order.Alike.refl (z : Order) : Order.Alike z z := ⟨rfl, rfl, rfl, Iff.rfl⟩

theorem Order.Alike.trans {x y z : Order} (h : Order.Alike x y) (h' : Order.Alike y z) : Order.Alike x z :=
  ⟨h'.delivery.trans h.delivery, h'.runMass.trans h.runMass, h'.plan.trans h.plan, h'.claiming.trans h.claiming⟩

/-- Every record of `u` is one of `s`, as it was but where `c` of its id. -/
def RecordsAlike (c : Nat → Prop) (s u : State) : Prop :=
  ∀ y ∈ u.slots, ∃ z ∈ s.slots, y.id = z.id ∧ y.cancelled = z.cancelled ∧ (c y.id ∨ Order.Alike z y)

theorem RecordsAlike.trans {c : Nat → Prop} {s u v : State} (h : RecordsAlike c s u) (h' : RecordsAlike c u v) :
    RecordsAlike c s v := by
  intro y hy
  obtain ⟨z, hz, hi, hc, ha⟩ := h' y hy
  obtain ⟨x, hx, hi', hc', hb⟩ := h z hz
  refine ⟨x, hx, hi.trans hi', hc.trans hc', ?_⟩
  rcases ha with ha | ha
  · exact Or.inl ha
  · rcases hb with hb | hb
    · exact Or.inl (hi ▸ hb)
    · exact Or.inr (hb.trans ha)

theorem RecordsAlike.refl (c : Nat → Prop) (s : State) : RecordsAlike c s s :=
  fun y hy => ⟨y, hy, rfl, rfl, Or.inr (Order.Alike.refl y)⟩

theorem recordsAlike_map {c : Nat → Prop} {f : Order → Order} {s u : State} (hu : u.slots = s.slots.map f)
    (hf : ∀ z, (f z).id = z.id ∧ (f z).cancelled = z.cancelled ∧ (c z.id ∨ Order.Alike z (f z))) : RecordsAlike c s u := by
  intro y hy
  rw [hu] at hy
  obtain ⟨z, hz, rfl⟩ := List.mem_map.1 hy
  obtain ⟨hi, hc, ha⟩ := hf z
  exact ⟨z, hz, hi, hc, hi.symm ▸ ha⟩

theorem recomputeWaits_slots (s : State) :
    (recomputeWaits s).slots = s.slots.map (fun o => if o.awaits then { o with waits := waitsFor o s } else o) := by
  unfold recomputeWaits
  rw [raiseShort_only]

theorem recomputeWaits_alike (c : Nat → Prop) (s : State) : RecordsAlike c s (recomputeWaits s) :=
  recordsAlike_map (recomputeWaits_slots s) (fun z => by
    split
    · exact ⟨rfl, rfl, Or.inr ⟨rfl, rfl, rfl, Iff.rfl⟩⟩
    · exact ⟨rfl, rfl, Or.inr (Order.Alike.refl z)⟩)

theorem preempt_alike (c : Nat → Prop) (chosen : Nat) (s : State) : RecordsAlike c s (preempt chosen s) :=
  recordsAlike_map rfl (fun z => by
    split
    · rename_i h
      exact ⟨rfl, rfl, Or.inr ⟨rfl, rfl, rfl, by simp [h.2]⟩⟩
    · exact ⟨rfl, rfl, Or.inr (Order.Alike.refl z)⟩)

theorem afterAdmission_alike {c : Nat → Prop} {id : Nat} (hc : c id) (s : State) :
    RecordsAlike c s (updOrder id Order.afterAdmission s) :=
  recordsAlike_map rfl (fun z => by
    split
    · rename_i h
      exact ⟨rfl, rfl, Or.inl (h ▸ hc)⟩
    · exact ⟨rfl, rfl, Or.inr (Order.Alike.refl z)⟩)

theorem RecordsAlike.of_slots {c : Nat → Prop} {s u v : State} (h : RecordsAlike c s u) (e : v.slots = u.slots) :
    RecordsAlike c s v := by
  unfold RecordsAlike
  rw [e]
  exact h

/-- R17: the chosen order is HELD or ACTIVE. -/
theorem firstBy_mem {ahead : Order → Order → Bool} {l : List Order} {o : Order} (h : firstBy ahead l = some o) : o ∈ l := by
  induction l generalizing o with
  | nil => cases h
  | cons x xs ih =>
    unfold firstBy at h
    split at h
    · rw [← Option.some.inj h]
      simp
    · rename_i p hp
      split at h <;> rw [← Option.some.inj h]
      · exact List.mem_cons_of_mem _ (ih hp)
      · simp

/-- R16: the order chosen is a candidate of the book. -/
theorem chooseOrder_mem {s : State} {o : Order} (h : chooseOrder s = some o) : o ∈ s.slots ∧ o.candidate = true := by
  have hm : o ∈ s.slots.filter Order.candidate := by
    unfold chooseOrder at h
    dsimp only at h
    split at h
    · rename_i a ha
      split at h
      · rw [← Option.some.inj h]
        exact List.mem_of_find?_eq_some ha
      · exact firstBy_mem h
    · exact firstBy_mem h
  exact List.mem_filter.1 hm

/-! ### The pipeline under an admission -/

theorem inPipeline_iff (id : Nat) (s : State) : inPipeline id s = true ↔
    ∃ b, (s.press.batch = some b ∨ s.mixer.batch = some b ∨ s.surge.batch = some b ∨ scaleRecord s = some b)
      ∧ b.order = some id := by
  simp [inPipeline, pipeline, or_assoc, or_and_right, exists_or]

/-- An admission into an empty scale takes nothing out of the pipeline. -/
theorem admitToScale_pipeline {b : Batch} {comps : List Planned} {s : State} (h : s.scale.batch = none) (id : Nat) :
    (inPipeline id s = true → inPipeline id (admitToScale b comps s) = true)
      ∧ (b.order = some id → inPipeline id (admitToScale b comps s) = true) := by
  have hr : scaleRecord (admitToScale b comps s) = some b := scaleRecord_admitToScale b comps s
  have hn : scaleRecord s = none := by
    unfold scaleRecord
    rw [h]
    rfl
  rw [inPipeline_iff, inPipeline_iff, hr]
  refine ⟨fun ⟨x, hx, hi⟩ => ⟨x, ?_, hi⟩, fun hi => ⟨b, by simp, hi⟩⟩
  rw [hn] at hx
  rw [admitToScale_only]
  rcases hx with hx | hx | hx | hx
  · exact Or.inl hx
  · exact Or.inr (Or.inl hx)
  · exact Or.inr (Or.inr (Or.inl hx))
  · cases hx

theorem admitProduct_pipeline (o : Order) {s : State} (h : s.scale.batch = none) (id : Nat) :
    (inPipeline id s = true → inPipeline id (admitProduct o s) = true) ∧ inPipeline o.id (admitProduct o s) = true := by
  unfold admitProduct
  dsimp only
  exact ⟨fun hi => (admitToScale_pipeline (s := { updOrder o.id Order.afterAdmission (preempt o.id s) with
    batchCounter := advanceBatch s.batchCounter, carry := s.carry.product o.cls o.form }) h id).1 hi,
    (admitToScale_pipeline (s := { updOrder o.id Order.afterAdmission (preempt o.id s) with
    batchCounter := advanceBatch s.batchCounter, carry := s.carry.product o.cls o.form }) h o.id).2 rfl⟩

theorem admitFlush_pipeline (o : Order) {s : State} (h : s.scale.batch = none) (id : Nat)
    (hi : inPipeline id s = true) : inPipeline id (admitFlush o s) = true :=
  (admitToScale_pipeline (s := { preempt o.id s with
    batchCounter := advanceBatch s.batchCounter
    carry := s.carry.flush (flushForm s.params.matrix s.carry o.cls o.form) }) h id).1 hi

/-- What an admission of a batch into an empty scale leaves of the book and the pipeline. -/
theorem admitBatch_alike (o : Order) {s : State} (hs : s.scale.batch = none) :
    (∀ id, inPipeline id s = true → inPipeline id (admitBatch o s) = true)
      ∧ RecordsAlike (fun id => inPipeline id (admitBatch o s) = true) s (admitBatch o s) := by
  unfold admitBatch
  split
  · exact ⟨fun id => admitFlush_pipeline o hs id, (preempt_alike _ o.id s).of_slots (admitFlush_slots o s)⟩
  · refine ⟨fun id => (admitProduct_pipeline o hs id).1, RecordsAlike.of_slots ?_ (admitProduct_slots o s)⟩
    exact (preempt_alike _ o.id s).trans (afterAdmission_alike (admitProduct_pipeline o hs o.id).2 _)

/-- What an admission attempt leaves of them. -/
theorem admissionAttempt_alike {s : State} (h : IdleEmpty s) :
    (∀ id, inPipeline id s = true → inPipeline id (admissionAttempt s) = true)
      ∧ RecordsAlike (fun id => inPipeline id (admissionAttempt s) = true) s (admissionAttempt s) := by
  have hp : ∀ id, inPipeline id (recomputeWaits s) = inPipeline id s := fun id => by
    rw [recomputeWaits_only]
    rfl
  unfold admissionAttempt
  dsimp only
  split
  · rename_i hd
    have hidle : s.scale.state = .idle := by
      simp only [attemptDue, Bool.and_eq_true, decide_eq_true_eq] at hd
      exact hd.1.1.1
    split
    · rename_i o _
      have hs : (recomputeWaits s).scale.batch = none := by
        rw [recomputeWaits_scale]
        exact h hidle
      obtain ⟨h1, h2⟩ := admitBatch_alike o hs
      exact ⟨fun id hi => h1 id ((hp id).trans hi), (recomputeWaits_alike _ s).trans h2⟩
    · exact ⟨fun id hi => (hp id).trans hi, recomputeWaits_alike _ s⟩
  · exact ⟨fun _ hi => hi, RecordsAlike.refl _ s⟩

/-- An order that is due after the attempt was due before it. -/
theorem makeUpDue_admissionAttempt {s : State} (h : IdleEmpty s) {y : Order} (hy : y ∈ (admissionAttempt s).slots)
    (hd : makeUpDue y (admissionAttempt s) = true) : ∃ z ∈ s.slots, makeUpDue z s = true := by
  obtain ⟨hmono, halike⟩ := admissionAttempt_alike h
  obtain ⟨z, hz, hi, hc, ha⟩ := halike y hy
  obtain ⟨⟨hstate, hcan, hn, hm, hpipe⟩, hrest⟩ := (makeUpDue_iff _ _).1 hd
  rcases ha with ha | ha
  · rw [hpipe] at ha
    cases ha
  refine ⟨z, hz, (makeUpDue_iff z s).2 ⟨⟨fun hs => hstate (ha.claiming.2 hs), hc ▸ hcan, ha.plan ▸ hn, ha.plan ▸ hm, ?_⟩, ?_⟩⟩
  · by_contra hp
    rw [Bool.not_eq_false] at hp
    rw [hi, hmono z.id hp] at hpipe
    cases hpipe
  · have hshort : residueShort y (admissionAttempt s) = residueShort z s := by
      unfold residueShort Order.bagSize inHand
      rw [hi, ha.delivery, admissionAttempt_only]
    rw [hshort, ha.delivery, ha.plan, ha.runMass] at hrest
    exact hrest

/-! ### At the close of an event -/

theorem settled_notDue (s : State) {u : State} (h : IdleEmpty u) :
    ∀ o ∈ (settled s u).slots, makeUpDue o (settled s u) = false := by
  have hb := settled_book s u
  have hslots : (settled s u).slots = (admissionAttempt (bookReady (lastRound u))).slots := congrArg Book.slots hb
  have hidle : IdleEmpty (bookReady (lastRound u)) := (lastRound_idleEmpty h).congr (bookReady_scale _)
  intro o ho
  rw [makeUpDue_congr hb]
  by_contra hd
  rw [Bool.not_eq_false] at hd
  obtain ⟨z, hz, hzd⟩ := makeUpDue_admissionAttempt hidle (hslots ▸ ho) hd
  rw [show makeUpDue z (bookReady (lastRound u)) = false from makeUps_notDue _ z hz] at hzd
  cases hzd

/-- The book's operations after `freeCancelled` keep what R22 reads of a record. -/
def CancelledFrom (s u : State) : Prop := ∀ y ∈ u.slots, ∃ z ∈ s.slots, y.id = z.id ∧ y.cancelled = z.cancelled

theorem CancelledFrom.refl (s : State) : CancelledFrom s s := fun y hy => ⟨y, hy, rfl, rfl⟩

theorem CancelledFrom.trans {s u v : State} (h : CancelledFrom s u) (h' : CancelledFrom u v) : CancelledFrom s v := by
  intro y hy
  obtain ⟨z, hz, hi, hc⟩ := h' y hy
  obtain ⟨x, hx, hi', hc'⟩ := h z hz
  exact ⟨x, hx, hi.trans hi', hc.trans hc'⟩

theorem CancelledFrom.of_slots {s u : State} (e : u.slots = s.slots) : CancelledFrom s u := by
  unfold CancelledFrom
  rw [e]
  exact CancelledFrom.refl s

theorem updOrder_cancelledFrom (id : Nat) {f : Order → Order} (hf : ∀ o, (f o).id = o.id ∧ (f o).cancelled = o.cancelled)
    (s : State) : CancelledFrom s (updOrder id f s) := by
  intro y hy
  obtain ⟨z, hz, rfl⟩ := List.mem_map.1 hy
  refine ⟨z, hz, ?_⟩
  split
  · exact hf z
  · exact ⟨rfl, rfl⟩

theorem releaseReservations_cancelledFrom (id : Nat) (s : State) : CancelledFrom s (releaseReservations id s) := by
  intro y hy
  rw [releaseReservations_slots] at hy
  obtain ⟨z, hz, rfl⟩ := List.mem_map.1 hy
  exact ⟨z, hz, by split <;> exact ⟨rfl, rfl⟩⟩

theorem reserveRun_cancelledFrom (id : Nat) (s : State) : CancelledFrom s (reserveRun id s) := by
  cases h : findOrder id s with
  | none =>
    unfold reserveRun
    rw [h]
    exact CancelledFrom.refl s
  | some o =>
    rw [reserveRun_eq h]
    generalize reserveParts (machineParts o.runMass o.formula) s.reservations = p
    exact fun y hy => updOrder_cancelledFrom id (f := fun x => { x with remainders := p.2 }) (fun _ => ⟨rfl, rfl⟩)
      { s with reservations := p.1 } y hy

theorem freeSlot_cancelledFrom (id : Nat) (s : State) : CancelledFrom s (freeSlot id s) := by
  intro y hy
  rw [freeSlot_slots] at hy
  exact ⟨y, (List.mem_filter.1 hy).1, rfl, rfl⟩

theorem queueNotice_slots (n : Notice) (s : State) : (queueNotice n s).slots = s.slots := by rw [queueNotice_only]

theorem completeRun_cancelledFrom (id : Nat) (s : State) : CancelledFrom s (completeRun id s) := by
  have hr (n : Notice) : CancelledFrom s (queueNotice n (releaseReservations id s)) :=
    (releaseReservations_cancelledFrom id s).trans (CancelledFrom.of_slots (queueNotice_slots n _))
  unfold completeRun
  split
  · exact CancelledFrom.refl s
  · split
    · exact (hr _).trans (freeSlot_cancelledFrom _ _)
    · exact ((hr _).trans (updOrder_cancelledFrom id (f := Order.nextRun s.params.batchSize _)
        (fun _ => ⟨rfl, rfl⟩) _)).trans (reserveRun_cancelledFrom _ _)

theorem markAll_cancelledFrom (l : List Order) (s : State) : CancelledFrom s (markAll l s) := by
  have hone (o : Order) (s : State) : CancelledFrom s (markLoadedFor o s) := by
    unfold markLoadedFor
    split
    · split
      · refine CancelledFrom.trans (CancelledFrom.of_slots ?_) (completeRun_cancelledFrom _ _)
        rw [queueFrame_only]
        rfl
      · exact CancelledFrom.refl s
    · exact CancelledFrom.refl s
  induction l generalizing s with
  | nil => exact CancelledFrom.refl s
  | cons o os ih => exact (hone o s).trans (ih _)

theorem makeUpAll_cancelledFrom (l : List Order) (s : State) : CancelledFrom s (makeUpAll l s) := by
  have hone (o : Order) (s : State) : CancelledFrom s (makeUpFor o s) := by
    rw [makeUpFor_eq]
    split
    · exact updOrder_cancelledFrom _ (f := Order.makeUpBy _ _ _) (fun _ => ⟨rfl, rfl⟩) s
    · exact CancelledFrom.refl s
  induction l generalizing s with
  | nil => exact CancelledFrom.refl s
  | cons o os ih => exact (hone o s).trans (ih _)

/-- R22: a cancelled order that the book's work of a round leaves has a batch in the pipeline. -/
theorem bookReady_cancelled (x : State) :
    ∀ o ∈ (bookReady x).slots, o.cancelled = true → inPipeline o.id (bookReady x) = true := by
  intro o ho hc
  have hfrom : CancelledFrom (freeCancelled (watchStep x)) (bookReady x) :=
    (markAll_cancelledFrom _ _).trans (makeUpAll_cancelledFrom _ _)
  obtain ⟨z, hz, hi, hzc⟩ := hfrom o ho
  have hw : inPipeline o.id (bookReady x) = inPipeline o.id (freeCancelled (watchStep x)) := by
    unfold bookReady makeUps markLoaded
    rw [makeUpAll_only, markAll_only]
    rfl
  rw [hw, hi]
  exact freeCancelled_kept_cancelled _ z hz (hzc ▸ hc)

theorem settled_cancelled (s : State) {u : State} (h : IdleEmpty u) :
    ∀ o ∈ (settled s u).slots, o.cancelled = true → inPipeline o.id (settled s u) = true := by
  have hb := settled_book s u
  have hslots : (settled s u).slots = (admissionAttempt (bookReady (lastRound u))).slots := congrArg Book.slots hb
  have hidle : IdleEmpty (bookReady (lastRound u)) := (lastRound_idleEmpty h).congr (bookReady_scale _)
  obtain ⟨hmono, halike⟩ := admissionAttempt_alike hidle
  intro o ho hc
  rw [inPipeline_congr hb]
  obtain ⟨z, hz, hi, hzc, -⟩ := halike o (hslots ▸ ho)
  rw [hi]
  exact hmono _ (bookReady_cancelled _ z hz (hzc ▸ hc))

/-- R5, R12: the make-up batches of the orders that are due, and which of them becomes ACTIVE. -/
theorem makeUps_spec {s : State} (hk : KeysDistinct s) {o : Order} (ho : o ∈ s.slots) (hd : makeUpDue o s = true) :
    ∃ w, findOrder o.id (makeUps s) = some w
      ∧ (∃ m, w.plan =
            { o.plan with makeUp := some { mass := m, batches := splitCount m s.params.batchSize, admitted := 0 } }
        ∧ (∀ size bags, o.delivery = .bagged size bags → m = max s.params.minBatch
            (((bags - o.plan.bags) * size * (1000 + s.params.bagAllowance) + 999) / 1000))
        ∧ (∀ mass, o.delivery = .bulk mass → m = max s.params.minBatch (o.runMass - o.plan.massFinished)))
      ∧ (w.state = .held ∨ (w.state = .active ∧ 1 ≤ o.level))
      ∧ w.remainders = o.remainders ∧ (makeUps s).reservations = s.reservations
      ∧ ((∀ x ∈ s.slots, x.state ≠ .active) → (1 ≤ o.level ∧ ∀ x ∈ s.slots, makeUpDue x s = true → 1 ≤ x.level →
          x.id ≠ o.id → ranksAhead s o x = true) → w.state = .active)
      ∧ ((∃ a ∈ s.slots, a.state = .active ∧ makeUpDue a s = false) → w.state = .held) := by
  obtain ⟨hn, -⟩ := hk
  obtain ⟨alone, hw, hfirst, hnot⟩ := makeUps_due_order hn ho hd
  refine ⟨_, hw, ⟨_, rfl, fun size bags h => makeUpMass_bagged h _ _, fun mass h => makeUpMass_bulk h _ _⟩,
    makeUpBy_state _ _ _ _, rfl, ?_, fun hidle hlead => ?_, fun ha => ?_⟩
  · unfold makeUps
    rw [makeUpAll_only]
  · simp [Order.makeUpBy, hlead.1, hfirst hidle hlead.2]
  · simp [Order.makeUpBy, hnot ha]

/-- Settles O28: the make-ups by the turns of the ranking, the cancelled orders by the records that leave, the close of an
event by what its last admission leaves of both. -/
theorem makeUpsAndCancelledOrders : Obligations.MakeUpsAndCancelledOrders := by
  refine ⟨⟨fun o s => ⟨fun size bags h => ?_, fun m h => ?_⟩, fun s hk o ho => ⟨makeUps_notDue_order hk.1 ho, makeUps_spec hk ho⟩,
    fun s u h => settled_notDue s h.1⟩, fun s hk => freeCancelled_spec hk, fun s u h => settled_cancelled s h.1⟩
  · rw [makeUpDue_iff, h, residueShort_iff h]
    rfl
  · rw [makeUpDue_iff, h]
    rfl

end Sys2Proof.Machine
end

