-- ==== Sys2Proof/Proofs/Attempts.lean ====
section
/-! SUPPORT. R13 and R16: the wait sets and the raises that answer them, and the order an admission chooses. -/
namespace Sys2Proof.Machine

/-! ### The wait set of an order (R13) -/

theorem awaits_iff (o : Order) : o.awaits = true ↔ (o.state = .held ∨ o.state = .active) ∧ 1 ≤ o.level ∧ o.cancelled = false
    ∧ (o.plan.admitted < o.plan.n.getD 0 ∨ o.plan.makeUp ≠ none) := by
  have hrem : o.plan.remains = true ↔ o.plan.admitted < o.plan.n.getD 0 ∨ o.plan.makeUp ≠ none := by
    unfold Plan.remains
    rw [Bool.or_eq_true, decide_eq_true_iff, Option.isSome_iff_ne_none]
    rfl
  simp only [Order.awaits, Bool.and_eq_true, Bool.or_eq_true, decide_eq_true_eq, Bool.not_eq_true', and_assoc, hrem]

/-- R13: no source of the ingredient may serve, while a bin in quarantine holds it. -/
def shutOff (code : Nat) (s : State) : Prop :=
  (∀ e ∈ s.bins, eligible code e = false) ∧ ∃ e ∈ s.bins, e.channel ≠ none ∧ e.ingredient = some code ∧ e.quarantine ≠ .off

theorem quarantineWait_iff (code : Nat) (s : State) : quarantineWait code s = true ↔ shutOff code s := by
  simp [quarantineWait, shutOff, Option.isSome_iff_ne_none, and_assoc]

theorem waitsFor_quarantine (o : Order) (s : State) : (waitsFor o s).quarantine = true ↔
    ∃ c ∈ machineParts o.nextMass o.formula, shutOff c.code s := by
  unfold waitsFor
  simp only [List.any_eq_true, quarantineWait_iff]

theorem waitsFor_short (o : Order) (s : State) : (waitsFor o s).short = true ↔
    ∃ c ∈ machineParts o.nextMass o.formula, ¬shutOff c.code s ∧ admissionAvailability c.code (some o) s < c.target := by
  unfold waitsFor
  simp only [List.any_eq_true, Bool.and_eq_true, Bool.not_eq_true', decide_eq_true_eq, ← quarantineWait_iff,
    Bool.not_eq_true]

theorem waitsFor_truck (o : Order) (s : State) : (waitsFor o s).truck = true ↔
    o.bagged = false ∧ ∀ t ∈ s.trucks, ∀ c ∈ t.comps, c.order = some o.id →
      c.state = .opened ∨ c.state = .loading → c.capacity < o.runMass := by
  unfold waitsFor truckWait
  simp only [Bool.and_eq_true, Bool.not_eq_true', List.any_eq_false, List.any_eq_true, Bool.or_eq_true, decide_eq_true_eq,
    not_and, not_exists, Nat.not_le, and_imp]

theorem waitsFor_flush (o : Order) (s : State) : (waitsFor o s).flush = true ↔
    1 ≤ orderFlush o s ∧ ∀ e ∈ s.bins, eligible s.params.flushIngredient e = true →
      min (freeMass none e s) (admissionAvailability s.params.flushIngredient none s) < s.params.flushMass := by
  unfold waitsFor flushSource orderFlush
  simp only [Bool.and_eq_true, Bool.not_eq_true', List.any_eq_false, decide_eq_true_eq, not_and, Nat.not_le]

theorem waitsFor_finishedBin (o : Order) (s : State) : (waitsFor o s).finishedBin = true ↔
    s.fin.unknown = true ∨ s.fin.cancelled = true := by
  unfold waitsFor
  dsimp only
  rw [Bool.or_eq_true]

/-- A wait set is a matter of the order's plan and the book's figures: a new wait set of the order leaves it. -/
theorem waitsFor_waits (o : Order) (w : Waits) (s : State) : waitsFor { o with waits := w } s = waitsFor o s := rfl

theorem waitsFor_congr {s u : State} (h : u.book = s.book) (o : Order) : waitsFor o u = waitsFor o s := by
  have hk := congrArg Book.kept h
  have hb : u.bins = s.bins := congrArg Kept.bins hk
  have hp : u.params = s.params := congrArg Kept.params hk
  have hr : u.peers = s.peers := congrArg Kept.peers hk
  have hd : u.plan = s.plan := congrArg Book.plan h
  have ht : u.trucks = s.trucks := congrArg Book.trucks h
  have hc : u.carry = s.carry := congrArg Book.carry h
  have hv : u.reservations = s.reservations := congrArg Book.reservations h
  have hu : u.fin.unknown = s.fin.unknown := congrArg (fun b => b.bin.unknown) h
  have hl : u.fin.cancelled = s.fin.cancelled := congrArg (fun b => b.bin.cancelled) h
  unfold waitsFor quarantineWait truckWait flushSource admissionAvailability reservedMass freeMass peerTargets ownUnreserved
  rw [hb, hp, hr, hd, ht, hc, hv, hu, hl]

/-! ### One raise after another (R13, R183) -/

/-- The record of a fault, where one stands. -/
def recordOf (k : FaultKey) (rs : List FaultRecord) : Option FaultRecord := rs.find? (fun r => decide (r.key = k))

/-- R183: the record of a fault after a raise. -/
def raisedRecord (k : FaultKey) (reference now : Option Nat) : Option FaultRecord → FaultRecord
  | none => { key := k, count := 1, first := now, last := now, reference := reference, acked := false }
  | some r => { r with count := min 255 (r.count + 1), last := now, acked := false }

theorem raisedRecord_acked (k : FaultKey) (reference now : Option Nat) (q : Option FaultRecord) :
    (raisedRecord k reference now q).acked = false := by
  cases q <;> rfl

theorem raisedRecord_last (k : FaultKey) (reference now : Option Nat) (q : Option FaultRecord) :
    (raisedRecord k reference now q).last = now := by
  cases q <;> rfl

theorem raisedRecord_count (k : FaultKey) (reference now : Option Nat) (q : Option FaultRecord) :
    (raisedRecord k reference now q).count ≤ 255 := by
  cases q <;> simp [raisedRecord]

theorem recordOf_bumpFault (k : FaultKey) (reference now : Option Nat) (rs : List FaultRecord) :
    recordOf k (bumpFault k reference now rs) = some (raisedRecord k reference now (recordOf k rs)) := by
  unfold recordOf
  induction rs with
  | nil => simp [bumpFault, raisedRecord]
  | cons r rs ih =>
    unfold bumpFault
    by_cases hr : r.key = k
    · simp [hr, raisedRecord]
    · simp only [hr, if_false, List.find?_cons, decide_false]
      exact ih

theorem recordOf_key {k : FaultKey} {rs : List FaultRecord} {r : FaultRecord} (h : recordOf k rs = some r) : r.key = k := by
  simpa using List.find?_some h

theorem raiseFault_record (k : FaultKey) (reference : Option Nat) (detail : List DetailField) (s : State) :
    recordOf k (raiseFault k reference detail s).faults
      = some (raisedRecord k reference s.millTime (recordOf k s.faults)) := by
  rw [raiseFault_faults, recordOf_bumpFault]

theorem raiseFault_millTime (k : FaultKey) (reference : Option Nat) (detail : List DetailField) (s : State) :
    (raiseFault k reference detail s).millTime = s.millTime := by
  rw [raiseFault_only]

/-- R191: a raise is told, where the frame queue has room. -/
theorem raiseFault_tx (k : FaultKey) (reference : Option Nat) (detail : List DetailField) {s : State} (h : s.tx.length < 8) :
    (raiseFault k reference detail s).tx = s.tx ++ [OutEntry.fresh
      (.notice (.fault (raisedRecord k reference s.millTime (recordOf k s.faults)) detail))] := by
  have hr := recordOf_bumpFault k reference s.millTime s.faults
  unfold recordOf at hr
  unfold raiseFault
  simp only [hr, pushSoft, h, if_true]
  rfl

/-- R13: the book after its orders lacking stock were raised one after another. -/
def raisedFor (entering : List Order) (s : State) : State :=
  entering.foldl (fun x o => raiseFault .shortStock (some o.id) [] x) s

theorem raiseShort_eq (l : List Order) (s : State) : raiseShort l s = raisedFor l s := by
  induction l generalizing s with
  | nil => rfl
  | cons o os ih => exact ih _

theorem raisedFor_cons (o : Order) (l : List Order) (s : State) :
    raisedFor (o :: l) s = raisedFor l (raiseFault .shortStock (some o.id) [] s) := rfl

/-- The raises of a standing fault are counted to its record. -/
theorem raisedFor_record (l : List Order) {s : State} {q : FaultRecord} (h : recordOf .shortStock s.faults = some q)
    (hq : q.acked = false) (hl : q.last = s.millTime) (hc : q.count ≤ 255) :
    recordOf .shortStock (raisedFor l s).faults = some { q with count := min 255 (q.count + l.length) } := by
  induction l generalizing s q with
  | nil =>
    have hn : min 255 (q.count + ([] : List Order).length) = q.count := by simpa using hc
    rw [hn]
    exact h
  | cons o os ih =>
    have hr : recordOf .shortStock (raiseFault .shortStock (some o.id) [] s).faults
        = some { q with count := min 255 (q.count + 1) } := by
      rw [raiseFault_record, h, ← hl]
      unfold raisedRecord
      rw [← hq]
    rw [raisedFor_cons, ih hr hq (by rw [raiseFault_millTime]; exact hl) (by simp)]
    have hn : min 255 (min 255 (q.count + 1) + os.length) = min 255 (q.count + (o :: os).length) := by
      rw [List.length_cons]
      omega
    simp only [hn]

/-- R183: the record the first raise made or found, counted once for each. -/
theorem raisedFor_record_cons (o : Order) (l : List Order) (s : State) :
    recordOf .shortStock (raisedFor (o :: l) s).faults
      = let r := raisedRecord .shortStock (some o.id) s.millTime (recordOf .shortStock s.faults)
        some { r with count := min 255 (r.count + l.length) } := by
  exact raisedFor_record l (raiseFault_record _ _ _ s) (raisedRecord_acked _ _ _ _)
    (by rw [raiseFault_millTime, raisedRecord_last]) (raisedRecord_count _ _ _ _)

theorem raisedFor_tx (l : List Order) {s : State} (h : s.tx.length + l.length ≤ 8) : ∃ notices : List FaultRecord,
    notices.length = l.length ∧ (raisedFor l s).tx = s.tx ++ notices.map (fun r => OutEntry.fresh (.notice (.fault r [])))
    ∧ ∀ r ∈ notices, r.key = .shortStock ∧ r.acked = false := by
  induction l generalizing s with
  | nil => exact ⟨[], rfl, by simp [raisedFor], by simp⟩
  | cons o os ih =>
    rw [List.length_cons] at h
    have ht := raiseFault_tx .shortStock (some o.id) [] (s := s) (by omega)
    obtain ⟨ns, hlen, htx, hns⟩ := ih (s := raiseFault .shortStock (some o.id) [] s) (by
      rw [ht, List.length_append, List.length_singleton]
      omega)
    refine ⟨raisedRecord .shortStock (some o.id) s.millTime (recordOf .shortStock s.faults) :: ns, by rw [List.length_cons, hlen, List.length_cons], by
      rw [raisedFor_cons, htx, ht, List.append_assoc]
      rfl, ?_⟩
    rintro r (_ | ⟨_, hr⟩)
    · exact ⟨recordOf_key (raiseFault_record .shortStock (some o.id) [] s), raisedRecord_acked _ _ _ _⟩
    · exact hns r hr

/-! ### The order an admission chooses (R16) -/

theorem ranksAhead_negTrans (s : State) {a b c : Order} (h : ranksAhead s a b = false) (h' : ranksAhead s b c = false) :
    ranksAhead s a c = false := by
  rw [← Bool.not_eq_true, ranksAhead_iff] at *
  omega

theorem firstBy_eq_none {ahead : Order → Order → Bool} {l : List Order} : firstBy ahead l = none ↔ l = [] := by
  cases l with
  | nil => exact ⟨fun _ => rfl, fun _ => rfl⟩
  | cons x xs =>
    unfold firstBy
    split
    · simp
    · split <;> simp

/-- Nothing ranks ahead of the first. -/
theorem firstBy_first {s : State} {l : List Order} {o : Order} (h : firstBy (ranksAhead s) l = some o) :
    ∀ x ∈ l, ranksAhead s x o = false := by
  have hirr : ∀ x, ranksAhead s x x = false := fun x => by
    rw [← Bool.not_eq_true, ranksAhead_iff]
    omega
  induction l generalizing o with
  | nil => cases h
  | cons y ys ih =>
    unfold firstBy at h
    split at h
    · rename_i hn
      rw [← Option.some.inj h, firstBy_eq_none.1 hn]
      rintro x (_ | ⟨_, hx⟩)
      · exact hirr y
      · cases hx
    · rename_i p hp
      split at h
      · rename_i hpy
        rw [← Option.some.inj h]
        rintro x (_ | ⟨_, hx⟩)
        · exact ranksAhead_asymm s _ _ hpy
        · exact ih hp x hx
      · rename_i hpy
        rw [← Option.some.inj h]
        rintro x (_ | ⟨_, hx⟩)
        · exact hirr y
        · exact ranksAhead_negTrans s (ih hp x hx) (Bool.eq_false_iff.2 hpy)

/-- R16: an order the next batch may come from. -/
def isCandidate (o : Order) (s : State) : Prop := o ∈ s.slots ∧ o.awaits = true ∧ o.waits.isEmpty = true

/-- R16: the active order where no candidate stands above it. -/
def leads (a : Order) (s : State) : Prop := isCandidate a s ∧ a.state = .active ∧ ∀ x, isCandidate x s → x.level ≤ a.level

theorem mem_candidates (o : Order) (s : State) : o ∈ s.slots.filter Order.candidate ↔ isCandidate o s := by
  rw [List.mem_filter]
  unfold Order.candidate isCandidate
  rw [Bool.and_eq_true]

theorem chooseOrder_none (s : State) : chooseOrder s = none ↔ ∀ o, ¬isCandidate o s := by
  have hnil : s.slots.filter Order.candidate = [] ↔ ∀ o, ¬isCandidate o s := by
    rw [List.eq_nil_iff_forall_not_mem]
    exact forall_congr' (fun o => not_congr (mem_candidates o s))
  rw [← hnil]
  unfold chooseOrder
  dsimp only
  split
  · rename_i a ha
    have hne : s.slots.filter Order.candidate ≠ [] := List.ne_nil_of_mem (List.mem_of_find?_eq_some ha)
    split
    · simp [hne]
    · rw [firstBy_eq_none]
  · rw [firstBy_eq_none]

theorem chooseOrder_candidate {s : State} {o : Order} (h : chooseOrder s = some o) : isCandidate o s := by
  obtain ⟨hm, hc⟩ := chooseOrder_mem h
  exact (mem_candidates o s).1 (List.mem_filter.2 ⟨hm, hc⟩)

/-- R16: the active order leads, or the first of the ranking is chosen. -/
theorem chooseOrder_cases {s : State} {o : Order} (h : chooseOrder s = some o) :
    leads o s ∨ firstBy (ranksAhead s) (s.slots.filter Order.candidate) = some o
      ∧ ∀ a, (s.slots.filter Order.candidate).find? (fun x => decide (x.state = .active)) = some a → ¬leads a s := by
  unfold chooseOrder at h
  dsimp only at h
  split at h
  · rename_i a ha
    have hact : a.state = .active := by simpa using List.find?_some ha
    have hall : ((s.slots.filter Order.candidate).all fun x => decide (x.level ≤ a.level)) = true
        ↔ ∀ x, isCandidate x s → x.level ≤ a.level := by
      rw [List.all_eq_true]
      exact forall_congr' (fun x => by rw [mem_candidates, decide_eq_true_iff])
    split at h
    · rename_i hl
      rw [← Option.some.inj h]
      exact Or.inl ⟨(mem_candidates a s).1 (List.mem_of_find?_eq_some ha), hact, hall.1 hl⟩
    · rename_i hl
      refine Or.inr ⟨h, fun b hb hlead => hl (hall.2 ?_)⟩
      rw [Option.some.inj (ha.symm.trans hb)]
      exact hlead.2.2
  · rename_i hf
    exact Or.inr ⟨h, fun a ha => absurd (hf.symm.trans ha) (by simp)⟩

theorem chooseOrder_leads {s : State} (hk : KeysDistinct s) (ho : OneActive s) {o a : Order} (h : chooseOrder s = some o)
    (ha : leads a s) : o = a := by
  have hone : ∀ x y, isCandidate x s → isCandidate y s → x.state = .active → y.state = .active → x = y :=
    fun x y hx hy hxa hya => slot_unique hk.1 hx.1 hy.1 (ho x hx.1 y hy.1 hxa hya)
  rcases chooseOrder_cases h with hl | ⟨-, hn⟩
  · exact hone o a hl.1 ha.1 hl.2.1 ha.2.1
  · cases hf : (s.slots.filter Order.candidate).find? (fun x => decide (x.state = .active)) with
    | none => exact absurd (decide_eq_true ha.2.1) (List.find?_eq_none.1 hf a ((mem_candidates a s).2 ha.1))
    | some b =>
      have hb := (mem_candidates b s).1 (List.mem_of_find?_eq_some hf)
      have hba : b = a := hone b a hb ha.1 (by simpa using List.find?_some hf) ha.2.1
      exact absurd ha (hba ▸ hn b hf)

theorem chooseOrder_first {s : State} {o : Order} (h : chooseOrder s = some o) (hn : ∀ a, ¬leads a s) :
    ∀ x, isCandidate x s → ranksAhead s x o = false := by
  rcases chooseOrder_cases h with hl | ⟨hf, -⟩
  · exact absurd hl (hn o)
  · exact fun x hx => firstBy_first hf x ((mem_candidates x s).2 hx)

/-! ### When an attempt is due (R13) -/

theorem unitBarred_iff (u : FaultUnit) (s : State) : unitBarred u s = false ↔
    ∀ r ∈ s.faults, r.key.unit = u → r.key.severity = .hold ∨ r.key.severity = .stop → r.acked = true := by
  have hg : ∀ k : FaultKey, k.grave = true ↔ k.severity = .hold ∨ k.severity = .stop := fun k => by
    unfold FaultKey.grave
    cases k.severity <;> simp
  unfold unitBarred
  simp only [List.any_eq_false, Bool.and_eq_true, decide_eq_true_eq, hg, Bool.not_eq_true', not_and, Bool.not_eq_false,
    and_imp]

theorem attemptDue_iff (s : State) : attemptDue s = true ↔ s.scale.state = .idle ∧ s.line = .run ∧ (pipeline s).length < 4
    ∧ unitBarred .dosing s = false := by
  simp only [attemptDue, Bool.and_eq_true, decide_eq_true_eq, Bool.not_eq_true']
  tauto

theorem admissionAttempt_notDue {s : State} (h : attemptDue s = false) : admissionAttempt s = s := by
  unfold admissionAttempt
  rw [h]
  rfl

theorem admissionAttempt_none {s : State} (h : attemptDue s = true) (hc : chooseOrder (recomputeWaits s) = none) :
    admissionAttempt s = recomputeWaits s := by
  unfold admissionAttempt
  simp only [h, if_true, hc]

theorem admissionAttempt_some {s : State} {o : Order} (h : attemptDue s = true)
    (hc : chooseOrder (recomputeWaits s) = some o) : admissionAttempt s = admitBatch o (recomputeWaits s) := by
  unfold admissionAttempt
  simp only [h, if_true, hc]

/-- The raises of a recomputation and its wait sets change no figure that a wait set reads. -/
theorem waitsFor_recomputeWaits (o : Order) (s : State) : waitsFor o (recomputeWaits s) = waitsFor o s := by
  rw [recomputeWaits_only]
  rfl

/-- R13: where no admission was made, each order that waits has the wait set of now, and it is not empty. -/
theorem admissionAttempt_waiting {s : State} (hd : attemptDue s = true) (hidle : (admissionAttempt s).scale.state = .idle)
    {o : Order} (ho : o ∈ (admissionAttempt s).slots) (ha : o.awaits = true) :
    o.waits = waitsFor o (admissionAttempt s) ∧ o.waits.isEmpty = false := by
  cases hc : chooseOrder (recomputeWaits s) with
  | some p =>
    rw [admissionAttempt_some hd hc] at hidle
    exact absurd hidle (atWork_not_idle (admitBatch_atWork p _))
  | none =>
    rw [admissionAttempt_none hd hc] at ho ⊢
    have hnot : o.waits.isEmpty = false := Bool.eq_false_iff.2 (fun he => (chooseOrder_none _).1 hc o ⟨ho, ha, he⟩)
    rw [recomputeWaits_slots, List.mem_map] at ho
    obtain ⟨z, -, hz⟩ := ho
    split at hz
    · refine ⟨?_, hnot⟩
      rw [← hz, waitsFor_recomputeWaits]
      exact (waitsFor_waits z _ s).symm
    · rename_i hza
      rw [hz] at hza
      exact absurd ha hza

theorem pipeline_congr {s u : State} (h : u.book = s.book) : pipeline u = pipeline s := by
  have hb : u.scale.batch = s.scale.batch := congrArg Book.batch h
  have h1 : u.surge = s.surge := congrArg Book.surge h
  have h2 : u.mixer = s.mixer := congrArg Book.mixer h
  have h3 : u.press = s.press := congrArg Book.press h
  unfold pipeline scaleRecord
  rw [hb, h1, h2, h3]

theorem beginBucketDischarge_line (s : State) : (beginBucketDischarge s).line = s.line := by
  unfold beginBucketDischarge
  (repeat' split) <;> rfl

theorem beginBucketDischarge_faults (s : State) : (beginBucketDischarge s).faults = s.faults := by
  unfold beginBucketDischarge
  (repeat' split) <;> rfl

theorem beginRemainder_line (s : State) : (beginRemainder s).line = s.line := by
  unfold beginRemainder
  split
  · rw [beginClearance_only]
  · rfl

/-- The admission of the last round and the close of the event: the book, the line, and the units barred. -/
theorem settled_admission (s u : State) : let A := admissionAttempt (bookReady (lastRound u))
    (settled s u).book = A.book ∧ ((settled s u).line = .run ↔ A.line = .run) ∧ BarsStay A (settled s u) := by
  have hr := settled_rounded s u
  have hp : passBook (lastRound u)
      = beginRemainder (beginBucketDischarge (admissionAttempt (bookReady (lastRound u)))) := rfl
  refine ⟨settled_book s u, ?_, ?_⟩
  · rw [hr.line, hp, beginRemainder_line, beginBucketDischarge_line]
  · rw [hp] at hr
    exact ((BarsStay.of_faults (beginBucketDischarge_faults _)).trans (beginRemainder_bars _)).trans hr.bars

theorem settled_waiting (s u : State) (hd : attemptDue (settled s u) = true) {o : Order} (ho : o ∈ (settled s u).slots)
    (ha : o.awaits = true) : o.waits = waitsFor o (settled s u) ∧ o.waits.isEmpty = false := by
  obtain ⟨hbook, hline, hbars⟩ := settled_admission s u
  rw [attemptDue_iff, hline, pipeline_congr hbook] at hd
  obtain ⟨hidle, hrun, hpipe, hbar⟩ := hd
  have hst : (settled s u).scale.state = (admissionAttempt (bookReady (lastRound u))).scale.state :=
    congrArg Book.state hbook
  have hsl : (settled s u).slots = (admissionAttempt (bookReady (lastRound u))).slots := congrArg Book.slots hbook
  rw [hst] at hidle
  rw [hsl] at ho
  have hbar' : unitBarred .dosing (admissionAttempt (bookReady (lastRound u))) = false :=
    Bool.eq_false_iff.2 (fun h => Bool.eq_false_iff.1 hbar (hbars _ h))
  have hdue : attemptDue (bookReady (lastRound u)) = true := by
    by_contra hn
    have he := admissionAttempt_notDue (Bool.eq_false_iff.2 hn)
    exact hn (by rw [← he]; exact (attemptDue_iff _).2 ⟨hidle, hrun, hpipe, hbar'⟩)
  obtain ⟨hw, hne⟩ := admissionAttempt_waiting hdue hidle ho ha
  exact ⟨by rw [waitsFor_congr hbook, ← hw], hne⟩

/-! ### The obligation -/

theorem recomputeWaits_raised (s : State) : ∃ entering : List Order,
    entering.Perm (s.slots.filter (fun o => o.awaits && !o.waits.short && (waitsFor o s).short))
    ∧ recomputeWaits s = raisedFor entering { s with slots := (recomputeWaits s).slots } :=
  ⟨newlyShort s, ranked_perm s _, by rw [recomputeWaits_slots, ← raiseShort_eq]; rfl⟩

/-- Settles O27, by the ranking of the candidates, and by the round that ends an event: an attempt still due at the close was
due there, found no candidate, and left the wait sets of now. -/
theorem attemptsChooseFromWaitSets : Obligations.AttemptsChooseFromWaitSets := by
  unfold Obligations.AttemptsChooseFromWaitSets
  refine ⟨fun s => ⟨fun o => ?_, recomputeWaits_slots s, ?_⟩, fun s => ⟨?_, admissionAttempt_notDue, admissionAttempt_none,
    fun o => admissionAttempt_some, ⟨chooseOrder_none s, fun o h => ⟨chooseOrder_candidate h, ?_, ?_⟩⟩,
    fun u hd o ho ha => settled_waiting s u hd ho ha⟩⟩
  · exact ⟨awaits_iff o, waitsFor_quarantine o s, waitsFor_short o s, waitsFor_truck o s, waitsFor_flush o s,
      waitsFor_finishedBin o s⟩
  · obtain ⟨entering, hperm, hu⟩ := recomputeWaits_raised s
    refine ⟨entering, hperm, hu, ?_, ?_, ?_⟩
    · rintro rfl
      rw [hu]
      exact ⟨rfl, rfl⟩
    · rintro o rest rfl
      have hr := raisedFor_record_cons o rest { s with slots := (recomputeWaits s).slots }
      rw [← hu] at hr
      refine ⟨_, hr, raisedRecord_acked _ _ _ _, raisedRecord_last _ _ _ _, fun hq => ?_, fun q hq => ?_⟩
      · have hq' : recordOf .shortStock s.faults = none := hq
        simp only [hq', raisedRecord, List.length_cons, Nat.add_comm, and_self]
      · have hq' : recordOf .shortStock s.faults = some q := hq
        simp only [hq', raisedRecord, List.length_cons, true_and]
        omega
    · intro hlen
      obtain ⟨ns, h1, h2, h3⟩ := raisedFor_tx entering (s := { s with slots := (recomputeWaits s).slots }) hlen
      rw [← hu] at h2
      exact ⟨ns, h1, h2, h3⟩
  · rw [attemptDue_iff, unitBarred_iff]
  · exact fun hk ho a ha => chooseOrder_leads hk ho h ha
  · intro hk ho hn x hx
    have hr := chooseOrder_first h hn x hx
    rw [← Bool.not_eq_true, ranksAhead_iff] at hr
    omega

end Sys2Proof.Machine
end

