-- ==== Sys2Proof/Proofs/Flagging.lean ====
section
/-! SUPPORT. R10, R83, R118: what flagging an order's material REWORK does along the line. -/
namespace Sys2Proof.Machine

/-! ### The batch in the scale (R83) -/

@[simp] theorem scaleRecord_zeroReport (d : Dose) (s : State) : scaleRecord (zeroReport d s) = scaleRecord s := by
  unfold zeroReport
  dsimp only
  split
  · split
    · rw [scaleRecord_updDose]
      split
      · exact scaleRecord_queueFrame _ s
      · exact scaleRecord_queueFrame _ s
    · exact scaleRecord_updDose _ _ s
  · rfl

@[simp] theorem scaleRecord_closeWaiting (ds : List Dose) (s : State) :
    scaleRecord (closeWaiting ds s) = scaleRecord s := by
  induction ds generalizing s with
  | nil => rfl
  | cons d ds ih =>
    unfold closeWaiting
    rw [ih]
    split
    · exact scaleRecord_zeroReport d s
    · rfl

@[simp] theorem scaleRecord_closeRework (s : State) : scaleRecord (closeRework s) = scaleRecord s := by
  unfold closeRework
  dsimp only
  rw [scaleRecord_setScale, scaleRecord_closeWaiting]
  split
  · exact (scaleRecord_updDose _ _ _).trans (scaleRecord_zeroReport _ s)
  · rfl

theorem scaleRecord_updRecord (f : Batch → Batch) (s : State) : scaleRecord (updRecord f s) = (scaleRecord s).map f := by
  unfold scaleRecord updRecord
  cases s.scale.batch <;> rfl

/-- A batch as flagged. -/
def Batch.reworked (b : Batch) : Batch := { b with rework := true }

theorem reworked_of_rework {b : Batch} (h : b.rework = true) : b.reworked = b := by
  obtain ⟨⟩ := b
  cases h
  rfl

/-- R83: the batch in the scale as flagged. -/
def flagScale (s : State) : State := updRecord Batch.reworked s

/-- R83: the component in hand is not yet dosed. -/
def ScaleState.inHand (st : ScaleState) : Prop := st = .tare ∨ st = .handAdd

/-- R83: the scale works at a batch. -/
def ScaleState.worked (st : ScaleState) : Prop :=
  st.inHand ∨ st ∈ [.feedFast, .feedSlow, .jog true, .jog false, .held] ∨ ∃ p, st = .settle p

theorem reworkScale_flagged {s : State} (h : scaleRework s = true) : reworkScale s = s := by
  unfold reworkScale
  rw [if_pos h]

theorem reworkScale_eq {s : State} (h : scaleRework s = false) : reworkScale s =
    match (flagScale s).scale.state with
    | .tare | .handAdd => closeRework (flagScale s)
    | .feedFast | .feedSlow | .jog _ | .settle _ | .held => closeWaiting (dosesOf (flagScale s)) (flagScale s)
    | _ => flagScale s := by
  unfold reworkScale
  rw [if_neg (by rw [h]; decide)]
  rfl

theorem reworkScale_inHand {s : State} (h : scaleRework s = false) (hi : s.scale.state.inHand) :
    reworkScale s = closeRework (flagScale s) := by
  have hs : (flagScale s).scale.state = s.scale.state := rfl
  rw [reworkScale_eq h, hs]
  rcases hi with hi | hi <;> rw [hi]

theorem reworkScale_worked {s : State} (h : scaleRework s = false) (hi : ¬s.scale.state.inHand)
    (hw : s.scale.state.worked) : reworkScale s = closeWaiting (dosesOf (flagScale s)) (flagScale s) := by
  have hs : (flagScale s).scale.state = s.scale.state := rfl
  rw [reworkScale_eq h, hs]
  rcases hw with hw | hw | ⟨p, hp⟩
  · exact absurd hw hi
  · simp only [List.mem_cons, List.not_mem_nil, or_false] at hw
    rcases hw with hw | hw | hw | hw | hw <;> rw [hw]
  · rw [hp]

theorem reworkScale_idle {s : State} (h : scaleRework s = false) (hw : ¬s.scale.state.worked) :
    reworkScale s = flagScale s := by
  have hs : (flagScale s).scale.state = s.scale.state := rfl
  rw [reworkScale_eq h, hs]
  cases hst : s.scale.state <;> rw [hst] at hw <;> simp [ScaleState.worked, ScaleState.inHand] at hw ⊢

/-- R83: the batch in the scale is flagged, and the draws of it that will not be done are closed. -/
theorem reworkScale_cases (s : State) : (scaleRework s = true ∧ reworkScale s = s)
    ∨ (scaleRework s = false ∧ (reworkScale s = closeRework (flagScale s)
      ∨ reworkScale s = closeWaiting (dosesOf (flagScale s)) (flagScale s) ∨ reworkScale s = flagScale s)) := by
  cases h : scaleRework s with
  | true => exact Or.inl ⟨rfl, reworkScale_flagged h⟩
  | false =>
    refine Or.inr ⟨rfl, ?_⟩
    by_cases hi : s.scale.state.inHand
    · exact Or.inl (reworkScale_inHand h hi)
    · by_cases hw : s.scale.state.worked
      · exact Or.inr (Or.inl (reworkScale_worked h hi hw))
      · exact Or.inr (Or.inr (reworkScale_idle h hw))

theorem scaleRecord_flagScale (s : State) : scaleRecord (flagScale s) = (scaleRecord s).map Batch.reworked :=
  scaleRecord_updRecord _ s

theorem scaleRework_record {s : State} (h : scaleRework s = true) : (scaleRecord s).map Batch.reworked = scaleRecord s := by
  unfold scaleRework at h
  split at h
  · rename_i b hb
    rw [hb, Option.map_some, reworked_of_rework h]
  · cases h

theorem scaleRecord_reworkScale (s : State) : scaleRecord (reworkScale s) = (scaleRecord s).map Batch.reworked := by
  rcases reworkScale_cases s with ⟨hr, he⟩ | ⟨-, he | he | he⟩ <;> rw [he]
  · exact (scaleRework_record hr).symm
  · rw [scaleRecord_closeRework, scaleRecord_flagScale]
  · rw [scaleRecord_closeWaiting, scaleRecord_flagScale]
  · exact scaleRecord_flagScale s

/-- The fields a draw's closing writes. -/
theorem closeRework_only (s : State) :
    closeRework s = { s with scale := (closeRework s).scale, plan := (closeRework s).plan, bins := (closeRework s).bins
                             tx := (closeRework s).tx, faults := (closeRework s).faults } := by
  unfold closeRework
  dsimp only
  split
  · rw [closeWaiting_only, closeDose_only, zeroReport_only]
    rfl
  · rw [closeWaiting_only]
    rfl

theorem reworkScale_only (s : State) :
    reworkScale s = { s with scale := (reworkScale s).scale, plan := (reworkScale s).plan, bins := (reworkScale s).bins
                             tx := (reworkScale s).tx, faults := (reworkScale s).faults } := by
  rcases reworkScale_cases s with ⟨-, he⟩ | ⟨-, he | he | he⟩ <;> rw [he]
  · rw [closeRework_only]
    rfl
  · rw [closeWaiting_only]
    rfl
  · rfl

/-! ### The stages (R118) -/

/-- R118: material of the order in the stage, under way to the finished bin. -/
def StageRec.feeds (id : Nat) (p : Phase) (r : StageRec) : Bool :=
  ofOrder id r.batch && (r.within p && decide (r.dest = some .finished))

theorem feeds_iff (id : Nat) (p : Phase) (r : StageRec) : r.feeds id p = true ↔ feedsFinished id p r := by
  simp only [StageRec.feeds, feedsFinished, StageRec.within, Bool.and_eq_true, Bool.or_eq_true, decide_eq_true_eq, and_assoc]

theorem feeds_false_iff (id : Nat) (p : Phase) (r : StageRec) : r.feeds id p = false ↔ ¬feedsFinished id p r := by
  rw [← feeds_iff, Bool.not_eq_true]

/-- R118: a stage once the order's material is flagged. -/
def StageRec.flaggedFrom (id : Nat) (p : Phase) (r : StageRec) : StageRec :=
  if r.feeds id p then { flagged id r with dest := some .rework } else flagged id r

section
variable {id : Nat} {r : StageRec}

theorem flagged_of (h : ofOrder id r.batch = true) : flagged id r = r.flag := by
  unfold flagged StageRec.flag
  rw [if_pos h]

theorem flagged_not (h : ¬ofOrder id r.batch = true) : flagged id r = r := by
  unfold flagged
  rw [if_neg h]

theorem flaggedFrom_feeds {p : Phase} (h : feedsFinished id p r) :
    r.flaggedFrom id p = { flagged id r with dest := some .rework } := by
  unfold StageRec.flaggedFrom
  rw [if_pos ((feeds_iff id p r).2 h)]

theorem flaggedFrom_not {p : Phase} (h : ¬feedsFinished id p r) : r.flaggedFrom id p = flagged id r := by
  unfold StageRec.flaggedFrom
  rw [if_neg (fun hf => h ((feeds_iff id p r).1 hf))]

/-- R10: what the stage holds of the order is flagged. -/
theorem flagged_batch {b : Batch} (h : (flagged id r).batch = some b) (hb : b.order = some id) : b.rework = true := by
  unfold flagged at h
  split at h
  · obtain ⟨c, -, rfl⟩ := Option.map_eq_some_iff.1 h
    rfl
  · rename_i hn
    rw [h] at hn
    exact absurd (decide_eq_true hb) hn

theorem flaggedFrom_batch (p : Phase) : (r.flaggedFrom id p).batch = (flagged id r).batch := by
  unfold StageRec.flaggedFrom
  split <;> rfl

/-- R118: a stage flagged, as the model does it: a transfer to the finished bin is turned to the rework hopper. -/
theorem flagStage_press (id : Nat) (s : State) : (if ofOrder id s.press.batch then flagStage .press .pressing s else s)
    = { s with press := s.press.flaggedFrom id .pressing
               fin := { s.fin with entering := s.fin.entering && !s.press.feeds id .pressing } } := by
  unfold flagStage StageRec.flaggedFrom StageRec.feeds
  dsimp only [stageOf]
  by_cases ho : ofOrder id s.press.batch = true
  · rw [if_pos ho, ho, Bool.true_and, flagged_of ho]
    split
    · rename_i hf
      rw [hf]
      simp only [leaveFinished, setStage, Bool.not_true, Bool.and_false]
    · rename_i hf
      rw [Bool.eq_false_iff.2 hf]
      simp only [setStage, Bool.not_false, Bool.and_true]
  · rw [if_neg ho, Bool.eq_false_iff.2 ho, flagged_not ho]
    simp

theorem flagStage_mixer (id : Nat) (s : State) : (if ofOrder id s.mixer.batch then flagStage .mixer .discharging s else s)
    = { s with mixer := s.mixer.flaggedFrom id .discharging
               fin := { s.fin with entering := s.fin.entering && !s.mixer.feeds id .discharging } } := by
  unfold flagStage StageRec.flaggedFrom StageRec.feeds
  dsimp only [stageOf]
  by_cases ho : ofOrder id s.mixer.batch = true
  · rw [if_pos ho, ho, Bool.true_and, flagged_of ho]
    split
    · rename_i hf
      rw [hf]
      simp only [leaveFinished, setStage, Bool.not_true, Bool.and_false]
    · rename_i hf
      rw [Bool.eq_false_iff.2 hf]
      simp only [setStage, Bool.not_false, Bool.and_true]
  · rw [if_neg ho, Bool.eq_false_iff.2 ho, flagged_not ho]
    simp

theorem flag_surge (id : Nat) (s : State) :
    (if ofOrder id s.surge.batch then { s with surge := s.surge.flag } else s) = { s with surge := flagged id s.surge } := by
  split
  · rename_i h
    rw [flagged_of h]
  · rename_i h
    rw [flagged_not h]

end

/-- R10, R118: the order's material in the stages, flagged. -/
def flagLine (id : Nat) (s : State) : State :=
  { s with press := s.press.flaggedFrom id .pressing, mixer := s.mixer.flaggedFrom id .discharging
           surge := flagged id s.surge
           fin := { s.fin with entering := s.fin.entering && !s.press.feeds id .pressing && !s.mixer.feeds id .discharging } }

theorem flagOrder_eq (id : Nat) (s : State) :
    flagOrder id s = if ofOrder id (scaleRecord s) then reworkScale (flagLine id s) else flagLine id s := by
  unfold flagOrder
  dsimp only
  rw [flagStage_press, flagStage_mixer, flag_surge]
  rfl

/-- What flagging an order's material leaves alone: all but the line and the draws of the batch in the scale. -/
theorem flagOrder_only (id : Nat) (s : State) :
    flagOrder id s = { flagLine id s with scale := (flagOrder id s).scale, plan := (flagOrder id s).plan
                                          bins := (flagOrder id s).bins, tx := (flagOrder id s).tx
                                          faults := (flagOrder id s).faults } := by
  rw [flagOrder_eq]
  split
  · rw [reworkScale_only]
  · rfl

theorem scaleRecord_flagOrder {id : Nat} {s : State} {b : Batch} (h : scaleRecord (flagOrder id s) = some b)
    (hb : b.order = some id) : b.rework = true := by
  rw [flagOrder_eq] at h
  split at h
  · rw [scaleRecord_reworkScale] at h
    obtain ⟨c, -, rfl⟩ := Option.map_eq_some_iff.1 h
    rfl
  · rename_i hn
    have h' : scaleRecord s = some b := h
    rw [h'] at hn
    exact absurd (decide_eq_true hb) hn

theorem mem_pipeline (b : Batch) (s : State) : b ∈ pipeline s ↔
    s.press.batch = some b ∨ s.mixer.batch = some b ∨ s.surge.batch = some b ∨ scaleRecord s = some b := by
  unfold pipeline
  simp only [List.mem_append, Option.mem_toList, or_assoc]

/-- R10: after the flagging every batch of the order in the pipeline is REWORK. -/
theorem flagOrder_pipeline (id : Nat) (s : State) : ∀ b ∈ pipeline (flagOrder id s), b.order = some id → b.rework = true := by
  intro b hm hb
  rw [mem_pipeline] at hm
  rcases hm with h | h | h | h
  · rw [flagOrder_only] at h
    exact flagged_batch ((flaggedFrom_batch _).symm.trans h) hb
  · rw [flagOrder_only] at h
    exact flagged_batch ((flaggedFrom_batch _).symm.trans h) hb
  · rw [flagOrder_only] at h
    exact flagged_batch h hb
  · exact scaleRecord_flagOrder h hb

/-- No draw is closed where the batch in the scale is not of the order. -/
theorem flagOrder_tx {id : Nat} {s : State} (h : ∀ b, scaleRecord s = some b → b.order ≠ some id) :
    flagOrder id s = flagLine id s := by
  rw [flagOrder_eq]
  cases hs : scaleRecord s with
  | none => rfl
  | some b =>
    have hn : ofOrder id (some b) = false := decide_eq_false (h b hs)
    rw [hn]
    rfl

/-! ### Faults of a closed draw (R183, R191) -/

/-- A fault of the key is only where one was. -/
def FaultsOf (k : FaultKey) (s u : State) : Prop := ∀ r ∈ u.faults, r.key = k → ∃ q ∈ s.faults, q.key = k

theorem FaultsOf.refl (k : FaultKey) (s : State) : FaultsOf k s s := fun r hr hk => ⟨r, hr, hk⟩

theorem FaultsOf.trans {k : FaultKey} {s u v : State} (h : FaultsOf k s u) (h' : FaultsOf k u v) : FaultsOf k s v := by
  intro r hr hk
  obtain ⟨q, hq, hqk⟩ := h' r hr hk
  exact h q hq hqk

theorem FaultsOf.of_faults {k : FaultKey} {s u : State} (h : u.faults = s.faults) : FaultsOf k s u := fun r hr hk =>
  ⟨r, h ▸ hr, hk⟩

theorem bumpFault_keyOf {k j : FaultKey} (hj : j ≠ k) (reference now : Option Nat) (rs : List FaultRecord) :
    ∀ r ∈ bumpFault j reference now rs, r.key = k → ∃ q ∈ rs, q.key = k := by
  induction rs with
  | nil =>
    intro r hr hk
    rw [List.mem_singleton.1 hr] at hk
    exact absurd hk hj
  | cons x xs ih =>
    unfold bumpFault
    split
    · rename_i hx
      rintro r (_ | ⟨_, hr⟩) hk
      · exact absurd (hx.symm.trans hk) hj
      · exact ⟨r, List.mem_cons_of_mem _ hr, hk⟩
    · rintro r (_ | ⟨_, hr⟩) hk
      · exact ⟨x, List.mem_cons_self, hk⟩
      · obtain ⟨q, hq, hqk⟩ := ih r hr hk
        exact ⟨q, List.mem_cons_of_mem _ hq, hqk⟩

theorem queueFrame_faultsOf {k : FaultKey} (hk : .txAbandon ≠ k) (b : Body) (s : State) : FaultsOf k s (queueFrame b s) := by
  unfold queueFrame
  split
  · exact FaultsOf.refl k s
  · split
    · exact FaultsOf.refl k s
    · intro r hr
      rw [raiseFault_faults] at hr
      exact bumpFault_keyOf hk _ _ _ r hr

theorem zeroReport_faultsOf {k : FaultKey} (hk : .txAbandon ≠ k) (d : Dose) (s : State) : FaultsOf k s (zeroReport d s) := by
  unfold zeroReport
  dsimp only
  split
  · split
    · split
      · exact (queueFrame_faultsOf hk _ s).trans (FaultsOf.of_faults rfl)
      · exact (queueFrame_faultsOf hk _ s).trans (FaultsOf.of_faults rfl)
    · exact FaultsOf.of_faults rfl
  · exact FaultsOf.refl k s

theorem closeWaiting_faultsOf {k : FaultKey} (hk : .txAbandon ≠ k) (ds : List Dose) (s : State) :
    FaultsOf k s (closeWaiting ds s) := by
  induction ds generalizing s with
  | nil => exact FaultsOf.refl k s
  | cons d ds ih =>
    unfold closeWaiting
    split
    · exact (zeroReport_faultsOf hk d s).trans (ih _)
    · exact ih s

theorem closeRework_faultsOf {k : FaultKey} (hk : .txAbandon ≠ k) (s : State) : FaultsOf k s (closeRework s) := by
  unfold closeRework
  dsimp only
  split
  · refine (zeroReport_faultsOf hk _ s).trans ((FaultsOf.of_faults rfl).trans (closeWaiting_faultsOf hk _ _))
  · exact closeWaiting_faultsOf hk _ s

theorem flagOrder_faultsOf {k : FaultKey} (hk : .txAbandon ≠ k) (id : Nat) (s : State) : FaultsOf k s (flagOrder id s) := by
  have hl : FaultsOf k s (flagLine id s) := FaultsOf.of_faults rfl
  have hf : FaultsOf k (flagLine id s) (flagScale (flagLine id s)) := FaultsOf.of_faults rfl
  rw [flagOrder_eq]
  split
  · refine hl.trans ?_
    rcases reworkScale_cases (flagLine id s) with ⟨-, he⟩ | ⟨-, he | he | he⟩ <;> rw [he]
    · exact FaultsOf.refl k _
    · exact hf.trans (closeRework_faultsOf hk _)
    · exact hf.trans (closeWaiting_faultsOf hk _ _)
    · exact hf
  · exact hl

end Sys2Proof.Machine
end

