-- ==== Sys2Proof/Proofs/RunEnds.lean ====
section
/-! SUPPORT. R9, R11, R152, R153: what the end of a run does to its order, and the clearances of the finished bin. -/
namespace Sys2Proof.Machine

/-! ### The end of a run (R11) -/

section RunEnd
variable {id : Nat} {s : State} {o : Order}

theorem queueNotice_room (n : Notice) (h : s.tx.length < 8) :
    (queueNotice n s).tx = s.tx ++ [OutEntry.fresh (.notice n)] := by
  unfold queueNotice pushSoft
  rw [if_pos h]

theorem releaseReservations_tx (id : Nat) (s : State) : (releaseReservations id s).tx = s.tx := by
  rw [releaseReservations_only]

theorem reserveRun_tx (id : Nat) (s : State) : (reserveRun id s).tx = s.tx := by
  rw [reserveRun_only]

theorem findOrder_released (ho : findOrder id s = some o) : findOrder id (releaseReservations id s) = some o.released := by
  rw [findOrder_releaseReservations, ho, Option.map_some, if_pos (findOrder_mem ho).2]

theorem findOrder_freeSlot (id : Nat) (s : State) : findOrder id (freeSlot id s) = none := by
  unfold findOrder
  rw [freeSlot_slots, List.find?_filter, List.find?_eq_none]
  intro x _
  simp only [decide_eq_true_eq, Bool.decide_and, Bool.and_eq_true, not_and]
  exact fun h => h

/-- The last of the order's runs. -/
theorem completeRun_last (ho : findOrder id s = some o) (hc : o.runCount ≤ 1) : completeRun id s =
    freeSlot id (queueNotice (.orderDone id o.tally o.plan.finished) (releaseReservations id s)) := by
  unfold completeRun
  rw [ho]
  exact if_pos hc

/-- R11: the runs yet to come. -/
def Order.runsLeft (o : Order) : Nat := if o.runCount = 255 then 255 else o.runCount - 1

/-- R11: a run of several ends. -/
theorem completeRun_more (ho : findOrder id s = some o) (hc : 2 ≤ o.runCount) : completeRun id s =
    reserveRun id (updOrder id (Order.nextRun s.params.batchSize o.runsLeft)
      (queueNotice (.runDone id o.runsLeft o.tally o.plan.finished) (releaseReservations id s))) := by
  unfold completeRun
  rw [ho]
  exact if_neg (by omega)

theorem completeRun_last_tx (ho : findOrder id s = some o) (hc : o.runCount ≤ 1) (hr : s.tx.length < 8) :
    (completeRun id s).tx = s.tx ++ [OutEntry.fresh (.notice (.orderDone id o.tally o.plan.finished))] := by
  rw [completeRun_last ho hc, freeSlot_only]
  show (queueNotice _ _).tx = _
  rw [queueNotice_room _ (by rwa [releaseReservations_tx]), releaseReservations_tx]

theorem completeRun_more_tx (ho : findOrder id s = some o) (hc : 2 ≤ o.runCount) (hr : s.tx.length < 8) :
    (completeRun id s).tx = s.tx ++ [OutEntry.fresh (.notice (.runDone id o.runsLeft o.tally o.plan.finished))] := by
  rw [completeRun_more ho hc, reserveRun_tx]
  show (queueNotice _ _).tx = _
  rw [queueNotice_room _ (by rwa [releaseReservations_tx]), releaseReservations_tx]

/-- R7: with its last run the order gives back what it held; the second release, of its slot, finds nothing held. -/
theorem completeRun_last_releases (ho : findOrder id s = some o) (hc : o.runCount ≤ 1) (ha : Apart s.reservations) :
    Releases [o] s.reservations (completeRun id s).reservations := by
  have h1 := releaseReservations_releases ha ho
  have hq : (queueNotice (.orderDone id o.tally o.plan.finished) (releaseReservations id s)).reservations
      = (releaseReservations id s).reservations := by rw [queueNotice_only]
  have hf : findOrder id (queueNotice (.orderDone id o.tally o.plan.finished) (releaseReservations id s))
      = some o.released := by
    rw [findOrder_congr (queueNotice_slots _ _), findOrder_released ho]
  have h2 := releases_released (releaseReservations_releases (hq ▸ releaseReservations_apart id ha) hf)
  rw [completeRun_last ho hc, freeSlot_reservations]
  intro code
  rw [h2, hq]
  exact h1 code

theorem findOrder_completeRun_last (ho : findOrder id s = some o) (hc : o.runCount ≤ 1) :
    findOrder id (completeRun id s) = none := by
  rw [completeRun_last ho hc]
  exact findOrder_freeSlot id _

/-- R7, R11: the next run of the order, with what it reserves. -/
theorem completeRun_more_next (ho : findOrder id s = some o) (hc : 2 ≤ o.runCount) (ha : Apart s.reservations)
    (hf : (o.formula.map Component.code).Nodup) :
    ∃ rem freed, findOrder id (completeRun id s)
        = some { Order.nextRun s.params.batchSize o.runsLeft o.released with remainders := rem }
      ∧ Releases [o] s.reservations freed ∧ freed.length ≤ s.reservations.length
      ∧ Reserves (machineParts o.runMass o.formula) freed (completeRun id s).reservations rem := by
  have hq : (queueNotice (.runDone id o.runsLeft o.tally o.plan.finished) (releaseReservations id s)).reservations
      = (releaseReservations id s).reservations := by rw [queueNotice_only]
  have hfind : findOrder id (updOrder id (Order.nextRun s.params.batchSize o.runsLeft)
      (queueNotice (.runDone id o.runsLeft o.tally o.plan.finished) (releaseReservations id s)))
      = some (Order.nextRun s.params.batchSize o.runsLeft o.released) :=
    findOrder_updOrder_self (f := Order.nextRun s.params.batchSize o.runsLeft) (fun _ => rfl)
      (by rw [findOrder_congr (queueNotice_slots _ _), findOrder_released ho])
  obtain ⟨rem, hw, hres⟩ := reserveRun_reserves hfind hf
  rw [← completeRun_more ho hc] at hw hres
  refine ⟨rem, (releaseReservations id s).reservations, hw, releaseReservations_releases ha ho,
    releaseReservations_length id s, ?_⟩
  rw [← hq]
  exact hres

end RunEnd

/-! ### The bags of a run (R9) -/

theorem countBag_none {id : Nat} {s : State} (h : ∀ o, findOrder id s = some o → o.state = .claiming ∨ o.cancelled = true
    ∨ ∃ m, o.delivery = .bulk m) : countBag id s = s := by
  unfold countBag
  split
  · rename_i o ho
    rw [if_neg]
    rintro ⟨ht, hb, hc, -⟩
    rcases h o ho with h | h | ⟨m, h⟩
    · rw [Order.taken, h] at ht
      cases ht
    · exact hc h
    · rw [Order.bagged, h] at hb
      cases hb
  · rfl

/-- R9: one bag more. -/
def Order.withBag (o : Order) : Order := { o with plan := { o.plan with bags := o.plan.bags + 1 } }

section Bags
variable {id : Nat} {s : State} {o : Order} {size bags : Nat} (ho : findOrder id s = some o) (ht : o.state ≠ .claiming)
  (hd : o.delivery = .bagged size bags) (hc : o.cancelled = false)
include ho ht hd hc

theorem countBag_eq : countBag id s = if o.plan.bags < bags then
    (if o.plan.bags + 1 = bags then completeBagged id (updOrder id Order.withBag s) else updOrder id Order.withBag s)
    else s := by
  have hb : o.bagsPerRun = bags := by
    unfold Order.bagsPerRun
    rw [hd]
  have hbag : o.bagged = true := by
    unfold Order.bagged
    rw [hd]
  have htk : o.taken = true := decide_eq_true ht
  have hcond : (o.taken ∧ o.bagged ∧ ¬o.cancelled ∧ o.plan.bags < o.bagsPerRun) ↔ o.plan.bags < bags := by
    simp [htk, hbag, hc, hb]
  unfold countBag
  rw [ho]
  dsimp only
  by_cases hlt : o.plan.bags < bags
  · rw [if_pos (hcond.2 hlt), if_pos hlt, hb]
    rfl
  · rw [if_neg (fun h => hlt (hcond.1 h)), if_neg hlt]

end Bags

/-! ### The clearances of the finished bin (R152, R153) -/

theorem bumpFault_mem (k : FaultKey) (reference now : Option Nat) (rs : List FaultRecord) :
    raisedRecord k reference now (recordOf k rs) ∈ bumpFault k reference now rs :=
  List.mem_of_find?_eq_some (recordOf_bumpFault k reference now rs)

theorem raiseFault_raised (k : FaultKey) (reference : Option Nat) (detail : List DetailField) (s : State) :
    Raised k reference s (raiseFault k reference detail s) := by
  refine ⟨raisedRecord k reference s.millTime (recordOf k s.faults), ?_, recordOf_key (raiseFault_record k reference detail s),
    raisedRecord_acked _ _ _ _, fun hn => ?_⟩
  · rw [raiseFault_faults]
    exact bumpFault_mem _ _ _ _
  · have h : recordOf k s.faults = none := List.find?_eq_none.2 (fun r hr => by simpa using hn r hr)
    rw [h]
    rfl

theorem raiseFault_reported (k : FaultKey) (reference : Option Nat) (detail : List DetailField) (s : State) :
    Reported k detail s (raiseFault k reference detail s) := by
  intro h
  refine ⟨raisedRecord k reference s.millTime (recordOf k s.faults), ?_,
    recordOf_key (raiseFault_record k reference detail s), raiseFault_tx k reference detail h⟩
  rw [raiseFault_faults]
  exact bumpFault_mem _ _ _ _

theorem finAboveBand_some {s : State} {m : Nat} (h : s.fin.mass = some m) :
    finAboveBand s = decide (s.params.emptyBand < m) := by
  unfold finAboveBand
  rw [h]

/-- R152, R153: a clearance opens the dump, and raises RESIDUE where the bin is above its empty band. -/
theorem beginClearance_eq (mode : BaggerMode) (id : Nat) (s : State) : beginClearance mode id s =
    if finAboveBand s then raiseFault .residue (some id) [.mass (s.fin.mass.getD 0)]
      { s with bagger := { s.bagger with mode := mode }, fin := { s.fin with dumping := true } }
    else { s with bagger := { s.bagger with mode := mode }, fin := { s.fin with dumping := true } } := rfl

theorem beginClearance_bagger (mode : BaggerMode) (id : Nat) (s : State) :
    (beginClearance mode id s).bagger = { s.bagger with mode := mode } := by
  rw [beginClearance_eq]
  split
  · rw [raiseFault_only]
  · rfl

theorem beginClearance_fin (mode : BaggerMode) (id : Nat) (s : State) :
    (beginClearance mode id s).fin = { s.fin with dumping := true } := by
  rw [beginClearance_eq]
  split
  · rw [raiseFault_only]
  · rfl

theorem beginClearance_raised {s : State} (h : finAboveBand s = true) (mode : BaggerMode) (id : Nat) :
    Raised .residue (some id) s (beginClearance mode id s)
      ∧ Reported .residue [.mass (s.fin.mass.getD 0)] s (beginClearance mode id s) := by
  rw [beginClearance_eq, if_pos h]
  exact ⟨raiseFault_raised _ _ _ { s with bagger := { s.bagger with mode := mode }, fin := { s.fin with dumping := true } },
    raiseFault_reported _ _ _ { s with bagger := { s.bagger with mode := mode }, fin := { s.fin with dumping := true } }⟩

theorem raiseFault_txExtends (k : FaultKey) (reference : Option Nat) (detail : List DetailField) (s : State) :
    ∃ rest, (raiseFault k reference detail s).tx = s.tx ++ rest := by
  unfold raiseFault
  dsimp only
  split
  · unfold pushSoft
    split
    · exact ⟨_, rfl⟩
    · exact ⟨[], (List.append_nil _).symm⟩
  · exact ⟨[], (List.append_nil _).symm⟩

theorem beginClearance_txExtends (mode : BaggerMode) (id : Nat) (s : State) :
    ∃ rest, (beginClearance mode id s).tx = s.tx ++ rest := by
  rw [beginClearance_eq]
  split
  · exact raiseFault_txExtends _ _ _ { s with bagger := { s.bagger with mode := mode }, fin := { s.fin with dumping := true } }
  · exact ⟨[], (List.append_nil _).symm⟩

/-! #### The remainder of the bin (R153) -/

/-- R153: the remainder of the finished bin is due to be cleared. -/
def remainderReady (s : State) : Bool :=
  s.straps.bagger && decide (s.bagger.mode = .bagging) && decide (s.bagger.bucket = .empty)
    && decide (s.line = .run) && permitsDrawing s && !s.fin.entering && finAboveBand s && remainderDue s

theorem beginRemainder_eq (s : State) :
    beginRemainder s = if remainderReady s then beginClearance .remainder (s.fin.order.getD 0) s else s := rfl

theorem remainderDue_iff (s : State) : remainderDue s = true ↔ ∃ id, s.fin.order = some id ∧ (findOrder id s = none
    ∨ ∃ o, findOrder id s = some o ∧ o.bagged = true ∧ o.state = .held ∧ inPipeline id s = false
      ∧ s.fin.mass.getD 0 < o.bagSize) := by
  unfold remainderDue
  cases s.fin.order with
  | none => simp
  | some id =>
    dsimp only
    cases hf : findOrder id s with
    | none => simp [hf]
    | some o => simp [hf, and_assoc]

theorem permitsDrawing_iff (s : State) : permitsDrawing s = true ↔
    s.fin.order ≠ none ∧ s.fin.cancelled = false ∧ s.fin.unknown = false ∧ s.fin.dumping = false := by
  simp [permitsDrawing, Option.isSome_iff_ne_none, and_assoc]

theorem remainderReady_congr {s u : State} (h : Rounded s u) : remainderReady u = remainderReady s := by
  have hk := congrArg Ledger.kept h.ledger
  have hs : u.straps = s.straps := congrArg Kept.straps hk
  have hp : u.params = s.params := congrArg Kept.params hk
  have hm : u.bagger.mode = s.bagger.mode := congrArg Ledger.mode h.ledger
  have hb : u.bagger.bucket = s.bagger.bucket := congrArg Ledger.bucket h.ledger
  have hf : u.fin = s.fin := congrArg Ledger.fin h.ledger
  have ho : ∀ id, findOrder id u = findOrder id s := findOrder_congr (congrArg Ledger.slots h.ledger)
  have hi : ∀ id, inPipeline id u = inPipeline id s := inPipeline_congr h.book
  have hl : decide (u.line = .run) = decide (s.line = .run) := decide_eq_decide.2 h.line
  unfold remainderReady permitsDrawing finAboveBand remainderDue
  simp only [hs, hp, hm, hb, hf, ho, hi, hl]

theorem beginRemainder_notReady (s : State) : remainderReady (beginRemainder s) = false := by
  rw [beginRemainder_eq]
  split
  · have hp : permitsDrawing (beginClearance .remainder (s.fin.order.getD 0) s) = false := by
      rw [← Bool.not_eq_true, permitsDrawing_iff, beginClearance_fin]
      simp
    unfold remainderReady
    simp only [hp, Bool.and_false, Bool.false_and]
  · rename_i h
    exact Bool.eq_false_iff.2 h

/-- R153: no event leaves a remainder due. -/
theorem settled_notReady (s u : State) : remainderReady (settled s u) = false := by
  rw [remainderReady_congr (settled_rounded s u)]
  unfold passBook
  exact beginRemainder_notReady _

end Sys2Proof.Machine
end

