-- ==== Sys2Proof/Proofs/Bags.lean ====
section
namespace Sys2Proof.Machine

/-! ### The last bag of a run (R10, R11, R152) -/

theorem bagEnd_other {id : Nat} {s : State} (h : s.fin.order ≠ some id) : bagEnd id s = s := by
  unfold bagEnd
  rw [if_neg h]

theorem bagEnd_own {id : Nat} {s : State} (h : s.fin.order = some id) : bagEnd id s = beginClearance .bagEnd id s := by
  unfold bagEnd
  rw [if_pos h]

/-- What the end of bagging writes: the mode, the dump, and a RESIDUE. -/
theorem bagEnd_only (id : Nat) (s : State) :
    bagEnd id s = { s with bagger := (bagEnd id s).bagger, fin := (bagEnd id s).fin, faults := (bagEnd id s).faults
                           tx := (bagEnd id s).tx } := by
  unfold bagEnd
  split
  · rw [beginClearance_only]
  · rfl

theorem bagEnd_txExtends (id : Nat) (s : State) : ∃ rest, (bagEnd id s).tx = s.tx ++ rest := by
  unfold bagEnd
  split
  · exact beginClearance_txExtends _ _ s
  · exact ⟨[], (List.append_nil _).symm⟩

section LastBag
variable {s : State} {o : Order} {id : Nat}

/-- The line with the order's material flagged, and its last bag counted. -/
def lastBag (id : Nat) (s : State) : State := flagOrder id (updOrder id Order.withBag s)

theorem completeBagged_eq (id : Nat) (s : State) :
    completeBagged id (updOrder id Order.withBag s) = bagEnd id (completeRun id (lastBag id s)) := rfl

theorem lastBag_only (id : Nat) (s : State) :
    lastBag id s = { flagLine id (updOrder id Order.withBag s) with
      scale := (lastBag id s).scale, plan := (lastBag id s).plan, bins := (lastBag id s).bins
      tx := (lastBag id s).tx, faults := (lastBag id s).faults } := flagOrder_only id _

theorem lastBag_reservations (id : Nat) (s : State) : (lastBag id s).reservations = s.reservations := by
  rw [lastBag_only]
  rfl

theorem lastBag_params (id : Nat) (s : State) : (lastBag id s).params = s.params := by
  rw [lastBag_only]
  rfl

theorem lastBag_tx {id : Nat} {s : State} (h : ∀ b, scaleRecord s = some b → b.order ≠ some id) :
    (lastBag id s).tx = s.tx := by
  unfold lastBag
  rw [flagOrder_tx (s := updOrder id Order.withBag s) h]
  rfl

theorem findOrder_lastBag (ho : findOrder id s = some o) : findOrder id (lastBag id s) = some o.withBag := by
  have hs : (lastBag id s).slots = (updOrder id Order.withBag s).slots := by
    rw [lastBag_only]
    rfl
  rw [findOrder_congr hs]
  exact findOrder_updOrder_self (f := Order.withBag) (fun _ => rfl) ho

/-- What the last bag leaves of the line. -/
theorem completeBagged_line (id : Nat) (s : State) : let u := completeBagged id (updOrder id Order.withBag s)
    u.press = s.press.flaggedFrom id .pressing ∧ u.mixer = s.mixer.flaggedFrom id .discharging
      ∧ u.fin.entering = (s.fin.entering && !s.press.feeds id .pressing && !s.mixer.feeds id .discharging) := by
  have hc : (completeRun id (lastBag id s)).fin
      = { s.fin with entering := s.fin.entering && !s.press.feeds id .pressing && !s.mixer.feeds id .discharging } := by
    rw [completeRun_only, lastBag_only]
    rfl
  rw [completeBagged_eq]
  refine ⟨?_, ?_, ?_⟩
  · rw [bagEnd_only, completeRun_only, lastBag_only]
    rfl
  · rw [bagEnd_only, completeRun_only, lastBag_only]
    rfl
  · unfold bagEnd
    split
    · rw [beginClearance_fin, hc]
    · rw [hc]

theorem completeBagged_pipeline (id : Nat) (s : State) :
    ∀ b ∈ pipeline (completeBagged id (updOrder id Order.withBag s)), b.order = some id → b.rework = true := by
  have h : pipeline (completeBagged id (updOrder id Order.withBag s)) = pipeline (lastBag id s) := by
    rw [completeBagged_eq, bagEnd_only, completeRun_only]
    rfl
  rw [h]
  exact flagOrder_pipeline id _

theorem completeBagged_fin (id : Nat) (s : State) :
    (completeRun id (lastBag id s)).fin.order = s.fin.order ∧ (completeRun id (lastBag id s)).fin.mass = s.fin.mass
      ∧ (completeRun id (lastBag id s)).fin.dumping = s.fin.dumping
      ∧ (completeRun id (lastBag id s)).bagger.mode = s.bagger.mode := by
  rw [completeRun_only, lastBag_only]
  exact ⟨rfl, rfl, rfl, rfl⟩

/-- R152: bagging ends with a clearance of the bin, where the bin is of the order. -/
theorem completeBagged_own (h : s.fin.order = some id) : let u := completeBagged id (updOrder id Order.withBag s)
    u.bagger.mode = .bagEnd ∧ u.fin.dumping = true
      ∧ ∀ m, s.fin.mass = some m → s.params.emptyBand < m → Raised .residue (some id) s u := by
  obtain ⟨ho, hm, -, -⟩ := completeBagged_fin id s
  have hp : (completeRun id (lastBag id s)).params = s.params := by
    rw [completeRun_only, lastBag_only]
    rfl
  have hfaults : FaultsOf .residue s (completeRun id (lastBag id s)) := by
    have h1 : FaultsOf .residue s (lastBag id s) :=
      (FaultsOf.of_faults (u := updOrder id Order.withBag s) rfl).trans (flagOrder_faultsOf (by decide) id _)
    exact h1.trans (FaultsOf.of_faults (by rw [completeRun_only]))
  rw [completeBagged_eq, bagEnd_own (ho.trans h)]
  refine ⟨by rw [beginClearance_bagger], by rw [beginClearance_fin], fun m hmass hband => ?_⟩
  have habove : finAboveBand (completeRun id (lastBag id s)) = true := by
    rw [finAboveBand_some (hm.trans hmass), hp]
    exact decide_eq_true hband
  obtain ⟨r, hr, hk, hack, href⟩ := (beginClearance_raised habove .bagEnd id).1
  refine ⟨r, hr, hk, hack, fun hn => href (fun q hq hqk => ?_)⟩
  obtain ⟨p, hp, hpk⟩ := hfaults q hq hqk
  exact hn p hp hpk

theorem completeBagged_other (h : s.fin.order ≠ some id) : let u := completeBagged id (updOrder id Order.withBag s)
    u.bagger.mode = s.bagger.mode ∧ u.fin.dumping = s.fin.dumping := by
  obtain ⟨ho, -, hd, hm⟩ := completeBagged_fin id s
  rw [completeBagged_eq, bagEnd_other (by rwa [ho])]
  exact ⟨hm, hd⟩

theorem completeBagged_kept (id : Nat) (s : State) : let u := completeBagged id (updOrder id Order.withBag s)
    u.slots = (completeRun id (lastBag id s)).slots ∧ u.reservations = (completeRun id (lastBag id s)).reservations := by
  rw [completeBagged_eq, bagEnd_only]
  exact ⟨rfl, rfl⟩

/-- R11: a notice of the run's end that stands in the queue does so after the clearance too. -/
theorem completeBagged_notice {n : OutEntry} (h : (completeRun id (lastBag id s)).tx = s.tx ++ [n]) :
    ∃ rest, (completeBagged id (updOrder id Order.withBag s)).tx = s.tx ++ n :: rest := by
  obtain ⟨rest, hr⟩ := bagEnd_txExtends id (completeRun id (lastBag id s))
  exact ⟨rest, by rw [completeBagged_eq, hr, h, List.append_assoc]; rfl⟩

variable (ho : findOrder id s = some o)
include ho

/-- R11: the order's last run ends. -/
theorem completeBagged_done (hc : o.runCount ≤ 1) (ha : Apart s.reservations) :
    let u := completeBagged id (updOrder id Order.withBag s)
    findOrder id u = none
      ∧ (s.tx.length < 8 → (∀ b, scaleRecord s = some b → b.order ≠ some id) →
        ∃ rest, u.tx = s.tx ++ OutEntry.fresh (.notice (.orderDone id o.withBag.tally o.plan.finished)) :: rest)
      ∧ Releases [o] s.reservations u.reservations := by
  obtain ⟨hs, hr⟩ := completeBagged_kept id s
  have hf := findOrder_lastBag ho
  have hres := lastBag_reservations id s
  refine ⟨?_, fun hroom hb => ?_, ?_⟩
  · rw [findOrder_congr hs]
    exact findOrder_completeRun_last hf hc
  · have htx := lastBag_tx hb
    refine completeBagged_notice ?_
    rw [completeRun_last_tx hf hc (by rwa [htx]), htx]
    rfl
  · rw [hr]
    have h := completeRun_last_releases hf hc (by rwa [hres])
    rw [hres] at h
    exact h

/-- R11: a run of several ends, and the next is reserved. -/
theorem completeBagged_next (hc : 2 ≤ o.runCount) (ha : Apart s.reservations) (hn : (o.formula.map Component.code).Nodup) :
    let u := completeBagged id (updOrder id Order.withBag s)
    (s.tx.length < 8 → (∀ b, scaleRecord s = some b → b.order ≠ some id) →
        ∃ rest, u.tx = s.tx ++ OutEntry.fresh (.notice (.runDone id o.runsLeft o.withBag.tally o.plan.finished)) :: rest)
      ∧ ∃ rem freed, findOrder id u = some { Order.nextRun s.params.batchSize o.runsLeft o.withBag.released with
            remainders := rem }
        ∧ Releases [o] s.reservations freed ∧ freed.length ≤ s.reservations.length
        ∧ Reserves (machineParts o.runMass o.formula) freed u.reservations rem := by
  obtain ⟨hs, hr⟩ := completeBagged_kept id s
  have hf := findOrder_lastBag ho
  have hres := lastBag_reservations id s
  refine ⟨fun hroom hb => ?_, ?_⟩
  · have htx := lastBag_tx hb
    refine completeBagged_notice ?_
    rw [completeRun_more_tx hf hc (by rwa [htx]), htx]
    rfl
  · obtain ⟨rem, freed, hw, h1, h2, h3⟩ := completeRun_more_next hf hc (by rwa [hres]) hn
    rw [lastBag_params] at hw
    rw [hres] at h1 h2
    rw [← hr] at h3
    exact ⟨rem, freed, (findOrder_congr hs id).trans hw, h1, h2, h3⟩

end LastBag

/-! ### The obligation -/

/-- R153: what a remainder that is due consists in. -/
theorem remainderReady_iff (s : State) (m : Nat) : (remainderReady s = true ∧ s.fin.mass = some m) ↔
    (s.straps.bagger = true ∧ s.bagger.mode = .bagging ∧ s.bagger.bucket = .empty ∧ s.line = .run
      ∧ s.fin.cancelled = false ∧ s.fin.unknown = false ∧ s.fin.entering = false ∧ s.fin.dumping = false
      ∧ s.fin.mass = some m ∧ s.params.emptyBand < m
      ∧ ∃ id, s.fin.order = some id ∧ (findOrder id s = none ∨ ∃ o, findOrder id s = some o ∧ o.bagged = true
          ∧ o.state = .held ∧ inPipeline id s = false ∧ m < o.bagSize)) := by
  simp only [remainderReady, Bool.and_eq_true, decide_eq_true_eq, permitsDrawing_iff, Bool.not_eq_true', remainderDue_iff]
  constructor
  · rintro ⟨⟨⟨⟨⟨⟨⟨⟨h1, h2⟩, h3⟩, h4⟩, -, h5, h6, h7⟩, h8⟩, h9⟩, h10⟩, hm⟩
    rw [finAboveBand_some hm, decide_eq_true_iff] at h9
    simp only [hm, Option.getD_some] at h10
    exact ⟨h1, h2, h3, h4, h5, h6, h8, h7, hm, h9, h10⟩
  · rintro ⟨h1, h2, h3, h4, h5, h6, h8, h7, hm, h9, id, hid, h10⟩
    refine ⟨⟨⟨⟨⟨⟨⟨⟨h1, h2⟩, h3⟩, h4⟩, by simp [hid], h5, h6, h7⟩, h8⟩, ?_⟩, id, hid, ?_⟩, hm⟩
    · rw [finAboveBand_some hm]
      exact decide_eq_true h9
    · simpa only [hm, Option.getD_some] using h10

theorem remainderReady_mass {s : State} (h : remainderReady s = true) : ∃ m, s.fin.mass = some m := by
  cases hm : s.fin.mass with
  | some m => exact ⟨m, rfl⟩
  | none =>
    have hb : finAboveBand s = false := by
      unfold finAboveBand
      rw [hm]
    unfold remainderReady at h
    rw [hb, Bool.and_false, Bool.false_and] at h
    cases h

/-- Settles O53, by the order the last bag's flagging, run end and clearance come in, and by the remainder that the last
round of an event clears. -/
theorem bagsCountToRunCompletion : Obligations.BagsCountToRunCompletion := by
  unfold Obligations.BagsCountToRunCompletion
  simp only [← remainderReady_iff]
  refine ⟨⟨fun s id h => countBag_none h, fun s o size bags hk ho ht hd hc => ?_⟩, fun s h => ?_, fun s m h => ?_,
    fun s u m h => ?_⟩
  · obtain ⟨hslots, -, -, hapart, -, hform⟩ := hk
    have heq := countBag_eq ho ht hd hc
    have htally : o.withBag.tally = o.plan.bags + 1 := by
      unfold Order.tally Order.withBag
      simp only [hd]
    refine ⟨fun h => ?_, fun h => ?_, fun h => ?_⟩
    · rw [heq, if_neg (by omega)]
    · rw [heq, if_pos (by omega), if_neg (by omega)]
      rfl
    · rw [if_pos (by omega), if_pos h] at heq
      rw [h] at htally
      rw [heq]
      obtain ⟨hpress, hmixer, henter⟩ := completeBagged_line o.id s
      refine ⟨completeBagged_pipeline o.id s, fun hf => ?_, fun hf => ?_, fun hf => ?_, fun hrc => ?_, fun hrc => ?_,
        completeBagged_own, completeBagged_other⟩
      · rw [hmixer, flaggedFrom_feeds hf]
      · rw [hpress, flaggedFrom_feeds hf]
      · rw [henter]
        rcases hf with hf | hf <;> rw [← feeds_iff] at hf <;> simp [hf]
      · have hdone := completeBagged_done ho hrc hapart
        rwa [htally] at hdone
      · obtain ⟨htx, rem, freed, hw, h1, h2, h3⟩ := completeBagged_next ho hrc hapart
          (hform o (findOrder_mem ho).1)
        rw [htally] at htx
        exact ⟨htx, _, hw, rfl, rfl, rfl, rfl, rfl, rfl, rfl, rfl, rfl, rfl, rfl, freed, h1, h2, h3⟩
  · rw [beginRemainder_eq, if_neg]
    intro hr
    obtain ⟨m, hm⟩ := remainderReady_mass hr
    exact h m ⟨hr, hm⟩
  · obtain ⟨hr, hm⟩ := h
    have hfull := (remainderReady_iff s m).1 ⟨hr, hm⟩
    obtain ⟨-, -, -, -, -, -, -, -, -, hband, id, hid, -⟩ := hfull
    have habove : finAboveBand s = true := by
      rw [finAboveBand_some hm]
      exact decide_eq_true hband
    obtain ⟨h1, h2⟩ := beginClearance_raised habove .remainder (s.fin.order.getD 0)
    rw [beginRemainder_eq, if_pos hr]
    refine ⟨beginClearance_bagger _ _ s, beginClearance_fin _ _ s, ?_, ?_⟩
    · rw [hid] at h1 ⊢
      exact h1
    · rw [hm] at h2
      exact h2
  · rw [settled_notReady] at h
    exact Bool.false_ne_true h.1

end Sys2Proof.Machine
end

