-- ==== Sys2Proof/Proofs/BayTargets.lean ====
section
/-! SUPPORT. R161, R170, R171: the compartment a load goes to, and when the node wants, takes and leaves a bay. -/
namespace Sys2Proof.Machine

/-! ### The first of several compartments (R170) -/

/-- A compartment with its truck and its number. -/
abbrev Spot := Truck × Nat × Compartment

/-- R170: a compartment under loading comes first. -/
def Spot.rank (p : Spot) : Nat := if p.2.2.state = .loading then 0 else 1

theorem Spot.rank_lt_iff (p q : Spot) : p.rank < q.rank ↔ p.2.2.state = .loading ∧ q.2.2.state ≠ .loading := by
  unfold Spot.rank
  split <;> split <;> simp [*]

theorem Spot.rank_eq_iff (p q : Spot) : p.rank = q.rank ↔ (p.2.2.state = .loading ↔ q.2.2.state = .loading) := by
  unfold Spot.rank
  split <;> split <;> simp [*]

/-- The order of R170 as that of its figures. -/
theorem targetAhead_iff (a b : Spot) : targetAhead a b = true ↔ a.rank < b.rank ∨ (a.rank = b.rank
    ∧ (a.1.departure.getD 1440 < b.1.departure.getD 1440 ∨ (a.1.departure.getD 1440 = b.1.departure.getD 1440
      ∧ (a.1.truck < b.1.truck ∨ (a.1.truck = b.1.truck ∧ a.2.1 < b.2.1))))) := by
  unfold targetAhead
  dsimp only
  by_cases hl : decide (a.2.2.state = .loading) = decide (b.2.2.state = .loading)
  · have hr : a.rank = b.rank := (Spot.rank_eq_iff a b).2 (decide_eq_decide.1 hl)
    rw [if_neg (not_not.2 hl)]
    split
    · rw [decide_eq_true_iff]
      omega
    · split <;> rw [decide_eq_true_iff] <;> omega
  · have hr : a.rank ≠ b.rank := fun h => hl (decide_eq_decide.2 ((Spot.rank_eq_iff a b).1 h))
    have hlt : a.rank < b.rank ↔ a.2.2.state = .loading := by
      rw [Spot.rank_lt_iff]
      refine ⟨And.left, fun h => ⟨h, fun h' => hl (by rw [h, h'])⟩⟩
    rw [if_pos hl, decide_eq_true_iff, ← hlt]
    omega

theorem targetAhead_negTrans {a b c : Spot} (h : targetAhead a b = false) (h' : targetAhead b c = false) :
    targetAhead a c = false := by
  rw [← Bool.not_eq_true, targetAhead_iff] at *
  omega

theorem targetAhead_asymm {a b : Spot} (h : targetAhead a b = true) : targetAhead b a = false := by
  rw [targetAhead_iff] at h
  rw [← Bool.not_eq_true, targetAhead_iff]
  omega

theorem targetAhead_irrefl (a : Spot) : targetAhead a a = false := by
  rw [← Bool.not_eq_true, targetAhead_iff]
  omega

theorem firstTarget_eq_none {l : List Spot} : firstTarget l = none ↔ l = [] := by
  cases l with
  | nil => exact ⟨fun _ => rfl, fun _ => rfl⟩
  | cons x xs =>
    unfold firstTarget
    split
    · simp
    · split <;> simp

/-- The first is one of them, and none comes ahead of it. -/
theorem firstTarget_first {l : List Spot} {p : Spot} (h : firstTarget l = some p) :
    p ∈ l ∧ ∀ x ∈ l, targetAhead x p = false := by
  induction l generalizing p with
  | nil => cases h
  | cons y ys ih =>
    unfold firstTarget at h
    split at h
    · rename_i hn
      rw [← Option.some.inj h, firstTarget_eq_none.1 hn]
      refine ⟨by simp, ?_⟩
      rintro x (_ | ⟨_, hx⟩)
      · exact targetAhead_irrefl y
      · cases hx
    · rename_i q hq
      obtain ⟨hm, hfirst⟩ := ih hq
      split at h
      · rename_i hqy
        rw [← Option.some.inj h]
        refine ⟨List.mem_cons_of_mem _ hm, ?_⟩
        rintro x (_ | ⟨_, hx⟩)
        · exact targetAhead_asymm hqy
        · exact hfirst x hx
      · rename_i hqy
        rw [← Option.some.inj h]
        refine ⟨List.mem_cons_self, ?_⟩
        rintro x (_ | ⟨_, hx⟩)
        · exact targetAhead_irrefl y
        · exact targetAhead_negTrans (hfirst x hx) (Bool.eq_false_iff.2 hqy)

/-- A compartment ahead of all others is the first. -/
theorem firstTarget_of_ahead {l : List Spot} {p : Spot} (hp : p ∈ l) (h : ∀ q ∈ l, q ≠ p → targetAhead p q = true) :
    firstTarget l = some p := by
  cases hf : firstTarget l with
  | none =>
    rw [firstTarget_eq_none.1 hf] at hp
    cases hp
  | some q =>
    obtain ⟨hq, hfirst⟩ := firstTarget_first hf
    by_contra hne
    have hpq := h q hq (fun he => hne (by rw [he]))
    rw [hfirst p hp] at hpq
    cases hpq

/-! ### The compartments of the table -/

/-- The truck of the table has the compartment under its number. -/
def Spot.of (p : Spot) (s : State) : Prop := p.1 ∈ s.trucks ∧ p.1.comp p.2.1 = some p.2.2

theorem mem_allComps (p : Spot) (s : State) : p ∈ allComps s ↔ p.of s := by
  obtain ⟨t, k, c⟩ := p
  simp only [allComps, Truck.numbered, Spot.of, Truck.comp, List.mem_flatMap, List.mem_map, Prod.mk.injEq, Prod.exists,
    List.mem_zipIdx_iff_getElem?]
  constructor
  · rintro ⟨t', ht, k', c', ⟨c'', i, hi, rfl, rfl⟩, rfl, rfl, rfl⟩
    exact ⟨ht, by simpa using hi⟩
  · rintro ⟨ht, hc⟩
    split at hc
    · cases hc
    · exact ⟨t, ht, k, c, ⟨c, k - 1, hc, by omega, rfl⟩, rfl, rfl, rfl⟩

theorem loadable_iff (c : Compartment) : c.loadable = true ↔ c.state = .opened ∨ c.state = .loading := by
  simp [Compartment.loadable]

/-- R170: material of the order may go to the compartment. -/
def Spot.fits (id : Nat) (p : Spot) (s : State) : Prop :=
  p.1 ∈ s.trucks ∧ p.1.comp p.2.1 = some p.2.2 ∧ p.2.2.order = some id
    ∧ (p.2.2.state = .opened ∨ p.2.2.state = .loading) ∧ p.2.2.refused = false ∧ p.1.bay ≠ none
    ∧ p.2.2.mass + s.params.spoutF < p.2.2.capacity

theorem qualifies_iff (id spoutF : Nat) (t : Truck) (c : Compartment) : qualifies id spoutF t c = true ↔
    c.order = some id ∧ (c.state = .opened ∨ c.state = .loading) ∧ c.refused = false ∧ t.bay ≠ none
      ∧ c.mass + spoutF < c.capacity := by
  simp [qualifies, loadable_iff, Option.isSome_iff_ne_none, and_assoc]

theorem fits_iff (id : Nat) (p : Spot) (s : State) : p.fits id s ↔
    p.of s ∧ qualifies id s.params.spoutF p.1 p.2.2 = true := by
  rw [qualifies_iff]
  exact ⟨fun ⟨h1, h2, h3⟩ => ⟨⟨h1, h2⟩, h3⟩, fun ⟨⟨h1, h2⟩, h3⟩ => ⟨h1, h2, h3⟩⟩

theorem mem_targets (id : Nat) (p : Spot) (s : State) :
    p ∈ (allComps s).filter (fun p => qualifies id s.params.spoutF p.1 p.2.2) ↔ p.fits id s := by
  rw [List.mem_filter, mem_allComps, fits_iff]

theorem chooseTarget_none (id : Nat) (s : State) : chooseTarget id s = none ↔ ∀ p : Spot, ¬p.fits id s := by
  unfold chooseTarget
  rw [firstTarget_eq_none, List.eq_nil_iff_forall_not_mem]
  exact forall_congr' (fun p => not_congr (mem_targets id p s))

theorem chooseTarget_first {id : Nat} {s : State} {p : Spot} (h : chooseTarget id s = some p) :
    p.fits id s ∧ ∀ q : Spot, q.fits id s → targetAhead q p = false := by
  obtain ⟨hm, hfirst⟩ := firstTarget_first h
  exact ⟨(mem_targets id p s).1 hm, fun q hq => hfirst q ((mem_targets id q s).2 hq)⟩

/-- R161: the order's load may be marked at the compartment. -/
def Spot.marks (id : Nat) (p : Spot) (s : State) : Prop :=
  p.1 ∈ s.trucks ∧ p.1.comp p.2.1 = some p.2.2 ∧ p.2.2.order = some id
    ∧ (p.2.2.state = .opened ∨ p.2.2.state = .loading) ∧ p.2.2.refused = false

theorem mem_marks (id : Nat) (p : Spot) (s : State) :
    p ∈ (allComps s).filter (fun p => markable id p.2.2) ↔ p.marks id s := by
  rw [List.mem_filter, mem_allComps]
  simp [markable, loadable_iff, Spot.of, Spot.marks, and_assoc]

theorem markTarget_none (id : Nat) (s : State) : markTarget id s = none ↔ ∀ p : Spot, ¬p.marks id s := by
  unfold markTarget
  rw [firstTarget_eq_none, List.eq_nil_iff_forall_not_mem]
  exact forall_congr' (fun p => not_congr (mem_marks id p s))

theorem markTarget_ahead {id : Nat} {s : State} {p : Spot} (hp : p.marks id s)
    (h : ∀ q : Spot, q.marks id s → q ≠ p → targetAhead p q = true) : markTarget id s = some p :=
  firstTarget_of_ahead ((mem_marks id p s).2 hp) (fun q hq => h q ((mem_marks id q s).1 hq))

theorem markTarget_marks {id : Nat} {s : State} {p : Spot} (h : markTarget id s = some p) : p.marks id s :=
  (mem_marks id p s).1 (firstTarget_first h).1

/-! ### The node wants a bay (R170, R171) -/

theorem finWeightAbove_iff (s : State) : finWeightAbove s = true ↔
    ∃ w, s.finConv.weight = some w ∧ (s.params.emptyBand : Int) < w := by
  unfold finWeightAbove
  cases s.finConv.weight <;> simp

theorem finBulk_iff (s : State) : finBulk s = true ↔
    ∃ id o, s.fin.order = some id ∧ findOrder id s = some o ∧ o.bagged = false ∧ o.cancelled = false := by
  unfold finBulk
  cases s.fin.order with
  | none => simp
  | some id =>
    cases hf : findOrder id s <;> simp [hf]

theorem loadoutWanted_iff (s : State) : loadoutWanted s = true ↔ s.straps.loadout = true ∧ s.line = .run
    ∧ unitHeld .loadout s = false ∧ s.rx.listening = false ∧ standing .addressClash s = false ∧ permitsDrawing s = true
    ∧ s.fin.entering = false ∧ (∃ w, s.finConv.weight = some w ∧ (s.params.emptyBand : Int) < w)
    ∧ ∃ id o, s.fin.order = some id ∧ findOrder id s = some o ∧ o.bagged = false ∧ o.cancelled = false := by
  rw [← finWeightAbove_iff, ← finBulk_iff]
  simp only [loadoutWanted, Bool.and_eq_true, Bool.not_eq_true', decide_eq_true_eq, and_assoc]

theorem bayFree_iff (bay : Nat) (s : State) : bayFree bay s = true ↔ ∃ b, findBay bay s = some b ∧ b.remaining = 0 := by
  unfold bayFree
  cases findBay bay s <;> simp

theorem targetBay_iff (t : Truck) (s : State) (bay : Nat) : targetBay t s = some bay ↔
    t.bay = some bay ∧ ∃ b, findBay bay s = some b ∧ b.remaining = 0 := by
  rw [← bayFree_iff]
  unfold targetBay
  cases t.bay with
  | none => simp
  | some b =>
    rw [Option.bind_some, Option.ite_none_right_eq_some]
    constructor
    · rintro ⟨h, he⟩
      exact ⟨he, Option.some.inj he ▸ h⟩
    · rintro ⟨he, h⟩
      exact ⟨(Option.some.inj he).symm ▸ h, he⟩

/-- R171: the bay of the compartment is to be taken. -/
def takeDue (v : State) (p : Spot) (bay : Nat) : Prop :=
  v.hold.state = .nothing ∧ v.step = none ∧ loadoutWanted v = true
    ∧ (∃ id, v.fin.order = some id ∧ chooseTarget id v = some p) ∧ p.1.bay = some bay
    ∧ ∃ b, findBay bay v = some b ∧ b.remaining = 0

theorem takeDue_iff (v : State) (p : Spot) (bay : Nat) : takeDue v p bay ↔
    (v.hold.state = .nothing ∧ v.step = none ∧ loadoutWanted v = true) ∧ takeTarget v = some p
      ∧ targetBay p.1 v = some bay := by
  unfold takeDue takeTarget
  rw [targetBay_iff, Option.bind_eq_some_iff]
  tauto

theorem takeBay_due {s : State} {p : Spot} {bay : Nat} (h : takeDue s p bay) :
    takeBay s = takeBayFor p.1.truck p.2.1 bay s := by
  obtain ⟨hc, ht, hb⟩ := (takeDue_iff s p bay).1 h
  unfold takeBay
  rw [if_pos hc, ht]
  simp only [hb]

theorem takeBay_notDue {s : State} (h : ∀ p bay, ¬takeDue s p bay) : takeBay s = s := by
  unfold takeBay
  split
  · rename_i hc
    split
    · rename_i p hp
      split
      · rename_i bay hb
        exact absurd ((takeDue_iff s p bay).2 ⟨hc, hp, hb⟩) (h p bay)
      · rfl
    · rfl
  · rfl

/-- The node's own hold, newly begun. -/
def takenHold (truck number bay : Nat) : OwnHold :=
  { OwnHold.blank with state := .taking, bay := some bay, truck := some truck, comp := some number }

/-- R171: the state with the bay taken for the truck. -/
def bayTaken (truck number bay : Nat) (s : State) : State :=
  { s with tx := pushFrame (.bayHold bay truck s.params.holdDuration false) s.tx
           bays := s.bays.modify (bay - 1) (fun _ => { holder := some s.straps.node, remaining := s.params.holdDuration })
           hold := takenHold truck number bay }

theorem takeBayFor_room {truck number bay : Nat} {s : State}
    (h : hasRoom (.bayHold bay truck s.params.holdDuration false) s = true) : takeBayFor truck number bay s = bayTaken truck number bay s := by
  unfold takeBayFor queueFrame
  simp only [h, if_true]
  rfl

theorem takeBayFor_full {truck number bay : Nat} {s : State}
    (h : hasRoom (.bayHold bay truck s.params.holdDuration false) s = false) : takeBayFor truck number bay s =
      raiseFault .txAbandon none [.byte (Body.bayHold bay truck s.params.holdDuration false).kind] s := by
  have hc : ¬(Body.bayHold bay truck s.params.holdDuration false).cls = 2 := by simp [Body.cls]
  unfold takeBayFor queueFrame
  simp only [h, if_neg hc]
  rfl

/-! ### The hold stands while it may (R171) -/

theorem holdQualifies_iff {id : Nat} {t : Truck} {k : Nat} {c : Compartment} {s : State} (ho : s.fin.order = some id)
    (ht : s.hold.truck = some t.truck) (hk : s.hold.comp = some k) (hf : findTruck t.truck s = some t)
    (hc : t.comp k = some c) : holdQualifies s = true ↔ Spot.fits id (t, k, c) s ∧ t.bay = s.hold.bay := by
  unfold holdQualifies
  rw [ho, ht, Option.bind_some, hf, hk, fits_iff]
  simp only [Option.getD_some, hc, Bool.and_eq_true, decide_eq_true_eq]
  have hm : t ∈ s.trucks := List.mem_of_find?_eq_some hf
  exact ⟨fun ⟨h1, h2⟩ => ⟨⟨⟨hm, hc⟩, h1⟩, h2⟩, fun ⟨⟨_, h1⟩, h2⟩ => ⟨h1, h2⟩⟩

theorem abandonBay_stays {s : State} (h : s.hold.state = .nothing ∨ s.hold.stepped = true
    ∨ (loadoutWanted s = true ∧ holdQualifies s = true)) : abandonBay s = s := by
  unfold abandonBay
  rw [if_neg]
  rintro ⟨h1, h2, h3⟩
  rcases h with h | h | ⟨h, h'⟩
  · exact h1 h
  · exact h2 h
  · exact h3 (by rw [h, h']; rfl)

theorem abandonBay_releases {s : State} (hn : s.hold.state ≠ .nothing) (hs : s.hold.stepped = false)
    (h : loadoutWanted s = false ∨ holdQualifies s = false) : abandonBay s = releaseHold s := by
  unfold abandonBay
  rw [if_pos]
  refine ⟨hn, by simp [hs], ?_⟩
  rcases h with h | h <;> simp [h]

end Sys2Proof.Machine
end

