-- ==== Sys2Proof/Proofs/BayCloses.lean ====
section
/-! SUPPORT. R170, R171 at the close of an event: what follows the taking of a bay changes nothing of what a bay is taken for. -/
namespace Sys2Proof.Machine

/-! ### Faults that bear on the loadout -/

/-- Raising a fault leaves what is asked of the records of other faults. -/
theorem any_bumpFault {k : FaultKey} {P : FaultRecord → Bool} (hP : ∀ r : FaultRecord, r.key = k → P r = false)
    (reference now : Option Nat) (rs : List FaultRecord) : (bumpFault k reference now rs).any P = rs.any P := by
  induction rs with
  | nil =>
    unfold bumpFault
    rw [List.any_cons, hP _ rfl]
    rfl
  | cons r rs ih =>
    unfold bumpFault
    split
    · rename_i hk
      rw [List.any_cons, List.any_cons, hP r hk]
      exact congrArg (· || rs.any P) (hP _ hk)
    · rw [List.any_cons, List.any_cons, ih]

/-- The faults that keep the node from a bay are the same in both. -/
structure SameBars (s u : State) : Prop where
  held  : unitHeld .loadout u = unitHeld .loadout s
  clash : standing .addressClash u = standing .addressClash s

theorem SameBars.trans {s u v : State} (h : SameBars s u) (h' : SameBars u v) : SameBars s v :=
  ⟨h'.held.trans h.held, h'.clash.trans h.clash⟩

theorem SameBars.of_faults {s u : State} (h : u.faults = s.faults) : SameBars s u := by
  constructor
  · unfold unitHeld
    rw [h]
  · unfold standing
    rw [h]

theorem queueFrame_sameBars (b : Body) (s : State) : SameBars s (queueFrame b s) := by
  unfold queueFrame
  split
  · exact SameBars.of_faults rfl
  · split
    · exact SameBars.of_faults rfl
    · constructor
      · unfold unitHeld
        rw [raiseFault_faults]
        refine any_bumpFault (fun r hr => ?_) _ _ _
        rw [hr]
        rfl
      · unfold standing
        rw [raiseFault_faults]
        refine any_bumpFault (fun r hr => ?_) _ _ _
        rw [hr]
        rfl

/-! ### The frame queue does not shrink -/

theorem dropFirst_shrinks (P : OutEntry → Bool) (q : List OutEntry) : q.length ≤ (dropFirst P q).length + 1 := by
  induction q with
  | nil => simp
  | cons e es ih =>
    unfold dropFirst
    split
    · simp
    · simpa using ih

theorem pushFrame_grows (b : Body) (q : List OutEntry) : q.length ≤ (pushFrame b q).length := by
  unfold pushFrame
  split
  · simp
  · have h := dropFirst_shrinks OutEntry.evictable q.reverse
    unfold evictNewest
    simpa using h

theorem raiseFault_length (k : FaultKey) (reference : Option Nat) (detail : List DetailField) (s : State) :
    s.tx.length ≤ (raiseFault k reference detail s).tx.length := by
  obtain ⟨rest, h⟩ := raiseFault_txExtends k reference detail s
  rw [h, List.length_append]
  omega

theorem queueFrame_length (b : Body) (s : State) : s.tx.length ≤ (queueFrame b s).tx.length := by
  unfold queueFrame
  split
  · exact pushFrame_grows b s.tx
  · split
    · exact le_refl _
    · exact raiseFault_length _ _ _ s

theorem queueNotice_length (n : Notice) (s : State) : s.tx.length ≤ (queueNotice n s).tx.length := by
  unfold queueNotice pushSoft
  split
  · simp
  · exact le_refl _

/-! ### From the taking of a bay to the close -/

/-- What follows the taking of a bay in the close of an event. -/
structure Closing (v t : State) : Prop where
  rounded : Rounded v t
  hold    : t.hold = v.hold
  bays    : t.bays = v.bays
  bars    : SameBars v t
  queue   : v.tx.length ≤ t.tx.length

theorem Closing.trans {s u v : State} (h : Closing s u) (h' : Closing u v) : Closing s v :=
  ⟨h.rounded.trans h'.rounded, h'.hold.trans h.hold, h'.bays.trans h.bays, h.bars.trans h'.bars, le_trans h.queue h'.queue⟩

theorem pauseReports_queue (s : State) : s.tx.length ≤ (pauseReports s).tx.length := by
  unfold pauseReports
  dsimp only
  split
  · split
    · exact queueNotice_length (.lineState .paused .pauseComplete)
        { s with line := .paused, reports := Reports.blank }
    · exact le_refl _
  · exact le_refl _

theorem pauseReports_closing (s : State) : Closing s (pauseReports s) :=
  ⟨pauseReports_rounded s, by rw [pauseReports_only], by rw [pauseReports_only],
    SameBars.of_faults (by rw [pauseReports_only]), pauseReports_queue s⟩

theorem timers_closing (s : State) : Closing s (timers s) :=
  ⟨timers_rounded s, rfl, rfl, SameBars.of_faults rfl, le_refl _⟩

/-- R24: what the close does about the next order to be told again. -/
theorem reannounce_cases (s : State) : reannounce s = s
    ∨ ∃ ids, reannounce s = { s with reannounce := ids } ∨ ∃ b, reannounce s = queueFrame b { s with reannounce := ids } := by
  unfold reannounce
  dsimp only
  split
  · exact Or.inl rfl
  · split
    · split
      · exact Or.inr ⟨_, Or.inr ⟨_, rfl⟩⟩
      · exact Or.inr ⟨_, Or.inl rfl⟩
    · exact Or.inl rfl

theorem reannounce_closing (s : State) : Closing s (reannounce s) := by
  have hb : SameBars s (reannounce s) ∧ s.tx.length ≤ (reannounce s).tx.length := by
    rcases reannounce_cases s with h | ⟨ids, h | ⟨b, h⟩⟩ <;> rw [h]
    · exact ⟨SameBars.of_faults rfl, le_refl _⟩
    · exact ⟨SameBars.of_faults rfl, le_refl _⟩
    · have hq := queueFrame_sameBars b { s with reannounce := ids }
      exact ⟨⟨hq.held, hq.clash⟩, queueFrame_length b { s with reannounce := ids }⟩
  exact ⟨reannounce_rounded s, by rw [reannounce_only], by rw [reannounce_only], hb.1, hb.2⟩

theorem drive_closing (s : State) : Closing s (drive s) :=
  ⟨drive_rounded s, by rw [drive_only], by rw [drive_only], SameBars.of_faults (by rw [drive_only]), by
    rw [drive_only]⟩

/-- The state in which the bays are left and taken. -/
@[irreducible] def bayReady (u : State) : State := abandonBay (rounds u)

theorem settled_closing (s u : State) : Closing (takeBay (bayReady u)) (settled s u) := by
  have hc : Closing (takeBay (bayReady u)) (close u) := by
    unfold close bayReady
    exact ((pauseReports_closing _).trans (timers_closing _)).trans ((reannounce_closing _).trans (drive_closing _))
  exact hc.trans ⟨Rounded.same rfl rfl rfl, rfl, rfl, SameBars.of_faults rfl, le_refl _⟩

section Closed
variable {v t : State} (h : Closing v t)
include h

theorem Closing.permits : permitsDrawing t = permitsDrawing v := by
  have hf : t.fin = v.fin := congrArg Ledger.fin h.rounded.ledger
  unfold permitsDrawing
  rw [hf]

theorem Closing.wanted : loadoutWanted t = loadoutWanted v := by
  have hk := congrArg Ledger.kept h.rounded.ledger
  have hs : t.straps = v.straps := congrArg Kept.straps hk
  have hp : t.params = v.params := congrArg Kept.params hk
  have hr : t.rx = v.rx := congrArg Kept.rx hk
  have hw : t.finConv = v.finConv := congrArg Kept.finConv hk
  have hf : t.fin = v.fin := congrArg Ledger.fin h.rounded.ledger
  have ho : ∀ id, findOrder id t = findOrder id v := findOrder_congr (congrArg Ledger.slots h.rounded.ledger)
  have hl : decide (t.line = .run) = decide (v.line = .run) := decide_eq_decide.2 h.rounded.line
  unfold loadoutWanted finWeightAbove finBulk
  simp only [hs, hp, hr, hw, hf, ho, hl, h.bars.held, h.bars.clash, h.permits]

theorem Closing.target : takeTarget t = takeTarget v := by
  have hp : t.params = v.params := congrArg (fun l => l.kept.params) h.rounded.ledger
  have hf : t.fin = v.fin := congrArg Ledger.fin h.rounded.ledger
  have ht : t.trucks = v.trucks := congrArg Ledger.trucks h.rounded.ledger
  unfold takeTarget chooseTarget allComps
  rw [hp, hf, ht]

theorem Closing.due {p : Spot} {bay : Nat} (hd : takeDue t p bay) : takeDue v p bay := by
  have hstep : t.step = v.step := congrArg Ledger.step h.rounded.ledger
  have hb : targetBay p.1 t = targetBay p.1 v := by
    unfold targetBay bayFree findBay
    rw [h.bays]
  rw [takeDue_iff] at hd ⊢
  rwa [h.hold, hstep, h.wanted, h.target, hb] at hd

theorem Closing.qualifies : holdQualifies t = holdQualifies v := by
  have hp : t.params = v.params := congrArg (fun l => l.kept.params) h.rounded.ledger
  have hf : t.fin = v.fin := congrArg Ledger.fin h.rounded.ledger
  have ht : t.trucks = v.trucks := congrArg Ledger.trucks h.rounded.ledger
  unfold holdQualifies findTruck
  rw [hp, hf, ht, h.hold]

end Closed

/-- R171: a taking that is still due found the frame queue full. -/
theorem takeBay_stillDue {x : State} {p : Spot} {bay : Nat} (h : takeDue (takeBay x) p bay) :
    8 ≤ (takeBay x).tx.length := by
  by_cases hd : ∃ q b, takeDue x q b
  · obtain ⟨q, b, hd⟩ := hd
    rw [takeBay_due hd] at h ⊢
    cases hr : hasRoom (.bayHold b q.1.truck x.params.holdDuration false) x with
    | true =>
      rw [takeBayFor_room hr] at h
      exact absurd h.1 (by simp [bayTaken, takenHold])
    | false =>
      rw [takeBayFor_full hr]
      refine le_trans ?_ (raiseFault_length _ _ _ x)
      by_contra hlt
      rw [hasRoom, decide_eq_true (by omega : x.tx.length < 8), Bool.true_or] at hr
      cases hr
  · simp only [not_exists] at hd
    rw [takeBay_notDue hd] at h
    exact absurd h (hd p bay)

theorem settled_stillDue {s u : State} {p : Spot} {bay : Nat} (h : takeDue (settled s u) p bay) :
    8 ≤ (settled s u).tx.length :=
  le_trans (takeBay_stillDue ((settled_closing s u).due h)) (settled_closing s u).queue

/-! ### The hold at the close (R171) -/

/-- A hold no step has begun under is one the conditions of its taking stand for. -/
def HoldStands (s : State) : Prop :=
  s.hold.state ≠ .nothing → s.hold.stepped = false → loadoutWanted s = true ∧ holdQualifies s = true

theorem abandonBay_stands (s : State) : HoldStands (abandonBay s) := by
  intro hn hs
  by_cases h : s.hold.state = .nothing ∨ s.hold.stepped = true ∨ (loadoutWanted s = true ∧ holdQualifies s = true)
  · rw [abandonBay_stays h] at hn hs ⊢
    rcases h with h | h | h
    · exact absurd h hn
    · rw [hs] at h
      cases h
    · exact h
  · simp only [not_or, not_and, Bool.not_eq_true] at h
    obtain ⟨h1, h2, h3⟩ := h
    rw [abandonBay_releases h1 h2 (by
      cases hw : loadoutWanted s with
      | false => exact Or.inl rfl
      | true => exact Or.inr (h3 hw))] at hn
    exact absurd (releaseHold_state s) hn

theorem findTruck_mem {s : State} (hk : KeysDistinct s) {t : Truck} (h : t ∈ s.trucks) : findTruck t.truck s = some t := by
  obtain ⟨-, hn, -⟩ := hk
  cases hf : findTruck t.truck s with
  | none => exact absurd (decide_eq_true rfl) (List.find?_eq_none.1 hf t h)
  | some y =>
    have hy : y.truck = t.truck := by simpa using List.find?_some hf
    rw [List.inj_on_of_nodup_map hn (List.mem_of_find?_eq_some hf) h hy]

theorem takeBay_stands {x : State} (hk : KeysDistinct x) (h : HoldStands x) : HoldStands (takeBay x) := by
  by_cases hd : ∃ q b, takeDue x q b
  · obtain ⟨q, b, hd⟩ := hd
    rw [takeBay_due hd]
    cases hr : hasRoom (.bayHold b q.1.truck x.params.holdDuration false) x with
    | true =>
      rw [takeBayFor_room hr]
      intro _ _
      obtain ⟨-, -, hw, ⟨id, hid, hc⟩, hb, -⟩ := hd
      obtain ⟨hfit, -⟩ := chooseTarget_first hc
      have hcomp := hfit.2.1
      exact ⟨hw, (holdQualifies_iff (s := bayTaken q.1.truck q.2.1 b x) hid rfl rfl (findTruck_mem hk hfit.1) hcomp).2
        ⟨hfit, hb⟩⟩
    | false =>
      rw [takeBayFor_full hr]
      intro hn _
      rw [raiseFault_only] at hn
      exact absurd hd.1 hn
  · simp only [not_exists] at hd
    rw [takeBay_notDue hd]
    exact h

theorem settled_stands (s : State) {u : State} (hk : KeysDistinct u) : HoldStands (settled s u) := by
  have hv : HoldStands (takeBay (bayReady u)) := by
    unfold bayReady
    exact takeBay_stands (abandonBay_keeps (l := .keys) (rounds_keeps (l := .keys) hk)) (abandonBay_stands _)
  have hc := settled_closing s u
  intro hn hs
  rw [hc.hold] at hn hs
  obtain ⟨h1, h2⟩ := hv hn hs
  exact ⟨hc.wanted.trans h1, hc.qualifies.trans h2⟩

end Sys2Proof.Machine
end

