-- ==== Sys2Proof/Proofs/Marking.lean ====
section
/-! SUPPORT. R11, R161: the runs that are filled, each marked in its turn, and none left at the close of an event. -/
namespace Sys2Proof.Machine

/-! ### One order (R161) -/

theorem runFilled_iff (o : Order) (s : State) : runFilled o s = true ↔ o.state ≠ .claiming ∧ o.bagged = false
    ∧ o.plan.n = some o.plan.admitted ∧ o.plan.makeUp = none ∧ inPipeline o.id s = false
    ∧ o.runMass ≤ o.plan.massFinished := by
  simp only [runFilled, Order.taken, Plan.allAdmitted, Bool.and_eq_true, decide_eq_true_eq, Bool.not_eq_true',
    Option.isNone_iff_eq_none, and_assoc]

/-- R161: the run of the order is filled, and no load of it under way. -/
def markDue (o : Order) (s : State) : Prop := runFilled o s = true ∧ s.fin.order ≠ some o.id ∧ s.step = none

/-- R11, R161: the order's load marked at the compartment, and its run ended. -/
def runMarked (o : Order) (p : Spot) (s : State) : State :=
  completeRun o.id (queueFrame (.loaded p.1.truck p.2.1 o.id p.2.2.mass)
    (updComp p.1.truck p.2.1 (fun c => { c with state := .loaded, here := true }) s))

/-- Nothing of the order is left to be marked. -/
def MarkDone (o : Order) (s : State) : Prop := o.cancelled = true ∨ ¬markDue o s ∨ ∀ p : Spot, ¬p.marks o.id s

theorem markLoadedFor_eq (o : Order) (s : State) : markLoadedFor o s =
    if runFilled o s && !o.cancelled && decide (s.fin.order ≠ some o.id) && decide (s.step = none) then
      match markTarget o.id s with
      | some p => runMarked o p s
      | none => s
    else s := rfl

theorem markCondition_iff (o : Order) (s : State) :
    (runFilled o s && !o.cancelled && decide (s.fin.order ≠ some o.id) && decide (s.step = none)) = true
      ↔ o.cancelled = false ∧ markDue o s := by
  unfold markDue
  simp only [Bool.and_eq_true, Bool.not_eq_true', decide_eq_true_eq]
  tauto

theorem markLoadedFor_done {o : Order} {s : State} (h : MarkDone o s) : markLoadedFor o s = s := by
  rw [markLoadedFor_eq]
  split
  · rename_i hc
    obtain ⟨hcan, hdue⟩ := (markCondition_iff o s).1 hc
    rcases h with h | h | h
    · rw [hcan] at h
      cases h
    · exact absurd hdue h
    · rw [(markTarget_none o.id s).2 h]
  · rfl

theorem markLoadedFor_marks {o : Order} {s : State} {p : Spot} (hc : o.cancelled = false) (hd : markDue o s)
    (hp : markTarget o.id s = some p) : markLoadedFor o s = runMarked o p s := by
  rw [markLoadedFor_eq, if_pos ((markCondition_iff o s).2 ⟨hc, hd⟩), hp]

theorem markLoadedFor_cases (o : Order) (s : State) : (MarkDone o s ∧ markLoadedFor o s = s)
    ∨ ∃ p : Spot, p.marks o.id s ∧ markLoadedFor o s = runMarked o p s := by
  by_cases hdone : MarkDone o s
  · exact Or.inl ⟨hdone, markLoadedFor_done hdone⟩
  · simp only [MarkDone, not_or, not_not, Bool.not_eq_true] at hdone
    obtain ⟨hc, hd, hm⟩ := hdone
    cases hp : markTarget o.id s with
    | none => exact absurd ((markTarget_none o.id s).1 hp) hm
    | some p => exact Or.inr ⟨p, markTarget_marks hp, markLoadedFor_marks hc hd hp⟩

/-! ### The others of the book stand while one is marked -/

theorem findOrder_updOrder_other {i id : Nat} (h : i ≠ id) {f : Order → Order} (hf : ∀ o, (f o).id = o.id) (s : State) :
    findOrder i (updOrder id f s) = findOrder i s := by
  rw [findOrder_updOrder hf]
  cases ho : findOrder i s with
  | none => rfl
  | some o => rw [Option.map_some, if_neg (by rw [(findOrder_mem ho).2]; exact h)]

theorem findOrder_releaseReservations_other {i id : Nat} (h : i ≠ id) (s : State) :
    findOrder i (releaseReservations id s) = findOrder i s := by
  rw [findOrder_releaseReservations]
  cases ho : findOrder i s with
  | none => rfl
  | some o => rw [Option.map_some, if_neg (by rw [(findOrder_mem ho).2]; exact h)]

theorem findOrder_freeSlot_other {i id : Nat} (h : i ≠ id) (s : State) : findOrder i (freeSlot id s) = findOrder i s := by
  unfold findOrder
  rw [freeSlot_slots, List.find?_filter]
  congr 1
  funext o
  by_cases ho : o.id = i
  · simp [ho, h]
  · simp [ho]

theorem findOrder_reserveRun_other {i id : Nat} (h : i ≠ id) (s : State) : findOrder i (reserveRun id s) = findOrder i s := by
  cases ho : findOrder id s with
  | none =>
    unfold reserveRun
    rw [ho]
  | some o =>
    rw [reserveRun_eq ho]
    generalize reserveParts (machineParts o.runMass o.formula) s.reservations = r
    exact findOrder_updOrder_other h (f := fun x => { x with remainders := r.2 }) (fun _ => rfl)
      { s with reservations := r.1 }

theorem findOrder_reserveRun {id : Nat} {s : State} {o : Order} (ho : findOrder id s = some o) :
    ∃ rem, findOrder id (reserveRun id s) = some { o with remainders := rem } := by
  rw [reserveRun_eq ho]
  generalize reserveParts (machineParts o.runMass o.formula) s.reservations = r
  exact ⟨r.2, findOrder_updOrder_self (f := fun x => { x with remainders := r.2 }) (fun _ => rfl)
    (s := { s with reservations := r.1 }) ho⟩

theorem findOrder_completeRun_other {i id : Nat} (h : i ≠ id) (s : State) :
    findOrder i (completeRun id s) = findOrder i s := by
  cases ho : findOrder id s with
  | none =>
    unfold completeRun
    rw [ho]
  | some o =>
    rcases le_or_gt o.runCount 1 with hc | hc
    · rw [completeRun_last ho hc, findOrder_freeSlot_other h, findOrder_congr (queueNotice_slots _ _),
        findOrder_releaseReservations_other h]
    · rw [completeRun_more ho hc, findOrder_reserveRun_other h,
        findOrder_updOrder_other (f := Order.nextRun s.params.batchSize o.runsLeft) h (fun _ => rfl),
        findOrder_congr (queueNotice_slots _ _), findOrder_releaseReservations_other h]

theorem runMarked_slots (o : Order) (p : Spot) (s : State) : ∃ v : State, runMarked o p s = completeRun o.id v
    ∧ v.slots = s.slots ∧ v.params = s.params :=
  ⟨_, rfl, by rw [queueFrame_only]; rfl, by rw [queueFrame_only]; rfl⟩

theorem findOrder_runMarked_other {i : Nat} {o : Order} (h : i ≠ o.id) (p : Spot) (s : State) :
    findOrder i (runMarked o p s) = findOrder i s := by
  obtain ⟨v, hv, hs, -⟩ := runMarked_slots o p s
  rw [hv, findOrder_completeRun_other h, findOrder_congr hs]

theorem findOrder_markLoadedFor_other {i : Nat} {o : Order} (h : i ≠ o.id) (s : State) :
    findOrder i (markLoadedFor o s) = findOrder i s := by
  rcases markLoadedFor_cases o s with ⟨-, he⟩ | ⟨p, -, he⟩ <;> rw [he]
  exact findOrder_runMarked_other h p s

theorem runMarked_trucks (o : Order) (p : Spot) (s : State) : (runMarked o p s).trucks
    = (updComp p.1.truck p.2.1 (fun c => { c with state := .loaded, here := true }) s).trucks := by
  unfold runMarked
  rw [completeRun_only, queueFrame_only]

theorem setComp_comp {n k : Nat} {f : Compartment → Compartment} {t : Truck} {c : Compartment} (hn : n ≠ 0)
    (h : ({ t with comps := setComp n f t.comps } : Truck).comp k = some c) :
    ∃ b, t.comp k = some b ∧ ((k ≠ n ∧ c = b) ∨ (k = n ∧ c = f b)) := by
  unfold Truck.comp setComp at *
  split at h
  · cases h
  · rename_i hk
    rw [if_neg hk]
    dsimp only at h
    rw [List.getElem?_modify] at h
    obtain ⟨b, hb, rfl⟩ := Option.map_eq_some_iff.1 h
    refine ⟨b, hb, ?_⟩
    by_cases he : k = n
    · exact Or.inr ⟨he, by simp [he]⟩
    · exact Or.inl ⟨he, by rw [if_neg (by omega)]⟩

/-- What is marked of one order leaves where another's load may be marked. -/
theorem marks_runMarked_other {o : Order} {i : Nat} (h : i ≠ o.id) {p q : Spot} {s : State}
    (hk : (s.trucks.map Truck.truck).Nodup) (hp : p.marks o.id s) (hq : q.marks i (runMarked o p s)) :
    ∃ r : Spot, r.marks i s := by
  obtain ⟨t, k, c⟩ := q
  obtain ⟨hm, hc, hq⟩ := hq
  obtain ⟨hpm, hpc, hpo, -⟩ := hp
  rw [runMarked_trucks] at hm
  obtain ⟨t0, ht0, he⟩ := List.mem_map.1 hm
  dsimp only at he hc hq
  have hn : p.2.1 ≠ 0 := fun h0 => by
    rw [h0] at hpc
    cases hpc
  split at he
  · rename_i htr
    have heq : t0 = p.1 := List.inj_on_of_nodup_map hk ht0 hpm htr
    rw [← he] at hc
    obtain ⟨b, hb, ⟨-, rfl⟩ | ⟨hkn, rfl⟩⟩ := setComp_comp hn hc
    · exact ⟨(t0, k, c), ht0, hb, hq⟩
    · rw [heq, hkn, hpc] at hb
      rw [← Option.some.inj hb] at hq
      exact absurd (hpo.symm.trans hq.1) (fun hi => h (Option.some.inj hi).symm)
  · rw [← he] at hc
    exact ⟨(t0, k, c), ht0, hc, hq⟩

theorem markDue_congr {s u : State} (o : Order) (hp : pipeline u = pipeline s) (hf : u.fin = s.fin) (hs : u.step = s.step) :
    markDue o u ↔ markDue o s := by
  unfold markDue runFilled inPipeline
  rw [hp, hf, hs]

theorem markDue_markLoadedFor (o x : Order) (s : State) : markDue o (markLoadedFor x s) ↔ markDue o s := by
  refine markDue_congr o ?_ ?_ ?_ <;> rw [markLoadedFor_only]
  rfl

theorem MarkDone.of_other {o x : Order} (h : o.id ≠ x.id) {s : State} (hk : (s.trucks.map Truck.truck).Nodup)
    (hd : MarkDone o s) : MarkDone o (markLoadedFor x s) := by
  rcases hd with hd | hd | hd
  · exact Or.inl hd
  · exact Or.inr (Or.inl (fun h' => hd ((markDue_markLoadedFor o x s).1 h')))
  · rcases markLoadedFor_cases x s with ⟨-, he⟩ | ⟨p, hp, he⟩ <;> rw [he]
    · exact Or.inr (Or.inr hd)
    · refine Or.inr (Or.inr (fun q hq => ?_))
      obtain ⟨r, hr⟩ := marks_runMarked_other h hk hp hq
      exact hd r hr

/-! ### The order itself is done -/

theorem nextRun_notFilled {o : Order} {size count : Nat} {rem : List Reservation} (hm : 0 < o.runMass) (hs : 0 < size)
    (s : State) : ¬markDue { Order.nextRun size count o with remainders := rem } s := by
  rintro ⟨hf, -⟩
  obtain ⟨-, -, hn, -⟩ := (runFilled_iff _ s).1 hf
  have h0 : splitCount o.runMass size = 0 := Option.some.inj hn
  obtain ⟨h1, -⟩ := splitCount_bounds hm hs
  omega

/-- R6, R11: an order whose run was marked has left the book, or begins a run with batches to come. -/
theorem runMarked_done {o : Order} {p : Spot} {s : State} (ho : findOrder o.id s = some o) (hm : 0 < o.runMass)
    (hs : 0 < s.params.batchSize) {y : Order} (hy : findOrder o.id (runMarked o p s) = some y) :
    MarkDone y (runMarked o p s) := by
  obtain ⟨v, hv, hvs, hvp⟩ := runMarked_slots o p s
  have hvo : findOrder o.id v = some o := (findOrder_congr hvs _).trans ho
  rw [hv] at hy ⊢
  rcases le_or_gt o.runCount 1 with hc | hc
  · rw [findOrder_completeRun_last hvo hc] at hy
    cases hy
  · have hw : findOrder o.id (updOrder o.id (Order.nextRun v.params.batchSize o.runsLeft)
        (queueNotice (.runDone o.id o.runsLeft o.tally o.plan.finished) (releaseReservations o.id v)))
        = some (Order.nextRun v.params.batchSize o.runsLeft o.released) :=
      findOrder_updOrder_self (f := Order.nextRun v.params.batchSize o.runsLeft) (fun _ => rfl)
        (by rw [findOrder_congr (queueNotice_slots _ _), findOrder_released hvo])
    obtain ⟨rem, hr⟩ := findOrder_reserveRun hw
    rw [completeRun_more hvo hc] at hy
    rw [← Option.some.inj (hr.symm.trans hy)]
    exact Or.inr (Or.inl (nextRun_notFilled (o := o.released) hm (by rwa [hvp]) _))

/-! ### All in turn -/

/-- R161: what the marking of the orders in turn rests on. -/
structure Marking (left : List Order) (s : State) : Prop where
  keys    : KeysDistinct s
  figures : FiguresWithin s
  powered : s.power = .running
  apart   : (left.map Order.id).Nodup
  found   : ∀ x ∈ left, findOrder x.id s = some x
  done    : ∀ y ∈ s.slots, y.id ∈ left.map Order.id ∨ MarkDone y s

theorem Marking.next {x : Order} {left : List Order} {s : State} (h : Marking (x :: left) s) :
    Marking left (markLoadedFor x s) := by
  obtain ⟨hx, hleft⟩ := List.nodup_cons.1 h.apart
  have hfound := h.found x List.mem_cons_self
  have hkeys : KeysDistinct (markLoadedFor x s) := markLoadedFor_keeps (l := .keys) x h.keys
  have hne : ∀ y ∈ left, y.id ≠ x.id := fun y hy he => hx (he ▸ List.mem_map_of_mem hy)
  refine ⟨hkeys, markLoadedFor_keeps (l := .figures) x h.figures, ?_, hleft, fun y hy => ?_, fun y hy => ?_⟩
  · rw [markLoadedFor_only]
    exact h.powered
  · rw [findOrder_markLoadedFor_other (hne y hy)]
    exact h.found y (List.mem_cons_of_mem _ hy)
  · have hfy := findOrder_of_mem hkeys.1 hy
    by_cases hid : y.id = x.id
    · right
      rw [hid] at hfy
      rcases markLoadedFor_cases x s with ⟨hdone, he⟩ | ⟨p, -, he⟩
      · rw [he] at hfy ⊢
        rwa [← Option.some.inj (hfound.symm.trans hfy)]
      · obtain ⟨-, -, -, -, -, -, -, -, -, -, -, -, hmass, hsize⟩ := h.figures
        rw [he] at hfy ⊢
        exact runMarked_done hfound (hmass x (findOrder_mem hfound).1) (hsize h.powered) hfy
    · rw [findOrder_markLoadedFor_other hid] at hfy
      rcases h.done y (findOrder_mem hfy).1 with hl | hd
      · rw [List.map_cons, List.mem_cons] at hl
        exact Or.inl (hl.resolve_left hid)
      · exact Or.inr (hd.of_other hid h.keys.2.1)

theorem markAll_done {l : List Order} {s : State} (h : Marking l s) :
    ∀ y ∈ (markAll l s).slots, MarkDone y (markAll l s) := by
  induction l generalizing s with
  | nil => exact fun y hy => (h.done y hy).resolve_left (by simp)
  | cons x xs ih => exact ih h.next

theorem markLoaded_done {s : State} (hk : KeysDistinct s) (hf : FiguresWithin s) (hp : s.power = .running) :
    ∀ y ∈ (markLoaded s).slots, MarkDone y (markLoaded s) := by
  unfold markLoaded
  have hperm : (ranked s s.slots).Perm s.slots := ranked_perm s _
  refine markAll_done ⟨hk, hf, hp, (hperm.map _).nodup_iff.2 hk.1, fun x hx => ?_, fun y hy => ?_⟩
  · exact findOrder_of_mem hk.1 (hperm.mem_iff.1 hx)
  · exact Or.inl (List.mem_map_of_mem (hperm.mem_iff.2 hy))

/-! ### To the close of the event -/

theorem marks_congr {s u : State} (h : u.trucks = s.trucks) (id : Nat) (p : Spot) : p.marks id u ↔ p.marks id s := by
  unfold Spot.marks
  rw [h]

theorem MarkDone.congr {o : Order} {s u : State} (h : u.book = s.book) (hd : MarkDone o s) : MarkDone o u := by
  have hf : u.fin.order = s.fin.order := congrArg (fun b => b.bin.order) h
  have hs : u.step = s.step := congrArg Book.step h
  have ht : u.trucks = s.trucks := congrArg Book.trucks h
  unfold MarkDone markDue runFilled at *
  simp only [inPipeline_congr h, hf, hs, marks_congr ht]
  exact hd

theorem makeUps_done {s : State} (h : ∀ y ∈ s.slots, MarkDone y s) : ∀ y ∈ (makeUps s).slots, MarkDone y (makeUps s) := by
  intro y hy
  unfold makeUps at hy ⊢
  rcases makeUpAll_record _ s y hy with hm | ⟨hm, -⟩
  · refine Or.inr (Or.inl (fun hd => ?_))
    obtain ⟨-, -, -, hn, -⟩ := (runFilled_iff _ _).1 hd.1
    rw [hn] at hm
    cases hm
  · have hd := h y hm
    rw [makeUpAll_only]
    exact hd

theorem admissionAttempt_done {s : State} (hi : IdleEmpty s) (h : ∀ y ∈ s.slots, MarkDone y s) :
    ∀ y ∈ (admissionAttempt s).slots, MarkDone y (admissionAttempt s) := by
  obtain ⟨hmono, halike⟩ := admissionAttempt_alike hi
  have hfin : (admissionAttempt s).fin = s.fin := by rw [admissionAttempt_only]
  have hstep : (admissionAttempt s).step = s.step := by rw [admissionAttempt_only]
  have htrucks : (admissionAttempt s).trucks = s.trucks := by rw [admissionAttempt_only]
  intro y hy
  obtain ⟨z, hz, hid, hc, ha⟩ := halike y hy
  by_cases hd : markDue y (admissionAttempt s)
  · obtain ⟨hfill, hord, hst⟩ := hd
    obtain ⟨hclaim, hbag, hn, hmake, hpipe, hmass⟩ := (runFilled_iff _ _).1 hfill
    rcases ha with ha | ha
    · rw [hpipe] at ha
      cases ha
    · have hzp : inPipeline z.id s = false := by
        by_contra hp
        rw [hid, hmono z.id (by simpa using hp)] at hpipe
        cases hpipe
      have hzbag : z.bagged = false := by
        unfold Order.bagged at hbag ⊢
        rwa [ha.delivery] at hbag
      rw [ha.plan] at hn hmake hmass
      rw [ha.runMass] at hmass
      have hzd : markDue z s := ⟨(runFilled_iff z s).2 ⟨fun hs => hclaim (ha.claiming.2 hs), hzbag, hn, hmake, hzp, hmass⟩,
        by rw [← hid, ← hfin]; exact hord, hstep ▸ hst⟩
      rcases h z hz with hzc | hn | hm
      · exact Or.inl (hc.trans hzc)
      · exact absurd hzd hn
      · refine Or.inr (Or.inr (fun p hp => hm p ?_))
        rwa [marks_congr htrucks, hid] at hp
  · exact Or.inr (Or.inl hd)

/-- R161: no event leaves a filled run that may be marked. -/
theorem settled_markDone (s : State) {u : State} (hk : KeysDistinct u) (hf : FiguresWithin u) (hp : u.power = .running)
    (hi : IdleEmpty u) : ∀ y ∈ (settled s u).slots, MarkDone y (settled s u) := by
  have hb := settled_book s u
  have hslots : (settled s u).slots = (admissionAttempt (bookReady (lastRound u))).slots := congrArg Book.slots hb
  have hready : ∀ y ∈ (bookReady (lastRound u)).slots, MarkDone y (bookReady (lastRound u)) := by
    have hp' : (freeCancelled (watchStep (lastRound u))).power = .running := by
      have hpow : (freeCancelled (watchStep (lastRound u))).kept.power = u.kept.power := by
        unfold lastRound
        simp only [freeCancelled_kept, watchStep_kept, passLine_kept, pass_kept]
      exact hpow.trans hp
    refine makeUps_done (markLoaded_done ?_ ?_ hp')
    · unfold lastRound
      exact freeCancelled_keeps (l := .keys) (watchStep_keeps (l := .keys) (passLine_keeps (l := .keys)
        (pass_keeps (l := .keys) (pass_keeps (l := .keys) hk))))
    · unfold lastRound
      exact freeCancelled_keeps (l := .figures) (watchStep_keeps (l := .figures) (passLine_keeps (l := .figures)
        (pass_keeps (l := .figures) (pass_keeps (l := .figures) hf))))
  have hidle : IdleEmpty (bookReady (lastRound u)) := (lastRound_idleEmpty hi).congr (bookReady_scale _)
  intro y hy
  exact (admissionAttempt_done hidle hready y (hslots ▸ hy)).congr hb

/-! ### The obligation -/

/-- R170: how the first of the compartments stands to another that fits. -/
theorem not_targetAhead {p q : Spot} (h : targetAhead q p = false) :
    (p.2.2.state = .loading ∧ q.2.2.state ≠ .loading) ∨ ((p.2.2.state = .loading ↔ q.2.2.state = .loading)
      ∧ (p.1.departure.getD 1440 < q.1.departure.getD 1440 ∨ (p.1.departure.getD 1440 = q.1.departure.getD 1440
        ∧ (p.1.truck < q.1.truck ∨ (p.1.truck = q.1.truck ∧ p.2.1 ≤ q.2.1))))) := by
  rw [← Bool.not_eq_true, targetAhead_iff] at h
  rw [← Spot.rank_lt_iff, ← Spot.rank_eq_iff]
  omega

/-- Settles O31: the bay by the last of the close of an event, which leaves what a taking reads; the marked runs by the turns
of the ranking, in which one order's mark leaves those of the others. -/
theorem baysAreTakenAndRunsMarked : Obligations.BaysAreTakenAndRunsMarked := by
  unfold Obligations.BaysAreTakenAndRunsMarked
  refine ⟨fun s => ⟨fun id => chooseTarget_none id s, fun id p h => ?_, loadoutWanted_iff s,
    ⟨takeBay_notDue, fun p bay h hroom => ?_, fun u p bay => settled_stillDue⟩, abandonBay_stays, abandonBay_releases,
    fun id t k c ho ht hk hf hc => holdQualifies_iff ho ht hk hf hc, fun u hk => settled_stands s hk⟩,
    fun o s => runFilled_iff o s, fun o s hc => ⟨fun h => markLoadedFor_done (Or.inr h), fun hd p hp ha =>
      markLoadedFor_marks hc hd (markTarget_ahead hp ha)⟩, fun s u hk hf hp hi y hy hc hd p hm => ?_⟩
  · obtain ⟨hfit, hfirst⟩ := chooseTarget_first h
    exact ⟨hfit, fun q hq _ => not_targetAhead (hfirst q hq)⟩
  · have hr : hasRoom (.bayHold bay p.1.truck s.params.holdDuration false) s = true := by
      rw [hasRoom, decide_eq_true hroom, Bool.true_or]
    rw [takeBay_due h, takeBayFor_room hr]
    unfold bayTaken pushFrame
    rw [if_pos hroom]
    rfl
  · rcases settled_markDone s hk hf hp hi.1 y hy with h | h | h
    · rw [hc] at h
      cases h
    · exact h hd
    · exact h p hm

end Sys2Proof.Machine
end

