-- ==== Sys2Proof/Proofs/WarmReset.lean ====
section
/-! SUPPORT. R24, R189, R206: what a warm reset keeps and clears, field by field. -/
namespace Sys2Proof.Machine

/-! ### The orders in take order (R41) -/

/-- A list in order of a figure. -/
theorem sortBy_sorted {α : Type} (g : α → Nat) (l : List α) :
    (sortBy (fun a b => decide (g a ≤ g b)) l).Pairwise (fun a b => g a ≤ g b) := by
  have hins : ∀ (x : α) (l : List α), l.Pairwise (fun a b => g a ≤ g b) →
      (insertBy (fun a b => decide (g a ≤ g b)) x l).Pairwise (fun a b => g a ≤ g b) := by
    intro x l hl
    induction l with
    | nil => exact List.pairwise_singleton _ _
    | cons y ys ih =>
      obtain ⟨hy, hys⟩ := List.pairwise_cons.1 hl
      unfold insertBy
      split
      · rename_i hxy
        have hle : g x ≤ g y := of_decide_eq_true hxy
        refine List.pairwise_cons.2 ⟨fun z hz => ?_, hl⟩
        rcases List.mem_cons.1 hz with rfl | hz
        · exact hle
        · exact le_trans hle (hy z hz)
      · rename_i hxy
        have hlt : ¬g x ≤ g y := fun h => hxy (decide_eq_true h)
        refine List.pairwise_cons.2 ⟨fun z hz => ?_, ih hys⟩
        rcases (insertBy_mem _ x z ys).1 hz with rfl | hz
        · omega
        · exact hy z hz
  induction l with
  | nil => exact List.Pairwise.nil
  | cons x xs ih => exact hins x _ ih

theorem byTake_sorted (l : List Order) :
    (byTake l).Pairwise (fun a b => a.takeOrder.getD 0 ≤ b.takeOrder.getD 0) := sortBy_sorted _ l

theorem insertBy_map {α β : Type} {p : α → α → Bool} {q : β → β → Bool} {f : α → β} (h : ∀ a b, q (f a) (f b) = p a b)
    (x : α) (l : List α) : insertBy q (f x) (l.map f) = (insertBy p x l).map f := by
  induction l with
  | nil => rfl
  | cons y ys ih =>
    show (if q (f x) (f y) then f x :: f y :: ys.map f else f y :: insertBy q (f x) (ys.map f))
      = (if p x y then x :: y :: ys else y :: insertBy p x ys).map f
    rw [h, ih]
    split <;> rfl

theorem sortBy_map {α β : Type} {p : α → α → Bool} {q : β → β → Bool} {f : α → β} (h : ∀ a b, q (f a) (f b) = p a b)
    (l : List α) : sortBy q (l.map f) = (sortBy p l).map f := by
  induction l with
  | nil => rfl
  | cons x xs ih =>
    show insertBy q (f x) (sortBy q (xs.map f)) = (insertBy p x (sortBy p xs)).map f
    rw [ih, insertBy_map h]

/-- R24: an order kept keeps its id and its place among the takes. -/
theorem byTake_warm (lost : List Batch) (l : List Order) :
    (byTake (l.map (Order.warm lost))).map Order.id = (byTake l).map Order.id := by
  unfold byTake
  rw [sortBy_map (p := fun a b => decide (a.takeOrder.getD 0 ≤ b.takeOrder.getD 0)) (fun _ _ => rfl), List.map_map]
  rfl

/-! ### The slots freed (R24) -/

theorem freeAll_only (l : List Order) (s : State) :
    freeAll l s = { s with slots := (freeAll l s).slots, reservations := (freeAll l s).reservations
                           reannounce := (freeAll l s).reannounce } := by
  induction l generalizing s with
  | nil => rfl
  | cons o os ih =>
    unfold freeAll
    rw [ih, freeSlot_only]

theorem freeAll_slots (l : List Order) (s : State) :
    (freeAll l s).slots = s.slots.filter (fun o => decide (∀ x ∈ l, o.id ≠ x.id)) := by
  induction l generalizing s with
  | nil => simp [freeAll]
  | cons x xs ih =>
    unfold freeAll
    rw [ih, freeSlot_slots, List.filter_filter]
    refine List.filter_congr (fun o _ => ?_)
    simp [Bool.and_comm]

theorem freeAll_releases {l : List Order} {s : State} (ha : Apart s.reservations) (hn : (l.map Order.id).Nodup)
    (hl : ∀ o ∈ l, findOrder o.id s = some o) : Releases l s.reservations (freeAll l s).reservations := by
  induction l generalizing s with
  | nil => exact releases_nil.2 (fun _ => rfl)
  | cons o os ih =>
    obtain ⟨ho, hos⟩ := List.nodup_cons.1 hn
    have hne : ∀ x ∈ os, x.id ≠ o.id := fun x hx he => ho (he ▸ List.mem_map_of_mem hx)
    have hrel : Releases [o] s.reservations (freeSlot o.id s).reservations := by
      rw [freeSlot_reservations]
      exact releaseReservations_releases ha (hl o List.mem_cons_self)
    refine hrel.cons (ih ?_ hos (fun x hx => ?_))
    · rw [freeSlot_reservations]
      exact releaseReservations_apart _ ha
    · rw [findOrder_freeSlot_other (hne x hx)]
      exact hl x (List.mem_cons_of_mem _ hx)

/-- R24: the slots of the orders dropped are free; the ids being apart, no other is. -/
theorem freeAll_dropped {s : State} (hn : (s.slots.map Order.id).Nodup) :
    (freeAll (s.slots.filter Order.dropped) s).slots = keptOrders s := by
  rw [freeAll_slots]
  unfold keptOrders
  refine List.filter_congr (fun o ho => ?_)
  have hiff : (∀ x ∈ s.slots.filter Order.dropped, o.id ≠ x.id) ↔ o.dropped = false := by
    constructor
    · intro h
      by_contra hd
      exact h o (List.mem_filter.2 ⟨ho, by simpa using hd⟩) rfl
    · intro hd x hx he
      obtain ⟨hx, hxd⟩ := List.mem_filter.1 hx
      rw [← slot_unique hn ho hx he, hd] at hxd
      cases hxd
  rw [Bool.eq_iff_iff, decide_eq_true_iff, hiff]
  simp [Order.dropped]

/-! ### The order kept (R24) -/

/-- R24: batches of the order that the reset lost. -/
def lostOf (lost : List Batch) (id : Nat) (makeUp : Bool) : Nat :=
  (lost.filter (fun b => decide (b.order = some id ∧ b.rework = false ∧ b.makeUp = makeUp))).length

theorem warm_eq (lost : List Batch) (o : Order) : o.warm lost = { o with
    state := .held, waits := ⟨false, false, false, false, false⟩
    plan := { o.plan with
      admitted := o.plan.admitted - lostOf lost o.id false
      makeUp := o.plan.makeUp.map (fun m => { m with admitted := m.admitted - lostOf lost o.id true }) } } := by
  have h1 : (lost.filter (fun b => decide (b.order = some o.id) && !b.rework)).filter (fun b => !b.makeUp)
      = lost.filter (fun b => decide (b.order = some o.id ∧ b.rework = false ∧ b.makeUp = false)) := by
    rw [List.filter_filter]
    exact List.filter_congr (fun b _ => by cases b.rework <;> cases b.makeUp <;> simp)
  have h2 : (lost.filter (fun b => decide (b.order = some o.id) && !b.rework)).filter Batch.makeUp
      = lost.filter (fun b => decide (b.order = some o.id ∧ b.rework = false ∧ b.makeUp = true)) := by
    rw [List.filter_filter]
    exact List.filter_congr (fun b _ => by cases b.rework <;> cases b.makeUp <;> simp)
  unfold Order.warm Plan.lose lostOf
  dsimp only
  rw [h1, h2]
  rfl

/-! ### The bins (R61) -/

theorem mem_drawnBins (s : State) (bin : Nat) : (drawnBins s).contains bin = true ↔
    ∃ p, s.plan = some p ∧ ∃ e ∈ p.entries, e.status = .drawing ∧ e.bin = bin := by
  unfold drawnBins
  cases s.plan with
  | none => simp
  | some p => simp [and_assoc]

/-! ### The reset in one step (R206) -/

/-- What the reset starts from: the bus port and the lamps cleared. -/
def resetStart (s : State) : State := warmPort { s with resetPin := false, lamps := Lamps.blank }

/-- The Order Book with its dropped orders gone. -/
def resetBook (s : State) : State := freeAll ((warmBins (resetStart s)).slots.filter Order.dropped) (warmBins (resetStart s))

/-- The blocks of the node after the reset, before the line is told. -/
def resetBlocks (inputs : Inputs) (s : State) : State :=
  warmLoadout (warmBagger inputs (warmTrain (warmScale (warmOrders (pipeline s) (warmBins (resetStart s))))))

theorem warmReset_eq (inputs : Inputs) (s : State) : warmReset inputs s =
    warmLine inputs (raiseUnaccounted (pipeline s) (losesCharge s) s.step.isSome (resetBlocks inputs s)) := rfl

theorem raiseUnaccounted_only (lost : List Batch) (charge step : Bool) (s : State) :
    raiseUnaccounted lost charge step s = { s with faults := (raiseUnaccounted lost charge step s).faults
                                                   tx := (raiseUnaccounted lost charge step s).tx } := by
  unfold raiseUnaccounted
  split
  · rw [raiseFault_only]
  · rfl

theorem warmReset_only (inputs : Inputs) (s : State) : ∃ faults tx, warmReset inputs s =
    { resetBlocks inputs s with line := firstLine inputs.stopLine, reports := Reports.blank, inputs := inputs
                                faults := faults, tx := tx } := by
  refine ⟨(warmReset inputs s).faults, (warmReset inputs s).tx, ?_⟩
  rw [warmReset_eq]
  unfold warmLine
  rw [queueNotice_only, raiseUnaccounted_only]

theorem warmOrders_eq (s : State) : warmOrders (pipeline s) (warmBins (resetStart s)) =
    { warmBins (resetStart s) with
      slots := (resetBook s).slots.map (Order.warm (pipeline s))
      reannounce := (byTake ((resetBook s).slots.map (Order.warm (pipeline s)))).map Order.id
      reservations := (resetBook s).reservations } := by
  unfold warmOrders resetBook
  dsimp only
  rw [freeAll_only]

theorem becomes_warmReset {inputs : Inputs} {s : State} (hp : s.power = .running) :
    Becomes (.warmReset inputs) s (warmReset inputs s) := by
  unfold Becomes
  show execWarmReset inputs s = _
  unfold execWarmReset
  rw [if_pos hp]

/-! ### The notices of the reset (R189) -/

theorem resetBlocks_told (inputs : Inputs) (s : State) : (resetBlocks inputs s).faults = s.faults
    ∧ (resetBlocks inputs s).tx = [] ∧ (resetBlocks inputs s).millTime = s.millTime := by
  unfold resetBlocks
  rw [warmOrders_eq]
  exact ⟨rfl, rfl, rfl⟩

theorem warmLine_told (inputs : Inputs) {s : State} (h : s.tx.length < 8) : (warmLine inputs s).faults = s.faults
    ∧ (warmLine inputs s).tx = s.tx ++ [OutEntry.fresh (.notice (.lineState (firstLine inputs.stopLine) .reset))] := by
  constructor
  · unfold warmLine
    rw [queueNotice_only]
  · exact queueNotice_room _ (s := { s with line := firstLine inputs.stopLine, reports := Reports.blank, inputs := inputs }) h

end Sys2Proof.Machine
end

