-- ==== Sys2Proof/Proofs/Retelling.lean ====
section
/-! SUPPORT. R24, R41: the orders told again, one at the close of each event; an order leaves the list with its slot. -/
namespace Sys2Proof.Machine

/-- What leaves the list of orders to be told again has left the book. -/
structure Untold (s u : State) : Prop where
  list : u.reannounce.Sublist s.reannounce
  ids  : ∀ y ∈ u.slots, ∃ z ∈ s.slots, y.id = z.id
  gone : ∀ id ∈ s.reannounce, id ∉ u.reannounce → ∀ y ∈ u.slots, y.id ≠ id

theorem Untold.of_kept {s u : State} (h : ∀ y ∈ u.slots, ∃ z ∈ s.slots, y.id = z.id) (e : u.reannounce = s.reannounce) :
    Untold s u :=
  ⟨e ▸ List.Sublist.refl _, h, fun id hi hn => absurd (e ▸ hi) hn⟩

theorem Untold.same {s u : State} (h : u.slots = s.slots) (e : u.reannounce = s.reannounce) : Untold s u :=
  Untold.of_kept (fun y hy => ⟨y, h ▸ hy, rfl⟩) e

theorem Untold.refl (s : State) : Untold s s := Untold.same rfl rfl

theorem Untold.trans {s u v : State} (h : Untold s u) (h' : Untold u v) : Untold s v where
  list := h'.list.trans h.list
  ids := fun y hy => by
    obtain ⟨z, hz, hyz⟩ := h'.ids y hy
    obtain ⟨x, hx, hzx⟩ := h.ids z hz
    exact ⟨x, hx, hyz.trans hzx⟩
  gone := fun id hi hn y hy he => by
    by_cases hu : id ∈ u.reannounce
    · exact h'.gone id hu hn y hy he
    · obtain ⟨z, hz, hyz⟩ := h'.ids y hy
      exact h.gone id hi hu z hz (hyz.symm.trans he)

theorem Untold.ite {c : Prop} [Decidable c] {s t e : State} (ht : Untold s t) (he : Untold s e) :
    Untold s (if c then t else e) := by
  split
  · exact ht
  · exact he

theorem Untold.of_cancelledFrom {s u : State} (h : CancelledFrom s u) (e : u.reannounce = s.reannounce) : Untold s u :=
  Untold.of_kept (fun y hy => by
    obtain ⟨z, hz, hi, -⟩ := h y hy
    exact ⟨z, hz, hi⟩) e

/-! ### The Order Book -/

theorem freeSlot_reannounce (id : Nat) (s : State) :
    (freeSlot id s).reannounce = s.reannounce.filter (fun i => decide (i ≠ id)) := by
  rw [freeSlot_only]

theorem freeSlot_untold (id : Nat) (s : State) : Untold s (freeSlot id s) where
  list := by
    rw [freeSlot_reannounce]
    exact List.filter_sublist
  ids := fun y hy => by
    rw [freeSlot_slots] at hy
    exact ⟨y, (List.mem_filter.1 hy).1, rfl⟩
  gone := fun i hi hn y hy => by
    rw [freeSlot_reannounce] at hn
    rw [freeSlot_slots] at hy
    have hid : i = id := by
      by_contra hne
      exact hn (List.mem_filter.2 ⟨hi, decide_eq_true hne⟩)
    rw [hid]
    exact of_decide_eq_true (List.mem_filter.1 hy).2

theorem queueNotice_untold (n : Notice) (s : State) : Untold s (queueNotice n s) :=
  Untold.same (queueNotice_slots n s) (by rw [queueNotice_only])

theorem queueFrame_untold (b : Body) (s : State) : Untold s (queueFrame b s) :=
  Untold.same (by rw [queueFrame_only]) (by rw [queueFrame_only])

theorem completeRun_untold (id : Nat) (s : State) : Untold s (completeRun id s) := by
  have hr (n : Notice) : Untold s (queueNotice n (releaseReservations id s)) :=
    (Untold.of_cancelledFrom (releaseReservations_cancelledFrom id s) (by rw [releaseReservations_only])).trans
      (queueNotice_untold n _)
  cases ho : findOrder id s with
  | none =>
    unfold completeRun
    rw [ho]
    exact Untold.refl s
  | some o =>
    rcases le_or_gt o.runCount 1 with hc | hc
    · rw [completeRun_last ho hc]
      exact (hr _).trans (freeSlot_untold id _)
    · rw [completeRun_more ho hc]
      have hnext := updOrder_cancelledFrom id (f := Order.nextRun s.params.batchSize o.runsLeft) (fun _ => ⟨rfl, rfl⟩)
        (queueNotice (.runDone id o.runsLeft o.tally o.plan.finished) (releaseReservations id s))
      exact ((hr _).trans (Untold.of_cancelledFrom hnext rfl)).trans
        (Untold.of_cancelledFrom (reserveRun_cancelledFrom id _) (by rw [reserveRun_only]))

theorem endAllCancelled_untold (l : List Order) (s : State) : Untold s (endAllCancelled l s) := by
  induction l generalizing s with
  | nil => exact Untold.refl s
  | cons o os ih =>
    unfold endAllCancelled
    refine Untold.trans ?_ (ih _)
    unfold endCancelled
    exact Untold.ite ((queueNotice_untold _ s).trans (freeSlot_untold _ _)) (Untold.refl s)

theorem markAll_untold (l : List Order) (s : State) : Untold s (markAll l s) := by
  induction l generalizing s with
  | nil => exact Untold.refl s
  | cons o os ih =>
    refine Untold.trans ?_ (ih (markLoadedFor o s))
    rcases markLoadedFor_cases o s with ⟨-, he⟩ | ⟨p, -, he⟩ <;> rw [he]
    · exact Untold.refl s
    · unfold runMarked
      have hcomp : Untold s (updComp p.1.truck p.2.1 (fun c => { c with state := .loaded, here := true }) s) :=
        Untold.same rfl rfl
      exact (hcomp.trans (queueFrame_untold _ _)).trans (completeRun_untold o.id _)

theorem recomputeWaits_untold (s : State) : Untold s (recomputeWaits s) := by
  refine Untold.of_kept (fun y hy => ?_) (by rw [recomputeWaits_only])
  obtain ⟨z, hz, hi, -⟩ := recomputeWaits_alike (fun _ => True) s y hy
  exact ⟨z, hz, hi⟩

theorem admitBatch_untold (o : Order) (s : State) : Untold s (admitBatch o s) := by
  refine Untold.of_kept (fun y hy => ?_) (by rw [admitBatch_only])
  have ha : RecordsAlike (fun _ => True) s (admitBatch o s) := by
    unfold admitBatch
    split
    · exact (preempt_alike _ o.id s).of_slots (admitFlush_slots o s)
    · exact ((preempt_alike _ o.id s).trans (afterAdmission_alike trivial _)).of_slots (admitProduct_slots o s)
  obtain ⟨z, hz, hi, -⟩ := ha y hy
  exact ⟨z, hz, hi⟩

theorem admissionAttempt_untold (s : State) : Untold s (admissionAttempt s) := by
  unfold admissionAttempt
  refine Untold.ite ?_ (Untold.refl s)
  dsimp only
  split
  · exact (recomputeWaits_untold s).trans (admitBatch_untold _ _)
  · exact recomputeWaits_untold s

theorem makeUps_untold (s : State) : Untold s (makeUps s) := by
  unfold makeUps
  exact Untold.of_cancelledFrom (makeUpAll_cancelledFrom _ s) (by rw [makeUpAll_only])

theorem passBook_untold (s : State) : Untold s (passBook s) := by
  have h1 : Untold s (watchStep s) := Untold.same (by rw [watchStep_only]) (by rw [watchStep_only])
  have h2 : Untold s (makeUps (markLoaded (freeCancelled (watchStep s)))) :=
    ((h1.trans (endAllCancelled_untold _ _)).trans (markAll_untold _ _)).trans (makeUps_untold _)
  have h3 := h2.trans (admissionAttempt_untold _)
  unfold passBook
  exact h3.trans (Untold.same (by rw [beginRemainder_only, beginBucketDischarge_only])
    (by rw [beginRemainder_only, beginBucketDischarge_only]))

/-! ### The close of an event -/

theorem unbarStages_untold (s : State) : Untold s (unbarStages s) :=
  Untold.same (by rw [unbarStages_only]) (by rw [unbarStages_only])

theorem watchPermission_untold (s : State) : Untold s (watchPermission s) :=
  Untold.same (by rw [watchPermission_only]) (by rw [watchPermission_only])

theorem beginJogPulse_untold (s : State) : Untold s (beginJogPulse s) :=
  Untold.same (by rw [beginJogPulse_only]) (by rw [beginJogPulse_only])

theorem beginBaggerPulse_untold (s : State) : Untold s (beginBaggerPulse s) :=
  Untold.same (by rw [beginBaggerPulse_only]) (by rw [beginBaggerPulse_only])

theorem beginPress_untold (s : State) : Untold s (beginPress s) :=
  Untold.same (by rw [beginPress_only]) (by rw [beginPress_only])

theorem beginDischargeMixer_untold (s : State) : Untold s (beginDischargeMixer s) :=
  Untold.same (by rw [beginDischargeMixer_only]) (by rw [beginDischargeMixer_only])

theorem beginGrind_untold (s : State) : Untold s (beginGrind s) :=
  Untold.same (by rw [beginGrind_only]) (by rw [beginGrind_only])

theorem beginDischarge_untold (s : State) : Untold s (beginDischarge s) :=
  Untold.same (by rw [beginDischarge_only]) (by rw [beginDischarge_only])

theorem passLine_untold (s : State) : Untold s (passLine s) := by
  have hbars := (unbarStages_untold s).trans (watchPermission_untold _)
  have hpulses := (hbars.trans (beginJogPulse_untold _)).trans (beginBaggerPulse_untold _)
  have hmoves := (hpulses.trans (beginPress_untold _)).trans (beginDischargeMixer_untold _)
  exact (hmoves.trans (beginGrind_untold _)).trans (beginDischarge_untold _)

theorem followLoops_untold (s : State) : Untold s (followLoops s) := Untold.same rfl rfl

theorem timers_untold (s : State) : Untold s (timers s) := Untold.same rfl rfl

theorem pass_untold (s : State) : Untold s (pass s) := by
  unfold pass
  exact ((passLine_untold s).trans (passBook_untold _)).trans (followLoops_untold _)

/-- The state in which an event tells the next order again. -/
@[irreducible] def retellReady (u : State) : State := timers (quiesced u)

theorem retellReady_untold (u : State) : Untold u (retellReady u) := by
  have hr : Untold u (rounds u) := by
    unfold rounds
    exact ((pass_untold u).trans (pass_untold _)).trans (pass_untold _)
  have hq : Untold (rounds u) (quiesced u) := by
    unfold quiesced
    generalize rounds u = v
    refine Untold.same ?_ ?_ <;> rw [pauseReports_only, takeBay_only, abandonBay_only]
  unfold retellReady
  exact (hr.trans hq).trans (timers_untold _)

theorem settled_retold (s u : State) : (settled s u).slots = (retellReady u).slots
    ∧ (settled s u).reannounce = (reannounce (retellReady u)).reannounce
    ∧ (settled s u).tx = (reannounce (retellReady u)).tx := by
  have hs : (settled s u).slots = (close u).slots ∧ (settled s u).reannounce = (close u).reannounce
    ∧ (settled s u).tx = (close u).tx := ⟨rfl, rfl, rfl⟩
  have hc : close u = drive (reannounce (retellReady u)) := by
    unfold retellReady
    exact close_eq u
  obtain ⟨h1, h2, h3⟩ := hs
  rw [h1, h2, h3, hc, drive_only]
  refine ⟨?_, rfl, rfl⟩
  rw [reannounce_only]

theorem reannounce_waits {s : State} (h : s.reannounce = [] ∨ 8 ≤ s.tx.length) : reannounce s = s := by
  unfold reannounce
  split
  · rfl
  · rename_i id ids he
    rcases h with h | h
    · rw [he] at h
      cases h
    · exact if_neg (by omega)

theorem reannounce_tells {s : State} {id : Nat} {ids : List Nat} (h : s.reannounce = id :: ids) (hr : s.tx.length < 8) :
    reannounce s = match findOrder id s with
      | some o => queueFrame (.take id o.lead o.started) { s with reannounce := ids }
      | none => { s with reannounce := ids } := by
  unfold reannounce
  rw [h]
  exact if_pos hr

theorem queueFrame_room (b : Body) {s : State} (h : s.tx.length < 8) :
    queueFrame b s = { s with tx := s.tx ++ [OutEntry.fresh b] } := by
  have hr : hasRoom b s = true := by rw [hasRoom, decide_eq_true h, Bool.true_or]
  unfold queueFrame pushFrame
  rw [if_pos hr, if_pos h]

end Sys2Proof.Machine
end

