-- ==== Sys2Proof/Proofs/ResetKeeps.lean ====
section
namespace Sys2Proof.Machine

/-! ### What a reset keeps of the book and the bins (R24, R61) -/

section Reset
variable (inputs : Inputs) (s : State)

theorem resetBook_slots (hn : (s.slots.map Order.id).Nodup) : (resetBook s).slots = keptOrders s :=
  freeAll_dropped (s := warmBins (resetStart s)) hn

theorem warmReset_slots (hn : (s.slots.map Order.id).Nodup) :
    (warmReset inputs s).slots = (keptOrders s).map (Order.warm (pipeline s)) := by
  obtain ⟨faults, tx, h⟩ := warmReset_only inputs s
  rw [h]
  unfold resetBlocks
  rw [warmOrders_eq, resetBook_slots s hn]
  rfl

theorem warmReset_reannounce (hn : (s.slots.map Order.id).Nodup) : ∃ l : List Order, l.Perm (keptOrders s)
    ∧ (warmReset inputs s).reannounce = l.map Order.id
    ∧ l.Pairwise (fun a b => a.takeOrder.getD 0 ≤ b.takeOrder.getD 0) := by
  refine ⟨byTake (keptOrders s), sortBy_perm _ _, ?_, byTake_sorted _⟩
  obtain ⟨faults, tx, h⟩ := warmReset_only inputs s
  rw [h, ← byTake_warm (pipeline s)]
  unfold resetBlocks
  rw [warmOrders_eq, resetBook_slots s hn]
  rfl

theorem warmReset_releases (hn : (s.slots.map Order.id).Nodup) (ha : Apart s.reservations) :
    Releases (s.slots.filter (fun o => decide (o.state = .claiming) || o.cancelled)) s.reservations
      (warmReset inputs s).reservations := by
  have hr : (warmReset inputs s).reservations = (resetBook s).reservations := by
    obtain ⟨faults, tx, h⟩ := warmReset_only inputs s
    rw [h]
    unfold resetBlocks
    rw [warmOrders_eq]
    rfl
  rw [hr]
  exact freeAll_releases (s := warmBins (resetStart s)) ha ((List.filter_sublist.map _).nodup hn)
    (fun o ho => findOrder_of_mem hn (List.mem_filter.1 ho).1)

theorem warmReset_bins : (warmReset inputs s).bins
    = s.bins.map (fun e => if (drawnBins s).contains e.bin then { e with uncertain := true } else e) := by
  obtain ⟨faults, tx, h⟩ := warmReset_only inputs s
  rw [h]
  unfold resetBlocks
  rw [warmOrders_eq]
  rfl

/-- R61: the bins of drawing entries gain UNCERTAIN. -/
theorem warmReset_bin {i : Nat} {b : BinEntry} (hb : s.bins[i]? = some b) :
    ((∃ p, s.plan = some p ∧ ∃ e ∈ p.entries, e.status = .drawing ∧ e.bin = b.bin) →
        (warmReset inputs s).bins[i]? = some { b with uncertain := true })
      ∧ ((¬∃ p, s.plan = some p ∧ ∃ e ∈ p.entries, e.status = .drawing ∧ e.bin = b.bin) →
        (warmReset inputs s).bins[i]? = some b) := by
  rw [warmReset_bins, List.getElem?_map, hb, Option.map_some, ← mem_drawnBins]
  exact ⟨fun h => by rw [if_pos h], fun h => by rw [if_neg h]⟩

/-- R206: what stands of the rest of the node, block by block. -/
theorem warmReset_rest : ∃ S R A faults tx, warmReset inputs s =
    { resetStart s with
      slots := S, reservations := R, reannounce := A, faults := faults, tx := tx, plan := none
      bins := s.bins.map (fun e => if (drawnBins s).contains e.bin then { e with uncertain := true } else e)
      scale := { Scale.blank with state := if scaleUnknown s then .unknown else .idle }
      scaleConv := s.scaleConv.warm
      channels := s.channels.map (fun c => { c with output := .off })
      surge := s.surge.warm, mixer := s.mixer.warm, press := s.press.warm
      train := { Train.blank with steam := { Steam.blank with target := s.train.steam.target } }
      fin := s.fin.warm, finConv := s.finConv.warm
      bagger := { Bagger.blank with
        inFlight := s.bagger.inFlight
        bucket := if bucketUnknown s.bagger then .unknown false else .empty
        spout := warmSpout inputs.bagClamp s.bagger.spout }
      bucketConv := s.bucketConv.warm
      hold := OwnHold.blank, step := none, stepTimer := .stopped
      bays := s.bays.map (BayTimer.warm s.straps.node)
      line := firstLine inputs.stopLine, reports := Reports.blank, inputs := inputs } := by
  obtain ⟨faults, tx, h⟩ := warmReset_only inputs s
  refine ⟨(warmReset inputs s).slots, (warmReset inputs s).reservations, (warmReset inputs s).reannounce, faults, tx, ?_⟩
  rw [h]
  unfold resetBlocks
  rw [warmOrders_eq]
  rfl

end Reset

theorem bucketUnknown_iff (b : Bagger) : bucketUnknown b = true ↔
    b.charge.isSome ∨ b.bucket ∈ [.discharging, .unknown false, .unknown true] := by
  simp [bucketUnknown, or_assoc]

theorem scaleUnknown_iff (s : State) : scaleUnknown s = true ↔ s.scale.batch.isSome ∨ s.scale.state = .dumping
    ∨ s.scale.state = .unknown ∨ (s.scale.state = .held ∧ s.scale.resume = some .unknown) := by
  simp [scaleUnknown, or_assoc]

/-! ### What a reset reports lost (R189) -/

theorem losesCharge_eq (s : State) :
    losesCharge s = (s.bagger.charge.isSome || decide (s.bagger.spout = .receiving)) := rfl

section Told
variable {inputs : Inputs} {s : State}

/-- R189: nothing was lost. -/
theorem warmReset_quiet (h : (!(pipeline s).isEmpty || losesCharge s || s.step.isSome) = false) :
    (warmReset inputs s).faults = s.faults ∧ (warmReset inputs s).tx.map OutEntry.body
      = [.notice (.lineState (firstLine inputs.stopLine) .reset)] := by
  obtain ⟨hf, ht, -⟩ := resetBlocks_told inputs s
  have hr : raiseUnaccounted (pipeline s) (losesCharge s) s.step.isSome (resetBlocks inputs s) = resetBlocks inputs s := by
    unfold raiseUnaccounted
    rw [h]
    rfl
  obtain ⟨h1, h2⟩ := warmLine_told inputs (s := resetBlocks inputs s) (by rw [ht]; decide)
  rw [warmReset_eq, hr, h1, h2, ht]
  exact ⟨hf, rfl⟩

/-- R189: what was lost is told by UNACCOUNTED, ahead of the line's state. -/
theorem warmReset_unaccounted (h : (!(pipeline s).isEmpty || losesCharge s || s.step.isSome) = true) :
    (warmReset inputs s).faults = bumpFault .unaccounted ((pipeline s).head?.map Batch.number) s.millTime s.faults
      ∧ ∃ r, r ∈ (warmReset inputs s).faults ∧ r.key = .unaccounted ∧ r.acked = false
        ∧ (warmReset inputs s).tx.map OutEntry.body
          = [.notice (.fault r [.word (pipeline s).length, .byte (losesCharge s).toNat, .byte s.step.isSome.toNat]),
            .notice (.lineState (firstLine inputs.stopLine) .reset)] := by
  obtain ⟨hf, ht, hm⟩ := resetBlocks_told inputs s
  generalize hd : [DetailField.word (pipeline s).length, .byte (losesCharge s).toNat, .byte s.step.isSome.toNat] = detail
  have hr : raiseUnaccounted (pipeline s) (losesCharge s) s.step.isSome (resetBlocks inputs s)
      = raiseFault .unaccounted ((pipeline s).head?.map Batch.number) detail (resetBlocks inputs s) := by
    unfold raiseUnaccounted
    rw [if_pos h, hd]
  have htx := raiseFault_tx .unaccounted ((pipeline s).head?.map Batch.number) detail (s := resetBlocks inputs s)
    (by rw [ht]; decide)
  rw [ht, hf, hm] at htx
  obtain ⟨h1, h2⟩ := warmLine_told inputs (s := raiseFault .unaccounted ((pipeline s).head?.map Batch.number) detail
    (resetBlocks inputs s)) (by rw [htx]; simp)
  rw [warmReset_eq, hr, h1, h2, htx, raiseFault_faults, hf, hm]
  have hrec := recordOf_bumpFault .unaccounted ((pipeline s).head?.map Batch.number) s.millTime s.faults
  exact ⟨rfl, _, bumpFault_mem _ _ _ _, recordOf_key hrec, raisedRecord_acked _ _ _ _, rfl⟩

end Told

/-! ### The obligation -/

/-- Settles O8, by the blocks of the reset in turn, and by the orders that leave the list of those to be told again. -/
theorem warmResetKeepsAndClears : Obligations.WarmResetKeepsAndClears := by
  unfold Obligations.WarmResetKeepsAndClears
  refine ⟨fun inputs s hp hn => ?_, fun inputs s hp => ?_, fun s u t ht => ?_⟩
  · have hslots := warmReset_slots inputs s hn
    rw [List.map_congr_left (fun o _ => warm_eq (pipeline s) o)] at hslots
    refine ⟨warmReset inputs s, becomes_warmReset hp, ?_, hslots, warmReset_reannounce inputs s hn, ?_,
      ⟨by rw [warmReset_bins, List.length_map], fun i b hb => warmReset_bin inputs s hb⟩,
      warmReset_releases inputs s hn, ?_⟩
    · obtain ⟨S, R, A, faults, tx, h⟩ := warmReset_rest inputs s
      rw [h]
      exact ⟨hp, rfl, rfl, rfl, rfl, rfl, rfl⟩
    · obtain ⟨S, R, A, faults, tx, h⟩ := warmReset_rest inputs s
      rw [h]
      exact ⟨rfl, rfl, rfl⟩
    · obtain ⟨S, R, A, faults, tx, h⟩ := warmReset_rest inputs s
      rw [h]
      refine ⟨⟨rfl, rfl, rfl, rfl⟩, if_congr (scaleUnknown_iff s) rfl rfl, ⟨rfl, rfl, rfl⟩, rfl, rfl, rfl, rfl, fun i => ?_,
        rfl, ⟨rfl, rfl, rfl, rfl, rfl, rfl⟩, ⟨rfl, rfl, rfl, rfl, if_congr (bucketUnknown_iff s.bagger) rfl rfl, rfl⟩,
        rfl, rfl, rfl, rfl, rfl, rfl⟩
      cases i <;> exact (apply_ite StageRec.ofState _ _ _).symm
  · refine ⟨warmReset inputs s, becomes_warmReset hp, fun ⟨h1, h2, h3⟩ => ?_, fun h => ?_⟩
    · refine warmReset_quiet ?_
      rw [h1, losesCharge_eq, h2, h3]
      rfl
    · refine warmReset_unaccounted ?_
      rw [losesCharge_eq]
      rcases h with h | h | h
      · simp [h]
      · rw [h]
        simp
      · simp [Option.isSome_iff_ne_none.2 h]
  · obtain ⟨h1, h2, h3⟩ := settled_retold s u
    have hu := retellReady_untold u
    rw [ht]
    refine ⟨retellReady u, h1, hu.list, fun id hi hn => List.find?_eq_none.2 (fun y hy => by simpa using hu.gone id hi hn y hy),
      fun h => ?_, fun id ids hids hroom => ?_⟩
    · rw [h2, h3, reannounce_waits h]
      exact ⟨rfl, rfl⟩
    · rw [h2, h3, reannounce_tells hids hroom]
      refine ⟨?_, fun hf => by rw [hf], fun o hf => ?_⟩
      · split
        · rw [queueFrame_only]
        · rfl
      · rw [hf]
        exact congrArg State.tx (queueFrame_room _ (s := { retellReady u with reannounce := ids }) hroom)

end Sys2Proof.Machine
end

