-- ==== Sys2Proof/Proofs/ClaimWindows.lean ====
section
/-! SUPPORT. R34, R162: the end of a claim window, and the compartments tested when an order is taken. -/
namespace Sys2Proof.Machine

/-! ### Compartments under their trucks' and their own numbers (R162) -/

theorem setComp_same {n : Nat} (hn : n ≠ 0) (f : Compartment → Compartment) (t : Truck) :
    ({ t with comps := setComp n f t.comps } : Truck).comp n = (t.comp n).map f := by
  unfold Truck.comp setComp
  rw [if_neg hn, if_neg hn, List.getElem?_modify]
  simp

theorem setComp_other {n k : Nat} (hn : n ≠ 0) (h : k ≠ n) (f : Compartment → Compartment) (t : Truck) :
    ({ t with comps := setComp n f t.comps } : Truck).comp k = t.comp k := by
  unfold Truck.comp setComp
  split
  · rfl
  · have hne : n - 1 ≠ k - 1 := by omega
    rw [List.getElem?_modify]
    simp [hne]

theorem findTruck_updComp (i truck n : Nat) (f : Compartment → Compartment) (s : State) :
    findTruck i (updComp truck n f s) = (findTruck i s).map
      (fun t => if t.truck = truck then { t with comps := setComp n f t.comps } else t) := by
  unfold findTruck updComp
  rw [List.find?_map]
  congr 2
  funext t
  simp only [Function.comp]
  split <;> rfl

theorem findTruck_number {i : Nat} {s : State} {t : Truck} (h : findTruck i s = some t) : t.truck = i := by
  simpa using List.find?_some h

/-- The compartment updated, and the others. -/
theorem findComp_updComp {n : Nat} (hn : n ≠ 0) (i k truck : Nat) (f : Compartment → Compartment) (s : State) :
    findComp i k (updComp truck n f s)
      = (findComp i k s).map (fun c => if truck = i ∧ n = k then f c else c) := by
  unfold findComp
  rw [findTruck_updComp]
  cases ht : findTruck i s with
  | none => rfl
  | some t =>
    have hnum := findTruck_number ht
    rw [Option.map_some, Option.bind_some, Option.bind_some]
    by_cases htr : truck = i
    · rw [if_pos (hnum.trans htr.symm)]
      by_cases hk : n = k
      · rw [← hk, setComp_same hn]
        simp [htr]
      · rw [setComp_other hn (Ne.symm hk)]
        simp [hk]
    · rw [if_neg (fun h => htr (h.symm.trans hnum))]
      simp [htr]

/-! ### The tests of R162 -/

theorem testRefusal_only (truck number : Nat) (c : Compartment) (s : State) : testRefusal truck number c s =
    { s with trucks := (testRefusal truck number c s).trucks, faults := (testRefusal truck number c s).faults
             tx := (testRefusal truck number c s).tx } := by
  unfold testRefusal
  dsimp only
  split
  · rw [raiseFault_only]
    rfl
  · rfl

theorem testRefusals_only (l : List Spot) (s : State) : testRefusals l s =
    { s with trucks := (testRefusals l s).trucks, faults := (testRefusals l s).faults
             tx := (testRefusals l s).tx } := by
  induction l generalizing s with
  | nil => rfl
  | cons p ps ih =>
    unfold testRefusals
    rw [ih, testRefusal_only]

theorem testRefusal_findComp {n : Nat} (hn : n ≠ 0) (i k truck : Nat) (c : Compartment) (s : State) :
    findComp i k (testRefusal truck n c s) = (findComp i k s).map
      (fun x => if truck = i ∧ n = k then { x with refused := refusesComp c s } else x) := by
  have h : findComp i k (testRefusal truck n c s)
      = findComp i k (updComp truck n (fun x => { x with refused := refusesComp c s }) s) := by
    unfold testRefusal
    dsimp only
    split
    · rw [raiseFault_only]
      rfl
    · rfl
  rw [h, findComp_updComp hn]

theorem refusesComp_congr {s u : State} (h : u.slots = s.slots) (c : Compartment) : refusesComp c u = refusesComp c s := by
  unfold refusesComp
  simp only [findOrder_congr h]

/-- R162: a compartment's refusal after the tests is the test's answer, where it was tested. -/
theorem testRefusals_findComp {i k : Nat} {r : Bool} {l : List Spot} {s : State} (h0 : ∀ p ∈ l, p.2.1 ≠ 0)
    (h : ∀ p ∈ l, p.1.truck = i → p.2.1 = k → refusesComp p.2.2 s = r) :
    findComp i k (testRefusals l s) = (findComp i k s).map
      (fun x => if ∃ p ∈ l, p.1.truck = i ∧ p.2.1 = k then { x with refused := r } else x) := by
  induction l generalizing s with
  | nil =>
    unfold testRefusals
    simp
  | cons p ps ih =>
    have hslots : (testRefusal p.1.truck p.2.1 p.2.2 s).slots = s.slots := by rw [testRefusal_only]
    have ih := ih (s := testRefusal p.1.truck p.2.1 p.2.2 s) (fun q hq => h0 q (List.mem_cons_of_mem _ hq))
      (fun q hq h1 h2 => (refusesComp_congr hslots _).trans (h q (List.mem_cons_of_mem _ hq) h1 h2))
    unfold testRefusals
    rw [ih, testRefusal_findComp (h0 p List.mem_cons_self), Option.map_map]
    congr 1
    funext x
    simp only [Function.comp, List.exists_mem_cons_iff]
    by_cases hp : p.1.truck = i ∧ p.2.1 = k
    · rw [h p List.mem_cons_self hp.1 hp.2]
      simp [hp]
    · simp only [hp, if_false, false_or]

/-! #### COMPARTMENT_SMALL -/

theorem standing_iff (k : FaultKey) (s : State) :
    standing k s = true ↔ ∃ r ∈ s.faults, r.key = k ∧ r.acked = false := by
  simp [standing]

theorem raiseFault_standing (k : FaultKey) (reference : Option Nat) (detail : List DetailField) (s : State) :
    standing k (raiseFault k reference detail s) = true := by
  obtain ⟨r, hr, hk, ha, -⟩ := raiseFault_raised k reference detail s
  exact (standing_iff k _).2 ⟨r, hr, hk, ha⟩

theorem bumpFault_mem_of_other {j : FaultKey} {reference now : Option Nat} {rs : List FaultRecord} {r : FaultRecord}
    (hr : r ∈ rs) (hk : r.key ≠ j) : r ∈ bumpFault j reference now rs := by
  induction rs with
  | nil => cases hr
  | cons x xs ih =>
    unfold bumpFault
    split
    · rename_i hx
      rcases List.mem_cons.1 hr with rfl | hr
      · exact absurd hx hk
      · exact List.mem_cons_of_mem _ hr
    · rcases List.mem_cons.1 hr with rfl | hr
      · exact List.mem_cons_self
      · exact List.mem_cons_of_mem _ (ih hr)

/-- A fault that stands goes on standing under raises. -/
theorem standing_raiseFault {k : FaultKey} {s : State} (h : standing k s = true) (j : FaultKey) (reference : Option Nat)
    (detail : List DetailField) : standing k (raiseFault j reference detail s) = true := by
  by_cases hj : j = k
  · rw [hj]
    exact raiseFault_standing k reference detail s
  · obtain ⟨r, hr, hk, ha⟩ := (standing_iff k s).1 h
    refine (standing_iff k _).2 ⟨r, ?_, hk, ha⟩
    rw [raiseFault_faults]
    exact bumpFault_mem_of_other hr (fun he => hj (he.symm.trans hk))

theorem testRefusal_standing {k : FaultKey} {s : State} (h : standing k s = true) (truck number : Nat) (c : Compartment) :
    standing k (testRefusal truck number c s) = true := by
  unfold testRefusal
  dsimp only
  split
  · exact standing_raiseFault (s := updComp truck number _ s) h _ _ _
  · exact h

theorem testRefusals_standing {k : FaultKey} {s : State} (h : standing k s = true) (l : List Spot) :
    standing k (testRefusals l s) = true := by
  induction l generalizing s with
  | nil => exact h
  | cons p ps ih => exact ih (testRefusal_standing h _ _ _)

/-- R162: a compartment newly refused raises the fault. -/
theorem testRefusals_raises {l : List Spot} {s : State} {p : Spot} (hp : p ∈ l) (hr : refusesComp p.2.2 s = true)
    (hn : p.2.2.refused = false) : standing .compartmentSmall (testRefusals l s) = true := by
  induction l generalizing s with
  | nil => cases hp
  | cons q qs ih =>
    have hslots : (testRefusal q.1.truck q.2.1 q.2.2 s).slots = s.slots := by rw [testRefusal_only]
    unfold testRefusals
    rcases List.mem_cons.1 hp with rfl | hp
    · refine testRefusals_standing ?_ qs
      unfold testRefusal
      dsimp only
      rw [if_pos ⟨hr, by simp [hn]⟩]
      exact raiseFault_standing _ _ _ _
    · exact ih hp ((refusesComp_congr hslots _).trans hr)

theorem testRefusals_txExtends (l : List Spot) (s : State) : ∃ rest, (testRefusals l s).tx = s.tx ++ rest := by
  induction l generalizing s with
  | nil => exact ⟨[], (List.append_nil _).symm⟩
  | cons p ps ih =>
    obtain ⟨rest, hrest⟩ := ih (testRefusal p.1.truck p.2.1 p.2.2 s)
    have h1 : ∃ r1, (testRefusal p.1.truck p.2.1 p.2.2 s).tx = s.tx ++ r1 := by
      unfold testRefusal
      dsimp only
      split
      · exact raiseFault_txExtends _ _ _ (updComp p.1.truck p.2.1 _ s)
      · exact ⟨[], (List.append_nil _).symm⟩
    obtain ⟨r1, h1⟩ := h1
    unfold testRefusals
    exact ⟨r1 ++ rest, by rw [hrest, h1, List.append_assoc]⟩

/-! ### The order taken (R2, R34) -/

/-- R2, R34: an order as taken, less what it reserves. -/
def Order.taking (takeOrder size : Nat) (o : Order) : Order :=
  { o with state := .held, takeOrder := some takeOrder, waits := Waits.none, claimTimer := .stopped
           plan := { o.plan with n := some (splitCount o.runMass size) } }

/-- R2: the book with the order taken, before its run is reserved. -/
def takeUp (id : Nat) (s : State) : State :=
  updOrder id (Order.taking (renumber s).takeCounter s.params.batchSize)
    { renumber s with takeCounter := (renumber s).takeCounter + 1 }

theorem winOrder_eq (id : Nat) (s : State) : winOrder id s = match findOrder id (reserveRun id (takeUp id s)) with
    | some o => refuseComps (fun c => decide (c.order = some id))
        (queueFrame (.take id o.lead false) (reserveRun id (takeUp id s)))
    | none => reserveRun id (takeUp id s) := rfl

theorem renumber_only (s : State) :
    renumber s = { s with slots := (renumber s).slots, takeCounter := (renumber s).takeCounter } := by
  unfold renumber
  split <;> rfl

theorem renumber_room {s : State} (h : s.takeCounter < 65535) : renumber s = s := by
  unfold renumber
  rw [if_pos h]

theorem findOrder_renumber {id : Nat} {s : State} {o : Order} (h : findOrder id s = some o) :
    ∃ t, findOrder id (renumber s) = some { o with takeOrder := t } := by
  unfold renumber
  split
  · exact ⟨o.takeOrder, h⟩
  · exact ⟨_, (findOrder_map (f := fun o => { o with takeOrder := o.takeOrder.map _ }) (fun _ => rfl) id s).trans
      (congrArg (Option.map _) h)⟩

section Taken
variable {s : State} {o : Order} (ho : findOrder o.id s = some o)
include ho

theorem findOrder_takeUp : findOrder o.id (takeUp o.id s)
    = some (Order.taking (renumber s).takeCounter s.params.batchSize o) := by
  obtain ⟨t, ht⟩ := findOrder_renumber ho
  have h := findOrder_updOrder_self (f := Order.taking (renumber s).takeCounter s.params.batchSize) (fun _ => rfl)
    (s := { renumber s with takeCounter := (renumber s).takeCounter + 1 }) (o := { o with takeOrder := t }) ht
  exact h

end Taken

theorem takeUp_reservations (id : Nat) (s : State) : (takeUp id s).reservations = s.reservations := by
  show (renumber s).reservations = _
  rw [renumber_only]

theorem takeUp_trucks (id : Nat) (s : State) : (takeUp id s).trucks = s.trucks := by
  show (renumber s).trucks = _
  rw [renumber_only]

theorem takeUp_tx (id : Nat) (s : State) : (takeUp id s).tx = s.tx := by
  show (renumber s).tx = _
  rw [renumber_only]

/-- R34: the order taken, its take told and its compartments to be tested. -/
theorem winOrder_taken {s : State} {o : Order} (ho : findOrder o.id s = some o) (hf : (o.formula.map Component.code).Nodup) :
    ∃ rem, let v := queueFrame (.take o.id o.lead false) (reserveRun o.id (takeUp o.id s))
      winOrder o.id s = refuseComps (fun c => decide (c.order = some o.id)) v
      ∧ findOrder o.id v = some { Order.taking (renumber s).takeCounter s.params.batchSize o with remainders := rem }
      ∧ Reserves (machineParts o.runMass o.formula) s.reservations v.reservations rem
      ∧ v.trucks = s.trucks ∧ v.takeCounter = (renumber s).takeCounter + 1 := by
  obtain ⟨rem, hw, hres⟩ := reserveRun_reserves (findOrder_takeUp ho) hf
  rw [takeUp_reservations] at hres
  refine ⟨rem, ?_, ?_, ?_, ?_, ?_⟩
  · rw [winOrder_eq, hw]
    rfl
  · rw [queueFrame_only]
    exact hw
  · rw [queueFrame_only]
    exact hres
  · rw [queueFrame_only, reserveRun_only]
    exact takeUp_trucks o.id s
  · rw [queueFrame_only, reserveRun_only]
    rfl

theorem refuseComps_slots (p : Compartment → Bool) (s : State) : (refuseComps p s).slots = s.slots
    ∧ (refuseComps p s).reservations = s.reservations ∧ (refuseComps p s).takeCounter = s.takeCounter := by
  unfold refuseComps
  rw [testRefusals_only]
  exact ⟨rfl, rfl, rfl⟩

/-- R162: the compartments of the order tested against its run. -/
theorem refuseComps_order {v : State} {w : Order} {id : Nat} (hw : findOrder id v = some w)
    (hk : (v.trucks.map Truck.truck).Nodup) {t : Truck} (ht : t ∈ v.trucks) {k : Nat} {c : Compartment}
    (hc : t.comp k = some c) : findComp t.truck k (refuseComps (fun c => decide (c.order = some id)) v) =
      some { c with refused := if c.order = some id then decide (c.capacity < w.runMass) else c.refused } := by
  have hmem : ∀ p : Spot, p ∈ (allComps v).filter (fun q => decide (q.2.2.order = some id)) ↔
      p.of v ∧ p.2.2.order = some id := fun p => by
    rw [List.mem_filter, mem_allComps, decide_eq_true_iff]
  have htruck : findTruck t.truck v = some t := by
    cases hf : findTruck t.truck v with
    | none => exact absurd (decide_eq_true rfl) (List.find?_eq_none.1 hf t ht)
    | some y => rw [List.inj_on_of_nodup_map hk (List.mem_of_find?_eq_some hf) ht (findTruck_number hf)]
  have hfind : findComp t.truck k v = some c := by
    unfold findComp
    rw [htruck, Option.bind_some, hc]
  have hspot : ∀ p : Spot, p.of v → p.1.truck = t.truck → p.2.1 = k → p.2.2 = c := fun p hp h1 h2 => by
    have he : p.1 = t := List.inj_on_of_nodup_map hk hp.1 ht h1
    have hpc := hp.2
    rw [he, h2, hc] at hpc
    exact (Option.some.inj hpc).symm
  unfold refuseComps
  rw [testRefusals_findComp (r := decide (c.capacity < w.runMass)) (fun p hp h0 => ?_) (fun p hp h1 h2 => ?_), hfind,
    Option.map_some]
  · have hiff : (∃ p ∈ (allComps v).filter (fun q => decide (q.2.2.order = some id)), p.1.truck = t.truck ∧ p.2.1 = k)
        ↔ c.order = some id := by
      constructor
      · rintro ⟨p, hp, h1, h2⟩
        obtain ⟨hof, hpo⟩ := (hmem p).1 hp
        rwa [hspot p hof h1 h2] at hpo
      · exact fun h => ⟨(t, k, c), (hmem (t, k, c)).2 ⟨⟨ht, hc⟩, h⟩, rfl, rfl⟩
    by_cases h : c.order = some id
    · rw [if_pos (hiff.2 h), if_pos h]
    · rw [if_neg (fun h' => h (hiff.1 h')), if_neg h]
  · obtain ⟨⟨-, hpc⟩, -⟩ := (hmem p).1 hp
    rw [h0] at hpc
    cases hpc
  · obtain ⟨hof, hpo⟩ := (hmem p).1 hp
    have he := hspot p hof h1 h2
    rw [he] at hpo ⊢
    unfold refusesComp
    rw [hpo, Option.bind_some, hw]

theorem refuseComps_raises {v : State} {w : Order} {id : Nat} (hw : findOrder id v = some w) {t : Truck} (ht : t ∈ v.trucks)
    {c : Compartment} (hc : c ∈ t.comps) (hid : c.order = some id) (hcap : c.capacity < w.runMass) (hn : c.refused = false) :
    standing .compartmentSmall (refuseComps (fun c => decide (c.order = some id)) v) = true := by
  obtain ⟨i, hi⟩ := List.mem_iff_getElem?.1 hc
  have hof : Spot.of (t, i + 1, c) v := ⟨ht, by simpa [Truck.comp] using hi⟩
  unfold refuseComps
  refine testRefusals_raises (p := (t, i + 1, c)) (List.mem_filter.2 ⟨(mem_allComps _ v).2 hof, decide_eq_true hid⟩) ?_ hn
  unfold refusesComp
  rw [hid, Option.bind_some, hw]
  exact decide_eq_true hcap

theorem slots_updOrder_others (id : Nat) {f : Order → Order} (hf : ∀ o, (f o).id = o.id) (s : State) :
    (updOrder id f s).slots.filter (fun x => decide (x.id ≠ id)) = s.slots.filter (fun x => decide (x.id ≠ id)) := by
  show (s.slots.map _).filter _ = _
  rw [List.filter_map, List.filter_congr (q := fun x => decide (x.id ≠ id))]
  · refine (List.map_congr_left (fun o ho => ?_)).trans (List.map_id' _)
    rw [if_neg (by simpa using (List.mem_filter.1 ho).2)]
  · intro o _
    simp only [Function.comp]
    split
    · rw [hf]
    · rfl

theorem slots_reserveRun_others (id : Nat) (s : State) :
    (reserveRun id s).slots.filter (fun x => decide (x.id ≠ id)) = s.slots.filter (fun x => decide (x.id ≠ id)) := by
  cases ho : findOrder id s with
  | none =>
    unfold reserveRun
    rw [ho]
  | some o =>
    rw [reserveRun_eq ho]
    generalize reserveParts (machineParts o.runMass o.formula) s.reservations = r
    exact slots_updOrder_others id (f := fun x => { x with remainders := r.2 }) (fun _ => rfl) { s with reservations := r.1 }

theorem slots_winOrder_others {s : State} {o : Order} (ho : findOrder o.id s = some o)
    (hf : (o.formula.map Component.code).Nodup) (ht : s.takeCounter < 65535) :
    (winOrder o.id s).slots.filter (fun x => decide (x.id ≠ o.id)) = s.slots.filter (fun x => decide (x.id ≠ o.id)) := by
  obtain ⟨rem, hwin, -⟩ := winOrder_taken ho hf
  rw [hwin, (refuseComps_slots _ _).1, queueFrame_only]
  have h := slots_updOrder_others o.id (f := Order.taking (renumber s).takeCounter s.params.batchSize) (fun _ => rfl)
    { renumber s with takeCounter := (renumber s).takeCounter + 1 }
  refine (slots_reserveRun_others o.id _).trans (h.trans ?_)
  rw [renumber_room ht]

/-! ### The obligation -/

theorem claimWon_iff (o : Order) (s : State) : claimWon o s = true ↔
    ¬∃ r, o.rival = some r ∧ ¬(o.lead < r.lead ∨ (o.lead = r.lead ∧ s.straps.node < r.node)) := by
  unfold claimWon
  cases o.rival with
  | none => simp
  | some r =>
    have h : claimAhead (ownRival o s) r = true ↔ o.lead < r.lead ∨ (o.lead = r.lead ∧ s.straps.node < r.node) :=
      decide_eq_true_iff
    refine h.trans ⟨fun hw ⟨q, hq, hn⟩ => hn (Option.some.inj hq ▸ hw), fun hw => ?_⟩
    by_contra hn
    exact hw ⟨r, rfl, hn⟩

/-- R34: the end of the window of an order that is claimed. -/
theorem becomes_closeWindow {s : State} {o : Order} {full : Nat} (hr : ready s = true) (ho : findOrder o.id s = some o)
    (hc : o.state = .claiming) (ht : o.claimTimer = .running full) :
    Becomes (.claimWindowExpiry o.id) s (closeWindow o s) := by
  have hopen : windowOpen o.id s = true := by
    simp [windowOpen, ho, hc, ht, Timer.isRunning]
  have hbody : (match findOrder o.id s with | some o => closeWindow o s | none => s) = closeWindow o s := by rw [ho]
  unfold Becomes
  rw [← hbody]
  exact event_next (windowOpen o.id s) (fun s => match findOrder o.id s with | some o => closeWindow o s | none => s) s hr
    hopen

/-- Settles O22: a lost claim by the slot it frees, a won one by the order taken and the compartments tested with it. -/
theorem claimWindowDecidesOrder : Obligations.ClaimWindowDecidesOrder := by
  intro s o full hr hk ho hc ht lost
  obtain ⟨-, htrucks, -, hapart, -, hform⟩ := hk
  obtain ⟨rem, hwin, hw, hres, hvt, hcount⟩ := winOrder_taken ho (hform o (findOrder_mem ho).1)
  have hwon : ¬lost → closeWindow o s = refuseComps (fun c => decide (c.order = some o.id))
      (queueFrame (.take o.id o.lead false) (reserveRun o.id (takeUp o.id s))) := fun h => by
    rw [← hwin]
    exact if_pos ((claimWon_iff o s).2 h)
  obtain ⟨hslots, hreserved, htake⟩ := refuseComps_slots (fun c => decide (c.order = some o.id))
    (queueFrame (.take o.id o.lead false) (reserveRun o.id (takeUp o.id s)))
  have hfound := (findOrder_congr hslots o.id).trans hw
  have hothers := fun h => slots_winOrder_others ho (hform o (findOrder_mem ho).1) (s := s) h
  rw [hwin] at hothers
  refine ⟨closeWindow o s, becomes_closeWindow hr ho hc ht, fun h => ?_, fun h => ?_, fun h t htm k c hcomp => ?_,
    fun h => ?_, fun h hroom => ?_, fun h hfull => ?_⟩
  · have hl : closeWindow o s = freeSlot o.id s := if_neg (fun hw' => (claimWon_iff o s).1 hw' h)
    rw [hl]
    refine ⟨freeSlot_slots o.id s, ?_, ?_⟩
    · rw [freeSlot_only]
    · rw [freeSlot_reservations]
      exact releaseReservations_releases hapart ho
  · rw [hwon h]
    exact ⟨_, hfound, hreserved ▸ hres⟩
  · rw [hwon h]
    exact refuseComps_order hw (hvt ▸ htrucks) (hvt ▸ htm) hcomp
  · rintro ⟨t, htm, c, hcm, hid, hcap, hn⟩
    rw [hwon h]
    exact refuseComps_raises hw (hvt ▸ htm) hcm hid hcap hn
  · rw [hwon h]
    rw [renumber_room hroom] at hfound hcount
    refine ⟨_, hfound, rfl, rfl, rfl, rfl, rfl, htake.trans hcount, fun hq => ?_, hothers hroom⟩
    obtain ⟨rest, hrest⟩ := testRefusals_txExtends
      ((allComps (queueFrame (.take o.id o.lead false) (reserveRun o.id (takeUp o.id s)))).filter
        (fun q => decide (q.2.2.order = some o.id)))
      (queueFrame (.take o.id o.lead false) (reserveRun o.id (takeUp o.id s)))
    have htx : (reserveRun o.id (takeUp o.id s)).tx = s.tx := by
      rw [reserveRun_tx, takeUp_tx]
    have hq' : (queueFrame (.take o.id o.lead false) (reserveRun o.id (takeUp o.id s))).tx
        = s.tx ++ [OutEntry.fresh (.take o.id o.lead false)] := by
      rw [queueFrame_room _ (by rwa [htx]), htx]
    unfold refuseComps
    rw [hrest, hq']
    simp
  · have hnum : (renumber s).takeCounter = (s.slots.filter (fun x => x.takeOrder.isSome)).length + 1 := by
      unfold renumber
      rw [if_neg (by omega)]
    rw [hwon h]
    rw [hnum] at hfound hcount
    exact ⟨_, hfound, rfl, rfl, htake.trans hcount⟩

end Sys2Proof.Machine
end

