-- ==== Sys2Proof/Proofs/Offers.lean ====
section
/-! SUPPORT. R25 to R31: the tests an offer passes, each as the law it stands for, and the payload read back. -/
namespace Sys2Proof.Machine

/-! ### The fields of an offer (R25) -/

theorem way_iff (f : OfferFields) (way : Delivery) : f.way = some way ↔
    (f.delivery = 0 ∧ 100 ≤ f.bagSize ∧ f.bagSize ≤ 500 ∧ 1 ≤ f.bags ∧ f.bags ≤ 4000 ∧ way = .bagged f.bagSize f.bags)
      ∨ (f.delivery = 1 ∧ 500 ≤ f.runMass ∧ f.runMass ≤ 150000 ∧ way = .bulk f.runMass) := by
  unfold OfferFields.way
  by_cases h0 : f.delivery = 0
  · rw [if_pos h0, Option.ite_none_right_eq_some, Option.some.injEq]
    constructor
    · rintro ⟨⟨h1, h2, h3, h4⟩, rfl⟩
      exact Or.inl ⟨h0, h1, h2, h3, h4, rfl⟩
    · rintro (⟨-, h1, h2, h3, h4, rfl⟩ | ⟨h1, -⟩)
      · exact ⟨⟨h1, h2, h3, h4⟩, rfl⟩
      · omega
  · rw [if_neg h0]
    by_cases h1 : f.delivery = 1
    · rw [if_pos h1, Option.ite_none_right_eq_some, Option.some.injEq]
      constructor
      · rintro ⟨⟨h2, h3⟩, rfl⟩
        exact Or.inr ⟨h1, h2, h3, rfl⟩
      · rintro (⟨h2, -⟩ | ⟨-, h2, h3, rfl⟩)
        · exact absurd h2 h0
        · exact ⟨⟨h2, h3⟩, rfl⟩
    · rw [if_neg h1]
      simp [h0, h1]

theorem kindOf_iff (f : OfferFields) (form : Form) (target : Option Nat) : f.kindOf = some (form, target) ↔
    (f.form = 0 ∧ form = .mash ∧ target = none)
      ∨ (f.form = 1 ∧ 600 ≤ f.target ∧ f.target ≤ 950 ∧ form = .pellet ∧ target = some f.target) := by
  unfold OfferFields.kindOf
  by_cases h0 : f.form = 0
  · rw [if_pos h0, Option.some.injEq, Prod.mk.injEq]
    constructor
    · rintro ⟨rfl, rfl⟩
      exact Or.inl ⟨h0, rfl, rfl⟩
    · rintro (⟨-, rfl, rfl⟩ | ⟨h1, -⟩)
      · exact ⟨rfl, rfl⟩
      · omega
  · rw [if_neg h0, Option.ite_none_right_eq_some, Option.some.injEq, Prod.mk.injEq]
    constructor
    · rintro ⟨⟨h1, h2, h3⟩, rfl, rfl⟩
      exact Or.inr ⟨h1, h2, h3, rfl, rfl⟩
    · rintro (⟨h1, -⟩ | ⟨h1, h2, h3, rfl, rfl⟩)
      · exact absurd h1 h0
      · exact ⟨⟨h1, h2, h3⟩, rfl, rfl⟩

theorem distinctCodes_iff (l : List Component) : distinctCodes l = true ↔ (l.map Component.code).Nodup := by
  induction l with
  | nil => simp [distinctCodes]
  | cons c cs ih =>
    unfold distinctCodes
    simp [ih]

theorem formulaOk_iff (l : List Component) : formulaOk l = true ↔ 1 ≤ l.length ∧ l.length ≤ 16
    ∧ (∀ c ∈ l, 1 ≤ c.code ∧ c.code ≤ 65535 ∧ 1 ≤ c.share ∧ c.share ≤ 10000) ∧ (l.map Component.code).Nodup
    ∧ (l.map Component.share).sum = 10000 := by
  unfold formulaOk
  simp only [Bool.and_eq_true, decide_eq_true_eq, List.all_eq_true, distinctCodes_iff, and_assoc]

theorem inRange_iff (f : OfferFields) : f.inRange = true ↔ (1 ≤ f.order ∧ f.order ≤ 65535 ∧ f.level ≤ 15 ∧ f.group ≤ 3
    ∧ 1 ≤ f.runCount ∧ f.runCount ≤ 255 ∧ 1 ≤ f.cls ∧ f.cls ≤ 7 ∧ ∀ d, f.departure = some d → d ≤ 1439)
    ∧ 1 ≤ f.formula.length ∧ f.formula.length ≤ 16
    ∧ (∀ c ∈ f.formula, 1 ≤ c.code ∧ c.code ≤ 65535 ∧ 1 ≤ c.share ∧ c.share ≤ 10000)
    ∧ (f.formula.map Component.code).Nodup ∧ (f.formula.map Component.share).sum = 10000 := by
  rw [← formulaOk_iff]
  unfold OfferFields.inRange
  cases f.departure with
  | none => simp [and_assoc]
  | some d => simp [and_assoc]

/-! ### The node and its stock (R26 to R30) -/

theorem nodeFits_iff (id : Nat) (form : Form) (way : Delivery) (runMass : Nat) (s : State) :
    nodeFits id form way runMass s = true ↔ s.slots.length < 24 ∧ findOrder id s = none
      ∧ (form = .mash ∨ s.straps.press = true)
      ∧ ((∀ size bags, way = .bagged size bags → s.straps.bagger = true) ∧ ∀ m, way = .bulk m → s.straps.loadout = true)
      ∧ (splitCount runMass s.params.batchSize = 1 → s.params.minBatch ≤ runMass)
      ∧ standing .addressClash s = false := by
  have hs : (!(decide (splitCount runMass s.params.batchSize = 1) && decide (runMass < s.params.minBatch))) = true
      ↔ (splitCount runMass s.params.batchSize = 1 → s.params.minBatch ≤ runMass) := by
    rw [Bool.not_eq_true', Bool.and_eq_false_iff, decide_eq_false_iff_not, decide_eq_false_iff_not, Nat.not_lt,
      imp_iff_not_or]
  have hid : (!holdsOrder id s) = true ↔ findOrder id s = none := by
    unfold holdsOrder
    rw [Bool.not_eq_true', Option.isSome_eq_false_iff, Option.isNone_iff_eq_none]
  unfold nodeFits
  cases way with
  | bagged size bags =>
    simp only [Bool.and_eq_true, decide_eq_true_eq, Bool.or_eq_true, hs, hid, and_assoc, Delivery.bagged.injEq]
    simp
  | bulk m =>
    simp only [Bool.and_eq_true, decide_eq_true_eq, Bool.or_eq_true, hs, hid, and_assoc, Delivery.bulk.injEq]
    simp

theorem mem_machineParts (c : Planned) (mass : Nat) (formula : List Component) :
    c ∈ machineParts mass formula ↔ c ∈ plannedOf mass formula ∧ c.code < 61440 := by
  unfold machineParts handCode
  rw [List.mem_filter, Bool.not_eq_true', decide_eq_false_iff_not, Nat.not_le]

theorem stockFits_iff (mass : Nat) (formula : List Component) (s : State) : stockFits (machineParts mass formula) s = true ↔
    (∀ c ∈ plannedOf mass formula, c.code < 61440 → c.target ≤ claimAvailability c.code s)
      ∧ ((machineParts mass formula).filter
        (fun c => !s.reservations.any (fun r => decide (r.code = c.code)))).length ≤ 64 - s.reservations.length := by
  unfold stockFits
  simp only [Bool.and_eq_true, decide_eq_true_eq, List.all_eq_true, mem_machineParts, and_imp]

/-- The least of a list is a bound where each of it is. -/
theorem le_foldl_min {ds : List Nat} {d m : Nat} : m ≤ ds.foldl min d ↔ m ≤ d ∧ ∀ x ∈ ds, m ≤ x := by
  induction ds generalizing d with
  | nil => simp
  | cons x xs ih =>
    rw [List.foldl_cons, ih]
    simp [and_assoc]

theorem foldl_min_mem (ds : List Nat) (d : Nat) : ds.foldl min d ∈ d :: ds := by
  induction ds generalizing d with
  | nil => exact List.mem_singleton.2 rfl
  | cons x xs ih =>
    rw [List.foldl_cons]
    rcases List.mem_cons.1 (ih (min d x)) with h | h
    · rw [h]
      rcases min_choice d x with h' | h' <;> rw [h'] <;> simp
    · simp [h]

theorem departureFits_iff (id : Nat) (own : Option Nat) (lead : Nat) (s : State) : departureFits id own lead s = true ↔
    ∀ d ∈ departures id own s, ∃ t, s.millTime = some t ∧ lead ≤ d * 60 - t := by
  have hmono : ∀ (a b t : Nat), a ≤ b → a * 60 - t ≤ b * 60 - t := fun a b t h => by omega
  unfold departureFits effectiveDeparture
  cases departures id own s with
  | nil => simp
  | cons d ds =>
    dsimp only
    cases s.millTime with
    | none =>
      refine ⟨nofun, fun h => ?_⟩
      obtain ⟨t, ht, -⟩ := h d List.mem_cons_self
      cases ht
    | some t =>
      obtain ⟨hd, hds⟩ := le_foldl_min.1 (le_refl (ds.foldl min d))
      have hleast : ∀ x ∈ d :: ds, ds.foldl min d ≤ x := List.forall_mem_cons.2 ⟨hd, hds⟩
      rw [decide_eq_true_iff]
      constructor
      · exact fun h x hx => ⟨t, rfl, le_trans h (hmono _ _ t (hleast x hx))⟩
      · intro h
        obtain ⟨t', ht', hl⟩ := h _ (foldl_min_mem ds d)
        rwa [Option.some.inj ht']

/-! ### The offer taken (R25 to R31) -/

/-- R26 to R30: what an offer of the form and delivery is tested for. -/
structure OfferFits (f : OfferFields) (form : Form) (way : Delivery) (s : State) : Prop where
  range     : f.inRange = true
  node      : nodeFits f.order form way (runMassOf s.params.bagAllowance way) s = true
  stock     : stockFits (machineParts (runMassOf s.params.bagAllowance way) f.formula) s = true
  flush     : offerFlush f.level f.cls form s = 0 ∨ flushSource s = true
  departure : departureFits f.order f.departure
    (leadOf f.level f.cls form (runMassOf s.params.bagAllowance way) s) s = true

/-- R31: the order stored for the offer. -/
def offered (f : OfferFields) (form : Form) (target : Option Nat) (way : Delivery) (s : State) : Order :=
  claimingOrder f form target way (runMassOf s.params.bagAllowance way)
    (leadOf f.level f.cls form (runMassOf s.params.bagAllowance way) s) s.params.claimWindow

theorem evaluateOffer_iff (f : OfferFields) (s : State) (o : Order) : evaluateOffer f s = some o ↔
    ∃ way form target, f.way = some way ∧ f.kindOf = some (form, target) ∧ OfferFits f form way s
      ∧ o = offered f form target way s := by
  have hflush : ∀ form : Form, (!(decide (1 ≤ offerFlush f.level f.cls form s) && !flushSource s)) = true
      ↔ (offerFlush f.level f.cls form s = 0 ∨ flushSource s = true) := fun form => by
    rw [Bool.not_eq_true', Bool.and_eq_false_iff, decide_eq_false_iff_not, Bool.not_eq_false']
    exact or_congr_left (by omega)
  unfold evaluateOffer
  cases hw : f.way with
  | none => simp
  | some way =>
    cases hk : f.kindOf with
    | none => simp
    | some p =>
      obtain ⟨form, target⟩ := p
      dsimp only
      rw [Option.ite_none_right_eq_some]
      simp only [Bool.and_eq_true, hflush, Option.some.injEq]
      constructor
      · rintro ⟨⟨⟨⟨⟨h1, h2⟩, h3⟩, h4⟩, h5⟩, rfl⟩
        exact ⟨way, form, target, rfl, rfl, ⟨h1, h2, h3, h4, h5⟩, rfl⟩
      · rintro ⟨way', form', target', rfl, hf, ⟨h1, h2, h3, h4, h5⟩, rfl⟩
        obtain ⟨rfl, rfl⟩ := Prod.mk.inj hf
        exact ⟨⟨⟨⟨⟨h1, h2⟩, h3⟩, h4⟩, h5⟩, rfl⟩

theorem becomes_offer {s s1 : State} {f : RawFrame} (h : Arrives .orderBook 0x02 f s s1) :
    Becomes .offer s (takeOffer f.payload s1) := frameEvent_arrives h _

/-- R12: the mass of a bagged run, rounded up. -/
theorem bagMass_bounds (bags size allowance : Nat) :
    bags * size * (1000 + allowance) ≤ bagMass bags size allowance * 1000
      ∧ bagMass bags size allowance * 1000 < bags * size * (1000 + allowance) + 1000 := by
  unfold bagMass ceilDiv
  generalize bags * size * (1000 + allowance) = n
  omega

/-! ### The payload of an offer (R193, R194) -/

/-- The components of a formula as they stand in a payload. -/
def componentBytes (l : List Component) : List Byte := (l.map (fun c => be2 c.code ++ be2 c.share)).flatten

theorem componentBytes_cons (c : Component) (l : List Component) :
    componentBytes (c :: l) = be2 c.code ++ be2 c.share ++ componentBytes l := rfl

theorem componentBytes_length (l : List Component) : (componentBytes l).length = 4 * l.length := by
  induction l with
  | nil => rfl
  | cons c cs ih =>
    rw [componentBytes_cons, List.length_append, List.length_append, ih, be2_length, be2_length, List.length_cons]
    omega

/-- The components that stand after some bytes are read back. -/
theorem components_read (l : List Component) (h : ∀ c ∈ l, c.code < 65536 ∧ c.share < 65536) (k : Nat) (front : List Byte)
    (hk : front.length = k) : (List.range l.length).map (fun i =>
      ({ code := field (k + 4 * i) 2 (front ++ componentBytes l)
         share := field (k + 2 + 4 * i) 2 (front ++ componentBytes l) } : Component)) = l := by
  induction l generalizing k front with
  | nil => rfl
  | cons c cs ih =>
    obtain ⟨hcode, hshare⟩ := h c List.mem_cons_self
    have ih := ih (fun x hx => h x (List.mem_cons_of_mem _ hx)) (k + 4) (front ++ be2 c.code ++ be2 c.share) (by
      rw [List.length_append, List.length_append, hk]
      rfl)
    have hsplit : front ++ componentBytes (c :: cs) = front ++ be2 c.code ++ be2 c.share ++ componentBytes cs := by
      rw [componentBytes_cons, List.append_assoc, List.append_assoc, List.append_assoc]
    rw [List.length_cons, List.range_succ_eq_map, List.map_cons, List.map_map]
    refine congrArg₂ _ ?_ ?_
    · have h1 : field k 2 (front ++ be2 c.code ++ (be2 c.share ++ componentBytes cs)) = beNat (be2 c.code) :=
        field_at k 2 front (be2 c.code) _ hk rfl
      have h2 : field (k + 2) 2 (front ++ be2 c.code ++ be2 c.share ++ componentBytes cs) = beNat (be2 c.share) :=
        field_at (k + 2) 2 (front ++ be2 c.code) (be2 c.share) _ (by rw [List.length_append, hk]; rfl) rfl
      rw [beNat_be2 _ hcode, ← List.append_assoc] at h1
      rw [beNat_be2 _ hshare] at h2
      rw [hsplit, Nat.mul_zero, Nat.add_zero, Nat.add_zero, h1, h2]
    · conv_rhs => rw [← ih]
      refine List.map_congr_left (fun i _ => ?_)
      have e1 : k + 4 * (i + 1) = k + 4 + 4 * i := by omega
      have e2 : k + 2 + 4 * (i + 1) = k + 4 + 2 + 4 * i := by omega
      simp only [Function.comp, Nat.succ_eq_add_one, hsplit, e1, e2]

/-- The bytes of an offer before its formula. -/
def offerFront (g : OfferFields) (filler : Nat) : List Byte :=
  be2 g.order ++ be1 g.level ++ be1 g.group ++ be1 g.runCount ++ be1 g.cls ++ be1 g.form ++ be2 g.target ++ be1 g.delivery
    ++ be2 g.bagSize ++ be2 g.bags ++ be3 g.runMass ++ boolByte g.departure.isSome ++ be2 (g.departure.getD filler)
    ++ be1 g.formula.length

theorem offerPayload_eq (g : OfferFields) (filler : Nat) :
    offerPayload g filler = offerFront g filler ++ componentBytes g.formula := rfl

theorem boolByte_length (b : Bool) : (boolByte b).length = 1 := by cases b <;> rfl

theorem offerFront_length (g : OfferFields) (filler : Nat) : (offerFront g filler).length = 21 := by
  unfold offerFront
  simp only [List.length_append, be1_length, be2_length, be3_length, boolByte_length]

end Sys2Proof.Machine
end

