-- ==== Sys2Proof/Proofs/OffersStored.lean ====
section
namespace Sys2Proof.Machine

/-! ### The payload read back -/

section Skips
variable (k n x : Nat) (b : Bool) (r : List Byte)

theorem field_skip {m : Nat} (a : List Byte) (h : a.length = m) : field (k + m) n (a ++ r) = field k n r := by
  unfold field
  rw [Nat.add_comm, ← h, List.drop_length_add_append]

theorem byteAt_skip {m : Nat} (a : List Byte) (h : a.length = m) : byteAt (k + m) (a ++ r) = byteAt k r := by
  unfold byteAt
  rw [← h, List.getElem?_append_right (Nat.le_add_left _ _), Nat.add_sub_cancel]

@[simp] theorem field_skip_be1 : field (k + 1) n (be1 x ++ r) = field k n r := field_skip k n r (be1 x) rfl
@[simp] theorem field_skip_be2 : field (k + 2) n (be2 x ++ r) = field k n r := field_skip k n r (be2 x) rfl
@[simp] theorem field_skip_be3 : field (k + 3) n (be3 x ++ r) = field k n r := field_skip k n r (be3 x) rfl
@[simp] theorem field_skip_bool : field (k + 1) n (boolByte b ++ r) = field k n r :=
  field_skip k n r (boolByte b) (boolByte_length b)

@[simp] theorem byteAt_skip_be1 : byteAt (k + 1) (be1 x ++ r) = byteAt k r := byteAt_skip k r (be1 x) rfl
@[simp] theorem byteAt_skip_be2 : byteAt (k + 2) (be2 x ++ r) = byteAt k r := byteAt_skip k r (be2 x) rfl
@[simp] theorem byteAt_skip_be3 : byteAt (k + 3) (be3 x ++ r) = byteAt k r := byteAt_skip k r (be3 x) rfl
@[simp] theorem byteAt_skip_bool : byteAt (k + 1) (boolByte b ++ r) = byteAt k r :=
  byteAt_skip k r (boolByte b) (boolByte_length b)

@[simp] theorem field_here_be2 : field 0 2 (be2 x ++ r) = beNat (be2 x) := field_at 0 2 [] (be2 x) r rfl rfl
@[simp] theorem field_here_be3 : field 0 3 (be3 x ++ r) = beNat (be3 x) := field_at 0 3 [] (be3 x) r rfl rfl
@[simp] theorem byteAt_here_be1 (h : x < 256) : byteAt 0 (be1 x ++ r) = x := byteAt_at 0 [] r x rfl h
@[simp] theorem byteAt_here_bool : byteAt 0 (boolByte b ++ r) = b.toNat := by cases b <;> rfl

end Skips

section Payload
variable (g : OfferFields) (filler : Nat)

/-- The fields of an offer before its departure, read back. -/
theorem parseOffer_front (h1 : g.order < 65536) (h2 : g.level < 256) (h3 : g.group < 256) (h4 : g.runCount < 256)
    (h5 : g.cls < 256) (h6 : g.form < 256) (h7 : g.target < 65536) (h8 : g.delivery < 256) (h9 : g.bagSize < 65536)
    (h10 : g.bags < 65536) (h11 : g.runMass < 16777216) : let p := offerPayload g filler
    field 0 2 p = g.order ∧ byteAt 2 p = g.level ∧ byteAt 3 p = g.group ∧ byteAt 4 p = g.runCount ∧ byteAt 5 p = g.cls
      ∧ byteAt 6 p = g.form ∧ field 7 2 p = g.target ∧ byteAt 9 p = g.delivery ∧ field 10 2 p = g.bagSize
      ∧ field 12 2 p = g.bags ∧ field 14 3 p = g.runMass := by
  unfold offerPayload
  simp [beNat_be2, beNat_be3, h1, h2, h3, h4, h5, h6, h7, h8, h9, h10, h11]

/-- The departure and the number of components. -/
theorem parseOffer_departure (h1 : ∀ d, g.departure = some d → d < 65536) (h2 : g.formula.length < 256) :
    let p := offerPayload g filler
    (if byteAt 17 p = 1 then some (field 18 2 p) else none) = g.departure ∧ byteAt 17 p ≤ 1
      ∧ byteAt 20 p = g.formula.length := by
  unfold offerPayload
  cases hd : g.departure with
  | none => simp [h2]
  | some d => simp [h2, beNat_be2 d (h1 d hd)]

theorem parseOffer_formula (h : ∀ c ∈ g.formula, c.code < 65536 ∧ c.share < 65536) :
    (List.range g.formula.length).map (fun k => ({ code := field (21 + 4 * k) 2 (offerPayload g filler)
                                                   share := field (23 + 4 * k) 2 (offerPayload g filler) } : Component))
      = g.formula := by
  rw [offerPayload_eq]
  exact components_read g.formula h 21 (offerFront g filler) (offerFront_length g filler)

theorem offerPayload_length : (offerPayload g filler).length = 21 + 4 * g.formula.length := by
  rw [offerPayload_eq, List.length_append, offerFront_length, componentBytes_length]

theorem lengthOk_offer (p : List Byte) :
    lengthOk 0x02 p = true ↔ 21 ≤ p.length ∧ p.length = 21 + 4 * byteAt 20 p ∧ byteAt 17 p ≤ 1 := by
  simp [lengthOk, and_assoc]

end Payload

/-! ### The obligation -/

/-- R25 to R31: what is known of the order an offer is stored as. -/
theorem offered_passes {f : OfferFields} {s : State} {way : Delivery} {form : Form} {target : Option Nat}
    (hw : f.way = some way) (hk : f.kindOf = some (form, target)) (hf : OfferFits f form way s) :
    let o := offered f form target way s
    (o.form = .pellet → s.straps.press = true ∧ ∃ t, o.target = some t ∧ 600 ≤ t ∧ t ≤ 950)
    ∧ (o.form = .mash → o.target = none)
    ∧ (∀ size bags, o.delivery = .bagged size bags → s.straps.bagger = true ∧ 100 ≤ size ∧ size ≤ 500 ∧ 1 ≤ bags
        ∧ bags ≤ 4000 ∧ bags * size * (1000 + s.params.bagAllowance) ≤ o.runMass * 1000
        ∧ o.runMass * 1000 < bags * size * (1000 + s.params.bagAllowance) + 1000)
    ∧ (∀ m, o.delivery = .bulk m → s.straps.loadout = true ∧ 500 ≤ m ∧ m ≤ 150000 ∧ o.runMass = m) := by
  obtain ⟨-, -, hpress, ⟨hbagger, hloadout⟩, -⟩ := (nodeFits_iff _ _ _ _ _).1 hf.node
  refine ⟨fun h => ?_, fun h => ?_, fun size bags h => ?_, fun m h => ?_⟩
  · replace h : form = .pellet := h
    rcases (kindOf_iff f form target).1 hk with ⟨-, hm, -⟩ | ⟨-, h1, h2, -, ht⟩
    · rw [h] at hm
      cases hm
    · exact ⟨hpress.resolve_left (by rw [h]; decide), f.target, ht, h1, h2⟩
  · replace h : form = .mash := h
    rcases (kindOf_iff f form target).1 hk with ⟨-, -, ht⟩ | ⟨-, -, -, hp, -⟩
    · exact ht
    · rw [h] at hp
      cases hp
  · replace h : way = .bagged size bags := h
    have hmass : (offered f form target way s).runMass = bagMass bags size s.params.bagAllowance := by
      rw [h]
      rfl
    rcases (way_iff f way).1 hw with ⟨-, h1, h2, h3, h4, hb⟩ | ⟨-, -, -, hb⟩
    · obtain ⟨rfl, rfl⟩ := Delivery.bagged.inj (h.symm.trans hb)
      obtain ⟨h5, h6⟩ := bagMass_bounds f.bags f.bagSize s.params.bagAllowance
      rw [hmass]
      exact ⟨hbagger _ _ h, h1, h2, h3, h4, h5, h6⟩
    · rw [h] at hb
      cases hb
  · replace h : way = .bulk m := h
    rcases (way_iff f way).1 hw with ⟨-, -, -, -, -, hb⟩ | ⟨-, h1, h2, hb⟩
    · rw [h] at hb
      cases hb
    · have hm := Delivery.bulk.inj (h.symm.trans hb)
      rw [hm]
      refine ⟨hloadout m h, h1, h2, ?_⟩
      rw [hb]
      rfl

/-- Settles O20, by the tests of the evaluation one by one, and by the fields of the payload read back in their places. -/
theorem offersStoredAreEligible : Obligations.OffersStoredAreEligible := by
  unfold Obligations.OffersStoredAreEligible
  refine ⟨fun s s1 f ha => ⟨fun o ho => ?_, fun hn => ?_⟩, fun f s o ho => ?_, ?_, ?_⟩
  · have h := becomes_offer ha
    unfold takeOffer at h
    rwa [ho] at h
  · have h := becomes_offer ha
    unfold takeOffer at h
    rwa [hn] at h
  · obtain ⟨way, form, target, hw, hk, hfits, rfl⟩ := (evaluateOffer_iff f s o).1 ho
    obtain ⟨⟨h1, -, h3, h4, h5, h6, h7, h8, -⟩, -, h10, -, h12, h13⟩ := (inRange_iff f).1 hfits.range
    obtain ⟨hroom, hid, -, -, hmin, hclash⟩ := (nodeFits_iff _ _ _ _ _).1 hfits.node
    obtain ⟨hstock, htable⟩ := (stockFits_iff _ _ _).1 hfits.stock
    obtain ⟨hp, hm, hb, hl⟩ := offered_passes hw hk hfits
    refine ⟨⟨hroom, hid, hclash⟩, ⟨rfl, h1, h3, h4, h5, h6, h7, h8⟩, hp, hm, hb, hl, ⟨rfl, h10, h12, h13⟩, hstock, htable,
      hmin, hfits.flush, rfl, (departureFits_iff _ _ _ _).1 hfits.departure, rfl, rfl, rfl, rfl, rfl, rfl, rfl, rfl,
      fun r hr => ?_⟩
    obtain ⟨c, -, rfl⟩ := List.mem_map.1 hr
    rfl
  · intro f s form way hway hform hrange hformula hnode mass flushes lead hmin hstock htable hflush hdep
    obtain ⟨hroom, hid, hclash⟩ := hnode
    have hw : f.way = some way := (way_iff f way).2 (by tauto)
    obtain ⟨target, hk, hpress⟩ : ∃ target, f.kindOf = some (form, target) ∧ (form = .mash ∨ s.straps.press = true) := by
      rcases hform with ⟨h1, h2⟩ | ⟨h1, h2, h3, h4, h5⟩
      · exact ⟨none, (kindOf_iff f form none).2 (Or.inl ⟨h1, h2, rfl⟩), Or.inl h2⟩
      · exact ⟨some f.target, (kindOf_iff f form _).2 (Or.inr ⟨h1, h2, h3, h4, rfl⟩), Or.inr h5⟩
    have hserved : (∀ size bags, way = .bagged size bags → s.straps.bagger = true)
        ∧ ∀ m, way = .bulk m → s.straps.loadout = true := by
      rcases hway with ⟨-, -, -, -, -, hb, hs⟩ | ⟨-, -, -, hb, hs⟩ <;> rw [hb]
      · exact ⟨fun _ _ _ => hs, nofun⟩
      · exact ⟨nofun, fun _ _ => hs⟩
    have hfits : OfferFits f form way s := ⟨(inRange_iff f).2 ⟨hrange, hformula⟩,
      (nodeFits_iff _ _ _ _ _).2 ⟨hroom, hid, hpress, hserved, hmin, hclash⟩, (stockFits_iff _ _ _).2 ⟨hstock, htable⟩,
      hflush, (departureFits_iff _ _ _ _).2 hdep⟩
    exact ⟨offered f form target way s, (evaluateOffer_iff f s _).2 ⟨way, form, target, hw, hk, hfits, rfl⟩,
      rfl, rfl, rfl, rfl, rfl, rfl, rfl, rfl, rfl, rfl⟩
  · intro g filler h1 h2 h3 h4 h5 h6 h7 h8 h9 h10 h11 h12 _ h14 h15
    obtain ⟨e1, e2, e3, e4, e5, e6, e7, e8, e9, e10, e11⟩ := parseOffer_front g filler h1 h2 h3 h4 h5 h6 h7 h8 h9 h10 h11
    obtain ⟨e12, e13, e14⟩ := parseOffer_departure g filler h12 h14
    have e15 := parseOffer_formula g filler h15
    constructor
    · unfold parseOffer
      rw [e1, e2, e3, e4, e5, e6, e7, e8, e9, e10, e11, e12, e14, e15]
    · rw [lengthOk_offer, offerPayload_length, e14]
      exact ⟨by omega, rfl, e13⟩

end Sys2Proof.Machine
end

