-- ==== Sys2Proof/Proofs/ClosedDraws.lean ====
section
/-! SUPPORT. R47, R83: the zero reports that answer the draws of a batch no longer wanted, and what becomes of its doses. -/
namespace Sys2Proof.Machine

/-! ### The effect of zero reports -/

/-- R47: an entry that no more will be drawn for. -/
def PlanEntry.closed (e : PlanEntry) : PlanEntry :=
  if e.status = .drawing then { e with drawn := min 16777215 e.drawn, status := .done } else e

theorem closed_bin (e : PlanEntry) : e.closed.bin = e.bin := by
  unfold PlanEntry.closed
  split <;> rfl

theorem closed_closed (e : PlanEntry) : e.closed.closed = e.closed := by
  unfold PlanEntry.closed
  split <;> simp [*]

/-- The dose where a position is answered. -/
def Dose.answerAt (c : Nat → Bool) (x : Dose) : Dose := if c x.position then { x with announced := false } else x

/-- R47: the report that answers an announced dose. -/
def zeroOf (number : Nat) (s : State) (x : Dose) : Option OutEntry :=
  if x.announced then (planEntry x.position s).map (fun e => OutEntry.fresh (.drawReport number e.bin 0)) else none

/-- Draws of the positions answered, with the reports sent. -/
structure Zeroed (c : Nat → Bool) (out : List OutEntry) (s u : State) : Prop where
  tx     : u.tx = s.tx ++ out
  bins   : u.bins = s.bins
  state  : u.scale.state = s.scale.state
  number : scaleNumber u = scaleNumber s
  doses  : dosesOf u = (dosesOf s).map (Dose.answerAt c)
  entry  : ∀ p, planEntry p u = if c p then (planEntry p s).map PlanEntry.closed else planEntry p s

theorem Zeroed.refl (s : State) : Zeroed (fun _ => false) [] s s :=
  ⟨(List.append_nil _).symm, rfl, rfl, rfl, (List.map_id' _).symm, fun _ => rfl⟩

theorem Zeroed.of_eq {c c' : Nat → Bool} {out out' : List OutEntry} {s u : State} (h : Zeroed c out s u)
    (hc : ∀ p, c' p = c p) (ho : out' = out) : Zeroed c' out' s u := by
  rw [show c' = c from funext hc, ho]
  exact h

theorem Zeroed.trans {c c' : Nat → Bool} {out out' : List OutEntry} {s u v : State} (h : Zeroed c out s u)
    (h' : Zeroed c' out' u v) : Zeroed (fun p => c p || c' p) (out ++ out') s v where
  tx := by rw [h'.tx, h.tx, List.append_assoc]
  bins := h'.bins.trans h.bins
  state := h'.state.trans h.state
  number := h'.number.trans h.number
  doses := by
    rw [h'.doses, h.doses, List.map_map]
    refine List.map_congr_left (fun x _ => ?_)
    simp only [Function.comp, Dose.answerAt, Bool.or_eq_true]
    by_cases h1 : c x.position = true
    · simp [h1]
    · simp [h1]
  entry := fun p => by
    rw [h'.entry, h.entry]
    cases c p <;> cases c' p <;> simp [Function.comp_def, closed_closed]

theorem zeroOf_of_zeroed {c : Nat → Bool} {out : List OutEntry} {s u : State} (h : Zeroed c out s u) (n : Nat) (x : Dose) :
    zeroOf n u x = zeroOf n s x := by
  unfold zeroOf
  rw [h.entry]
  cases c x.position <;> simp [Function.comp_def, closed_bin]

theorem scaleNumber_updDose (p : Nat) (f : Dose → Dose) (s : State) : scaleNumber (updDose p f s) = scaleNumber s := by
  unfold scaleNumber scaleRef
  rw [scaleRecord_updDose]

theorem planEntry_updDose (p q : Nat) (f : Dose → Dose) (s : State) : planEntry p (updDose q f s) = planEntry p s := rfl

theorem planEntry_tx (p : Nat) (q : List OutEntry) (s : State) : planEntry p { s with tx := q } = planEntry p s := rfl

/-- R47: a zero report, where the frame queue has room. -/
theorem zeroReport_zeroed (d : Dose) {s : State} (h : s.tx.length < 8) :
    Zeroed (fun p => d.announced && decide (d.position = p)) (zeroOf (scaleNumber s) s d).toList s (zeroReport d s) := by
  have hdoses : ∀ v : State, dosesOf v = dosesOf s → dosesOf (updDose d.position (fun d => { d with announced := false }) v)
      = (dosesOf s).map (Dose.answerAt (fun p => true && decide (d.position = p))) := fun v hv => by
    rw [dosesOf_updDose, hv]
    refine List.map_congr_left (fun x _ => ?_)
    simp only [Dose.answerAt, Bool.true_and, decide_eq_true_eq, eq_comm (a := x.position)]
  unfold zeroReport
  cases ha : d.announced with
  | false =>
    refine (Zeroed.refl s).of_eq (fun _ => rfl) ?_
    simp [zeroOf, ha]
  | true =>
    simp only [if_true]
    cases he : planEntry d.position s with
    | none =>
      refine ⟨by simp [zeroOf, ha, he, updDose], rfl, rfl, scaleNumber_updDose _ _ s, hdoses s rfl, fun p => ?_⟩
      rw [planEntry_updDose]
      by_cases hp : d.position = p
      · rw [← hp, he]
        simp
      · simp [hp]
    | some e =>
      have hout : (zeroOf (scaleNumber s) s d).toList = [OutEntry.fresh (.drawReport (scaleNumber s) e.bin 0)] := by
        simp [zeroOf, ha, he]
      dsimp only
      rw [hout, queueFrame_room _ h]
      by_cases hs : e.status = .drawing
      · rw [if_pos hs]
        unfold reportComplete
        rw [updBin_subEstimate_zero]
        refine ⟨rfl, rfl, rfl, scaleNumber_updDose _ _ _, hdoses _ rfl, fun p => ?_⟩
        rw [planEntry_updDose]
        by_cases hp : d.position = p
        · rw [← hp, planEntry_updPlanEntry_self
            (f := fun e => { e with drawn := satMass (e.drawn + 0), status := .done }) (fun _ => rfl), planEntry_tx, he]
          simp [PlanEntry.closed, hs, satMass, massMax, Nat.min_comm]
        · rw [planEntry_updPlanEntry_other hp
            (f := fun e => { e with drawn := satMass (e.drawn + 0), status := .done }) (fun _ => rfl), planEntry_tx]
          simp [hp]
      · rw [if_neg hs]
        refine ⟨rfl, rfl, rfl, scaleNumber_updDose _ _ _, hdoses _ rfl, fun p => ?_⟩
        rw [planEntry_updDose, planEntry_tx]
        by_cases hp : d.position = p
        · rw [← hp, he]
          simp [PlanEntry.closed, hs]
        · simp [hp]

/-! ### The waiting doses closed (R83) -/

/-- The position is of a dose that waits announced. -/
def awaitsAt (ds : List Dose) (p : Nat) : Bool :=
  ds.any (fun d => decide (d.status = .waiting) && (d.announced && decide (d.position = p)))

/-- The doses that wait. -/
def waitingOf (ds : List Dose) : List Dose := ds.filter (fun d => decide (d.status = .waiting))

theorem filterMap_cons_toList {α β : Type} (f : α → Option β) (x : α) (xs : List α) :
    (x :: xs).filterMap f = (f x).toList ++ xs.filterMap f := by
  cases h : f x <;> simp [h]

theorem toList_length_le {α : Type} (o : Option α) : o.toList.length ≤ 1 := by cases o <;> simp

theorem closeWaiting_zeroed (ds : List Dose) {s : State} (h : s.tx.length + (waitingOf ds).length ≤ 8) :
    Zeroed (awaitsAt ds) ((waitingOf ds).filterMap (zeroOf (scaleNumber s) s)) s (closeWaiting ds s) := by
  induction ds generalizing s with
  | nil => exact Zeroed.refl s
  | cons d ds ih =>
    unfold closeWaiting
    by_cases hw : d.status = .waiting
    · have hwait : waitingOf (d :: ds) = d :: waitingOf ds := by simp [waitingOf, hw]
      rw [hwait, List.length_cons] at h
      have h1 := zeroReport_zeroed d (s := s) (by omega)
      have h2 := ih (s := zeroReport d s) (by
        have := toList_length_le (zeroOf (scaleNumber s) s d)
        rw [h1.tx, List.length_append]
        omega)
      rw [if_pos hw]
      refine (h1.trans h2).of_eq (fun p => ?_) ?_
      · simp [awaitsAt, hw]
      · rw [hwait, filterMap_cons_toList, h1.number]
        simp only [zeroOf_of_zeroed h1]
    · have hwait : waitingOf (d :: ds) = waitingOf ds := by simp [waitingOf, hw]
      rw [hwait] at h ⊢
      rw [if_neg hw]
      exact (ih h).of_eq (fun p => by simp [awaitsAt, hw]) rfl

end Sys2Proof.Machine
end

