-- ==== Sys2Proof/Proofs/FlaggedDraws.lean ====
section
/-! SUPPORT. R83: the draws of the batch in the scale, once the batch is flagged. -/
namespace Sys2Proof.Machine

/-! ### What becomes of each dose -/

/-- R83: the dose will not be done. -/
def undosed (s : State) (x : Dose) : Prop :=
  (x.status = .waiting ∧ s.scale.state.worked) ∨ (curDose s = some x ∧ s.scale.state.inHand)

/-- R47, R83: the dose and its entry as they stand in the end. -/
def DoseEnds (s u : State) (x y : Dose) : Prop :=
  (¬undosed s x → y = x ∧ planEntry x.position u = planEntry x.position s)
  ∧ (undosed s x → y = { x with announced := false, status := if x.status = .waiting then .waiting else .done })
  ∧ (undosed s x → x.announced = false → planEntry x.position u = planEntry x.position s)
  ∧ (∀ e, undosed s x → x.announced = true → planEntry x.position s = some e → planEntry x.position u = some
      (if e.status = .drawing then { e with drawn := min 16777215 e.drawn, status := .done } else e))

/-- R47, R83: the draws of a batch flagged in the scale, where the frame queue has room for the reports. -/
structure DrawsClosed (n : Nat) (s u : State) : Prop where
  bins   : u.bins = s.bins
  inHand : s.scale.state.inHand → u.tx = s.tx ++ (curDose s).toList.filterMap (zeroOf n s)
    ++ (waitingOf (dosesOf s)).filterMap (zeroOf n s)
  worked : s.scale.state.worked → ¬s.scale.state.inHand → u.tx = s.tx ++ (waitingOf (dosesOf s)).filterMap (zeroOf n s)
  idle   : ¬s.scale.state.worked → u.tx = s.tx
  count  : (dosesOf u).length = (dosesOf s).length
  ends   : ∀ (i : Nat) (x y : Dose), (dosesOf s)[i]? = some x → (dosesOf u)[i]? = some y → DoseEnds s u x y

theorem DrawsClosed.congr {n : Nat} {s u s' u' : State} (h : DrawsClosed n s u) (h1 : s'.scale = s.scale)
    (h2 : s'.plan = s.plan) (h3 : s'.tx = s.tx) (h4 : s'.bins = s.bins) (h5 : u'.scale = u.scale) (h6 : u'.plan = u.plan)
    (h7 : u'.tx = u.tx) (h8 : u'.bins = u.bins) : DrawsClosed n s' u' := by
  have hd : dosesOf s' = dosesOf s := by unfold dosesOf; rw [h1]
  have hd' : dosesOf u' = dosesOf u := by unfold dosesOf; rw [h5]
  have hc : curDose s' = curDose s := by unfold curDose; rw [h1]
  have hp : ∀ p, planEntry p s' = planEntry p s := fun p => by unfold planEntry; rw [h2]
  have hp' : ∀ p, planEntry p u' = planEntry p u := fun p => by unfold planEntry; rw [h6]
  have hz : ∀ l : List Dose, l.filterMap (zeroOf n s') = l.filterMap (zeroOf n s) := fun l => by
    refine List.filterMap_congr (fun x _ => ?_)
    unfold zeroOf
    rw [hp]
  obtain ⟨g1, g2, g3, g4, g5, g6⟩ := h
  refine ⟨by rw [h8, h4, g1], fun h => ?_, fun h h' => ?_, fun h => ?_, by rw [hd, hd', g5], fun i x y hx hy => ?_⟩
  · rw [h1] at h
    rw [h7, h3, hc, hd, hz, hz]
    exact g2 h
  · rw [h1] at h h'
    rw [h7, h3, hd, hz]
    exact g3 h h'
  · rw [h1] at h
    rw [h7, h3]
    exact g4 h
  · rw [hd] at hx
    rw [hd'] at hy
    have he := g6 i x y hx hy
    unfold DoseEnds undosed at he ⊢
    rw [h1, hc, hp, hp']
    exact he

/-- Each dose ends as it should where the doses that will not be done are answered, and the others stand. -/
theorem doseEnds_of {s u : State} {g : Dose → Dose} (hg : dosesOf u = (dosesOf s).map g)
    (hu : ∀ x ∈ dosesOf s, undosed s x →
      g x = { x with announced := false, status := if x.status = .waiting then .waiting else .done }
      ∧ planEntry x.position u
        = if x.announced then (planEntry x.position s).map PlanEntry.closed else planEntry x.position s)
    (hn : ∀ x ∈ dosesOf s, ¬undosed s x → g x = x ∧ planEntry x.position u = planEntry x.position s) :
    ∀ (i : Nat) (x y : Dose), (dosesOf s)[i]? = some x → (dosesOf u)[i]? = some y → DoseEnds s u x y := by
  intro i x y hx hy
  have hm : x ∈ dosesOf s := List.mem_of_getElem? hx
  rw [hg, List.getElem?_map, hx, Option.map_some] at hy
  have hy := Option.some.inj hy
  rw [← hy]
  refine ⟨hn x hm, fun h => (hu x hm h).1, fun h ha => ?_, fun e h ha he => ?_⟩
  · rw [(hu x hm h).2, ha]
    rfl
  · rw [(hu x hm h).2, ha, he]
    rfl

/-! ### Positions -/

section Doses
variable {ds : List Dose} (hn : (ds.map Dose.position).Nodup)
include hn

theorem dose_unique {x y : Dose} (hx : x ∈ ds) (hy : y ∈ ds) (h : x.position = y.position) : x = y :=
  List.inj_on_of_nodup_map hn hx hy h

theorem awaitsAt_mem {x : Dose} (hx : x ∈ ds) :
    awaitsAt ds x.position = (decide (x.status = .waiting) && x.announced) := by
  rw [Bool.eq_iff_iff]
  unfold awaitsAt
  simp only [List.any_eq_true, Bool.and_eq_true, decide_eq_true_eq]
  constructor
  · rintro ⟨y, hy, hw, ha, hp⟩
    rw [← dose_unique hn hy hx hp]
    exact ⟨hw, ha⟩
  · exact fun ⟨hw, ha⟩ => ⟨x, hx, hw, ha, rfl⟩

/-- The dose is answered where it waits announced. -/
theorem answerAt_awaits {x : Dose} (hx : x ∈ ds) (hw : x.status = .waiting) :
    x.answerAt (awaitsAt ds) = { x with announced := false } := by
  unfold Dose.answerAt
  rw [awaitsAt_mem hn hx, hw]
  cases ha : x.announced with
  | true => rfl
  | false =>
    obtain ⟨⟩ := x
    cases ha
    simpa using hw

theorem answerAt_notWaiting {x : Dose} (hx : x ∈ ds) (hw : x.status ≠ .waiting) : x.answerAt (awaitsAt ds) = x := by
  unfold Dose.answerAt
  rw [awaitsAt_mem hn hx, decide_eq_false hw]
  rfl

end Doses

/-! ### The waiting doses alone (R83) -/

section Flagged
variable {s : State} (hn : ((dosesOf s).map Dose.position).Nodup)
include hn

/-- Nothing is in hand: the waiting doses are answered. -/
theorem closeWaiting_ends {c : State} (hz : Zeroed (awaitsAt (dosesOf s)) ((waitingOf (dosesOf s)).filterMap
      (zeroOf (scaleNumber s) s)) s c) (hw : s.scale.state.worked) (hi : ∀ x, curDose s = some x → ¬s.scale.state.inHand) :
    ∀ (i : Nat) (x y : Dose), (dosesOf s)[i]? = some x → (dosesOf c)[i]? = some y → DoseEnds s c x y := by
  have hun : ∀ x, undosed s x ↔ x.status = .waiting := fun x =>
    ⟨fun h => h.elim And.left (fun h' => absurd h'.2 (hi x h'.1)), fun h => Or.inl ⟨h, hw⟩⟩
  refine doseEnds_of hz.doses (fun x hx h => ?_) (fun x hx h => ?_) <;> rw [hun] at h
  · rw [answerAt_awaits hn hx h, hz.entry, awaitsAt_mem hn hx, h]
    exact ⟨rfl, by simp⟩
  · rw [answerAt_notWaiting hn hx h, hz.entry, awaitsAt_mem hn hx, decide_eq_false h]
    exact ⟨rfl, rfl⟩

end Flagged

/-! ### The dose in hand (R83) -/

/-- The dose at the position is done. -/
def Dose.doneAt (p : Nat) (x : Dose) : Dose := if x.position = p then { x with status := .done } else x

theorem awaitsAt_waiting (ds : List Dose) (p : Nat) :
    awaitsAt ds p = (waitingOf ds).any (fun d => d.announced && decide (d.position = p)) := by
  unfold awaitsAt waitingOf
  rw [List.any_filter]

/-- A filter of a list of which what passes stands. -/
theorem filter_map_stays {α : Type} {p : α → Bool} {k : α → α} {l : List α} (h : ∀ x ∈ l, p (k x) = p x)
    (hs : ∀ x ∈ l, p x = true → k x = x) : (l.map k).filter p = l.filter p := by
  have hf : l.filter (p ∘ k) = l.filter p := List.filter_congr h
  rw [List.filter_map, hf]
  refine (List.map_congr_left (fun x hx => ?_)).trans (List.map_id' _)
  obtain ⟨hm, hp⟩ := List.mem_filter.1 hx
  exact hs x hm hp

section InHand
variable {s : State} (hn : ((dosesOf s).map Dose.position).Nodup) {d : Dose} (hc : curDose s = some d)
include hn hc

/-- The doses once that in hand is answered and done. -/
def Dose.released (d : Dose) (x : Dose) : Dose :=
  (x.answerAt (fun p => d.announced && decide (d.position = p))).doneAt d.position

omit hn hc in
theorem released_self : d.released d = { d with announced := false, status := .done } := by
  unfold Dose.released Dose.doneAt Dose.answerAt
  obtain ⟨⟩ := d
  rename_i a _
  cases a <;> simp

omit hn hc in
theorem released_other {x : Dose} (h : x.position ≠ d.position) : d.released x = x := by
  unfold Dose.released Dose.doneAt Dose.answerAt
  simp [Ne.symm h, h]

theorem released_waiting : waitingOf ((dosesOf s).map d.released) = waitingOf (dosesOf s) := by
  obtain ⟨hd, hst⟩ := curDose_mem hc
  have hx : ∀ x ∈ dosesOf s, x = d ∨ x.position ≠ d.position := fun x hx => by
    by_cases h : x.position = d.position
    · exact Or.inl (dose_unique hn hx hd h)
    · exact Or.inr h
  refine filter_map_stays (fun x hm => ?_) (fun x hm hw => ?_)
  · rcases hx x hm with rfl | h
    · rw [released_self, hst]
      rfl
    · rw [released_other h]
  · rcases hx x hm with rfl | h
    · rw [hst] at hw
      cases hw
    · exact released_other h

theorem released_awaits (p : Nat) : awaitsAt ((dosesOf s).map d.released) p = awaitsAt (dosesOf s) p := by
  rw [awaitsAt_waiting, awaitsAt_waiting, released_waiting hn hc]

/-- R83: with a dose in hand, that dose is answered and done, and those waiting are answered. -/
theorem releasedDose_ends {v w z : State}
    (h1 : Zeroed (fun p => d.announced && decide (d.position = p)) (zeroOf (scaleNumber s) s d).toList s v)
    (hw : w = closeDose d v)
    (h2 : Zeroed (awaitsAt (dosesOf w)) ((waitingOf (dosesOf w)).filterMap (zeroOf (scaleNumber w) w)) w z)
    (hi : s.scale.state.inHand) :
    z.tx = s.tx ++ (curDose s).toList.filterMap (zeroOf (scaleNumber s) s)
        ++ (waitingOf (dosesOf s)).filterMap (zeroOf (scaleNumber s) s)
      ∧ z.bins = s.bins ∧ (dosesOf z).length = (dosesOf s).length
      ∧ ∀ (i : Nat) (x y : Dose), (dosesOf s)[i]? = some x → (dosesOf z)[i]? = some y → DoseEnds s z x y := by
  obtain ⟨hd, hst⟩ := curDose_mem hc
  have hwd : dosesOf w = (dosesOf s).map d.released := by
    rw [hw]
    unfold closeDose
    rw [dosesOf_updDose, h1.doses, List.map_map]
    rfl
  have hwe : ∀ p, planEntry p w = planEntry p v := fun p => by
    rw [hw]
    rfl
  have hwz : zeroOf (scaleNumber w) w = zeroOf (scaleNumber s) s := by
    have hnum : scaleNumber w = scaleNumber s := by
      rw [hw]
      exact (scaleNumber_updDose _ _ v).trans h1.number
    funext x
    rw [hnum, ← zeroOf_of_zeroed h1]
    unfold zeroOf
    rw [hwe]
  have hwait : awaitsAt (dosesOf w) = awaitsAt (dosesOf s) := by
    rw [hwd]
    exact funext (released_awaits hn hc)
  have hwtx : w.tx = v.tx ∧ w.bins = v.bins := by
    rw [hw]
    exact ⟨rfl, rfl⟩
  have hnot : ∀ x ∈ dosesOf s, x.status = .waiting → x.position ≠ d.position := fun x hx hxw hp => by
    rw [dose_unique hn hx hd hp, hst] at hxw
    cases hxw
  have hun : ∀ x, undosed s x ↔ x.status = .waiting ∨ x = d := fun x => by
    unfold undosed
    rw [hc, Option.some.injEq, eq_comm (a := d)]
    exact or_congr (and_iff_left (Or.inl hi)) (and_iff_left hi)
  have hdoses : dosesOf z = (dosesOf s).map (fun x => (d.released x).answerAt (awaitsAt (dosesOf s))) := by
    rw [h2.doses, hwait, hwd, List.map_map]
    rfl
  have hentry : ∀ p, planEntry p z = if awaitsAt (dosesOf s) p then
      (if d.announced && decide (d.position = p) then (planEntry p s).map PlanEntry.closed else planEntry p s).map
        PlanEntry.closed
      else if d.announced && decide (d.position = p) then (planEntry p s).map PlanEntry.closed else planEntry p s :=
    fun p => by rw [h2.entry, hwait, hwe, h1.entry]
  refine ⟨?_, h2.bins.trans (hwtx.2.trans h1.bins), by rw [hdoses, List.length_map], doseEnds_of hdoses (fun x hx h => ?_)
    (fun x hx h => ?_)⟩
  · have hlist : waitingOf (dosesOf w) = waitingOf (dosesOf s) := by rw [hwd, released_waiting hn hc]
    rw [h2.tx, hwz, hlist, hwtx.1, h1.tx, hc, Option.toList_some, filterMap_cons_toList, List.filterMap_nil, List.append_nil]
  · rcases (hun x).1 h with hxw | rfl
    · have hp := hnot x hx hxw
      rw [released_other hp, answerAt_awaits hn hx hxw, hentry, awaitsAt_mem hn hx, decide_eq_false (Ne.symm hp), hxw]
      exact ⟨rfl, by simp⟩
    · have hself : awaitsAt (dosesOf s) x.position = false := by
        rw [awaitsAt_mem hn hx, hst]
        rfl
      rw [released_self, hentry, hself, hst]
      unfold Dose.answerAt
      exact ⟨by simp [hself], by simp⟩
  · rw [hun, not_or] at h
    obtain ⟨hxw, hxd⟩ := h
    have hp : x.position ≠ d.position := fun he => hxd (dose_unique hn hx hd he)
    rw [released_other hp, answerAt_notWaiting hn hx hxw, hentry, awaitsAt_mem hn hx, decide_eq_false (Ne.symm hp),
      decide_eq_false hxw]
    exact ⟨rfl, by simp⟩

end InHand

/-! ### The batch flagged (R83) -/

theorem flagScale_doses (s : State) : dosesOf (flagScale s) = dosesOf s ∧ curDose (flagScale s) = curDose s := by
  unfold dosesOf curDose flagScale updRecord
  cases s.scale.batch <;> exact ⟨rfl, rfl⟩

theorem flagScale_number (s : State) : scaleNumber (flagScale s) = scaleNumber s := by
  unfold scaleNumber scaleRef
  rw [scaleRecord_flagScale]
  cases scaleRecord s <;> rfl

theorem flagScale_zeroed (s : State) : Zeroed (fun _ => false) [] s (flagScale s) :=
  ⟨(List.append_nil _).symm, rfl, rfl, flagScale_number s, (flagScale_doses s).1.trans (List.map_id' _).symm, fun _ => rfl⟩

theorem inHand_worked {st : ScaleState} (h : st.inHand) : st.worked := Or.inl h

section Batch
variable {s : State} (hn : ((dosesOf s).map Dose.position).Nodup)

/-- The waiting doses of the flagged batch answered. -/
theorem flaggedWaiting_zeroed (hroom : s.tx.length + (waitingOf (dosesOf s)).length ≤ 8) :
    Zeroed (awaitsAt (dosesOf s)) ((waitingOf (dosesOf s)).filterMap (zeroOf (scaleNumber s) s)) s
      (closeWaiting (dosesOf (flagScale s)) (flagScale s)) := by
  have hz := flagScale_zeroed s
  have h := closeWaiting_zeroed (dosesOf (flagScale s)) (s := flagScale s) (by rw [(flagScale_doses s).1]; exact hroom)
  refine (hz.trans h).of_eq (fun p => by rw [(flagScale_doses s).1]; rfl) ?_
  rw [List.nil_append, (flagScale_doses s).1, hz.number]
  exact List.filterMap_congr (fun x _ => (zeroOf_of_zeroed hz _ x).symm)

theorem waitingOf_length (ds : List Dose) : (waitingOf ds).length ≤ ds.length := List.length_filter_le _ _

theorem reworkScale_idle_draws (hr : scaleRework s = false) (hw : ¬s.scale.state.worked) :
    DrawsClosed (scaleNumber s) s (reworkScale s) := by
  have hun : ∀ x, ¬undosed s x := fun x h => hw (h.elim And.right (fun h' => inHand_worked h'.2))
  have hd := (flagScale_doses s).1
  rw [reworkScale_idle hr hw]
  exact ⟨rfl, fun h => absurd (inHand_worked h) hw, fun h => absurd h hw, fun _ => rfl, by rw [hd],
    doseEnds_of (g := fun x => x) (hd.trans (List.map_id' _).symm) (fun x _ h => absurd h (hun x))
      (fun _ _ _ => ⟨rfl, rfl⟩)⟩

include hn

theorem reworkScale_worked_draws (hr : scaleRework s = false) (hi : ¬s.scale.state.inHand) (hw : s.scale.state.worked)
    (hroom : s.tx.length + (dosesOf s).length ≤ 8) : DrawsClosed (scaleNumber s) s (reworkScale s) := by
  have hz := flaggedWaiting_zeroed (s := s) (le_trans (Nat.add_le_add_left (waitingOf_length _) _) hroom)
  rw [reworkScale_worked hr hi hw]
  exact ⟨hz.bins, fun h => absurd h hi, fun _ _ => hz.tx, fun h => absurd hw h, by rw [hz.doses, List.length_map],
    closeWaiting_ends hn hz hw (fun _ _ => hi)⟩

theorem reworkScale_inHand_draws (hr : scaleRework s = false) (hi : s.scale.state.inHand)
    (hroom : s.tx.length + (dosesOf s).length ≤ 8) : DrawsClosed (scaleNumber s) s (reworkScale s) := by
  have hw := inHand_worked hi
  rw [reworkScale_inHand hr hi]
  unfold closeRework
  rw [(flagScale_doses s).2]
  cases hc : curDose s with
  | none =>
    have hz := flaggedWaiting_zeroed (s := s) (le_trans (Nat.add_le_add_left (waitingOf_length _) _) hroom)
    have hends := closeWaiting_ends hn hz hw (fun x hx => by rw [hc] at hx; cases hx)
    exact ⟨hz.bins, fun _ => by rw [hc]; simpa using hz.tx, fun _ h => absurd hi h, fun h => absurd hw h,
      by rw [show dosesOf (setScale .complete (closeWaiting (dosesOf (flagScale s)) (flagScale s)))
          = dosesOf (closeWaiting (dosesOf (flagScale s)) (flagScale s)) from rfl, hz.doses, List.length_map],
      fun i x y hx hy => hends i x y hx hy⟩
  | some d =>
    obtain ⟨hd, hst⟩ := curDose_mem hc
    have hless : (waitingOf (dosesOf s)).length < (dosesOf s).length :=
      List.length_filter_lt_length_iff_exists.2 ⟨d, hd, by simp [hst]⟩
    have hz := flagScale_zeroed s
    have h1 : Zeroed (fun p => d.announced && decide (d.position = p)) (zeroOf (scaleNumber s) s d).toList s
        (zeroReport d (flagScale s)) := by
      refine (hz.trans (zeroReport_zeroed d (s := flagScale s) (by rw [hz.tx, List.append_nil]; omega))).of_eq
        (fun p => rfl) ?_
      rw [List.nil_append, hz.number, zeroOf_of_zeroed hz]
    have hwait : waitingOf (dosesOf (closeDose d (zeroReport d (flagScale s)))) = waitingOf (dosesOf s) := by
      unfold closeDose
      rw [dosesOf_updDose, h1.doses, List.map_map]
      exact released_waiting hn hc
    have h2 := closeWaiting_zeroed (dosesOf (closeDose d (zeroReport d (flagScale s))))
      (s := closeDose d (zeroReport d (flagScale s))) (by
        have htx : (closeDose d (zeroReport d (flagScale s))).tx = (zeroReport d (flagScale s)).tx := rfl
        have hone := toList_length_le (zeroOf (scaleNumber s) s d)
        rw [hwait, htx, h1.tx, List.length_append]
        omega)
    obtain ⟨e1, e2, e3, e4⟩ := releasedDose_ends hn hc h1 rfl h2 hi
    exact ⟨e2, fun _ => e1, fun _ h => absurd hi h, fun h => absurd hw h, e3, e4⟩

end Batch

/-- R83: the draws of a batch as its flagging leaves them. -/
theorem reworkScale_draws {s : State} {b : Batch} (hb : scaleRecord s = some b) (hr : b.rework = false)
    (hn : ((dosesOf s).map Dose.position).Nodup) (hroom : s.tx.length + (dosesOf s).length ≤ 8) :
    DrawsClosed b.number s (reworkScale s) := by
  have hnot : scaleRework s = false := by
    unfold scaleRework
    rw [hb]
    exact hr
  have hnum : scaleNumber s = b.number := by
    unfold scaleNumber scaleRef
    rw [hb]
    rfl
  rw [← hnum]
  by_cases hi : s.scale.state.inHand
  · exact reworkScale_inHand_draws hn hnot hi hroom
  · by_cases hw : s.scale.state.worked
    · exact reworkScale_worked_draws hn hnot hi hw hroom
    · exact reworkScale_idle_draws hnot hw

/-- R83: the scale stands where it stood, or has nothing left to dose. -/
theorem reworkScale_state {s : State} (hr : scaleRework s = false) : (reworkScale s).scale.state =
    if s.scale.state = .tare ∨ s.scale.state = .handAdd then .complete else s.scale.state := by
  have hzero : ∀ (d : Dose) (v : State), (zeroReport d v).scale.state = v.scale.state := fun d v => by
    unfold zeroReport
    dsimp only
    split
    · split
      · split <;> rw [queueFrame_only] <;> rfl
      · rfl
    · rfl
  have hclose : ∀ (ds : List Dose) (v : State), (closeWaiting ds v).scale.state = v.scale.state := fun ds => by
    induction ds with
    | nil => exact fun _ => rfl
    | cons d ds ih =>
      intro v
      unfold closeWaiting
      rw [ih]
      split
      · exact hzero d v
      · rfl
  by_cases hi : s.scale.state.inHand
  · rw [reworkScale_inHand hr hi, if_pos (show s.scale.state = .tare ∨ s.scale.state = .handAdd from hi)]
    rfl
  · rw [if_neg (show ¬(s.scale.state = .tare ∨ s.scale.state = .handAdd) from hi)]
    by_cases hw : s.scale.state.worked
    · rw [reworkScale_worked hr hi hw, hclose]
      rfl
    · rw [reworkScale_idle hr hw]
      rfl

end Sys2Proof.Machine
end

