-- ==== Sys2Proof/Proofs/Cancels.lean ====
section
/-! SUPPORT. R20, R21, R151: a RELEVEL, and a CANCEL by the order's state and what of it is on the line. -/
namespace Sys2Proof.Machine

/-! ### What a CANCEL begins with -/

theorem voidCharge_only (id : Nat) (s : State) : voidCharge id s = { s with bagger := (voidCharge id s).bagger } := by
  unfold voidCharge
  split
  · split <;> rfl
  · rfl

theorem voidCharge_charge {id : Nat} {s : State} {c : Charge} (hc : s.bagger.charge = some c) (ho : c.order = id)
    (hb : s.bagger.bucket ≠ .discharging) : (voidCharge id s).bagger.bucket = .charged
      ∧ (voidCharge id s).bagger.charge = some { c with outlet := .chute, cause := some .void } := by
  unfold voidCharge
  rw [hc]
  dsimp only
  rw [if_pos ⟨ho, hb⟩]
  refine ⟨rfl, ?_⟩
  show Option.map _ s.bagger.charge = _
  rw [hc]
  rfl

/-- R21: the book with the order cancelled and its remainders given up. -/
def cancelBase (id : Nat) (s : State) : State := updOrder id Order.cancel (releaseReservations id (voidCharge id s))

theorem cancelBase_only (id : Nat) (s : State) : cancelBase id s =
    { s with slots := (cancelBase id s).slots, reservations := (cancelBase id s).reservations
             bagger := (voidCharge id s).bagger } := by
  unfold cancelBase
  rw [updOrder_only, releaseReservations_only, voidCharge_only]

theorem findOrder_voidCharge (i id : Nat) (s : State) : findOrder i (voidCharge id s) = findOrder i s :=
  findOrder_congr (by rw [voidCharge_only]) i

theorem voidCharge_kept (id : Nat) (s : State) : (voidCharge id s).slots = s.slots
    ∧ (voidCharge id s).reservations = s.reservations ∧ (voidCharge id s).tx = s.tx ∧ (voidCharge id s).fin = s.fin := by
  rw [voidCharge_only]
  exact ⟨rfl, rfl, rfl, rfl⟩

theorem cancelOnLine_only (id : Nat) (s : State) : cancelOnLine id (voidCharge id s) =
    { flagOrder id (cancelBase id s) with fin := (cancelOnLine id (voidCharge id s)).fin } := by
  have h : cancelOnLine id (voidCharge id s) = if (flagOrder id (cancelBase id s)).fin.order = some id then
      { flagOrder id (cancelBase id s) with fin := { (flagOrder id (cancelBase id s)).fin with cancelled := true } }
      else flagOrder id (cancelBase id s) := rfl
  rw [h]
  split <;> rfl

theorem cancelOnLine_fin (id : Nat) (s : State) : (cancelOnLine id (voidCharge id s)).fin =
    { s.fin with
      entering := s.fin.entering && !s.press.feeds id .pressing && !s.mixer.feeds id .discharging
      cancelled := s.fin.cancelled || decide (s.fin.order = some id) } := by
  have hf : (flagOrder id (cancelBase id s)).fin = { s.fin with
      entering := s.fin.entering && !s.press.feeds id .pressing && !s.mixer.feeds id .discharging } := by
    rw [flagOrder_only, cancelBase_only]
    rfl
  have h : cancelOnLine id (voidCharge id s) = if (flagOrder id (cancelBase id s)).fin.order = some id then
      { flagOrder id (cancelBase id s) with fin := { (flagOrder id (cancelBase id s)).fin with cancelled := true } }
      else flagOrder id (cancelBase id s) := rfl
  rw [h, hf]
  split
  · rename_i ho
    rw [decide_eq_true ho, Bool.or_true]
  · rename_i ho
    rw [hf, decide_eq_false ho, Bool.or_false]

/-! ### The order where nothing of it is on the line, or some is (R21) -/

section Order
variable {id : Nat} {s : State} {o : Order} (ho : findOrder id s = some o) (hc : o.cancelled = false)

theorem onLine_iff (id : Nat) (s : State) : onLine id s = true ↔ inPipeline id s = true ∨ s.fin.order = some id := by
  simp [onLine]

theorem onLine_voidCharge (id : Nat) (s : State) : onLine id (voidCharge id s) = onLine id s := by
  rw [voidCharge_only]
  rfl

include ho

theorem takeCancel_cancelled (h : o.cancelled = true) : takeCancel id s = s := by
  unfold takeCancel
  rw [ho]
  exact if_pos h

include hc

theorem takeCancel_claiming (h : o.state = .claiming) : takeCancel id s = freeSlot id (voidCharge id s) := by
  unfold takeCancel
  rw [ho]
  dsimp only
  rw [if_neg (by simp [hc]), if_pos h]

theorem takeCancel_onLine (h : o.state ≠ .claiming) (hl : inPipeline id s = true ∨ s.fin.order = some id) :
    takeCancel id s = cancelOnLine id (voidCharge id s) := by
  unfold takeCancel
  rw [ho]
  dsimp only
  rw [if_neg (by simp [hc]), if_neg h, if_pos (by rw [onLine_voidCharge]; exact (onLine_iff id s).2 hl)]

theorem takeCancel_clear (h : o.state ≠ .claiming) (hl : ¬(inPipeline id s = true ∨ s.fin.order = some id)) :
    takeCancel id s = freeSlot id (queueNotice (.orderCancelled id o.tally o.plan.finished)
      (releaseReservations id (voidCharge id s))) := by
  have hid : o.id = id := (findOrder_mem ho).2
  have hclear : cancelClear o (voidCharge id s) = freeSlot id (queueNotice (.orderCancelled id o.tally o.plan.finished)
      (releaseReservations id (voidCharge id s))) := by
    unfold cancelClear
    rw [hid]
  unfold takeCancel
  rw [ho]
  dsimp only
  rw [if_neg (by simp [hc]), if_neg h, if_neg (by rw [onLine_voidCharge]; exact fun h' => hl ((onLine_iff id s).1 h')), hclear]

/-- R7, R21: what of a CANCEL holds whatever the order's state: the remainders, the charge, the other orders. -/
structure CancelKeeps (id : Nat) (o : Order) (s u : State) : Prop where
  bagger   : u.bagger = (voidCharge id s).bagger
  releases : Releases [o] s.reservations u.reservations
  others   : u.slots.filter (fun x => decide (x.id ≠ id)) = s.slots.filter (fun x => decide (x.id ≠ id))

omit ho hc in
theorem slots_released_others (id : Nat) (s : State) :
    (releaseReservations id s).slots.filter (fun x => decide (x.id ≠ id)) = s.slots.filter (fun x => decide (x.id ≠ id)) := by
  rw [releaseReservations_slots]
  exact slots_updOrder_others id (f := Order.released) (fun _ => rfl) s

omit ho hc in
theorem filter_filter_self {α : Type} (p : α → Bool) (l : List α) : (l.filter p).filter p = l.filter p := by
  rw [List.filter_filter]
  simp

omit hc in
theorem voidCharge_releases (ha : Apart s.reservations) :
    Releases [o] s.reservations (releaseReservations id (voidCharge id s)).reservations := by
  obtain ⟨-, hr, -, -⟩ := voidCharge_kept id s
  have h := releaseReservations_releases (id := id) (s := voidCharge id s) (hr ▸ ha) ((findOrder_voidCharge id id s).trans ho)
  rwa [hr] at h

theorem cancel_claiming_keeps (ha : Apart s.reservations) (h : o.state = .claiming) :
    CancelKeeps id o s (takeCancel id s) := by
  rw [takeCancel_claiming ho hc h]
  refine ⟨by rw [freeSlot_only], ?_, ?_⟩
  · rw [freeSlot_reservations]
    exact voidCharge_releases ho ha
  · rw [freeSlot_slots, filter_filter_self, (voidCharge_kept id s).1]

theorem cancel_clear_keeps (ha : Apart s.reservations) (h : o.state ≠ .claiming)
    (hl : ¬(inPipeline id s = true ∨ s.fin.order = some id)) : CancelKeeps id o s (takeCancel id s) := by
  rw [takeCancel_clear ho hc h hl]
  have hq : (queueNotice (.orderCancelled id o.tally o.plan.finished) (releaseReservations id (voidCharge id s))).reservations
      = (releaseReservations id (voidCharge id s)).reservations := by rw [queueNotice_only]
  have hf : findOrder id (queueNotice (.orderCancelled id o.tally o.plan.finished)
      (releaseReservations id (voidCharge id s))) = some o.released := by
    rw [findOrder_congr (queueNotice_slots _ _), findOrder_released ((findOrder_voidCharge id id s).trans ho)]
  have h1 := voidCharge_releases ho ha
  have hap : Apart (releaseReservations id (voidCharge id s)).reservations :=
    releaseReservations_apart id ((voidCharge_kept id s).2.1 ▸ ha)
  have h2 := releases_released (releaseReservations_releases (hq ▸ hap) hf)
  refine ⟨by rw [freeSlot_only, queueNotice_only, releaseReservations_only], fun code => ?_, ?_⟩
  · rw [freeSlot_reservations, h2, hq]
    exact h1 code
  · rw [freeSlot_slots, filter_filter_self, queueNotice_slots, slots_released_others, (voidCharge_kept id s).1]

theorem cancel_onLine_keeps (ha : Apart s.reservations) (h : o.state ≠ .claiming)
    (hl : inPipeline id s = true ∨ s.fin.order = some id) : CancelKeeps id o s (takeCancel id s) := by
  rw [takeCancel_onLine ho hc h hl]
  refine ⟨?_, ?_, ?_⟩
  · rw [cancelOnLine_only, flagOrder_only, cancelBase_only]
    rfl
  · rw [cancelOnLine_only, flagOrder_only]
    exact voidCharge_releases ho ha
  · rw [cancelOnLine_only, flagOrder_only]
    show (updOrder id Order.cancel _).slots.filter _ = _
    rw [slots_updOrder_others id (f := Order.cancel) (fun _ => rfl), slots_released_others, (voidCharge_kept id s).1]

theorem cancel_keeps (ha : Apart s.reservations) : CancelKeeps id o s (takeCancel id s) := by
  by_cases h : o.state = .claiming
  · exact cancel_claiming_keeps ho hc ha h
  · by_cases hl : inPipeline id s = true ∨ s.fin.order = some id
    · exact cancel_onLine_keeps ho hc ha h hl
    · exact cancel_clear_keeps ho hc ha h hl

/-- R21, R83, R118: the material of the order on the line, and its record. -/
structure CancelFlags (id : Nat) (o : Order) (s u : State) : Prop where
  order    : ∃ w, findOrder id u = some w ∧ w.cancelled = true ∧ w.plan.makeUp = none
    ∧ w.state = (if o.state = .active then .draining else o.state) ∧ ∀ r ∈ w.remainders, r.mass = 0
  pipeline : ∀ b ∈ pipeline u, b.order = some id → b.rework = true
  surge    : u.surge = flagged id s.surge
  mixer    : u.mixer = s.mixer.flaggedFrom id .discharging
  press    : u.press = s.press.flaggedFrom id .pressing
  fin      : u.fin = { s.fin with
    entering := s.fin.entering && !s.press.feeds id .pressing && !s.mixer.feeds id .discharging
    cancelled := s.fin.cancelled || decide (s.fin.order = some id) }
  scale    : ∀ b, scaleRecord s = some b → b.order = some id → b.rework = false → u.scale.state =
    (if s.scale.state = .tare ∨ s.scale.state = .handAdd then .complete else s.scale.state)

theorem cancel_flags (h : o.state ≠ .claiming) (hl : inPipeline id s = true ∨ s.fin.order = some id) :
    CancelFlags id o s (takeCancel id s) := by
  rw [takeCancel_onLine ho hc h hl]
  have hfind : findOrder id (cancelBase id s) = some o.released.cancel :=
    findOrder_updOrder_self (f := Order.cancel) (fun _ => rfl)
      (findOrder_released ((findOrder_voidCharge id id s).trans ho))
  have hslots : (cancelOnLine id (voidCharge id s)).slots = (cancelBase id s).slots := by
    rw [cancelOnLine_only, flagOrder_only]
    rfl
  refine ⟨⟨_, (findOrder_congr hslots id).trans hfind, rfl, rfl, rfl, fun r hr => ?_⟩, ?_, ?_, ?_, ?_, cancelOnLine_fin id s,
    fun b hb hbo hbr => ?_⟩
  · obtain ⟨q, -, rfl⟩ := List.mem_map.1 hr
    rfl
  · have hp : pipeline (cancelOnLine id (voidCharge id s)) = pipeline (flagOrder id (cancelBase id s)) := by
      rw [cancelOnLine_only]
      rfl
    rw [hp]
    exact flagOrder_pipeline id _
  · rw [cancelOnLine_only, flagOrder_only, cancelBase_only]
    rfl
  · rw [cancelOnLine_only, flagOrder_only, cancelBase_only]
    rfl
  · rw [cancelOnLine_only, flagOrder_only, cancelBase_only]
    rfl
  · have hbase : scaleRecord (cancelBase id s) = some b := by
      rw [cancelBase_only]
      exact hb
    have hstate : (flagLine id (cancelBase id s)).scale = s.scale := by
      rw [cancelBase_only]
      rfl
    have hrework : scaleRework (flagLine id (cancelBase id s)) = false := by
      have hrec : scaleRecord (flagLine id (cancelBase id s)) = some b := hbase
      unfold scaleRework
      rw [hrec]
      exact hbr
    have hof : ofOrder id (scaleRecord (cancelBase id s)) = true := by
      rw [hbase]
      exact decide_eq_true hbo
    have hscale : (cancelOnLine id (voidCharge id s)).scale = (reworkScale (flagLine id (cancelBase id s))).scale := by
      rw [cancelOnLine_only, flagOrder_eq, if_pos hof]
    rw [hscale, reworkScale_state hrework, hstate]

/-- R47, R83: the draws of the order's batch in the scale. -/
theorem cancel_draws (h : o.state ≠ .claiming) {b : Batch} (hb : scaleRecord s = some b) (hbo : b.order = some id)
    (hbr : b.rework = false) (hn : ((dosesOf s).map Dose.position).Nodup)
    (hroom : s.tx.length + (dosesOf s).length ≤ 8) : DrawsClosed b.number s (takeCancel id s) := by
  have hl : inPipeline id s = true := (inPipeline_iff id s).2 ⟨b, Or.inr (Or.inr (Or.inr hb)), hbo⟩
  rw [takeCancel_onLine ho hc h (Or.inl hl)]
  have hbase : scaleRecord (cancelBase id s) = some b := by
    rw [cancelBase_only]
    exact hb
  have hof : ofOrder id (scaleRecord (cancelBase id s)) = true := by
    rw [hbase]
    exact decide_eq_true hbo
  have hline : (flagLine id (cancelBase id s)).scale = s.scale ∧ (flagLine id (cancelBase id s)).plan = s.plan
      ∧ (flagLine id (cancelBase id s)).tx = s.tx ∧ (flagLine id (cancelBase id s)).bins = s.bins := by
    rw [cancelBase_only]
    exact ⟨rfl, rfl, rfl, rfl⟩
  obtain ⟨h1, h2, h3, h4⟩ := hline
  have hd : dosesOf (flagLine id (cancelBase id s)) = dosesOf s := by
    unfold dosesOf
    rw [h1]
  have hdraws := reworkScale_draws (s := flagLine id (cancelBase id s)) hbase hbr (by rwa [hd]) (by rwa [hd, h3])
  have hu : cancelOnLine id (voidCharge id s) = { reworkScale (flagLine id (cancelBase id s)) with
      fin := (cancelOnLine id (voidCharge id s)).fin } := by
    rw [cancelOnLine_only, flagOrder_eq, if_pos hof]
  refine hdraws.congr h1.symm h2.symm h3.symm h4.symm ?_ ?_ ?_ ?_ <;> rw [hu]

end Order

/-! ### The frames (R20, R21, R194) -/

theorem field_be2 (n : Nat) (h : n < 65536) : field 0 2 (be2 n) = n := by
  have hf := field_at 0 2 [] (be2 n) [] rfl rfl
  rw [List.append_nil, List.nil_append] at hf
  rw [hf, beNat_be2 n h]

theorem becomes_cancel {s s1 : State} {f : RawFrame} {id : Nat} (hid : id < 65536) (hp : f.payload = be2 id)
    (h : Arrives .orderBook 0x07 f s s1) : Becomes .cancel s (takeCancel id s1) := by
  have hb : Becomes .cancel s (takeCancel (field 0 2 f.payload) s1) := frameEvent_arrives h _
  rwa [hp, field_be2 id hid] at hb

theorem becomes_relevel {s s1 : State} {f : RawFrame} {id level group : Nat} (hid : id < 65536) (hl : level < 256)
    (hg : group < 256) (hp : f.payload = be2 id ++ be1 level ++ be1 group) (h : Arrives .orderBook 0x06 f s s1) :
    Becomes .relevel s (takeRelevel id level group s1) := by
  have hb : Becomes .relevel s (takeRelevel (field 0 2 f.payload) (byteAt 2 f.payload) (byteAt 3 f.payload) s1) :=
    frameEvent_arrives h _
  have h1 : field 0 2 (be2 id ++ be1 level ++ be1 group) = id := by
    rw [List.append_assoc, field_here_be2, beNat_be2 id hid]
  have h2 : byteAt 2 (be2 id ++ be1 level ++ be1 group) = level := byteAt_at 2 (be2 id) (be1 group) level rfl hl
  have h3 : byteAt 3 (be2 id ++ be1 level ++ be1 group) = group := by
    have h := byteAt_at 3 (be2 id ++ be1 level) [] group rfl hg
    rwa [List.append_nil] at h
  rwa [hp, h1, h2, h3] at hb

/-- A frame that arrives leaves the node as it was but for the receiver. -/
theorem arrives_rx {block : Block} {kind : Nat} {f : RawFrame} {s s1 : State} (h : Arrives block kind f s s1) :
    ∃ rx, s1 = { s with rx := rx } := by
  obtain ⟨-, -, -, before, after, -, -, rfl⟩ := h
  exact ⟨_, rfl⟩

theorem takeRelevel_eq (id level group : Nat) (s : State) : takeRelevel id level group s =
    if 15 < level ∨ 3 < group then s
    else { s with slots := s.slots.map (fun o =>
      if o.id = id ∧ o.cancelled = false then
        { o with level := level, group := group
                 state := if o.state = .active ∧ level = 0 then .held else o.state }
      else o) } := by
  unfold takeRelevel updOrder Order.relevel
  split
  · rfl
  · refine congrArg (fun l => { s with slots := l }) (List.map_congr_left (fun o _ => ?_))
    by_cases hid : o.id = id
    · cases hc : o.cancelled <;> simp [hid, hc]
    · simp [hid]

/-! ### The obligation -/

/-- Settles O23: a RELEVEL by its record, a CANCEL by the order's state, and the draws of its batch in the scale by the
reports that answer them. -/
theorem relevelAndCancelChangeOrder : Obligations.RelevelAndCancelChangeOrder := by
  unfold Obligations.RelevelAndCancelChangeOrder
  refine ⟨fun s s1 f id level group hid hl hg hp ha => ?_, fun s s1 f id hid hp ha hk => ⟨fun hn => ?_, fun o ho =>
    ⟨fun hc => ?_, fun hc => ?_⟩⟩, fun s s1 f id o b hid hp ha hk ho hc hst hb hbo hbr hroom => ?_⟩
  · rw [← takeRelevel_eq]
    exact becomes_relevel hid hl hg hp ha
  · have h := becomes_cancel hid hp ha
    obtain ⟨rx, rfl⟩ := arrives_rx ha
    have hn' : findOrder id { s with rx := rx } = none := hn
    unfold takeCancel at h
    rwa [hn'] at h
  · have h := becomes_cancel hid hp ha
    obtain ⟨rx, rfl⟩ := arrives_rx ha
    rwa [takeCancel_cancelled (s := { s with rx := rx }) ho hc] at h
  · obtain ⟨rx, rfl⟩ := arrives_rx ha
    have ho' : findOrder id { s with rx := rx } = some o := ho
    obtain ⟨-, -, -, hapart, -⟩ := hk
    have hkeeps := cancel_keeps ho' hc hapart
    refine ⟨takeCancel id { s with rx := rx }, becomes_cancel hid hp ha, fun c hch hco hbu => ?_, fun hs => ?_,
      hkeeps.releases, fun hs hn hf => ?_, fun hs hl => ?_, hkeeps.others⟩
    · rw [hkeeps.bagger]
      exact voidCharge_charge (s := { s with rx := rx }) hch hco hbu
    · obtain ⟨h1, -, h3, h4⟩ := voidCharge_kept id { s with rx := rx }
      rw [takeCancel_claiming ho' hc hs, freeSlot_slots, h1]
      refine ⟨rfl, ?_, ?_⟩
      · rw [freeSlot_only]
        exact h3
      · rw [freeSlot_only]
        exact h4
    · have hl : ¬(inPipeline id { s with rx := rx } = true ∨ s.fin.order = some id) := by
        rintro (h | h)
        · exact Bool.false_ne_true (hn.symm.trans h)
        · exact hf h
      obtain ⟨h1, -, h3, -⟩ := voidCharge_kept id { s with rx := rx }
      rw [takeCancel_clear ho' hc hs hl]
      refine ⟨?_, fun hroom => ?_⟩
      · rw [freeSlot_slots, queueNotice_slots, slots_released_others, h1]
      · rw [freeSlot_only]
        show (queueNotice _ _).tx = _
        have htx : (releaseReservations id (voidCharge id { s with rx := rx })).tx = s.tx :=
          (releaseReservations_tx id _).trans h3
        rw [queueNotice_room _ (by rwa [htx]), htx]
    · have hflags := cancel_flags ho' hc hs hl
      obtain ⟨w, h1, h2, h3, h4, h5⟩ := hflags.order
      refine ⟨w, h1, h2, h3, h4, h5, hflags.pipeline, fun hf => ?_, hflags.surge, fun hf => ?_, fun hf => ?_, fun hf => ?_,
        fun hf => ?_, fun hf => ?_, fun hm hp' => ?_, hflags.scale⟩
      · rw [hflags.fin]
        have hd : decide (s.fin.order = some id) = true := decide_eq_true hf
        simp [hd]
      · rw [hflags.mixer]
        exact flaggedFrom_feeds hf
      · rw [hflags.mixer]
        exact flaggedFrom_not hf
      · rw [hflags.press]
        exact flaggedFrom_feeds hf
      · rw [hflags.press]
        exact flaggedFrom_not hf
      · rw [hflags.fin]
        rcases hf with hf | hf <;> rw [← feeds_iff] at hf <;> simp [hf]
      · rw [hflags.fin]
        rw [← feeds_false_iff] at hm hp'
        simp [hm, hp']
  · obtain ⟨rx, rfl⟩ := arrives_rx ha
    have ho' : findOrder id { s with rx := rx } = some o := ho
    obtain ⟨-, -, -, -, hpos, -⟩ := hk
    have hdraws := cancel_draws ho' hc hst hb hbo hbr hpos hroom
    exact ⟨takeCancel id { s with rx := rx }, becomes_cancel hid hp ha, hdraws.bins, hdraws.inHand, hdraws.worked,
      hdraws.idle, hdraws.count, hdraws.ends⟩

end Sys2Proof.Machine
end

