-- ==== Sys2Proof/Proofs/ClaimsAndTakes.lean ====
section
/-! SUPPORT. R32 to R39: a claim against the best rival of a slot, and each way a take meets the order it names. -/
namespace Sys2Proof.Machine

/-! ### Which claim ranks ahead (R32, R35) -/

theorem claimAhead_iff (a b : Rival) :
    claimAhead a b = true ↔ a.lead < b.lead ∨ (a.lead = b.lead ∧ a.node < b.node) := decide_eq_true_iff

/-- R35: against what is not started, a started take ranks ahead, and any other where its claim does. -/
theorem takeAhead_unstarted (started : Bool) (a b : Rival) :
    takeAhead started a false b = true ↔ started = true ∨ claimAhead a b = true := by
  cases started <;> simp [takeAhead]

/-- R35: a take that is not started never ranks ahead of a started one. -/
theorem unstarted_takeAhead (a : Rival) (started : Bool) (b : Rival) :
    takeAhead false a started b = true ↔ started = false ∧ claimAhead a b = true := by
  cases started <;> simp [takeAhead]

/-! ### A claim (R32) -/

theorem hearClaim_first {o : Order} (c : Rival) (h : o.rival = none) : o.hearClaim c = { o with rival := some c } := by
  unfold Order.hearClaim
  rw [h]

theorem hearClaim_against {o : Order} {r : Rival} (c : Rival) (h : o.rival = some r) :
    o.hearClaim c = { o with rival := if c.lead < r.lead ∨ (c.lead = r.lead ∧ c.node < r.node) then some c else some r } := by
  unfold Order.hearClaim
  rw [h]
  dsimp only
  simp only [claimAhead_iff]
  split
  · rfl
  · rw [← h]

/-- A claim of the office has no effect (R39). -/
theorem takeClaim_office (id lead : Nat) (s : State) : takeClaim 31 id lead s = s := rfl

theorem takeClaim_node {source : Nat} (h : source ≠ 31) (id lead : Nat) (s : State) : takeClaim source id lead s =
    { s with slots := s.slots.map (fun o =>
      if o.id = id ∧ o.state = .claiming then o.hearClaim { node := source, lead := lead } else o) } := by
  unfold takeClaim updOrder
  rw [if_neg h]
  simp only [ite_and]

/-! ### How a take meets an order (R33, R36 to R38) -/

section Meets
variable {other : Rival} {started : Bool} {o : Order} {s : State}

/-- R33: a better take ends the claiming. -/
theorem meetTake_ends_claiming (hc : o.state = .claiming)
    (ha : started = true ∨ claimAhead other (ownRival o s) = true) : meetTake other started o s = freeSlot o.id s := by
  unfold meetTake
  rw [if_pos hc, if_pos ((takeAhead_unstarted _ _ _).2 ha)]

/-- R33: any other take counts as a claim. -/
theorem meetTake_heard_as_claim (hc : o.state = .claiming) (hs : started = false)
    (hn : ¬claimAhead other (ownRival o s) = true) :
    meetTake other started o s = updOrder o.id (Order.hearClaim other) s := by
  have hb : ¬takeAhead started other false (ownRival o s) = true := by
    rw [takeAhead_unstarted, hs]
    exact not_or.2 ⟨Bool.false_ne_true, hn⟩
  unfold meetTake
  rw [if_pos hc, if_neg hb]

/-- R38: both nodes have started the order. -/
theorem meetTake_duplicate (hc : o.state ≠ .claiming) (hs : started = true) (ho : o.started = true) :
    meetTake other started o s = raiseFault .duplicateTake (some o.id) [.byte other.node] s := by
  unfold meetTake
  rw [if_neg hc, if_pos ⟨hs, ho⟩]

/-- R36: the order, not started, is yielded to the better take. -/
theorem meetTake_yields (hc : o.state ≠ .claiming) (ho : o.started = false)
    (ha : started = true ∨ claimAhead other (ownRival o s) = true) : meetTake other started o s = yieldOrder o.id s := by
  have hd : ¬(started = true ∧ o.started = true) := fun h => Bool.false_ne_true (ho.symm.trans h.2)
  unfold meetTake
  rw [if_neg hc, if_neg hd, ho, if_pos ((takeAhead_unstarted _ _ _).2 ha)]

/-- R37: the own take is the better one, and is sent again. -/
theorem meetTake_takes_again (hc : o.state ≠ .claiming) (hs : started = false)
    (hn : o.started = true ∨ ¬claimAhead other (ownRival o s) = true) :
    meetTake other started o s = queueFrame (.take o.id o.lead o.started) s := by
  have hd : ¬(started = true ∧ o.started = true) := fun h => Bool.false_ne_true (hs.symm.trans h.1)
  have hb : ¬takeAhead started other o.started (ownRival o s) = true := by
    rw [hs, unstarted_takeAhead]
    rintro ⟨ho, ha⟩
    exact hn.elim (fun h => Bool.false_ne_true (ho.symm.trans h)) (fun h => h ha)
  unfold meetTake
  rw [if_neg hc, if_neg hd, if_neg hb]

end Meets

/-! ### A take (R33, R36 to R39) -/

/-- R39, R194: the office's take, one of no meaning and one of an order not held have no effect. -/
theorem takeTake_unheard {source id lead started : Nat} {s : State}
    (h : source = 31 ∨ 1 < started ∨ findOrder id s = none) : takeTake source id lead started s = s := by
  unfold takeTake
  split
  · rfl
  · rename_i hn
    rw [(or_assoc.2 h).resolve_left hn]

theorem takeTake_meets {source id lead started : Nat} {o : Order} {s : State} (h31 : source ≠ 31) (h1 : started ≤ 1)
    (ho : findOrder id s = some o) : takeTake source id lead started s =
      meetTake { node := source, lead := lead } (decide (started = 1)) o s := by
  unfold takeTake
  rw [if_neg (not_or.2 ⟨h31, Nat.not_lt.2 h1⟩), ho]

/-! ### The frames (R194) -/

theorem becomes_claim {s s1 : State} {f : RawFrame} {id lead : Nat} (hid : id < 65536) (hl : lead < 65536)
    (hp : f.payload = be2 id ++ be2 lead) (h : Arrives .orderBook 0x03 f s s1) :
    Becomes .claim s (takeClaim f.source.toNat id lead s1) := by
  have hb : Becomes .claim s (takeClaim f.source.toNat (field 0 2 f.payload) (field 2 2 f.payload) s1) :=
    frameEvent_arrives h _
  have h1 : field 0 2 (be2 id ++ be2 lead) = id := by rw [field_here_be2, beNat_be2 id hid]
  have h2 : field 2 2 (be2 id ++ be2 lead) = lead := (field_skip_be2 0 2 id _).trans (field_be2 lead hl)
  rwa [hp, h1, h2] at hb

theorem becomes_take {s s1 : State} {f : RawFrame} {id lead started : Nat} (hid : id < 65536) (hl : lead < 65536)
    (hs : started < 256) (hp : f.payload = be2 id ++ be2 lead ++ be1 started) (h : Arrives .orderBook 0x04 f s s1) :
    Becomes .take s (takeTake f.source.toNat id lead started s1) := by
  have hb : Becomes .take s (takeTake f.source.toNat (field 0 2 f.payload) (field 2 2 f.payload)
      (byteAt 4 f.payload) s1) := frameEvent_arrives h _
  have h1 : field 0 2 (be2 id ++ be2 lead ++ be1 started) = id := by
    rw [List.append_assoc, field_here_be2, beNat_be2 id hid]
  have h2 : field 2 2 (be2 id ++ be2 lead ++ be1 started) = lead := by
    rw [field_at 2 2 (be2 id) (be2 lead) (be1 started) rfl rfl, beNat_be2 lead hl]
  have h3 : byteAt 4 (be2 id ++ be2 lead ++ be1 started) = started := by
    have h := byteAt_at 4 (be2 id ++ be2 lead) [] started rfl hs
    rwa [List.append_nil] at h
  rwa [hp, h1, h2, h3] at hb

/-- R33, R36 to R39: the take that arrives meets the order it names, as the book held it before. -/
theorem becomes_meetTake {s s1 : State} {f : RawFrame} {id lead started : Nat} {o : Order} (hid : id < 65536)
    (hl : lead < 65536) (h1 : started ≤ 1) (hp : f.payload = be2 id ++ be2 lead ++ be1 started)
    (h : Arrives .orderBook 0x04 f s s1) (h31 : f.source.toNat ≠ 31) (ho : findOrder id s = some o) :
    Becomes .take s (meetTake { node := f.source.toNat, lead := lead } (decide (started = 1)) o s1) := by
  have hb := becomes_take hid hl (by omega) hp h
  obtain ⟨rx, rfl⟩ := arrives_rx h
  rwa [takeTake_meets (s := { s with rx := rx }) h31 h1 ho] at hb

/-! ### The obligation -/

/-- Settles O21, by the equation of each way a claim and a take meet an order. -/
theorem claimsAndTakesMeetOrders : Obligations.ClaimsAndTakesMeetOrders := by
  unfold Obligations.ClaimsAndTakesMeetOrders
  refine ⟨fun s s1 f id lead hid hl hp ha => ?_, fun s s1 f ha => frameEvent_arrives ha _,
    fun s s1 f id lead started hid hl hs hp ha => ⟨fun h => ?_, fun o h31 h1 ho => ?_⟩⟩
  · dsimp only
    have hb := becomes_claim hid hl hp ha
    by_cases h31 : f.source.toNat = 31
    · rw [h31, takeClaim_office] at hb
      rwa [if_pos h31]
    · rw [takeClaim_node h31] at hb
      rw [if_neg h31]
      refine Eq.mp (congrArg (fun l => Becomes .claim s { s1 with slots := l }) (List.map_congr_left fun o _ => ?_)) hb
      refine if_congr Iff.rfl ?_ rfl
      cases hr : o.rival with
      | none => exact hearClaim_first _ hr
      | some r => exact hearClaim_against _ hr
  · have hb := becomes_take hid hl hs hp ha
    obtain ⟨rx, rfl⟩ := arrives_rx ha
    rwa [takeTake_unheard (s := { s with rx := rx }) h] at hb
  · have hb := becomes_meetTake hid hl h1 hp ha h31 ho
    obtain ⟨-, rfl⟩ := findOrder_mem ho
    obtain ⟨rx, rfl⟩ := arrives_rx ha
    have hahead := claimAhead_iff { node := f.source.toNat, lead := lead } (ownRival o { s with rx := rx })
    have hone : started = 1 → decide (started = 1) = true := decide_eq_true
    have hzero : started = 0 → decide (started = 1) = false := fun h => decide_eq_false (by omega)
    refine ⟨fun hc h => ?_, fun hc h hn => ?_, fun hc h hst => ?_, fun hc hst h => ?_, fun hc h hn => ?_⟩
    · rwa [meetTake_ends_claiming hc (h.imp hone hahead.2)] at hb
    · rwa [meetTake_heard_as_claim hc (hzero h) (mt hahead.1 hn)] at hb
    · rwa [meetTake_duplicate hc (hone h) hst] at hb
    · rwa [meetTake_yields hc hst (h.imp hone hahead.2)] at hb
    · rwa [meetTake_takes_again hc (hzero h) (hn.imp_right (mt hahead.1))] at hb

end Sys2Proof.Machine
end

