-- ==== Sys2Proof/Proofs/BinNews.lean ====
section
/-! SUPPORT. R44, R45, R48, R49, R51, R59: what the news of the bus and of a level sensor does to the entries of the bins
and to the pending peer draws, the payloads of the frames read back. -/
namespace Sys2Proof.Machine

/-! ### The payloads (R194) -/

theorem byteAt_be1 (n : Nat) (h : n < 256) : byteAt 0 (be1 n) = n := by
  have := byteAt_here_be1 n [] h
  rwa [List.append_nil] at this

theorem field_be3 (n : Nat) (h : n < 16777216) : field 0 3 (be3 n) = n := by
  have := field_here_be3 n []
  rwa [List.append_nil, beNat_be3 n h] at this

/-- R44: the bytes of an INTAKE read back. -/
theorem becomes_intake {s s1 : State} {f : RawFrame} {bin code mass : Nat} (hb : bin < 256) (hc : code < 65536)
    (hm : mass < 16777216) (hp : f.payload = be1 bin ++ be2 code ++ be3 mass) (h : Arrives .binView 0x09 f s s1) :
    Becomes .intake s (takeIntake bin code mass s1) := by
  have hf : Becomes .intake s (takeIntake (byteAt 0 f.payload) (field 1 2 f.payload) (field 3 3 f.payload) s1) :=
    frameEvent_arrives h _
  have h1 : byteAt 0 (be1 bin ++ be2 code ++ be3 mass) = bin := by rw [List.append_assoc, byteAt_here_be1 _ _ hb]
  have h2 : field 1 2 (be1 bin ++ be2 code ++ be3 mass) = code := by
    rw [field_at 1 2 (be1 bin) (be2 code) (be3 mass) rfl rfl, beNat_be2 code hc]
  have h3 : field 3 3 (be1 bin ++ be2 code ++ be3 mass) = mass :=
    (field_skip 0 3 (be3 mass) (be1 bin ++ be2 code) rfl).trans (field_be3 mass hm)
  rwa [hp, h1, h2, h3] at hf

/-- R45: the optional last field of a LEVEL. -/
def codeBytes (code : Option Nat) : List Byte :=
  match code with
  | some c => be2 c
  | none => []

/-- R45: the bytes of a LEVEL read back, in both its lengths. -/
theorem takeLevel_bytes (source bin mass : Nat) (code : Option Nat) (s : State) (hb : bin < 256) (hm : mass < 16777216)
    (hc : ∀ c, code = some c → c < 65536) :
    takeLevel source (be1 bin ++ be3 mass ++ codeBytes code) s =
      if 1 ≤ bin ∧ bin ≤ 48 then applyLevel bin mass source code s else s := by
  have h1 : byteAt 0 (be1 bin ++ be3 mass ++ codeBytes code) = bin := by rw [List.append_assoc, byteAt_here_be1 _ _ hb]
  have h2 : field 1 3 (be1 bin ++ be3 mass ++ codeBytes code) = mass := by
    rw [field_at 1 3 (be1 bin) (be3 mass) (codeBytes code) rfl rfl, beNat_be3 mass hm]
  have h3 : (if (be1 bin ++ be3 mass ++ codeBytes code).length = 6
      then some (field 4 2 (be1 bin ++ be3 mass ++ codeBytes code)) else none) = code := by
    cases code with
    | none => rfl
    | some c =>
      have hf : field 4 2 (be1 bin ++ be3 mass ++ be2 c) = c :=
        (field_skip 0 2 (be2 c) (be1 bin ++ be3 mass) rfl).trans (field_be2 c (hc c rfl))
      exact (if_pos rfl).trans (congrArg some hf)
  unfold takeLevel
  simp only [h1, h2, h3]

/-- R48: the bytes of a DRAW-NOTICE read back, however many its pairs. -/
theorem takeDrawNotice_bytes (source batch : Nat) (pairs : List (Nat × Nat)) (s : State) (hb : batch < 65536)
    (hp : ∀ p ∈ pairs, p.1 < 256 ∧ p.2 < 16777216) :
    takeDrawNotice source (be2 batch ++ (pairs.map (fun p => be1 p.1 ++ be3 p.2)).flatten) s =
      if source = 31 then s else { s with peers := noticePairs source batch pairs s.peers } := by
  have hlen : ((pairs.map (fun p => be1 p.1 ++ be3 p.2)).flatten).length = pairs.length * 4 := by
    simp [List.length_flatten, Function.comp_def]
  have hcount : ((be2 batch ++ (pairs.map (fun p => be1 p.1 ++ be3 p.2)).flatten).length - 2) / 4 = pairs.length := by
    rw [List.length_append, be2_length, hlen]; omega
  have hdrop : (be2 batch ++ (pairs.map (fun p => be1 p.1 ++ be3 p.2)).flatten).drop 2
      = (pairs.map (fun p => be1 p.1 ++ be3 p.2)).flatten := rfl
  have hread := pairsOf_flatten 3 be3 be3_length pairs (fun p h => (hp p h).1) (fun p h => beNat_be3 p.2 (hp p h).2)
  unfold takeDrawNotice
  rw [hcount, hdrop, hread, field_here_be2, beNat_be2 batch hb]

/-- R49: the bytes of a DRAW-REPORT read back. -/
theorem becomes_drawReport {s s1 : State} {f : RawFrame} {batch bin actual : Nat} (hb : batch < 65536) (hn : bin < 256)
    (ha : actual < 16777216) (hp : f.payload = be2 batch ++ be1 bin ++ be3 actual) (h : Arrives .binView 0x0C f s s1) :
    Becomes .drawReport s (takeDrawReport f.source.toNat batch bin actual s1) := by
  have hf : Becomes .drawReport s
      (takeDrawReport f.source.toNat (field 0 2 f.payload) (byteAt 2 f.payload) (field 3 3 f.payload) s1) :=
    frameEvent_arrives h _
  have h1 : field 0 2 (be2 batch ++ be1 bin ++ be3 actual) = batch := by
    rw [List.append_assoc, field_here_be2, beNat_be2 batch hb]
  have h2 : byteAt 2 (be2 batch ++ be1 bin ++ be3 actual) = bin := byteAt_at 2 (be2 batch) (be3 actual) bin rfl hn
  have h3 : field 3 3 (be2 batch ++ be1 bin ++ be3 actual) = actual :=
    (field_skip 0 3 (be3 actual) (be2 batch ++ be1 bin) rfl).trans (field_be3 actual ha)
  rwa [hp, h1, h2, h3] at hf

/-! ### Entries (R44, R45) -/

theorem intakeEntry_eq (code mass : Nat) (e : BinEntry) : intakeEntry code mass e =
    { e with ingredient := some code
             estimate := some (min 16777215
              ((if e.ingredient.isSome ∧ e.ingredient ≠ some code then 0 else e.estimate.getD 0) + mass))
             age := 0, stale := false, uncertain := false, emptySuspect := false } := by
  unfold intakeEntry
  cases e.ingredient with
  | none => simp [satMass_eq]
  | some i => by_cases h : i = code <;> simp [h, satMass_eq]

theorem levelEntry_eq (source mass : Nat) (code : Option Nat) (e : BinEntry) : levelEntry source mass code e =
    { e with estimate := some mass, reporter := some source, age := 0, stale := false
             uncertain := false, emptySuspect := false
             ingredient := (match code with
              | some c => if c = 0 ∨ 61440 ≤ c then e.ingredient else some c
              | none => e.ingredient) } := by
  unfold levelEntry
  cases code with
  | none => rfl
  | some c =>
    refine congrArg (fun i => BinEntry.mk _ i _ _ _ _ _ _ _ _) ?_
    by_cases h : 1 ≤ c ∧ c < 61440
    · exact (if_pos h).trans (if_neg (by omega)).symm
    · exact (if_neg h).trans (if_pos (by omega)).symm

/-! ### Peer draws (R48, R49, R51) -/

theorem not_same_eq (node batch bin : Nat) (p : PeerDraw) :
    (!p.same node batch bin) = !decide (p.node = node ∧ p.batch = batch ∧ p.bin = bin) := by
  simp [PeerDraw.same, Bool.decide_and, Bool.and_assoc]

/-- R48: of a list of at most 64, the record like the new one leaves, and the oldest of a list still full. -/
theorem pushPeer_eq_joinPeer {node batch bin target : Nat} {l : List PeerDraw} (hl : l.length ≤ 64) (h1 : 1 ≤ bin)
    (h48 : bin ≤ 48) :
    pushPeer { node := node, batch := batch, bin := bin, target := target, age := 0 } l = joinPeer node batch l (bin, target) := by
  have hlen : (l.filter (fun r => !decide (r.node = node ∧ r.batch = batch ∧ r.bin = bin))).length ≤ 64 :=
    (List.length_filter_le _ _).trans hl
  have hf : l.filter (fun p => !p.same node batch bin)
      = l.filter (fun r => !decide (r.node = node ∧ r.batch = batch ∧ r.bin = bin)) :=
    congrArg (fun q => l.filter q) (funext (not_same_eq node batch bin))
  unfold pushPeer joinPeer
  rw [if_pos ⟨h1, h48⟩]
  dsimp only
  rw [hf]
  split
  · rename_i hroom
    rw [Nat.sub_eq_zero_of_le (by omega), List.drop_zero]
  · rename_i hfull
    rw [show (l.filter (fun r => !decide (r.node = node ∧ r.batch = batch ∧ r.bin = bin))).length - 63 = 1 by omega]

/-- R48: the pairs of a notice join one by one. -/
theorem noticePairs_eq_foldl (node batch : Nat) (pairs : List (Nat × Nat)) (l : List PeerDraw) (hl : l.length ≤ 64) :
    noticePairs node batch pairs l = pairs.foldl (joinPeer node batch) l := by
  induction pairs generalizing l with
  | nil => rfl
  | cons p ps ih =>
    unfold noticePairs
    rw [List.foldl_cons]
    split
    · rename_i hp
      rw [ih _ (pushPeer_length _ _ hl), pushPeer_eq_joinPeer hl hp.1 hp.2]
    · rename_i hp
      rw [ih _ hl, show joinPeer node batch l p = l from if_neg hp]

/-! ### A reading of a level sensor (R59, R100) -/

/-- R198: a frame that has room stands last in the queue. -/
theorem queueFrame_tx_room {b : Body} {s : State} (h : s.tx.length < 8) :
    (queueFrame b s).tx = s.tx ++ [OutEntry.fresh b] := by rw [queueFrame_room b h]

theorem le_distance_iff (m n d : Nat) : d ≤ m - n + (n - m) ↔ m + d ≤ n ∨ n + d ≤ m := by omega

theorem levelDue_iff (r : LevelRec) (mass : Nat) (s : State) : levelDue r mass s = true ↔ r.lastSent = none
    ∨ (∃ m, r.lastSent = some m ∧ (m + s.params.levelStep ≤ mass ∨ mass + s.params.levelStep ≤ m))
    ∨ s.params.levelSendPeriod ≤ r.since := by
  unfold levelDue
  cases r.lastSent with
  | none => simp
  | some last => simp [le_distance_iff last mass s.params.levelStep]

section Reading
variable {k reading : Nat} {r : LevelRec} {p : LevelParams} {s : State} (hr : s.levels[k]? = some r)
  (hp : s.params.levels[k]? = some p)
include hr hp

/-- R59: a sensor that is wired to no bin, a reading out of range and one that is not due change nothing. -/
theorem readLevel_unheard (h : r.bin = 0 ∨ 1000 < reading ∨ ¬levelDue r (levelMass reading p.capacity) s = true) :
    readLevel k reading s = s := by
  unfold readLevel levelSensor
  rw [hr, hp]
  dsimp only
  by_cases hb : r.bin = 0
  · rw [if_pos hb]
  · rw [if_neg hb]
    dsimp only
    split
    · rfl
    · rename_i hn
      exact if_neg ((h.resolve_left hb).resolve_left hn)

theorem readLevel_sent (hb : r.bin ≠ 0) (hn : reading ≤ 1000) (hd : levelDue r (levelMass reading p.capacity) s = true) :
    readLevel k reading s = applyLevel r.bin (levelMass reading p.capacity) s.straps.node none
      (queueFrame (.level r.bin (levelMass reading p.capacity)) { s with
        levels := s.levels.modify k
          (fun r => { r with lastSent := some (levelMass reading p.capacity), since := 0 }) }) := by
  unfold readLevel levelSensor
  rw [hr, hp]
  dsimp only
  rw [if_neg hb]
  dsimp only
  rw [if_neg (Nat.not_lt.2 hn), if_pos hd]

end Reading

/-! ### The obligations -/

/-- Settles O15, the payload read back and the entry compared field by field. -/
theorem intakeRefillsBin : Obligations.IntakeRefillsBin := by
  unfold Obligations.IntakeRefillsBin
  intro s s1 f bin code mass hb hc hm hp ha
  have h := becomes_intake hb hc hm hp ha
  unfold takeIntake updBin at h
  rw [funext (intakeEntry_eq code mass)] at h
  split
  · rename_i hbad
    rwa [if_neg (by omega)] at h
  · rename_i hgood
    rwa [if_pos (by omega)] at h

/-- Settles O16: the frame's payload read back in both its lengths, and the branches of a reading. -/
theorem levelReplacesEstimate : Obligations.LevelReplacesEstimate := by
  unfold Obligations.LevelReplacesEstimate
  refine ⟨fun s s1 f bin mass code hb hm hc hp ha => ?_, fun s k n r p hready hr hpar => ?_⟩
  · have h : Becomes .level s (takeLevel f.source.toNat f.payload s1) := frameEvent_arrives ha _
    have hp : f.payload = be1 bin ++ be3 mass ++ codeBytes code := hp.trans (by cases code <;> rfl)
    rw [hp, takeLevel_bytes _ _ _ _ _ hb hm hc] at h
    unfold applyLevel updBin at h
    rw [funext (levelEntry_eq f.source.toNat mass code)] at h
    split
    · rename_i hbad
      rwa [if_neg (by omega)] at h
    · rename_i hgood
      rwa [if_pos (by omega)] at h
  · have h : Becomes (.levelSensorReading k n) s (readLevel k.val n.toNat s) := event_next _ _ s hready rfl
    have hdue := levelDue_iff r (levelMass n.toNat p.capacity) s
    refine ⟨fun hno => ?_, fun hbin hn hd => ⟨_, h, ?_⟩⟩
    · rwa [readLevel_unheard hr hpar (hno.imp_right (Or.imp_right (mt hdue.1)))] at h
    · rw [readLevel_sent hr hpar hbin hn (hdue.2 hd)]
      unfold applyLevel
      refine ⟨fun hroom => ?_, ?_, ?_⟩
      · rw [updBin_tx]
        exact queueFrame_tx_room hroom
      · rw [updBin_levels, queueFrame_only]
        rfl
      · rw [updBin_bins, queueFrame_only, funext (levelEntry_eq s.straps.node _ none)]
        rfl

/-- Settles O17, the payloads read back; a notice's pairs join the list one by one. -/
theorem peerDrawsAreKeptAndAnswered : Obligations.PeerDrawsAreKeptAndAnswered := by
  unfold Obligations.PeerDrawsAreKeptAndAnswered
  refine ⟨fun s s1 f batch pairs hl hb hpairs hp ha => ?_, fun s s1 f batch bin actual hb hn hac hp ha => ?_,
    fun s s1 f ha => frameEvent_arrives ha _⟩
  · have h : Becomes .drawNotice s (takeDrawNotice f.source.toNat f.payload s1) := frameEvent_arrives ha _
    obtain ⟨rx, rfl⟩ := arrives_rx ha
    rwa [hp, takeDrawNotice_bytes _ _ _ _ hb hpairs, noticePairs_eq_foldl _ _ _ _ hl] at h
  · have h := becomes_drawReport hb hn hac hp ha
    unfold takeDrawReport applyDrawReport updBin at h
    rw [funext (not_same_eq f.source.toNat batch bin)] at h
    split
    · rename_i hbad
      rwa [if_pos (by tauto)] at h
    · rename_i hgood
      rwa [if_neg (by tauto)] at h

end Sys2Proof.Machine
end

