-- ==== Sys2Proof/Proofs/BinChoice.lean ====
section
/-! SUPPORT. R53, R56: the bin that is chosen: of the greatest free mass, and the lowest number among equals, of the first of
the three steps that finds one. -/
namespace Sys2Proof.Machine

/-! ### The best of a list (R56) -/

/-- The better of the best so far and the next. -/
def betterOf (best : Option (BinEntry × Nat)) (p : BinEntry × Nat) : Option (BinEntry × Nat) :=
  match best with
  | none => some p
  | some q => if q.2 < p.2 then some p else some q

theorem bestBin_eq (l : List (BinEntry × Nat)) : bestBin l = (l.foldl betterOf none).map (fun p => p.1.bin) := rfl

/-- `p` has the greatest mass of the list, and the lowest number among its equals. -/
def Best (p : BinEntry × Nat) (l : List (BinEntry × Nat)) : Prop :=
  ∀ q ∈ l, q.2 ≤ p.2 ∧ (q.2 = p.2 → p.1.bin ≤ q.1.bin)

/-- The list stands in bin order. -/
def InBinOrder (l : List (BinEntry × Nat)) : Prop := l.Pairwise (fun p q => p.1.bin < q.1.bin)

theorem foldl_betterOf (q : BinEntry × Nat) (l : List (BinEntry × Nat)) (h : InBinOrder (q :: l)) :
    ∃ p ∈ q :: l, l.foldl betterOf (some q) = some p ∧ Best p (q :: l) := by
  induction l generalizing q with
  | nil => exact ⟨q, List.mem_singleton_self q, rfl, by simp [Best]⟩
  | cons y ys ih =>
    obtain ⟨hq, hys⟩ := List.pairwise_cons.1 h
    have hqy := hq y (List.mem_cons_self ..)
    by_cases hlt : q.2 < y.2
    · obtain ⟨p, hp, he, hb⟩ := ih y hys
      have hy := hb y (List.mem_cons_self ..)
      refine ⟨p, List.mem_cons_of_mem q hp, ?_, fun x hx => ?_⟩
      · rw [List.foldl_cons, show betterOf (some q) y = some y from if_pos hlt]
        exact he
      · rcases List.mem_cons.1 hx with rfl | hx
        · exact ⟨by omega, fun he => by omega⟩
        · exact hb x hx
    · have hskip : InBinOrder (q :: ys) := h.sublist (List.Sublist.cons_cons q (List.sublist_cons_self y ys))
      obtain ⟨p, hp, he, hb⟩ := ih q hskip
      have hbest := hb q (List.mem_cons_self ..)
      refine ⟨p, ?_, ?_, fun x hx => ?_⟩
      · exact List.mem_cons.2 ((List.mem_cons.1 hp).imp_right (List.mem_cons_of_mem y))
      · rw [List.foldl_cons, show betterOf (some q) y = some q from if_neg hlt]
        exact he
      · rcases List.mem_cons.1 hx with rfl | hx
        · exact hbest
        · rcases List.mem_cons.1 hx with rfl | hx
          · exact ⟨by omega, fun he => by have := hbest.2 (by omega); omega⟩
          · exact hb x (List.mem_cons_of_mem q hx)

theorem foldl_betterOf_mem (q : BinEntry × Nat) (l : List (BinEntry × Nat)) :
    ∃ p ∈ q :: l, l.foldl betterOf (some q) = some p := by
  induction l generalizing q with
  | nil => exact ⟨q, List.mem_singleton_self q, rfl⟩
  | cons y ys ih =>
    have hcases : betterOf (some q) y = some y ∨ betterOf (some q) y = some q := by
      unfold betterOf
      dsimp only
      split
      · exact .inl rfl
      · exact .inr rfl
    rw [List.foldl_cons]
    obtain he | he := hcases
    · obtain ⟨p, hp, h⟩ := ih y
      exact ⟨p, List.mem_cons_of_mem q hp, by rw [he, h]⟩
    · obtain ⟨p, hp, h⟩ := ih q
      exact ⟨p, List.mem_cons.2 ((List.mem_cons.1 hp).imp_right (List.mem_cons_of_mem y)), by rw [he, h]⟩

theorem bestBin_mem {l : List (BinEntry × Nat)} {b : Nat} (h : bestBin l = some b) : ∃ p ∈ l, p.1.bin = b := by
  cases l with
  | nil => cases h
  | cons q l =>
    obtain ⟨p, hm, hp⟩ := foldl_betterOf_mem q l
    rw [bestBin_eq, List.foldl_cons, show betterOf none q = some q from rfl, hp] at h
    exact ⟨p, hm, Option.some.inj h⟩

theorem bestBin_none {l : List (BinEntry × Nat)} (h : bestBin l = none) : l = [] := by
  cases l with
  | nil => rfl
  | cons q l =>
    obtain ⟨p, -, hp⟩ := foldl_betterOf_mem q l
    rw [bestBin_eq, List.foldl_cons, show betterOf none q = some q from rfl, hp] at h
    cases h

theorem bestBin_some {l : List (BinEntry × Nat)} {b : Nat} (hl : InBinOrder l) (h : bestBin l = some b) :
    ∃ p ∈ l, p.1.bin = b ∧ Best p l := by
  cases l with
  | nil => cases h
  | cons q l =>
    obtain ⟨p, hm, hp, hb⟩ := foldl_betterOf q l hl
    rw [bestBin_eq, List.foldl_cons, show betterOf none q = some q from rfl, hp] at h
    exact ⟨p, hm, Option.some.inj h, hb⟩

/-! ### The eligible bins, each with its free mass (R53) -/

/-- The eligible bins of an ingredient, with their free masses. -/
def eligibleBins (code : Nat) (skip : Option Nat) (s : State) : List (BinEntry × Nat) :=
  (s.bins.filter (eligible code)).map (fun e => (e, freeMass skip e s))

theorem mem_eligibleBins {code : Nat} {skip : Option Nat} {s : State} {p : BinEntry × Nat} : p ∈ eligibleBins code skip s ↔
    p.1 ∈ s.bins ∧ eligible code p.1 = true ∧ p.2 = freeMass skip p.1 s := by
  unfold eligibleBins
  simp only [List.mem_map, List.mem_filter]
  constructor
  · rintro ⟨e, ⟨he, hel⟩, rfl⟩
    exact ⟨he, hel, rfl⟩
  · rintro ⟨he, hel, hm⟩
    exact ⟨p.1, ⟨he, hel⟩, by rw [← hm]⟩

/-- R42: the entries of the bins stand in bin order. -/
theorem RecordsWhole.binsAscend {s : State} (h : RecordsWhole s) : s.bins.Pairwise (fun a b => a.bin < b.bin) := by
  have hr : (s.bins.map BinEntry.bin).Pairwise (· < ·) := by
    rw [h.1]
    exact List.Pairwise.map _ (fun _ _ => Nat.succ_lt_succ) List.pairwise_lt_range
  exact List.pairwise_map.1 hr

theorem eligibleBins_inBinOrder (code : Nat) (skip : Option Nat) {s : State} (h : RecordsWhole s) :
    InBinOrder (eligibleBins code skip s) :=
  List.Pairwise.map (fun e => (e, freeMass skip e s)) (fun _ _ => id) (h.binsAscend.filter (eligible code))

/-! ### The three steps (R56) -/

/-- The first of the three steps that takes the bin into account. -/
def stepOf (target : Nat) (p : BinEntry × Nat) : Nat :=
  if target ≤ p.2 ∧ p.1.trusted = true then 0 else if target ≤ p.2 then 1 else 2

theorem stepOf_zero_iff (target : Nat) (p : BinEntry × Nat) :
    stepOf target p ≤ 0 ↔ target ≤ p.2 ∧ p.1.trusted = true := by
  unfold stepOf
  split
  · simp [*]
  · split <;> simp_all

theorem stepOf_le_one_iff (target : Nat) (p : BinEntry × Nat) : stepOf target p ≤ 1 ↔ target ≤ p.2 := by
  unfold stepOf
  split
  · simp [*]
  · split <;> simp_all

theorem stepOf_le_two (target : Nat) (p : BinEntry × Nat) : stepOf target p ≤ 2 := by
  unfold stepOf
  split
  · exact Nat.zero_le _
  · split <;> decide

/-- What a step looks among: the eligible bins that it, or a step before it, takes into account. -/
def lookedAt (k code target : Nat) (skip : Option Nat) (s : State) : List (BinEntry × Nat) :=
  (eligibleBins code skip s).filter (fun p => decide (stepOf target p ≤ k))

section Choice
variable {code target : Nat} {skip : Option Nat} {s : State}

theorem mem_lookedAt {k : Nat} {p : BinEntry × Nat} :
    p ∈ lookedAt k code target skip s ↔ p ∈ eligibleBins code skip s ∧ stepOf target p ≤ k := by
  rw [lookedAt, List.mem_filter, decide_eq_true_iff]

theorem chooseBin_eq : chooseBin code target skip s = (bestBin (lookedAt 0 code target skip s)).or
    ((bestBin (lookedAt 1 code target skip s)).or (bestBin (lookedAt 2 code target skip s))) := by
  have h0 : (eligibleBins code skip s).filter (fun p => p.1.trusted && decide (target ≤ p.2)) = lookedAt 0 code target skip s :=
    List.filter_congr fun p _ => by simp only [stepOf_zero_iff, Bool.decide_and, Bool.decide_eq_true, Bool.and_comm]
  have h1 : (eligibleBins code skip s).filter (fun p => decide (target ≤ p.2)) = lookedAt 1 code target skip s :=
    List.filter_congr fun p _ => by simp only [stepOf_le_one_iff]
  have h2 : lookedAt 2 code target skip s = eligibleBins code skip s :=
    List.filter_eq_self.2 fun p _ => decide_eq_true (stepOf_le_two target p)
  unfold chooseBin
  dsimp only
  rw [show (s.bins.filter (eligible code)).map (fun e => (e, freeMass skip e s)) = eligibleBins code skip s from rfl, h0, h1, h2]
  cases bestBin (lookedAt 0 code target skip s) <;> cases bestBin (lookedAt 1 code target skip s) <;> rfl

/-- R57: a bin that is chosen is one of the eligible bins. -/
theorem chooseBin_mem {b : Nat} (h : chooseBin code target skip s = some b) :
    ∃ p ∈ eligibleBins code skip s, p.1.bin = b := by
  have hstep : ∃ k, bestBin (lookedAt k code target skip s) = some b := by
    rw [chooseBin_eq, Option.or_eq_some_iff, Option.or_eq_some_iff] at h
    obtain h | ⟨-, h | ⟨-, h⟩⟩ := h
    · exact ⟨0, h⟩
    · exact ⟨1, h⟩
    · exact ⟨2, h⟩
  obtain ⟨k, hk⟩ := hstep
  obtain ⟨p, hp, hb⟩ := bestBin_mem hk
  exact ⟨p, (mem_lookedAt.1 hp).1, hb⟩

/-- R56: no bin is chosen only where none is eligible. -/
theorem chooseBin_none (h : chooseBin code target skip s = none) {e : BinEntry} (he : e ∈ s.bins) :
    eligible code e = false := by
  rw [chooseBin_eq, Option.or_eq_none_iff, Option.or_eq_none_iff] at h
  obtain ⟨-, -, h⟩ := h
  have hnil := bestBin_none h
  refine Bool.eq_false_iff.2 fun hel => ?_
  have hm : (e, freeMass skip e s) ∈ lookedAt 2 code target skip s :=
    mem_lookedAt.2 ⟨mem_eligibleBins.2 ⟨he, hel, rfl⟩, stepOf_le_two target _⟩
  rw [hnil] at hm
  cases hm

theorem le_stepOf_of_nil {k : Nat} (h : bestBin (lookedAt k code target skip s) = none) {x : BinEntry × Nat}
    (hx : x ∈ eligibleBins code skip s) : k + 1 ≤ stepOf target x := by
  have hnil := bestBin_none h
  by_contra hlt
  have hm := mem_lookedAt.2 ⟨hx, Nat.le_of_lt_succ (Nat.lt_of_not_le hlt)⟩
  rw [hnil] at hm
  cases hm

variable (hw : RecordsWhole s)
include hw

theorem lookedAt_inBinOrder (k : Nat) : InBinOrder (lookedAt k code target skip s) :=
  (eligibleBins_inBinOrder code skip hw).filter _

/-- The chosen bin `e` is taken into account by the first step that finds one, and is the best that step looked at. -/
def Chosen (target : Nat) (e : BinEntry × Nat) (l : List (BinEntry × Nat)) : Prop :=
  ∀ x ∈ l, stepOf target e ≤ stepOf target x
    ∧ (stepOf target x = stepOf target e → x.2 ≤ e.2 ∧ (x.2 = e.2 → e.1.bin ≤ x.1.bin))

/-- A step that finds a bin where the steps before it find none. -/
theorem chosen_of_step {k b : Nat} (hb : bestBin (lookedAt k code target skip s) = some b)
    (hlow : ∀ x ∈ eligibleBins code skip s, k ≤ stepOf target x) :
    ∃ p ∈ eligibleBins code skip s, p.1.bin = b ∧ Chosen target p (eligibleBins code skip s) := by
  obtain ⟨p, hp, hbin, hbest⟩ := bestBin_some (lookedAt_inBinOrder hw k) hb
  obtain ⟨hel, hk⟩ := mem_lookedAt.1 hp
  refine ⟨p, hel, hbin, fun x hx => ⟨hk.trans (hlow x hx), fun heq => hbest x (mem_lookedAt.2 ⟨hx, ?_⟩)⟩⟩
  exact heq.trans_le hk

theorem chooseBin_some {b : Nat} (h : chooseBin code target skip s = some b) :
    ∃ p ∈ eligibleBins code skip s, p.1.bin = b ∧ Chosen target p (eligibleBins code skip s) := by
  rw [chooseBin_eq] at h
  cases h0 : bestBin (lookedAt 0 code target skip s) with
  | some b0 =>
    rw [h0] at h
    exact chosen_of_step hw (h0.trans h) (fun _ _ => Nat.zero_le _)
  | none =>
    rw [h0, Option.none_or] at h
    cases h1 : bestBin (lookedAt 1 code target skip s) with
    | some b1 =>
      rw [h1] at h
      exact chosen_of_step hw (h1.trans h) (fun _ hx => le_stepOf_of_nil h0 hx)
    | none =>
      rw [h1, Option.none_or] at h
      exact chosen_of_step hw h (fun _ hx => le_stepOf_of_nil h1 hx)

end Choice

/-! ### The obligation -/

/-- Settles O19, the three steps as an order of preference. -/
theorem chosenBinIsEligibleAndBest : Obligations.ChosenBinIsEligibleAndBest := by
  unfold Obligations.ChosenBinIsEligibleAndBest
  refine fun code target skip s hw => ⟨fun h e he => chooseBin_none h he, fun b h => ?_⟩
  obtain ⟨p, hp, hbin, hchosen⟩ := chooseBin_some hw h
  obtain ⟨he, hel, hmass⟩ := mem_eligibleBins.1 hp
  refine ⟨p.1, he, hbin, hel, fun x hx hxel => ?_⟩
  obtain ⟨hstep, hbest⟩ := hchosen (x, freeMass skip x s) (mem_eligibleBins.2 ⟨hx, hxel, rfl⟩)
  have hp2 : p = (p.1, freeMass skip p.1 s) := by rw [← hmass]
  rw [hp2] at hstep hbest
  have h0 := stepOf_zero_iff target
  have h1 := stepOf_le_one_iff target
  dsimp only
  refine ⟨fun hf => (h0 _).1 (hstep.trans ((h0 (x, freeMass skip x s)).2 hf)),
    fun hf => (h1 _).1 (hstep.trans ((h1 (x, freeMass skip x s)).2 hf)), fun hr => (hbest hr).1, fun hr => (hbest hr).2⟩

end Sys2Proof.Machine
end

