-- ==== Sys2Proof/Proofs/FeedLaws.lean ====
section
/-! SUPPORT. O59: the laws of the feeders, taken together. The law of the bins is carried in the form `OpenDraws`, which asks
of every dose record what Safety.lean asks of the one in progress; `Eases s t` says that an operation leaves the Dosing Unit
where it stands and takes no bin into use, `Tame s t` that it opens no feed off RUN and empties no state into IDLE. -/
namespace Sys2Proof.Machine

/-! ### The law of the bins -/

/-- The entry of the position is DRAWING, from a bin whose quarantine is OFF. -/
def OpenEntry (p : Nat) (s : State) : Prop :=
  ∃ e, planEntry p s = some e ∧ e.status = .drawing ∧ ∀ b ∈ s.bins, b.bin = e.bin → b.quarantine = .off

/-- What holds of the dose records and the draw plan in whatever state the unit stands. -/
structure DrawBook (s : State) : Prop where
  positions : ((dosesOf s).map Dose.position).Nodup
  numbers   : (s.bins.map BinEntry.bin).Nodup
  one       : ∀ x ∈ dosesOf s, ∀ y ∈ dosesOf s, x.status = .inProgress → y.status = .inProgress → x.position = y.position
  shut      : ∀ x ∈ dosesOf s, x.status = .waiting ∨ x.mode = some .hand → ∀ e, planEntry x.position s = some e →
    e.status ≠ .drawing

/-- The law of the bins, of every dose record in progress. -/
structure OpenDraws (s : State) : Prop extends DrawBook s where
  hand : ∀ d ∈ dosesOf s, d.status = .inProgress → d.mode = some .hand → s.handBarred = false
  fed  : ∀ d ∈ dosesOf s, d.status = .inProgress → d.mode ≠ some .hand → s.draws = true → OpenEntry d.position s

/-- The stall timer runs in FEED only, the jog timer during a pulse only. -/
def FeedTimed (s : State) : Prop :=
  (s.scale.stall.isRunning = true → s.scale.state = .feedFast ∨ s.scale.state = .feedSlow)
    ∧ (s.scale.jog.isRunning = true → s.scale.state = .jog true)

/-- In a list of distinct keys the first entry of a key is the only one. -/
theorem find?_key {α : Type} {f : α → Nat} {l : List α} (hn : (l.map f).Nodup) {x : α} (hx : x ∈ l) :
    l.find? (fun y => decide (f y = f x)) = some x := by
  cases h : l.find? (fun y => decide (f y = f x)) with
  | none => exact absurd (List.find?_eq_none.1 h x hx) (by simp)
  | some y =>
    have hy : f y = f x := by simpa using List.find?_some h
    rw [List.inj_on_of_nodup_map hn (List.mem_of_find?_eq_some h) hx hy]

section Book
variable {s t : State}

theorem dosesOf_congr (h : t.scale.batch = s.scale.batch) : dosesOf t = dosesOf s := by
  unfold dosesOf
  rw [h]

theorem DrawBook.bin_found (h : DrawBook s) {b : BinEntry} (hb : b ∈ s.bins) : findBin b.bin s = some b :=
  find?_key h.numbers hb

/-- The component in progress is the only one. -/
theorem DrawBook.current (h : DrawBook s) {d x : Dose} (hd : curDose s = some d) (hx : x ∈ dosesOf s)
    (hs : x.status = .inProgress) : x = d := by
  obtain ⟨hm, hi⟩ := curDose_mem hd
  exact List.inj_on_of_nodup_map h.positions hx hm (h.one x hx d hm hs hi)

theorem DrawBook.curDose_of_mem (h : DrawBook s) {x : Dose} (hx : x ∈ dosesOf s) (hs : x.status = .inProgress) :
    curDose s = some x := by
  cases hd : curDose s with
  | none =>
    rw [curDose_eq] at hd
    exact absurd (List.find?_eq_none.1 hd x hx) (by simp [hs])
  | some d => rw [h.current hd hx hs]

theorem DrawsFromOpenBin.openDraws (h : DrawsFromOpenBin s) (hk : KeysDistinct s) (hw : RecordsWhole s) : OpenDraws s := by
  obtain ⟨-, -, -, -, hpositions, -⟩ := hk
  obtain ⟨hone, hshut, hhand, hfed, -⟩ := h
  have hnumbers : (s.bins.map BinEntry.bin).Nodup := by
    rw [hw.1]
    exact List.nodup_range.map (fun _ _ => Nat.succ.inj)
  have book : DrawBook s := ⟨hpositions, hnumbers, hone, hshut⟩
  refine ⟨book, fun d hd hs hm => hhand d (book.curDose_of_mem hd hs) hm, fun d hd hs hm hdraws => ?_⟩
  obtain ⟨e, he, hdrawing, hoff⟩ := hfed d (book.curDose_of_mem hd hs) hm hdraws
  exact ⟨e, he, hdrawing, fun b hb hbin => hoff b (hbin ▸ book.bin_found hb)⟩

theorem OpenDraws.drawsFromOpenBin (h : OpenDraws s) (ht : FeedTimed s) : DrawsFromOpenBin s := by
  refine ⟨h.one, h.shut, fun d hd => ?_, fun d hd hm hdraws => ?_, ht.1, ht.2⟩
  · obtain ⟨hmem, hs⟩ := curDose_mem hd
    exact h.hand d hmem hs
  · obtain ⟨hmem, hs⟩ := curDose_mem hd
    obtain ⟨e, he, hdrawing, hoff⟩ := h.fed d hmem hs hm hdraws
    exact ⟨e, he, hdrawing, fun b hb => hoff b (List.mem_of_find?_eq_some hb) (by simpa using List.find?_some hb)⟩

theorem DrawBook.congr (h : DrawBook s) (hd : dosesOf t = dosesOf s) (hp : t.plan = s.plan) (hb : t.bins = s.bins) :
    DrawBook t := by
  have he : ∀ p, planEntry p t = planEntry p s := fun p => by unfold planEntry; rw [hp]
  constructor
  · rw [hd]; exact h.positions
  · rw [hb]; exact h.numbers
  · rw [hd]; exact h.one
  · simp only [hd, he]; exact h.shut

/-- The doses, the plan and the bins stand; the unit moves where no more is asked of them. -/
theorem OpenDraws.restate (h : OpenDraws s) (hd : dosesOf t = dosesOf s) (hp : t.plan = s.plan) (hb : t.bins = s.bins)
    (hbarred : t.handBarred = true → s.handBarred = true) (hdraws : t.draws = true → s.draws = true) : OpenDraws t := by
  refine ⟨h.toDrawBook.congr hd hp hb, ?_, ?_⟩
  · rw [hd]
    intro d hm hs hh
    refine Bool.eq_false_iff.2 fun ht => ?_
    rw [h.hand d hm hs hh] at hbarred
    exact Bool.false_ne_true (hbarred ht)
  · rw [hd]
    intro d hm hs hh ht
    obtain ⟨e, he, hdrawing, hoff⟩ := h.fed d hm hs hh (hdraws ht)
    refine ⟨e, ?_, hdrawing, by rwa [hb]⟩
    unfold planEntry at he ⊢
    rwa [hp]

/-- The component in progress is not added by hand. -/
def NoHand (s : State) : Prop := ∀ d ∈ dosesOf s, d.status = .inProgress → d.mode ≠ some .hand

theorem OpenDraws.noHand (h : OpenDraws s) (hb : s.handBarred = true) : NoHand s := fun d hd hs hm => by
  rw [h.hand d hd hs hm] at hb
  cases hb

/-- The same, where a component fed from a bin is in progress. -/
theorem OpenDraws.restate_fed (h : OpenDraws s) (hn : NoHand s) (hd : dosesOf t = dosesOf s) (hp : t.plan = s.plan)
    (hb : t.bins = s.bins) (hdraws : t.draws = true → s.draws = true) : OpenDraws t := by
  refine ⟨h.toDrawBook.congr hd hp hb, ?_, ?_⟩
  · rw [hd]
    exact fun d hm hs hh => absurd hh (hn d hm hs)
  · rw [hd]
    intro d hm hs hh ht
    obtain ⟨e, he, hdrawing, hoff⟩ := h.fed d hm hs hh (hdraws ht)
    refine ⟨e, ?_, hdrawing, by rwa [hb]⟩
    unfold planEntry at he ⊢
    rwa [hp]

/-- Where the component is not added by hand, and the unit does not draw. -/
theorem DrawBook.openDraws_fed (h : DrawBook s) (hn : NoHand s) (hdraws : s.draws = false) : OpenDraws s :=
  ⟨h, fun d hd hs hm => absurd hm (hn d hd hs), fun _ _ _ _ hd => absurd hd (by rw [hdraws]; exact Bool.false_ne_true)⟩

/-- In a state that asks nothing of the component in progress. -/
theorem DrawBook.openDraws (h : DrawBook s) (hbarred : s.handBarred = false) (hdraws : s.draws = false) : OpenDraws s :=
  ⟨h, fun _ _ _ _ => hbarred, fun _ _ _ _ hd => absurd hd (by rw [hdraws]; exact Bool.false_ne_true)⟩

end Book

/-! ### Where the unit stands -/

/-- The feeders run (R62). -/
def ScaleState.feeding : ScaleState → Bool
  | .feedFast | .feedSlow | .jog true => true
  | _ => false

theorem feedRate_ne_off_iff (s : State) : feedRate s ≠ .off ↔ s.scale.state.feeding = true := by
  unfold feedRate
  cases s.scale.state with
  | jog pulse => cases pulse <;> simp [ScaleState.feeding]
  | _ => simp [ScaleState.feeding]

/-- The scale is IDLE, or held to return to IDLE. -/
def State.idles (s : State) : Prop := s.scale.state = .idle ∨ (s.scale.state = .held ∧ s.scale.resume = some .idle)

theorem idleScaleEmpty_iff (s : State) : IdleScaleEmpty s ↔ (s.idles → s.scale.batch = none) := by
  unfold IdleScaleEmpty State.idles
  constructor
  · rintro ⟨h, h'⟩ (hi | ⟨hh, hr⟩)
    · exact h hi
    · exact h' hh hr
  · exact fun h => ⟨fun hi => h (.inl hi), fun hh hr => h (.inr ⟨hh, hr⟩)⟩

/-- What the laws of the line and of the idle scale read. -/
structure Footing where
  line     : LineState
  reported : Bool
  stopLine : Bool
  state    : ScaleState
  resume   : Option ResumePoint
  holds    : Bool

def State.footing (s : State) : Footing :=
  { line := s.line, reported := s.reports.dosing, stopLine := s.inputs.stopLine, state := s.scale.state
    resume := s.scale.resume, holds := s.scale.batch.isSome }

/-- An operation opens no feed off RUN, and comes to IDLE with no batch. -/
structure Tame (s t : State) : Prop where
  line     : t.line = s.line
  reported : t.reports.dosing = s.reports.dosing
  stopLine : t.inputs.stopLine = s.inputs.stopLine
  feeds    : t.scale.state.feeding = true → s.scale.state.feeding = true ∨ s.line = .run
  idles    : t.idles → s.idles ∨ t.scale.batch = none
  empty    : s.scale.batch = none → t.scale.batch = none

section Footings
variable {s t u : State}

theorem Tame.refl (s : State) : Tame s s := ⟨rfl, rfl, rfl, .inl, .inl, id⟩

theorem Tame.trans (h : Tame s t) (h' : Tame t u) : Tame s u where
  line := h'.line.trans h.line
  reported := h'.reported.trans h.reported
  stopLine := h'.stopLine.trans h.stopLine
  feeds hu := (h'.feeds hu).elim h.feeds (fun ht => .inr (h.line ▸ ht))
  idles hu := (h'.idles hu).elim (fun ht => (h.idles ht).imp_right h'.empty) .inr
  empty hs := h'.empty (h.empty hs)

theorem Tame.of_footing (h : t.footing = s.footing) : Tame s t := by
  have hstate : t.scale.state = s.scale.state := congrArg Footing.state h
  have hresume : t.scale.resume = s.scale.resume := congrArg Footing.resume h
  have hholds : t.scale.batch.isSome = s.scale.batch.isSome := congrArg Footing.holds h
  refine ⟨congrArg Footing.line h, congrArg Footing.reported h, congrArg Footing.stopLine h, fun ht => ?_, fun ht => ?_,
    fun hs => ?_⟩
  · exact .inl (hstate ▸ ht)
  · unfold State.idles at ht ⊢
    rw [hstate, hresume] at ht
    exact .inl ht
  · rw [hs] at hholds
    simpa using hholds

theorem Tame.driven (h : Tame s t) (hs : FeedLawful s) : FeedLawful t := by
  unfold FeedLawful at hs ⊢
  rw [feedRate_ne_off_iff] at hs ⊢
  rw [h.line, h.reported, h.stopLine]
  exact ⟨fun ht => (h.feeds ht).elim hs.1 .inl, hs.2⟩

theorem Tame.emptied (h : Tame s t) (hs : IdleScaleEmpty s) : IdleScaleEmpty t := by
  rw [idleScaleEmpty_iff] at hs ⊢
  exact fun ht => (h.idles ht).elim (fun hi => h.empty (hs hi)) id

theorem Tame.setScale {st : ScaleState} (h : Tame s t)
    (hfeed : st.feeding = true → s.scale.state.feeding = true ∨ s.line = .run) (hidle : st ≠ .idle)
    (hheld : st ≠ .held) : Tame s (setScale st t) where
  line := h.line
  reported := h.reported
  stopLine := h.stopLine
  feeds := hfeed
  idles ht := ht.elim (fun hi => absurd hi hidle) (fun hh => absurd hh.1 hheld)
  empty := h.empty

end Footings

/-! ### The three laws, by name -/

inductive FeedLaw
  | driven | emptied | drawn

def FeedLaw.holds : FeedLaw → State → Prop
  | .driven => FeedLawful
  | .emptied => IdleScaleEmpty
  | .drawn => OpenDraws

/-- An operation that keeps each of the laws, and leaves the line. -/
structure Sound (s t : State) : Prop where
  tame  : Tame s t
  opens : OpenDraws s → OpenDraws t

/-- What the laws read of a state. -/
structure Feeding where
  line     : LineState
  reported : Bool
  stopLine : Bool
  state    : ScaleState
  resume   : Option ResumePoint
  batch    : Option ScaleBatch
  plan     : Option DrawPlan
  bins     : List BinEntry

def State.feeding (s : State) : Feeding :=
  { line := s.line, reported := s.reports.dosing, stopLine := s.inputs.stopLine, state := s.scale.state
    resume := s.scale.resume, batch := s.scale.batch, plan := s.plan, bins := s.bins }

section Laws
variable {l : FeedLaw} {s t u : State}

theorem Sound.trans (h : Sound s t) (h' : Sound t u) : Sound s u := ⟨h.tame.trans h'.tame, h'.opens ∘ h.opens⟩

theorem Sound.refl (s : State) : Sound s s := ⟨Tame.refl s, id⟩

theorem Sound.ite {c : Prop} [Decidable c] {a b : State} (ha : c → Sound s a) (hb : Sound s b) :
    Sound s (if c then a else b) := by
  split
  · rename_i hc
    exact ha hc
  · exact hb

theorem Sound.holds (h : Sound s t) (hs : l.holds s) : l.holds t := by
  cases l with
  | driven => exact h.tame.driven hs
  | emptied => exact h.tame.emptied hs
  | drawn => exact h.opens hs

theorem footing_of_feeding (h : t.feeding = s.feeding) : t.footing = s.footing :=
  congrArg (fun f : Feeding => Footing.mk f.line f.reported f.stopLine f.state f.resume f.batch.isSome) h

/-- An operation that touches nothing of what the laws read. -/
theorem Sound.of_feeding (h : t.feeding = s.feeding) : Sound s t := by
  have hstate : t.scale.state = s.scale.state := congrArg Feeding.state h
  have hresume : t.scale.resume = s.scale.resume := congrArg Feeding.resume h
  have hbarred : t.handBarred = s.handBarred := by unfold State.handBarred; rw [hstate, hresume]
  have hdraws : t.draws = s.draws := by unfold State.draws; rw [hstate, hresume]
  refine ⟨Tame.of_footing (footing_of_feeding h), fun hs => ?_⟩
  exact hs.restate (dosesOf_congr (congrArg Feeding.batch h)) (congrArg Feeding.plan h) (congrArg Feeding.bins h)
    (hbarred ▸ id) (hdraws ▸ id)

end Laws

/-! ### Operations that take no bin into use -/

/-- An operation leaves the unit where it stands; each dose record was there before and is no nearer to work, each DRAWING
entry was DRAWING, each bin that was open still is. -/
structure Eases (s t : State) : Prop where
  footing   : t.footing = s.footing
  positions : (dosesOf t).map Dose.position = (dosesOf s).map Dose.position
  numbers   : t.bins.map BinEntry.bin = s.bins.map BinEntry.bin
  doses     : ∀ y ∈ dosesOf t, ∃ x ∈ dosesOf s, y.position = x.position
    ∧ (y.status = .inProgress → x.status = .inProgress)
    ∧ (y.status = .waiting ∨ y.mode = some .hand → x.status = .waiting ∨ x.mode = some .hand)
  entries   : ∀ p e, planEntry p t = some e → e.status = .drawing → ∃ x, planEntry p s = some x ∧ x.status = .drawing

section Easing
variable {s t u : State}

theorem Eases.trans (h : Eases s t) (h' : Eases t u) : Eases s u where
  footing := h'.footing.trans h.footing
  positions := h'.positions.trans h.positions
  numbers := h'.numbers.trans h.numbers
  doses z hz := by
    obtain ⟨y, hy, hp, hi, hw⟩ := h'.doses z hz
    obtain ⟨x, hx, hp', hi', hw'⟩ := h.doses y hy
    exact ⟨x, hx, hp.trans hp', hi' ∘ hi, hw' ∘ hw⟩
  entries p e he hd := by
    obtain ⟨x, hx, hdx⟩ := h'.entries p e he hd
    exact h.entries p x hx hdx

theorem Eases.same (hf : t.footing = s.footing) (hd : dosesOf t = dosesOf s) (hp : t.plan = s.plan)
    (hb : t.bins = s.bins) : Eases s t where
  footing := hf
  positions := by rw [hd]
  numbers := by rw [hb]
  doses y hy := ⟨y, hd ▸ hy, rfl, id, id⟩
  entries p e he hdr := by
    unfold planEntry at he ⊢
    exact ⟨e, hp ▸ he, hdr⟩

theorem Eases.refl (s : State) : Eases s s := Eases.same rfl rfl rfl rfl

theorem Eases.ite {c : Prop} [Decidable c] {a b : State} (ha : Eases s a) (hb : Eases s b) : Eases s (if c then a else b) := by
  split
  · exact ha
  · exact hb

theorem Eases.book (h : Eases s t) (hs : DrawBook s) : DrawBook t where
  positions := by rw [h.positions]; exact hs.positions
  numbers := by rw [h.numbers]; exact hs.numbers
  one x hx y hy hsx hsy := by
    obtain ⟨x', hx', hpx, hix, -⟩ := h.doses x hx
    obtain ⟨y', hy', hpy, hiy, -⟩ := h.doses y hy
    rw [hpx, hpy]
    exact hs.one x' hx' y' hy' (hix hsx) (hiy hsy)
  shut x hx hw e he hdr := by
    obtain ⟨x', hx', hpx, -, hwx⟩ := h.doses x hx
    obtain ⟨e', he', hdr'⟩ := h.entries x.position e he hdr
    exact hs.shut x' hx' (hwx hw) e' (hpx ▸ he') hdr'

theorem Eases.noHand (h : Eases s t) (hs : NoHand s) : NoHand t := by
  intro y hy hi hm
  obtain ⟨x, hx, -, hix, hwx⟩ := h.doses y hy
  refine hs x hx (hix hi) ((hwx (.inr hm)).resolve_left fun hw => ?_)
  rw [hix hi] at hw
  cases hw

theorem Eases.tame (h : Eases s t) : Tame s t := Tame.of_footing h.footing

theorem updDose_footing (p : Nat) (f : Dose → Dose) (s : State) : (updDose p f s).footing = s.footing := by
  unfold State.footing updDose
  rw [Option.isSome_map]

/-- A change of a dose record that brings it no nearer to work. -/
theorem updDose_eases {p : Nat} {f : Dose → Dose} (hp : ∀ d, (f d).position = d.position)
    (hi : ∀ d, (f d).status = .inProgress → d.status = .inProgress)
    (hw : ∀ d, (f d).status = .waiting ∨ (f d).mode = some .hand → d.status = .waiting ∨ d.mode = some .hand) (s : State) :
    Eases s (updDose p f s) where
  footing := updDose_footing p f s
  positions := by
    rw [dosesOf_updDose, List.map_map]
    refine List.map_congr_left fun d _ => ?_
    simp only [Function.comp]
    split
    · exact hp d
    · rfl
  numbers := rfl
  doses y hy := by
    rw [dosesOf_updDose] at hy
    obtain ⟨x, hx, rfl⟩ := List.mem_map.1 hy
    refine ⟨x, hx, ?_⟩
    split
    · exact ⟨hp x, hi x, hw x⟩
    · exact ⟨rfl, id, id⟩
  entries p e he hdr := ⟨e, he, hdr⟩

/-- A change of an entry that does not make it DRAWING. -/
theorem updPlanEntry_eases {p : Nat} {f : PlanEntry → PlanEntry} (hp : ∀ e, (f e).position = e.position)
    (hd : ∀ e, (f e).status = .drawing → e.status = .drawing) (s : State) : Eases s (updPlanEntry p f s) where
  footing := rfl
  positions := rfl
  numbers := rfl
  doses y hy := ⟨y, hy, rfl, id, id⟩
  entries q e he hdr := by
    by_cases hq : p = q
    · subst hq
      rw [planEntry_updPlanEntry_self hp] at he
      obtain ⟨x, hx, rfl⟩ := Option.map_eq_some_iff.1 he
      exact ⟨x, hx, hd x hdr⟩
    · rw [planEntry_updPlanEntry_other hq hp] at he
      exact ⟨e, he, hdr⟩

theorem updBin_eases (bin : Nat) {f : BinEntry → BinEntry} (hf : ∀ e, (f e).bin = e.bin) (s : State) :
    Eases s (updBin bin f s) where
  footing := rfl
  positions := rfl
  numbers := by
    rw [updBin_bins, List.map_map]
    refine List.map_congr_left fun e _ => ?_
    simp only [Function.comp]
    split
    · exact hf e
    · rfl
  doses y hy := ⟨y, hy, rfl, id, id⟩
  entries p e he hdr := ⟨e, he, hdr⟩

theorem queueFrame_eases (b : Body) (s : State) : Eases s (queueFrame b s) := by
  rw [queueFrame_only]
  exact Eases.same rfl rfl rfl rfl

end Easing

end Sys2Proof.Machine
end

