-- ==== Sys2Proof/Proofs/FeedReports.lean ====
section
/-! SUPPORT. O59: the reports, the records and the closing of components take no bin into use; what HELD and a new state of
the unit ask of the law of the bins. -/
namespace Sys2Proof.Machine

/-! ### Reports and records (R47, R66, R72, R77, R82, R83) -/

theorem reportComplete_eases (p bin a : Nat) (s : State) : Eases s (reportComplete p bin a s) :=
  (updBin_eases bin (f := subEstimate a) (fun _ => rfl) s).trans
    (updPlanEntry_eases (f := fun e => { e with drawn := satMass (e.drawn + a), status := .done }) (fun _ => rfl) nofun _)

theorem reportPartial_eases (p bin a : Nat) (s : State) : Eases s (reportPartial p bin a s) :=
  (updBin_eases bin (f := subEstimate a) (fun _ => rfl) s).trans
    (updPlanEntry_eases (f := fun e => { e with drawn := satMass (e.drawn + a), status := .planned }) (fun _ => rfl) nofun _)

theorem markSuspect_eases (bin : Nat) (s : State) : Eases s (markSuspect bin s) :=
  updBin_eases bin (f := fun e => { e with emptySuspect := true }) (fun _ => rfl) s

/-- A change of a dose record that leaves its status and mode. -/
theorem updDose_eases_idle {f : Dose → Dose}
    (hf : ∀ d, (f d).position = d.position ∧ (f d).status = d.status ∧ (f d).mode = d.mode) (p : Nat) (s : State) :
    Eases s (updDose p f s) :=
  updDose_eases (fun d => (hf d).1) (fun d => by rw [(hf d).2.1]; exact id)
    (fun d => by rw [(hf d).2.1, (hf d).2.2]; exact id) s

theorem unannounce_eases (p : Nat) (s : State) : Eases s (updDose p (fun d => { d with announced := false }) s) :=
  updDose_eases_idle (f := fun d => { d with announced := false }) (fun _ => ⟨rfl, rfl, rfl⟩) p s

theorem zeroReport_eases (d : Dose) (s : State) : Eases s (zeroReport d s) := by
  unfold zeroReport
  refine Eases.ite ?_ (Eases.refl s)
  split
  · exact ((queueFrame_eases _ s).trans (Eases.ite (reportComplete_eases _ _ _ _) (Eases.refl _))).trans (unannounce_eases _ _)
  · exact unannounce_eases _ s

theorem answerZero_eases (d : Dose) (s : State) : Eases s (answerZero d s) := by
  unfold answerZero
  split
  · exact (queueFrame_eases _ s).trans (unannounce_eases _ _)
  · exact Eases.refl s

theorem completeReport_eases (d : Dose) (s : State) : Eases s (completeReport d s) := by
  unfold completeReport
  split
  · exact ((queueFrame_eases _ s).trans (reportComplete_eases _ _ _ _)).trans (unannounce_eases _ _)
  · exact Eases.refl s

theorem partialReport_eases (d : Dose) (s : State) : Eases s (partialReport d s) := by
  unfold partialReport
  split
  · exact ((queueFrame_eases _ s).trans (reportPartial_eases _ _ _ _)).trans (updDose_eases_idle
      (f := fun x => { x with reported := satMass (x.reported + actualOf d s), announced := false, interrupted := true })
      (fun _ => ⟨rfl, rfl, rfl⟩) _ _)
  · exact updDose_eases_idle (f := fun x => { x with announced := false, interrupted := true }) (fun _ => ⟨rfl, rfl, rfl⟩) _ s

theorem closeDose_eases (d : Dose) (s : State) : Eases s (closeDose d s) :=
  updDose_eases (f := fun x => { x with status := .done }) (fun _ => rfl) nofun
    (fun _ h => .inr (h.resolve_left nofun)) s

theorem closeWaiting_eases (ds : List Dose) (s : State) : Eases s (closeWaiting ds s) := by
  induction ds generalizing s with
  | nil => exact Eases.refl s
  | cons d ds ih => exact (Eases.ite (zeroReport_eases d s) (Eases.refl s)).trans (ih _)

theorem dumpDose_eases (d : Dose) (s : State) : Eases s (dumpDose d s) := by
  unfold dumpDose
  exact Eases.ite ((Eases.ite (completeReport_eases d s) (Eases.refl s)).trans (closeDose_eases d _)) (zeroReport_eases d s)

theorem dumpDoses_eases (ds : List Dose) (s : State) : Eases s (dumpDoses ds s) := by
  induction ds generalizing s with
  | nil => exact Eases.refl s
  | cons d ds ih => exact (dumpDose_eases d s).trans (ih _)

theorem updRecord_doses (f : Batch → Batch) (s : State) : dosesOf (updRecord f s) = dosesOf s := by
  unfold dosesOf updRecord
  cases s.scale.batch <;> rfl

theorem updRecord_footing (f : Batch → Batch) (s : State) : (updRecord f s).footing = s.footing := by
  unfold State.footing updRecord
  rw [Option.isSome_map]

theorem updRecord_eases (f : Batch → Batch) (s : State) : Eases s (updRecord f s) :=
  Eases.same (updRecord_footing f s) (updRecord_doses f s) rfl rfl

theorem adaptChannel_eases (d : Dose) (s : State) : Eases s (adaptChannel d s) := by
  rw [adaptChannel_only]
  exact Eases.same rfl rfl rfl rfl

theorem consumeDose_eases (d : Dose) (s : State) : Eases s (consumeDose d s) := by
  rw [consumeDose_only]
  exact Eases.same rfl rfl rfl rfl

theorem recorded_eases (o : DoseOutcome) (adapts : Bool) (d : Dose) (s : State) : Eases s (recorded o adapts d s) := by
  have ha : Eases s (if adapts then adaptChannel d s else s) := Eases.ite (adaptChannel_eases d s) (Eases.refl s)
  have hc := Eases.ite (c := d.fed = true) (ha.trans (completeReport_eases d _)) ha
  refine (hc.trans (consumeDose_eases d _)).trans ?_
  exact updDose_eases (f := fun x => { x with outcome := some o, status := .done }) (fun _ => rfl) nofun
    (fun _ h => .inr (h.resolve_left nofun)) _

/-! ### Changes that leave the law of the bins as it is -/

section Stays
variable {s t : State}

theorem updDose_open {f : Dose → Dose}
    (hf : ∀ d, (f d).position = d.position ∧ (f d).status = d.status ∧ (f d).mode = d.mode) (p : Nat) (h : OpenDraws s) :
    OpenDraws (updDose p f s) := by
  have hmem : ∀ y ∈ dosesOf (updDose p f s), ∃ x ∈ dosesOf s,
      y.position = x.position ∧ y.status = x.status ∧ y.mode = x.mode := by
    intro y hy
    rw [dosesOf_updDose] at hy
    obtain ⟨x, hx, rfl⟩ := List.mem_map.1 hy
    refine ⟨x, hx, ?_⟩
    split
    · exact hf x
    · exact ⟨rfl, rfl, rfl⟩
  refine ⟨(updDose_eases_idle hf p s).book h.toDrawBook, fun y hy hs hm => ?_, fun y hy hs hm hd => ?_⟩
  · obtain ⟨x, hx, -, hsx, hmx⟩ := hmem y hy
    exact h.hand x hx (hsx ▸ hs) (hmx ▸ hm)
  · obtain ⟨x, hx, hpx, hsx, hmx⟩ := hmem y hy
    rw [hpx]
    exact h.fed x hx (hsx ▸ hs) (hmx ▸ hm) hd

theorem interruptDose_open (h : OpenDraws s) : OpenDraws (interruptDose s) := by
  unfold interruptDose
  split
  · exact updDose_open (f := fun d => { d with interrupted := true }) (fun _ => ⟨rfl, rfl, rfl⟩) _ h
  · exact h

theorem interruptDose_eases (s : State) : Eases s (interruptDose s) := by
  unfold interruptDose
  split
  · exact updDose_eases_idle (f := fun d => { d with interrupted := true }) (fun _ => ⟨rfl, rfl, rfl⟩) _ s
  · exact Eases.refl s

theorem updRecord_open (f : Batch → Batch) (h : OpenDraws s) : OpenDraws (updRecord f s) :=
  h.restate (updRecord_doses f s) rfl rfl id id

/-- The component in progress, its entry and the bins stand. -/
theorem OpenDraws.of_beside (h : OpenDraws s) (he : Eases s t)
    (hb : ∀ x ∈ dosesOf s, x.status = .inProgress → Beside x.position s t) : OpenDraws t := by
  have hstate : t.scale.state = s.scale.state := congrArg Footing.state he.footing
  have hresume : t.scale.resume = s.scale.resume := congrArg Footing.resume he.footing
  have hbarred : t.handBarred = s.handBarred := by unfold State.handBarred; rw [hstate, hresume]
  have hdraws : t.draws = s.draws := by unfold State.draws; rw [hstate, hresume]
  have book := he.book h.toDrawBook
  have hsame : ∀ y ∈ dosesOf t, y.status = .inProgress → y ∈ dosesOf s ∧ Beside y.position s t := by
    intro y hy hs
    obtain ⟨x, hx, hp, hi, -⟩ := he.doses y hy
    have hbx := hb x hx (hi hs)
    have hdose := hbx.dose
    rw [doseAt_eq, doseAt_eq, ← hp, find?_key book.positions hy, hp, find?_key h.positions hx] at hdose
    obtain rfl := Option.some.inj hdose
    exact ⟨hx, hbx⟩
  refine ⟨book, fun y hy hs hm => ?_, fun y hy hs hm hd => ?_⟩
  · rw [hbarred]
    exact h.hand y (hsame y hy hs).1 hs hm
  · obtain ⟨hmem, hbeside⟩ := hsame y hy hs
    obtain ⟨e, hentry, hdrawing, hoff⟩ := h.fed y hmem hs hm (hdraws ▸ hd)
    exact ⟨e, hbeside.entry.trans hentry, hdrawing, by rwa [hbeside.bins]⟩

/-- R83: the announcements of the components that are not begun are answered. -/
theorem closeWaiting_open (h : OpenDraws s) : OpenDraws (closeWaiting (dosesOf s) s) := by
  refine h.of_beside (closeWaiting_eases _ s) fun x hx hs => closeWaiting_beside (fun y hy hw hp => ?_) s
  have := List.inj_on_of_nodup_map h.positions hy hx hp
  rw [this, hs] at hw
  cases hw

end Stays

/-! ### HELD (R74) -/

/-- A hold that ends there bars a component by hand. -/
def ResumePoint.barred : ResumePoint → Bool
  | .resumeSettle | .rechoose | .tare true => true
  | _ => false

/-- A hold that ends there goes on to draw without a new choice of bin. -/
def ResumePoint.draws : ResumePoint → Bool
  | .resumeSettle | .tare false => true
  | _ => false

section Held
variable {s t : State} (k : FaultKey) (detail : List DetailField) (r : ResumePoint)

theorem handBarred_held (h : s.scale.state = .held) : s.handBarred = (s.scale.resume.map ResumePoint.barred).getD false := by
  unfold State.handBarred
  rw [h]
  cases s.scale.resume with
  | none => rfl
  | some r => cases r with
    | tare ask => cases ask <;> rfl
    | _ => rfl

theorem draws_held (h : s.scale.state = .held) : s.draws = (s.scale.resume.map ResumePoint.draws).getD false := by
  unfold State.draws
  rw [h]
  cases s.scale.resume with
  | none => rfl
  | some r => cases r with
    | tare ask => cases ask <;> rfl
    | _ => rfl

@[simp] theorem holdScale_state (s : State) : (holdScale k detail r s).scale.state = .held := rfl

theorem holdScale_resume (s : State) : (holdScale k detail r s).scale.resume =
    if s.scale.state = .held ∧ s.scale.resume.isSome = true then s.scale.resume else some r := by
  unfold holdScale
  rw [raiseFault_only]

@[simp] theorem holdScale_batch (s : State) : (holdScale k detail r s).scale.batch = s.scale.batch := by
  unfold holdScale
  rw [raiseFault_only]

@[simp] theorem holdScale_plan (s : State) : (holdScale k detail r s).plan = s.plan := by rw [holdScale_only]

@[simp] theorem holdScale_bins (s : State) : (holdScale k detail r s).bins = s.bins := by rw [holdScale_only]

theorem holdScale_doses (s : State) : dosesOf (holdScale k detail r s) = dosesOf s := dosesOf_congr (holdScale_batch k detail r s)

variable {k detail r}

theorem holdScale_book (h : DrawBook s) : DrawBook (holdScale k detail r s) :=
  h.congr (holdScale_doses ..) (holdScale_plan ..) (holdScale_bins ..)

/-- R74: the resume point is the rule's, or one already recorded. -/
theorem holdScale_open (h : OpenDraws s) (hbarred : r.barred = true → s.handBarred = true)
    (hdraws : r.draws = true → s.draws = true) : OpenDraws (holdScale k detail r s) := by
  refine h.restate (holdScale_doses ..) (holdScale_plan ..) (holdScale_bins ..) (fun ht => ?_) (fun ht => ?_)
  · rw [handBarred_held (holdScale_state ..), holdScale_resume] at ht
    split at ht
    · rename_i hkept
      rwa [handBarred_held hkept.1]
    · exact hbarred ht
  · rw [draws_held (holdScale_state ..), holdScale_resume] at ht
    split at ht
    · rename_i hkept
      rwa [draws_held hkept.1]
    · exact hdraws ht

/-- The unit is not held with a resume point recorded, so that a hold records its own. -/
def State.unheld (s : State) : Prop := s.scale.state ≠ .held ∨ s.scale.resume = none

theorem holdScale_resume_unheld (h : s.unheld) : (holdScale k detail r s).scale.resume = some r := by
  rw [holdScale_resume]
  refine if_neg fun hk => h.elim (fun hn => hn hk.1) (fun hn => ?_)
  rw [hn] at hk
  exact Bool.false_ne_true hk.2

theorem holdScale_tame (h : Tame s t) (hr : r = .idle → t.idles) : Tame s (holdScale k detail r t) where
  line := by rw [holdScale_only]; exact h.line
  reported := by rw [holdScale_only]; exact h.reported
  stopLine := by rw [holdScale_only]; exact h.stopLine
  feeds ht := absurd ht Bool.false_ne_true
  idles ht := by
    rw [holdScale_batch]
    refine h.idles ?_
    obtain hi | ⟨-, hi⟩ := ht
    · cases hi
    · rw [holdScale_resume] at hi
      split at hi
      · rename_i hkept
        exact .inr ⟨hkept.1, hi⟩
      · exact hr (Option.some.inj hi)
  empty hs := by rw [holdScale_batch]; exact h.empty hs

end Held

end Sys2Proof.Machine
end

