-- ==== Sys2Proof/Proofs/FeedStarts.lean ====
section
/-! SUPPORT. O59: components that start, go on after a hold, or are recorded. `WorksAt p s t` says that an operation works on
the component at position p alone. -/
namespace Sys2Proof.Machine

/-! ### Work on one component -/

structure WorksAt (p : Nat) (s t : State) : Prop where
  positions : (dosesOf t).map Dose.position = (dosesOf s).map Dose.position
  bins      : t.bins = s.bins
  doses     : ∀ y ∈ dosesOf t, ∃ x ∈ dosesOf s, y.position = x.position ∧ y.status = x.status ∧ (x.position ≠ p → y.mode = x.mode)
  others    : ∀ q ≠ p, planEntry q t = planEntry q s

/-- Of the dose records, the one at the position is in progress and no other. -/
def InProgressAt (p : Nat) (s : State) : Prop := ∀ x ∈ dosesOf s, x.position = p ↔ x.status = .inProgress

/-- No component is in progress. -/
def Unstarted (s : State) : Prop := ∀ x ∈ dosesOf s, x.status ≠ .inProgress

section Work
variable {p : Nat} {s t u : State}

theorem WorksAt.trans (h : WorksAt p s t) (h' : WorksAt p t u) : WorksAt p s u where
  positions := h'.positions.trans h.positions
  bins := h'.bins.trans h.bins
  doses z hz := by
    obtain ⟨y, hy, hp, hs, hm⟩ := h'.doses z hz
    obtain ⟨x, hx, hp', hs', hm'⟩ := h.doses y hy
    exact ⟨x, hx, hp.trans hp', hs.trans hs', fun hn => (hm (hp' ▸ hn)).trans (hm' hn)⟩
  others q hq := (h'.others q hq).trans (h.others q hq)

theorem WorksAt.same (hd : dosesOf t = dosesOf s) (hp : t.plan = s.plan) (hb : t.bins = s.bins) : WorksAt p s t where
  positions := by rw [hd]
  bins := hb
  doses y hy := ⟨y, hd ▸ hy, rfl, rfl, fun _ => rfl⟩
  others q _ := by unfold planEntry; rw [hp]

theorem updDose_worksAt {f : Dose → Dose} (hf : ∀ d, (f d).position = d.position ∧ (f d).status = d.status) (p : Nat)
    (s : State) : WorksAt p s (updDose p f s) where
  positions := by
    rw [dosesOf_updDose, List.map_map]
    refine List.map_congr_left fun d _ => ?_
    simp only [Function.comp]
    split
    · exact (hf d).1
    · rfl
  bins := rfl
  doses y hy := by
    rw [dosesOf_updDose] at hy
    obtain ⟨x, hx, rfl⟩ := List.mem_map.1 hy
    refine ⟨x, hx, ?_⟩
    split
    · rename_i hp
      exact ⟨(hf x).1, (hf x).2, fun hn => absurd hp hn⟩
    · exact ⟨rfl, rfl, fun _ => rfl⟩
  others _ _ := rfl

theorem updPlanEntry_worksAt {f : PlanEntry → PlanEntry} (hf : ∀ e, (f e).position = e.position) (p : Nat) (s : State) :
    WorksAt p s (updPlanEntry p f s) where
  positions := rfl
  bins := rfl
  doses y hy := ⟨y, hy, rfl, rfl, fun _ => rfl⟩
  others _ hq := planEntry_updPlanEntry_other (Ne.symm hq) hf s

theorem queueFrame_worksAt (b : Body) (s : State) : WorksAt p s (queueFrame b s) := by
  rw [queueFrame_only]
  exact WorksAt.same rfl rfl rfl

theorem holdScale_worksAt (k : FaultKey) (detail : List DetailField) (r : ResumePoint) (s : State) :
    WorksAt p s (holdScale k detail r s) :=
  WorksAt.same (holdScale_doses ..) (holdScale_plan ..) (holdScale_bins ..)

theorem setScale_worksAt (st : ScaleState) (s : State) : WorksAt p s (setScale st s) := WorksAt.same rfl rfl rfl

theorem InProgressAt.of_worksAt (h : InProgressAt p s) (w : WorksAt p s t) : InProgressAt p t := by
  intro y hy
  obtain ⟨x, hx, hp, hs, -⟩ := w.doses y hy
  rw [hp, hs]
  exact h x hx

theorem DrawBook.inProgressAt (h : DrawBook s) {d : Dose} (hd : curDose s = some d) : InProgressAt d.position s := by
  intro x hx
  obtain ⟨hm, hs⟩ := curDose_mem hd
  refine ⟨fun hp => ?_, fun hi => h.one x hx d hm hi hs⟩
  rw [List.inj_on_of_nodup_map h.positions hx hm hp]
  exact hs

/-- Work on the component in progress keeps the law of the records, where the component is by hand only if its entry is not
DRAWING. -/
theorem WorksAt.book (w : WorksAt p s t) (h : DrawBook s) (ha : InProgressAt p s)
    (hshut : ∀ y ∈ dosesOf t, y.position = p → y.mode = some .hand → ∀ e, planEntry p t = some e → e.status ≠ .drawing) :
    DrawBook t := by
  have hat := ha.of_worksAt w
  refine ⟨by rw [w.positions]; exact h.positions, by rw [w.bins]; exact h.numbers, fun x hx y hy hsx hsy => ?_,
    fun y hy hw e he => ?_⟩
  · rw [(hat x hx).2 hsx, (hat y hy).2 hsy]
  · by_cases hp : y.position = p
    · refine hshut y hy hp (hw.resolve_left fun hwait => ?_) e (hp ▸ he)
      rw [(hat y hy).1 hp] at hwait
      cases hwait
    · obtain ⟨x, hx, hpx, hsx, hmx⟩ := w.doses y hy
      rw [hpx] at hp
      rw [hsx, hmx hp] at hw
      rw [hpx, w.others _ hp] at he
      exact h.shut x hx hw e he

/-- The component fed from a bin: where the unit then draws, the bin is open. -/
theorem WorksAt.openDraws (w : WorksAt p s t) (h : DrawBook s) (ha : InProgressAt p s)
    (hmode : ∀ y ∈ dosesOf t, y.position = p → y.mode ≠ some .hand) (hopen : t.draws = true → OpenEntry p t) :
    OpenDraws t := by
  have hat := ha.of_worksAt w
  refine ⟨w.book h ha fun y hy hp hm => absurd hm (hmode y hy hp), fun y hy hs hm => ?_, fun y hy hs _ hd => ?_⟩
  · exact absurd hm (hmode y hy ((hat y hy).2 hs))
  · rw [(hat y hy).2 hs]
    exact hopen hd

/-- The component added by hand. -/
theorem WorksAt.openDraws_hand (w : WorksAt p s t) (h : DrawBook s) (ha : InProgressAt p s)
    (hmode : ∀ y ∈ dosesOf t, y.position = p → y.mode = some .hand)
    (hshut : ∀ e, planEntry p t = some e → e.status ≠ .drawing) (hbarred : t.handBarred = false) : OpenDraws t := by
  have hat := ha.of_worksAt w
  refine ⟨w.book h ha fun _ _ _ _ => hshut, fun _ _ _ _ => hbarred, fun y hy hs hm => ?_⟩
  exact absurd (hmode y hy ((hat y hy).2 hs)) hm

theorem mode_updDose {f : Dose → Dose} {m : Option DoseMode} (hf : ∀ d, (f d).mode = m)
    {y : Dose} (hy : y ∈ dosesOf (updDose p f s)) (h : y.position = p) : y.mode = m := by
  rw [dosesOf_updDose] at hy
  obtain ⟨x, hx, rfl⟩ := List.mem_map.1 hy
  by_cases hx : x.position = p
  · rw [if_pos hx]
    exact hf x
  · rw [if_neg hx] at h
    exact absurd h hx

end Work

/-! ### The bin of a component (R57, R58) -/

theorem eligible_open {code : Nat} {e : BinEntry} (h : eligible code e = true) : e.quarantine = .off := by
  simp only [eligible, Bool.and_eq_true, decide_eq_true_eq] at h
  obtain ⟨⟨-, hq⟩, -⟩ := h
  exact hq

/-- A bin that is chosen is open. -/
theorem chooseBin_open {code target : Nat} {skip : Option Nat} {s : State} {bin : Nat}
    (h : chooseBin code target skip s = some bin) (hn : (s.bins.map BinEntry.bin).Nodup) {b : BinEntry} (hb : b ∈ s.bins)
    (hbin : b.bin = bin) : b.quarantine = .off := by
  obtain ⟨p, hp, hpbin⟩ := chooseBin_mem h
  obtain ⟨he, hel, -⟩ := mem_eligibleBins.1 hp
  rw [List.inj_on_of_nodup_map hn hb he (hbin.trans hpbin.symm)]
  exact eligible_open hel

section Bins
variable {s t : State} {d : Dose} {e : PlanEntry}

theorem confirmBin_same {p : Nat} (h : confirmBin p s = .same) :
    ∃ e b, planEntry p s = some e ∧ findBin e.bin s = some b ∧ eligible e.ingredient b = true := by
  unfold confirmBin at h
  split at h
  · cases h
  · rename_i e he
    split at h
    · cases h
    · rename_i b hb
      split at h
      · rename_i hel
        exact ⟨e, b, he, hb, hel⟩
      · split at h <;> cases h

theorem confirmBin_other {p bin : Nat} (h : confirmBin p s = .other bin) :
    ∃ e, planEntry p s = some e ∧ rechoose e s = some bin := by
  unfold confirmBin at h
  split at h
  · cases h
  · rename_i e he
    split at h
    · cases h
    · split at h
      · cases h
      · split at h
        · rename_i c hc
          cases h
          exact ⟨e, he, hc⟩
        · cases h

theorem moveBin_eq (he : planEntry d.position s = some e) (bin : Nat) :
    moveBin d bin s = updDose d.position (fun d => { d with announced := true })
      (queueFrame (.drawNotice (scaleNumber s) [(bin, e.target - e.drawn)])
        (updPlanEntry d.position (fun e => { e with bin := bin, status := .drawing }) s)) := by
  unfold moveBin
  rw [he]

/-- R57: the entry of the component that moves. -/
theorem moveBin_entry (he : planEntry d.position s = some e) (bin : Nat) :
    planEntry d.position (moveBin d bin s) = some { e with bin := bin, status := .drawing } := by
  rw [moveBin_eq he, queueFrame_only]
  refine (planEntry_updPlanEntry_self (f := fun e => { e with bin := bin, status := .drawing }) (fun _ => rfl) s).trans ?_
  rw [he]
  rfl

theorem moveBin_worksAt (d : Dose) (bin : Nat) (s : State) : WorksAt d.position s (moveBin d bin s) := by
  unfold moveBin
  split
  · exact ((updPlanEntry_worksAt (f := fun e => { e with bin := bin, status := .drawing }) (fun _ => rfl) _ s).trans
      (queueFrame_worksAt _ _)).trans (updDose_worksAt (f := fun d => { d with announced := true }) (fun _ => ⟨rfl, rfl⟩) _ _)
  · exact WorksAt.same rfl rfl rfl

/-- The modes of the components stand. -/
theorem moveBin_modes (d : Dose) (bin : Nat) {y : Dose} (hy : y ∈ dosesOf (moveBin d bin s)) :
    ∃ x ∈ dosesOf s, y.position = x.position ∧ y.mode = x.mode := by
  unfold moveBin at hy
  split at hy
  · rw [dosesOf_updDose, queueFrame_doses] at hy
    obtain ⟨x, hx, rfl⟩ := List.mem_map.1 hy
    refine ⟨x, hx, ?_⟩
    split <;> exact ⟨rfl, rfl⟩
  · exact ⟨y, hy, rfl, rfl⟩

theorem moveBin_footing (d : Dose) (bin : Nat) (s : State) : (moveBin d bin s).footing = s.footing := by
  unfold moveBin
  split
  · rw [updDose_footing, queueFrame_only]
    rfl
  · rfl

/-- R57, R58: the bin chosen for what remains of the entry is open. -/
theorem moveBin_open (hn : (s.bins.map BinEntry.bin).Nodup) (he : planEntry d.position s = some e) {bin : Nat}
    (hc : rechoose e s = some bin) : OpenEntry d.position (moveBin d bin s) := by
  refine ⟨_, moveBin_entry he bin, rfl, fun b hb hbin => ?_⟩
  rw [(moveBin_worksAt d bin s).bins] at hb
  exact chooseBin_open hc hn hb hbin

end Bins

/-! ### Starting components (R66) -/

section Start
variable {s t : State}

theorem confirmStart_open {d : Dose} (h : DrawBook s) (ha : InProgressAt d.position s) (hr : s.unheld) :
    OpenDraws (confirmStart d s) := by
  have fed (m : DoseMode) (u : State) (hm : m ≠ .hand) :
      ∀ y ∈ dosesOf (updDose d.position (fun x => { x with mode := some m }) u), y.position = d.position →
        y.mode ≠ some .hand := fun y hy hp hh => by
    rw [mode_updDose (f := fun x => { x with mode := some m }) (m := some m) (fun _ => rfl) hy hp] at hh
    exact hm (Option.some.inj hh)
  have hmode (u : State) : feedMode d u ≠ .hand := by unfold feedMode; split <;> nofun
  unfold confirmStart
  split
  · rename_i hc
    obtain ⟨e, b, he, hb, hel⟩ := confirmBin_same hc
    refine WorksAt.openDraws (s := s) (((updPlanEntry_worksAt (f := fun e => { e with status := .drawing }) (fun _ => rfl)
      d.position s).trans (updDose_worksAt (f := fun x => { x with mode := some (feedMode d s) }) (fun _ => ⟨rfl, rfl⟩)
      d.position _)).trans (setScale_worksAt .tare _)) h ha (fed _ _ (hmode s)) fun _ => ⟨{ e with status := .drawing }, ?_, rfl,
        fun x hx hxb => ?_⟩
    · refine (planEntry_updPlanEntry_self (f := fun e => { e with status := .drawing }) (fun _ => rfl) s).trans ?_
      rw [he]
      rfl
    · have hbin : b.bin = e.bin := by simpa using List.find?_some hb
      rw [List.inj_on_of_nodup_map h.numbers hx (List.mem_of_find?_eq_some hb) (hxb.trans hbin.symm)]
      exact eligible_open hel
  · rename_i bin hc
    obtain ⟨e, he, hchosen⟩ := confirmBin_other hc
    exact WorksAt.openDraws (s := s) (((moveBin_worksAt d bin s).trans (updDose_worksAt
      (f := fun x => { x with mode := some (feedMode d (moveBin d bin s)) }) (fun _ => ⟨rfl, rfl⟩) d.position _)).trans
      (setScale_worksAt .tare _)) h ha (fed _ _ (hmode _)) fun _ => moveBin_open h.numbers he hchosen
  · refine WorksAt.openDraws (s := s) ((updDose_worksAt (f := fun x => { x with mode := some (feedMode d s) })
      (fun _ => ⟨rfl, rfl⟩) d.position s).trans (holdScale_worksAt _ _ _ _)) h ha (fun y hy => ?_) fun hd => ?_
    · rw [holdScale_doses] at hy
      exact fed _ _ (hmode s) y hy
    · rw [draws_held (holdScale_state ..), holdScale_resume_unheld (by exact hr)] at hd
      cases hd

theorem confirmStart_tame (d : Dose) (h : Tame s t) : Tame s (confirmStart d t) := by
  have ease {u v : State} (hu : Tame s u) (hv : v.footing = u.footing) : Tame s v := hu.trans (Tame.of_footing hv)
  unfold confirmStart
  split
  · exact Tame.setScale (st := .tare) (ease (ease h (v := updPlanEntry _ _ t) rfl) (updDose_footing _ _ _)) nofun nofun nofun
  · exact (ease h ((updDose_footing _ _ _).trans (moveBin_footing _ _ _))).setScale nofun nofun nofun
  · exact holdScale_tame (ease h (updDose_footing _ _ _)) nofun

/-- A waiting component that goes to work. -/
theorem begun_book {d : Dose} (h : DrawBook s) (hu : Unstarted s) :
    DrawBook (updDose d.position (fun x => { x with status := .inProgress }) s)
      ∧ InProgressAt d.position (updDose d.position (fun x => { x with status := .inProgress }) s) := by
  have hmem : ∀ y ∈ dosesOf (updDose d.position (fun x => { x with status := .inProgress }) s), ∃ x ∈ dosesOf s,
      y.position = x.position ∧ y.mode = x.mode ∧ (y.position = d.position ↔ y.status = .inProgress)
        ∧ (y.position ≠ d.position → y.status = x.status) := by
    intro y hy
    rw [dosesOf_updDose] at hy
    obtain ⟨x, hx, rfl⟩ := List.mem_map.1 hy
    refine ⟨x, hx, ?_⟩
    split
    · rename_i hp
      exact ⟨rfl, rfl, ⟨fun _ => rfl, fun _ => hp⟩, fun hn => absurd hp hn⟩
    · rename_i hp
      exact ⟨rfl, rfl, ⟨fun he => absurd he hp, fun hs => absurd hs (hu x hx)⟩, fun _ => rfl⟩
  have hat : InProgressAt d.position (updDose d.position (fun x => { x with status := .inProgress }) s) := fun y hy => by
    obtain ⟨x, -, -, -, hi, -⟩ := hmem y hy
    exact hi
  refine ⟨⟨?_, h.numbers, fun x hx y hy hsx hsy => ?_, fun y hy hw e he => ?_⟩, hat⟩
  · have hp : (dosesOf (updDose d.position (fun x => { x with status := .inProgress }) s)).map Dose.position
        = (dosesOf s).map Dose.position := by
      rw [dosesOf_updDose, List.map_map]
      refine List.map_congr_left fun x _ => ?_
      simp only [Function.comp]
      split <;> rfl
    rw [hp]
    exact h.positions
  · rw [(hat x hx).2 hsx, (hat y hy).2 hsy]
  · obtain ⟨x, hx, hp, hm, hi, hs⟩ := hmem y hy
    by_cases hpos : y.position = d.position
    · refine h.shut x hx (.inr (hm ▸ hw.resolve_left fun hwait => ?_)) e (hp ▸ he)
      rw [hi.1 hpos] at hwait
      cases hwait
    · rw [hs hpos, hm] at hw
      exact h.shut x hx hw e (hp ▸ he)

theorem startDose_open {d : Dose} (h : DrawBook s) (hu : Unstarted s) (hd : d ∈ dosesOf s) (hw : d.status = .waiting)
    (hr : s.unheld) : OpenDraws (startDose d s) := by
  obtain ⟨hbook, hat⟩ := begun_book (d := d) h hu
  have hshut : ∀ e, planEntry d.position s = some e → e.status ≠ .drawing := h.shut d hd (.inl hw)
  have byHand {u : State} (w : WorksAt d.position (updDose d.position (fun x => { x with status := .inProgress }) s) u)
      (hu : u.plan = s.plan) :
      OpenDraws (setScale .tare (updDose d.position (fun d => { d with mode := some .hand }) u)) := by
    refine ((w.trans (updDose_worksAt (f := fun d => { d with mode := some .hand }) (fun _ => ⟨rfl, rfl⟩) _ u)).trans
      (setScale_worksAt .tare _)).openDraws_hand hbook hat (fun y hy hp => ?_) (fun e he => hshut e ?_) rfl
    · exact mode_updDose (f := fun d => { d with mode := some .hand }) (fun _ => rfl) hy hp
    · unfold planEntry at he ⊢
      rwa [← hu]
  unfold startDose
  dsimp only
  split
  · exact byHand (WorksAt.same rfl rfl rfl) rfl
  · split
    · refine byHand ?_ ?_
      · unfold answerZero
        split
        · exact (queueFrame_worksAt _ _).trans (updDose_worksAt (f := fun d => { d with announced := false })
            (fun _ => ⟨rfl, rfl⟩) _ _)
        · exact WorksAt.same rfl rfl rfl
      · rw [answerZero_only]
        rfl
    · exact confirmStart_open hbook hat hr

theorem startDose_tame (d : Dose) (h : Tame s t) : Tame s (startDose d t) := by
  have h1 := h.trans (Tame.of_footing (updDose_footing d.position (fun x => { x with status := .inProgress }) t))
  have byHand {u : State} (hu : Tame s u) :
      Tame s (setScale .tare (updDose d.position (fun d => { d with mode := some .hand }) u)) :=
    (hu.trans (Tame.of_footing (updDose_footing _ _ u))).setScale nofun nofun nofun
  unfold startDose
  dsimp only
  split
  · exact byHand h1
  · split
    · exact byHand (h1.trans (answerZero_eases d _).tame)
    · exact confirmStart_tame d h1

theorem setScale_complete_open (h : DrawBook s) : OpenDraws (setScale .complete s) :=
  DrawBook.openDraws (s := setScale .complete s) (h.congr rfl rfl rfl) rfl rfl

theorem Unstarted.eases (h : Unstarted s) (he : Eases s t) : Unstarted t := by
  intro y hy hs
  obtain ⟨x, hx, -, hi, -⟩ := he.doses y hy
  exact h x hx (hi hs)

theorem State.unheld.of_footing (h : s.unheld) (hf : t.footing = s.footing) : t.unheld := by
  have hstate : t.scale.state = s.scale.state := congrArg Footing.state hf
  have hresume : t.scale.resume = s.scale.resume := congrArg Footing.resume hf
  unfold State.unheld
  rw [hstate, hresume]
  exact h

/-- R66: a component of target 0 is passed. -/
theorem passed_eases (d : Dose) (s : State) :
    Eases s (answerZero d (updDose d.position (fun d => { d with mode := some .nothing, status := .done }) s)) :=
  (updDose_eases (f := fun d => { d with mode := some .nothing, status := .done }) (fun _ => rfl) nofun
    (fun _ h => h.elim nofun nofun) s).trans (answerZero_eases d _)

theorem startNext_open (k : Nat) (h : DrawBook s) (hu : Unstarted s) (hr : s.unheld) : OpenDraws (startNext k s) := by
  induction k generalizing s with
  | zero => exact setScale_complete_open h
  | succ k ih =>
    unfold startNext
    split
    · exact setScale_complete_open h
    · rename_i d hd
      obtain ⟨hm, hw⟩ := nextWaiting_mem hd
      split
      · have he := passed_eases d s
        exact ih (he.book h) (hu.eases he) (hr.of_footing he.footing)
      · exact startDose_open h hu hm hw hr

theorem startNext_tame (k : Nat) (h : Tame s t) : Tame s (startNext k t) := by
  induction k generalizing t with
  | zero => exact h.setScale nofun nofun nofun
  | succ k ih =>
    unfold startNext
    split
    · exact h.setScale nofun nofun nofun
    · split
      · exact ih (h.trans (passed_eases _ t).tame)
      · exact startDose_tame _ h

end Start

/-! ### The record step (R72, R75, R83) -/

section Record
variable {s t : State}

theorem passOn_open (h : DrawBook s) (hu : Unstarted s) (hr : s.unheld) : OpenDraws (passOn s) := by
  unfold passOn
  split
  · exact setScale_complete_open ((closeWaiting_eases _ s).book h)
  · exact startNext_open _ h hu hr

theorem passOn_tame (h : Tame s t) : Tame s (passOn t) := by
  unfold passOn
  split
  · exact (h.trans (closeWaiting_eases _ t).tame).setScale nofun nofun nofun
  · exact startNext_tame _ h

/-- A component that is done, the one in progress, leaves none in progress. -/
theorem unstarted_of_done {p : Nat} {f : Dose → Dose} (hf : ∀ d, (f d).status = .done)
    (h : ∀ x ∈ dosesOf s, x.status = .inProgress → x.position = p) : Unstarted (updDose p f s) := by
  intro y hy hs
  rw [dosesOf_updDose] at hy
  obtain ⟨x, hx, rfl⟩ := List.mem_map.1 hy
  by_cases hp : x.position = p
  · rw [if_pos hp, hf] at hs
    cases hs
  · rw [if_neg hp] at hs
    exact hp (h x hx hs)

theorem Eases.onlyAt {p : Nat} (he : Eases s t) (h : ∀ x ∈ dosesOf s, x.status = .inProgress → x.position = p) :
    ∀ x ∈ dosesOf t, x.status = .inProgress → x.position = p := by
  intro y hy hs
  obtain ⟨x, hx, hp, hi, -⟩ := he.doses y hy
  rw [hp]
  exact h x hx (hi hs)

/-- R72: the component in progress is recorded, and the next one starts. -/
theorem recordStep_open {o : DoseOutcome} {adapts : Bool} {d : Dose} (h : DrawBook s) (ha : InProgressAt d.position s)
    (hr : s.unheld) : OpenDraws (recordStep o adapts d s) := by
  have he := recorded_eases o adapts d s
  rw [recordStep_eq]
  refine passOn_open (he.book h) ?_ (hr.of_footing he.footing)
  refine unstarted_of_done (f := fun x => { x with outcome := some o, status := .done }) (fun _ => rfl) ?_
  have hadapt : Eases s (if adapts then adaptChannel d s else s) := Eases.ite (adaptChannel_eases d s) (Eases.refl s)
  have hreport := Eases.ite (c := d.fed = true) (hadapt.trans (completeReport_eases d _)) hadapt
  exact (hreport.trans (consumeDose_eases d _)).onlyAt fun x hx => (ha x hx).2

theorem recordStep_tame (o : DoseOutcome) (adapts : Bool) (d : Dose) (h : Tame s t) : Tame s (recordStep o adapts d t) := by
  rw [recordStep_eq]
  exact passOn_tame (h.trans (recorded_eases o adapts d t).tame)

theorem updRecord_inProgressAt {p : Nat} (f : Batch → Batch) (h : InProgressAt p s) : InProgressAt p (updRecord f s) := by
  unfold InProgressAt
  rwa [updRecord_doses]

theorem acceptDose_open {o : DoseOutcome} {d : Dose} (h : DrawBook s) (ha : InProgressAt d.position s) (hr : s.unheld) :
    OpenDraws (acceptDose o d s) :=
  recordStep_open ((updRecord_eases _ s).book h) (updRecord_inProgressAt _ ha)
    (hr.of_footing (updRecord_footing _ s))

theorem acceptDose_tame (o : DoseOutcome) (d : Dose) (h : Tame s t) : Tame s (acceptDose o d t) :=
  recordStep_tame o true d (h.trans (updRecord_eases _ t).tame)

end Record

end Sys2Proof.Machine
end

