-- ==== Sys2Proof/Proofs/FeedCycle.lean ====
section
/-! SUPPORT. O59: what the operations of the weigh cycle do to the laws of the feeders, in the order of the model's file. -/
namespace Sys2Proof.Machine

section Moves
variable {s : State}

/-- The unit goes to a state that asks nothing of the component in progress. -/
def ScaleState.calm : ScaleState → Bool
  | .handAdd | .settle .handAdd | .complete | .discharge | .dumping | .unknown => true
  | _ => false

theorem ScaleState.calm_not_feeding {st : ScaleState} (h : st.calm = true) : st.feeding = false := by
  cases st with
  | feedFast | feedSlow | jog => cases h
  | _ => rfl

theorem setScale_calm_open {st : ScaleState} (hst : st.calm = true) (h : DrawBook s) : OpenDraws (setScale st s) := by
  have hasks : (setScale st s).handBarred = false ∧ (setScale st s).draws = false := by
    cases st with
    | settle p => cases p with
      | handAdd => exact ⟨rfl, rfl⟩
      | _ => cases hst
    | idle | tare | feedFast | feedSlow | jog | held => cases hst
    | _ => exact ⟨rfl, rfl⟩
  exact DrawBook.openDraws (h.congr rfl rfl rfl) hasks.1 hasks.2

theorem setScale_calm_sound {st : ScaleState} (hst : st.calm = true) (s : State) : Sound s (setScale st s) := by
  refine ⟨(Tame.refl s).setScale (fun hf => ?_) (fun hi => ?_) (fun hh => ?_), fun h => setScale_calm_open hst h.toDrawBook⟩
  · rw [ScaleState.calm_not_feeding hst] at hf
    cases hf
  · subst hi; cases hst
  · subst hh; cases hst

/-- A state of the work on a component fed from a bin. -/
def ScaleState.fedWork : ScaleState → Bool
  | .feedFast | .feedSlow | .jog _ | .settle .first | .settle .jog | .settle .resume => true
  | _ => false

theorem fedWork_asks (h : s.scale.state.fedWork = true) : s.handBarred = true ∧ s.draws = true ∧ s.unheld := by
  unfold State.handBarred State.draws State.unheld
  cases hst : s.scale.state with
  | settle p => cases p <;> simp_all [ScaleState.fedWork]
  | _ => simp_all [ScaleState.fedWork]

/-- The unit goes on to another state of that work. -/
theorem setScale_work_sound {st : ScaleState} (hw : s.scale.state.fedWork = true)
    (hfeed : st.feeding = true → s.scale.state.feeding = true ∨ s.line = .run) (hidle : st ≠ .idle) (hheld : st ≠ .held) :
    Sound s (setScale st s) := by
  obtain ⟨hbarred, hdraws, -⟩ := fedWork_asks hw
  exact ⟨(Tame.refl s).setScale hfeed hidle hheld, fun h => h.restate rfl rfl rfl (fun _ => hbarred) (fun _ => hdraws)⟩

theorem updDose_sound {f : Dose → Dose}
    (hf : ∀ d, (f d).position = d.position ∧ (f d).status = d.status ∧ (f d).mode = d.mode) (p : Nat) (s : State) :
    Sound s (updDose p f s) := ⟨(updDose_eases_idle hf p s).tame, updDose_open hf p⟩

theorem queueFrame_feeding (b : Body) (s : State) : (queueFrame b s).feeding = s.feeding := by rw [queueFrame_only]; rfl

theorem queueNotice_feeding (n : Notice) (s : State) : (queueNotice n s).feeding = s.feeding := by
  rw [queueNotice_only]; rfl

theorem raiseFault_feeding (k : FaultKey) (reference : Option Nat) (detail : List DetailField) (s : State) :
    (raiseFault k reference detail s).feeding = s.feeding := by rw [raiseFault_only]; rfl

end Moves

/-! ### Admission (R65) -/

section Admission
variable {s : State}

/-- R65: the dose records of a batch that is taken. -/
def freshDoses (plan : DrawPlan) (comps : List Planned) : List Dose :=
  comps.map (fun c => { Dose.fresh c with announced := plan.entries.any (fun e => decide (e.position = c.position)) })

/-- R65: the state with the batch taken and its draw plan announced, before its first component starts. -/
def taken (b : Batch) (comps : List Planned) (s : State) : State :=
  let plan := makePlan b.number (decide (b.kind = .flush)) comps s
  let s1 : State := { s with
    plan := some plan
    scale := { s.scale with batch := some { record := b, doses := freshDoses plan comps, firstTare := none } } }
  if plan.entries.isEmpty then s1
  else queueFrame (.drawNotice b.number (plan.entries.map (fun e => (e.bin, e.target)))) s1

theorem admitToScale_eq (b : Batch) (comps : List Planned) (s : State) :
    admitToScale b comps s = startComponent (taken b comps s) := rfl

theorem taken_feeding (b : Batch) (comps : List Planned) (s : State) : ∃ sb : ScaleBatch,
    (taken b comps s).feeding = { s.feeding with
        batch := some sb, plan := some (makePlan b.number (decide (b.kind = .flush)) comps s) }
      ∧ sb.doses.map Dose.position = comps.map Planned.position ∧ ∀ d ∈ sb.doses, d.status = .waiting := by
  refine ⟨{ record := b, doses := freshDoses (makePlan b.number (decide (b.kind = .flush)) comps s) comps, firstTare := none },
    ?_, (List.map_map ..).trans (List.map_congr_left fun c _ => rfl), ?_⟩
  rotate_left
  · intro d hd
    obtain ⟨c, -, rfl⟩ := List.mem_map.1 hd
    rfl
  · unfold taken
    dsimp only
    split
    · rfl
    · rw [queueFrame_feeding]
      rfl

/-- R56: a plan that has just been made has no DRAWING entry. -/
theorem makePlan_planned {number : Nat} {flush : Bool} {comps : List Planned} {e : PlanEntry}
    (he : e ∈ (makePlan number flush comps s).entries) : e.status = .planned := by
  obtain ⟨c, -, hc⟩ := List.mem_filterMap.1 he
  split at hc
  · cases hc
  · obtain ⟨bin, -, rfl⟩ := Option.map_eq_some_iff.1 hc
    rfl

theorem taken_book (b : Batch) {comps : List Planned} (hc : (comps.map Planned.position).Nodup)
    (hn : (s.bins.map BinEntry.bin).Nodup) : DrawBook (taken b comps s) ∧ Unstarted (taken b comps s) := by
  obtain ⟨sb, hf, hpos, hwait⟩ := taken_feeding b comps s
  have hdoses : dosesOf (taken b comps s) = sb.doses := by
    unfold dosesOf
    rw [show (taken b comps s).scale.batch = some sb from congrArg Feeding.batch hf]
  have hplan : (taken b comps s).plan = some (makePlan b.number (decide (b.kind = .flush)) comps s) :=
    congrArg Feeding.plan hf
  have hbins : (taken b comps s).bins = s.bins := congrArg Feeding.bins hf
  have hu : Unstarted (taken b comps s) := fun d hd hs => by
    rw [hdoses] at hd
    rw [hwait d hd] at hs
    cases hs
  refine ⟨⟨?_, ?_, fun x hx y hy hs => absurd hs (hu x hx), fun x _ _ e he hd => ?_⟩, hu⟩
  · rw [hdoses, hpos]
    exact hc
  · rw [hbins]
    exact hn
  · unfold planEntry at he
    rw [hplan, Option.bind_some] at he
    rw [makePlan_planned (List.mem_of_find?_eq_some he)] at hd
    cases hd

/-- The unit that starts a component is not IDLE, nor held to return there. -/
theorem startNext_idles (k : Nat) (hr : s.unheld) : ¬(startNext k s).idles := by
  have moved {st : ScaleState} (u : State) (hi : st ≠ .idle) (hh : st ≠ .held) : ¬(setScale st u).idles := fun h =>
    h.elim hi (fun h => hh h.1)
  have confirmed (d : Dose) {u : State} (hu : u.unheld) : ¬(confirmStart d u).idles := by
    unfold confirmStart
    split
    · exact moved _ nofun nofun
    · exact moved _ nofun nofun
    · rintro (h | ⟨-, h⟩)
      · cases h
      · rw [holdScale_resume_unheld (by exact hu)] at h
        cases h
  induction k generalizing s with
  | zero => exact moved _ nofun nofun
  | succ k ih =>
    unfold startNext
    split
    · exact moved _ nofun nofun
    · rename_i d _
      split
      · exact ih (hr.of_footing (passed_eases d s).footing)
      · unfold startDose
        dsimp only
        split
        · exact moved _ nofun nofun
        · split
          · exact moved _ nofun nofun
          · exact confirmed d hr

theorem admitToScale_feeds {l : FeedLaw} (b : Batch) {comps : List Planned} (hc : (comps.map Planned.position).Nodup)
    (hi : s.scale.state = .idle) (h : l.holds s) : l.holds (admitToScale b comps s) := by
  obtain ⟨sb, hf, -, -⟩ := taken_feeding b comps s
  have hstate : (taken b comps s).scale.state = .idle := (congrArg Feeding.state hf).trans hi
  have hr : (taken b comps s).unheld := .inl (by rw [hstate]; nofun)
  rw [admitToScale_eq]
  cases l with
  | driven =>
    refine (startNext_tame _ (Tame.refl _)).driven (?_ : FeedLawful _)
    have h : FeedLawful s := h
    unfold FeedLawful at h ⊢
    rw [feedRate_ne_off_iff] at h ⊢
    rwa [hstate, show (taken b comps s).line = s.line from congrArg Feeding.line hf,
      show (taken b comps s).reports.dosing = s.reports.dosing from congrArg Feeding.reported hf,
      show (taken b comps s).inputs.stopLine = s.inputs.stopLine from congrArg Feeding.stopLine hf, ← hi]
  | emptied => exact (idleScaleEmpty_iff _).2 fun hidle => absurd hidle (startNext_idles _ hr)
  | drawn =>
    obtain ⟨hbook, hu⟩ := taken_book b hc (OpenDraws.toDrawBook h).numbers
    exact startNext_open _ hbook hu hr

end Admission

/-! ### Tare and feed (R67 to R69, R71) -/

section Feeds
variable {s : State} {d : Dose}

theorem openFeed_tame (fast : Bool) (g : Int) (hl : s.line = .run) : Tame s (openFeed fast g s) where
  line := rfl
  reported := rfl
  stopLine := rfl
  feeds _ := .inr hl
  idles ht := by
    obtain h | ⟨h, -⟩ := ht <;> cases fast <;> cases h
  empty := id

theorem enterJog_tame (d : Dose) (s : State) : Tame s (enterJog d s) :=
  (Tame.of_footing (updDose_footing d.position (fun d => { d with jogs := d.jogs + 1 }) s)).setScale nofun nofun nofun

theorem NoHand.updDose {f : Dose → Dose} (hf : ∀ d, (f d).status = d.status ∧ (f d).mode = d.mode) (p : Nat)
    (h : NoHand s) : NoHand (updDose p f s) := by
  intro y hy hs
  rw [dosesOf_updDose] at hy
  obtain ⟨x, hx, rfl⟩ := List.mem_map.1 hy
  by_cases hp : x.position = p
  · rw [if_pos hp] at hs ⊢
    rw [(hf x).2]
    exact h x hx ((hf x).1 ▸ hs)
  · rw [if_neg hp] at hs ⊢
    exact h x hx hs

theorem enterJog_open (h : OpenDraws s) (hn : NoHand s) (hdraws : s.draws = true) : OpenDraws (enterJog d s) :=
  (updDose_open (f := fun d => { d with jogs := d.jogs + 1 }) (fun _ => ⟨rfl, rfl, rfl⟩) d.position h).restate_fed
    (hn.updDose (f := fun d => { d with jogs := d.jogs + 1 }) (fun _ => ⟨rfl, rfl⟩) _) rfl rfl rfl (fun _ => hdraws)

theorem openFeed_open {fast : Bool} {g : Int} (h : OpenDraws s) (hn : NoHand s) (hdraws : s.draws = true) :
    OpenDraws (openFeed fast g s) := h.restate_fed hn rfl rfl rfl (fun _ => hdraws)

/-- R63: the batch keeps the first tare taken of it. -/
def firstTared (w : Int) (s : State) : State :=
  { s with scale := { s.scale with batch := s.scale.batch.map (fun b =>
      { b with firstTare := match b.firstTare with | some t => some t | none => some w }) } }

theorem firstTared_doses (w : Int) (s : State) : dosesOf (firstTared w s) = dosesOf s := by
  unfold dosesOf firstTared
  cases s.scale.batch <;> rfl

theorem firstTared_sound (w : Int) (s : State) : Sound s (firstTared w s) := by
  refine ⟨Tame.of_footing ?_, fun h => h.restate (firstTared_doses w s) rfl rfl id id⟩
  unfold State.footing firstTared
  rw [Option.isSome_map]

/-- R67: the tare is taken. -/
def tared (d : Dose) (w : Int) (s : State) : State := updDose d.position (fun d => { d with tare := some w }) (firstTared w s)

theorem tared_sound (d : Dose) (w : Int) (s : State) : Sound s (tared d w s) :=
  (firstTared_sound w s).trans (updDose_sound (f := fun d => { d with tare := some w }) (fun _ => ⟨rfl, rfl, rfl⟩) _ _)

theorem tared_worksAt (d : Dose) (w : Int) (s : State) : WorksAt d.position s (tared d w s) :=
  WorksAt.trans (WorksAt.same (firstTared_doses w s) rfl rfl) (updDose_worksAt (f := fun d => { d with tare := some w })
    (fun _ => ⟨rfl, rfl⟩) d.position (firstTared w s))

/-- R68, R93: the mode of a component fed from a bin, with the F of the channel then in use. -/
def fedTare (d : Dose) (w : Int) (s : State) : State :=
  updDose d.position (fun x => { x with mode := some (feedMode d (tared d w s)) }) (tared d w s)

theorem takeTare_eq (d : Dose) (w : Int) (s : State) : takeTare d w s =
    if d.mode = some .hand then
      queueNotice (.handAdd (scaleNumber (tared d w s)) d.ingredient d.target) (setScale .handAdd (tared d w s))
    else if feedMode d (tared d w s) = .jogOnly then enterJog d (fedTare d w s)
    else openFeed (decide (slowOf d (fedTare d w s) < d.target)) 0 (fedTare d w s) := rfl

theorem feedMode_ne_hand (d : Dose) (s : State) : feedMode d s ≠ .hand := by
  unfold feedMode
  split <;> nofun

theorem fedTare_open {w : Int} (hd : curDose s = some d) (hm : d.mode ≠ some .hand) (hdraws : s.draws = true)
    (h : OpenDraws s) : OpenDraws (fedTare d w s) ∧ NoHand (fedTare d w s) := by
  have w1 : WorksAt d.position s (fedTare d w s) := (tared_worksAt d w s).trans (updDose_worksAt
    (f := fun x => { x with mode := some (feedMode d (tared d w s)) }) (fun _ => ⟨rfl, rfl⟩) d.position _)
  have hat := h.toDrawBook.inProgressAt hd
  have hset : ∀ y ∈ dosesOf (fedTare d w s), y.position = d.position → y.mode ≠ some .hand := fun y hy hp hh => by
    rw [mode_updDose (f := fun x => { x with mode := some (feedMode d (tared d w s)) }) (fun _ => rfl) hy hp] at hh
    exact feedMode_ne_hand _ _ (Option.some.inj hh)
  obtain ⟨hmem, hs⟩ := curDose_mem hd
  exact ⟨w1.openDraws h.toDrawBook hat hset fun _ => h.fed d hmem hs hm hdraws,
    fun y hy hi => hset y hy ((hat.of_worksAt w1 y hy).2 hi)⟩

/-- R67, R68: after the tare the component is fed, unless it is added by hand. -/
theorem takeTare_sound (w : Int) (hst : s.scale.state = .tare) (hd : curDose s = some d) (hl : s.line = .run) :
    Sound s (takeTare d w s) := by
  have h1 := tared_sound d w s
  have hdraws : s.draws = true := by unfold State.draws; rw [hst]
  have htame : Tame s (fedTare d w s) := h1.tame.trans (Tame.of_footing (updDose_footing d.position _ (tared d w s)))
  rw [takeTare_eq]
  split
  · exact (h1.trans (setScale_calm_sound rfl _)).trans (Sound.of_feeding (queueNotice_feeding _ _))
  · rename_i hm
    split
    · refine ⟨htame.trans (enterJog_tame d _), fun h => ?_⟩
      obtain ⟨ho, hn⟩ := fedTare_open (w := w) hd hm hdraws h
      exact enterJog_open ho hn hdraws
    · refine ⟨htame.trans (openFeed_tame _ _ (htame.line.trans hl)), fun h => ?_⟩
      obtain ⟨ho, hn⟩ := fedTare_open (w := w) hd hm hdraws h
      exact openFeed_open ho hn hdraws

/-- R68: a feed ends in a settle, or goes on slow. -/
theorem feedSample_sound (fast : Bool) (hst : s.scale.state.feeding = true) (hw : s.scale.state.fedWork = true) :
    Sound s (feedSample fast d s) := by
  unfold feedSample
  split
  · exact Sound.refl s
  · split
    · unfold cutoffSettle
      split <;> exact setScale_work_sound hw nofun nofun nofun
    · split
      · exact setScale_work_sound hw (fun _ => .inl hst) nofun nofun
      · exact Sound.refl s

end Feeds

/-! ### Settling (R70, R73, R76) -/

section Settles
variable {s t : State} {d : Dose}

theorem draws_of_footing (h : t.footing = s.footing) : t.draws = s.draws := by
  have hstate : t.scale.state = s.scale.state := congrArg Footing.state h
  have hresume : t.scale.resume = s.scale.resume := congrArg Footing.resume h
  unfold State.draws
  rw [hstate, hresume]

theorem handBarred_of_footing (h : t.footing = s.footing) : t.handBarred = s.handBarred := by
  have hstate : t.scale.state = s.scale.state := congrArg Footing.state h
  have hresume : t.scale.resume = s.scale.resume := congrArg Footing.resume h
  unfold State.handBarred
  rw [hstate, hresume]

/-- A fault that holds the unit where the resume point asks nothing that its state did not ask. -/
theorem holdScale_sound {k : FaultKey} {detail : List DetailField} {r : ResumePoint} (hr : r = .idle → s.idles)
    (hbarred : r.barred = true → s.handBarred = true) (hdraws : r.draws = true → s.draws = true) :
    Sound s (holdScale k detail r s) := ⟨holdScale_tame (Tame.refl s) hr, fun h => holdScale_open h hbarred hdraws⟩

/-- R70: the error of the first settle is noted. -/
def firstError (first : Bool) (e : Int) (d : Dose) (s : State) : State :=
  if first then updDose d.position (fun d => { d with e1 := some e }) s else s

theorem firstError_sound (first : Bool) (e : Int) (d : Dose) (s : State) : Sound s (firstError first e d s) :=
  Sound.ite (fun _ => updDose_sound (f := fun d => { d with e1 := some e }) (fun _ => ⟨rfl, rfl, rfl⟩) _ s) (Sound.refl s)

theorem firstError_footing (first : Bool) (e : Int) (d : Dose) (s : State) : (firstError first e d s).footing = s.footing := by
  unfold firstError
  split
  · exact updDose_footing _ _ s
  · rfl

theorem firstError_worksAt (first : Bool) (e : Int) (d : Dose) (s : State) :
    WorksAt d.position s (firstError first e d s) := by
  unfold firstError
  split
  · exact updDose_worksAt (f := fun d => { d with e1 := some e }) (fun _ => ⟨rfl, rfl⟩) _ s
  · exact WorksAt.same rfl rfl rfl

/-- R70: a settle of a component fed from a bin is judged. -/
theorem judgeDose_sound (first : Bool) (g : Int) (hd : curDose s = some d) (hst : s.scale.state.fedWork = true) :
    Sound s (judgeDose first g d s) := by
  obtain ⟨hb, hdraws, hr⟩ := fedWork_asks hst
  have h1 := firstError_sound first (g - d.target) d s
  have hw := firstError_worksAt first (g - d.target) d s
  have hf := firstError_footing first (g - d.target) d s
  have record {d1 : Dose} (hp : d1.position = d.position) :
      Sound s (recordStep .within true d1 (firstError first (g - d.target) d s)) := by
    refine ⟨recordStep_tame _ _ _ h1.tame, fun h => recordStep_open (h1.opens h).toDrawBook ?_ (hr.of_footing hf)⟩
    rw [hp]
    exact (h.toDrawBook.inProgressAt hd).of_worksAt hw
  have hold (k : FaultKey) (detail : List DetailField) (o : DoseOutcome) :
      Sound s (holdScale k detail (.accept o) (firstError first (g - d.target) d s)) :=
    h1.trans (holdScale_sound nofun nofun nofun)
  unfold judgeDose
  dsimp only
  split
  · refine record ?_
    split <;> rfl
  · exact hold _ _ _
  · split
    · refine ⟨h1.tame.trans (enterJog_tame _ _), fun h => ?_⟩
      have ho := h1.opens h
      have he : enterJog (if first then { d with e1 := some (g - d.target) } else d) (firstError first (g - d.target) d s)
          = enterJog d (firstError first (g - d.target) d s) := by cases first <;> rfl
      exact he ▸ enterJog_open ho (ho.noHand ((handBarred_of_footing hf).trans hb)) ((draws_of_footing hf).trans hdraws)
    · exact hold _ _ _

theorem resumeDose_sound (g : Int) (hd : curDose s = some d) (hst : s.scale.state = .settle .resume) (hl : s.line = .run) :
    Sound s (resumeDose g d s) := by
  have hw : s.scale.state.fedWork = true := by rw [hst]; rfl
  obtain ⟨hb, hdraws, -⟩ := fedWork_asks hw
  unfold resumeDose
  split
  · exact judgeDose_sound false g hd hw
  · exact ⟨openFeed_tame _ _ hl, fun h => openFeed_open h (h.noHand hb) hdraws⟩

theorem recordStep_sound {o : DoseOutcome} {adapts : Bool} (hd : curDose s = some d) (hr : s.unheld) :
    Sound s (recordStep o adapts d s) :=
  ⟨recordStep_tame _ _ _ (Tame.refl s), fun h => recordStep_open h.toDrawBook (h.toDrawBook.inProgressAt hd) hr⟩

theorem judgeHand_sound (g : Int) (hd : curDose s = some d) (hr : s.unheld) : Sound s (judgeHand g d s) := by
  unfold judgeHand
  dsimp only
  split
  · exact recordStep_sound hd hr
  · exact setScale_calm_sound rfl s
  · exact holdScale_sound nofun nofun nofun

theorem settleSample_sound {p : SettlePurpose} (g : Int) (hd : curDose s = some d) (hst : s.scale.state = .settle p) :
    Sound s (settleSample p g d s) := by
  have hr : s.unheld := .inl (by rw [hst]; nofun)
  unfold settleSample
  refine Sound.ite (fun hl => Sound.ite (fun _ => recordStep_sound hd hr) ?_) (Sound.refl s)
  split
  · exact judgeDose_sound true g hd (by rw [hst]; rfl)
  · exact judgeDose_sound false g hd (by rw [hst]; rfl)
  · exact resumeDose_sound g hd hst (by simpa using hl)
  · exact judgeHand_sound g hd hr

end Settles

/-! ### Discharge and dump (R81, R82) -/

section Empties
variable {s : State}

/-- With no batch in the scale. -/
theorem OpenDraws.of_empty (hn : (s.bins.map BinEntry.bin).Nodup) (hb : s.scale.batch = none) : OpenDraws s := by
  have hd : dosesOf s = [] := by unfold dosesOf; rw [hb]
  have none {x : Dose} (hx : x ∈ dosesOf s) : False := by rw [hd] at hx; cases hx
  exact ⟨⟨by rw [hd]; exact List.nodup_nil, hn, fun _ hx => (none hx).elim, fun _ hx => (none hx).elim⟩,
    fun _ hx => (none hx).elim, fun _ hx => (none hx).elim⟩

theorem emptyScale_sound (s : State) : Sound s (emptyScale s) :=
  ⟨⟨rfl, rfl, rfl, nofun, fun _ => .inr rfl, fun _ => rfl⟩, fun h => OpenDraws.of_empty (s := emptyScale s) h.numbers rfl⟩

theorem completeDischarge_sound (s : State) : Sound s (completeDischarge s) := by
  unfold completeDischarge
  split
  · refine Sound.trans (Sound.of_feeding ?_) (emptyScale_sound _)
    unfold offWeightNotice
    split
    · rw [queueNotice_feeding]
      rfl
    · rfl
  · exact emptyScale_sound s

theorem completeDump_sound (s : State) : Sound s (completeDump s) := by
  unfold completeDump
  split
  · refine (emptyScale_sound s).trans (Sound.of_feeding ?_)
    unfold reportRetired
    split
    · split <;> rfl
    · rfl
  · exact emptyScale_sound s

theorem dumpScaleBatch_sound (s : State) : Sound s (dumpScaleBatch s) := by
  have he : Eases s (updRecord (fun b => { b with rework := true }) (dumpDoses (dosesOf s) s)) :=
    (dumpDoses_eases _ s).trans (updRecord_eases _ _)
  have hsound : ∀ u : State, Sound (setScale .dumping u)
      { u with scale := { u.scale with state := .dumping, holdSet := [], resume := none } } := fun u =>
    ⟨⟨rfl, rfl, rfl, nofun, fun h => h.elim nofun (fun h => nomatch h.1), id⟩, fun h => h.restate rfl rfl rfl nofun nofun⟩
  have h1 : Sound s (setScale .dumping (updRecord (fun b => { b with rework := true }) (dumpDoses (dosesOf s) s))) :=
    ⟨he.tame.setScale nofun nofun nofun, fun h => setScale_calm_open rfl (he.book h.toDrawBook)⟩
  have h2 := h1.trans (hsound _)
  unfold dumpScaleBatch
  dsimp only
  split
  · exact h2.trans (Sound.of_feeding rfl)
  · exact h2

end Empties

/-! ### Quarantine and overload (R77, R78) -/

section Cuts
variable {s : State} {d : Dose}

/-- A component fed from a bin, in progress: its entry is DRAWING. -/
theorem DrawBook.noHand_of_drawing (h : DrawBook s) (hd : curDose s = some d) {e : PlanEntry}
    (he : planEntry d.position s = some e) (hs : e.status = .drawing) : NoHand s := by
  intro x hx hi hm
  obtain rfl := h.current hd hx hi
  exact h.shut x hx (.inr hm) e he hs

theorem cutFeed_tame (d : Dose) (bin : Nat) (s : State) : Tame s (cutFeed d bin s) := by
  have h := holdScale_tame (k := .quarantineCut) (detail := [.byte bin, .mass (actualOf d s)]) (r := .rechoose)
    (partialReport_eases d s).tame nofun
  refine ⟨h.line, h.reported, h.stopLine, nofun, fun ht => ?_, h.empty⟩
  obtain hi | ⟨-, hi⟩ := ht
  · cases hi
  · cases hi

theorem cutFeed_open (bin : Nat) (h : DrawBook s) (hn : NoHand s) : OpenDraws (cutFeed d bin s) := by
  have he := partialReport_eases d s
  have hdoses : dosesOf (cutFeed d bin s) = dosesOf (partialReport d s) :=
    holdScale_doses .quarantineCut _ .rechoose (partialReport d s)
  have hplan : (cutFeed d bin s).plan = (partialReport d s).plan := holdScale_plan .quarantineCut _ .rechoose (partialReport d s)
  have hbins : (cutFeed d bin s).bins = (partialReport d s).bins := holdScale_bins .quarantineCut _ .rechoose (partialReport d s)
  refine DrawBook.openDraws_fed ((he.book h).congr hdoses hplan hbins) ?_ rfl
  unfold NoHand
  rw [hdoses]
  exact he.noHand hn

theorem interruptDose_sound (s : State) : Sound s (interruptDose s) := ⟨(interruptDose_eases s).tame, interruptDose_open⟩

/-- R78: the overload rule. -/
theorem overloadCheck_sound (s : State) : Sound s (overloadCheck s) := by
  have hint : Sound s (if s.scale.state.interruptible then interruptDose s else s) :=
    Sound.ite (fun _ => interruptDose_sound s) (Sound.refl s)
  have hfoot : (if s.scale.state.interruptible then interruptDose s else s).footing = s.footing := by
    split
    · exact (interruptDose_eases s).footing
    · rfl
  unfold overloadCheck
  split
  · exact Sound.refl s
  · refine Sound.ite (fun _ => hint.trans ?_) (Sound.refl s)
    generalize (if s.scale.state.interruptible then interruptDose s else s) = u at hfoot ⊢
    have hstate : u.scale.state = s.scale.state := congrArg Footing.state hfoot
    refine holdScale_sound (fun hi => .inl ?_) (fun hb => ?_) (fun hd => ?_)
    · rw [hstate]
      revert hi
      cases s.scale.state with
      | settle p => cases p <;> nofun
      | idle => exact fun _ => rfl
      | _ => nofun
    · unfold State.handBarred
      rw [hstate]
      revert hb
      cases s.scale.state with
      | settle p => cases p <;> exact id
      | feedFast | feedSlow | jog => exact fun _ => rfl
      | _ => nofun
    · unfold State.draws
      rw [hstate]
      revert hd
      cases s.scale.state with
      | settle p => cases p <;> exact id
      | tare | feedFast | feedSlow | jog => exact fun _ => rfl
      | _ => nofun

/-! ### The sample and the timers (R64, R69, R76) -/

theorem weighSample_sound (s : State) : Sound s (weighSample s) := by
  unfold weighSample
  split
  · rename_i hst
    split
    · rename_i hd _
      exact Sound.ite (fun hl => takeTare_sound _ hst hd hl.2) (Sound.refl s)
    · exact Sound.refl s
  · rename_i hst
    split
    · exact feedSample_sound true (by rw [hst]; rfl) (by rw [hst]; rfl)
    · exact Sound.refl s
  · rename_i hst
    split
    · exact feedSample_sound false (by rw [hst]; rfl) (by rw [hst]; rfl)
    · exact Sound.refl s
  · rename_i p hst
    split
    · rename_i hd
      split
      · exact Sound.ite (fun _ => settleSample_sound _ hd hst) (Sound.refl s)
      · exact Sound.refl s
    · exact Sound.refl s
  · exact Sound.ite (fun _ => completeDischarge_sound s) (Sound.refl s)
  · exact Sound.ite (fun _ => completeDump_sound s) (Sound.refl s)
  · split
    · exact Sound.ite (fun _ => Sound.of_feeding rfl) (Sound.refl s)
    · exact Sound.refl s
  · exact Sound.refl s

theorem scaleSample_sound (count : BitVec 24) (s : State) : Sound s (scaleSample count s) := by
  have h : Sound s { s with scaleConv := s.scaleConv.sample s.params.stableBand count.toInt } := Sound.of_feeding rfl
  exact (h.trans (overloadCheck_sound _)).trans (weighSample_sound _)

/-- R69: a stalled feed is cut, and a new bin chosen. -/
theorem stallExpiry_cases (s : State) : (stallExpiry s).feeding = s.feeding
    ∨ ∃ u detail, Eases s u ∧ stallExpiry s = holdScale .stall detail .rechoose u := by
  unfold stallExpiry
  split
  · exact .inl rfl
  · rename_i d hd
    split
    · exact .inl rfl
    · split
      · exact .inl rfl
      · split
        · exact .inr ⟨_, _, (partialReport_eases d s).trans (markSuspect_eases _ _), rfl⟩
        · exact .inr ⟨_, _, partialReport_eases d s, rfl⟩

theorem stallExpiry_tame (s : State) : Tame s (stallExpiry s) := by
  obtain h | ⟨u, detail, he, h⟩ := stallExpiry_cases s
  · exact (Sound.of_feeding h).tame
  · exact h ▸ holdScale_tame he.tame nofun

theorem stallExpiry_sound (hst : s.scale.state = .feedFast ∨ s.scale.state = .feedSlow) : Sound s (stallExpiry s) := by
  obtain ⟨hb, -, hr⟩ : s.handBarred = true ∧ s.draws = true ∧ s.unheld :=
    fedWork_asks (by obtain h | h := hst <;> rw [h] <;> rfl)
  refine ⟨stallExpiry_tame s, fun ho => ?_⟩
  obtain h | ⟨u, detail, he, h⟩ := stallExpiry_cases s
  · exact (Sound.of_feeding h).opens ho
  · rw [h]
    refine DrawBook.openDraws_fed (holdScale_book (he.book ho.toDrawBook)) ?_ ?_
    · unfold NoHand
      rw [holdScale_doses]
      exact he.noHand (ho.noHand hb)
    · rw [draws_held (holdScale_state ..), holdScale_resume_unheld (hr.of_footing he.footing)]
      rfl

theorem settleExpiry_sound (s : State) : Sound s (settleExpiry s) := by
  unfold settleExpiry
  split
  · exact Sound.refl s
  · split
    · rename_i hst
      exact holdScale_sound nofun nofun (fun _ => by unfold State.draws; rw [hst])
    · exact holdScale_sound nofun nofun nofun
    · rename_i p hp hst
      have hw : (interruptDose s).scale.state.fedWork = true := by
        rw [show (interruptDose s).scale.state = .settle p from
          (congrArg Footing.state (interruptDose_eases s).footing).trans hst]
        cases p with
        | handAdd => exact absurd rfl hp
        | _ => rfl
      obtain ⟨hb, hdraws, -⟩ := fedWork_asks hw
      exact (interruptDose_sound s).trans (holdScale_sound nofun (fun _ => hb) (fun _ => hdraws))
    · exact Sound.refl s

theorem residueExpiry_sound (s : State) : Sound s (residueExpiry s) := by
  have h := Sound.of_feeding (raiseFault_feeding .scaleResidue (scaleRef s) [.wide (s.scaleConv.weight.getD 0)] s)
  unfold residueExpiry
  dsimp only
  split
  · exact h.trans (completeDischarge_sound _)
  · exact h.trans (completeDump_sound _)
  · exact Sound.refl s

end Cuts

end Sys2Proof.Machine
end

