-- ==== Sys2Proof/Proofs/FeedHolds.lean ====
section
/-! SUPPORT. O59: what the end of a hold, rework, the STOP line and a QUARANTINE do to the laws of the feeders. -/
namespace Sys2Proof.Machine

/-! ### Leaving HELD (R58, R74, R75, R83) -/

section Leaves
variable {s : State} {d : Dose}

theorem closeRework_eases (s : State) : ∃ u, Eases s u ∧ closeRework s = setScale .complete u := by
  unfold closeRework
  dsimp only
  split
  · exact ⟨_, ((zeroReport_eases _ s).trans (closeDose_eases _ _)).trans (closeWaiting_eases _ _), rfl⟩
  · exact ⟨_, closeWaiting_eases _ s, rfl⟩

theorem closeRework_open (h : DrawBook s) : OpenDraws (closeRework s) := by
  obtain ⟨u, he, hu⟩ := closeRework_eases s
  exact hu ▸ setScale_calm_open rfl (he.book h)

theorem closeRework_tame (s : State) : Tame s (closeRework s) := by
  obtain ⟨u, he, hu⟩ := closeRework_eases s
  exact hu ▸ he.tame.setScale nofun nofun nofun

/-- R83: a batch that is flagged has no component begun. -/
theorem reworkScale_sound (s : State) : Sound s (reworkScale s) := by
  have hf : Sound s (flagScale s) := ⟨(updRecord_eases _ s).tame, updRecord_open _⟩
  rcases reworkScale_cases s with ⟨-, he⟩ | ⟨-, he | he | he⟩ <;> rw [he]
  · exact Sound.refl s
  · exact hf.trans ⟨closeRework_tame _, fun h => closeRework_open h.toDrawBook⟩
  · exact hf.trans ⟨(closeWaiting_eases _ _).tame, closeWaiting_open⟩
  · exact hf

/-- R74: the state as the unit leaves HELD, its resume point taken. -/
def released (s : State) : State := { s with scale := { s.scale with resume := none } }

theorem released_tame (hst : s.scale.state = .held) : Tame s (released s) where
  line := rfl
  reported := rfl
  stopLine := rfl
  feeds h := by
    rw [show (released s).scale.state = .held from hst] at h
    cases h
  idles h := by
    obtain hi | ⟨-, hi⟩ := h
    · rw [show (released s).scale.state = .held from hst] at hi
      cases hi
    · cases hi
  empty := id

/-- The component goes on from a hold that barred the hand and drew. -/
theorem setScale_released_open {st : ScaleState} (h : OpenDraws s)
    (hbarred : (setScale st (released s)).handBarred = true → s.handBarred = true)
    (hdraws : (setScale st (released s)).draws = true → s.draws = true) : OpenDraws (setScale st (released s)) :=
  h.restate rfl rfl rfl hbarred hdraws

theorem setScale_released_sound {st : ScaleState} (hst : s.scale.state = .held) (hfeed : st.feeding = false) (hidle : st ≠ .idle)
    (hheld : st ≠ .held) (hbarred : (setScale st (released s)).handBarred = true → s.handBarred = true)
    (hdraws : (setScale st (released s)).draws = true → s.draws = true) : Sound s (setScale st (released s)) :=
  ⟨(released_tame hst).setScale (fun h => absurd (hfeed.symm.trans h) Bool.false_ne_true) hidle hheld,
    fun h => h.restate rfl rfl rfl hbarred hdraws⟩

/-- R58: a new bin for the rest of the component. -/
theorem rechooseBin_released_sound (hst : s.scale.state = .held) (hr : s.scale.resume = some .rechoose)
    (hd : curDose s = some d) : Sound s (rechooseBin d (released s)) := by
  have hb : s.handBarred = true := by rw [handBarred_held hst, hr]; rfl
  have htame := released_tame hst
  have hu : (released s).unheld := .inr rfl
  unfold rechooseBin
  split
  · rename_i bin hbin
    obtain ⟨e, he, hc⟩ := Option.bind_eq_some_iff.1 hbin
    have hmoved (st : ScaleState) (hf : st.feeding = false) (hi : st ≠ .idle) (hh : st ≠ .held) :
        Sound s (setScale st (moveBin d bin (released s))) := by
      refine ⟨(htame.trans (Tame.of_footing (moveBin_footing d bin _))).setScale
        (fun h => absurd (hf.symm.trans h) Bool.false_ne_true) hi hh, fun h => ?_⟩
      have hbook : DrawBook (released s) := h.toDrawBook.congr rfl rfl rfl
      refine ((moveBin_worksAt d bin (released s)).trans (setScale_worksAt st _)).openDraws hbook
        (hbook.inProgressAt hd) (fun y hy hp => ?_) fun _ => moveBin_open hbook.numbers he hc
      obtain ⟨x, hx, hpx, hm⟩ := moveBin_modes d bin hy
      rw [hm]
      exact h.noHand hb x hx ((hbook.inProgressAt hd x hx).1 (hpx ▸ hp))
    dsimp only
    split
    · exact hmoved _ rfl nofun nofun
    · exact hmoved _ rfl nofun nofun
  · refine ⟨holdScale_tame htame nofun, fun h => ?_⟩
    refine DrawBook.openDraws_fed (holdScale_book (h.toDrawBook.congr rfl rfl rfl)) ?_ ?_
    · unfold NoHand
      rw [holdScale_doses]
      exact h.noHand hb
    · rw [draws_held (holdScale_state ..), holdScale_resume_unheld hu]
      rfl

/-- R74: the component goes on from its resume point. -/
theorem resumeComponent_released_sound {r : ResumePoint} (hst : s.scale.state = .held) (hr : s.scale.resume = some r)
    (hd : curDose s = some d) (hp : r ∉ [.idle, .complete, .discharge, .unknown] ∧ ∀ o, r ≠ .accept o) :
    Sound s (resumeComponent r d (released s)) := by
  have hb : s.handBarred = r.barred := by rw [handBarred_held hst, hr]; rfl
  have hdr : s.draws = r.draws := by rw [draws_held hst, hr]; rfl
  obtain ⟨hp, ha⟩ := hp
  cases r with
  | tare ask =>
    cases ask with
    | true =>
      refine ⟨confirmStart_tame d (released_tame hst), fun h => ?_⟩
      have hbook : DrawBook (released s) := h.toDrawBook.congr rfl rfl rfl
      exact confirmStart_open hbook (hbook.inProgressAt hd) (.inr rfl)
    | false => exact setScale_released_sound hst rfl nofun nofun nofun (fun _ => hdr)
  | rechoose => exact rechooseBin_released_sound hst hr hd
  | resumeSettle =>
    unfold resumeComponent
    dsimp only
    split
    · exact setScale_released_sound hst rfl nofun nofun (fun _ => hb) (fun _ => hdr)
    · exact setScale_released_sound hst rfl nofun nofun nofun (fun _ => hdr)
  | handAddSettle => exact setScale_released_sound hst rfl nofun nofun nofun nofun
  | accept o => exact absurd rfl (ha o)
  | idle | complete | discharge | unknown => simp at hp

/-- R74, R75, R83: the unit leaves HELD. -/
theorem leaveHeld_sound (hst : s.scale.state = .held) : Sound s (leaveHeld s) := by
  have htame := released_tame hst
  have hbook (h : OpenDraws s) : DrawBook (released s) := h.toDrawBook.congr rfl rfl rfl
  have hcalm {st : ScaleState} (hc : st.calm = true) (hi : st ≠ .idle) (hh : st ≠ .held) : Sound s (setScale st (released s)) :=
    ⟨htame.trans (setScale_calm_sound hc _).tame, fun h => setScale_calm_open hc (hbook h)⟩
  unfold leaveHeld
  dsimp only
  rw [show ({ s with scale := { s.scale with resume := none } } : State) = released s from rfl]
  split
  · rename_i hr
    refine ⟨⟨rfl, rfl, rfl, nofun, fun _ => .inl (.inr ⟨hst, hr⟩), id⟩, fun h => ?_⟩
    exact DrawBook.openDraws (s := setScale .idle (released s)) ((hbook h).congr rfl rfl rfl) rfl rfl
  · exact hcalm rfl nofun nofun
  · exact hcalm rfl nofun nofun
  · exact hcalm rfl nofun nofun
  · split
    · rename_i hd
      exact ⟨acceptDose_tame _ _ htame, fun h => acceptDose_open (hbook h) ((hbook h).inProgressAt hd) (.inr rfl)⟩
    · exact hcalm rfl nofun nofun
  · rename_i r hidle hcomplete hdischarge hunknown haccept hr
    split
    · exact ⟨htame.trans (closeRework_tame _), fun h => closeRework_open (hbook h)⟩
    · split
      · rename_i d hd
        refine resumeComponent_released_sound hst hr hd ⟨?_, fun o ho => haccept o (by rw [← ho])⟩
        simp only [List.mem_cons, List.not_mem_nil, or_false, not_or]
        exact ⟨fun h => hidle (by rw [← h]), fun h => hcomplete (by rw [← h]), fun h => hdischarge (by rw [← h]),
          fun h => hunknown (by rw [← h])⟩
      · exact hcalm rfl nofun nofun
  · exact Sound.refl s

theorem ackDosing_sound (keys : List FaultKey) (s : State) : Sound s (ackDosing keys s) := by
  unfold ackDosing
  refine Sound.ite (fun hst => ?_) (Sound.refl s)
  have h : Sound s { s with scale := { s.scale with holdSet := s.scale.holdSet.filter (fun k => !keys.contains k) } } :=
    Sound.of_feeding rfl
  exact Sound.ite (fun _ => h.trans (leaveHeld_sound hst)) h

end Leaves

/-! ### The line (R71, R81, R84) -/

section Line
variable {s : State}

theorem beginJogPulse_sound (s : State) : Sound s (beginJogPulse s) := by
  unfold beginJogPulse
  refine Sound.ite (fun h => ?_) (Sound.refl s)
  exact setScale_work_sound (by rw [h.1]; rfl) (fun _ => .inr h.2) nofun nofun

theorem beginDischarge_sound (s : State) : Sound s (beginDischarge s) := by
  unfold beginDischarge
  exact Sound.ite (fun _ => (setScale_calm_sound (st := .discharge) rfl s).trans (Sound.of_feeding rfl)) (Sound.refl s)

theorem stopDosing_sound (s : State) : Sound s (stopDosing s) := by
  have stopped {st : ScaleState} (hst : (interruptDose s).scale.state = st) (hw : st.fedWork = true) :
      Sound s (setScale (.settle .resume) (interruptDose s)) :=
    (interruptDose_sound s).trans (setScale_work_sound (hst ▸ hw) nofun nofun nofun)
  unfold stopDosing
  dsimp only
  split
  · exact stopped (by assumption) rfl
  · exact stopped (by assumption) rfl
  · exact stopped (by assumption) rfl
  · exact stopped (by assumption) rfl
  · exact stopped (by assumption) rfl
  · exact interruptDose_sound s

/-- R84: no feed is open after the STOP line. -/
theorem stopDosing_feeding (s : State) : (stopDosing s).scale.state.feeding = false := by
  unfold stopDosing
  dsimp only
  split
  case h_6 hfast hslow hjog _ _ =>
    cases hst : (interruptDose s).scale.state with
    | feedFast => exact absurd hst hfast
    | feedSlow => exact absurd hst hslow
    | jog pulse => cases pulse with
      | true => exact absurd hst hjog
      | false => rfl
    | _ => rfl
  all_goals rfl

end Line

end Sys2Proof.Machine
end

