-- ==== Sys2Proof/Proofs/Quarantines.lean ====
section
/-! SUPPORT. R46, R77: a QUARANTINE sets the bins of its list, then cuts the component in progress where its bin has turned
ON: what the frame does to the bins, when the Dosing Unit is cut, and the law of the bins after it (O59). -/
namespace Sys2Proof.Machine

/-! ### The bins of the list (R46) -/

theorem quarantinePair_eq (p : Nat × Nat) (s : State) : quarantinePair p s = { s with bins := s.bins.map (fun e =>
    { e with quarantine :=
      if p.1 = e.bin ∧ p.2 = 1 then .on else if p.1 = e.bin ∧ p.2 = 0 then .off else e.quarantine }) } := by
  have hmap (q : Quarantine) : (updBin p.1 (fun e => { e with quarantine := q }) s).bins = s.bins.map (fun e =>
      { e with quarantine := if p.1 = e.bin then q else e.quarantine }) := by
    refine List.map_congr_left fun e _ => ?_
    by_cases h : e.bin = p.1
    · rw [if_pos h, if_pos h.symm]
    · rw [if_neg h, if_neg (Ne.symm h)]
  unfold quarantinePair
  split
  · rename_i h1
    refine congrArg (fun bins => { s with bins := bins }) ((hmap .on).trans (List.map_congr_left fun e _ => ?_))
    simp [h1]
  · rename_i h1
    split
    · rename_i h0
      refine congrArg (fun bins => { s with bins := bins }) ((hmap .off).trans (List.map_congr_left fun e _ => ?_))
      simp [h0]
    · rename_i h0
      simp [h1, h0]

/-- R46: the bins once the whole list stands. -/
theorem quarantinePairs_eq (pairs : List (Nat × Nat)) (s : State) : quarantinePairs pairs s =
    { s with bins := s.bins.map (fun e => { e with quarantine := quarantineAfter e.bin pairs e.quarantine }) } := by
  induction pairs generalizing s with
  | nil => simp [quarantinePairs, quarantineAfter]
  | cons p ps ih =>
    unfold quarantinePairs
    rw [ih, quarantinePair_eq]
    refine congrArg (fun bins => { s with bins := bins }) ?_
    rw [List.map_map]
    rfl

/-- A bin's quarantine stands, or the list names the bin and leaves it ON or OFF. -/
theorem quarantineAfter_cases (bin : Nat) (pairs : List (Nat × Nat)) (q : Quarantine) :
    quarantineAfter bin pairs q = q ∨ (bin ∈ pairs.map Prod.fst
      ∧ (quarantineAfter bin pairs q = .on ∨ quarantineAfter bin pairs q = .off)) := by
  induction pairs generalizing q with
  | nil => exact .inl rfl
  | cons p ps ih =>
    unfold quarantineAfter
    rw [List.map_cons, List.mem_cons]
    split
    · rename_i h
      obtain he | ⟨hm, he⟩ := ih .on
      · exact .inr ⟨.inl h.1.symm, .inl he⟩
      · exact .inr ⟨.inr hm, he⟩
    · split
      · rename_i h
        obtain he | ⟨hm, he⟩ := ih .off
        · exact .inr ⟨.inl h.1.symm, .inr he⟩
        · exact .inr ⟨.inr hm, he⟩
      · exact (ih q).imp_right (And.imp_left .inr)

/-! ### The cut (R77) -/

/-- The states in which a component is cut. -/
def State.cuttable (s : State) : Bool :=
  match s.scale.state with
  | .tare | .feedFast | .feedSlow | .jog _ | .settle .first | .settle .jog | .settle .resume => true
  | .held => decide (s.scale.resume ∈ [some .resumeSettle, some (.tare false), some (.tare true)])
  | _ => false

theorem cuttable_of_draws {s : State} (h : s.draws = true) : s.cuttable = true := by
  unfold State.draws at h
  unfold State.cuttable
  revert h
  cases s.scale.state with
  | held =>
    simp only [List.mem_cons, decide_eq_true_eq]
    tauto
  | settle p => cases p <;> exact id
  | _ => exact id

section Notice
variable {s : State}

/-- The component in progress draws from the bin. -/
def DrawsFrom (bin : Nat) (d : Dose) (e : PlanEntry) (s : State) : Prop :=
  curDose s = some d ∧ planEntry d.position s = some e ∧ e.bin = bin ∧ e.status = .drawing

theorem quarantineNotice_cut {bin : Nat} {d : Dose} {e : PlanEntry} (h : DrawsFrom bin d e s) (hc : s.cuttable = true) :
    quarantineNotice bin s = cutFeed d bin s := by
  obtain ⟨hd, he, hbin, hs⟩ := h
  unfold State.cuttable at hc
  unfold quarantineNotice
  rw [hd]
  dsimp only
  rw [he]
  dsimp only
  rw [if_pos ⟨hbin, hs⟩]
  revert hc
  cases s.scale.state with
  | tare | feedFast | feedSlow | jog => exact fun _ => rfl
  | settle p => cases p with
    | handAdd => exact nofun
    | _ => exact fun _ => rfl
  | held =>
    simp only [List.mem_cons, List.not_mem_nil, or_false, decide_eq_true_eq]
    rintro (hr | hr | hr) <;> rw [hr]
  | _ => exact nofun

/-- The component in progress draws from the bin, where nothing is cut. -/
theorem quarantineNotice_uncut {bin : Nat} {d : Dose} {e : PlanEntry} (h : DrawsFrom bin d e s) (hc : s.cuttable = false) :
    quarantineNotice bin s = s := by
  obtain ⟨hd, he, hbin, hs⟩ := h
  unfold State.cuttable at hc
  unfold quarantineNotice
  rw [hd]
  dsimp only
  rw [he]
  dsimp only
  rw [if_pos ⟨hbin, hs⟩]
  revert hc
  cases s.scale.state with
  | tare | feedFast | feedSlow | jog => exact nofun
  | settle p => cases p with
    | handAdd => exact fun _ => rfl
    | _ => exact nofun
  | held =>
    cases s.scale.resume with
    | none => exact fun _ => rfl
    | some r => cases r with
      | resumeSettle => exact nofun
      | tare ask => cases ask <;> exact nofun
      | _ => exact fun _ => rfl
  | _ => exact fun _ => rfl

theorem quarantineNotice_spared {bin : Nat} (h : ∀ d e, DrawsFrom bin d e s → s.cuttable = false) :
    quarantineNotice bin s = s := by
  by_cases hdraws : ∃ d e, DrawsFrom bin d e s
  · obtain ⟨d, e, hd⟩ := hdraws
    exact quarantineNotice_uncut hd (h d e hd)
  · unfold quarantineNotice
    split
    · rfl
    · rename_i d hd
      split
      · rfl
      · rename_i e he
        exact if_neg fun hb => hdraws ⟨d, e, hd, he, hb⟩

theorem quarantineNotice_cases (bin : Nat) (s : State) : quarantineNotice bin s = s
    ∨ ∃ d e, DrawsFrom bin d e s ∧ s.cuttable = true ∧ quarantineNotice bin s = cutFeed d bin s := by
  by_cases h : ∃ d e, DrawsFrom bin d e s ∧ s.cuttable = true
  · obtain ⟨d, e, hd, hc⟩ := h
    exact .inr ⟨d, e, hd, hc, quarantineNotice_cut hd hc⟩
  · push Not at h
    exact .inl (quarantineNotice_spared fun d e hd => Bool.eq_false_iff.2 (h d e hd))

end Notice

/-! ### The law of the bins after the list -/

/-- The law of the bins while bins of a list may have turned ON, of which the Dosing Unit has yet to be told. -/
structure Cutting (before : State) (bins : List Nat) (s : State) : Prop extends DrawBook s where
  hand : ∀ d ∈ dosesOf s, d.status = .inProgress → d.mode = some .hand → s.handBarred = false
  fed  : ∀ d ∈ dosesOf s, d.status = .inProgress → d.mode ≠ some .hand → s.draws = true →
    ∃ e, planEntry d.position s = some e ∧ e.status = .drawing ∧ ∀ b ∈ s.bins, b.bin = e.bin →
      b.quarantine = .off ∨ (b.quarantine = .on ∧ e.bin ∈ bins ∧ quarantined e.bin before = false)

section Cuts
variable {before s : State}

theorem OpenDraws.cutting (h : OpenDraws s) (bins : List Nat) : Cutting before bins s where
  toDrawBook := h.toDrawBook
  hand := h.hand
  fed d hd hs hm hdraws := by
    obtain ⟨e, he, hdr, hoff⟩ := h.fed d hd hs hm hdraws
    exact ⟨e, he, hdr, fun b hb hbin => .inl (hoff b hb hbin)⟩

/-- R46: a bin of the list is told to the Dosing Unit. -/
theorem Cutting.tell {bin : Nat} {bins : List Nat} (h : Cutting before (bin :: bins) s) : Cutting before bins
    (if quarantined bin s && !quarantined bin before then quarantineNotice bin s else s) := by
  by_cases hcut : ∃ d e, DrawsFrom bin d e s ∧ s.cuttable = true
      ∧ (quarantined bin s && !quarantined bin before) = true
  · obtain ⟨d, e, hd, hc, ht⟩ := hcut
    rw [if_pos ht, quarantineNotice_cut hd hc]
    obtain ⟨hcur, he, -, hdr⟩ := hd
    exact (cutFeed_open bin h.toDrawBook (h.toDrawBook.noHand_of_drawing hcur he hdr)).cutting bins
  · have hsame : (if quarantined bin s && !quarantined bin before then quarantineNotice bin s else s) = s := by
      split
      · rename_i ht
        exact quarantineNotice_spared fun d e hd => Bool.eq_false_iff.2 fun hc => hcut ⟨d, e, hd, hc, ht⟩
      · rfl
    rw [hsame]
    refine ⟨h.toDrawBook, h.hand, fun d hm hs hmode hdraws => ?_⟩
    obtain ⟨e, he, hdr, hq⟩ := h.fed d hm hs hmode hdraws
    refine ⟨e, he, hdr, fun b hb hbin => (hq b hb hbin).imp_right ?_⟩
    rintro ⟨hon, hmem, hbefore⟩
    refine ⟨hon, (List.mem_cons.1 hmem).resolve_left fun hbins => ?_, hbefore⟩
    have hon' : quarantined bin s = true := by
      unfold quarantined
      rw [← hbins, ← hbin, h.toDrawBook.bin_found hb]
      exact decide_eq_true hon
    refine hcut ⟨d, e, ⟨h.toDrawBook.curDose_of_mem hm hs, he, hbins, hdr⟩, cuttable_of_draws hdraws, ?_⟩
    rw [hon', ← hbins, hbefore]
    rfl

theorem cutBins_open (bins : List Nat) (h : Cutting before bins s) : OpenDraws (cutBins before bins s) := by
  induction bins generalizing s with
  | nil =>
    refine ⟨h.toDrawBook, h.hand, fun d hm hs hmode hdraws => ?_⟩
    obtain ⟨e, he, hdr, hq⟩ := h.fed d hm hs hmode hdraws
    exact ⟨e, he, hdr, fun b hb hbin => (hq b hb hbin).resolve_right fun hn => nomatch hn.2.1⟩
  | cons bin bins ih => exact ih h.tell

theorem cutBins_tame (before : State) (bins : List Nat) (s : State) : Tame s (cutBins before bins s) := by
  induction bins generalizing s with
  | nil => exact Tame.refl s
  | cons bin bins ih =>
    refine Tame.trans ?_ (ih _)
    split
    · obtain he | ⟨d, -, -, -, he⟩ := quarantineNotice_cases bin s
      · rw [he]
        exact Tame.refl s
      · rw [he]
        exact cutFeed_tame d bin s
    · exact Tame.refl s

theorem takeQuarantine_sound (pairs : List (Nat × Nat)) (s : State) : Sound s (takeQuarantine pairs s) := by
  unfold takeQuarantine
  rw [quarantinePairs_eq]
  have hbins (bins : List BinEntry) : Tame s { s with bins := bins } := Tame.of_footing rfl
  refine ⟨(hbins _).trans (cutBins_tame s _ _), fun h => cutBins_open _ ⟨⟨h.positions, ?_, h.one, h.shut⟩,
    h.hand, fun d hm hs hmode hdraws => ?_⟩⟩
  · rw [List.map_map]
    exact h.numbers
  · obtain ⟨e, he, hdr, hoff⟩ := h.fed d hm hs hmode hdraws
    refine ⟨e, he, hdr, fun b hb hbin => ?_⟩
    obtain ⟨q, hq, rfl⟩ := List.mem_map.1 hb
    have hq0 := hoff q hq hbin
    have hbin : q.bin = e.bin := hbin
    have hbefore : quarantined e.bin s = false := by
      unfold quarantined
      rw [← hbin, h.toDrawBook.bin_found hq]
      exact decide_eq_false (by rw [hq0]; nofun)
    obtain hsame | ⟨hmem, hon | hoff'⟩ := quarantineAfter_cases q.bin pairs q.quarantine
    · exact .inl (hsame.trans hq0)
    · exact .inr ⟨hon, hbin ▸ hmem, hbefore⟩
    · exact .inl hoff'

end Cuts

end Sys2Proof.Machine
end

