-- ==== Sys2Proof/Proofs/FeedStill.lean ====
section
/-! SUPPORT. O59: the operations that touch nothing of what the laws of the feeders read: the port, the bay, the trucks, the
claims, the train, the loading, the bagger and the book. In the order of the model's files. -/
namespace Sys2Proof.Machine

variable (s : State)

theorem feeding_ite {c : Prop} [Decidable c] {a b : State} (ha : a.feeding = s.feeding) (hb : b.feeding = s.feeding) :
    (if c then a else b).feeding = s.feeding := by
  split
  · exact ha
  · exact hb

/-! ### The book -/

theorem updOrder_feeding (id : Nat) (f : Order → Order) : (updOrder id f s).feeding = s.feeding := by
  rw [updOrder_only]; rfl

theorem freeSlot_feeding (id : Nat) : (freeSlot id s).feeding = s.feeding := by rw [freeSlot_only]; rfl

theorem completeRun_feeding (id : Nat) : (completeRun id s).feeding = s.feeding := by rw [completeRun_only]; rfl

theorem recomputeWaits_feeding : (recomputeWaits s).feeding = s.feeding := by rw [recomputeWaits_only]; rfl

theorem freeCancelled_feeding : (freeCancelled s).feeding = s.feeding := by
  unfold freeCancelled
  rw [endAllCancelled_only]
  rfl

theorem makeUps_feeding : (makeUps s).feeding = s.feeding := by
  unfold makeUps
  rw [makeUpAll_only]
  rfl

theorem reannounce_feeding : (reannounce s).feeding = s.feeding := by rw [reannounce_only]; rfl

/-! ### The bay -/

theorem closeSpout_feeding (cause : CloseCause) : (closeSpout cause s).feeding = s.feeding := by rw [closeSpout_only]; rfl

theorem setBay_feeding (bay : Nat) (holder : Option Nat) (remaining : Nat) :
    (setBay bay holder remaining s).feeding = s.feeding := rfl

theorem releaseHold_feeding : (releaseHold s).feeding = s.feeding := by rw [releaseHold_only]; rfl

theorem holdDropped_feeding : (holdDropped s).feeding = s.feeding := by
  unfold holdDropped
  exact feeding_ite s (feeding_ite (b := s) s rfl rfl) rfl

theorem queueHold_feeding (b : Body) : (queueHold b s).feeding = s.feeding := by
  unfold queueHold
  refine feeding_ite s (queueFrame_feeding b s) ?_
  exact (holdDropped_feeding _).trans (queueFrame_feeding b s)

theorem loseHold_feeding : (loseHold s).feeding = s.feeding :=
  (raiseFault_feeding _ _ _ _).trans (closeSpout_feeding s _)

theorem renewHold_feeding : (renewHold s).feeding = s.feeding := by
  unfold renewHold
  exact feeding_ite s rfl (queueHold_feeding _ _)

theorem holdSent_feeding (bay truck duration : Nat) : (holdSent bay truck duration s).feeding = s.feeding := by
  unfold holdSent
  refine feeding_ite s rfl ?_
  split
  · rfl
  · rfl
  · exact (queueFrame_feeding _ _).trans (feeding_ite s rfl rfl)
  · rfl

theorem applyBayHold_feeding (bay duration source : Nat) : (applyBayHold bay duration source s).feeding = s.feeding := by
  unfold applyBayHold
  refine feeding_ite s rfl ?_
  split
  · exact feeding_ite s rfl rfl
  · rfl

theorem reassertHold_feeding : (reassertHold s).feeding = s.feeding := by
  unfold reassertHold
  dsimp only
  split
  · exact queueHold_feeding _ _
  · exact queueHold_feeding _ _
  · rfl

theorem contest_feeding (source : Nat) (loading : Bool) : (contest source loading s).feeding = s.feeding := by
  unfold contest
  exact feeding_ite s rfl (feeding_ite s rfl (reassertHold_feeding s))

theorem takeBayHold_feeding (source bay truck duration loading : Nat) :
    (takeBayHold source bay truck duration loading s).feeding = s.feeding := by
  unfold takeBayHold
  refine feeding_ite s rfl (feeding_ite s ?_ (applyBayHold_feeding s _ _ _))
  exact (contest_feeding _ _ _).trans (applyBayHold_feeding s _ _ _)

theorem bayTick_feeding : (bayTick s).feeding = s.feeding := by
  unfold bayTick
  exact feeding_ite s (loseHold_feeding _) rfl

theorem abandonBay_feeding : (abandonBay s).feeding = s.feeding := by rw [abandonBay_only]; rfl

theorem takeBay_feeding : (takeBay s).feeding = s.feeding := by rw [takeBay_only]; rfl

/-! ### The trucks -/

theorem removeTruck_feeding (truck : Nat) : (removeTruck truck s).feeding = s.feeding := by
  unfold removeTruck
  exact feeding_ite s (releaseHold_feeding _) rfl

theorem testRefusals_feeding (l : List (Truck × Nat × Compartment)) : (testRefusals l s).feeding = s.feeding := by
  rw [testRefusals_only]
  rfl

theorem noteMissed_feeding (l : List (Truck × Nat × Compartment)) : (noteMissed l s).feeding = s.feeding := by
  induction l generalizing s with
  | nil => rfl
  | cons p ps ih => exact (ih _).trans (raiseFault_feeding _ _ _ _)

theorem testDepartures_feeding : (testDepartures s).feeding = s.feeding := noteMissed_feeding s _

theorem loseTarget_feeding : (loseTarget s).feeding = s.feeding :=
  (releaseHold_feeding _).trans (closeSpout_feeding s _)

theorem replaceTruck_feeding (truck : Nat) (p : PlanFields) : (replaceTruck truck p s).feeding = s.feeding := by
  unfold replaceTruck
  refine (testDepartures_feeding _).trans ((testRefusals_feeding _ _).trans ?_)
  exact feeding_ite s (loseTarget_feeding _) rfl

theorem storeTruck_feeding (truck : Nat) (p : PlanFields) : (storeTruck truck p s).feeding = s.feeding :=
  (testDepartures_feeding _).trans (testRefusals_feeding _ _)

theorem addTruck_feeding (truck : Nat) (p : PlanFields) : (addTruck truck p s).feeding = s.feeding := by
  unfold addTruck
  refine feeding_ite s (storeTruck_feeding s _ _) ?_
  split
  · exact (storeTruck_feeding _ _ _).trans (removeTruck_feeding s _)
  · exact raiseFault_feeding _ _ _ _

theorem takePlan_feeding (payload : List Byte) : (takePlan payload s).feeding = s.feeding := by
  unfold takePlan
  split
  · rfl
  · exact feeding_ite s (removeTruck_feeding s _) rfl
  · exact feeding_ite s rfl (feeding_ite s (replaceTruck_feeding s _ _) (addTruck_feeding s _ _))

theorem takeLoaded_feeding (source truck number order mass : Nat) :
    (takeLoaded source truck number order mass s).feeding = s.feeding := by
  unfold takeLoaded
  exact feeding_ite s (feeding_ite s (loseTarget_feeding _) rfl) rfl

/-! ### The claims -/

theorem takeOffer_feeding (payload : List Byte) : (takeOffer payload s).feeding = s.feeding := by
  unfold takeOffer
  split
  · exact queueFrame_feeding _ _
  · rfl

theorem takeClaim_feeding (source order lead : Nat) : (takeClaim source order lead s).feeding = s.feeding := by
  unfold takeClaim
  exact feeding_ite s rfl (updOrder_feeding s _ _)

theorem takeRelevel_feeding (id level group : Nat) : (takeRelevel id level group s).feeding = s.feeding := by
  unfold takeRelevel
  exact feeding_ite s rfl (updOrder_feeding s _ _)

theorem yieldOrder_feeding (id : Nat) : (yieldOrder id s).feeding = s.feeding :=
  (queueFrame_feeding _ _).trans (freeSlot_feeding s id)

theorem meetTake_feeding (other : Rival) (started : Bool) (o : Order) : (meetTake other started o s).feeding = s.feeding := by
  unfold meetTake
  refine feeding_ite s (feeding_ite s (freeSlot_feeding s _) (updOrder_feeding s _ _)) ?_
  refine feeding_ite s (raiseFault_feeding _ _ _ _) ?_
  exact feeding_ite s (yieldOrder_feeding s _) (queueFrame_feeding _ _)

theorem takeTake_feeding (source order lead started : Nat) : (takeTake source order lead started s).feeding = s.feeding := by
  unfold takeTake
  refine feeding_ite s rfl ?_
  split
  · exact meetTake_feeding s _ _ _
  · rfl

theorem winOrder_feeding (id : Nat) : (winOrder id s).feeding = s.feeding := by
  have hbase : ∀ u : State, (reserveRun id u).feeding = u.feeding := fun u => by rw [reserveRun_only]; rfl
  have hheld : (renumber s).feeding = s.feeding := by rw [renumber_only]; rfl
  unfold winOrder
  dsimp only
  split
  · refine (testRefusals_feeding _ _).trans ((queueFrame_feeding _ _).trans ?_)
    exact (hbase _).trans ((updOrder_feeding _ _ _).trans hheld)
  · exact (hbase _).trans ((updOrder_feeding _ _ _).trans hheld)

theorem closeWindow_feeding (o : Order) : (closeWindow o s).feeding = s.feeding := by
  unfold closeWindow
  exact feeding_ite s (winOrder_feeding s _) (freeSlot_feeding s _)

/-! ### The train -/

theorem setStage_feeding (i : StageId) (r : StageRec) : (setStage i r s).feeding = s.feeding := by rw [setStage_only]; rfl

theorem holdStage_feeding (i : StageId) (k : FaultKey) (detail : List DetailField) :
    (holdStage i k detail s).feeding = s.feeding :=
  (setStage_feeding _ _ _).trans (raiseFault_feeding _ _ _ _)

theorem unbarStages_feeding : (unbarStages s).feeding = s.feeding := by rw [unbarStages_only]; rfl

theorem beginGrind_feeding : (beginGrind s).feeding = s.feeding := by rw [beginGrind_only]; rfl

theorem beginDischargeMixer_feeding : (beginDischargeMixer s).feeding = s.feeding := by
  rw [beginDischargeMixer_only]; rfl

theorem beginPress_feeding : (beginPress s).feeding = s.feeding := by rw [beginPress_only]; rfl

theorem retireTo_feeding (dest : Option Dest) (batch : Option Batch) : (retireTo dest batch s).feeding = s.feeding := by
  rw [retireTo_only]
  rfl

theorem completeMixer_feeding : (completeMixer s).feeding = s.feeding := by
  unfold completeMixer
  exact feeding_ite s rfl (retireTo_feeding _ _ _)

theorem completePress_feeding : (completePress s).feeding = s.feeding := retireTo_feeding _ _ _

theorem flagLine_feeding (id : Nat) : (flagLine id s).feeding = s.feeding := rfl

theorem settleReceiver_feeding (r : StageRec) : (settleReceiver r s).feeding = s.feeding := by
  unfold settleReceiver
  split
  · exact feeding_ite s rfl rfl
  · exact feeding_ite s rfl rfl
  · exact feeding_ite s rfl rfl
  · rfl

theorem dumpStage_feeding (i : StageId) : (dumpStage i s).feeding = s.feeding := by
  have hloop : ∀ u : State, (haltStageLoop i u).feeding = u.feeding := fun u => by rw [haltStageLoop_only]; rfl
  have hsteam : ∀ u : State, (haltSteamOf i u).feeding = u.feeding := fun u => feeding_ite u rfl rfl
  exact (hsteam _).trans ((hloop _).trans ((setStage_feeding _ _ _).trans (settleReceiver_feeding s _)))

theorem completeStageDump_feeding (i : StageId) : (completeStageDump i s).feeding = s.feeding :=
  (retireTo_feeding _ _ _).trans (setStage_feeding _ _ _)

theorem updateFinishedMass_feeding : (updateFinishedMass s).feeding = s.feeding := by
  unfold updateFinishedMass
  split <;> rfl

theorem emptyFinished_feeding : (emptyFinished s).feeding = s.feeding := by
  unfold emptyFinished
  exact feeding_ite s rfl rfl

theorem dumpEmptied_feeding : (dumpEmptied s).feeding = s.feeding := by
  unfold dumpEmptied
  exact feeding_ite s rfl rfl

theorem condLow_feeding : (condLow s).feeding = s.feeding := by
  unfold condLow
  split
  · exact holdStage_feeding _ _ _ _
  · exact holdStage_feeding _ _ _ _

theorem overloadExpiry_feeding (loop : LoopId) : (overloadExpiry loop s).feeding = s.feeding := by
  cases loop with
  | grinder => exact holdStage_feeding _ _ _ _
  | press => exact holdStage_feeding _ _ _ _

/-! ### The loading -/

theorem trySpout_feeding : (trySpout s).feeding = s.feeding := by
  unfold trySpout
  split
  · refine feeding_ite s ?_ rfl
    dsimp only
    split <;> rfl
  · rfl

theorem loadSample_feeding : (loadSample s).feeding = s.feeding := by
  unfold loadSample
  split
  · refine feeding_ite s (feeding_ite s (closeSpout_feeding _ _) (feeding_ite s ?_ rfl)) rfl
    exact (raiseFault_feeding _ _ _ _).trans (closeSpout_feeding _ _)
  · rfl

theorem endStep_feeding : (endStep s).feeding = s.feeding := by rw [endStep_only]; rfl

theorem settleStep_feeding : (settleStep s).feeding = s.feeding := by
  unfold settleStep
  exact feeding_ite s (endStep_feeding s) rfl

theorem watchStep_feeding : (watchStep s).feeding = s.feeding := by rw [watchStep_only]; rfl

theorem markLoaded_feeding : (markLoaded s).feeding = s.feeding := by
  unfold markLoaded
  rw [markAll_only]
  rfl

/-! ### The bagger -/

theorem voidCharge_feeding (id : Nat) : (voidCharge id s).feeding = s.feeding := by rw [voidCharge_only]; rfl

theorem rejectCharge_feeding (c : Charge) (detail : List DetailField) : (rejectCharge c detail s).feeding = s.feeding := by
  rw [rejectCharge_only]
  rfl

theorem acceptCharge_feeding (c : Charge) : (acceptCharge c s).feeding = s.feeding := by
  unfold acceptCharge
  rw [adaptBagger_only]
  rfl

theorem zeroBucket_feeding : (zeroBucket s).feeding = s.feeding := by
  unfold zeroBucket
  split
  · exact feeding_ite s rfl rfl
  · rfl

theorem emptySample_feeding : (emptySample s).feeding = s.feeding := by
  unfold emptySample
  split
  · exact feeding_ite s rfl (zeroBucket_feeding s)
  · exact zeroBucket_feeding s

theorem judgeCharge_feeding (first : Bool) (g : Int) (c : Charge) : (judgeCharge first g c s).feeding = s.feeding := by
  have hcharge : ∀ e : Int, (if first then updCharge (fun c => { c with e1 := some e }) s else s).feeding = s.feeding :=
    fun _ => feeding_ite s rfl rfl
  unfold judgeCharge
  dsimp only
  split
  · exact (acceptCharge_feeding _ _).trans (hcharge _)
  · exact (rejectCharge_feeding _ _ _).trans (hcharge _)
  · exact feeding_ite s (hcharge _) ((rejectCharge_feeding _ _ _).trans (hcharge _))

theorem settleCharge_feeding (p : BucketPurpose) (g : Int) (c : Charge) : (settleCharge p g c s).feeding = s.feeding := by
  have hresume : (resumeCharge g c s).feeding = s.feeding := feeding_ite s (judgeCharge_feeding s _ _ _) rfl
  cases p with
  | first => exact feeding_ite s (judgeCharge_feeding s _ _ _) rfl
  | jog => exact feeding_ite s (judgeCharge_feeding s _ _ _) rfl
  | resume => exact feeding_ite s hresume rfl

theorem fillSample_feeding (fast : Bool) (g : Int) (c : Charge) : (fillSample fast g c s).feeding = s.feeding :=
  feeding_ite s rfl (feeding_ite s rfl rfl)

theorem bucketTimeout_feeding : (bucketTimeout s).feeding = s.feeding := by
  unfold bucketTimeout
  split
  · exact rejectCharge_feeding _ _ _
  · rfl

theorem watchPermission_feeding : (watchPermission s).feeding = s.feeding := by rw [watchPermission_only]; rfl

theorem beginBaggerPulse_feeding : (beginBaggerPulse s).feeding = s.feeding := by rw [beginBaggerPulse_only]; rfl

theorem beginBucketDischarge_feeding : (beginBucketDischarge s).feeding = s.feeding := by
  rw [beginBucketDischarge_only]; rfl

theorem beginRemainder_feeding : (beginRemainder s).feeding = s.feeding := by rw [beginRemainder_only]; rfl

theorem loseBag_feeding : (loseBag s).feeding = s.feeding := by
  unfold loseBag
  dsimp only
  split
  · exact raiseFault_feeding _ _ _ _
  · rfl

theorem clampChanged_feeding (present : Bool) : (clampChanged present s).feeding = s.feeding := by
  unfold clampChanged
  split
  · rfl
  · rfl
  · rfl
  · exact loseBag_feeding s
  · rfl

theorem stopBagger_feeding : (stopBagger s).feeding = s.feeding := by
  unfold stopBagger
  split <;> rfl

/-! ### The port -/

theorem endListening_feeding : (endListening s).feeding = s.feeding := by
  unfold endListening
  exact feeding_ite s (queueFrame_feeding _ _) rfl

theorem takeValid_feeding (f : RawFrame) : (takeValid f s).feeding = s.feeding := by
  unfold takeValid
  refine feeding_ite s ?_ (feeding_ite s rfl ?_)
  · exact feeding_ite s rfl (feeding_ite s rfl (raiseFault_feeding _ _ _ _))
  · exact feeding_ite s rfl (raiseFault_feeding _ _ _ _)

theorem frameComplete_feeding (f : RawFrame) : (frameComplete f s).feeding = s.feeding := by
  unfold frameComplete
  exact feeding_ite s ((takeValid_feeding _ _).trans (endListening_feeding _)) rfl

theorem goodCharacter_feeding (header : Bool) (b : Byte) : (goodCharacter header b s).feeding = s.feeding := by
  unfold goodCharacter
  refine feeding_ite s rfl ?_
  split
  · rfl
  · refine feeding_ite s rfl ?_
    split
    · exact frameComplete_feeding s _
    · rfl

theorem receiveCharacter_feeding (samples : BitVec 36) : (receiveCharacter samples s).feeding = s.feeding := by
  unfold receiveCharacter
  dsimp only
  split
  · rfl
  · rfl
  · rfl
  · exact goodCharacter_feeding _ _ _

theorem attempt_feeding (idle : Nat) : (attempt idle s).feeding = s.feeding := by
  unfold attempt
  dsimp only
  split
  · rfl
  · exact feeding_ite s rfl rfl

theorem reportDropped_feeding (b : Body) : (reportDropped b s).feeding = s.feeding := by
  unfold reportDropped
  split
  · exact feeding_ite s (holdDropped_feeding s) rfl
  · rfl

theorem reportSent_feeding (b : Body) : (reportSent b s).feeding = s.feeding := by
  unfold reportSent
  split
  · exact holdSent_feeding s _ _ _
  · rfl

theorem loseAttempt_feeding : (loseAttempt s).feeding = s.feeding := by
  unfold loseAttempt
  split
  · rfl
  · exact feeding_ite s ((reportDropped_feeding _ _).trans (raiseFault_feeding _ _ _ _)) rfl

theorem completeAttempt_feeding : (completeAttempt s).feeding = s.feeding := by
  unfold completeAttempt
  split
  · rfl
  · exact reportSent_feeding _ _

theorem takeTime_feeding (t : Nat) : (takeTime t s).feeding = s.feeding := by
  unfold takeTime
  exact feeding_ite s (testDepartures_feeding _) rfl

/-! ### The end of an event -/

theorem followLoops_feeding : (followLoops s).feeding = s.feeding := rfl

theorem timers_feeding : (timers s).feeding = s.feeding := rfl

theorem drive_feeding : (drive s).feeding = s.feeding := by rw [drive_only]; rfl

end Sys2Proof.Machine
end

