-- ==== Sys2Proof/Proofs/FeedCloses.lean ====
section
/-! SUPPORT. O59: the news of the Bin View, the requests to the line, the starts and the close of an event keep each of the
three laws of the feeders. -/
namespace Sys2Proof.Machine

/-! ### The Bin View (R43 to R46, R49, R51) -/

section News
variable {s t u : State}

/-- An operation met on a state that reads alike. -/
theorem Sound.of_alike (h : Sound u t) (hu : u.feeding = s.feeding) : Sound s t := (Sound.of_feeding hu).trans h

/-- A change of the bins that keeps their numbers and their quarantine. -/
theorem Sound.of_bins {f : BinEntry → BinEntry} (hf : ∀ e, (f e).bin = e.bin ∧ (f e).quarantine = e.quarantine)
    (h : t.feeding = { s.feeding with bins := s.bins.map f }) : Sound s t := by
  have hbins : t.bins = s.bins.map f := congrArg Feeding.bins h
  have hplan : t.plan = s.plan := congrArg Feeding.plan h
  have hbatch : t.scale.batch = s.scale.batch := congrArg Feeding.batch h
  have hfoot : t.footing = s.footing :=
    congrArg (fun f : Feeding => Footing.mk f.line f.reported f.stopLine f.state f.resume f.batch.isSome) h
  have he : Eases s t :=
    { footing := hfoot
      positions := by rw [dosesOf_congr hbatch]
      numbers := by
        rw [hbins, List.map_map]
        exact List.map_congr_left fun e _ => (hf e).1
      doses := fun y hy => ⟨y, dosesOf_congr hbatch ▸ hy, rfl, id, id⟩
      entries := fun p e hp hd => ⟨e, by unfold planEntry at hp ⊢; rwa [← hplan], hd⟩ }
  refine ⟨he.tame, fun ho => ⟨he.book ho.toDrawBook, ?_, ?_⟩⟩
  · rw [dosesOf_congr hbatch, handBarred_of_footing hfoot]
    exact ho.hand
  · rw [dosesOf_congr hbatch, draws_of_footing hfoot]
    intro d hd hs hm hdraws
    obtain ⟨e, hp, hdrawing, hoff⟩ := ho.fed d hd hs hm hdraws
    refine ⟨e, by unfold planEntry at hp ⊢; rwa [hplan], hdrawing, fun b hb hbin => ?_⟩
    rw [hbins] at hb
    obtain ⟨x, hx, rfl⟩ := List.mem_map.1 hb
    rw [(hf x).2]
    exact hoff x hx ((hf x).1 ▸ hbin)

theorem updBin_sound {f : BinEntry → BinEntry} (hf : ∀ e, (f e).bin = e.bin ∧ (f e).quarantine = e.quarantine) (bin : Nat)
    (s : State) : Sound s (updBin bin f s) := by
  refine Sound.of_bins (f := fun e => if e.bin = bin then f e else e) (fun e => ?_) rfl
  split
  · exact hf e
  · exact ⟨rfl, rfl⟩

theorem takeIntake_sound (bin code mass : Nat) (s : State) : Sound s (takeIntake bin code mass s) := by
  unfold takeIntake
  exact Sound.ite (fun _ => updBin_sound (f := intakeEntry code mass) (fun _ => ⟨rfl, rfl⟩) bin s) (Sound.refl s)

theorem applyLevel_sound (bin mass source : Nat) (code : Option Nat) (s : State) :
    Sound s (applyLevel bin mass source code s) :=
  updBin_sound (f := levelEntry source mass code) (fun _ => ⟨rfl, rfl⟩) bin s

theorem takeLevel_sound (source : Nat) (p : List Byte) (s : State) : Sound s (takeLevel source p s) := by
  unfold takeLevel
  exact Sound.ite (fun _ => applyLevel_sound _ _ _ _ s) (Sound.refl s)

theorem takeDrawReport_sound (source batch bin actual : Nat) (s : State) :
    Sound s (takeDrawReport source batch bin actual s) := by
  have h : Sound s (applyDrawReport source batch bin actual s) :=
    (updBin_sound (f := subEstimate actual) (fun _ => ⟨rfl, rfl⟩) bin s).trans (Sound.of_feeding rfl)
  unfold takeDrawReport
  split
  · exact Sound.refl s
  · exact h

theorem takeHello_sound (source : Nat) (s : State) : Sound s (takeHello source s) := by
  have h : Sound s (applyHello source s) :=
    Sound.of_bins (f := fun e => if e.reporter = some source then { e with stale := true } else e)
      (fun e => by split <;> exact ⟨rfl, rfl⟩) rfl
  unfold takeHello
  split
  · exact Sound.refl s
  · exact h

theorem readLevel_sound (k reading : Nat) (s : State) : Sound s (readLevel k reading s) := by
  unfold readLevel
  split
  · exact Sound.refl s
  · split
    · exact Sound.refl s
    · exact Sound.ite (fun _ => (applyLevel_sound _ _ _ _ _).of_alike (queueFrame_feeding _ _)) (Sound.refl s)

theorem secondTick_sound (s : State) : Sound s (secondTick s) := by
  have h : Sound s (ageBinView { s with millTime := s.millTime.map advanceClock }) :=
    Sound.of_bins (f := ageEntry s.params.staleAge) (fun _ => ⟨rfl, rfl⟩) rfl
  unfold secondTick
  exact Sound.ite (fun _ => h.trans (Sound.of_feeding (testDepartures_feeding _))) h

end News

/-! ### Rework, bags and samples (R9, R21, R83, R111, R118) -/

section Flags
variable (s : State)

theorem flagOrder_sound (id : Nat) : Sound s (flagOrder id s) := by
  have h : Sound s (flagLine id s) := Sound.of_feeding (flagLine_feeding s id)
  rw [flagOrder_eq]
  exact Sound.ite (fun _ => h.trans (reworkScale_sound _)) h

theorem takeCancel_sound (id : Nat) : Sound s (takeCancel id s) := by
  have hvoid : Sound s (voidCharge id s) := Sound.of_feeding (voidCharge_feeding s id)
  unfold takeCancel
  split
  · exact Sound.refl s
  · split
    · exact Sound.refl s
    · refine Sound.ite (fun _ => hvoid.trans (Sound.of_feeding (freeSlot_feeding _ id))) ?_
      refine Sound.ite (fun _ => ?_) ?_
      · have hbase : Sound s (cancelBase id s) := Sound.of_feeding (by rw [cancelBase_only]; rfl)
        refine (hbase.trans (flagOrder_sound _ id)).trans (Sound.of_feeding ?_)
        rw [cancelOnLine_only]
        rfl
      · refine hvoid.trans (Sound.of_feeding ?_)
        unfold cancelClear
        rw [freeSlot_only, queueNotice_only, releaseReservations_only]
        rfl

theorem completeBagged_sound (id : Nat) : Sound s (completeBagged id s) := by
  refine (flagOrder_sound s id).trans (Sound.of_feeding ?_)
  unfold completeBagged
  rw [bagEnd_only]
  exact completeRun_feeding _ id

theorem countBag_sound (id : Nat) : Sound s (countBag id s) := by
  have h (f : Order → Order) : Sound s (updOrder id f s) := Sound.of_feeding (updOrder_feeding s id f)
  unfold countBag
  split
  · exact Sound.ite (fun _ => Sound.ite (fun _ => (h _).trans (completeBagged_sound _ id)) (h _)) (Sound.refl s)
  · exact Sound.refl s

theorem emptyBucket_feeding : (emptyBucket s).feeding = s.feeding := rfl

theorem completeBucket_sound : Sound s (completeBucket s) := by
  unfold completeBucket
  split
  · exact Sound.ite (fun _ => (countBag_sound _ _).of_alike (emptyBucket_feeding s)) (Sound.of_feeding rfl)
  · exact Sound.of_feeding rfl

theorem bucketStep_sound : Sound s (bucketStep s) := by
  unfold bucketStep
  split
  · exact Sound.of_feeding (emptySample_feeding s)
  · split
    · split
      · exact Sound.of_feeding (fillSample_feeding s _ _ _)
      · exact Sound.refl s
    · exact Sound.refl s
  · split
    · split
      · exact Sound.ite (fun _ => Sound.of_feeding (settleCharge_feeding s _ _ _)) (Sound.refl s)
      · exact Sound.refl s
    · exact Sound.refl s
  · exact Sound.ite (fun _ => completeBucket_sound s) (Sound.refl s)
  · exact Sound.ite (fun _ => completeBucket_sound s) (Sound.refl s)
  · exact Sound.refl s

theorem bucketSample_sound (count : BitVec 24) : Sound s (bucketSample count s) :=
  (bucketStep_sound _).of_alike rfl

theorem finishedSample_feeding (count : BitVec 24) : (finishedSample count s).feeding = s.feeding := by
  unfold finishedSample
  refine feeding_ite s ?_ rfl
  refine (trySpout_feeding _).trans ((dumpEmptied_feeding _).trans ((emptyFinished_feeding _).trans ?_))
  exact (loadSample_feeding _).trans ((settleStep_feeding _).trans (updateFinishedMass_feeding _))

theorem acknowledge_sound (keys : List FaultKey) (idle : Bool) : Sound s (acknowledge keys idle s) := by
  have h : Sound s (ackDosing (freshlyAcked keys s) { s with faults := s.faults.map (fun r =>
      if keys.contains r.key then { r with acked := true } else r) }) :=
    (ackDosing_sound _ _).of_alike rfl
  unfold acknowledge
  exact Sound.ite (fun _ => h.trans (Sound.of_feeding rfl)) h

theorem handAddDone_sound :
    Sound s (if s.scale.state = .handAdd ∧ s.line = .run then setScale (.settle .handAdd) s else s) :=
  Sound.ite (fun _ => setScale_calm_sound rfl s) (Sound.refl s)

end Flags

/-! ### The line (R174, R179 to R182) -/

section Line
variable {l : FeedLaw} {s t : State}

/-- A change of the line, its reports or its STOP line that keeps the law of the feeders. -/
theorem FeedLaw.relined (h : t.feeding = { s.feeding with line := t.line, reported := t.reports.dosing
                                                          stopLine := t.inputs.stopLine })
    (hd : FeedLawful s → FeedLawful t) (hs : l.holds s) : l.holds t := by
  have hstate : t.scale.state = s.scale.state := congrArg Feeding.state h
  have hresume : t.scale.resume = s.scale.resume := congrArg Feeding.resume h
  have hbatch : t.scale.batch = s.scale.batch := congrArg Feeding.batch h
  cases l with
  | driven => exact hd hs
  | emptied =>
    have hs : IdleScaleEmpty s := hs
    show IdleScaleEmpty t
    unfold IdleScaleEmpty at hs ⊢
    rwa [hstate, hresume, hbatch]
  | drawn =>
    have hbarred : t.handBarred = s.handBarred := by unfold State.handBarred; rw [hstate, hresume]
    have hdraws : t.draws = s.draws := by unfold State.draws; rw [hstate, hresume]
    exact OpenDraws.restate (s := s) hs (dosesOf_congr hbatch) (congrArg Feeding.plan h) (congrArg Feeding.bins h)
      (hbarred ▸ id) (hdraws ▸ id)

/-- The laws, of a state that reads alike. -/
theorem FeedLaw.still (h : t.feeding = s.feeding) (hs : l.holds s) : l.holds t := (Sound.of_feeding h).holds hs

theorem feedLawful_iff (s : State) : FeedLawful s ↔
    (s.scale.state.feeding = true → s.line = .run ∨ (s.line = .pausing ∧ s.reports.dosing = false))
      ∧ (s.inputs.stopLine = true → s.line = .stopped) := by
  unfold FeedLawful
  rw [feedRate_ne_off_iff]

theorem pauseLine_feeds (hs : l.holds s) : l.holds (pauseLine s) := by
  unfold pauseLine
  split
  · rename_i hl
    refine FeedLaw.still (closeSpout_feeding _ _) (FeedLaw.relined ?_ (fun h => ?_) hs)
    · rw [setLine_only]
      rfl
    · obtain ⟨-, hstop⟩ := (feedLawful_iff s).1 h
      rw [setLine_only, feedLawful_iff]
      refine ⟨fun _ => .inr ⟨rfl, rfl⟩, fun h => ?_⟩
      rw [hl] at hstop
      cases hstop h
  · exact hs

theorem resumeLine_feeds (hs : l.holds s) : l.holds (resumeLine s) := by
  unfold resumeLine
  split
  · exact hs
  · split
    · rename_i hl
      refine FeedLaw.relined ?_ (fun h => ?_) hs
      · rw [setLine_only]
        rfl
      · obtain ⟨-, hstop⟩ := (feedLawful_iff s).1 h
        rw [setLine_only, feedLawful_iff]
        refine ⟨fun _ => .inl rfl, fun h => ?_⟩
        unfold resumeAllowed at hl
        rw [hstop h] at hl
        cases hl
    · exact FeedLaw.still (raiseFault_feeding _ _ _ _) hs

/-- R182: the line as the STOP line is seen. -/
def stopSeen (s : State) : State :=
  let u : State := { s with inputs := { s.inputs with stopLine := true }, reports := Reports.blank }
  if s.line = .stopped then u else setLine .stopped .stopAsserted u

theorem stopSeen_only (s : State) : ∃ tx, stopSeen s = { s with
    inputs := { s.inputs with stopLine := true }, reports := Reports.blank, line := .stopped, tx := tx } := by
  unfold stopSeen
  dsimp only
  split
  · rename_i hl
    exact ⟨s.tx, by rw [← hl]⟩
  · exact ⟨_, setLine_only _ _ _⟩

theorem stopTrain_feeding (s : State) : (stopTrain s).feeding = s.feeding := rfl

theorem stopLine_eq (s : State) : stopLine s = closeSpout .line (stopBagger (stopTrain (stopDosing (stopSeen s)))) := rfl

theorem stopLine_feeds (hs : l.holds s) : l.holds (stopLine s) := by
  rw [stopLine_eq]
  refine FeedLaw.still ((closeSpout_feeding _ _).trans ((stopBagger_feeding _).trans (stopTrain_feeding _))) ?_
  obtain ⟨tx, hseen⟩ := stopSeen_only s
  have htame := (stopDosing_sound (stopSeen s)).tame
  cases l with
  | driven =>
    refine (feedLawful_iff _).2 ⟨fun h => ?_, fun _ => ?_⟩
    · rw [stopDosing_feeding] at h
      cases h
    · rw [htame.line, hseen]
  | emptied =>
    refine (stopDosing_sound (stopSeen s)).holds (l := .emptied) ?_
    rw [hseen]
    exact hs
  | drawn =>
    refine (stopDosing_sound (stopSeen s)).holds (l := .drawn) ?_
    rw [hseen]
    exact OpenDraws.restate (s := s) hs rfl rfl rfl id id

/-- R182: the STOP line was seen asserted, so nothing is fed. -/
theorem releaseLine_feeds (hstop : s.inputs.stopLine = true) (hs : l.holds s) : l.holds (releaseLine s) := by
  unfold releaseLine
  refine FeedLaw.relined ?_ (fun h => ?_) hs
  · rw [setLine_only]
    rfl
  · obtain ⟨hfeed, hline⟩ := (feedLawful_iff s).1 h
    rw [hline hstop] at hfeed
    rw [setLine_only, feedLawful_iff]
    refine ⟨fun h => ?_, nofun⟩
    obtain h | ⟨h, -⟩ := hfeed h <;> cases h

theorem dosingAtPause_feeding (h : s.scale.state.feeding = true) : dosingAtPause s = false := by
  unfold dosingAtPause
  cases hst : s.scale.state with
  | feedFast | feedSlow => rfl
  | jog pulse =>
    rw [hst] at h
    cases pulse with
    | true => rfl
    | false => cases h
  | _ =>
    rw [hst] at h
    cases h

/-- R180: the Dosing Unit does not report while it feeds. -/
theorem pauseReports_feeds (hs : l.holds s) : l.holds (pauseReports s) := by
  refine FeedLaw.relined ?_ (fun h => ?_) hs
  · rw [pauseReports_only]
    rfl
  · obtain ⟨hfeed, hstop⟩ := (feedLawful_iff s).1 h
    rw [feedLawful_iff]
    unfold pauseReports
    split
    · rename_i hl
      have hnot : s.inputs.stopLine ≠ true := fun h => by
        rw [hl] at hstop
        cases hstop h
      have hreports (hf : s.scale.state.feeding = true) : (s.reports.dosing || dosingAtPause s) = false := by
        rw [dosingAtPause_feeding hf, Bool.or_false]
        exact (hfeed hf).elim (fun hr => by rw [hl] at hr; cases hr) And.right
      dsimp only
      split
      · rename_i hr
        rw [setLine_only]
        refine ⟨fun hf => ?_, fun h => absurd h hnot⟩
        rw [hreports hf] at hr
        cases hr
      · exact ⟨fun hf => .inr ⟨hl, hreports hf⟩, fun h => absurd h hnot⟩
    · exact ⟨hfeed, hstop⟩

end Line

/-! ### The starts (R24, R61, R86, R206) -/

section Starts
variable {l : FeedLaw} {s : State}

/-- The laws at a start: the scale is empty, and no feed is open. -/
theorem FeedLaw.of_start (hb : s.scale.batch = none) (hf : s.scale.state.feeding = false)
    (hn : (s.bins.map BinEntry.bin).Nodup) (hl : s.inputs.stopLine = true → s.line = .stopped) : l.holds s := by
  cases l with
  | driven =>
    refine (feedLawful_iff s).2 ⟨fun h => ?_, hl⟩
    rw [hf] at h
    cases h
  | emptied => exact ⟨fun _ => hb, fun _ _ => hb⟩
  | drawn => exact OpenDraws.of_empty hn hb

theorem firstLine_stopped {stop : Bool} (h : stop = true) : firstLine stop = .stopped := by rw [h]; rfl

theorem powerOn_feeds (pins : BitVec 11) (memory : List Byte) (inputs : Inputs) (s : State) :
    l.holds (powerOn pins memory inputs s) := by
  unfold powerOn
  dsimp only
  split
  · exact FeedLaw.of_start rfl rfl (show (State.reset.bins.map BinEntry.bin).Nodup by decide) nofun
  · refine FeedLaw.still (queueNotice_feeding _ _) (FeedLaw.of_start rfl rfl ?_ firstLine_stopped)
    unfold startedState
    rw [List.map_map]
    exact List.nodup_range.map (fun _ _ => Nat.succ.inj)

/-- R206: a warm reset leaves an empty scale, and the bins their numbers. -/
theorem warmReset_feeds (inputs : Inputs) (hn : l = .drawn → (s.bins.map BinEntry.bin).Nodup) :
    l.holds (warmReset inputs s) := by
  obtain ⟨faults, tx, he⟩ := warmReset_only inputs s
  have hblocks : (resetBlocks inputs s).scale = { Scale.blank with state := if scaleUnknown s then .unknown else .idle }
      ∧ (resetBlocks inputs s).bins.map BinEntry.bin = s.bins.map BinEntry.bin := by
    unfold resetBlocks
    rw [warmOrders_eq]
    refine ⟨rfl, ?_⟩
    show (s.bins.map _).map BinEntry.bin = _
    rw [List.map_map]
    refine List.map_congr_left fun e _ => ?_
    simp only [Function.comp]
    split <;> rfl
  obtain ⟨hscale, hbins⟩ := hblocks
  have hbatch : (warmReset inputs s).scale.batch = none := by
    rw [he]
    show (resetBlocks inputs s).scale.batch = none
    rw [hscale]
    rfl
  have hstate : (warmReset inputs s).scale.state.feeding = false := by
    rw [he]
    show (resetBlocks inputs s).scale.state.feeding = false
    rw [hscale]
    dsimp only
    split <;> rfl
  cases l with
  | driven =>
    refine (feedLawful_iff _).2 ⟨fun h => ?_, ?_⟩
    · rw [hstate] at h
      cases h
    · rw [he]
      exact firstLine_stopped
  | emptied => exact ⟨fun _ => hbatch, fun _ _ => hbatch⟩
  | drawn =>
    refine OpenDraws.of_empty ?_ hbatch
    rw [he]
    show ((resetBlocks inputs s).bins.map BinEntry.bin).Nodup
    rw [hbins]
    exact hn rfl

end Starts

/-! ### The close of an event -/

section Close
variable {l : FeedLaw} {s : State}

theorem admitBatch_feeds {o : Order} (hi : s.scale.state = .idle) (hs : l.holds s) : l.holds (admitBatch o s) := by
  have hlater : ∀ {u : State}, u.feeding = s.feeding → u.scale.state = .idle ∧ l.holds u := fun hu =>
    ⟨(congrArg Feeding.state hu).trans hi, FeedLaw.still hu hs⟩
  unfold admitBatch
  split
  · obtain ⟨hidle, hu⟩ := hlater (u := { preempt o.id s with
      batchCounter := advanceBatch s.batchCounter
      carry := s.carry.flush (flushForm s.params.matrix s.carry o.cls o.form) }) rfl
    exact admitToScale_feeds _ (List.nodup_singleton _) hidle hu
  · obtain ⟨hidle, hu⟩ := hlater (u := { updOrder o.id Order.afterAdmission (preempt o.id s) with
      batchCounter := advanceBatch s.batchCounter, carry := s.carry.product o.cls o.form }) (by rw [updOrder_only]; rfl)
    exact admitToScale_feeds _ (plannedOf_positions _ _) hidle hu

theorem admissionAttempt_feeds (hs : l.holds s) : l.holds (admissionAttempt s) := by
  unfold admissionAttempt
  split
  · rename_i hdue
    obtain ⟨hidle, -⟩ := (attemptDue_iff s).1 hdue
    have hw : (recomputeWaits s).feeding = s.feeding := recomputeWaits_feeding s
    have hu := FeedLaw.still hw hs
    dsimp only
    split
    · exact admitBatch_feeds ((congrArg Feeding.state hw).trans hidle) hu
    · exact hu
  · exact hs

theorem passLine_sound (s : State) : Sound s (passLine s) := by
  unfold passLine
  refine Sound.trans ?_ (beginDischarge_sound _)
  refine Sound.trans ?_ (Sound.of_feeding ((beginGrind_feeding _).trans ((beginDischargeMixer_feeding _).trans
    ((beginPress_feeding _).trans (beginBaggerPulse_feeding _)))))
  exact Sound.trans (Sound.of_feeding ((watchPermission_feeding _).trans (unbarStages_feeding s))) (beginJogPulse_sound _)

theorem passBook_feeds (hs : l.holds s) : l.holds (passBook s) := by
  unfold passBook
  refine FeedLaw.still ((beginRemainder_feeding _).trans (beginBucketDischarge_feeding _)) (admissionAttempt_feeds ?_)
  exact FeedLaw.still ((makeUps_feeding _).trans ((markLoaded_feeding _).trans ((freeCancelled_feeding _).trans
    (watchStep_feeding s)))) hs

theorem pass_feeds (hs : l.holds s) : l.holds (pass s) :=
  FeedLaw.still (followLoops_feeding _) (passBook_feeds ((passLine_sound s).holds hs))

theorem close_feeds (hs : l.holds s) : l.holds (close s) := by
  have hrounds : l.holds (rounds s) := pass_feeds (pass_feeds (pass_feeds hs))
  have hbay := FeedLaw.still ((takeBay_feeding _).trans (abandonBay_feeding _)) hrounds
  unfold close
  exact FeedLaw.still ((drive_feeding _).trans ((reannounce_feeding _).trans (timers_feeding _))) (pauseReports_feeds hbay)

end Close

end Sys2Proof.Machine
end

