-- ==== Sys2Proof/Proofs/FeedSteps.lean ====
section
/-! SUPPORT. O59: every command, so every step, keeps each of the three laws of the feeders. -/
namespace Sys2Proof.Machine

variable {l : FeedLaw} {s t : State}

/-! ### The timers of the Dosing Unit -/

theorem during_isRunning {c : Bool} {full : Nat} {t : Timer} (h : (Timer.during c full t).isRunning = true) : c = true := by
  unfold Timer.during at h
  split at h
  · assumption
  · cases h

/-- Whatever the event did, its close has the timers follow the unit. -/
theorem settled_timed (s u : State) : FeedTimed (settled s u) := by
  obtain ⟨ids, q, fs, cs, la, pins, he⟩ := settled_only s u
  rw [he]
  refine ⟨fun h => ?_, fun h => ?_⟩
  · have hw : stallWanted (quiesced u) = true := during_isRunning h
    show (quiesced u).scale.state = .feedFast ∨ (quiesced u).scale.state = .feedSlow
    unfold stallWanted at hw
    split at hw
    · exact .inl (by assumption)
    · exact .inr (by assumption)
    · cases hw
  · show (quiesced u).scale.state = .jog true
    exact of_decide_eq_true (during_isRunning h)

theorem event_timed {guard : Bool} {f : State → State} (hs : FeedTimed s) (h : event guard f s = .next t) : FeedTimed t := by
  unfold event at h
  split at h <;> injection h with h <;> subst h
  · exact settled_timed _ _
  · exact hs

theorem requestEvent_timed {origin : Origin} {want : RawFrame → Bool} {f : RawFrame → State → State} {g : State → State}
    (hs : FeedTimed s) (h : requestEvent origin want f g s = .next t) : FeedTimed t := by
  cases origin with
  | input => exact event_timed hs h
  | frame => exact event_timed hs h

theorem drive_timed (hs : FeedTimed s) : FeedTimed (drive s) := by
  rw [drive_only]
  exact hs

theorem powerOn_scale (pins : BitVec 11) (memory : List Byte) (inputs : Inputs) (s : State) :
    (powerOn pins memory inputs s).scale = Scale.blank := by
  unfold powerOn
  dsimp only
  split
  · rfl
  · rw [queueNotice_only]
    rfl

theorem FeedTimed.of_scale (hs : FeedTimed s) (h : t.scale = s.scale) : FeedTimed t := by
  unfold FeedTimed
  rwa [h]

theorem toggleLamp_scale (lamp : LampId) (s : State) : (toggleLamp lamp s).scale = s.scale := by
  cases lamp <;> rfl

theorem exec_timed (c : Instr) (hs : FeedTimed s) (h : exec c s = .next t) : FeedTimed t := by
  cases c with
  | powerOn pins memory inputs =>
    injection h with h
    have hblank : FeedTimed State.reset := ⟨nofun, nofun⟩
    exact h ▸ drive_timed (hblank.of_scale (powerOn_scale _ _ _ _))
  | resetAssert =>
    injection h with h
    exact h ▸ drive_timed (s := { s with resetPin := true }) hs
  | warmReset inputs =>
    have h : execWarmReset inputs s = .next t := h
    unfold execWarmReset at h
    split at h <;> injection h with h <;> subst h
    · exact settled_timed _ _
    · exact hs
  | flashTimerExpiry lamp =>
    have h : execFlashTimerExpiry lamp s = .next t := h
    unfold execFlashTimerExpiry at h
    split at h
    · exact event_timed hs h
    · split at h <;> injection h with h <;> subst h
      · exact drive_timed (hs.of_scale (toggleLamp_scale lamp s))
      · exact hs
  | ack | pause | resume | dumpScale | dumpSurge | dumpMixer | dumpPress | dumpFinished => exact requestEvent_timed hs h
  | listeningEnd | localStopInput | bagClamp | surgeEmptyInput | mixerEmptyInput | pressBinEmptyInput | claimWindowExpiry =>
    dsimp only [exec, execListeningEnd, execLocalStopInput, execBagClamp, execSurgeEmptyInput, execMixerEmptyInput,
      execPressBinEmptyInput, execClaimWindowExpiry] at h
    exact event_timed hs h
  | _ => exact event_timed hs h

/-! ### Every command -/

theorem feeds_pending (s : State) (q : List Instr) (h : l.holds s) : l.holds { s with pending := q } :=
  FeedLaw.still (s := s) rfl h

theorem feeds_inbound (s : State) (q : List RawFrame) (_ : q.length ≤ s.rx.inbound.length) (h : l.holds s) :
    l.holds { s with rx := { s.rx with inbound := q } } := FeedLaw.still (s := s) rfl h

/-- The effect is met where the guard holds. -/
theorem event_feeds_of {guard : Bool} {f : State → State} (hs : l.holds s) (h : event guard f s = .next t)
    (hf : guard = true → l.holds (f s)) : l.holds t := by
  unfold event at h
  split at h <;> injection h with h <;> subst h
  · rename_i hg
    exact feeds_pending _ _ (close_feeds (hf (Bool.and_eq_true_iff.1 hg).2))
  · exact hs

theorem event_feeds {guard : Bool} {f : State → State} (hs : l.holds s) (h : event guard f s = .next t)
    (hf : ∀ u, Sound u (f u)) : l.holds t := event_feeds_of hs h (fun _ => (hf s).holds hs)

/-- An effect that touches nothing of what the laws read. -/
theorem event_feeds_still {guard : Bool} {f : State → State} (hs : l.holds s) (h : event guard f s = .next t)
    (hf : ∀ u, (f u).feeding = u.feeding) : l.holds t := event_feeds hs h (fun u => Sound.of_feeding (hf u))

theorem frameEvent_feeds {block : Block} {kind : Nat} {f : RawFrame → State → State} (hs : l.holds s)
    (h : frameEvent block kind f s = .next t) (hf : ∀ fr u, Sound u (f fr u)) : l.holds t :=
  frameEvent_preserves (P := l.holds) feeds_pending (fun _ => close_feeds) feeds_inbound (fun fr u => (hf fr u).holds) hs h

theorem frameEvent_feeds_still {block : Block} {kind : Nat} {f : RawFrame → State → State} (hs : l.holds s)
    (h : frameEvent block kind f s = .next t) (hf : ∀ fr u, (f fr u).feeding = u.feeding) : l.holds t :=
  frameEvent_feeds hs h (fun fr u => Sound.of_feeding (hf fr u))

theorem requestEvent_feeds {origin : Origin} {want : RawFrame → Bool} {f : RawFrame → State → State}
    {g : State → State} (hs : l.holds s) (h : requestEvent origin want f g s = .next t)
    (hf : ∀ fr u, l.holds u → l.holds (f fr u)) (hg : ∀ u, l.holds u → l.holds (g u)) : l.holds t :=
  requestEvent_preserves (P := l.holds) feeds_pending (fun _ => close_feeds) feeds_inbound hf hg hs h

theorem lineEvent_feeds {origin : Origin} {request : Nat} {f : State → State} (hs : l.holds s)
    (h : lineEvent origin request f s = .next t) (hf : ∀ u, l.holds u → l.holds (f u)) : l.holds t :=
  requestEvent_feeds hs h (fun _ u hu => by split; exacts [hu, hf u hu]) hf

theorem toggleLamp_feeding (lamp : LampId) (s : State) : (toggleLamp lamp s).feeding = s.feeding := by
  cases lamp <;> rfl

theorem currentSample_feeding (loop : LoopId) (i : BitVec 12) (s : State) : (currentSample loop i s).feeding = s.feeding := by
  cases loop <;> rfl

theorem windowExpiry_feeding (order : Nat) (s : State) :
    (match findOrder order s with | some o => closeWindow o s | none => s).feeding = s.feeding := by
  split
  · exact closeWindow_feeding s _
  · rfl

/-- R71: a pulse ends. -/
theorem jogExpiry_feeds (ht : l = .drawn → s.scale.state = .jog true) (hs : l.holds s) :
    l.holds (setScale (.settle .jog) s) := by
  have htame : Tame s (setScale (.settle .jog) s) := (Tame.refl s).setScale nofun nofun nofun
  cases l with
  | driven => exact htame.driven hs
  | emptied => exact htame.emptied hs
  | drawn =>
    exact (setScale_work_sound (st := .settle .jog) (by rw [ht rfl]; rfl) nofun nofun nofun).holds (l := .drawn) hs

/-- R69: FEED stalls. -/
theorem stallExpiry_feeds (ht : l = .drawn → s.scale.state = .feedFast ∨ s.scale.state = .feedSlow) (hs : l.holds s) :
    l.holds (stallExpiry s) := by
  cases l with
  | driven => exact (stallExpiry_tame s).driven hs
  | emptied => exact (stallExpiry_tame s).emptied hs
  | drawn => exact (stallExpiry_sound (ht rfl)).holds (l := .drawn) hs

theorem exec_feeds (c : Instr) (ht : l = .drawn → FeedTimed s) (hs : l.holds s) (h : exec c s = .next t) : l.holds t := by
  cases c with
  | powerOn pins memory inputs =>
    injection h with h
    exact h ▸ FeedLaw.still (drive_feeding _) (powerOn_feeds _ _ _ _)
  | resetAssert =>
    injection h with h
    exact h ▸ FeedLaw.still (s := s) (drive_feeding _) hs
  | warmReset inputs =>
    have h : execWarmReset inputs s = .next t := h
    unfold execWarmReset at h
    split at h <;> injection h with h <;> subst h
    · refine feeds_pending _ _ (close_feeds (warmReset_feeds inputs fun hl => ?_))
      subst hl
      exact (show OpenDraws s from hs).numbers
    · exact hs
  | listeningEnd =>
    unfold exec execListeningEnd at h
    exact event_feeds_still hs h (fun _ => endListening_feeding _)
  | frameReceived f => exact event_feeds_still hs h (fun _ => frameComplete_feeding _ _)
  | characterReceived samples => exact event_feeds_still hs h (fun _ => receiveCharacter_feeding _ _)
  | transmitAttempt idle => exact event_feeds_still hs h (fun _ => attempt_feeding _ _)
  | attemptLost => exact event_feeds_still hs h loseAttempt_feeding
  | attemptComplete => exact event_feeds_still hs h completeAttempt_feeding
  | time => exact frameEvent_feeds_still hs h (fun _ _ => takeTime_feeding _ _)
  | offer => exact frameEvent_feeds_still hs h (fun _ _ => takeOffer_feeding _ _)
  | claim => exact frameEvent_feeds_still hs h (fun _ _ => takeClaim_feeding _ _ _ _)
  | take => exact frameEvent_feeds_still hs h (fun _ _ => takeTake_feeding _ _ _ _ _)
  | yieldReceived => exact frameEvent_feeds_still hs h (fun _ _ => rfl)
  | relevel => exact frameEvent_feeds_still hs h (fun _ _ => takeRelevel_feeding _ _ _ _)
  | cancel => exact frameEvent_feeds hs h (fun _ _ => takeCancel_sound _ _)
  | quarantine => exact frameEvent_feeds hs h (fun _ _ => takeQuarantine_sound _ _)
  | intake => exact frameEvent_feeds hs h (fun _ _ => takeIntake_sound _ _ _ _)
  | level => exact frameEvent_feeds hs h (fun _ _ => takeLevel_sound _ _ _)
  | drawNotice => exact frameEvent_feeds_still hs h (fun _ _ => feeding_ite _ rfl rfl)
  | drawReport => exact frameEvent_feeds hs h (fun _ _ => takeDrawReport_sound _ _ _ _ _)
  | hello => exact frameEvent_feeds hs h (fun _ _ => takeHello_sound _ _)
  | truckPlan => exact frameEvent_feeds_still hs h (fun _ _ => takePlan_feeding _ _)
  | bayHold => exact frameEvent_feeds_still hs h (fun _ _ => takeBayHold_feeding _ _ _ _ _ _)
  | loaded => exact frameEvent_feeds_still hs h (fun _ _ => takeLoaded_feeding _ _ _ _ _ _)
  | ack origin =>
    exact requestEvent_feeds hs h (fun _ _ => (acknowledge_sound _ _ _).holds) (fun _ => (acknowledge_sound _ _ _).holds)
  | pause origin => exact lineEvent_feeds hs h (fun _ => pauseLine_feeds)
  | resume origin => exact lineEvent_feeds hs h (fun _ => resumeLine_feeds)
  | dumpScale origin =>
    exact lineEvent_feeds hs h (fun u => (Sound.ite (fun _ => dumpScaleBatch_sound u) (Sound.refl u)).holds)
  | dumpSurge origin => exact lineEvent_feeds hs h (fun u => FeedLaw.still (feeding_ite u (dumpStage_feeding u _) rfl))
  | dumpMixer origin => exact lineEvent_feeds hs h (fun u => FeedLaw.still (feeding_ite u (dumpStage_feeding u _) rfl))
  | dumpPress origin => exact lineEvent_feeds hs h (fun u => FeedLaw.still (feeding_ite u (dumpStage_feeding u _) rfl))
  | dumpFinished origin => exact lineEvent_feeds hs h (fun u => FeedLaw.still (feeding_ite u rfl rfl))
  | localStopInput active =>
    unfold exec execLocalStopInput at h
    exact event_feeds_still hs h (fun _ => rfl)
  | stopAsserted => exact event_feeds_of hs h (fun _ => stopLine_feeds hs)
  | stopReleased =>
    exact event_feeds_of hs h (fun hg => releaseLine_feeds (Bool.and_eq_true_iff.1 hg).1 hs)
  | handAddDone =>
    unfold exec execHandAddDone at h
    exact event_feeds hs h handAddDone_sound
  | bagClamp present =>
    unfold exec execBagClamp at h
    exact event_feeds_still hs h (fun _ => clampChanged_feeding _ _)
  | surgeEmptyInput empty =>
    unfold exec execSurgeEmptyInput at h
    exact event_feeds_still hs h (fun _ => rfl)
  | mixerEmptyInput empty =>
    unfold exec execMixerEmptyInput at h
    exact event_feeds_still hs h (fun _ => rfl)
  | pressBinEmptyInput empty =>
    unfold exec execPressBinEmptyInput at h
    exact event_feeds_still hs h (fun _ => rfl)
  | scaleSample count => exact event_feeds hs h (scaleSample_sound _)
  | bucketSample count => exact event_feeds hs h (fun _ => bucketSample_sound _ _)
  | finishedBinSample count => exact event_feeds_still hs h (fun _ => finishedSample_feeding _ _)
  | currentSample loop current => exact event_feeds_still hs h (currentSample_feeding _ _)
  | temperatureSample temperature => exact event_feeds_still hs h (fun _ => rfl)
  | levelSensorReading sensor reading => exact event_feeds hs h (readLevel_sound _ _)
  | oneSecondEvent => exact event_feeds hs h secondTick_sound
  | staleAgeExpiry bin => exact event_feeds hs h secondTick_sound
  | peerDrawAgeExpiry node batch bin => exact event_feeds hs h secondTick_sound
  | bayTimeStep => exact event_feeds_still hs h bayTick_feeding
  | bayTimerExpiry bay => exact event_feeds_still hs h bayTick_feeding
  | bayLost => exact event_feeds_still hs h bayTick_feeding
  | claimWindowExpiry order =>
    unfold exec execClaimWindowExpiry at h
    exact event_feeds_still hs h (windowExpiry_feeding order)
  | settleTimeout => exact event_feeds hs h settleExpiry_sound
  | stallTimerExpiry => exact event_feeds_of hs h (fun hg => stallExpiry_feeds (fun hl => (ht hl).1 hg) hs)
  | jogTimerExpiry => exact event_feeds_of hs h (fun hg => jogExpiry_feeds (fun hl => (ht hl).2 hg) hs)
  | residueTimerExpiry => exact event_feeds hs h residueExpiry_sound
  | grindRunoutExpiry => exact event_feeds_still hs h (fun _ => rfl)
  | mixTimerExpiry => exact event_feeds_still hs h (fun _ => rfl)
  | mixerRunoutExpiry => exact event_feeds_still hs h completeMixer_feeding
  | dischargeTimeout => exact event_feeds_still hs h (fun _ => holdStage_feeding _ _ _ _)
  | pressRunoutExpiry => exact event_feeds_still hs h completePress_feeding
  | condLow => exact event_feeds_still hs h condLow_feeding
  | overloadTimerExpiry loop => exact event_feeds_still hs h (fun _ => overloadExpiry_feeding _ _)
  | dumpRunoutExpiry stage => exact event_feeds_still hs h (fun _ => completeStageDump_feeding _ _)
  | finishedDumpTimerExpiry => exact event_feeds_still hs h (fun _ => rfl)
  | fillTimerExpiry => exact event_feeds_still hs h (fun _ => rfl)
  | baggerSettleTimeout => exact event_feeds_still hs h bucketTimeout_feeding
  | baggerJogTimerExpiry => exact event_feeds_still hs h (fun _ => rfl)
  | dischargeTimerExpiry => exact event_feeds_still hs h (fun _ => rfl)
  | contentionTimerExpiry => exact event_feeds_still hs h (fun _ => rfl)
  | renewalTimerExpiry => exact event_feeds_still hs h renewHold_feeding
  | loadoutSettleTimeout => exact event_feeds_still hs h endStep_feeding
  | flashTimerExpiry lamp =>
    have h : execFlashTimerExpiry lamp s = .next t := h
    unfold execFlashTimerExpiry at h
    split at h
    · exact event_feeds_still hs h (toggleLamp_feeding lamp)
    · split at h <;> injection h with h <;> subst h
      · exact FeedLaw.still ((drive_feeding _).trans (toggleLamp_feeding lamp s)) hs
      · exact hs

theorem step_feeds (ht : l = .drawn → FeedTimed s) (hs : l.holds s) (h : step s = .next t) : l.holds t := by
  unfold step at h
  split at h
  · injection h with h
    exact h ▸ hs
  · rename_i c rest _
    exact exec_feeds (s := { s with pending := rest }) c ht (feeds_pending s rest hs) h

theorem step_timed (hs : FeedTimed s) (h : step s = .next t) : FeedTimed t := by
  unfold step at h
  split at h
  · injection h with h
    exact h ▸ hs
  · rename_i c rest _
    exact exec_timed (s := { s with pending := rest }) c hs h

/-! ### The channel that is driven -/

theorem feeding_asks (h : s.scale.state.feeding = true) : s.handBarred = true ∧ s.draws = true := by
  unfold State.handBarred State.draws
  cases hst : s.scale.state with
  | feedFast | feedSlow => exact ⟨rfl, rfl⟩
  | jog pulse => exact ⟨rfl, rfl⟩
  | _ =>
    rw [hst] at h
    cases h

theorem channelOutput_driven {c : Channel} (h : channelOutput s c ≠ .off) : s.scale.state.feeding = true
    ∧ ∃ d e b, curDose s = some d ∧ planEntry d.position s = some e ∧ findBin e.bin s = some b
      ∧ b.channel = some c.number := by
  unfold channelOutput at h
  split at h
  · rename_i hc
    unfold channelInUse at hc
    obtain ⟨x, hx, hnumber⟩ := Option.map_eq_some_iff.1 hc
    obtain ⟨d, hd, hx⟩ := Option.bind_eq_some_iff.1 hx
    unfold doseChannel at hx
    obtain ⟨e, he, hx⟩ := Option.bind_eq_some_iff.1 hx
    unfold channelOfBin at hx
    obtain ⟨b, hb, hx⟩ := Option.bind_eq_some_iff.1 hx
    obtain ⟨n, hn, hx⟩ := Option.bind_eq_some_iff.1 hx
    have hfound : x.number = n := by simpa using List.find?_some hx
    exact ⟨(feedRate_ne_off_iff s).1 h, d, e, b, hd, he, hb, by rw [hn, ← hfound, hnumber]⟩
  · exact absurd rfl h

/-- R46: a channel is driven from a bin whose quarantine is OFF. -/
theorem channelOutput_open {c : Channel} (hs : DrawsFromOpenBin s) (h : channelOutput s c ≠ .off) : ∃ d e b,
    curDose s = some d ∧ planEntry d.position s = some e ∧ findBin e.bin s = some b ∧ b.channel = some c.number
      ∧ b.quarantine = .off := by
  obtain ⟨hf, d, e, b, hd, he, hb, hc⟩ := channelOutput_driven h
  obtain ⟨hbarred, hdraws⟩ := feeding_asks hf
  obtain ⟨-, -, hhand, hfed, -, -⟩ := hs
  have hm : d.mode ≠ some .hand := fun hm => by
    rw [hhand d hd hm] at hbarred
    cases hbarred
  obtain ⟨e', he', -, hoff⟩ := hfed d hd hm hdraws
  rw [he] at he'
  cases he'
  exact ⟨d, e, b, hd, he, hb, hc, hoff b hb⟩

/-- Settles O59: each operation of each command keeps the three laws; the law of the bins through `OpenDraws`, which asks it of
every dose record in progress. -/
theorem feedersStayLawful : Obligations.FeedersStayLawful := by
  refine ⟨fun s t hs h => step_feeds (l := .driven) nofun hs h, ⟨fun s t hk hw hs h => ?_, fun s c => channelOutput_open⟩,
    fun s t hs h => step_feeds (l := .emptied) nofun hs h⟩
  have ht : FeedTimed s := by
    obtain ⟨-, -, -, -, htimed⟩ := hs
    exact htimed
  have ho : OpenDraws t := step_feeds (l := .drawn) (fun _ => ht) (hs.openDraws hk hw) h
  exact ho.drawsFromOpenBin (step_timed ht h)

end Sys2Proof.Machine
end

