-- ==== Sys2Proof/Proofs/QuarantineCuts.lean ====
section
/-! SUPPORT. R46, R47, R77: what a QUARANTINE does to a component that it cuts, and to one that it spares. -/
namespace Sys2Proof.Machine

/-! ### A partial report (R47, R77) -/

section Partial
variable {s : State} {d : Dose} {e : PlanEntry}

theorem actualOf_untared (s : State) (h : d.tare = none) : actualOf d s = 0 := by
  unfold actualOf gainOf
  rw [h]

theorem actualOf_tared {t w : Int} (ht : d.tare = some t) (hw : s.scaleConv.weight = some w) :
    (actualOf d s : Int) = min 16777215 (max 0 (w - t - d.reported)) := by
  refine actualOf_eq ?_
  unfold gainOf
  rw [ht, hw]

/-- R47, R77: the dose record as the partial report leaves it. -/
def Dose.cut (a : Nat) (d : Dose) : Dose :=
  { d with reported := satMass (d.reported + a), announced := false, interrupted := true }

theorem partialReport_eq (he : planEntry d.position s = some e) : partialReport d s =
    updDose d.position (Dose.cut (actualOf d s)) (reportPartial d.position e.bin (actualOf d s)
      (queueFrame (.drawReport (scaleNumber s) e.bin (actualOf d s)) s)) := by
  unfold partialReport
  rw [he]
  rfl

theorem partialReport_bins (he : planEntry d.position s = some e) :
    (partialReport d s).bins = s.bins.map (fun b => if b.bin = e.bin then subEstimate (actualOf d s) b else b) := by
  rw [partialReport_eq he, queueFrame_only]
  rfl

theorem partialReport_holdSet (he : planEntry d.position s = some e) :
    (partialReport d s).scale.holdSet = s.scale.holdSet := by
  rw [partialReport_eq he, queueFrame_only]
  rfl

theorem partialReport_tx (he : planEntry d.position s = some e) (h : s.tx.length < 8) : (partialReport d s).tx =
    s.tx ++ [OutEntry.fresh (.drawReport (scaleNumber s) e.bin (actualOf d s))] := by
  rw [partialReport_eq he]
  exact queueFrame_tx_room h

theorem partialReport_entry (he : planEntry d.position s = some e) : planEntry d.position (partialReport d s) =
    some { e with drawn := satMass (e.drawn + actualOf d s), status := .planned } := by
  rw [partialReport_eq he, planEntry_updDose]
  unfold reportPartial
  rw [queueFrame_only]
  refine (planEntry_updPlanEntry_self ?_ _).trans (congrArg (Option.map _) he)
  exact fun _ => rfl

/-- A dose record that is changed but not its status is still the one in progress. -/
theorem curDose_updDose {f : Dose → Dose} (hf : ∀ d, (f d).status = d.status) (hd : curDose s = some d) :
    curDose (updDose d.position f s) = some (f d) := by
  rw [curDose_eq] at hd ⊢
  rw [dosesOf_updDose, List.find?_map]
  have hsame : (fun y => decide (y.status = .inProgress)) ∘ (fun x => if x.position = d.position then f x else x)
      = fun y : Dose => decide (y.status = .inProgress) := by
    funext x
    simp only [Function.comp]
    split
    · rw [hf]
    · rfl
  rw [hsame, hd]
  exact congrArg some (if_pos rfl)

theorem curDose_congr {t : State} (h : dosesOf t = dosesOf s) : curDose t = curDose s := by
  rw [curDose_eq, curDose_eq, h]

theorem partialReport_curDose (hd : curDose s = some d) (he : planEntry d.position s = some e) :
    curDose (partialReport d s) = some (d.cut (actualOf d s)) := by
  rw [partialReport_eq he]
  refine curDose_updDose (f := Dose.cut (actualOf d s)) (fun _ => rfl) ((curDose_congr ?_).trans hd)
  rw [queueFrame_only]
  rfl

end Partial

/-! ### A cut (R77) -/

section Cut
variable {s : State} {d : Dose} {e : PlanEntry}

theorem mem_holdSet_holdScale {k j : FaultKey} {detail : List DetailField} {r : ResumePoint} :
    j ∈ (holdScale k detail r s).scale.holdSet ↔ j = k ∨ j ∈ s.scale.holdSet := by
  unfold holdScale
  rw [raiseFault_only]
  dsimp only
  split
  · rename_i h
    have hk : k ∈ s.scale.holdSet := by simpa using h
    exact ⟨.inr, fun hj => hj.elim (fun he => he ▸ hk) id⟩
  · rw [List.mem_append, List.mem_singleton, or_comm]

theorem standing_cutFeed (d : Dose) (bin : Nat) (s : State) : standing .quarantineCut (cutFeed d bin s) = true :=
  raiseFault_standing ..

theorem cutFeed_tx (he : planEntry d.position s = some e) (h : s.tx.length < 8) : ∃ rest, (cutFeed d e.bin s).tx =
    s.tx ++ OutEntry.fresh (.drawReport (scaleNumber s) e.bin (actualOf d s)) :: rest := by
  obtain ⟨rest, hrest⟩ := raiseFault_txExtends .quarantineCut (scaleRef (partialReport d s))
    [.byte e.bin, .mass (actualOf d s)] (partialReport d s)
  refine ⟨rest, hrest.trans ?_⟩
  rw [partialReport_tx he h, List.append_assoc]
  rfl

theorem cutFeed_holdSet (he : planEntry d.position s = some e) (k : FaultKey) :
    k ∈ (cutFeed d e.bin s).scale.holdSet ↔ k = .quarantineCut ∨ k ∈ s.scale.holdSet := by
  rw [← partialReport_holdSet he]
  exact mem_holdSet_holdScale (r := .rechoose)

theorem cutFeed_bins (he : planEntry d.position s = some e) : (cutFeed d e.bin s).bins =
    s.bins.map (fun b => if b.bin = e.bin then subEstimate (actualOf d s) b else b) :=
  (holdScale_bins _ _ .rechoose _).trans (partialReport_bins he)

theorem cutFeed_entry (he : planEntry d.position s = some e) : planEntry d.position (cutFeed d e.bin s) =
    some { e with drawn := satMass (e.drawn + actualOf d s), status := .planned } := by
  rw [← partialReport_entry he]
  exact congrArg (fun p : Option DrawPlan => p.bind (DrawPlan.entry d.position)) (holdScale_plan _ _ .rechoose _)

theorem cutFeed_curDose (hd : curDose s = some d) (he : planEntry d.position s = some e) :
    curDose (cutFeed d e.bin s) = some (d.cut (actualOf d s)) :=
  (curDose_congr (holdScale_doses _ _ .rechoose _)).trans (partialReport_curDose hd he)

theorem cutFeed_cuttable (d : Dose) (bin : Nat) (s : State) : (cutFeed d bin s).cuttable = false := rfl

end Cut

/-! ### The list told to the Dosing Unit (R46) -/

section Told
variable {before s : State}

theorem cutBins_uncuttable (h : s.cuttable = false) (bins : List Nat) : cutBins before bins s = s := by
  induction bins with
  | nil => rfl
  | cons bin bins ih =>
    unfold cutBins
    rw [quarantineNotice_spared (fun _ _ _ => h), ite_self, ih]

/-- No bin of the list that has turned ON is drawn from in a state that is cut. -/
theorem cutBins_spared {bins : List Nat} (h : ∀ bin ∈ bins, quarantined bin s = true → quarantined bin before = false →
    ∀ d e, DrawsFrom bin d e s → s.cuttable = false) : cutBins before bins s = s := by
  induction bins with
  | nil => rfl
  | cons bin bins ih =>
    have hhead : (if quarantined bin s && !quarantined bin before then quarantineNotice bin s else s) = s := by
      split
      · rename_i ht
        obtain ⟨hon, hoff⟩ := Bool.and_eq_true_iff.1 ht
        exact quarantineNotice_spared (h bin List.mem_cons_self hon (by simpa using hoff))
      · rfl
    unfold cutBins
    rw [hhead]
    exact ih fun b hb => h b (List.mem_cons_of_mem _ hb)

/-- The component in progress draws from one bin: the first of the list to name it cuts, the rest find the unit held. -/
theorem cutBins_cut {bin : Nat} {bins : List Nat} {d : Dose} {e : PlanEntry} (hd : DrawsFrom bin d e s)
    (hc : s.cuttable = true) (hon : quarantined bin s = true) (hoff : quarantined bin before = false) (hm : bin ∈ bins) :
    cutBins before bins s = cutFeed d bin s := by
  induction bins with
  | nil => cases hm
  | cons b bins ih =>
    unfold cutBins
    by_cases hb : b = bin
    · subst hb
      rw [hon, hoff, quarantineNotice_cut hd hc]
      exact cutBins_uncuttable (cutFeed_cuttable d b s) bins
    · obtain ⟨hcur, hentry, hbin, -⟩ := hd
      have hother : quarantineNotice b s = s := quarantineNotice_spared fun d' e' hd' => by
        obtain ⟨hcur', hentry', hbin', -⟩ := hd'
        rw [hcur] at hcur'
        cases hcur'
        rw [hentry] at hentry'
        cases hentry'
        exact absurd (hbin'.symm.trans hbin) hb
      rw [hother, ite_self]
      exact ih ((List.mem_cons.1 hm).resolve_left (Ne.symm hb))

theorem quarantined_iff {bin : Nat} : quarantined bin s = true ↔ ∃ q, findBin bin s = some q ∧ q.quarantine = .on := by
  unfold quarantined
  cases findBin bin s with
  | none => simp
  | some q => simp

theorem quarantined_pairs_iff {bin : Nat} {pairs : List (Nat × Nat)} : quarantined bin (quarantinePairs pairs s) = true ↔
    ∃ q, findBin bin s = some q ∧ quarantineAfter bin pairs q.quarantine = .on := by
  have hfind : findBin bin (quarantinePairs pairs s) =
      (findBin bin s).map (fun e => { e with quarantine := quarantineAfter e.bin pairs e.quarantine }) := by
    rw [quarantinePairs_eq]
    exact List.find?_map ..
  rw [quarantined_iff, hfind]
  constructor
  · rintro ⟨q, hq, hon⟩
    obtain ⟨x, hx, rfl⟩ := Option.map_eq_some_iff.1 hq
    have hbin : x.bin = bin := by simpa using List.find?_some hx
    exact ⟨x, hx, hbin ▸ hon⟩
  · rintro ⟨q, hq, hon⟩
    have hbin : q.bin = bin := by simpa using List.find?_some hq
    exact ⟨_, Option.map_eq_some_iff.2 ⟨q, hq, rfl⟩, hbin.symm ▸ hon⟩

/-- The component in progress draws from a bin that the list turns ON. -/
def Reached (pairs : List (Nat × Nat)) (d : Dose) (e : PlanEntry) (s : State) : Prop :=
  curDose s = some d ∧ planEntry d.position s = some e ∧ e.status = .drawing
    ∧ ∃ q, findBin e.bin s = some q ∧ q.quarantine ≠ .on ∧ quarantineAfter e.bin pairs q.quarantine = .on

theorem quarantined_false {bin : Nat} {q : BinEntry} (hq : findBin bin s = some q) (hn : q.quarantine ≠ .on) :
    quarantined bin s = false := by
  unfold quarantined
  rw [hq]
  exact decide_eq_false hn

/-- No bin is told, or the unit stands where nothing is cut. -/
theorem takeQuarantine_spared {pairs : List (Nat × Nat)} (h : ∀ d e, Reached pairs d e s → s.cuttable = false) :
    takeQuarantine pairs s = quarantinePairs pairs s := by
  refine cutBins_spared fun bin _ hon hoff d e hd => ?_
  obtain ⟨q, hq, hafter⟩ := quarantined_pairs_iff.1 hon
  have hbefore : q.quarantine ≠ .on := fun hq' => by
    rw [quarantined_iff.2 ⟨q, hq, hq'⟩] at hoff
    cases hoff
  rw [quarantinePairs_eq] at hd ⊢
  obtain ⟨hcur, he, rfl, hs⟩ := hd
  exact h d e ⟨hcur, he, hs, q, hq, hbefore, hafter⟩

theorem takeQuarantine_cut {pairs : List (Nat × Nat)} {d : Dose} {e : PlanEntry} (h : Reached pairs d e s)
    (hc : s.cuttable = true) : takeQuarantine pairs s = cutFeed d e.bin (quarantinePairs pairs s) := by
  obtain ⟨hcur, he, hs, q, hq, hbefore, hafter⟩ := h
  have hmem : e.bin ∈ pairs.map Prod.fst :=
    ((quarantineAfter_cases e.bin pairs q.quarantine).resolve_left fun h => hbefore (h ▸ hafter)).1
  have hdraws : DrawsFrom e.bin d e (quarantinePairs pairs s) := by
    rw [quarantinePairs_eq]
    exact ⟨hcur, he, rfl, hs⟩
  refine cutBins_cut hdraws ?_ (quarantined_pairs_iff.2 ⟨q, hq, hafter⟩) (quarantined_false hq hbefore) hmem
  rw [quarantinePairs_eq]
  exact hc

/-- The list changes the bins, and nothing that the cut reads of the component. -/
theorem quarantinePairs_unit (pairs : List (Nat × Nat)) (s : State) (d : Dose) :
    curDose (quarantinePairs pairs s) = curDose s
      ∧ planEntry d.position (quarantinePairs pairs s) = planEntry d.position s
      ∧ actualOf d (quarantinePairs pairs s) = actualOf d s ∧ scaleNumber (quarantinePairs pairs s) = scaleNumber s := by
  rw [quarantinePairs_eq]
  exact ⟨rfl, rfl, rfl, rfl⟩

/-- The states of the statement. -/
theorem cuttable_iff (s : State) : s.cuttable = true ↔
    s.scale.state ∈ [.tare, .feedFast, .feedSlow, .jog false, .jog true, .settle .first, .settle .jog, .settle .resume]
      ∨ (s.scale.state = .held ∧ s.scale.resume ∈ [some .resumeSettle, some (.tare false), some (.tare true)]) := by
  unfold State.cuttable
  cases hst : s.scale.state with
  | jog pulse => cases pulse <;> simp
  | settle p => cases p <;> simp
  | _ => simp

end Told

/-! ### The payload (R194) -/

/-- R46: the bytes of a QUARANTINE read back, however many its pairs. -/
theorem becomes_quarantine {s s1 : State} {f : RawFrame} {pairs : List (Nat × Nat)}
    (hpairs : ∀ p ∈ pairs, p.1 < 256 ∧ p.2 < 256) (hp : f.payload = (pairs.map (fun p => be1 p.1 ++ be1 p.2)).flatten)
    (h : Arrives .binView 0x08 f s s1) : Becomes .quarantine s (takeQuarantine pairs s1) := by
  have hf : Becomes .quarantine s (takeQuarantine (pairsOf 1 (f.payload.length / 2) f.payload) s1) := frameEvent_arrives h _
  have hlen : f.payload.length / 2 = pairs.length := by
    rw [hp]
    simp [List.length_flatten, Function.comp_def]
  have hread := pairsOf_flatten 1 be1 be1_length pairs (fun p h => (hpairs p h).1) (fun p h => beNat_be1 p.2 (hpairs p h).2)
  rwa [hlen, hp, hread] at hf

/-! ### The obligation -/

/-- Settles O18: the bins once the list stands, the notices of the list one by one, and the cut of R77. -/
theorem quarantineSetsBinsAndCuts : Obligations.QuarantineSetsBinsAndCuts := by
  unfold Obligations.QuarantineSetsBinsAndCuts
  intro s s1 f pairs _ hpairs hp ha
  have hbecomes := becomes_quarantine hpairs hp ha
  obtain ⟨rx, rfl⟩ := arrives_rx ha
  have hcuttable := cuttable_iff { s with rx := rx }
  refine ⟨fun hspared => ?_, fun d e hreached hdraws => ⟨_, hbecomes, ?_⟩⟩
  · have hu : takeQuarantine pairs { s with rx := rx } = quarantinePairs pairs { s with rx := rx } :=
      takeQuarantine_spared fun d e hr => Bool.eq_false_iff.2 fun hc =>
        hspared.elim (fun hnot => hnot d e hr) (fun hno => (hcuttable.1 hc).elim hno.1 hno.2)
    rwa [hu, quarantinePairs_eq] at hbecomes
  · rw [takeQuarantine_cut (s := { s with rx := rx }) hreached (hcuttable.2 hdraws)]
    obtain ⟨hcur, he, -⟩ := hreached
    obtain ⟨hcur', he', hactual, hnumber⟩ := quarantinePairs_unit pairs { s with rx := rx } d
    have hcur' := hcur'.trans hcur
    have he' := he'.trans he
    have hactual : actualOf d (quarantinePairs pairs { s with rx := rx }) = actualOf d s := hactual
    have hnumber : scaleNumber (quarantinePairs pairs { s with rx := rx }) = scaleNumber s := hnumber
    refine ⟨actualOf_untared s, fun t w => actualOf_tared, ?_, rfl, rfl, fun k => ?_, standing_cutFeed .., rfl,
      fun hroom => ?_, ?_, ?_⟩
    · rw [cutFeed_bins he', hactual, quarantinePairs_eq]
      rfl
    · rw [cutFeed_holdSet he', quarantinePairs_eq]
    · have htx : (quarantinePairs pairs { s with rx := rx }).tx = s.tx := by rw [quarantinePairs_eq]
      have hcut := cutFeed_tx he' (by rwa [htx])
      rwa [htx, hnumber, hactual] at hcut
    · rw [cutFeed_entry he', hactual, satMass_eq]
    · rw [cutFeed_curDose hcur' he', hactual]
      unfold Dose.cut
      rw [satMass_eq]

end Sys2Proof.Machine
end

