-- ==== Sys2Proof/Proofs/ComponentStarts.lean ====
section
/-! SUPPORT. R56, R57, R65, R66, R76: a batch taken into the scale, the components of target 0 that are passed, and the
component that goes to work, by its ingredient, its channel's minimum and its bin. -/
namespace Sys2Proof.Machine

/-! ### Passing components (R66) -/

section Passing
variable {s : State} {d : Dose} {e : PlanEntry}

/-- The components that wait. -/
def waitingDoses (s : State) : List Dose := (dosesOf s).filter (fun y => decide (y.status = .waiting))

theorem nextWaiting_of_none_waits (h : waitingDoses s = []) : nextWaiting s = none := by
  rw [nextWaiting_eq, List.find?_eq_none]
  exact List.filter_eq_nil_iff.1 h

/-- R66: the component as it is passed, its target being 0. -/
def passedDose (d : Dose) (s : State) : State := updDose d.position (fun x => { x with mode := some .nothing, status := .done }) s

theorem answerZero_planned (he : planEntry d.position s = some e) : answerZero d s =
    updDose d.position (fun x => { x with announced := false })
      (queueFrame (.drawReport (scaleNumber s) e.bin 0) s) := by
  unfold answerZero
  rw [he]

theorem answerZero_unplanned (he : planEntry d.position s = none) : answerZero d s = s := by
  unfold answerZero
  rw [he]

theorem answerZero_waiting (d : Dose) (s : State) : (waitingDoses (answerZero d s)).length = (waitingDoses s).length := by
  cases he : planEntry d.position s with
  | none => rw [answerZero_unplanned he]
  | some e =>
    rw [answerZero_planned he]
    unfold waitingDoses
    rw [dosesOf_updDose, queueFrame_doses, List.filter_map, List.length_map]
    refine congrArg (fun q => (List.filter q (dosesOf s)).length) (funext fun x => ?_)
    simp only [Function.comp]
    split <;> rfl

theorem passedDose_waiting (hd : nextWaiting s = some d) :
    (waitingDoses (passedDose d s)).length < (waitingDoses s).length := by
  obtain ⟨hm, hw⟩ := nextWaiting_mem hd
  have hafter : (waitingDoses (passedDose d s)).length
      = ((waitingDoses s).filter (fun x => decide (x.position ≠ d.position))).length := by
    unfold waitingDoses passedDose
    rw [dosesOf_updDose, List.filter_map, List.length_map, List.filter_filter]
    refine congrArg (fun q => (List.filter q (dosesOf s)).length) (funext fun x => ?_)
    by_cases hx : x.position = d.position <;> simp [hx]
  rw [hafter, List.length_filter_lt_length_iff_exists]
  exact ⟨d, List.mem_filter.2 ⟨hm, decide_eq_true hw⟩, by simp⟩

/-- A bound that lets every waiting component be passed is as good as another. -/
theorem startNext_bound (k m : Nat) (hk : (waitingDoses s).length ≤ k) (hm : (waitingDoses s).length ≤ m) :
    startNext k s = startNext m s := by
  have none_waits {s : State} (h : (waitingDoses s).length ≤ 0) (j : Nat) : startNext j s = setScale .complete s := by
    cases j with
    | zero => rfl
    | succ j =>
      unfold startNext
      rw [nextWaiting_of_none_waits (List.length_eq_zero_iff.1 (Nat.le_zero.1 h))]
  induction k generalizing m s with
  | zero => rw [none_waits hk, none_waits hk]
  | succ k ih =>
    cases m with
    | zero => rw [none_waits hm, none_waits hm]
    | succ m =>
      unfold startNext
      cases hd : nextWaiting s with
      | none => rfl
      | some d =>
        have hless : (waitingDoses (answerZero d (passedDose d s))).length < (waitingDoses s).length := by
          rw [answerZero_waiting]
          exact passedDose_waiting hd
        dsimp only
        split
        · exact ih m (by unfold passedDose at hless; omega) (by unfold passedDose at hless; omega)
        · rfl

theorem startNext_passed (k : Nat) (hd : nextWaiting s = some d) (h0 : d.target = 0) :
    startNext (k + 1) s = startNext k (answerZero d (passedDose d s)) := by
  rw [startNext, hd]
  exact if_pos h0

/-- R66: a component of target 0 is done at once, and the next one starts. -/
theorem startComponent_passed (hd : nextWaiting s = some d) (h0 : d.target = 0) :
    startComponent s = startComponent (answerZero d (passedDose d s)) := by
  have hle (u : State) : (waitingDoses u).length ≤ doseCount u := by
    rw [doseCount_eq]
    exact List.length_filter_le _ _
  have hless := passedDose_waiting hd
  have hcount := hle s
  have hanswer := answerZero_waiting d (passedDose d s)
  calc startComponent s = startNext ((doseCount s - 1) + 1) s := congrArg (fun k => startNext k s) (by omega)
    _ = startNext (doseCount s - 1) (answerZero d (passedDose d s)) := startNext_passed _ hd h0
    _ = startComponent (answerZero d (passedDose d s)) := startNext_bound _ _ (by omega) (hle _)

end Passing

/-! ### The component that goes to work (R57, R66) -/

section Work
variable {s : State} {d : Dose} {e : PlanEntry} {b : BinEntry}

/-- R66: the component goes to work. -/
def begun (d : Dose) (s : State) : State := updDose d.position (fun x => { x with status := .inProgress }) s

theorem begun_curDose (hn : ((dosesOf s).map Dose.position).Nodup) (hc : curDose s = none) (hd : d ∈ dosesOf s) :
    curDose (begun d s) = some { d with status := .inProgress } := by
  have hidle : ∀ x ∈ dosesOf s, x.status ≠ .inProgress := fun x hx => by
    rw [curDose_eq, List.find?_eq_none] at hc
    simpa using hc x hx
  have hkey : (dosesOf s).find? ((fun y => decide (y.status = .inProgress)) ∘ fun x =>
        if x.position = d.position then { x with status := .inProgress } else x)
      = (dosesOf s).find? (fun x => decide (x.position = d.position)) := by
    refine List.find?_congr fun x hx => ?_
    simp only [Function.comp]
    split
    · rename_i hp
      simp [hp]
    · rename_i hp
      simp [hp, hidle x hx]
  rw [curDose_eq]
  unfold begun
  rw [dosesOf_updDose, List.find?_map, hkey, find?_key hn hd]
  exact congrArg some (if_pos rfl)

/-- R66: the component with the mode it is to be dosed in. -/
def withMode (m : DoseMode) (d : Dose) : Dose := { d with mode := some m }

theorem startDose_hand (h : 61440 ≤ d.ingredient) : startDose d s =
    setScale .tare (updDose d.position (withMode .hand) (begun d s)) :=
  if_pos (decide_eq_true h)

theorem smallDose_iff (d : Dose) (s : State) : smallDose d s = true ↔ ∃ c, doseChannel d s = some c ∧ d.target < c.minDose := by
  unfold smallDose
  cases doseChannel d s with
  | none => simp
  | some c => simp

theorem startDose_small (h : d.ingredient < 61440) (hs : smallDose d s = true) : startDose d s =
    setScale .tare (updDose d.position (withMode .hand) (answerZero d (begun d s))) := by
  have hcode : ¬handCode d.ingredient = true := by
    unfold handCode
    simpa using h
  unfold startDose
  exact (if_neg hcode).trans (if_pos hs)

theorem startDose_fed (h : d.ingredient < 61440) (hs : ¬smallDose d s = true) : startDose d s =
    confirmStart { d with status := .inProgress } (begun d s) := by
  have hcode : ¬handCode d.ingredient = true := by
    unfold handCode
    simpa using h
  unfold startDose
  exact (if_neg hcode).trans (if_neg hs)

/-! #### The bin confirmed (R57) -/

theorem confirmBin_eligible (he : planEntry d.position s = some e) (hb : findBin e.bin s = some b)
    (hel : eligible e.ingredient b = true) : confirmBin d.position s = .same := by
  unfold confirmBin
  rw [he]
  dsimp only
  rw [hb]
  exact if_pos hel

theorem confirmBin_rechosen (he : planEntry d.position s = some e) (hb : findBin e.bin s = some b)
    (hel : eligible e.ingredient b = false) {c : Nat} (hc : rechoose e s = some c) : confirmBin d.position s = .other c := by
  unfold confirmBin
  rw [he]
  dsimp only
  rw [hb]
  dsimp only
  rw [hel, hc]
  rfl

theorem confirmBin_unsourced (he : planEntry d.position s = some e) (hb : findBin e.bin s = some b)
    (hel : eligible e.ingredient b = false) (hc : rechoose e s = none) : confirmBin d.position s = .noSource := by
  unfold confirmBin
  rw [he]
  dsimp only
  rw [hb]
  dsimp only
  rw [hel, hc]
  rfl

theorem confirmBin_unplanned (he : planEntry d.position s = none) : confirmBin d.position s = .noSource := by
  unfold confirmBin
  rw [he]

theorem moveBin_curDose (hd : curDose s = some d) (he : planEntry d.position s = some e) (bin : Nat) :
    curDose (moveBin d bin s) = some { d with announced := true } := by
  rw [moveBin_eq he]
  refine curDose_updDose (f := fun d => { d with announced := true }) (fun _ => rfl) ((curDose_congr ?_).trans hd)
  exact queueFrame_doses ..

/-- R57: the bin is still eligible. -/
theorem confirmStart_same (hc : confirmBin d.position s = .same) : confirmStart d s = setScale .tare
    (updDose d.position (withMode (feedMode d s)) (updPlanEntry d.position (fun e => { e with status := .drawing }) s)) := by
  unfold confirmStart
  rw [hc]
  rfl

/-- R57: another bin has it. -/
theorem confirmStart_other {c : Nat} (hc : confirmBin d.position s = .other c) : confirmStart d s = setScale .tare
    (updDose d.position (withMode (feedMode d (moveBin d c s))) (moveBin d c s)) := by
  unfold confirmStart
  rw [hc]
  rfl

theorem confirmStart_none (hc : confirmBin d.position s = .noSource) : confirmStart d s =
    holdScale .noSource [.word d.ingredient] (.tare true) (updDose d.position (withMode (feedMode d s)) s) := by
  unfold confirmStart
  rw [hc]
  rfl

/-- R57: no bin has it: the unit is held, to ask again from TARE. -/
theorem confirmStart_unsourced (hr : s.unheld) (hc : confirmBin d.position s = .noSource) :
    (confirmStart d s).scale.state = .held ∧ (confirmStart d s).scale.resume = some (.tare true)
      ∧ .noSource ∈ (confirmStart d s).scale.holdSet ∧ standing .noSource (confirmStart d s) = true := by
  rw [confirmStart_none hc]
  exact ⟨rfl, holdScale_resume_unheld (hr.of_footing (updDose_footing _ _ s)), mem_holdSet_holdScale.2 (.inl rfl),
    raiseFault_standing ..⟩

theorem withMode_curDose (m : DoseMode) (hd : curDose s = some d) :
    curDose (updDose d.position (withMode m) s) = some (withMode m d) := curDose_updDose (fun _ => rfl) hd

theorem confirmStart_curDose (hd : curDose s = some d) (he : planEntry d.position s = some e) :
    ∃ x, curDose (confirmStart d s) = some x ∧ x.position = d.position := by
  cases hc : confirmBin d.position s with
  | same =>
    rw [confirmStart_same hc]
    exact ⟨_, withMode_curDose _ hd, rfl⟩
  | other c =>
    rw [confirmStart_other hc]
    exact ⟨_, withMode_curDose (d := { d with announced := true }) _ (moveBin_curDose hd he c), rfl⟩
  | noSource =>
    rw [confirmStart_none hc]
    exact ⟨_, (curDose_congr (holdScale_doses ..)).trans (withMode_curDose _ hd), rfl⟩

/-- R57, R66: the three answers of the Bin View. -/
theorem confirmStart_confirms (hd : curDose s = some d) (he : planEntry d.position s = some e) (hr : s.unheld) :
    ConfirmsBin d e s (confirmStart d s) := by
  intro b hb
  refine ⟨fun hel => ?_, fun hel c hc => ?_, fun hel hc => confirmStart_unsourced hr (confirmBin_unsourced he hb hel hc)⟩
  · rw [confirmStart_same (confirmBin_eligible he hb hel)]
    refine ⟨rfl, rfl, ?_, fun x hx => ?_⟩
    · refine (planEntry_updPlanEntry_self (f := fun e => { e with status := .drawing }) (fun _ => rfl) s).trans ?_
      rw [he]
      rfl
    · cases (withMode_curDose (s := updPlanEntry d.position _ s) (feedMode d s) hd).symm.trans hx
      rfl
  · rw [confirmStart_other (confirmBin_rechosen he hb hel hc)]
    refine ⟨rfl, moveBin_entry he c, fun hroom => ?_, fun x hx => ?_⟩
    · show (moveBin d c s).tx = _
      rw [moveBin_eq he]
      exact queueFrame_tx_room (s := updPlanEntry d.position _ s) hroom
    · cases (withMode_curDose (d := { d with announced := true }) (feedMode d (moveBin d c s))
        (moveBin_curDose hd he c)).symm.trans hx
      exact ⟨rfl, rfl⟩

/-- R66: the component below the minimum of its channel is added by hand, its announcement answered. -/
theorem startDose_small_planned (h : d.ingredient < 61440) (hs : smallDose d s = true) (he : planEntry d.position s = some e)
    (hd : curDose (begun d s) = some { d with status := .inProgress }) :
    (startDose d s).scale.state = .tare ∧ (startDose d s).plan = s.plan
      ∧ curDose (startDose d s) = some { d with status := .inProgress, mode := some .hand, announced := false }
      ∧ (s.tx.length < 8 → (startDose d s).tx = s.tx ++ [OutEntry.fresh (.drawReport (scaleNumber s) e.bin 0)]) := by
  have hnumber : scaleNumber (begun d s) = scaleNumber s := scaleNumber_updDose ..
  have hplan (b : Body) (u : State) : (queueFrame b u).plan = u.plan := by rw [queueFrame_only]
  rw [startDose_small h hs, answerZero_planned (s := begun d s) he, hnumber]
  refine ⟨rfl, ?_, ?_, fun hroom => ?_⟩
  · rw [setScale_plan, updDose_plan, updDose_plan, hplan]
    rfl
  · have hqueued : curDose (queueFrame (.drawReport (scaleNumber s) e.bin 0) (begun d s)) = _ :=
      (curDose_congr (queueFrame_doses ..)).trans hd
    have hanswered := curDose_updDose (f := fun x => { x with announced := false }) (fun _ => rfl) hqueued
    exact (curDose_congr rfl).trans (withMode_curDose .hand hanswered)
  · rw [setScale_tx, updDose_tx, updDose_tx, queueFrame_tx_room (by exact hroom)]
    rfl

theorem smallDose_planned (hs : smallDose d s = true) : ∃ e, planEntry d.position s = some e := by
  obtain ⟨c, hc, -⟩ := (smallDose_iff d s).1 hs
  unfold doseChannel at hc
  obtain ⟨e, he, -⟩ := Option.bind_eq_some_iff.1 hc
  exact ⟨e, he⟩

/-- The component that has just gone to work is confirmed on the state as it was. -/
theorem confirmsBin_begun {x : Dose} {u : State} (h : ConfirmsBin x e (begun d s) u) : ConfirmsBin x e s u := by
  intro b hb
  obtain ⟨hsame, hother, hnone⟩ := h b hb
  rw [show scaleNumber (begun d s) = scaleNumber s from scaleNumber_updDose ..] at hother
  exact ⟨hsame, hother, hnone⟩

end Work

/-! ### The batch taken (R56, R65) -/

theorem taken_scale (b : Batch) (comps : List Planned) (s : State) : (taken b comps s).scale.batch = some
      { record := b, firstTare := none
        doses := freshDoses (makePlan b.number (decide (b.kind = .flush)) comps s) comps }
    ∧ (taken b comps s).plan = some (makePlan b.number (decide (b.kind = .flush)) comps s) := by
  unfold taken
  dsimp only
  split
  · exact ⟨rfl, rfl⟩
  · rw [queueFrame_only]
    exact ⟨rfl, rfl⟩

theorem taken_tx (b : Batch) (comps : List Planned) (s : State) :
    let p := makePlan b.number (decide (b.kind = .flush)) comps s
    (p.entries = [] → (taken b comps s).tx = s.tx)
      ∧ (p.entries ≠ [] → s.tx.length < 8 → (taken b comps s).tx = s.tx ++
          [OutEntry.fresh (.drawNotice b.number (p.entries.map (fun e => (e.bin, e.target))))]) := by
  unfold taken
  dsimp only
  split
  · rename_i h
    exact ⟨fun _ => rfl, fun hn => absurd (List.isEmpty_iff.1 h) hn⟩
  · rename_i h
    exact ⟨fun he => absurd (List.isEmpty_iff.2 he) h, fun _ hroom => queueFrame_tx_room hroom⟩

/-! ### The obligation -/

/-- Settles O42: the batch as it is taken, the components passed one by one, and the one that starts, case by case. -/
theorem componentsStartAsPlanned : Obligations.ComponentsStartAsPlanned := by
  unfold Obligations.ComponentsStartAsPlanned
  refine ⟨fun b comps s => ?_, fun s hr => ⟨startComponent_last, fun d hnext => ⟨fun h0 => ?_, fun ht hc hk => ?_⟩⟩⟩
  · obtain ⟨hbatch, hplan⟩ := taken_scale b comps s
    obtain ⟨hnone, hsome⟩ := taken_tx b comps s
    refine ⟨taken b comps s, admitToScale_eq b comps s, _, hplan, rfl, decide_eq_true_iff, ?_, hbatch, hnone, hsome⟩
    refine congrArg (fun g => comps.filterMap g) (funext fun c => ?_)
    unfold handCode
    simp only [decide_eq_true_eq]
  · have hpassed := startComponent_passed hnext h0
    refine ⟨fun he => ?_, fun e he => ?_⟩
    · rwa [answerZero_unplanned (s := passedDose d s) he] at hpassed
    · rwa [answerZero_planned (s := passedDose d s) he, show scaleNumber (passedDose d s) = scaleNumber s
        from scaleNumber_updDose ..] at hpassed
  · obtain ⟨hmem, hwait⟩ := nextWaiting_mem hnext
    obtain ⟨-, -, -, -, hpositions, -⟩ := hk
    have hbegun := begun_curDose hpositions hc hmem
    have hsmall := smallDose_iff d s
    dsimp only
    rw [startComponent_next hnext ht]
    refine ⟨fun hhand => ?_, fun hfed hs => ?_, fun hfed hs e he => ?_, fun hfed he => ?_⟩
    · rw [startDose_hand hhand]
      exact ⟨rfl, rfl, rfl, withMode_curDose .hand hbegun⟩
    · obtain ⟨e, he⟩ := smallDose_planned (hsmall.2 hs)
      obtain ⟨htare, hplan, hcur, htx⟩ := startDose_small_planned hfed (hsmall.2 hs) he hbegun
      refine ⟨htare, hplan, hcur, fun e' he' => ?_⟩
      cases he.symm.trans he'
      exact htx
    · rw [startDose_fed hfed (mt hsmall.1 hs)]
      exact ⟨confirmsBin_begun (confirmStart_confirms hbegun he hr), confirmStart_curDose hbegun he⟩
    · have hs : ¬smallDose d s = true := fun hs => by
        obtain ⟨e, he'⟩ := smallDose_planned hs
        rw [he] at he'
        cases he'
      rw [startDose_fed hfed hs]
      obtain ⟨hheld, hresume, -, hstanding⟩ := confirmStart_unsourced (d := { d with status := .inProgress })
        (s := begun d s) hr (confirmBin_unplanned he)
      exact ⟨hheld, hresume, hstanding⟩

end Sys2Proof.Machine
end

