-- ==== Sys2Proof/Proofs/HoldEnds.lean ====
section
/-! SUPPORT. R57, R58, R74, R75, R83, R184: the kinds an ACK acknowledges, and where the Dosing Unit goes on once its hold
set is empty. -/
namespace Sys2Proof.Machine

/-! ### The acknowledgement (R184) -/

theorem mem_freshlyAcked (k : FaultKey) (keys : List FaultKey) (s : State) :
    k ∈ freshlyAcked keys s ↔ k ∈ keys ∧ standing k s = true := by
  rw [standing_iff]
  unfold freshlyAcked
  simp only [List.mem_map, List.mem_filter, Bool.and_eq_true, List.contains_eq_mem, decide_eq_true_eq, Bool.not_eq_true']
  constructor
  · rintro ⟨r, ⟨hr, hk, ha⟩, rfl⟩
    exact ⟨hk, r, hr, rfl, ha⟩
  · rintro ⟨hk, r, hr, rfl, ha⟩
    exact ⟨r, ⟨hr, hk, ha⟩, rfl⟩

theorem acknowledge_eq (keys : List FaultKey) (idle : Bool) (s : State) :
    let told := ackDosing (freshlyAcked keys s)
      { s with faults := s.faults.map (fun r => if r.key ∈ keys then { r with acked := true } else r) }
    acknowledge keys idle s = { told with rx := { told.rx with
      barred := if FaultKey.addressClash ∈ freshlyAcked keys s then idle || told.rx.idle.isSome else told.rx.barred } } := by
  unfold acknowledge
  simp only [List.contains_eq_mem, decide_eq_true_eq]
  split <;> rfl

/-! ### The hold set is empty (R74) -/

section Ends
variable {s : State} {d : Dose} {e : PlanEntry}

/-- The unit as it leaves HELD: nothing holds it, and its resume point is taken. -/
def freed (s : State) : State := released { s with scale := { s.scale with holdSet := [] } }

theorem freed_unheld (s : State) : (freed s).unheld := .inr rfl

theorem ackDosing_last {keys : List FaultKey} (hst : s.scale.state = .held) (hk : ∀ k ∈ s.scale.holdSet, k ∈ keys) :
    ackDosing keys s = leaveHeld { s with scale := { s.scale with holdSet := [] } } := by
  have hrest : s.scale.holdSet.filter (fun k => !keys.contains k) = [] := by
    rw [List.filter_eq_nil_iff]
    intro k hm
    simp [hk k hm]
  unfold ackDosing
  rw [if_pos hst]
  dsimp only
  rw [hrest]
  rfl

theorem leaveHeld_setScale {r : ResumePoint} {st : ScaleState}
    (hst : (r = .idle ∧ st = .idle) ∨ (r = .complete ∧ st = .complete) ∨ (r = .discharge ∧ st = .discharge)
      ∨ (r = .unknown ∧ st = .unknown)) (hr : s.scale.resume = some r) :
    (leaveHeld { s with scale := { s.scale with holdSet := [] } }).scale.state = st := by
  unfold leaveHeld
  dsimp only
  rw [hr]
  obtain ⟨rfl, rfl⟩ | ⟨rfl, rfl⟩ | ⟨rfl, rfl⟩ | ⟨rfl, rfl⟩ := hst <;> rfl

/-- R75: the component accepted. -/
theorem leaveHeld_accept {o : DoseOutcome} (hr : s.scale.resume = some (.accept o)) (hd : curDose s = some d) :
    leaveHeld s = acceptDose o d (released s) := by
  have hcur : curDose (released s) = some d := hd
  unfold released at hcur
  unfold leaveHeld
  rw [hr]
  dsimp only
  rw [hcur]
  rfl

/-- A resume point at which a component goes on. -/
def ResumePoint.goesOn : ResumePoint → Bool
  | .resumeSettle | .handAddSettle | .tare _ | .rechoose => true
  | _ => false

theorem leaveHeld_goesOn {r : ResumePoint} (hr : s.scale.resume = some r) (hg : r.goesOn = true) (hd : curDose s = some d) :
    leaveHeld s = if scaleRework s then closeRework (released s) else resumeComponent r d (released s) := by
  have hcur : curDose (released s) = some d := hd
  unfold released at hcur
  unfold leaveHeld
  rw [hr]
  cases r with
  | resumeSettle | handAddSettle | tare | rechoose =>
    dsimp only
    rw [hcur]
    rfl
  | _ => cases hg

/-- R83: a batch flagged REWORK goes no further. -/
theorem closeRework_complete (s : State) : (closeRework s).scale.state = .complete := rfl

/-- R58, R74: what remains of the component is moved to the bin chosen. -/
theorem rechooseBin_moved {c : Nat} (he : planEntry d.position s = some e) (hc : rechoose e s = some c) :
    (rechooseBin d s).scale.state = (if d.tare.isSome then .settle .resume else .tare)
      ∧ (∃ e1, planEntry d.position (rechooseBin d s) = some e1 ∧ e1.bin = c ∧ e1.status = .drawing)
      ∧ (s.tx.length < 8 →
          (rechooseBin d s).tx = s.tx ++ [OutEntry.fresh (.drawNotice (scaleNumber s) [(c, e.target - e.drawn)])]) := by
  have hmoved : rechooseBin d s = setScale (if d.tare.isSome then .settle .resume else .tare) (moveBin d c s) := by
    unfold rechooseBin
    rw [he, Option.bind_some, hc]
    dsimp only
    split <;> rfl
  have htx (h : s.tx.length < 8) : (moveBin d c s).tx
      = s.tx ++ [OutEntry.fresh (.drawNotice (scaleNumber s) [(c, e.target - e.drawn)])] := by
    rw [moveBin_eq he, updDose_tx, queueFrame_tx_room (by exact h)]
    rfl
  rw [hmoved]
  exact ⟨rfl, ⟨_, moveBin_entry he c, rfl, rfl⟩, htx⟩

theorem rechooseBin_unsourced (hr : s.unheld) (he : planEntry d.position s = some e) (hc : rechoose e s = none) :
    (rechooseBin d s).scale.state = .held ∧ (rechooseBin d s).scale.resume = some .rechoose
      ∧ standing .noSource (rechooseBin d s) = true := by
  unfold rechooseBin
  rw [he, Option.bind_some, hc]
  exact ⟨rfl, holdScale_resume_unheld hr, raiseFault_standing ..⟩

theorem settled_state (d : Dose) (s : State) : (resumeComponent .resumeSettle d s).scale.state =
    if d.tare.isSome then .settle .resume else .tare := by
  show (if d.tare.isSome then setScale (.settle .resume) s else setScale .tare s).scale.state = _
  split <;> rfl

end Ends

/-- Settles O46: the acknowledgement by its keys, then the resume points one by one. -/
theorem holdEndsAtResumePoint : Obligations.HoldEndsAtResumePoint := by
  unfold Obligations.HoldEndsAtResumePoint
  refine ⟨fun keys idle s => ⟨freshlyAcked keys s, fun k => mem_freshlyAcked k keys s, acknowledge_eq keys idle s⟩,
    fun keys s hst hk => ?_⟩
  dsimp only
  rw [ackDosing_last hst hk]
  refine ⟨leaveHeld_setScale (by simp), leaveHeld_setScale (by simp), leaveHeld_setScale (by simp),
    leaveHeld_setScale (by simp), fun d hd => ⟨fun o hr => ?_, fun hw => ?_, fun hw hr => ?_⟩⟩
  · rw [leaveHeld_accept (by exact hr) (by exact hd)]
    cases o <;> rfl
  · have goes {r : ResumePoint} (hr : s.scale.resume = some r) (hg : r.goesOn = true) :
        leaveHeld { s with scale := { s.scale with holdSet := [] } } = resumeComponent r d (freed s) := by
      rw [leaveHeld_goesOn (by exact hr) hg (by exact hd)]
      exact if_neg (by exact Bool.eq_false_iff.1 hw)
    refine ⟨fun hr => ?_, fun hr => ?_, fun hr => ?_, fun hr e he => ?_, fun hr e he => ?_⟩
    · rw [goes hr rfl]
      exact settled_state d _
    · rw [goes hr rfl]
      rfl
    · rw [goes hr rfl]
      rfl
    · rw [goes hr rfl]
      exact confirmStart_confirms (s := freed s) hd he (freed_unheld s)
    · rw [goes hr rfl]
      exact ⟨fun c hc => rechooseBin_moved (s := freed s) he hc, rechooseBin_unsourced (freed_unheld s) he⟩
  · have closed {r : ResumePoint} (hr : s.scale.resume = some r) (hg : r.goesOn = true) :
        (leaveHeld { s with scale := { s.scale with holdSet := [] } }).scale.state = .complete := by
      rw [leaveHeld_goesOn (by exact hr) hg (by exact hd), if_pos (by exact hw)]
      exact closeRework_complete _
    simp only [List.mem_cons, List.not_mem_nil, or_false] at hr
    obtain hr | hr | hr | hr | hr := hr <;> exact closed hr rfl

end Sys2Proof.Machine
end

