-- ==== Sys2Proof/Proofs/TimeSteps.lean ====
section
/-! SUPPORT. R43, R50, R59, R163, R165, R168, R170, R200: the mill clock with the test for missed departures, one second on
the Bin View, and one step of 0.1 s on the bay. -/
namespace Sys2Proof.Machine

/-! ### Missed departures (R163) -/

section Departures
variable {s : State}

/-- R163: the departure of the compartment is missed. -/
theorem departureMissed_iff (t : Truck) (c : Compartment) (s : State) : departureMissed t c s = true ↔
    (∃ id, c.order = some id ∧ holdsOrder id s = true) ∧ c.state ≠ .loaded ∧ c.noted = false
      ∧ ∃ d now, t.departure = some d ∧ s.millTime = some now ∧ d * 60 ≤ now := by
  unfold departureMissed
  cases c.order with
  | none => simp
  | some id =>
    cases t.departure with
    | none => simp
    | some d =>
      cases s.millTime with
      | none => simp
      | some now => simp [and_assoc]

/-- R163: a compartment is noted, and the fault raised. -/
def noteOne (p : Spot) (s : State) : State :=
  raiseFault .missedDeparture p.2.2.order [.byte p.1.truck] (updComp p.1.truck p.2.1 (fun c => { c with noted := true }) s)

theorem noteOne_trucks (p : Spot) (s : State) :
    (noteOne p s).trucks = (updComp p.1.truck p.2.1 (fun c => { c with noted := true }) s).trucks := by
  unfold noteOne
  rw [raiseFault_only]

theorem noteOne_findComp {p : Spot} (h0 : p.2.1 ≠ 0) (i k : Nat) (s : State) : findComp i k (noteOne p s) =
    (findComp i k s).map (fun c => if p.1.truck = i ∧ p.2.1 = k then { c with noted := true } else c) := by
  rw [← findComp_updComp h0]
  unfold findComp findTruck
  rw [noteOne_trucks]

/-- A compartment is noted where the list names it, and stands otherwise. -/
theorem noteMissed_findComp {l : List Spot} (h0 : ∀ p ∈ l, p.2.1 ≠ 0) (i k : Nat) (s : State) :
    findComp i k (noteMissed l s) = (findComp i k s).map
      (fun c => if ∃ p ∈ l, p.1.truck = i ∧ p.2.1 = k then { c with noted := true } else c) := by
  induction l generalizing s with
  | nil =>
    unfold noteMissed
    simp
  | cons p ps ih =>
    have hps := ih (fun q hq => h0 q (List.mem_cons_of_mem _ hq)) (noteOne p s)
    rw [noteOne_findComp (h0 p List.mem_cons_self), Option.map_map] at hps
    refine hps.trans (congrArg (fun g => Option.map g _) (funext fun c => ?_))
    simp only [Function.comp, List.exists_mem_cons_iff]
    by_cases hp : p.1.truck = i ∧ p.2.1 = k
    · simp [hp]
    · simp only [hp, if_false, false_or]

theorem noteMissed_numbers (l : List Spot) (s : State) :
    (noteMissed l s).trucks.map Truck.truck = s.trucks.map Truck.truck := by
  induction l generalizing s with
  | nil => rfl
  | cons p ps ih =>
    refine (ih (noteOne p s)).trans ?_
    rw [noteOne_trucks]
    unfold updComp
    rw [List.map_map]
    refine List.map_congr_left fun t _ => ?_
    simp only [Function.comp]
    split <;> rfl

theorem noteMissed_standing {l : List Spot} (h : l ≠ [] ∨ standing .missedDeparture s = true) :
    standing .missedDeparture (noteMissed l s) = true := by
  induction l generalizing s with
  | nil => exact h.resolve_left (fun hn => hn rfl)
  | cons p ps ih => exact ih (s := noteOne p s) (.inr (raiseFault_standing ..))

/-- The compartments whose departure is missed. -/
def missedSpots (s : State) : List Spot := (allComps s).filter (fun q => departureMissed q.1 q.2.2 s)

theorem mem_missedSpots (p : Spot) (s : State) : p ∈ missedSpots s ↔ p.of s ∧ departureMissed p.1 p.2.2 s = true := by
  unfold missedSpots
  rw [List.mem_filter, mem_allComps]

theorem testDepartures_findComp (hn : (s.trucks.map Truck.truck).Nodup) {t : Truck} (ht : t ∈ s.trucks) {k : Nat}
    {c : Compartment} (hc : t.comp k = some c) : findComp t.truck k (testDepartures s) =
      some (if departureMissed t c s then { c with noted := true } else c) := by
  have htruck : findTruck t.truck s = some t := find?_key hn ht
  have hfind : findComp t.truck k s = some c := by
    unfold findComp
    rw [htruck, Option.bind_some, hc]
  have hiff : (∃ p ∈ missedSpots s, p.1.truck = t.truck ∧ p.2.1 = k) ↔ departureMissed t c s = true := by
    constructor
    · rintro ⟨⟨t', k', c'⟩, hp, htr, rfl⟩
      obtain ⟨⟨ht', hc'⟩, hm⟩ := (mem_missedSpots _ s).1 hp
      cases List.inj_on_of_nodup_map hn ht' ht htr
      cases hc.symm.trans hc'
      exact hm
    · exact fun h => ⟨(t, k, c), (mem_missedSpots (t, k, c) s).2 ⟨⟨ht, hc⟩, h⟩, rfl, rfl⟩
  have h0 : ∀ p ∈ missedSpots s, p.2.1 ≠ 0 := fun p hp hz => by
    obtain ⟨⟨-, hpc⟩, -⟩ := (mem_missedSpots p s).1 hp
    rw [hz] at hpc
    cases hpc
  refine (noteMissed_findComp h0 _ _ s).trans ?_
  rw [hfind, Option.map_some]
  exact congrArg some (if_congr hiff rfl rfl)

theorem exists_spot {t : Truck} (ht : t ∈ s.trucks) {c : Compartment} (hc : c ∈ t.comps) : ∃ k, Spot.of (t, k, c) s := by
  obtain ⟨i, hi⟩ := List.mem_iff_getElem?.1 hc
  refine ⟨i + 1, ht, ?_⟩
  unfold Truck.comp
  rw [if_neg (Nat.succ_ne_zero i)]
  exact hi

theorem testDepartures_standing {t : Truck} (ht : t ∈ s.trucks) {c : Compartment} (hc : c ∈ t.comps)
    (hm : departureMissed t c s = true) : standing .missedDeparture (testDepartures s) = true := by
  obtain ⟨k, hof⟩ := exists_spot ht hc
  exact noteMissed_standing (.inl (List.ne_nil_of_mem ((mem_missedSpots (t, k, c) s).2 ⟨hof, hm⟩)))

theorem testDepartures_none (h : ∀ t ∈ s.trucks, ∀ c ∈ t.comps, departureMissed t c s = false) : testDepartures s = s := by
  have hnone : missedSpots s = [] := List.eq_nil_iff_forall_not_mem.2 fun p hp => by
    obtain ⟨⟨ht, hc⟩, hm⟩ := (mem_missedSpots p s).1 hp
    have hmem : p.2.2 ∈ p.1.comps := by
      unfold Truck.comp at hc
      split at hc
      · cases hc
      · exact List.mem_of_getElem? hc
    rw [h p.1 ht p.2.2 hmem] at hm
    cases hm
  show noteMissed (missedSpots s) s = s
  rw [hnone]
  rfl

end Departures

/-! ### One second (R43, R50, R59, R200) -/

section Second
variable {s : State}

theorem advanceClock_eq {t : Nat} (h : t ≤ 86399) : advanceClock t = nextSecond t := by
  unfold advanceClock nextSecond
  split <;> split <;> omega

theorem secondTick_eq (h : ∀ t, s.millTime = some t → t ≤ 86399) :
    let u : State := { s with
      millTime := s.millTime.map nextSecond
      bins := s.bins.map (fun e => { e with age := min 65535 (e.age + 1)
                                            stale := e.stale || decide (s.params.staleAge < min 65535 (e.age + 1)) })
      peers := (s.peers.map (fun p => { p with age := min 65535 (p.age + 1) })).filter
        (fun p => decide (p.age ≤ s.params.peerDrawAge))
      levels := s.levels.map (fun r => { r with since := min 65535 (r.since + 1) }) }
    secondTick s = if s.millTime.isSome then testDepartures u else u := by
  have hclock : s.millTime.map advanceClock = s.millTime.map nextSecond := by
    cases ht : s.millTime with
    | none => rfl
    | some t => exact congrArg some (advanceClock_eq (h t ht))
  dsimp only
  unfold secondTick
  rw [hclock]
  cases s.millTime <;> rfl

theorem staleDue_of {e : BinEntry} (hf : findBin e.bin s = some e) (hs : e.stale = false)
    (ha : s.params.staleAge < min 65535 (e.age + 1)) : staleDue e.bin s = true := by
  unfold staleDue
  rw [hf]
  dsimp only
  rw [hs]
  exact decide_eq_true ha

theorem peerDue_of {p : PeerDraw} (hp : p ∈ s.peers) (ha : s.params.peerDrawAge < min 65535 (p.age + 1)) :
    peerDue p.node p.batch p.bin s = true := by
  unfold peerDue
  refine List.any_eq_true.2 ⟨p, hp, ?_⟩
  rw [decide_eq_true ha]
  simp [PeerDraw.same]

/-- A command that is its event wherever it is due. -/
theorem event_due {guard : Bool} (h : guard = true) (f : State → State) (s : State) : event guard f s = event true f s := by
  rw [h]

end Second

/-! ### One step of the bay time (R165, R168, R170) -/

section Bay
variable {s : State}

theorem ownHold_tick_eq (h : OwnHold) : h.tick = { h with
    remaining := if h.state = .contending ∨ h.state = .held then h.remaining - 1 else h.remaining } := by
  unfold OwnHold.tick
  split <;> rfl

theorem closeSpout_step (cause : CloseCause) (s : State) : (closeSpout cause s).step =
    s.step.map (fun st => if st.cause = none then { st with cause := some cause } else st) := by
  unfold closeSpout
  cases hstep : s.step with
  | none => exact hstep
  | some st =>
    dsimp only
    rw [Option.map_some]
    split
    · rfl
    · exact hstep

theorem closeSpout_closed (cause : CloseCause) (s : State) : spoutOpen (closeSpout cause s) = false := by
  unfold spoutOpen
  rw [closeSpout_step]
  cases s.step with
  | none => rfl
  | some st =>
    rw [Option.map_some]
    dsimp only
    split
    · rfl
    · rename_i hc
      exact decide_eq_false hc

/-- R165, R168: the timers one step on. -/
def stepped (s : State) : State := { s with
  bays := s.bays.map (fun b => if b.remaining ≤ 1 then { holder := none, remaining := 0 }
    else { b with remaining := b.remaining - 1 })
  hold := { s.hold with
    remaining := if s.hold.state = .contending ∨ s.hold.state = .held then s.hold.remaining - 1 else s.hold.remaining } }

theorem bayTick_eq (s : State) : bayTick s =
    if s.hold.state = .held ∧ (stepped s).hold.remaining ≤ s.params.guardTime then loseHold (stepped s) else stepped s := by
  unfold bayTick
  rw [ownHold_tick_eq]
  rfl

theorem guardDue_of (hheld : s.hold.state = .held) (h : (stepped s).hold.remaining ≤ s.params.guardTime) :
    guardDue s = true := by
  have hleft : (stepped s).hold.remaining = s.hold.remaining - 1 := if_pos (.inr hheld)
  rw [hleft] at h
  unfold guardDue
  rw [decide_eq_true hheld, decide_eq_true (by omega)]
  rfl

/-- R170: the hold is lost. -/
theorem loseHold_lost (s : State) : (loseHold s).bays = s.bays ∧ (loseHold s).hold = OwnHold.blank
    ∧ standing .bayLost (loseHold s) = true ∧ spoutOpen (loseHold s) = false
    ∧ ∀ e ∈ (loseHold s).tx, e.body.kind = 0x0E → e.underWay = true := by
  have hstep : (loseHold s).step = (closeSpout .guard s).step := by
    unfold loseHold
    rw [raiseFault_only]
    rfl
  have hclosed := closeSpout_closed .guard s
  refine ⟨?_, rfl, raiseFault_standing .., ?_, fun e he hk => ?_⟩
  · unfold loseHold
    rw [raiseFault_only, closeSpout_only]
    rfl
  · unfold spoutOpen at hclosed ⊢
    rwa [hstep]
  · obtain ⟨-, hw⟩ := List.mem_filter.1 he
    simpa [hk] using hw

end Bay

/-- Settles O14: the test of the departures compartment by compartment, the second and the bay's step written out. -/
theorem timeStepsAgeAndCountDown : Obligations.TimeStepsAgeAndCountDown := by
  unfold Obligations.TimeStepsAgeAndCountDown
  refine ⟨fun s s1 f t ht hp ha => ?_, fun s hready hfig => ⟨?_, fun e _ hf hs hage => ?_, fun p hp hage => ?_⟩,
    fun s hn => ⟨noteMissed_numbers _ s, fun t ht k c hc => ⟨fun hm => ?_, fun hm => ?_⟩, ?_, fun hnone => ?_⟩,
    fun s hready _ => ⟨?_, fun hheld hguard => ?_, fun bay b hb hr => ?_⟩⟩
  · have h : Becomes .time s (takeTime (field 0 3 f.payload) s1) := frameEvent_arrives ha _
    rwa [hp, field_be3 t ht] at h
  · have h : Becomes .oneSecondEvent s (secondTick s) := event_next _ _ s hready rfl
    obtain ⟨-, -, -, -, -, -, -, -, -, -, -, hclock, -⟩ := hfig
    rwa [secondTick_eq hclock] at h
  · exact event_due (staleDue_of hf hs hage) secondTick s
  · exact event_due (peerDue_of hp hage) secondTick s
  · rw [testDepartures_findComp hn ht hc, if_pos ((departureMissed_iff t c s).2 hm)]
  · rw [testDepartures_findComp hn ht hc, if_neg (mt (departureMissed_iff t c s).1 hm)]
  · rintro ⟨t, ht, c, hc, hm⟩
    exact testDepartures_standing ht hc ((departureMissed_iff t c s).2 hm)
  · exact testDepartures_none fun t ht c hc =>
      Bool.eq_false_iff.2 (mt (departureMissed_iff t c s).1 (hnone t ht c hc))
  · intro hkept
    have hkept : ¬(s.hold.state = .held ∧ (stepped s).hold.remaining ≤ s.params.guardTime) := hkept
    have h : Becomes .bayTimeStep s (bayTick s) := event_next _ _ s hready rfl
    rwa [bayTick_eq, if_neg hkept] at h
  · have h : Becomes .bayTimeStep s (bayTick s) := event_next _ _ s hready rfl
    rw [bayTick_eq, if_pos ⟨hheld, hguard⟩] at h
    obtain ⟨hbays, hblank, hlost, hspout, htx⟩ := loseHold_lost (stepped s)
    exact ⟨_, h, hbays, hblank, hlost, hspout, htx, event_due (guardDue_of hheld hguard) bayTick s⟩
  · refine event_due ?_ bayTick s
    unfold bayDue
    rw [hb]
    exact decide_eq_true hr

end Sys2Proof.Machine
end

