-- ==== Sys2Proof/Proofs/ScaleDump.lean ====
section
/-! SUPPORT. R82: what a dump of the scale does to the dose records, the draw plan, the bins and the frame queue. -/
namespace Sys2Proof.Machine

/-! ### Draw reports (R47) -/

/-- R47: the frame of a report of a bin and an amount. -/
def drawFrame (number : Nat) (r : Nat × Nat) : OutEntry := OutEntry.fresh (.drawReport number r.1 r.2)

/-- The sum of the amounts reported from a bin. -/
def drawnFrom (bin : Nat) (reports : List (Nat × Nat)) : Nat :=
  ((reports.filter (fun r => decide (r.1 = bin))).map Prod.snd).sum

theorem drawnFrom_append (bin : Nat) (r r' : List (Nat × Nat)) :
    drawnFrom bin (r ++ r') = drawnFrom bin r + drawnFrom bin r' := by
  unfold drawnFrom
  rw [List.filter_append, List.map_append, List.sum_append]

/-- A report goes to the frame queue and to the own Bin View. -/
def reportDraw (r : Nat × Nat) (s : State) : State :=
  updBin r.1 (subEstimate r.2) (queueFrame (.drawReport (scaleNumber s) r.1 r.2) s)

/-- R47, R82: draws reported, and nothing done besides that a dump's frame conditions speak of. -/
structure Drawn (reports : List (Nat × Nat)) (s u : State) : Prop where
  tx           : s.tx.length + reports.length ≤ 8 → u.tx = s.tx ++ reports.map (drawFrame (scaleNumber s))
  bins         : u.bins = s.bins.map (fun b => subEstimate (drawnFrom b.bin reports) b)
  record       : scaleRecord u = scaleRecord s
  conv         : u.scaleConv = s.scaleConv
  surge        : u.surge = s.surge
  reservations : u.reservations = s.reservations
  channels     : u.channels = s.channels

theorem subEstimate_zero (b : BinEntry) : subEstimate 0 b = b := by
  unfold subEstimate
  simp only [Nat.sub_zero, Option.map_id']

theorem subEstimate_subEstimate (m n : Nat) (b : BinEntry) : subEstimate n (subEstimate m b) = subEstimate (m + n) b := by
  unfold subEstimate
  simp only [Option.map_map, Function.comp_def, Nat.sub_sub]

theorem Drawn.of_same {s u : State} (htx : u.tx = s.tx) (hbins : u.bins = s.bins) (hrec : scaleRecord u = scaleRecord s)
    (hconv : u.scaleConv = s.scaleConv) (hsurge : u.surge = s.surge) (hres : u.reservations = s.reservations)
    (hch : u.channels = s.channels) : Drawn [] s u where
  tx _ := by rw [htx, List.map_nil, List.append_nil]
  bins := by
    rw [hbins]
    refine ((List.map_congr_left fun b _ => ?_).trans (List.map_id' _)).symm
    exact subEstimate_zero b
  record := hrec
  conv := hconv
  surge := hsurge
  reservations := hres
  channels := hch

theorem Drawn.refl (s : State) : Drawn [] s s := .of_same rfl rfl rfl rfl rfl rfl rfl

theorem Drawn.number {r : List (Nat × Nat)} {s u : State} (h : Drawn r s u) : scaleNumber u = scaleNumber s := by
  unfold scaleNumber scaleRef
  rw [h.record]

theorem Drawn.trans {r r' : List (Nat × Nat)} {s u v : State} (h : Drawn r s u) (h' : Drawn r' u v) :
    Drawn (r ++ r') s v where
  tx hroom := by
    rw [List.length_append] at hroom
    have htx := h.tx (by omega)
    rw [h'.tx (by rw [htx, List.length_append, List.length_map]; omega), htx, h.number, List.map_append, List.append_assoc]
  bins := by
    rw [h'.bins, h.bins, List.map_map]
    refine List.map_congr_left fun b _ => ?_
    rw [drawnFrom_append]
    exact subEstimate_subEstimate ..
  record := h'.record.trans h.record
  conv := h'.conv.trans h.conv
  surge := h'.surge.trans h.surge
  reservations := h'.reservations.trans h.reservations
  channels := h'.channels.trans h.channels

theorem Drawn.updDose {r : List (Nat × Nat)} {s u : State} (h : Drawn r s u) (p : Nat) (f : Dose → Dose) :
    Drawn r s (updDose p f u) := by
  have h' : Drawn [] u (Machine.updDose p f u) := .of_same rfl rfl (scaleRecord_updDose p f u) rfl rfl rfl rfl
  have := h.trans h'
  rwa [List.append_nil] at this

theorem Drawn.updPlanEntry {r : List (Nat × Nat)} {s u : State} (h : Drawn r s u) (p : Nat) (f : PlanEntry → PlanEntry) :
    Drawn r s (updPlanEntry p f u) := by
  have h' : Drawn [] u (Machine.updPlanEntry p f u) := .of_same rfl rfl rfl rfl rfl rfl rfl
  have := h.trans h'
  rwa [List.append_nil] at this

theorem Drawn.closeDose {r : List (Nat × Nat)} {s u : State} (h : Drawn r s u) (d : Dose) : Drawn r s (closeDose d u) :=
  h.updDose d.position _

theorem reportDraw_drawn (r : Nat × Nat) (s : State) : Drawn [r] s (reportDraw r s) where
  tx hroom := queueFrame_tx_room (by exact hroom)
  bins := by
    unfold reportDraw
    rw [updBin_bins, queueFrame_only]
    refine List.map_congr_left fun b _ => ?_
    unfold drawnFrom
    by_cases hb : b.bin = r.1
    · simp [hb]
    · simp [hb, Ne.symm hb, subEstimate_zero]
  record := scaleRecord_queueFrame _ s
  conv := by unfold reportDraw; rw [queueFrame_only]; rfl
  surge := by unfold reportDraw; rw [queueFrame_only]; rfl
  reservations := by unfold reportDraw; rw [queueFrame_only]; rfl
  channels := by unfold reportDraw; rw [queueFrame_only]; rfl

theorem planEntry_reportDraw (p : Nat) (r : Nat × Nat) (s : State) : planEntry p (reportDraw r s) = planEntry p s := by
  unfold reportDraw
  rw [queueFrame_only]
  rfl

theorem dosesOf_reportDraw (r : Nat × Nat) (s : State) : dosesOf (reportDraw r s) = dosesOf s := queueFrame_doses _ s

/-! ### The reports of one component -/

/-- R47: an entry whose draw is complete. -/
def PlanEntry.completed (a : Nat) (e : PlanEntry) : PlanEntry :=
  { e with drawn := min 16777215 (e.drawn + a), status := .done }

/-- A dose record answered whose draw is complete. -/
def completeDraw (position : Nat) (r : Nat × Nat) (s : State) : State :=
  updDose position Dose.answered (updPlanEntry position (PlanEntry.completed r.2) (reportDraw r s))

theorem completeDraw_drawn (p : Nat) (r : Nat × Nat) (s : State) : Drawn [r] s (completeDraw p r s) :=
  ((reportDraw_drawn r s).updPlanEntry p _).updDose p _

theorem planEntry_completeDraw_self (p : Nat) (r : Nat × Nat) (s : State) :
    planEntry p (completeDraw p r s) = (planEntry p s).map (PlanEntry.completed r.2) := by
  rw [← planEntry_reportDraw p r s]
  exact planEntry_updPlanEntry_self (f := PlanEntry.completed r.2) (fun _ => rfl) _

theorem planEntry_completeDraw_other {p q : Nat} (h : q ≠ p) (r : Nat × Nat) (s : State) :
    planEntry p (completeDraw q r s) = planEntry p s := by
  rw [← planEntry_reportDraw p r s]
  exact planEntry_updPlanEntry_other h (f := PlanEntry.completed r.2) (fun _ => rfl) _

theorem reportComplete_queueFrame (p bin a : Nat) (s : State) :
    updDose p Dose.answered (reportComplete p bin a (queueFrame (.drawReport (scaleNumber s) bin a) s))
      = completeDraw p (bin, a) s := by
  unfold reportComplete completeDraw PlanEntry.completed
  simp only [satMass_eq]
  rfl

section One
variable {d : Dose} {s : State} {e : PlanEntry}

theorem completeReport_eq (he : planEntry d.position s = some e) :
    completeReport d s = completeDraw d.position (e.bin, actualOf d s) s := by
  unfold completeReport
  rw [he]
  exact reportComplete_queueFrame ..

theorem completeReport_none (he : planEntry d.position s = none) : completeReport d s = s := by
  unfold completeReport
  rw [he]

theorem zeroReport_silent (ha : d.announced = false) : zeroReport d s = s := by
  unfold zeroReport
  rw [ha]
  rfl

theorem zeroReport_none (ha : d.announced = true) (he : planEntry d.position s = none) :
    zeroReport d s = updDose d.position Dose.answered s := by
  unfold zeroReport
  rw [ha, he]
  rfl

theorem zeroReport_drawing (ha : d.announced = true) (he : planEntry d.position s = some e) (hs : e.status = .drawing) :
    zeroReport d s = completeDraw d.position (e.bin, 0) s := by
  unfold zeroReport
  rw [ha, he, if_pos rfl]
  dsimp only
  rw [if_pos hs]
  exact reportComplete_queueFrame ..

theorem zeroReport_kept (ha : d.announced = true) (he : planEntry d.position s = some e) (hs : e.status ≠ .drawing) :
    zeroReport d s = updDose d.position Dose.answered (reportDraw (e.bin, 0) s) := by
  unfold zeroReport reportDraw
  rw [ha, he, if_pos rfl, updBin_subEstimate_zero]
  dsimp only
  rw [if_neg hs]
  rfl

end One

/-! ### What a dump does to one dose record -/

/-- R82: the component has a tare and is closed with its actual. -/
def Dose.closes (d : Dose) : Bool := d.tare.isSome && decide (d.status ≠ .done)

/-- R82: the report of a dose record at a dump. -/
def dumpReport (s : State) (d : Dose) : Option (Nat × Nat) :=
  (planEntry d.position s).bind (fun e =>
    if d.closes then (if d.fed then some (e.bin, actualOf d s) else none)
    else if d.announced then some (e.bin, 0) else none)

/-- R47, R82: the entry of a dose record once the dump is past it. -/
def dumpEntry (s : State) (d : Dose) (e : PlanEntry) : PlanEntry :=
  if d.closes then (if d.fed then e.completed (actualOf d s) else e)
  else if d.announced ∧ e.status = .drawing then e.completed 0 else e

theorem dumpDose_closes {d : Dose} (h : d.closes = true) (s : State) :
    dumpDose d s = closeDose d (if d.fed then completeReport d s else s) := by
  unfold dumpDose
  exact if_pos (by simpa [Dose.closes] using h)

theorem dumpDose_leaves {d : Dose} (h : d.closes = false) (s : State) : dumpDose d s = zeroReport d s := by
  unfold dumpDose
  exact if_neg (by simpa [Dose.closes] using h)

theorem completeReport_drawn (d : Dose) (s : State) :
    Drawn ((planEntry d.position s).map (fun e => (e.bin, actualOf d s))).toList s (completeReport d s) := by
  cases he : planEntry d.position s with
  | none =>
    rw [completeReport_none he]
    exact .refl s
  | some e =>
    rw [completeReport_eq he]
    exact completeDraw_drawn ..

theorem zeroReport_drawn {d : Dose} (ha : d.announced = true) (s : State) :
    Drawn ((planEntry d.position s).map (fun e => (e.bin, 0))).toList s (zeroReport d s) := by
  cases he : planEntry d.position s with
  | none =>
    rw [zeroReport_none ha he]
    exact (Drawn.refl s).updDose ..
  | some e =>
    by_cases hs : e.status = .drawing
    · rw [zeroReport_drawing ha he hs]
      exact completeDraw_drawn ..
    · rw [zeroReport_kept ha he hs]
      exact (reportDraw_drawn ..).updDose ..

theorem dumpDose_drawn (d : Dose) (s : State) : Drawn (dumpReport s d).toList s (dumpDose d s) := by
  unfold dumpReport
  cases hc : d.closes
  · rw [dumpDose_leaves hc]
    cases ha : d.announced
    · rw [zeroReport_silent ha]
      simpa using Drawn.refl s
    · simpa [Option.map_eq_bind, Function.comp_def] using zeroReport_drawn ha s
  · rw [dumpDose_closes hc]
    cases hf : d.fed
    · simpa using (Drawn.refl s).closeDose d
    · simpa [Option.map_eq_bind, Function.comp_def] using (completeReport_drawn d s).closeDose d

theorem planEntry_dumpDose_self (d : Dose) (s : State) :
    planEntry d.position (dumpDose d s) = (planEntry d.position s).map (dumpEntry s d) := by
  unfold dumpEntry
  cases hc : d.closes
  · rw [dumpDose_leaves hc]
    cases ha : d.announced
    · rw [zeroReport_silent ha]
      simp
    · cases he : planEntry d.position s with
      | none =>
        rw [zeroReport_none ha he, planEntry_updDose, he]
        rfl
      | some e =>
        by_cases hs : e.status = .drawing
        · rw [zeroReport_drawing ha he hs, planEntry_completeDraw_self, he]
          simp [hs]
        · rw [zeroReport_kept ha he hs, planEntry_updDose, planEntry_reportDraw, he]
          simp [hs]
  · rw [dumpDose_closes hc]
    refine (planEntry_updDose ..).trans ?_
    cases hf : d.fed
    · simp
    · cases he : planEntry d.position s with
      | none =>
        rw [if_pos rfl, completeReport_none he, he]
        rfl
      | some e =>
        rw [if_pos rfl, completeReport_eq he, planEntry_completeDraw_self, he]
        rfl

theorem planEntry_dumpDose_other {p : Nat} {d : Dose} (h : d.position ≠ p) (s : State) :
    planEntry p (dumpDose d s) = planEntry p s := by
  cases hc : d.closes
  · rw [dumpDose_leaves hc]
    exact (zeroReport_beside h s).entry
  · rw [dumpDose_closes hc]
    refine (planEntry_updDose ..).trans ?_
    split
    · cases he : planEntry d.position s with
      | none => rw [completeReport_none he]
      | some e => rw [completeReport_eq he, planEntry_completeDraw_other h]
    · rfl

/-! ### What a dump does to all of them -/

theorem actualOf_congr {s u : State} (h : u.scaleConv = s.scaleConv) (d : Dose) : actualOf d u = actualOf d s := by
  unfold actualOf gainOf
  rw [h]

theorem dumpReport_congr {s u : State} {d : Dose} (h : u.scaleConv = s.scaleConv)
    (he : planEntry d.position u = planEntry d.position s) : dumpReport u d = dumpReport s d := by
  unfold dumpReport
  rw [he, actualOf_congr h]

theorem dumpEntry_congr {s u : State} (h : u.scaleConv = s.scaleConv) (d : Dose) : dumpEntry u d = dumpEntry s d := by
  unfold dumpEntry
  rw [actualOf_congr h]

/-- A dose record apart from those still to come leaves their entries and the weight their reports are of. -/
theorem dumpDose_apart {d x : Dose} (h : d.position ≠ x.position) (s : State) :
    dumpReport (dumpDose d s) x = dumpReport s x ∧ dumpEntry (dumpDose d s) x = dumpEntry s x
      ∧ planEntry x.position (dumpDose d s) = planEntry x.position s :=
  have hconv := (dumpDose_drawn d s).conv
  have hentry := planEntry_dumpDose_other h s
  ⟨dumpReport_congr hconv hentry, dumpEntry_congr hconv x, hentry⟩

theorem planEntry_dumpDoses_other {p : Nat} (ds : List Dose) (h : p ∉ ds.map Dose.position) (s : State) :
    planEntry p (dumpDoses ds s) = planEntry p s := by
  induction ds generalizing s with
  | nil => rfl
  | cons d ds ih =>
    rw [List.map_cons, List.mem_cons, not_or] at h
    exact (ih h.2 _).trans (planEntry_dumpDose_other (Ne.symm h.1) s)

theorem dumpDoses_drawn (ds : List Dose) (h : (ds.map Dose.position).Nodup) (s : State) :
    Drawn (ds.filterMap (dumpReport s)) s (dumpDoses ds s) := by
  induction ds generalizing s with
  | nil => exact .refl s
  | cons d ds ih =>
    rw [List.map_cons, List.nodup_cons] at h
    have hrest : ds.filterMap (dumpReport (dumpDose d s)) = ds.filterMap (dumpReport s) :=
      List.filterMap_congr fun x hx =>
        (dumpDose_apart (x := x) (fun hp => h.1 (hp ▸ List.mem_map_of_mem hx)) s).1
    rw [filterMap_cons_toList, ← hrest]
    exact (dumpDose_drawn d s).trans (ih h.2 _)

/-- Whatever the positions, a dump of dose records is a run of reports. -/
theorem dumpDoses_draws (ds : List Dose) (s : State) : ∃ reports, Drawn reports s (dumpDoses ds s) := by
  induction ds generalizing s with
  | nil => exact ⟨[], .refl s⟩
  | cons d ds ih =>
    obtain ⟨reports, h⟩ := ih (dumpDose d s)
    exact ⟨_, (dumpDose_drawn d s).trans h⟩

theorem planEntry_dumpDoses_mem {ds : List Dose} (h : (ds.map Dose.position).Nodup) {d : Dose} (hd : d ∈ ds) (s : State) :
    planEntry d.position (dumpDoses ds s) = (planEntry d.position s).map (dumpEntry s d) := by
  induction ds generalizing s with
  | nil => cases hd
  | cons x ds ih =>
    rw [List.map_cons, List.nodup_cons] at h
    rcases List.mem_cons.1 hd with rfl | hd
    · exact (planEntry_dumpDoses_other ds h.1 _).trans (planEntry_dumpDose_self d s)
    · obtain ⟨-, hentry, hplan⟩ := dumpDose_apart (x := d) (fun hp => h.1 (hp ▸ List.mem_map_of_mem hd)) s
      rw [← hplan, ← hentry]
      exact ih h.2 hd _

/-! ### The dose records that have a tare -/

/-- Every dose record with a tare is done, but for the positions of a list. -/
def TaredDone (waiting : Nat → Prop) (s : State) : Prop :=
  ∀ x ∈ dosesOf s, x.tare.isSome = true → x.status = .done ∨ waiting x.position

section Tared
variable {w : Nat → Prop} {s : State}

theorem TaredDone.updDose (h : TaredDone w s) (p : Nat) {f : Dose → Dose} (hp : ∀ x, (f x).position = x.position)
    (ht : ∀ x, (f x).tare = x.tare) (hs : ∀ x, x.status = .done → (f x).status = .done) :
    TaredDone w (updDose p f s) := by
  intro y hy hy'
  rw [dosesOf_updDose] at hy
  obtain ⟨x, hx, rfl⟩ := List.mem_map.1 hy
  split at hy' <;> rename_i hxp
  · rw [if_pos hxp, hp]
    exact (h x hx (by rwa [ht] at hy')).imp_left (hs x)
  · rw [if_neg hxp]
    exact h x hx hy'

theorem TaredDone.answered (h : TaredDone w s) (p : Nat) : TaredDone w (Machine.updDose p Dose.answered s) :=
  h.updDose p (fun _ => rfl) (fun _ => rfl) (fun _ => id)

theorem TaredDone.congr {u : State} (h : TaredDone w s) (hd : dosesOf u = dosesOf s) : TaredDone w u := by
  unfold TaredDone
  rwa [hd]

theorem TaredDone.completeReport (h : TaredDone w s) (d : Dose) : TaredDone w (completeReport d s) := by
  cases he : planEntry d.position s with
  | none => rwa [completeReport_none he]
  | some e =>
    rw [completeReport_eq he]
    exact TaredDone.answered (h.congr (dosesOf_reportDraw _ s)) _

theorem TaredDone.zeroReport (h : TaredDone w s) (d : Dose) : TaredDone w (zeroReport d s) := by
  cases ha : d.announced
  · rwa [zeroReport_silent ha]
  · cases he : planEntry d.position s with
    | none =>
      rw [zeroReport_none ha he]
      exact h.answered _
    | some e =>
      have hr : TaredDone w (reportDraw (e.bin, 0) s) := h.congr (dosesOf_reportDraw _ s)
      by_cases hs : e.status = .drawing
      · rw [zeroReport_drawing ha he hs]
        exact TaredDone.answered (by exact hr) _
      · rw [zeroReport_kept ha he hs]
        exact hr.answered _

theorem TaredDone.closeDose {d : Dose} (h : TaredDone (fun p => p = d.position ∨ w p) s) : TaredDone w (closeDose d s) := by
  intro y hy hy'
  unfold Machine.closeDose at hy
  rw [dosesOf_updDose] at hy
  obtain ⟨x, hx, rfl⟩ := List.mem_map.1 hy
  split at hy' <;> rename_i hxp
  · exact .inl (by rw [if_pos hxp])
  · rw [if_neg hxp]
    exact (h x hx hy').imp_right fun hw => hw.resolve_left hxp

theorem TaredDone.mono {w' : Nat → Prop} (h : TaredDone w s) (hw : ∀ p, w p → w' p) : TaredDone w' s :=
  fun x hx ht => (h x hx ht).imp_right (hw _)

end Tared

/-- R82: a walk over the dose records that close leaves none of them open. -/
theorem dumpDoses_taredDone (ds : List Dose) {s : State}
    (h : TaredDone (fun p => ∃ d ∈ ds, d.closes = true ∧ p = d.position) s) :
    TaredDone (fun _ => False) (dumpDoses ds s) := by
  induction ds generalizing s with
  | nil => exact h.mono fun p ⟨d, hd, _⟩ => nomatch hd
  | cons d ds ih =>
    refine ih ?_
    cases hc : d.closes
    · rw [dumpDose_leaves hc]
      refine TaredDone.zeroReport (h.mono ?_) d
      rintro p ⟨x, hx, hxc, rfl⟩
      rcases List.mem_cons.1 hx with rfl | hx
      · rw [hc] at hxc
        cases hxc
      · exact ⟨x, hx, hxc, rfl⟩
    · rw [dumpDose_closes hc]
      have h' := h.mono (w' := fun p => p = d.position ∨ ∃ x ∈ ds, x.closes = true ∧ p = x.position) (by
        rintro p ⟨x, hx, hxc, rfl⟩
        exact (List.mem_cons.1 hx).imp (congrArg Dose.position) fun hx => ⟨x, hx, hxc, rfl⟩)
      refine TaredDone.closeDose ?_
      split
      · exact h'.completeReport d
      · exact h'

theorem dumpDoses_tared_done {s : State} {x : Dose} (hx : x ∈ dosesOf (dumpDoses (dosesOf s) s))
    (ht : x.tare.isSome = true) : x.status = .done := by
  refine (dumpDoses_taredDone (dosesOf s) (s := s) (fun y hy hy' => ?_) x hx ht).resolve_right id
  by_cases hs : y.status = .done
  · exact .inl hs
  · exact .inr ⟨y, hy, by simp [Dose.closes, hy', hs], rfl⟩

end Sys2Proof.Machine
end

