-- ==== Sys2Proof/Proofs/Dumps.lean ====
section
/-! SUPPORT. R82, R119, R121: the requests of a dump, and what each dump leaves. -/
namespace Sys2Proof.Machine

/-! ### The requests -/

/-- R179: a frame of a LINE request names this node, or all nodes. -/
theorem namesNode_line {s s1 : State} {fr : RawFrame} {node request : Nat} (hn : node < 256)
    (hp : fr.payload = be1 node ++ be1 request) (ha : Arrives .lineControl 0x12 fr s s1) :
    namesNode s1 fr = true ↔ node = 0 ∨ node = s.straps.node := by
  obtain ⟨rx, rfl⟩ := arrives_rx ha
  unfold namesNode
  rw [hp, byteAt_here_be1 node _ hn]
  simp

/-- R82, R119, R121: a LINE request of the node's own input, and of a frame. -/
theorem line_becomes {c : Origin → Instr} {request : Nat} {f : State → State}
    (hc : ∀ origin s, exec (c origin) s = lineEvent origin request f s) (h1 : 1 ≤ request) (h7 : request ≤ 7) :
    (∀ s, ready s = true → Becomes (c .input) s (f s))
      ∧ ∀ (s s1 : State) (fr : RawFrame) (node : Nat), node < 256 → fr.payload = be1 node ++ be1 request →
        Arrives .lineControl 0x12 fr s s1 →
        (node = 0 ∨ node = s.straps.node → Becomes (c .frame) s (f s1))
        ∧ (node ≠ 0 → node ≠ s.straps.node → Becomes (c .frame) s s1) := by
  refine ⟨fun s hr => (hc .input s).trans (lineEvent_input request f s hr), fun s s1 fr node hn hp ha => ?_⟩
  have hb : byteAt 1 fr.payload = request := by
    rw [hp]
    exact byteAt_at 1 (be1 node) [] request rfl (by omega)
  have hstep := (hc .frame s).trans (lineEvent_arrives ha hb h1 h7 f)
  have hnames := namesNode_line hn hp ha
  refine ⟨fun hn => ?_, fun h0 hs => ?_⟩
  · rwa [if_pos (hnames.2 hn)] at hstep
  · rwa [if_neg fun h => (hnames.1 h).elim h0 hs] at hstep

/-! ### The scale (R82) -/

theorem dumpTaken_iff (s : State) : dumpTaken s = true ↔
    (s.line = .paused ∧ s.scale.state ≠ .discharge ∧ s.scale.state ≠ .dumping)
      ∨ (s.scale.state = .held ∧ (s.line = .run ∨ s.line = .paused)) := by
  simp [dumpTaken, and_assoc]

/-- R82, R105: the scale and SURGE, once the dose records are reported. -/
def startScaleDump (t : State) : State :=
  let v := updRecord Batch.reworked t
  let w : State := { v with scale := { v.scale with state := .dumping, holdSet := [], resume := none } }
  if w.surge.busyWith .receiving then { w with surge := StageRec.ofState .unknown } else w

theorem dumpScaleBatch_eq (s : State) : dumpScaleBatch s = startScaleDump (dumpDoses (dosesOf s) s) := rfl

section Start
variable (t : State)

theorem startScaleDump_only : startScaleDump t =
    { t with scale := (startScaleDump t).scale, surge := (startScaleDump t).surge } := by
  unfold startScaleDump
  dsimp only
  split <;> rfl

theorem startScaleDump_scale : (startScaleDump t).scale =
    { (updRecord Batch.reworked t).scale with state := .dumping, holdSet := [], resume := none } := by
  unfold startScaleDump
  dsimp only
  split <;> rfl

theorem startScaleDump_surge : (startScaleDump t).surge =
    if t.surge.busyWith .receiving then StageRec.ofState .unknown else t.surge := by
  unfold startScaleDump
  exact apply_ite State.surge ..

theorem startScaleDump_record : scaleRecord (startScaleDump t) = (scaleRecord t).map Batch.reworked := by
  rw [← scaleRecord_updRecord]
  unfold scaleRecord
  rw [startScaleDump_scale]

theorem startScaleDump_doses : dosesOf (startScaleDump t) = dosesOf t := by
  rw [← updRecord_doses Batch.reworked t]
  unfold dosesOf
  rw [startScaleDump_scale]

theorem planEntry_startScaleDump (p : Nat) : planEntry p (startScaleDump t) = planEntry p t := by
  rw [startScaleDump_only]
  rfl

end Start

theorem feedRate_dumping {s : State} (h : s.scale.state = .dumping) : feedRate s = .off := by
  unfold feedRate
  rw [h]

/-- R82: what a dump leaves of the scale and of what stands by it. -/
theorem dumpScaleBatch_keeps_drawn {s : State} {reports : List (Nat × Nat)}
    (h : Drawn reports s (dumpDoses (dosesOf s) s)) :
    (s.tx.length + reports.length ≤ 8 → (dumpScaleBatch s).tx = s.tx ++ reports.map (drawFrame (scaleNumber s)))
      ∧ (dumpScaleBatch s).bins = s.bins.map (fun b => subEstimate (drawnFrom b.bin reports) b)
      ∧ scaleRecord (dumpScaleBatch s) = (scaleRecord s).map Batch.reworked
      ∧ (dumpScaleBatch s).surge = (if s.surge.busyWith .receiving then StageRec.ofState .unknown else s.surge)
      ∧ (dumpScaleBatch s).reservations = s.reservations ∧ (dumpScaleBatch s).channels = s.channels := by
  rw [dumpScaleBatch_eq, startScaleDump_surge, startScaleDump_record, startScaleDump_only, h.surge, h.record]
  exact ⟨h.tx, h.bins, rfl, rfl, h.reservations, h.channels⟩

/-- R82, R47: the entry of a dose record, by what becomes of the dose. -/
theorem dumpEntry_cases (s : State) (d : Dose) (e : PlanEntry) :
    (d.closes = true → d.fed = true → dumpEntry s d e = e.completed (actualOf d s))
      ∧ (d.closes = true → d.fed = false → dumpEntry s d e = e)
      ∧ (d.closes = false → d.announced = true → e.status = .drawing → dumpEntry s d e = e.completed 0)
      ∧ (d.closes = false → d.announced = false ∨ e.status ≠ .drawing → dumpEntry s d e = e) := by
  unfold dumpEntry
  refine ⟨fun hc hf => ?_, fun hc hf => ?_, fun hc ha hs => ?_, fun hc h => ?_⟩ <;> rw [hc]
  · rw [hf]
    rfl
  · rw [hf]
    rfl
  · rw [if_neg Bool.false_ne_true, if_pos ⟨ha, hs⟩]
  · rw [if_neg Bool.false_ne_true, if_neg]
    rintro ⟨ha, hs⟩
    exact h.elim (fun hn => Bool.false_ne_true (hn.symm.trans ha)) (fun hn => hn hs)

/-- R82: a dump of the scale, where no two dose records are of one position. -/
theorem dumpScaleBatch_reports {s : State} (h : ((dosesOf s).map Dose.position).Nodup) :
    let reports := (dosesOf s).filterMap (dumpReport s)
    (s.tx.length + reports.length ≤ 8 → (dumpScaleBatch s).tx = s.tx ++ reports.map (drawFrame (scaleNumber s)))
      ∧ (dumpScaleBatch s).bins = s.bins.map (fun b => subEstimate (drawnFrom b.bin reports) b)
      ∧ ∀ d ∈ dosesOf s, ∀ e, planEntry d.position s = some e →
        planEntry d.position (dumpScaleBatch s) = some (dumpEntry s d e) := by
  obtain ⟨htx, hbins, -⟩ := dumpScaleBatch_keeps_drawn (dumpDoses_drawn (dosesOf s) h s)
  refine ⟨htx, hbins, fun d hd e he => ?_⟩
  rw [dumpScaleBatch_eq, planEntry_startScaleDump, planEntry_dumpDoses_mem h hd, he, Option.map_some]

/-! ### The stages (R119) -/

theorem stageDumpTaken_iff (i : StageId) (s : State) : stageDumpTaken i s = true ↔
    (s.line = .paused ∨ ((stageOf i s).state = .held ∧ (s.line = .run ∨ s.line = .paused)))
      ∧ ¬((stageOf i s).state = .busy ∧ (stageOf i s).phase ∈ [some .receiving, some .dumping, some .discharging]) := by
  simp only [stageDumpTaken, StageRec.busyWith, Bool.and_eq_true, Bool.or_eq_true, Bool.not_eq_true', Bool.and_eq_false_iff,
    decide_eq_true_eq, decide_eq_false_iff_not, List.mem_cons, List.not_mem_nil, or_false]
  tauto

theorem stageOf_haltStageLoop (i j : StageId) (s : State) : stageOf i (haltStageLoop j s) = stageOf i s := by
  cases j <;> rfl

theorem stageOf_haltSteamOf (i j : StageId) (s : State) : stageOf i (haltSteamOf j s) = stageOf i s := by
  unfold haltSteamOf
  split <;> rfl

theorem stageOf_dumpStage (i : StageId) (s : State) :
    stageOf i (dumpStage i s) = StageRec.busyIn .dumping (stageOf i s).flag.batch none := by
  unfold dumpStage
  rw [stageOf_haltSteamOf, stageOf_haltStageLoop, stageOf_setStage]

section Receiver
variable {r : StageRec} (s : State)

theorem settleReceiver_mixer (hd : r.dest = some .mixer) (hw : r.within .grinding = true) :
    settleReceiver r s = { s with mixer := StageRec.ofState .unknown } := by
  unfold settleReceiver
  rw [hd]
  exact if_pos hw

theorem settleReceiver_press (hd : r.dest = some .press) (hw : r.within .discharging = true) :
    settleReceiver r s = { s with press := StageRec.ofState .unknown } := by
  unfold settleReceiver
  rw [hd]
  exact if_pos hw

theorem settleReceiver_finished (hd : r.dest = some .finished) (hw : r.within .discharging = true ∨ r.within .pressing = true) :
    settleReceiver r s = { s with fin := { s.fin with entering := false } } := by
  unfold settleReceiver
  rw [hd]
  exact if_pos (Bool.or_eq_true_iff.2 hw)

theorem settleReceiver_train : (settleReceiver r s).train = s.train := by
  unfold settleReceiver
  repeat' split
  all_goals rfl

end Receiver

theorem dumpStage_fin (i : StageId) (s : State) : (dumpStage i s).fin = (settleReceiver (stageOf i s) s).fin := by
  unfold dumpStage haltSteamOf
  split <;> cases i <;> rfl

theorem dumpStage_valve (i : StageId) (s : State) : (dumpStage i s).train.steam.valve = s.train.steam.valve := by
  rw [← settleReceiver_train (r := stageOf i s) s]
  unfold dumpStage haltSteamOf
  split <;> cases i <;> rfl

/-- R119: the finished bin is left by a transfer into it that a dump ends. -/
theorem dumpStage_leaves (i : StageId) {s : State} (hd : (stageOf i s).dest = some .finished)
    (hw : (stageOf i s).within .discharging = true ∨ (stageOf i s).within .pressing = true) :
    (dumpStage i s).fin = { s.fin with entering := false } := by
  rw [dumpStage_fin, settleReceiver_finished s hd hw]

/-! ### The finished bin (R121) -/

theorem finishedDumpTaken_iff (s : State) :
    finishedDumpTaken s = true ↔ s.line = .paused ∧ s.fin.entering = false ∧ s.fin.dumping = false := by
  simp [finishedDumpTaken, and_assoc]

/-! ### The obligation -/

/-- Settles O38: each request by its row of the dispatch, the dump of the scale by the walk over its dose records, the others by
their operations. -/
theorem dumpsAreTakenAndFlagBatches : Obligations.DumpsAreTakenAndFlagBatches := by
  refine ⟨fun c request f hc => ?_, fun s => ⟨dumpTaken_iff s, ?_, fun i => stageDumpTaken_iff i s,
    fun i => ⟨stageOf_dumpStage i s, ?_, ?_, ?_⟩, finishedDumpTaken_iff s, rfl⟩⟩
  · simp only [List.mem_cons, List.not_mem_nil, or_false, Prod.mk.injEq] at hc
    obtain ⟨rfl, rfl, rfl⟩ | ⟨rfl, rfl, rfl⟩ | ⟨rfl, rfl, rfl⟩ | ⟨rfl, rfl, rfl⟩ | ⟨rfl, rfl, rfl⟩ := hc
    all_goals exact line_becomes (fun _ _ => rfl) (by decide) (by decide)
  · obtain ⟨reports, hdrawn⟩ := dumpDoses_draws (dosesOf s) s
    obtain ⟨-, -, hrecord, hsurge, hres, hch⟩ := dumpScaleBatch_keeps_drawn hdrawn
    have hscale := startScaleDump_scale (dumpDoses (dosesOf s) s)
    rw [← dumpScaleBatch_eq] at hscale
    have hstate : (dumpScaleBatch s).scale.state = .dumping := by rw [hscale]
    refine ⟨hstate, by rw [hscale], by rw [hscale], hrecord, fun hb => by rw [hsurge, if_pos hb], hres, hch,
      feedRate_dumping hstate, fun x hx ht => ?_, fun hk => ?_⟩
    · rw [dumpScaleBatch_eq, startScaleDump_doses] at hx
      exact dumpDoses_tared_done hx ht
    · obtain ⟨-, -, -, -, hpos, -⟩ := hk
      obtain ⟨htx, hbins, hentry⟩ := dumpScaleBatch_reports hpos
      refine ⟨htx, hbins, fun d hd e he => ?_⟩
      obtain ⟨hfed, hunfed, hdrawing, hother⟩ := dumpEntry_cases s d e
      have hu := hentry d hd e he
      exact ⟨fun hc hf => ⟨hu.trans (congrArg some (hfed hc hf)), fun t w ht hw => actualOf_tared ht hw⟩,
        fun hc hf => hu.trans (congrArg some (hunfed hc hf)),
        fun hc ha hs => hu.trans (congrArg some (hdrawing hc ha hs)),
        fun hc h => hu.trans (congrArg some (hother hc h))⟩
  · rintro rfl
    exact ⟨rfl, fun hw hd => congrArg State.mixer (settleReceiver_mixer s hd hw)⟩
  · rintro rfl hw
    exact ⟨fun hd => congrArg State.press (settleReceiver_press s hd hw), fun hd => dumpStage_leaves .mixer hd (.inl hw)⟩
  · rintro rfl
    exact ⟨rfl, rfl, dumpStage_valve .press s, fun hw hd => dumpStage_leaves .press hd (.inr hw)⟩

end Sys2Proof.Machine
end

