-- ==== Sys2Proof/Proofs/Outputs.lean ====
section
/-! SUPPORT. O55: the outputs stand as the state calls for after every step, and what each of them then is. -/
namespace Sys2Proof.Machine

/-! ### The outputs are driven at every event's end (R62, R186, R205, R206) -/

theorem drive_ready (s : State) : ready (drive s) = ready s := by
  rw [drive_only]
  rfl

theorem drive_follows (s : State) : OutputsFollow (drive s) := by
  unfold OutputsFollow shownOutputs
  rw [drive_ready, show (drive s).resetPin = s.resetPin by rw [drive_only], show (drive s).power = s.power by rw [drive_only]]
  unfold drive
  split
  · rfl
  · split
    · rfl
    · cases s.power <;> rfl

theorem OutputsFollow.of_pending {s : State} (q : List Instr) (h : OutputsFollow s) : OutputsFollow { s with pending := q } := h

theorem settled_follows (s u : State) : OutputsFollow (settled s u) := by
  unfold settled
  rw [close_eq]
  exact (drive_follows _).of_pending _

theorem event_follows {guard : Bool} {f : State → State} {s t : State} (hs : OutputsFollow s)
    (h : event guard f s = .next t) : OutputsFollow t := by
  unfold event at h
  split at h <;> injection h with h <;> subst h
  · exact settled_follows _ _
  · exact hs

theorem requestEvent_follows {origin : Origin} {want : RawFrame → Bool} {f : RawFrame → State → State} {g : State → State}
    {s t : State} (hs : OutputsFollow s) (h : requestEvent origin want f g s = .next t) : OutputsFollow t := by
  cases origin with
  | input => exact event_follows hs h
  | frame => exact event_follows hs h

theorem exec_follows (c : Instr) {s t : State} (hs : OutputsFollow s) (h : exec c s = .next t) : OutputsFollow t := by
  cases c with
  | powerOn pins memory inputs =>
    injection h with h
    exact h ▸ drive_follows _
  | resetAssert =>
    injection h with h
    exact h ▸ drive_follows _
  | warmReset inputs =>
    have h : execWarmReset inputs s = .next t := h
    unfold execWarmReset at h
    split at h <;> injection h with h <;> subst h
    · exact settled_follows _ _
    · exact hs
  | flashTimerExpiry lamp =>
    have h : execFlashTimerExpiry lamp s = .next t := h
    unfold execFlashTimerExpiry at h
    split at h
    · exact event_follows hs h
    · split at h <;> injection h with h <;> subst h
      · exact drive_follows _
      · exact hs
  | ack | pause | resume | dumpScale | dumpSurge | dumpMixer | dumpPress | dumpFinished =>
    exact requestEvent_follows hs h
  | listeningEnd | localStopInput | bagClamp | surgeEmptyInput | mixerEmptyInput | pressBinEmptyInput | claimWindowExpiry =>
    dsimp only [exec, execListeningEnd, execLocalStopInput, execBagClamp, execSurgeEmptyInput, execMixerEmptyInput,
      execPressBinEmptyInput, execClaimWindowExpiry] at h
    exact event_follows hs h
  | _ => exact event_follows hs h

theorem step_follows {s t : State} (hs : OutputsFollow s) (h : step s = .next t) : OutputsFollow t := by
  unfold step at h
  split at h
  · injection h with h
    exact h ▸ hs
  · rename_i c rest _
    exact exec_follows c (hs.of_pending rest) h

/-! ### What the outputs of a node that takes events are -/

theorem OutputsFollow.pins_eq {s : State} (hs : OutputsFollow s) (hr : ready s = true) : s.pins = outputsOf s := by
  rw [hs, shownOutputs, if_pos hr]

/-- R104, R107: a motor or a diverter follows a phase that is BUSY or HELD. -/
theorem within_iff (p : Phase) (r : StageRec) :
    r.within p = true ↔ (r.state = .busy ∨ r.state = .held) ∧ r.phase = some p := by
  simp [StageRec.within]

/-- R149, R150. -/
theorem dischargesTo_iff (out : Outlet) (s : State) : dischargesTo out s = true ↔
    s.bagger.bucket = .discharging ∧ ∃ c, s.bagger.charge = some c ∧ c.outlet = out := by
  unfold dischargesTo
  cases s.bagger.charge <;> simp

/-- R62: the channel in use is the one wired to the bin of the component in progress. -/
theorem channelInUse_iff (n : Nat) (s : State) : channelInUse s = some n ↔
    ∃ d e x, curDose s = some d ∧ planEntry d.position s = some e ∧ channelOfBin e.bin s = some x ∧ x.number = n := by
  simp only [channelInUse, doseChannel, Option.map_eq_some_iff, Option.bind_eq_some_iff]
  constructor
  · rintro ⟨x, ⟨d, hd, e, he, hx⟩, hn⟩
    exact ⟨d, e, x, hd, he, hx, hn⟩
  · rintro ⟨d, e, x, hd, he, hx, hn⟩
    exact ⟨x, ⟨d, hd, e, he, hx⟩, hn⟩

/-- R62: the states in which no channel runs. -/
theorem feedRate_off {s : State} (h : s.scale.state ∉ [.feedFast, .feedSlow, .jog true]) : feedRate s = .off := by
  unfold feedRate
  split
  all_goals simp_all

theorem channelOutput_cases (s : State) (c : Channel) :
    (channelInUse s = some c.number → s.scale.state = .feedFast → channelOutput s c = .fast)
    ∧ (channelInUse s = some c.number → s.scale.state = .feedSlow ∨ s.scale.state = .jog true → channelOutput s c = .slow)
    ∧ (¬channelInUse s = some c.number ∨ s.scale.state ∉ [.feedFast, .feedSlow, .jog true] → channelOutput s c = .off) := by
  refine ⟨fun hu hst => ?_, fun hu hst => ?_, ?_⟩
  · rw [channelOutput, if_pos hu, feedRate, hst]
  · rw [channelOutput, if_pos hu, feedRate]
    rcases hst with hst | hst <;> rw [hst]
  · rintro (hu | hst)
    · exact if_neg hu
    · rw [channelOutput, feedRate_off hst, ite_self]

/-- R141: the bagger's feeder by the bucket's state. -/
theorem bagFeed_cases (s : State) :
    (s.bagger.bucket = .filling true → bagFeed s = .fast)
    ∧ (s.bagger.bucket = .filling false ∨ s.bagger.bucket = .jog true → bagFeed s = .slow)
    ∧ (s.bagger.bucket ∉ [.filling true, .filling false, .jog true] → bagFeed s = .off) := by
  refine ⟨fun h => by rw [bagFeed, h], ?_, fun h => ?_⟩
  · rintro (h | h) <;> rw [bagFeed, h]
  · unfold bagFeed
    split
    all_goals simp_all

/-- R172: the spout. -/
theorem spoutOpen_iff (s : State) : spoutOpen s = true ↔ ∃ st, s.step = some st ∧ st.cause = none := by
  unfold spoutOpen
  cases s.step <;> simp

/-- A gate that is closed while the line is STOPPED. -/
theorem gate_iff {c : Bool} {p : Prop} (h : c = true ↔ p) (s : State) :
    (c && notStopped s) = true ↔ p ∧ s.line ≠ .stopped := by rw [Bool.and_eq_true, h, notStopped_iff]

/-- R107, R116: a feeder's figure, 0 outside its phase. -/
theorem feederFigure_cases (p : Phase) (r : StageRec) (n : Nat) :
    (r.BusyIn p → (if r.busyWith p then n else 0) = n) ∧ (¬r.BusyIn p → (if r.busyWith p then n else 0) = 0) :=
  ⟨fun h => if_pos ((busyWith_iff p r).2 h), fun h => if_neg (fun hb => h ((busyWith_iff p r).1 hb))⟩

/-- R113, R115: a diverter stands to its destination within the phase (notes/assumptions/33.md). -/
theorem diverter_cases (p : Phase) (r : StageRec) :
    ((r.state = .busy ∨ r.state = .held) ∧ r.phase = some p → (if r.within p then r.dest else none) = r.dest)
    ∧ (¬((r.state = .busy ∨ r.state = .held) ∧ r.phase = some p) → (if r.within p then r.dest else none) = none) :=
  ⟨fun h => if_pos ((within_iff p r).2 h), fun h => if_neg (fun hb => h ((within_iff p r).1 hb))⟩

/-- R108: a motor that is not held off runs within its stage's phase. -/
theorem motor_iff (p : Phase) (r : StageRec) (held : Bool) :
    (!held && r.within p) = true ↔ held = false ∧ (r.state = .busy ∨ r.state = .held) ∧ r.phase = some p := by
  rw [Bool.and_eq_true, within_iff, Bool.not_eq_true']

/-- R108: the mixer's motor runs while a batch is in the mixer. -/
theorem mixerMotor_iff (s : State) : (outputsOf s).mixerMotor = true ↔
    s.train.motorsHeld = false ∧ s.mixer.state ∈ [.busy, .done, .held] := by
  simp [outputsOf, or_assoc]

/-- R141, R149, R150: the outputs of the bagger, of a node that has one. -/
theorem baggerOutputs {s : State} (hb : s.straps.bagger = true) :
    (outputsOf s).bagFeeder = bagFeed s
    ∧ ((outputsOf s).bagGate = true ↔
        (s.bagger.bucket = .discharging ∧ ∃ c, s.bagger.charge = some c ∧ c.outlet = .bag) ∧ s.line ≠ .stopped)
    ∧ ((outputsOf s).rejectGate = true ↔
        ((s.bagger.bucket = .discharging ∧ ∃ c, s.bagger.charge = some c ∧ c.outlet = .chute) ∨ s.bagger.bucket = .unknown true)
          ∧ s.line ≠ .stopped)
    ∧ ((outputsOf s).release = true ↔ s.bagger.spout = .filled) := by
  unfold outputsOf
  simp only [hb, Bool.true_and, if_true]
  exact ⟨trivial, gate_iff (dischargesTo_iff _ s) s, gate_iff (by simp [dischargesTo_iff]) s, decide_eq_true_iff⟩

theorem baggerOutputs_unfitted {s : State} (hb : s.straps.bagger = false) : (outputsOf s).bagFeeder = .off
    ∧ (outputsOf s).bagGate = false ∧ (outputsOf s).rejectGate = false ∧ (outputsOf s).release = false := by
  simp [outputsOf, hb]

theorem handAddLit_iff (s : State) :
    handAddLit s = true ↔ s.scale.state = .handAdd ∨ s.scale.state = .settle .handAdd := by simp [handAddLit]

/-- Settles O55: the close of every event drives the outputs, and each output is read off `outputsOf`. -/
theorem outputsFollowEveryStep : Obligations.OutputsFollowEveryStep := by
  refine ⟨fun s t => step_follows, fun s hr hs => ?_⟩
  dsimp only
  rw [hs.pins_eq hr]
  have hgrind := feederFigure_cases .grinding s.surge s.train.grinder.speed
  have hpress := feederFigure_cases .pressing s.press s.train.presser.speed
  have hmixer := diverter_cases .discharging s.mixer
  have hpresser := diverter_cases .pressing s.press
  refine ⟨List.length_map .., fun i c hc => ?_, gate_iff decide_eq_true_iff s, gate_iff decide_eq_true_iff s, hgrind.1, hgrind.2,
    hpress.1, hpress.2, rfl, motor_iff .grinding s.surge _, mixerMotor_iff s, motor_iff .pressing s.press _, rfl,
    gate_iff (busyWith_iff .discharging s.mixer) s, hmixer.1, hmixer.2, hpresser.1, hpresser.2,
    gate_iff (busyWith_iff .dumping s.surge) s, gate_iff (busyWith_iff .dumping s.mixer) s,
    gate_iff (busyWith_iff .dumping s.press) s, gate_iff Iff.rfl s, fun hb => ?_, baggerOutputs_unfitted, spoutOpen_iff s,
    handAddLit_iff s, decide_eq_true_iff, rfl⟩
  · have hout : (outputsOf s).channels[i]? = some (channelOutput s c) := by
      show (s.channels.map (channelOutput s))[i]? = _
      rw [List.getElem?_map, hc]
      rfl
    rw [hout, ← channelInUse_iff]
    obtain ⟨hfast, hslow, hoff⟩ := channelOutput_cases s c
    exact ⟨fun hu h => congrArg some (hfast hu h), fun hu h => congrArg some (hslow hu h), fun h => congrArg some (hoff h)⟩
  · obtain ⟨hfeed, hgates⟩ := baggerOutputs hb
    rw [hfeed]
    obtain ⟨hfast, hslow, hoff⟩ := bagFeed_cases s
    exact ⟨hfast, hslow, hoff, hgates⟩

end Sys2Proof.Machine
end

