-- ==== Sys2Proof/Proofs/InputRequests.lean ====
section
/-! SUPPORT. O39: the empty inputs, HAND-ADD DONE and the bag clamp are taken. -/
namespace Sys2Proof.Machine

theorem Becomes.eq {c : Instr} {s u v : State} (h : Becomes c s u) (e : u = v) : Becomes c s v := e ▸ h

section Inputs
variable {s : State} (hr : ready s = true)
include hr

theorem becomes_handAddDone :
    Becomes .handAddDone s (if s.scale.state = .handAdd ∧ s.line = .run then setScale (.settle .handAdd) s else s) :=
  event_next true (fun s => if s.scale.state = .handAdd ∧ s.line = .run then setScale (.settle .handAdd) s else s) s hr rfl

/-- R148: a change of the clamp input of a node with a bagger. -/
theorem becomes_bagClamp (hb : s.straps.bagger = true) {present : Bool} (hc : s.inputs.bagClamp ≠ present) :
    Becomes (.bagClamp present) s (clampChanged present { s with inputs := { s.inputs with bagClamp := present } }) :=
  event_next _ (fun s => clampChanged present { s with inputs := { s.inputs with bagClamp := present } }) s hr
    (by rw [hb, decide_eq_true hc]; rfl)

end Inputs

/-! ### The bag clamp (R148) -/

section Clamp
variable {s : State}

theorem clampChanged_arrives (h : s.bagger.spout = .vacant) :
    clampChanged true s = { s with bagger := { s.bagger with spout := .ready } } := by
  unfold clampChanged
  rw [h]

theorem clampChanged_there (h : s.bagger.spout ≠ .vacant) : clampChanged true s = s := by
  unfold clampChanged
  cases hs : s.bagger.spout with
  | vacant => exact absurd hs h
  | ready | receiving | filled => rfl

theorem clampChanged_gone (h : s.bagger.spout = .vacant) : clampChanged false s = s := by
  unfold clampChanged
  rw [h]

theorem clampChanged_leaves (h : s.bagger.spout = .ready ∨ s.bagger.spout = .filled) :
    clampChanged false s = { s with bagger := { s.bagger with spout := .vacant } } := by
  unfold clampChanged
  rcases h with h | h <;> rw [h]

/-- R148: the bag is lost while it receives a charge, which is then rejected into the chute. -/
theorem clampChanged_lost {c : Charge} (h : s.bagger.spout = .receiving) (hc : s.bagger.charge = some c) :
    clampChanged false s = raiseFault .chargeReject (some c.order) []
      { s with bagger := { s.bagger with
          spout := .vacant, bucket := .charged, charge := some { c with outlet := .chute, cause := some .reject } } } := by
  unfold clampChanged
  rw [h]
  unfold loseBag updCharge
  dsimp only
  rw [hc]
  rfl

end Clamp

/-- Settles O39: each input by its row of the dispatch, the clamp by the state of the spout. -/
theorem inputsAreTaken : Obligations.InputsAreTaken := by
  intro s hr
  have hdone := becomes_handAddDone hr
  refine ⟨fun b => ?_, fun b => ?_, fun b => ?_, fun hst hl => ?_, fun h => ?_, fun hb => ?_⟩
  · exact event_next true (fun s => { s with inputs := { s.inputs with surgeEmpty := b } }) s hr rfl
  · exact event_next true (fun s => { s with inputs := { s.inputs with mixerEmpty := b } }) s hr rfl
  · exact event_next true (fun s => { s with inputs := { s.inputs with pressBinEmpty := b } }) s hr rfl
  · rwa [if_pos ⟨hst, hl⟩] at hdone
  · rwa [if_neg (by tauto)] at hdone
  · have hset : s.inputs.bagClamp = false → s.inputs.bagClamp ≠ true := by simp
    have hclear : s.inputs.bagClamp = true → s.inputs.bagClamp ≠ false := by simp
    have hclamp := fun p => becomes_bagClamp (present := p) hr hb
    exact ⟨fun hi hv => (hclamp true (hset hi)).eq (clampChanged_arrives hv),
      fun hi hv => (hclamp true (hset hi)).eq (clampChanged_there hv),
      fun hi hv => (hclamp false (hclear hi)).eq (clampChanged_gone hv),
      fun hi hv => (hclamp false (hclear hi)).eq (clampChanged_leaves hv),
      fun c hi hv hc => (hclamp false (hclear hi)).eq (clampChanged_lost hv hc)⟩

end Sys2Proof.Machine
end

