-- ==== Sys2Proof/Proofs/Judgement.lean ====
section
/-! SUPPORT. O41: the tolerance and the judgement by it (R94), the adaptation of an in-flight value (R95). -/
namespace Sys2Proof.Machine

/-! ### Judgement (R94) -/

theorem tolerance_cast (absolute relative target : Nat) :
    ((tolerance absolute relative target : Nat) : Int) = max (absolute : Int) ((target : Int) * relative / 1000) := by
  unfold tolerance
  push_cast
  rfl

theorem judge_within_iff (tol : Nat) (e : Int) : judge tol e = .within ↔ -(tol : Int) ≤ e ∧ e ≤ tol := by
  unfold judge
  split
  · simp only [reduceCtorEq, false_iff]
    omega
  · split <;> simp only [reduceCtorEq, false_iff, true_iff] <;> omega

theorem judge_under_iff (tol : Nat) (e : Int) : judge tol e = .under ↔ e < -(tol : Int) := by
  unfold judge
  split
  · simpa
  · split <;> simp only [reduceCtorEq, false_iff] <;> omega

theorem judge_above_iff (tol : Nat) (e : Int) : judge tol e = .above ↔ (tol : Int) < e := by
  unfold judge
  split
  · simp only [reduceCtorEq, false_iff]
    omega
  · split <;> simp only [reduceCtorEq, false_iff, true_iff] <;> omega

/-! ### Rounding and adaptation (R95) -/

/-- Rounding to the nearest, halves away from 0. -/
theorem roundEighth_bounds (x : Int) : 8 * roundEighth x - x ≤ 4 ∧ -4 ≤ 8 * roundEighth x - x
    ∧ (8 * roundEighth x - x = 4 → 0 < x) ∧ (8 * roundEighth x - x = -4 → x < 0) := by
  unfold roundEighth
  split <;> omega

theorem roundEighth_nonneg {x : Int} (h : 0 ≤ x) : 0 ≤ roundEighth x := by
  unfold roundEighth
  split <;> omega

theorem roundEighth_nonpos {x : Int} (h : x ≤ 0) : roundEighth x ≤ 0 := by
  unfold roundEighth
  split <;> omega

theorem roundEighth_eight (x : Int) : roundEighth (x * 8) = x := by
  unfold roundEighth
  split <;> omega

/-- The adapted value is the moved one, kept within 0 and the ceiling. -/
theorem adapt_cast (g ceiling f : Nat) (e1 : Int) :
    ((adapt g ceiling f e1 : Nat) : Int) = max 0 (min (f + roundEighth (e1 * g)) ceiling) := by
  unfold adapt clampInt
  split
  · omega
  · split <;> omega

/-- Settles O41: each part from the clamp of `adapt_cast` and the rounding of `roundEighth_bounds`. -/
theorem toleranceJudgesAndFlightAdapts : Obligations.ToleranceJudgesAndFlightAdapts := by
  refine ⟨fun absolute relative target e => ?_, fun g ceiling f e1 hf => ?_⟩
  · have ht := tolerance_cast absolute relative target
    dsimp only
    rw [← ht]
    exact ⟨rfl, judge_within_iff _ e, judge_under_iff _ e, judge_above_iff _ e⟩
  · have hc := adapt_cast g ceiling f e1
    refine ⟨adapt_le g ceiling f e1, ?_, fun h0 hle => ?_, fun h => ?_, fun h => ?_, fun h0 hlt => ?_⟩
    · have h := adapt_cast 0 ceiling f e1
      rw [show e1 * ((0 : Nat) : Int) = 0 from mul_zero e1, show roundEighth 0 = 0 from rfl] at h
      omega
    · have h := adapt_cast 8 ceiling f e1
      rw [Nat.cast_ofNat, roundEighth_eight] at h
      omega
    · have hr := roundEighth_nonneg (Int.mul_nonneg h (Int.natCast_nonneg g))
      omega
    · have hr := roundEighth_nonpos (Int.mul_nonpos_of_nonpos_of_nonneg h (Int.natCast_nonneg g))
      omega
    · obtain ⟨hhigh, hlow, hup, hdown⟩ := roundEighth_bounds (e1 * g)
      have hd : 8 * (((adapt g ceiling f e1 : Nat) : Int) - f) - e1 * g = 8 * roundEighth (e1 * g) - e1 * g := by omega
      dsimp only
      rw [hd]
      exact ⟨hhigh, hlow, fun h => pos_of_mul_pos_left (hup h) (Int.natCast_nonneg g),
        fun h => neg_of_mul_neg_left (hdown h) (Int.natCast_nonneg g)⟩

end Sys2Proof.Machine
end

