-- ==== Sys2Proof/Proofs/LineStates.lean ====
section
/-! SUPPORT. O35: PAUSE, RESUME and the pause reports move the line state. -/
namespace Sys2Proof.Machine

section Line
variable {s : State}

/-- R187: a change of the line state is told in one notice. -/
theorem setLine_tx (l : LineState) (cause : LineCause) (h : s.tx.length < 8) :
    (setLine l cause s).tx = s.tx ++ [OutEntry.fresh (.notice (.lineState l cause))] :=
  queueNotice_room (s := { s with line := l }) _ h

/-! ### PAUSE (R174, R179) -/

/-- PAUSE as the line, the loops and the reports take it, before the spout closes. -/
def pausing (s : State) : State := haltLoops (setLine .pausing .pause { s with reports := Reports.blank })

theorem pauseLine_run (h : s.line = .run) : pauseLine s = closeSpout .line (pausing s) := if_pos h

theorem pausing_only (s : State) : pausing s = { s with
    reports := Reports.blank, line := .pausing, tx := (pausing s).tx
    train := { s.train with grinder := s.train.grinder.halt, presser := s.train.presser.halt } } := by
  unfold pausing
  rw [setLine_only]
  rfl

theorem pausing_tx (h : s.tx.length < 8) :
    (pausing s).tx = s.tx ++ [OutEntry.fresh (.notice (.lineState .pausing .pause))] :=
  setLine_tx (s := { s with reports := Reports.blank }) .pausing .pause h

/-! ### RESUME (R181) -/

theorem resumeAllowed_iff (s : State) :
    resumeAllowed s = true ↔ (s.line = .pausing ∨ s.line = .paused) ∧ unitHeld .line s = false := by
  simp [resumeAllowed]

/-- RESUME as the line and the reports take it, before the train. -/
def resuming (s : State) : State := setLine .run .resume { s with reports := Reports.blank }

theorem resumeLine_allowed (h : resumeAllowed s = true) : resumeLine s = resumeTrain (resuming s) := by
  obtain ⟨hl, -⟩ := (resumeAllowed_iff s).1 h
  have hr : s.line ≠ .run := by rcases hl with hl | hl <;> rw [hl] <;> decide
  unfold resumeLine
  rw [if_neg hr, if_pos h]
  rfl

theorem resumeLine_refused (hr : s.line ≠ .run) (h : ¬resumeAllowed s = true) :
    resumeLine s = raiseFault .resumeRefused none [.byte s.line.code] s := by
  unfold resumeLine
  rw [if_neg hr, if_neg h]

theorem resuming_only (s : State) : resuming s = { s with
    reports := Reports.blank, line := .run, tx := (resuming s).tx } := by
  unfold resuming
  rw [setLine_only]

/-! ### The pause reports (R80, R155, R180) -/

/-- The reports as the units that stand at their pause points make them. -/
def reportsNow (s : State) : Reports :=
  { dosing := s.reports.dosing || dosingAtPause s, train := true, packing := s.reports.packing || baggerAtPause s }

theorem pauseReports_all (h : s.line = .pausing) (hd : (reportsNow s).dosing = true) (hp : (reportsNow s).packing = true) :
    pauseReports s = setLine .paused .pauseComplete { s with reports := Reports.blank } := by
  unfold pauseReports
  rw [if_pos h]
  exact if_pos (Bool.and_eq_true_iff.2 ⟨hd, hp⟩)

theorem pauseReports_some (h : s.line = .pausing) (hn : (reportsNow s).dosing = false ∨ (reportsNow s).packing = false) :
    pauseReports s = { s with reports := reportsNow s } := by
  unfold pauseReports
  rw [if_pos h]
  refine if_neg fun hb => ?_
  obtain ⟨hd, hp⟩ := Bool.and_eq_true_iff.1 hb
  rcases hn with hn | hn
  · exact Bool.false_ne_true (hn.symm.trans hd)
  · exact Bool.false_ne_true (hn.symm.trans hp)

end Line

theorem dosingAtPause_iff (s : State) : dosingAtPause s = true ↔ s.scale.state ∈ [.idle, .tare, .jog false, .handAdd, .held,
    .complete, .discharge, .dumping, .unknown, .settle .resume] := by
  unfold dosingAtPause
  cases s.scale.state with
  | settle p => cases p <;> decide
  | jog pulse => cases pulse <;> decide
  | _ => decide

theorem baggerAtPause_iff (s : State) : baggerAtPause s = true ↔ s.bagger.bucket ∈ [.empty, .charged, .discharging,
    .unknown false, .unknown true, .settling .resume, .jog false] := by
  unfold baggerAtPause
  cases s.bagger.bucket with
  | filling fast => cases fast <;> decide
  | settling p => cases p <;> decide
  | jog pulse => cases pulse <;> decide
  | unknown emptying => cases emptying <;> decide
  | _ => decide

/-- Settles O35: the requests by their rows of the dispatch, what each does of the line state by the equation of its case. -/
theorem pauseAndResumeMoveLine : Obligations.PauseAndResumeMoveLine := by
  obtain ⟨hpauseIn, hpause⟩ := line_becomes (c := .pause) (fun _ _ => rfl) (by decide : 1 ≤ 1) (by decide)
  obtain ⟨hresumeIn, hresume⟩ := line_becomes (c := .resume) (fun _ _ => rfl) (by decide : 1 ≤ 2) (by decide)
  refine ⟨⟨fun s s1 f node hn ha => ⟨fun hp => (hpause s s1 f node hn hp ha).1, fun hp => (hpause s s1 f node hn hp ha).2,
    fun hp => (hresume s s1 f node hn hp ha).1, fun hp => (hresume s s1 f node hn hp ha).2⟩,
    fun s => ⟨fun hr => ⟨hpauseIn s hr, hresumeIn s hr⟩, fun hl => ?_, fun h => if_neg h, fun h => if_pos h,
      fun hl hu => ?_, fun h => ?_⟩⟩,
    fun s hl => ⟨fun hd hp => ?_, pauseReports_some hl, dosingAtPause_iff s, baggerAtPause_iff s⟩⟩
  · rw [pauseLine_run hl]
    have hopen : spoutOpen (closeSpout .line (pausing s)) = false := closeSpout_closed .line _
    have htx : (closeSpout .line (pausing s)).tx = (pausing s).tx := by rw [closeSpout_only]
    rw [hopen, htx, closeSpout_only, pausing_only]
    exact ⟨rfl, rfl, rfl, rfl, rfl, pausing_tx⟩
  · rw [resumeLine_allowed ((resumeAllowed_iff s).2 ⟨hl, hu⟩)]
    refine ⟨?_, ?_, rfl, setLine_tx (s := { s with reports := Reports.blank }) .run .resume⟩ <;> rw [resuming_only] <;> rfl
  · refine resumeLine_refused ?_ fun ha => ?_
    · rcases h with h | ⟨h, -⟩
      · rw [h]
        decide
      · exact h
    · obtain ⟨hl, hu⟩ := (resumeAllowed_iff s).1 ha
      rcases h with h | ⟨-, h⟩
      · rw [h] at hl
        exact hl.elim nofun nofun
      · exact Bool.false_ne_true (hu.symm.trans h)
  · rw [pauseReports_all hl hd hp, setLine_only]
    exact ⟨rfl, rfl, setLine_tx (s := { s with reports := Reports.blank }) .paused .pauseComplete⟩

end Sys2Proof.Machine
end

