-- ==== Sys2Proof/Proofs/Acknowledgement.lean ====
section
/-! SUPPORT. O34: an ACK acknowledges the records it names, and what it leaves standing. -/
namespace Sys2Proof.Machine

/-! ### Faults go on standing (R183, R185) -/

/-- Every fault that stands goes on standing. -/
def FaultsStand (s u : State) : Prop := ∀ k, standing k s = true → standing k u = true

theorem FaultsStand.refl (s : State) : FaultsStand s s := fun _ h => h

theorem FaultsStand.trans {s u v : State} (h : FaultsStand s u) (h' : FaultsStand u v) : FaultsStand s v :=
  fun k hk => h' k (h k hk)

theorem FaultsStand.of_faults {s u : State} (h : u.faults = s.faults) : FaultsStand s u := fun k hk => by
  unfold standing
  rw [h]
  exact hk

theorem FaultsStand.ite {c : Prop} [Decidable c] {s t e : State} (ht : FaultsStand s t) (he : FaultsStand s e) :
    FaultsStand s (if c then t else e) := by
  split
  · exact ht
  · exact he

section Stand
variable (s : State) (d : Dose)

theorem raiseFault_stand (k : FaultKey) (reference : Option Nat) (detail : List DetailField) :
    FaultsStand s (raiseFault k reference detail s) := fun _ h => standing_raiseFault h k reference detail

theorem queueFrame_stand (b : Body) : FaultsStand s (queueFrame b s) :=
  .ite (.of_faults rfl) (.ite (.refl s) (raiseFault_stand s _ _ _))

theorem holdScale_stand (k : FaultKey) (detail : List DetailField) (r : ResumePoint) :
    FaultsStand s (holdScale k detail r s) :=
  (raiseFault_stand s k (scaleRef s) detail).trans (.of_faults rfl)

/-- A report of a draw is entered in the plan and the bins. -/
theorem reportComplete_faults (position bin a : Nat) : (reportComplete position bin a s).faults = s.faults := rfl

theorem answerZero_stand : FaultsStand s (answerZero d s) := by
  unfold answerZero
  split
  · exact (queueFrame_stand s _).trans (.of_faults rfl)
  · exact .refl s

theorem zeroReport_stand : FaultsStand s (zeroReport d s) := by
  unfold zeroReport
  refine .ite ?_ (.refl s)
  split
  next e _ =>
    dsimp only
    refine (queueFrame_stand s (.drawReport (scaleNumber s) e.bin 0)).trans (FaultsStand.of_faults ?_)
    rw [updDose_faults]
    split
    · rw [reportComplete_faults]
    · rfl
  · exact .of_faults rfl

theorem completeReport_stand : FaultsStand s (completeReport d s) := by
  unfold completeReport
  split
  · exact (queueFrame_stand s _).trans (.of_faults (by rw [updDose_faults, reportComplete_faults]))
  · exact .refl s

theorem moveBin_stand (bin : Nat) : FaultsStand s (moveBin d bin s) := by
  unfold moveBin
  split
  · exact (queueFrame_stand (updPlanEntry d.position _ s) _).trans (.of_faults rfl)
  · exact .refl s

theorem confirmStart_stand : FaultsStand s (confirmStart d s) := by
  unfold confirmStart
  split
  · exact .of_faults rfl
  · exact (moveBin_stand s d _).trans (.of_faults rfl)
  · exact holdScale_stand (updDose d.position _ s) _ _ _

theorem startDose_stand : FaultsStand s (startDose d s) := by
  let begun := updDose d.position (fun d => { d with status := .inProgress }) s
  have h : FaultsStand s begun := .of_faults rfl
  exact .ite (.of_faults rfl)
    (.ite (h.trans ((answerZero_stand begun d).trans (.of_faults rfl))) (h.trans (confirmStart_stand begun d)))

theorem startNext_stand (n : Nat) : FaultsStand s (startNext n s) := by
  induction n generalizing s with
  | zero => exact .of_faults rfl
  | succ n ih =>
    unfold startNext
    split
    · exact .of_faults rfl
    · exact .ite ((answerZero_stand (updDose _ _ s) _).trans (ih _)) (startDose_stand s _)

theorem closeWaiting_stand (ds : List Dose) : FaultsStand s (closeWaiting ds s) := by
  induction ds generalizing s with
  | nil => exact .refl s
  | cons d ds ih => exact (FaultsStand.ite (zeroReport_stand s d) (.refl s)).trans (ih _)

theorem recordStep_stand (outcome : DoseOutcome) (adapts : Bool) : FaultsStand s (recordStep outcome adapts d s) := by
  have hadapt : FaultsStand s (if adapts = true then adaptChannel d s else s) :=
    .ite (.of_faults (by rw [adaptChannel_only])) (.refl s)
  have hreport (u : State) : FaultsStand u (if d.fed = true then completeReport d u else u) :=
    .ite (completeReport_stand u d) (.refl u)
  have hconsume (u : State) : FaultsStand u (updDose d.position (fun d => { d with outcome := some outcome, status := .done })
      (consumeDose d u)) := .of_faults (by rw [updDose_faults, consumeDose_only])
  refine hadapt.trans ((hreport _).trans ((hconsume _).trans (.ite ?_ (startNext_stand _ _))))
  exact (closeWaiting_stand _ _).trans (.of_faults rfl)

theorem closeRework_stand : FaultsStand s (closeRework s) := by
  unfold closeRework
  dsimp only
  split
  · exact (zeroReport_stand s _).trans
      ((closeWaiting_stand (closeDose _ (zeroReport _ s)) _).trans (.of_faults rfl))
  · exact (closeWaiting_stand s _).trans (.of_faults rfl)

theorem rechooseBin_stand : FaultsStand s (rechooseBin d s) := by
  unfold rechooseBin
  split
  · exact .ite ((moveBin_stand s d _).trans (.of_faults rfl)) ((moveBin_stand s d _).trans (.of_faults rfl))
  · exact holdScale_stand s _ _ _

theorem resumeComponent_stand (r : ResumePoint) : FaultsStand s (resumeComponent r d s) := by
  unfold resumeComponent
  split
  · exact confirmStart_stand s d
  · exact rechooseBin_stand s d
  · exact .ite (.of_faults rfl) (.of_faults rfl)
  · exact .of_faults rfl
  · exact .of_faults rfl

theorem acceptDose_stand (outcome : DoseOutcome) : FaultsStand s (acceptDose outcome d s) :=
  recordStep_stand (updRecord _ s) d outcome true

theorem leaveHeld_stand : FaultsStand s (leaveHeld s) := by
  have hrel : FaultsStand s (released s) := .of_faults rfl
  unfold leaveHeld
  dsimp only
  split
  · exact .of_faults rfl
  · exact .of_faults rfl
  · exact .of_faults rfl
  · exact .of_faults rfl
  · split
    · exact hrel.trans (acceptDose_stand (released s) _ _)
    · exact .of_faults rfl
  · refine .ite (hrel.trans (closeRework_stand (released s))) ?_
    split
    · exact hrel.trans (resumeComponent_stand (released s) _ _)
    · exact .of_faults rfl
  · exact .refl s

theorem ackDosing_stand (keys : List FaultKey) : FaultsStand s (ackDosing keys s) :=
  .ite (.ite (fun k hk => leaveHeld_stand _ k hk) (.of_faults rfl)) (.refl s)

end Stand

/-! ### The keys an ACK names (R194) -/

theorem FaultKey.mem_all (k : FaultKey) : k ∈ FaultKey.all := by cases k <;> decide

theorem mem_ackKeys {k : FaultKey} {node unit kind : Nat} (hu : unit < 256) (hk : kind < 256) :
    k ∈ ackKeys (be1 node ++ be1 unit ++ be1 kind) ↔ unit = 0 ∨ (k.unit.code = unit ∧ k.number = kind) := by
  have hunit : byteAt 1 (be1 node ++ be1 unit ++ be1 kind) = unit := byteAt_at 1 (be1 node) (be1 kind) unit rfl hu
  have hkind : byteAt 2 (be1 node ++ be1 unit ++ be1 kind) = kind := by
    have h := byteAt_at 2 (be1 node ++ be1 unit) [] kind rfl hk
    rwa [List.append_nil] at h
  have hcode : k.unit.code ≠ 0 := by cases k <;> decide
  unfold ackKeys
  rw [hunit, hkind]
  split
  case isTrue h => simp [h, FaultKey.mem_all]
  case isFalse h => simp [h, FaultKey.mem_all]

/-- R179: a frame of an ACK names this node, or all nodes. -/
theorem namesNode_ack {s s1 : State} {f : RawFrame} {node unit kind : Nat} (hn : node < 256)
    (hp : f.payload = be1 node ++ be1 unit ++ be1 kind) (ha : Arrives .lineControl 0x11 f s s1) :
    namesNode s1 f = true ↔ node = 0 ∨ node = s.straps.node := by
  obtain ⟨rx, rfl⟩ := arrives_rx ha
  unfold namesNode
  rw [hp, List.append_assoc, byteAt_here_be1 node _ hn]
  simp

/-! ### What an acknowledgement leaves (R74, R184, R196) -/

section Acknowledged
variable (keys : List FaultKey) (idle : Bool) (s : State)

/-- The records with these keys acknowledged. -/
def ackedFaults (keys : List FaultKey) (s : State) : List FaultRecord :=
  s.faults.map (fun r => if r.key ∈ keys then { r with acked := true } else r)

theorem standing_ackedFaults {r : FaultRecord} (hr : r ∈ s.faults) (hk : r.key ∉ keys) (ha : r.acked = false) :
    standing r.key { s with faults := ackedFaults keys s } = true :=
  (standing_iff _ _).2 ⟨r, List.mem_map.2 ⟨r, hr, if_neg hk⟩, rfl, ha⟩

/-- R184: a record the keys leave out goes on standing, whatever the Dosing Unit does of those acknowledged. -/
theorem acknowledge_standing {r : FaultRecord} (hr : r ∈ s.faults) (hk : r.key ∉ keys) (ha : r.acked = false) :
    standing r.key (acknowledge keys idle s) = true := by
  rw [acknowledge_eq]
  exact ackDosing_stand _ _ _ (standing_ackedFaults keys s hr hk ha)

theorem addressClash_mem_freshlyAcked : FaultKey.addressClash ∈ freshlyAcked keys s
    ↔ ∃ r ∈ s.faults, r.key = .addressClash ∧ r.key ∈ keys ∧ r.acked = false := by
  rw [mem_freshlyAcked, standing_iff]
  constructor
  · rintro ⟨hk, r, hr, he, ha⟩
    exact ⟨r, hr, he, he ▸ hk, ha⟩
  · rintro ⟨r, hr, he, hk, ha⟩
    exact ⟨he ▸ hk, r, hr, he, ha⟩

/-- R196: where nothing is held, an acknowledgement is of the records and of the idle they wait for. -/
theorem acknowledge_unheld (h : s.scale.state ≠ .held) : acknowledge keys idle s = { s with
    faults := ackedFaults keys s
    rx := if ∃ r ∈ s.faults, r.key = .addressClash ∧ r.key ∈ keys ∧ r.acked = false
      then { s.rx with barred := idle || s.rx.idle.isSome } else s.rx } := by
  have htold : ackDosing (freshlyAcked keys s) { s with faults := ackedFaults keys s }
      = { s with faults := ackedFaults keys s } := if_neg h
  have heq := acknowledge_eq keys idle s
  dsimp only at heq
  rw [heq]
  unfold ackedFaults at htold ⊢
  rw [htold]
  simp only [addressClash_mem_freshlyAcked]
  split <;> rfl

theorem holdSet_freshlyAcked : s.scale.holdSet.filter (fun k => !(freshlyAcked keys s).contains k)
    = s.scale.holdSet.filter (fun k => !(keys.contains k && standing k s)) := by
  refine List.filter_congr fun k _ => congrArg (! ·) (Bool.eq_iff_iff.2 ?_)
  rw [List.contains_iff_mem, mem_freshlyAcked, Bool.and_eq_true, List.contains_iff_mem]

/-- R74: the unit stays HELD, where a kind of its hold set is left. -/
theorem ackDosing_left (fs : List FaultRecord) (h : s.scale.state = .held)
    (hk : ∃ k ∈ s.scale.holdSet, ¬(k ∈ keys ∧ standing k s = true)) :
    ackDosing (freshlyAcked keys s) { s with faults := fs } = { s with
      faults := fs
      scale := { s.scale with holdSet := s.scale.holdSet.filter (fun k => !(keys.contains k && standing k s)) } } := by
  obtain ⟨k, hm, hn⟩ := hk
  have hrest : k ∈ s.scale.holdSet.filter (fun k => !(freshlyAcked keys s).contains k) := by
    simpa [hm, mem_freshlyAcked, imp_iff_not_or] using hn
  have hne : (s.scale.holdSet.filter (fun k => !(freshlyAcked keys s).contains k)).isEmpty = false := by
    rw [List.isEmpty_eq_false_iff]
    exact List.ne_nil_of_mem hrest
  unfold ackDosing
  rw [if_pos h]
  dsimp only
  rw [hne, holdSet_freshlyAcked]
  rfl

end Acknowledged

/-- Settles O34: the request by its row of the dispatch, the Dosing Unit's part by the cases of its hold set. -/
theorem ackAcknowledgesNamedRecords : Obligations.AckAcknowledgesNamedRecords := by
  intro s s1 f node unit kind idle hn hu hk _ hp
  have hbecomes (ha : Arrives .lineControl 0x11 f s s1) := requestEvent_arrives ha (isKind 0x11) (by simp [isKind, ha.2.1])
    (fun f => acknowledge (ackKeys f.payload) idle) (acknowledge FaultKey.all idle)
  refine ⟨fun ha h0 hs => ?_, fun ha hnode => ⟨ackKeys f.payload, fun k => ?_, ?_⟩, fun hr => ?_, fun keys =>
    ⟨fun r => acknowledge_standing keys idle s, acknowledge_unheld keys idle s, fun hst hleft => ?_⟩⟩
  · have h := hbecomes ha
    rwa [if_neg fun hnm => ((namesNode_ack hn hp ha).1 hnm).elim h0 hs] at h
  · rw [hp]
    exact mem_ackKeys hu hk
  · have h := hbecomes ha
    rwa [if_pos ((namesNode_ack hn hp ha).2 hnode)] at h
  · exact requestEvent_input (isKind 0x11) (fun f => acknowledge (ackKeys f.payload) idle) _ s hr
  · rw [acknowledge_eq]
    dsimp only
    rw [ackDosing_left keys s _ hst hleft]
    exact ⟨hst, rfl, rfl, rfl⟩

end Sys2Proof.Machine
end

