-- ==== Sys2Proof/Proofs/SettleJudgement.lean ====
section
/-! SUPPORT. O44: the judgement at the end of a settle. -/
namespace Sys2Proof.Machine

section Judged
variable {s : State} {d : Dose} {p : SettlePurpose} {g : Int}

/-! ### The component as it is judged (R70) -/

/-- The component with the first error noted, where it is the first settle that is judged. -/
def Dose.judged (first : Bool) (g : Int) (d : Dose) : Dose := if first then { d with e1 := some (g - d.target) } else d

/-- The unit with the first error noted, where it is the first settle that is judged. -/
def errorNoted (first : Bool) (g : Int) (d : Dose) (s : State) : State :=
  if first then updDose d.position (fun x => { x with e1 := some (g - d.target) }) s else s

theorem Dose.judged_jogs (first : Bool) (g : Int) (d : Dose) : (d.judged first g).jogs = d.jogs := by
  cases first <;> rfl

theorem errorNoted_unheld (first : Bool) (h : s.unheld) : (errorNoted first g d s).unheld := by
  cases first <;> exact h

theorem errorNoted_curDose (first : Bool) (hd : curDose s = some d) :
    curDose (errorNoted first g d s) = some (d.judged first g) := by
  cases first
  · exact hd
  · exact curDose_updDose (f := fun x => { x with e1 := some (g - d.target) }) (fun _ => rfl) hd

/-- R71: JOG is entered, the jogs counted. -/
theorem enterJog_jogs {x : Dose} (hx : curDose s = some x) (hp : x.position = d.position) :
    curDose (enterJog d s) = some { x with jogs := x.jogs + 1 } := by
  unfold enterJog
  rw [← hp]
  exact curDose_updDose (f := fun x => { x with jogs := x.jogs + 1 }) (fun _ => rfl) hx

/-- The tolerance of a component. -/
def tolOf (d : Dose) (s : State) : Nat := tolerance s.params.absTolerance s.params.relTolerance d.target

/-- A fault of the judgement holds the unit, at the resume point of its acceptance (R75). -/
theorem holdScale_judged (h : s.unheld) (k : FaultKey) (detail : List DetailField) (o : DoseOutcome) :
    (holdScale k detail (.accept o) s).scale.state = .held
      ∧ (holdScale k detail (.accept o) s).scale.resume = some (.accept o)
      ∧ standing k (holdScale k detail (.accept o) s) = true
      ∧ k ∈ (holdScale k detail (.accept o) s).scale.holdSet :=
  ⟨rfl, holdScale_resume_unheld h, raiseFault_standing .., mem_holdSet_holdScale.2 (.inl rfl)⟩

/-! ### A dose by its error (R70, R71) -/

theorem judgeDose_eq (first : Bool) (g : Int) (d : Dose) (s : State) : judgeDose first g d s =
    match judge (tolOf d s) (g - d.target) with
    | .within => recordStep .within true (d.judged first g) (errorNoted first g d s)
    | .above => holdScale .overdose [.byte d.position, .wide (g - d.target)] (.accept .excess) (errorNoted first g d s)
    | .under => if d.jogs < s.params.jogLimit then enterJog (d.judged first g) (errorNoted first g d s)
      else holdScale .underdose [.byte d.position, .wide (g - d.target)] (.accept .short) (errorNoted first g d s) := rfl

theorem judgeHand_eq (g : Int) (d : Dose) (s : State) : judgeHand g d s =
    match judge (tolOf d s) (g - d.target) with
    | .within => recordStep .within true d s
    | .under => setScale .handAdd s
    | .above => holdScale .overdose [.byte d.position, .wide (g - d.target)] (.accept .excess) s := rfl

theorem judgeDose_within (first : Bool) (hlow : -(tolOf d s : Int) ≤ g - d.target) (hhigh : g - d.target ≤ tolOf d s) :
    judgeDose first g d s = recordStep .within true (d.judged first g) (errorNoted first g d s) := by
  rw [judgeDose_eq, (judge_within_iff _ _).2 ⟨hlow, hhigh⟩]

theorem judgeDose_above (first : Bool) (h : (tolOf d s : Int) < g - d.target) : judgeDose first g d s
    = holdScale .overdose [.byte d.position, .wide (g - d.target)] (.accept .excess) (errorNoted first g d s) := by
  rw [judgeDose_eq, (judge_above_iff _ _).2 h]

theorem judgeDose_jogs (first : Bool) (h : g - d.target < -(tolOf d s : Int)) (hj : d.jogs < s.params.jogLimit) :
    judgeDose first g d s = enterJog (d.judged first g) (errorNoted first g d s) := by
  rw [judgeDose_eq, (judge_under_iff _ _).2 h]
  exact if_pos hj

theorem judgeDose_short (first : Bool) (h : g - d.target < -(tolOf d s : Int)) (hj : s.params.jogLimit ≤ d.jogs) :
    judgeDose first g d s
      = holdScale .underdose [.byte d.position, .wide (g - d.target)] (.accept .short) (errorNoted first g d s) := by
  rw [judgeDose_eq, (judge_under_iff _ _).2 h]
  exact if_neg (Nat.not_lt.2 hj)

/-! ### A settle by its purpose (R73, R76, R83) -/

/-- The line state in which a settle is judged. -/
theorem settleSample_judges_iff (p : SettlePurpose) (s : State) :
    (if p = .resume then decide (s.line = .run) else s.moving) = true
      ↔ s.line = .run ∨ (s.line = .pausing ∧ p ≠ .resume) := by
  unfold State.moving
  cases p <;> simp

theorem settleSample_waits (h : ¬(s.line = .run ∨ (s.line = .pausing ∧ p ≠ .resume))) : settleSample p g d s = s :=
  if_neg (mt (settleSample_judges_iff p s).1 h)

theorem settleSample_rework (h : s.line = .run ∨ (s.line = .pausing ∧ p ≠ .resume)) (hr : scaleRework s = true) :
    settleSample p g d s = recordStep .within false d s :=
  (if_pos ((settleSample_judges_iff p s).2 h)).trans (if_pos hr)

/-- What a settle of a batch not flagged REWORK is judged by. -/
def judgeFor (p : SettlePurpose) (g : Int) (d : Dose) (s : State) : State :=
  match p with
  | .first => judgeDose true g d s
  | .jog => judgeDose false g d s
  | .resume => resumeDose g d s
  | .handAdd => judgeHand g d s

theorem settleSample_judged (h : s.line = .run ∨ (s.line = .pausing ∧ p ≠ .resume)) (hr : scaleRework s = false) :
    settleSample p g d s = judgeFor p g d s :=
  (if_pos ((settleSample_judges_iff p s).2 h)).trans (if_neg (Bool.not_eq_true _ ▸ hr))

/-- A settle but of a hand-add weighs the dose, unless a resume settle ends below the close point. -/
theorem judgeFor_weighs (hp : p ≠ .handAdd) (hw : p ≠ .resume ∨ closePoint d s ≤ g) :
    judgeFor p g d s = judgeDose (decide (p = .first)) g d s := by
  cases p with
  | resume => exact if_pos (hw.resolve_left fun h => h rfl)
  | handAdd => exact absurd rfl hp
  | _ => rfl

theorem judgeFor_hand_within (hlow : -(tolOf d s : Int) ≤ g - d.target) (hhigh : g - d.target ≤ tolOf d s) :
    judgeFor .handAdd g d s = recordStep .within true d s := by
  refine (judgeHand_eq g d s).trans ?_
  rw [(judge_within_iff _ _).2 ⟨hlow, hhigh⟩]

theorem judgeFor_hand_above (h : (tolOf d s : Int) < g - d.target) : judgeFor .handAdd g d s
    = holdScale .overdose [.byte d.position, .wide (g - d.target)] (.accept .excess) s := by
  refine (judgeHand_eq g d s).trans ?_
  rw [(judge_above_iff _ _).2 h]

theorem judgeFor_hand_under (h : g - d.target < -(tolOf d s : Int)) : judgeFor .handAdd g d s = setScale .handAdd s := by
  refine (judgeHand_eq g d s).trans ?_
  rw [(judge_under_iff _ _).2 h]

theorem judgeFor_within (hw : p ≠ .resume ∨ closePoint d s ≤ g) (hlow : -(tolOf d s : Int) ≤ g - d.target)
    (hhigh : g - d.target ≤ tolOf d s) : judgeFor p g d s
      = recordStep .within true (d.judged (decide (p = .first)) g) (errorNoted (decide (p = .first)) g d s) := by
  by_cases hp : p = .handAdd
  · subst hp
    exact judgeFor_hand_within hlow hhigh
  · rw [judgeFor_weighs hp hw, judgeDose_within _ hlow hhigh]

theorem judgeFor_above (hw : p ≠ .resume ∨ closePoint d s ≤ g) (h : (tolOf d s : Int) < g - d.target) :
    judgeFor p g d s = holdScale .overdose [.byte d.position, .wide (g - d.target)] (.accept .excess)
      (errorNoted (decide (p = .first)) g d s) := by
  by_cases hp : p = .handAdd
  · subst hp
    exact judgeFor_hand_above h
  · rw [judgeFor_weighs hp hw, judgeDose_above _ h]

/-- R76: below the close point, a resume settle opens the feed again. -/
theorem judgeFor_feeds (h : ¬closePoint d s ≤ g) :
    judgeFor .resume g d s = openFeed (decide (g < switchPoint d s)) g s := if_neg h

end Judged

/-- Settles O44: by the line state, the REWORK flag, the purpose of the settle and the judgement of its error. -/
theorem settleJudgesComponent : Obligations.SettleJudgesComponent := by
  intro p g d s hd hst
  have hunheld : s.unheld := .inl (by rw [hst]; nofun)
  have hnoted := errorNoted_unheld (g := g) (d := d) (decide (p = .first)) hunheld
  refine ⟨settleSample_waits, settleSample_rework, fun hj hr => ?_⟩
  rw [settleSample_judged hj hr]
  refine ⟨fun hw hlow hhigh => ?_, fun hw h => ?_, fun hp h => ?_, fun hp hw h hjogs => ?_, fun hp hw h hjogs => ?_,
    fun hp hw => ?_⟩
  · rw [judgeFor_within hw hlow hhigh]
    unfold Dose.judged errorNoted
    simp only [decide_eq_true_eq]
  · rw [judgeFor_above hw h]
    exact holdScale_judged hnoted _ _ _
  · subst hp
    exact judgeFor_hand_under h
  · rw [judgeFor_weighs hp hw, judgeDose_jogs _ h hjogs]
    refine ⟨rfl, fun x hx => ?_⟩
    rw [enterJog_jogs (errorNoted_curDose _ hd) rfl, Option.some.injEq] at hx
    rw [← hx, ← Dose.judged_jogs (decide (p = .first)) g d]
  · rw [judgeFor_weighs hp hw, judgeDose_short _ h hjogs]
    obtain ⟨hheld, hresume, hstands, -⟩ := holdScale_judged hnoted .underdose [.byte d.position, .wide (g - d.target)] .short
    exact ⟨hheld, hresume, hstands⟩
  · subst hp
    rw [judgeFor_feeds fun h => hw (.inr h)]
    refine ⟨?_, rfl⟩
    unfold openFeed switchPoint
    simp only [decide_eq_true_eq]

end Sys2Proof.Machine
end

