-- ==== Sys2Proof/Proofs/DosingTimers.lean ====
section
/-! SUPPORT. O47: the timers of the Dosing Unit, and what their ends do. -/
namespace Sys2Proof.Machine

/-! ### The channels at the close of an event (R62) -/

/-- The driven outputs are all that a close changes of a channel. -/
theorem drive_channels (s : State) :
    ∃ g : Channel → FeedRate, (drive s).channels = s.channels.map (fun c => { c with output := g c }) := by
  unfold drive
  dsimp only
  split
  · exact ⟨channelOutput s, rfl⟩
  · split
    · exact ⟨fun _ => .off, rfl⟩
    · refine ⟨Channel.output, ?_⟩
      split <;> exact (List.map_id s.channels).symm

theorem settled_channels (s u : State) :
    ∃ g : Channel → FeedRate, (settled s u).channels = (quiesced u).channels.map (fun c => { c with output := g c }) := by
  obtain ⟨g, hg⟩ := drive_channels (reannounce (timers (quiesced u)))
  refine ⟨g, ?_⟩
  unfold settled
  rw [close_eq, hg, reannounce_only]
  rfl

/-- What a function of the channels that leaves their numbers does to the channel of a component. -/
theorem doseChannel_mapped {s t : State} {f : Channel → Channel} (hf : ∀ c, (f c).number = c.number) (hp : t.plan = s.plan)
    (hb : t.bins = s.bins) (hc : t.channels = s.channels.map f) (d : Dose) : doseChannel d t = (doseChannel d s).map f := by
  have hfind (n : Nat) : findChannel n t = (findChannel n s).map f := by
    unfold findChannel
    rw [hc, List.find?_map]
    simp only [Function.comp_def, hf]
  have hof (bin : Nat) : channelOfBin bin t = (channelOfBin bin s).map f := by
    unfold channelOfBin findBin
    rw [hb]
    simp only [hfind]
    cases s.bins.find? (fun e => decide (e.bin = bin)) with
    | none => rfl
    | some e => cases hn : e.channel <;> simp [hn]
  unfold doseChannel planEntry
  rw [hp]
  simp only [hof]
  cases s.plan.bind (DrawPlan.entry d.position) <;> rfl

/-! ### The timers as the close sets them (R67, R69 to R71, R73, R81) -/

theorem settleWanted_iff (s : State) : settleWanted s = true ↔
    (s.scale.state = .tare ∧ s.line = .run) ∨ ((∃ p, s.scale.state = .settle p) ∧ (s.line = .run ∨ s.line = .pausing)) := by
  unfold settleWanted State.moving
  cases s.scale.state <;> simp

theorem stallWanted_iff (s : State) :
    stallWanted s = true ↔ s.scale.state = .feedFast ∨ s.scale.state = .feedSlow := by
  unfold stallWanted
  cases s.scale.state <;> simp

theorem residueWanted_iff (s : State) : residueWanted s = true ↔
    (s.scale.state = .discharge ∨ s.scale.state = .dumping) ∧ s.line ≠ .stopped ∧ s.scaleConv.stable = true
      ∧ ∃ w, s.scaleConv.weight = some w ∧ (s.params.emptyBand : Int) < w := by
  unfold residueWanted
  simp only [Bool.and_eq_true, Bool.or_eq_true, decide_eq_true_eq, notStopped_iff, residueStands_iff, and_assoc]

/-- The timers of the scale follow its state, from what they were. -/
def ScaleTimed (before : Scale) (jogTime : Nat) (t : State) : Prop :=
  RunsWhile ((t.scale.state = .tare ∧ t.line = .run)
      ∨ ((∃ p, t.scale.state = .settle p) ∧ (t.line = .run ∨ t.line = .pausing))) t.params.settleTimeout
      before.settle t.scale.settle
  ∧ RunsWhile (t.scale.state = .feedFast ∨ t.scale.state = .feedSlow) t.params.stallWindow before.stall t.scale.stall
  ∧ RunsWhile (t.scale.state = .jog true) jogTime before.jog t.scale.jog
  ∧ RunsWhile ((t.scale.state = .discharge ∨ t.scale.state = .dumping) ∧ t.line ≠ .stopped ∧ t.scaleConv.stable = true
      ∧ ∃ w, t.scaleConv.weight = some w ∧ (t.params.emptyBand : Int) < w) t.params.settleTimeout
      before.residue t.scale.residue

theorem timers_scaleTimed (x : State) : ScaleTimed x.scale (jogTimeInUse x) (timers x) :=
  ⟨during_of_iff (settleWanted_iff x) _ _, during_of_iff (stallWanted_iff x) _ _, during_of_iff decide_eq_true_iff _ _,
    during_of_iff (residueWanted_iff x) _ _⟩

theorem jogTimeInUse_eq {s : State} {d : Dose} {c : Channel} (hd : curDose s = some d) (hc : doseChannel d s = some c) :
    jogTimeInUse s = c.jogTime := by
  unfold jogTimeInUse
  rw [hd, Option.bind_some, hc]
  rfl

/-- The close of an event sets the timers of the scale from what the event had left of them. -/
theorem settled_scaleTimed (s u : State) : ∃ jogTime, ScaleTimed u.scale jogTime (settled s u)
    ∧ ∀ d c, curDose (settled s u) = some d → doseChannel d (settled s u) = some c → jogTime = c.jogTime := by
  have hc : (quiesced u).clocks = u.clocks := by
    unfold quiesced
    exact beforeTimers_clocks u
  have h := timers_scaleTimed (quiesced u)
  simp only [State.clocks, List.cons.injEq, and_true] at hc
  obtain ⟨h1, h2, h3, h4, -⟩ := hc
  obtain ⟨g, hg⟩ := settled_channels s u
  obtain ⟨ids, q, fs, cs, la, pins, he⟩ := settled_only s u
  refine ⟨jogTimeInUse (quiesced u), ?_, fun d c hd hch => ?_⟩
  · rw [he]
    unfold ScaleTimed at h ⊢
    rw [h1, h2, h3, h4] at h
    generalize quiesced u = x at h ⊢
    exact h
  · have hplan : (settled s u).plan = (quiesced u).plan := by rw [he]; rfl
    have hbins : (settled s u).bins = (quiesced u).bins := by rw [he]; rfl
    have hbatch : (settled s u).scale.batch = (quiesced u).scale.batch := by rw [he]; rfl
    rw [curDose_congr (dosesOf_congr hbatch)] at hd
    rw [doseChannel_mapped (f := fun c => { c with output := g c }) (fun _ => rfl) hplan hbins hg, Option.map_eq_some_iff] at hch
    obtain ⟨x, hx, rfl⟩ := hch
    have htime := jogTimeInUse_eq hd hx
    exact htime

/-! ### The end of a discharge and of a dump (R81, R82) -/

section Ends
variable {s : State}

theorem offWeightNotice_only (b : Batch) (s : State) :
    offWeightNotice b s = { s with tx := (offWeightNotice b s).tx } := by
  unfold offWeightNotice
  split
  · rw [queueNotice_only]
  · rfl

theorem completeDischarge_some {b : Batch} (h : scaleRecord s = some b) :
    completeDischarge s = emptyScale (offWeightNotice b { s with surge := StageRec.doneWith b }) := by
  unfold completeDischarge
  rw [h]

theorem completeDischarge_surge {b : Batch} (h : scaleRecord s = some b) :
    (completeDischarge s).surge = StageRec.doneWith b := by
  rw [completeDischarge_some h, offWeightNotice_only]
  rfl

theorem completeDischarge_tx {b : Batch} (h : scaleRecord s = some b) :
    (completeDischarge s).tx = (offWeightNotice b { s with surge := StageRec.doneWith b }).tx := by
  rw [completeDischarge_some h]
  rfl

/-- Where a discharge has ended, the scale is in IDLE and holds no batch. -/
theorem completeDischarge_idle (s : State) : (completeDischarge s).scale.state = .idle
    ∧ (completeDischarge s).scale.batch = none ∧ (completeDischarge s).plan = none := by
  unfold completeDischarge
  split <;> exact ⟨rfl, rfl, rfl⟩

theorem completeDischarge_faults (s : State) : (completeDischarge s).faults = s.faults := by
  cases h : scaleRecord s with
  | none =>
    unfold completeDischarge
    rw [h]
    rfl
  | some b =>
    rw [completeDischarge_some h, offWeightNotice_only]
    rfl

/-- A dump of the scale goes into the rework outlet, and is not reported (R112). -/
theorem completeDump_eq (s : State) : completeDump s = emptyScale s := by
  unfold completeDump
  split
  · exact reportRetired_outside _ _
  · rfl

theorem scaleRecord_raiseFault (k : FaultKey) (reference : Option Nat) (detail : List DetailField) (s : State) :
    scaleRecord (raiseFault k reference detail s) = scaleRecord s := by
  rw [raiseFault_only]
  rfl

/-! ### The ends of the timers -/

/-- The fault of a residue (R81). -/
def residueRaised (s : State) : State :=
  raiseFault .scaleResidue (scaleRef s) [.wide (s.scaleConv.weight.getD 0)] s

theorem residueExpiry_discharge (h : s.scale.state = .discharge) :
    residueExpiry s = completeDischarge (residueRaised s) := by
  unfold residueExpiry
  rw [h]
  rfl

theorem residueExpiry_dumping (h : s.scale.state = .dumping) : residueExpiry s = emptyScale (residueRaised s) := by
  rw [← completeDump_eq]
  unfold residueExpiry
  rw [h]
  rfl

theorem residueExpiry_ends (h : s.scale.state = .discharge ∨ s.scale.state = .dumping) :
    standing .scaleResidue (residueExpiry s) = true ∧ (residueExpiry s).scale.state = .idle
      ∧ (residueExpiry s).scale.batch = none ∧ (residueExpiry s).plan = none
      ∧ (s.scale.state = .discharge → ∀ b, scaleRecord s = some b → (residueExpiry s).surge = StageRec.doneWith b) := by
  have hraised : standing .scaleResidue (residueRaised s) = true := raiseFault_standing ..
  rcases h with h | h
  · obtain ⟨hidle, hbatch, hplan⟩ := completeDischarge_idle (residueRaised s)
    rw [residueExpiry_discharge h]
    refine ⟨FaultsStand.of_faults (completeDischarge_faults _) _ hraised, hidle, hbatch, hplan, fun _ b hb => ?_⟩
    exact completeDischarge_surge ((scaleRecord_raiseFault _ _ _ s).trans hb)
  · rw [residueExpiry_dumping h]
    refine ⟨hraised, rfl, rfl, rfl, fun hd => ?_⟩
    rw [h] at hd
    cases hd

variable {d : Dose} {e : PlanEntry}

theorem interruptDose_some (hd : curDose s = some d) :
    interruptDose s = updDose d.position (fun x => { x with interrupted := true }) s := by
  unfold interruptDose
  rw [hd]

theorem settleExpiry_tare (hd : curDose s = some d) (h : s.scale.state = .tare) :
    settleExpiry s = holdScale .unstable [.byte d.position] (.tare false) s := by
  unfold settleExpiry
  rw [hd, h]

theorem settleExpiry_handAdd (hd : curDose s = some d) (h : s.scale.state = .settle .handAdd) :
    settleExpiry s = holdScale .unstable [.byte d.position] .handAddSettle s := by
  unfold settleExpiry
  rw [hd, h]

/-- R70, R76: the end of the time of a settle but of a hand-add interrupts the component. -/
theorem settleExpiry_interrupts {p : SettlePurpose} (hd : curDose s = some d) (h : s.scale.state = .settle p)
    (hp : p ≠ .handAdd) : settleExpiry s = holdScale .unstable [.byte d.position] .resumeSettle
      (updDose d.position (fun x => { x with interrupted := true }) s) := by
  rw [← interruptDose_some hd]
  unfold settleExpiry
  rw [hd, h]
  cases p with
  | handAdd => exact absurd rfl hp
  | _ => rfl

/-! ### The stall (R69) -/

theorem stallExpiry_moving {g : Int} (hd : curDose s = some d) (hg : gainOf d s = some g)
    (h : (s.params.stallMinimum : Int) ≤ g - s.scale.noted) :
    stallExpiry s = { s with scale := { s.scale with noted := g, stall := .running s.params.stallWindow } } := by
  unfold stallExpiry
  rw [hd]
  dsimp only
  rw [hg]
  exact if_pos h

/-- The unit of a stalled feed, its draw reported and its bin suspect, before it is held. -/
def stalled (d : Dose) (e : PlanEntry) (s : State) : State := markSuspect e.bin (partialReport d s)

theorem stallExpiry_stalled {g : Int} (hd : curDose s = some d) (hg : gainOf d s = some g)
    (h : g - s.scale.noted < s.params.stallMinimum) (he : planEntry d.position s = some e) :
    stallExpiry s = holdScale .stall [.byte e.bin, .mass (actualOf d s)] .rechoose (stalled d e s) := by
  unfold stallExpiry
  rw [hd]
  dsimp only
  rw [hg]
  dsimp only
  rw [if_neg (by omega), he]
  rfl

theorem stalled_state (he : planEntry d.position s = some e) : (stalled d e s).scale.state = s.scale.state := by
  unfold stalled
  rw [partialReport_eq he, queueFrame_only]
  rfl

theorem stalled_curDose (hd : curDose s = some d) (he : planEntry d.position s = some e) :
    curDose (stalled d e s) = some (d.cut (actualOf d s)) := partialReport_curDose hd he

theorem stalled_bins (he : planEntry d.position s = some e) : (stalled d e s).bins = s.bins.map (fun b =>
    if b.bin = e.bin then { b with estimate := b.estimate.map (fun m => m - actualOf d s), emptySuspect := true } else b) := by
  unfold stalled markSuspect updBin
  dsimp only
  rw [partialReport_bins he, List.map_map]
  refine List.map_congr_left fun b _ => ?_
  by_cases hb : b.bin = e.bin
  · simp [hb, subEstimate]
  · simp [hb]

theorem stalled_tx (he : planEntry d.position s = some e) (h : s.tx.length < 8) :
    OutEntry.fresh (.drawReport (scaleNumber s) e.bin (actualOf d s)) ∈ (stalled d e s).tx := by
  have htx : (stalled d e s).tx = (partialReport d s).tx := rfl
  rw [htx, partialReport_tx he h]
  exact List.mem_append_right _ List.mem_cons_self

theorem mem_holdScale_tx {x : OutEntry} (h : x ∈ s.tx) (k : FaultKey) (detail : List DetailField) (r : ResumePoint) :
    x ∈ (holdScale k detail r s).tx := by
  obtain ⟨rest, hrest⟩ := raiseFault_txExtends k (scaleRef s) detail s
  have htx : (holdScale k detail r s).tx = s.tx ++ rest := hrest
  rw [htx]
  exact List.mem_append_left _ h

theorem feedRate_held (h : s.scale.state = .held) : feedRate s = .off := by
  unfold feedRate
  rw [h]

end Ends

/-- Settles O47: the timers by what the close sets them to, their ends by the state they end in. -/
theorem dosingTimersExpire : Obligations.DosingTimersExpire := by
  refine ⟨fun s u t ht => ?_, fun s hr => ⟨fun h => event_next _ _ s hr h,
    fun h hst => ⟨_, event_next _ _ s hr h, residueExpiry_ends hst⟩, fun d hd => ⟨fun h => ?_, fun h g hg => ?_⟩⟩⟩
  · subst ht
    obtain ⟨jogTime, ⟨hsettle, hstall, hjog, hresidue⟩, htime⟩ := settled_scaleTimed s u
    exact ⟨hsettle, hstall, fun d c hd hc => htime d c hd hc ▸ hjog, hjog.2.2, hresidue⟩
  · have hnext : Becomes .settleTimeout s (settleExpiry s) := event_next _ _ s hr h
    exact ⟨fun hst => settleExpiry_tare hd hst ▸ hnext, fun hst => settleExpiry_handAdd hd hst ▸ hnext,
      fun p hst hp => settleExpiry_interrupts hd hst hp ▸ hnext⟩
  · have hnext : Becomes .stallTimerExpiry s (stallExpiry s) := event_next _ _ s hr h
    refine ⟨fun hmin => stallExpiry_moving hd hg hmin ▸ hnext, fun hmin e he => ⟨_, hnext, ?_⟩⟩
    rw [stallExpiry_stalled hd hg hmin he]
    refine ⟨rfl, feedRate_held rfl, raiseFault_standing .., fun hst => holdScale_resume_unheld (.inl ?_),
      (holdScale_bins ..).trans (stalled_bins he), fun htx => mem_holdScale_tx (stalled_tx he htx) _ _ _, fun x hx => ?_⟩
    · rw [stalled_state he]
      exact hst
    · rw [curDose_congr (holdScale_doses ..), stalled_curDose hd he, Option.some.injEq] at hx
      subst hx
      exact ⟨rfl, rfl⟩

end Sys2Proof.Machine
end

