-- ==== Sys2Proof/Proofs/ScaleSamples.lean ====
section
/-! SUPPORT. O43: a sample of the batch scale, by the state the Dosing Unit stands in. -/
namespace Sys2Proof.Machine

section Weighing
variable {s : State} {d : Dose}

/-! ### The overload (R78) -/

theorem overloadCheck_spared (h : (∀ g, s.scaleConv.lastGross = some g → g ≤ s.params.scaleCapacity)
    ∨ s.scale.state = .dumping ∨ .scaleOverload ∈ s.scale.holdSet) : overloadCheck s = s := by
  unfold overloadCheck
  split
  · rfl
  next g hg =>
    refine if_neg fun hn => ?_
    obtain ⟨hcap, hstate, hset⟩ := hn
    rcases h with h | h | h
    · exact absurd (h g hg) (Int.not_le.2 hcap)
    · exact hstate h
    · exact hset h

/-- The unit whose component is interrupted, as an overload finds it. -/
def overloaded (s : State) : State := if s.scale.state.interruptible then interruptDose s else s

theorem overloadCheck_held {g : Int} (hg : s.scaleConv.lastGross = some g) (hcap : (s.params.scaleCapacity : Int) < g)
    (hstate : s.scale.state ≠ .dumping) (hset : .scaleOverload ∉ s.scale.holdSet) : overloadCheck s
      = holdScale .scaleOverload [.wide g] (overloadResume s.scale.state) (overloaded s) := by
  unfold overloadCheck
  rw [hg]
  exact if_pos ⟨hcap, hstate, hset⟩

theorem interruptDose_only (s : State) :
    interruptDose s = { s with scale := { s.scale with batch := (interruptDose s).scale.batch } } := by
  unfold interruptDose
  split <;> rfl

theorem interruptDose_isSome (s : State) : (interruptDose s).scale.batch.isSome = s.scale.batch.isSome := by
  unfold interruptDose
  split
  · exact Option.isSome_map
  · rfl

theorem interruptDose_interrupted (h : curDose (interruptDose s) = some d) : d.interrupted = true := by
  cases hd : curDose s with
  | none =>
    unfold interruptDose at h
    rw [hd] at h
    rw [hd] at h
    cases h
  | some x =>
    rw [interruptDose_some hd, curDose_updDose (f := fun x => { x with interrupted := true }) (fun _ => rfl) hd,
      Option.some.injEq] at h
    rw [← h]

theorem overloaded_only (s : State) :
    overloaded s = { s with scale := { s.scale with batch := (overloaded s).scale.batch } } := by
  unfold overloaded
  split
  · rw [interruptDose_only]
  · rfl

theorem overloaded_isSome (s : State) : (overloaded s).scale.batch.isSome = s.scale.batch.isSome := by
  unfold overloaded
  split
  · exact interruptDose_isSome s
  · rfl

theorem overloadResume_fed {st : ScaleState}
    (h : st ∈ [.feedFast, .feedSlow, .jog false, .jog true, .settle .first, .settle .jog, .settle .resume]) :
    overloadResume st = .resumeSettle := by
  simp only [List.mem_cons, List.not_mem_nil, or_false] at h
  rcases h with rfl | rfl | rfl | rfl | rfl | rfl | rfl <;> rfl

theorem interruptible_fed {st : ScaleState}
    (h : st ∈ [.feedFast, .feedSlow, .jog false, .jog true, .settle .first, .settle .jog]) : st.interruptible = true := by
  simp only [List.mem_cons, List.not_mem_nil, or_false] at h
  rcases h with rfl | rfl | rfl | rfl | rfl | rfl <;> rfl

/-! ### The test of the state (R64) -/

theorem weighSample_rests (h : s.scale.state ∈ [.held, .complete, .unknown, .handAdd, .jog false, .jog true]) :
    weighSample s = s := by
  simp only [List.mem_cons, List.not_mem_nil, or_false] at h
  unfold weighSample
  rcases h with h | h | h | h | h | h <;> rw [h]

theorem weighSample_idle {g : Int} (h : s.scale.state = .idle) (hg : s.scaleConv.lastGross = some g) : weighSample s =
    if s.scaleConv.stable = true ∧ -(s.params.zeroBand : Int) ≤ g ∧ g ≤ s.params.zeroBand
      then { s with scaleConv := { s.scaleConv with zero := (s.scaleConv.raw.sum + 4) / 8 } } else s := by
  unfold weighSample
  rw [h]
  dsimp only
  rw [hg]
  dsimp only
  unfold within
  simp only [Bool.and_eq_true, decide_eq_true_eq]
  rfl

/-- A discharge or a dump has run out: the scale stands stable and empty. -/
def RanOut (band : Nat) (v : Converter) : Prop :=
  v.stable = true ∧ ∃ w, v.weight = some w ∧ -(band : Int) ≤ w ∧ w ≤ band

theorem ranOut_iff (band : Nat) (v : Converter) : (v.stable && v.isEmpty band) = true ↔ RanOut band v := by
  unfold Converter.isEmpty within RanOut
  cases v.weight <;> simp

theorem weighSample_drains (h : s.scale.state = .discharge ∨ s.scale.state = .dumping)
    (hn : ¬RanOut s.params.emptyBand s.scaleConv) : weighSample s = s := by
  have hneg := mt (ranOut_iff _ _).1 hn
  unfold weighSample
  rcases h with h | h <;> rw [h] <;> exact if_neg hneg

theorem weighSample_discharged (h : s.scale.state = .discharge) (hout : RanOut s.params.emptyBand s.scaleConv) :
    weighSample s = completeDischarge s := by
  unfold weighSample
  rw [h]
  exact if_pos ((ranOut_iff _ _).2 hout)

theorem weighSample_dumped (h : s.scale.state = .dumping) (hout : RanOut s.params.emptyBand s.scaleConv) :
    weighSample s = emptyScale s := by
  rw [← completeDump_eq]
  unfold weighSample
  rw [h]
  exact if_pos ((ranOut_iff _ _).2 hout)

theorem weighSample_tare {w : Int} (h : s.scale.state = .tare) (hd : curDose s = some d)
    (hw : s.scaleConv.weight = some w) :
    weighSample s = if s.scaleConv.stable = true ∧ s.line = .run then takeTare d w s else s := by
  unfold weighSample
  rw [h]
  dsimp only
  rw [hd, hw]

theorem gainOf_tared {t w : Int} (ht : d.tare = some t) (hw : s.scaleConv.weight = some w) : gainOf d s = some (w - t) := by
  unfold gainOf
  rw [ht, hw]

theorem feedSample_eq {fast : Bool} {g : Int} (hg : gainOf d s = some g) : feedSample fast d s =
    if closePoint d s ≤ g then setScale (.settle (cutoffSettle d)) s
    else if fast = true ∧ switchPoint d s ≤ g then setScale .feedSlow s else s := by
  unfold feedSample
  rw [hg]

theorem weighSample_feedFast {g : Int} (h : s.scale.state = .feedFast) (hd : curDose s = some d)
    (hg : gainOf d s = some g) : weighSample s =
      if closePoint d s ≤ g then setScale (.settle (cutoffSettle d)) s
      else if switchPoint d s ≤ g then setScale .feedSlow s else s := by
  unfold weighSample
  rw [h]
  dsimp only
  rw [hd]
  simp only [feedSample_eq hg, true_and]

theorem weighSample_feedSlow {g : Int} (h : s.scale.state = .feedSlow) (hd : curDose s = some d)
    (hg : gainOf d s = some g) :
    weighSample s = if closePoint d s ≤ g then setScale (.settle (cutoffSettle d)) s else s := by
  unfold weighSample
  rw [h]
  dsimp only
  rw [hd]
  simp only [feedSample_eq hg, Bool.false_eq_true, false_and, if_false]

theorem weighSample_settle {p : SettlePurpose} {g : Int} (h : s.scale.state = .settle p) (hd : curDose s = some d)
    (hg : gainOf d s = some g) :
    weighSample s = if s.scaleConv.stable = true then settleSample p g d s else s := by
  unfold weighSample
  rw [h]
  dsimp only
  rw [hd]
  dsimp only
  rw [hg]

/-! ### The tare (R67, R68, R73) -/

theorem tared_curDose (hd : curDose s = some d) (w : Int) : curDose (tared d w s) = some { d with tare := some w } :=
  curDose_updDose (f := fun x => { x with tare := some w }) (fun _ => rfl) ((curDose_congr (firstTared_doses w s)).trans hd)

theorem fedTare_curDose (hd : curDose s = some d) (w : Int) : curDose (fedTare d w s)
    = some { d with tare := some w, mode := some (feedMode d s) } :=
  curDose_updDose (f := fun x => { x with mode := some (feedMode d s) }) (fun _ => rfl) (tared_curDose hd w)

/-- The first tare of the batch in the scale. -/
def firstTareOf (s : State) : Option (Option Int) := s.scale.batch.map ScaleBatch.firstTare

theorem firstTareOf_updDose (p : Nat) (f : Dose → Dose) (s : State) : firstTareOf (updDose p f s) = firstTareOf s := by
  unfold firstTareOf updDose
  rw [Option.map_map]
  rfl

theorem firstTareOf_tared {b : ScaleBatch} (hb : s.scale.batch = some b) (d : Dose) (w : Int) :
    firstTareOf (tared d w s) = some (some (b.firstTare.getD w)) := by
  unfold tared
  rw [firstTareOf_updDose]
  unfold firstTareOf firstTared
  rw [hb]
  dsimp only [Option.map_some]
  cases b.firstTare <;> rfl

theorem firstTareOf_fedTare {b : ScaleBatch} (hb : s.scale.batch = some b) (d : Dose) (w : Int) :
    firstTareOf (fedTare d w s) = some (some (b.firstTare.getD w)) :=
  (firstTareOf_updDose _ _ _).trans (firstTareOf_tared hb d w)

theorem takeTare_hand (hm : d.mode = some .hand) (w : Int) (s : State) : takeTare d w s
    = queueNotice (.handAdd (scaleNumber (tared d w s)) d.ingredient d.target) (setScale .handAdd (tared d w s)) := by
  rw [takeTare_eq]
  exact if_pos hm

theorem takeTare_jogs (hm : d.mode ≠ some .hand) (h : d.target ≤ flightOf d s) (w : Int) :
    takeTare d w s = enterJog d (fedTare d w s) := by
  rw [takeTare_eq, if_neg hm]
  exact if_pos (if_pos h)

theorem takeTare_feeds (hm : d.mode ≠ some .hand) (h : flightOf d s < d.target) (w : Int) :
    takeTare d w s = openFeed (decide (slowOf d s < d.target)) 0 (fedTare d w s) := by
  have hmode : feedMode d (tared d w s) = .feed := if_neg (Nat.not_le.2 h)
  rw [takeTare_eq, if_neg hm, if_neg (by rw [hmode]; decide)]
  rfl

/-- A sample is one event. -/
theorem becomes_scaleSample (hr : ready s = true) (n : BitVec 24) : Becomes (.scaleSample n) s (scaleSample n s) :=
  event_next _ _ s hr rfl

/-! ### The parts of the statement -/

/-- The node with a sample in the converter of the scale. -/
def weighed (n : BitVec 24) (s : State) : State :=
  { s with scaleConv := s.scaleConv.sample s.params.stableBand n.toInt }

/-- A sample that raises no overload is tested by the state alone. -/
theorem becomes_weighSample (hr : ready s = true) {n : BitVec 24}
    (h : (∀ g, (weighed n s).scaleConv.lastGross = some g → g ≤ s.params.scaleCapacity) ∨ s.scale.state = .dumping
      ∨ .scaleOverload ∈ s.scale.holdSet) : Becomes (.scaleSample n) s (weighSample (weighed n s)) := by
  have hnext := becomes_scaleSample hr n
  have hspared : overloadCheck (weighed n s) = weighed n s := overloadCheck_spared h
  unfold scaleSample at hnext
  unfold weighed at hspared ⊢
  rwa [hspared] at hnext

/-- R81: a discharge that has run out. -/
theorem completeDischarge_told {b : Batch} (h : scaleRecord s = some b) :
    (completeDischarge s).surge = StageRec.doneWith b
      ∧ (b.short = false ∧ b.excess = false → (completeDischarge s).tx = s.tx)
      ∧ (b.short = true ∨ b.excess = true → s.tx.length < 8 → (completeDischarge s).tx = s.tx ++ [OutEntry.fresh (.notice
          (.batchOffWeight b.number b.order b.short b.excess b.rework s.scale.net))]) := by
  refine ⟨completeDischarge_surge h, fun hoff => ?_, fun hoff htx => ?_⟩ <;> rw [completeDischarge_tx h]
  · obtain ⟨hshort, hexcess⟩ := hoff
    unfold offWeightNotice
    rw [hshort, hexcess]
    rfl
  · unfold offWeightNotice
    rw [if_pos (by simpa using hoff)]
    exact queueNotice_room (s := { s with surge := StageRec.doneWith b }) _ htx

/-- R67, R68, R73: what the tare of a component opens. -/
theorem takeTare_opens (hd : curDose s = some d) (w : Int) :
    (∀ x, curDose (takeTare d w s) = some x → x.tare = some w)
      ∧ (∀ b, s.scale.batch = some b → firstTareOf (takeTare d w s) = some (some (b.firstTare.getD w)))
      ∧ (d.mode = some .hand → (takeTare d w s).scale.state = .handAdd ∧ (s.tx.length < 8 → (takeTare d w s).tx = s.tx ++
          [OutEntry.fresh (.notice (.handAdd (scaleNumber s) d.ingredient d.target))]))
      ∧ (d.mode ≠ some .hand → d.target ≤ flightOf d s → (takeTare d w s).scale.state = .jog false
          ∧ ∀ x, curDose (takeTare d w s) = some x → x.jogs = d.jogs + 1 ∧ x.mode = some .jogOnly)
      ∧ (d.mode ≠ some .hand → flightOf d s < d.target →
          (takeTare d w s).scale.state = (if d.target ≤ slowOf d s then .feedSlow else .feedFast)
          ∧ (takeTare d w s).scale.noted = 0 ∧ ∀ x, curDose (takeTare d w s) = some x → x.mode = some .feed) := by
  have hfed := fedTare_curDose hd w
  by_cases hm : d.mode = some .hand
  · rw [takeTare_hand hm, queueNotice_only]
    refine ⟨fun x hx => ?_, fun b hb => firstTareOf_tared hb d w, fun _ => ⟨rfl, fun htx => ?_⟩,
      fun h => absurd hm h, fun h => absurd hm h⟩
    · have hx := (tared_curDose hd w).symm.trans hx
      rw [← Option.some.inj hx]
    · have hnumber : scaleNumber (tared d w s) = scaleNumber s := by
        unfold scaleNumber scaleRef tared
        rw [scaleRecord_updDose]
        unfold scaleRecord firstTared
        cases s.scale.batch <;> rfl
      rw [← hnumber]
      exact queueNotice_room (s := setScale .handAdd (tared d w s)) _ htx
  · rcases Nat.lt_or_ge (flightOf d s) d.target with hf | hf
    · rw [takeTare_feeds hm hf]
      refine ⟨fun x hx => ?_, fun b hb => firstTareOf_fedTare hb d w, fun h => absurd h hm,
        fun _ h => absurd hf (Nat.not_lt.2 h), fun _ _ => ⟨?_, rfl, fun x hx => ?_⟩⟩
      · have hx := hfed.symm.trans hx
        rw [← Option.some.inj hx]
      · by_cases hslow : d.target ≤ slowOf d s
        · simp [openFeed, hslow]
        · simp [openFeed, hslow, Nat.not_le.1 hslow]
      · have hx := hfed.symm.trans hx
        rw [← Option.some.inj hx]
        exact congrArg some (if_neg (Nat.not_le.2 hf))
    · have hjog := enterJog_jogs (d := d) hfed rfl
      rw [takeTare_jogs hm hf]
      refine ⟨fun x hx => ?_, fun b hb => ?_, fun h => absurd h hm, fun _ _ => ⟨rfl, fun x hx => ?_⟩,
        fun _ h => absurd hf (Nat.not_le.2 h)⟩
      · have hx := hjog.symm.trans hx
        rw [← Option.some.inj hx]
      · exact (firstTareOf_updDose _ _ _).trans (firstTareOf_fedTare hb d w)
      · have hx := hjog.symm.trans hx
        rw [← Option.some.inj hx]
        exact ⟨rfl, congrArg some (if_pos hf)⟩

/-- R78: the unit as an overload leaves it. -/
theorem overloadCheck_holds {g : Int} (hg : s.scaleConv.lastGross = some g) (hcap : (s.params.scaleCapacity : Int) < g)
    (hstate : s.scale.state ≠ .dumping) (hset : .scaleOverload ∉ s.scale.holdSet) :
    (overloadCheck s).scaleConv = s.scaleConv ∧ (overloadCheck s).scale.state = .held
      ∧ .scaleOverload ∈ (overloadCheck s).scale.holdSet ∧ standing .scaleOverload (overloadCheck s) = true
      ∧ (overloadCheck s).scale.batch.isSome = s.scale.batch.isSome
      ∧ (s.scale.state.interruptible = true → ∀ d, curDose (overloadCheck s) = some d → d.interrupted = true)
      ∧ (s.scale.state ≠ .held → (overloadCheck s).scale.resume = some (overloadResume s.scale.state))
      ∧ (s.scale.state = .held → s.scale.resume.isSome → (overloadCheck s).scale.resume = s.scale.resume) := by
  have hq := overloaded_only s
  have hstate' : (overloaded s).scale.state = s.scale.state := by rw [hq]
  have hresume : (overloaded s).scale.resume = s.scale.resume := by rw [hq]
  have hconv : (overloaded s).scaleConv = s.scaleConv := by rw [hq]
  rw [overloadCheck_held hg hcap hstate hset]
  refine ⟨?_, rfl, mem_holdSet_holdScale.2 (.inl rfl), raiseFault_standing .., ?_, fun hi d hd => ?_, fun hh => ?_,
    fun hh hs => ?_⟩
  · rw [holdScale_only]
    exact hconv
  · rw [holdScale_batch]
    exact overloaded_isSome s
  · rw [curDose_congr (holdScale_doses ..)] at hd
    unfold overloaded at hd
    rw [if_pos hi] at hd
    exact interruptDose_interrupted hd
  · exact holdScale_resume_unheld (.inl (by rwa [hstate']))
  · rw [holdScale_resume, hstate', hresume, if_pos ⟨hh, hs⟩]

end Weighing

/-- Settles O43: the overload first, then the test of the state the unit stands in. -/
theorem scaleSamplesFollowState : Obligations.ScaleSamplesFollowState := by
  refine ⟨fun s n hr hspare => ?_, fun s n g hr hg hcap hstate hset => ?_⟩
  · have hnext := becomes_weighSample hr hspare
    refine ⟨fun h => ?_, fun h g hg => ?_, fun h => ⟨fun hn => ?_, fun hdone => ⟨_, hnext, ?_⟩⟩, fun d w hd hw =>
      ⟨fun h hn => ?_, fun h hs hl => ⟨_, hnext, ?_⟩, fun t ht => ?_⟩⟩
    · rwa [weighSample_rests (s := weighed n s) h] at hnext
    · rwa [weighSample_idle (s := weighed n s) h hg] at hnext
    · rwa [weighSample_drains (s := weighed n s) h hn] at hnext
    · rcases h with h | h
      · rw [weighSample_discharged (s := weighed n s) h hdone]
        obtain ⟨hidle, hbatch, hplan⟩ := completeDischarge_idle (weighed n s)
        refine ⟨hidle, hbatch, hplan, fun hd => ?_, fun _ b hb => completeDischarge_told (s := weighed n s) hb⟩
        rw [h] at hd
        cases hd
      · rw [weighSample_dumped (s := weighed n s) h hdone]
        refine ⟨rfl, rfl, rfl, fun _ => ⟨rfl, rfl, rfl⟩, fun hd => ?_⟩
        rw [h] at hd
        cases hd
    · have hneg : ¬((weighed n s).scaleConv.stable = true ∧ (weighed n s).line = .run) := fun hb =>
        hn.elim (fun hf => Bool.false_ne_true (hf.symm.trans hb.1)) (fun hl => hl hb.2)
      rwa [weighSample_tare (s := weighed n s) h hd hw, if_neg hneg] at hnext
    · rw [weighSample_tare (s := weighed n s) h hd hw, if_pos ⟨hs, hl⟩]
      exact takeTare_opens (s := weighed n s) hd w
    · have hgain : gainOf d (weighed n s) = some (w - t) := gainOf_tared ht hw
      refine ⟨fun h => ?_, fun h => ?_, fun p h hs => ?_, fun p h hs => ?_, fun h hl => ?_⟩
      · rwa [weighSample_feedFast (s := weighed n s) h hd hgain] at hnext
      · rwa [weighSample_feedSlow (s := weighed n s) h hd hgain] at hnext
      · rwa [weighSample_settle (s := weighed n s) h hd hgain, if_neg (by rw [weighed, hs]; decide)] at hnext
      · have hs : (weighed n s).scaleConv.stable = true := hs
        rwa [weighSample_settle (s := weighed n s) h hd hgain, if_pos hs] at hnext
      · have hwaits : settleSample .resume (w - t) d (weighed n s) = weighed n s :=
          settleSample_waits (by simpa [weighed] using hl)
        rwa [weighSample_settle (s := weighed n s) h hd hgain, hwaits, ite_self] at hnext
  · have hnext := becomes_scaleSample hr n
    obtain ⟨hconv, hheld, hmem, hstands, hbatch, hinterrupts, hresume, hkeeps⟩ :=
      overloadCheck_holds (s := weighed n s) hg hcap hstate hset
    unfold scaleSample at hnext
    have hof (st : ScaleState) (hst : st ≠ .held) (h : s.scale.state = st) :
        (overloadCheck (weighed n s)).scale.resume = some (overloadResume st) := by
      subst h
      exact hresume hst
    refine ⟨overloadCheck (weighed n s), ?_, hconv, hheld, feedRate_held hheld, hmem, hstands, hbatch, fun h => ?_,
      fun h => hinterrupts (interruptible_fed h), hof .tare nofun,
      fun h => h.elim (hof .handAdd nofun) (hof (.settle .handAdd) nofun), hof .idle nofun, hof .complete nofun,
      hof .discharge nofun, hof .unknown nofun, hkeeps⟩
    · have hrests : weighSample (overloadCheck (weighed n s)) = overloadCheck (weighed n s) :=
        weighSample_rests (by rw [hheld]; decide)
      rw [← hrests]
      exact hnext
    · rw [hof _ (fun hh => ?_) rfl, overloadResume_fed h]
      rw [hh] at h
      revert h
      decide

end Sys2Proof.Machine
end

