-- ==== Sys2Proof/Proofs/StopLine.lean ====
section
/-! SUPPORT. O36: the STOP line seen asserted and released. -/
namespace Sys2Proof.Machine

/-! ### The close of an event on a line that is STOPPED or PAUSED -/

theorem quiesced_kept (u : State) : (quiesced u).kept = u.kept := by
  unfold quiesced
  rw [pauseReports_kept, takeBay_kept, abandonBay_kept, rounds_kept]

theorem settled_inputs (s u : State) : (settled s u).inputs = u.inputs := by
  have h : (quiesced u).inputs = u.inputs := congrArg Kept.inputs (quiesced_kept u)
  obtain ⟨ids, q, fs, cs, la, pins, he⟩ := settled_only s u
  rw [he, ← h]
  rfl

theorem settled_straps (s u : State) : (settled s u).straps = u.straps := by
  have h : (quiesced u).straps = u.straps := congrArg Kept.straps (quiesced_kept u)
  obtain ⟨ids, q, fs, cs, la, pins, he⟩ := settled_only s u
  rw [he, ← h]
  rfl

theorem settled_ready (s u : State) : ready (settled s u) = ready u := by
  obtain ⟨ids, q, fs, cs, la, pins, he⟩ := settled_only s u
  have hpower : (quiesced u).power = u.power := congrArg Kept.power (quiesced_kept u)
  have hpin : (quiesced u).resetPin = u.resetPin := congrArg Kept.resetPin (quiesced_kept u)
  unfold ready
  rw [he, ← hpower, ← hpin]
  rfl

theorem settled_pins (s : State) {u : State} (hr : ready u = true) : (settled s u).pins = outputsOf (settled s u) :=
  (settled_follows s u).pins_eq ((settled_ready s u).trans hr)

theorem timers_bagger (x : State) : (timers x).bagger = { x.bagger with
    fill := Timer.during (x.bagger.bucket.isFilling && x.moving) x.params.chargeLimit x.bagger.fill
    settle := Timer.during (x.bagger.bucket.isSettling && x.moving) x.params.settleTimeout x.bagger.settle
    jog := Timer.during (decide (x.bagger.bucket = .jog true)) x.params.baggerJogTime x.bagger.jog
    discharge := Timer.freezing x.bagger.bucket.emptying (notStopped x) x.params.settleTimeout x.bagger.discharge } := rfl

section Halted
variable {u : State} (hrun : u.line ≠ .run) (hpausing : u.line ≠ .pausing)
include hrun hpausing

theorem quiesced_halted : quiesced u = abandonBay (rounds u) := by
  have hline : (abandonBay (rounds u)).line = u.line :=
    still_line ((works_still (abandonBay_works _)).trans (rounds_still hrun))
  unfold quiesced
  rw [takeBay_offRun (by rwa [hline])]
  exact if_neg (by rwa [hline])

theorem quiesced_still : (quiesced u).still = u.still := by
  rw [quiesced_halted hrun hpausing]
  exact (works_still (abandonBay_works _)).trans (rounds_still hrun)

theorem quiesced_bagger (hp : u.permitted) : (quiesced u).bagger = u.bagger := by
  rw [quiesced_halted hrun hpausing]
  exact (works_bagger (abandonBay_works _)).trans (rounds_bagger hrun hp)

theorem quiesced_stage (j : StageId) (hj : (stageOf j u).state ≠ .held) : stageOf j (quiesced u) = stageOf j u := by
  rw [quiesced_halted hrun hpausing]
  exact (works_stage (abandonBay_works _) j).trans (rounds_stage hrun j hj)

theorem quiesced_loops : ((quiesced u).surge.state ≠ .held → (quiesced u).train.grinder.speed = 0)
    ∧ ((quiesced u).press.state ≠ .held → (quiesced u).train.presser.speed = 0) := by
  have hloops := rounds_loops hrun
  have hworks := abandonBay_works (rounds u)
  rw [quiesced_halted hrun hpausing, abandonBay_train]
  have hsurge : (abandonBay (rounds u)).surge = (rounds u).surge := works_stage hworks .surge
  have hpress : (abandonBay (rounds u)).press = (rounds u).press := works_stage hworks .press
  rwa [hsurge, hpress]

theorem settled_still (s : State) : (settled s u).line = u.line ∧ (settled s u).scale.state = u.scale.state
    ∧ (settled s u).fin = u.fin ∧ (settled s u).train.motorsHeld = u.train.motorsHeld
    ∧ (settled s u).train.steam = u.train.steam ∧ (settled s u).bagger.mode = u.bagger.mode
    ∧ (settled s u).bagger.spout = u.bagger.spout ∧ (settled s u).bagger.zeroed = u.bagger.zeroed := by
  have h := quiesced_still hrun hpausing
  have hscale : (quiesced u).scale = u.scale := congrArg Still.scale h
  have hstate : (quiesced u).scale.state = u.scale.state := congrArg Scale.state hscale
  obtain ⟨ids, q, fs, cs, la, pins, he⟩ := settled_only s u
  rw [he]
  generalize quiesced u = x at h hstate ⊢
  exact ⟨congrArg Still.line h, hstate, congrArg Still.fin h, congrArg Still.motorsHeld h,
    congrArg Still.steam h, congrArg Still.mode h, congrArg Still.spout h, congrArg Still.zeroed h⟩

theorem settled_stage (s : State) (j : StageId) (hj : (stageOf j u).state ≠ .held) :
    stageOf j (settled s u) = stageOf j u := by
  obtain ⟨ids, q, fs, cs, la, pins, he⟩ := settled_only s u
  rw [he, ← quiesced_stage hrun hpausing j hj]
  generalize quiesced u = x
  cases j
  · exact (rfl : x.surge = x.surge)
  · exact (rfl : x.mixer = x.mixer)
  · exact (rfl : x.press = x.press)

theorem settled_loops (s : State) : ((settled s u).surge.state ≠ .held → (settled s u).train.grinder.speed = 0)
    ∧ ((settled s u).press.state ≠ .held → (settled s u).train.presser.speed = 0) := by
  have hloops := quiesced_loops hrun hpausing
  obtain ⟨ids, q, fs, cs, la, pins, he⟩ := settled_only s u
  rw [he]
  generalize quiesced u = x at hloops ⊢
  exact hloops

/-- A bagger whose charge may be drawn stands as it is, but for its timers. -/
theorem settled_bagger (s : State) (hp : u.permitted) : (settled s u).bagger.bucket = u.bagger.bucket
    ∧ (settled s u).bagger.charge = u.bagger.charge ∧ (settled s u).bagger.inFlight = u.bagger.inFlight
    ∧ (settled s u).bagger.discharge
        = Timer.freezing u.bagger.bucket.emptying (notStopped u) u.params.settleTimeout u.bagger.discharge := by
  have hbag := quiesced_bagger hrun hpausing hp
  have hline := still_line (quiesced_still hrun hpausing)
  have hparams : (quiesced u).params = u.params := congrArg Kept.params (quiesced_kept u)
  obtain ⟨ids, q, fs, cs, la, pins, he⟩ := settled_only s u
  unfold notStopped
  rw [he, ← hbag, ← hline, ← hparams]
  exact ⟨rfl, rfl, rfl, rfl⟩

omit hpausing in
/-- What the bagger is at work on was so before (R156). -/
theorem settled_atWork (s : State) (h : (settled s u).bagger.bucket.atWork) :
    (settled s u).bagger.bucket = u.bagger.bucket := (close_rests hrun).bucket h

omit hpausing in
theorem settled_spout (s : State) (h : spoutOpen u = false) : spoutOpen (settled s u) = false :=
  Bool.eq_false_iff.2 fun ho => Bool.false_ne_true (h.symm.trans ((close_rests hrun).spout ho))

/-- R144, R145: no charge is timed but in RUN and PAUSING. -/
theorem settled_chargeTimers (s : State) (hj : u.bagger.bucket ≠ .jog true) : (settled s u).bagger.fill = .stopped
    ∧ (settled s u).bagger.settle = .stopped ∧ (settled s u).bagger.jog = .stopped := by
  have hline : (quiesced u).line = u.line := still_line (quiesced_still hrun hpausing)
  have hmoving : (quiesced u).moving = false := by
    unfold State.moving
    rw [hline]
    simp [hrun, hpausing]
  have hjog : (settled s u).bagger.bucket ≠ .jog true := fun ht => by
    have hwork : (settled s u).bagger.bucket.atWork := by
      unfold Bucket.atWork
      rw [ht]
      decide
    exact hj ((settled_atWork hrun s hwork).symm.trans ht)
  obtain ⟨ids, q, fs, cs, la, pins, he⟩ := settled_only s u
  have hbag : (settled s u).bagger = (timers (quiesced u)).bagger := by rw [he]
  rw [hbag, timers_bagger] at hjog ⊢
  dsimp only at hjog ⊢
  rw [hmoving, Bool.and_false, Bool.and_false, decide_eq_false hjog]
  exact ⟨rfl, rfl, rfl⟩

end Halted

/-! ### What is driven while the line is STOPPED (R182) -/

/-- The outputs of a node whose line is STOPPED, where nothing feeds and no motor is let run. -/
theorem stoppedOutputs {t : State} (hline : t.line = .stopped) (hspout : spoutOpen t = false)
    (hmotors : t.train.motorsHeld = true) (hsteam : t.train.steam.running = false) (hfeed : feedRate t = .off)
    (hbag : bagFeed t = .off)
    (hloops : (t.surge.state ≠ .held → t.train.grinder.speed = 0) ∧ (t.press.state ≠ .held → t.train.presser.speed = 0)) :
    let pins := outputsOf t
    (∀ rate ∈ pins.bagFeeder :: pins.channels, rate = .off)
    ∧ (∀ gate ∈ [pins.scaleDischarge, pins.scaleDump, pins.mixerDischarge, pins.surgeDump, pins.mixerDump,
        pins.pressDump, pins.finishedDump, pins.bagGate, pins.rejectGate, pins.spout], gate = false)
    ∧ (∀ motor ∈ [pins.grinderMotor, pins.mixerMotor, pins.pressMotor, pins.cooler], motor = false)
    ∧ pins.grinderFeed = 0 ∧ pins.pressFeed = 0 ∧ pins.steamValve = 0
    ∧ (pins.release = true ↔ t.straps.bagger = true ∧ t.bagger.spout = .filled) := by
  have hopen : notStopped t = false := by simp [notStopped, hline]
  have hidle {p : Phase} {r : StageRec} {speed : Nat} (h : r.state ≠ .held → speed = 0) :
      (if r.busyWith p then speed else 0) = 0 := by
    split
    · rename_i hb
      exact h (by rw [((busyWith_iff p r).1 hb).1]; decide)
    · rfl
  refine ⟨fun rate hr => ?_, fun gate hg => ?_, fun motor hm => ?_, hidle hloops.1, hidle hloops.2, ?_, ?_⟩
  · rcases List.mem_cons.1 hr with rfl | hr
    · unfold outputsOf
      dsimp only
      rw [hbag, ite_self]
    · obtain ⟨c, -, rfl⟩ := List.mem_map.1 hr
      unfold channelOutput
      rw [hfeed, ite_self]
  · simp only [outputsOf, hopen, hspout, Bool.and_false, List.mem_cons, List.not_mem_nil, or_false, or_self] at hg
    exact hg
  · simp only [outputsOf, hmotors, Bool.not_true, Bool.false_and, List.mem_cons, List.not_mem_nil, or_false, or_self] at hm
    exact hm
  · exact if_neg (by rw [hsteam]; decide)
  · simp [outputsOf]

/-! ### The stop of the units (R84, R123, R156) -/

theorem stopDosing_only (s : State) : stopDosing s = { s with scale := (stopDosing s).scale } := by
  unfold stopDosing
  dsimp only
  split <;> rw [interruptDose_only] <;> rfl

theorem stopDosing_state (s : State) :
    (s.scale.state ∈ [.feedFast, .feedSlow, .jog true, .settle .first, .settle .jog] →
        (stopDosing s).scale.state = .settle .resume)
      ∧ (s.scale.state ∉ [.feedFast, .feedSlow, .jog true, .settle .first, .settle .jog] →
        (stopDosing s).scale.state = s.scale.state) := by
  have hst : (interruptDose s).scale.state = s.scale.state := by rw [interruptDose_only]
  rw [← hst]
  unfold stopDosing
  dsimp only
  split
  case h_6 hfast hslow hjog hfirst hjogged =>
    refine ⟨fun h => ?_, fun _ => rfl⟩
    simp only [List.mem_cons, List.not_mem_nil, or_false] at h
    rcases h with h | h | h | h | h
    · exact absurd h hfast
    · exact absurd h hslow
    · exact absurd h hjog
    · exact absurd h hfirst
    · exact absurd h hjogged
  all_goals
    rename_i h
    refine ⟨fun _ => rfl, fun hn => absurd ?_ hn⟩
    rw [h]
    decide

theorem stopDosing_interrupted {s : State} {d : Dose} (h : curDose (stopDosing s) = some d) : d.interrupted = true := by
  refine interruptDose_interrupted (s := s) ?_
  rw [← h]
  refine curDose_congr ?_
  unfold stopDosing
  dsimp only
  split <;> rfl

theorem stopDosing_unfed (s : State) : feedRate (stopDosing s) = .off := by
  by_contra h
  exact Bool.false_ne_true ((stopDosing_feeding s).symm.trans ((feedRate_ne_off_iff _).1 h))

/-- A charge that the STOP line interrupts (R156). -/
def Bucket.stops (b : Bucket) : Prop :=
  b ∈ [.filling true, .filling false, .jog true, .settling .first, .settling .jog]

theorem stopBagger_stops {s : State} (h : s.bagger.bucket.stops) : stopBagger s = { s with bagger := { s.bagger with
    bucket := .settling .resume, charge := s.bagger.charge.map (fun c => { c with interrupted := true }) } } := by
  unfold Bucket.stops at h
  simp only [List.mem_cons, List.not_mem_nil, or_false] at h
  unfold stopBagger
  rcases h with h | h | h | h | h <;> rw [h] <;> rfl

theorem stopBagger_stands {s : State} (h : ¬s.bagger.bucket.stops) : stopBagger s = s := by
  unfold Bucket.stops at h
  unfold stopBagger
  split
  next fast hb =>
    rw [hb] at h
    cases fast <;> exact absurd (by decide) h
  next hb =>
    rw [hb] at h
    exact absurd (by decide) h
  next hb =>
    rw [hb] at h
    exact absurd (by decide) h
  next hb =>
    rw [hb] at h
    exact absurd (by decide) h
  next => rfl

/-- The units but the bagger, as the stop leaves them. -/
def stopFed (s : State) : State := stopTrain (stopDosing (stopSeen s))

theorem stopLine_stopFed (s : State) : stopLine s = closeSpout .line (stopBagger (stopFed s)) := rfl

theorem stopSeen_tx {s : State} (hl : s.line ≠ .stopped) (htx : s.tx.length < 8) :
    (stopSeen s).tx = s.tx ++ [OutEntry.fresh (.notice (.lineState .stopped .stopAsserted))] := by
  unfold stopSeen
  dsimp only
  rw [if_neg hl]
  exact setLine_tx (s := { s with inputs := { s.inputs with stopLine := true }, reports := Reports.blank }) _ _ htx

theorem stopFed_only (s : State) : stopFed s = { s with
    inputs := { s.inputs with stopLine := true }, reports := Reports.blank, line := .stopped, tx := (stopSeen s).tx
    scale := (stopDosing (stopSeen s)).scale
    train := { s.train with
      grinder := s.train.grinder.halt, presser := s.train.presser.halt, motorsHeld := true
      steam := s.train.steam.halt } } := by
  obtain ⟨tx, hseen⟩ := stopSeen_only s
  have htx : (stopSeen s).tx = tx := by rw [hseen]
  have hdosed := stopDosing_only (stopSeen s)
  unfold stopFed
  rw [htx]
  generalize (stopDosing (stopSeen s)).scale = x at hdosed ⊢
  rw [hdosed, hseen]
  rfl

/-! ### The parts of the statement -/

section Stopped
variable (s : State)

/-- The node as the STOP line leaves it. -/
theorem stopLine_only : ∃ step stepTimer, stopLine s = { stopBagger (stopFed s) with step := step, stepTimer := stepTimer } :=
  ⟨_, _, (stopLine_stopFed s).trans (closeSpout_only _ _)⟩

theorem stopBagger_only : stopBagger s = { s with bagger := (stopBagger s).bagger } := by
  unfold stopBagger
  split <;> rfl

/-- What the stop leaves of the node but its bagger. -/
theorem stopLine_fed : ∃ step stepTimer, stopLine s =
    { stopFed s with bagger := (stopLine s).bagger, step := step, stepTimer := stepTimer } := by
  obtain ⟨step, stepTimer, h⟩ := stopLine_only s
  refine ⟨step, stepTimer, h.trans ?_⟩
  have hbag : (stopLine s).bagger = (stopBagger (stopFed s)).bagger := by rw [h]
  rw [hbag]
  conv_lhs => rw [stopBagger_only]

theorem stopLine_bagger : (s.bagger.bucket.stops → (stopLine s).bagger = { s.bagger with
      bucket := .settling .resume, charge := s.bagger.charge.map (fun c => { c with interrupted := true }) })
    ∧ (¬s.bagger.bucket.stops → (stopLine s).bagger = s.bagger) := by
  obtain ⟨step, stepTimer, h⟩ := stopLine_only s
  have hfed : (stopFed s).bagger = s.bagger := by rw [stopFed_only]
  refine ⟨fun hs => ?_, fun hs => ?_⟩ <;> rw [← hfed] at hs <;> rw [h]
  · rw [stopBagger_stops hs, hfed]
  · rw [stopBagger_stands hs]
    exact hfed

/-- No charge is fed or pulsed once the line is stopped, and only one that waited still waits. -/
theorem stopLine_bucket : (stopLine s).bagger.bucket ∉ [.filling true, .filling false, .jog true]
    ∧ ((stopLine s).bagger.bucket = .jog false → s.bagger.bucket = .jog false) := by
  obtain ⟨hstops, hstands⟩ := stopLine_bagger s
  by_cases h : s.bagger.bucket.stops
  · have hsettles : (stopLine s).bagger.bucket = .settling .resume := by rw [hstops h]
    rw [hsettles]
    exact ⟨by decide, nofun⟩
  · rw [hstands h]
    refine ⟨fun hm => h ?_, id⟩
    unfold Bucket.stops
    simp only [List.mem_cons, List.not_mem_nil, or_false] at hm ⊢
    rcases hm with hm | hm | hm <;> simp [hm]

theorem stopLine_permitted (h : s.bagger.bucket = .jog false → permitsDrawing s = true) : (stopLine s).permitted := by
  obtain ⟨hoff, hwaits⟩ := stopLine_bucket s
  obtain ⟨step, stepTimer, hfed⟩ := stopLine_fed s
  have hfin : (stopLine s).fin = s.fin := by rw [hfed, stopFed_only]
  by_cases hj : (stopLine s).bagger.bucket = .jog false
  · refine .inl ?_
    unfold permitsDrawing at h ⊢
    rw [hfin]
    exact h (hwaits hj)
  · refine .inr fun hm => ?_
    simp only [List.mem_cons, List.not_mem_nil, or_false, not_or] at hm hoff
    obtain ⟨hfast, hslow, hpulse⟩ := hoff
    rcases hm with hm | hm | hm | hm
    · exact hfast hm
    · exact hslow hm
    · exact hpulse hm
    · exact hj hm

/-- R182: what the node is once the line is stopped. -/
theorem stopLine_stops (u : State) (hu : u = stopLine s) : u.line = .stopped ∧ u.inputs.stopLine = true
    ∧ u.reports = Reports.blank ∧ feedRate u = .off ∧ bagFeed u = .off ∧ spoutOpen u = false
    ∧ u.train.grinder.speed = 0 ∧ u.train.presser.speed = 0 ∧ u.train.steam.running = false
    ∧ u.train.steam.valve = s.train.steam.valve ∧ u.train.motorsHeld = true
    ∧ (s.scale.state ∈ [.feedFast, .feedSlow, .jog true, .settle .first, .settle .jog] → u.scale.state = .settle .resume)
    ∧ (s.scale.state ∉ [.feedFast, .feedSlow, .jog true, .settle .first, .settle .jog] → u.scale.state = s.scale.state)
    ∧ (∀ d, curDose u = some d → d.interrupted = true)
    ∧ (u.surge = s.surge ∧ u.mixer = s.mixer ∧ u.press = s.press ∧ u.fin = s.fin) := by
  have hbag : bagFeed u = .off := (bagFeed_cases u).2.2 (hu ▸ (stopLine_bucket s).1)
  have hspout : spoutOpen u = false := hu ▸ closeSpout_closed .line _
  have hseen : (stopSeen s).scale = s.scale := by
    obtain ⟨tx, h⟩ := stopSeen_only s
    rw [h]
  have hstate := stopDosing_state (stopSeen s)
  rw [hseen] at hstate
  have hunfed := stopDosing_unfed (stopSeen s)
  obtain ⟨step, stepTimer, hfed⟩ := stopLine_fed s
  rw [stopFed_only] at hfed
  generalize (stopLine s).bagger = bag at hfed
  rw [← hu] at hfed
  have hscale : u.scale = (stopDosing (stopSeen s)).scale := by rw [hfed]
  have hfeed : feedRate u = .off := by
    unfold feedRate at hunfed ⊢
    rwa [hscale]
  have hline : u.line = .stopped ∧ u.inputs.stopLine = true ∧ u.reports = Reports.blank := by
    rw [hfed]
    exact ⟨rfl, rfl, rfl⟩
  have htrain : u.train.grinder.speed = 0 ∧ u.train.presser.speed = 0 ∧ u.train.steam.running = false
      ∧ u.train.steam.valve = s.train.steam.valve ∧ u.train.motorsHeld = true := by
    rw [hfed]
    exact ⟨rfl, rfl, rfl, rfl, rfl⟩
  have hstages : u.surge = s.surge ∧ u.mixer = s.mixer ∧ u.press = s.press ∧ u.fin = s.fin := by
    rw [hfed]
    exact ⟨rfl, rfl, rfl, rfl⟩
  have hdoses : dosesOf u = dosesOf (stopDosing (stopSeen s)) := dosesOf_congr (congrArg Scale.batch hscale)
  obtain ⟨hstopped, hseen', hreports⟩ := hline
  obtain ⟨hgrinder, hpresser, hsteam, hvalve, hmotors⟩ := htrain
  rw [← hscale] at hstate
  exact ⟨hstopped, hseen', hreports, hfeed, hbag, hspout, hgrinder, hpresser, hsteam, hvalve, hmotors, hstate.1, hstate.2,
    fun d hd => stopDosing_interrupted ((curDose_congr hdoses).symm.trans hd), hstages⟩

theorem stopLine_tx (hl : s.line ≠ .stopped) (htx : s.tx.length < 8) :
    (stopLine s).tx = s.tx ++ [OutEntry.fresh (.notice (.lineState .stopped .stopAsserted))] := by
  obtain ⟨step, stepTimer, hfed⟩ := stopLine_fed s
  rw [hfed, stopFed_only]
  exact stopSeen_tx hl htx

end Stopped

section Closed
variable {s u t : State} (hu : u = stopLine s) (ht : t = settled s u)
include hu

theorem stopLine_keepsBagger : u.bagger.mode = s.bagger.mode ∧ u.bagger.spout = s.bagger.spout
    ∧ u.bagger.zeroed = s.bagger.zeroed ∧ u.bagger.inFlight = s.bagger.inFlight
    ∧ u.bagger.discharge = s.bagger.discharge := by
  subst hu
  obtain ⟨hstops, hstands⟩ := stopLine_bagger s
  by_cases h : s.bagger.bucket.stops
  · rw [hstops h]
    exact ⟨rfl, rfl, rfl, rfl, rfl⟩
  · rw [hstands h]
    exact ⟨rfl, rfl, rfl, rfl, rfl⟩

theorem stopLine_kept : u.straps = s.straps ∧ ready u = ready s := by
  obtain ⟨step, stepTimer, hfed⟩ := stopLine_fed s
  rw [stopFed_only] at hfed
  rw [hu, hfed]
  exact ⟨rfl, rfl⟩

theorem stopLine_rests : u.line ≠ .run ∧ u.line ≠ .pausing := by
  obtain ⟨hline, -⟩ := stopLine_stops s u hu
  rw [hline]
  exact ⟨by decide, by decide⟩

include ht

/-- R156: the bagger at the close of the stop. -/
theorem settled_stoppedBagger : t.line = .stopped ∧ t.bagger.mode = s.bagger.mode ∧ t.bagger.spout = s.bagger.spout
    ∧ t.bagger.zeroed = s.bagger.zeroed
    ∧ ((s.bagger.bucket = .jog false → permitsDrawing s = true) → t.bagger.bucket = u.bagger.bucket
        ∧ t.bagger.charge = u.bagger.charge ∧ t.bagger.inFlight = s.bagger.inFlight)
    ∧ t.bagger.fill = .stopped ∧ t.bagger.settle = .stopped ∧ t.bagger.jog = .stopped
    ∧ (∀ left, s.bagger.bucket = .discharging ∨ s.bagger.bucket = .unknown true → s.bagger.discharge = .running left →
        t.bagger.discharge = .frozen left) := by
  obtain ⟨hrun, hpausing⟩ := stopLine_rests hu
  obtain ⟨hmode, hspout, hzeroed, hflight, hdischarge⟩ := stopLine_keepsBagger hu
  obtain ⟨hline, -, -, -, -, hmode', hspout', hzeroed'⟩ := settled_still hrun hpausing s
  have hoff : u.bagger.bucket ∉ [.filling true, .filling false, .jog true] := hu ▸ (stopLine_bucket s).1
  obtain ⟨hfill, hsettle, hjog⟩ := settled_chargeTimers hrun hpausing s fun hj => hoff (by rw [hj]; decide)
  have hstopped : u.line = .stopped := (stopLine_stops s u hu).1
  subst ht
  refine ⟨hline.trans hstopped, hmode'.trans hmode, hspout'.trans hspout, hzeroed'.trans hzeroed, fun hp => ?_, hfill,
    hsettle, hjog, fun left he hleft => ?_⟩
  · obtain ⟨hbucket, hcharge, hflight', -⟩ := settled_bagger hrun hpausing s (hu ▸ stopLine_permitted s hp)
    exact ⟨hbucket, hcharge, hflight'.trans hflight⟩
  · have hstands : u.bagger = s.bagger := hu ▸ (stopLine_bagger s).2 (fun hs => by
      unfold Bucket.stops at hs
      rcases he with he | he <;> rw [he] at hs <;> revert hs <;> decide)
    have hp : u.permitted := hu ▸ stopLine_permitted s fun hj => by rcases he with he | he <;> cases hj.symm.trans he
    obtain ⟨-, -, -, htimer⟩ := settled_bagger hrun hpausing s hp
    have hempties : s.bagger.bucket.emptying = true := by rcases he with he | he <;> rw [he] <;> rfl
    have hclosed : notStopped u = false := by simp [notStopped, hstopped]
    rw [htimer, hstands, hempties, hclosed, hleft]
    rfl

/-- R182: the outputs at the close of the stop. -/
theorem settled_stoppedPins (hr : ready s = true) : (∀ rate ∈ t.pins.bagFeeder :: t.pins.channels, rate = .off)
    ∧ (∀ gate ∈ [t.pins.scaleDischarge, t.pins.scaleDump, t.pins.mixerDischarge, t.pins.surgeDump, t.pins.mixerDump,
        t.pins.pressDump, t.pins.finishedDump, t.pins.bagGate, t.pins.rejectGate, t.pins.spout], gate = false)
    ∧ (∀ motor ∈ [t.pins.grinderMotor, t.pins.mixerMotor, t.pins.pressMotor, t.pins.cooler], motor = false)
    ∧ t.pins.grinderFeed = 0 ∧ t.pins.pressFeed = 0 ∧ t.pins.steamValve = 0
    ∧ (t.pins.release = true ↔ s.straps.bagger = true ∧ s.bagger.spout = .filled) := by
  obtain ⟨hrun, hpausing⟩ := stopLine_rests hu
  obtain ⟨hstopped, -, -, hfeed, -, hspout, -, -, hsteam, -, hmotors, -⟩ := stopLine_stops s u hu
  obtain ⟨hline, hstate, -, hmotors', hsteam', -, hfilled, -⟩ := settled_still hrun hpausing s
  obtain ⟨hstraps, hready⟩ := stopLine_kept hu
  have hbag : bagFeed (settled s u) = .off := (bagFeed_cases _).2.2 fun hm => by
    have hwork : (settled s u).bagger.bucket.atWork := by
      simp only [List.mem_cons, List.not_mem_nil, or_false] at hm
      unfold Bucket.atWork
      rcases hm with hm | hm | hm <;> rw [hm] <;> decide
    rw [settled_atWork hrun s hwork] at hm
    exact (stopLine_bucket s).1 (hu ▸ hm)
  have hunfed : feedRate (settled s u) = .off := by
    unfold feedRate at hfeed ⊢
    rwa [hstate]
  have hstraps' : (settled s u).straps = s.straps := (settled_straps s u).trans hstraps
  have hfilled' : (settled s u).bagger.spout = s.bagger.spout := hfilled.trans (stopLine_keepsBagger hu).2.1
  subst ht
  rw [settled_pins s (hready.trans hr), ← hstraps', ← hfilled']
  exact stoppedOutputs (hline.trans hstopped) (settled_spout hrun s hspout) (hmotors'.trans hmotors)
    (by rw [hsteam', hsteam]) hunfed hbag (settled_loops hrun hpausing s)

end Closed

/-! ### The release (R182) -/

theorem releaseLine_eq (s : State) : releaseLine s =
    queueNotice (.lineState .paused .stopReleased)
      { s with line := .paused, inputs := { s.inputs with stopLine := false } } := rfl

section Released
variable {s u t : State} (hu : u = releaseLine s) (ht : t = settled s u)
include hu

theorem releaseLine_stands : u.line = .paused ∧ u.scale = s.scale ∧ u.fin = s.fin ∧ u.train = s.train ∧ u.bagger = s.bagger
    ∧ (∀ j, stageOf j u = stageOf j s) ∧ u.straps = s.straps ∧ ready u = ready s := by
  rw [releaseLine_eq, queueNotice_only] at hu
  rw [hu]
  exact ⟨rfl, rfl, rfl, rfl, rfl, fun j => by cases j <;> rfl, rfl, rfl⟩

include ht

/-- R149, R150: what empties goes on emptying to its outlet, its timer running on, and nothing else begins to. -/
theorem settled_emptying : (s.bagger.bucket = .discharging ∨ s.bagger.bucket = .unknown true →
      t.bagger.charge = s.bagger.charge
      ∧ ∀ left, s.bagger.discharge = .frozen left → t.bagger.discharge = .running left)
    ∧ (t.bagger.bucket = .discharging ↔ s.bagger.bucket = .discharging)
    ∧ (t.bagger.bucket = .unknown true ↔ s.bagger.bucket = .unknown true) := by
  obtain ⟨hline, -, -, -, hbag, -⟩ := releaseLine_stands hu
  have hrun : u.line ≠ .run := by rw [hline]; decide
  have hpausing : u.line ≠ .pausing := by rw [hline]; decide
  have hopen : notStopped u = true := by simp [notStopped, hline]
  subst ht
  have hkeeps (he : s.bagger.bucket = .discharging ∨ s.bagger.bucket = .unknown true) :=
    settled_bagger hrun hpausing s (.inr (by rw [hbag]; rcases he with he | he <;> rw [he] <;> decide))
  rw [hbag] at hkeeps
  have hwas (b : Bucket) (hb : b.atWork) (h : (settled s u).bagger.bucket = b) : s.bagger.bucket = b := by
    subst h
    rw [settled_atWork hrun s hb, hbag]
  refine ⟨fun he => ?_, ⟨hwas _ ?_, fun h => ?_⟩, ⟨hwas _ ?_, fun h => ?_⟩⟩
  · obtain ⟨-, hcharge, -, htimer⟩ := hkeeps he
    have hempties : s.bagger.bucket.emptying = true := by rcases he with he | he <;> rw [he] <;> rfl
    refine ⟨hcharge, fun left hleft => ?_⟩
    rw [htimer, hempties, hopen, hleft]
    rfl
  · unfold Bucket.atWork
    decide
  · rw [(hkeeps (.inl h)).1, h]
  · unfold Bucket.atWork
    decide
  · rw [(hkeeps (.inr h)).1, h]

/-- What works while the line is PAUSED after the release. -/
theorem settled_released (hr : ready s = true) :
    t.line = .paused ∧ t.train.motorsHeld = s.train.motorsHeld ∧ t.train.steam = s.train.steam
    ∧ (t.pins.scaleDischarge = true ↔ s.scale.state = .discharge)
    ∧ (t.pins.scaleDump = true ↔ s.scale.state = .dumping) ∧ (t.pins.finishedDump = true ↔ s.fin.dumping = true)
    ∧ (s.mixer.state = .busy → s.mixer.phase = some .discharging → t.pins.mixerDischarge = true)
    ∧ (s.surge.state = .busy → s.surge.phase = some .dumping → t.pins.surgeDump = true)
    ∧ (s.mixer.state = .busy → s.mixer.phase = some .dumping → t.pins.mixerDump = true)
    ∧ (s.press.state = .busy → s.press.phase = some .dumping → t.pins.pressDump = true)
    ∧ (s.straps.bagger = true →
        (t.pins.bagGate = true ↔ s.bagger.bucket = .discharging ∧ ∃ c, s.bagger.charge = some c ∧ c.outlet = .bag)
        ∧ (t.pins.rejectGate = true ↔ (s.bagger.bucket = .discharging ∧ ∃ c, s.bagger.charge = some c ∧ c.outlet = .chute)
            ∨ s.bagger.bucket = .unknown true))
    ∧ (∀ left, s.bagger.bucket = .discharging ∨ s.bagger.bucket = .unknown true → s.bagger.discharge = .frozen left →
        t.bagger.discharge = .running left) := by
  obtain ⟨hline, hscale, hfin, htrain, hbag, hstages, hstraps, hready⟩ := releaseLine_stands hu
  obtain ⟨hempties, hdischarging, hunknown⟩ := settled_emptying hu ht
  have hrun : u.line ≠ .run := by rw [hline]; decide
  have hpausing : u.line ≠ .pausing := by rw [hline]; decide
  obtain ⟨hline', hstate, hfin', hmotors, hsteam, -⟩ := settled_still hrun hpausing s
  have hpaused : t.line = .paused := by rw [ht, hline', hline]
  have hopen : t.line ≠ .stopped := by rw [hpaused]; decide
  have hscale' : t.scale.state = s.scale.state := by rw [ht, hstate, hscale]
  have hdumps : t.fin.dumping = s.fin.dumping := by rw [ht, hfin', hfin]
  have hbusy (j : StageId) (hb : (stageOf j s).state = .busy) : stageOf j t = stageOf j s := by
    rw [ht, settled_stage hrun hpausing s j (by rw [hstages, hb]; decide), hstages]
  have hgate {c : Bool} {p q : Prop} (hp : p ↔ q) (hc : c = true ↔ p) : (c && notStopped t) = true ↔ q :=
    (gate_iff (hc.trans hp) t).trans (and_iff_left hopen)
  have hstage {j : StageId} {p : Phase} (hb : (stageOf j s).state = .busy) (hp : (stageOf j s).phase = some p) :
      ((stageOf j t).busyWith p && notStopped t) = true :=
    (gate_iff (busyWith_iff p _) t).2 ⟨by rw [hbusy j hb]; exact ⟨hb, hp⟩, hopen⟩
  have hpins : t.pins = outputsOf t := ht ▸ settled_pins s (hready.trans hr)
  rw [hpins]
  refine ⟨hpaused, by rw [ht, hmotors, htrain], by rw [ht, hsteam, htrain], hgate (by rw [hscale']) decide_eq_true_iff,
    hgate (by rw [hscale']) decide_eq_true_iff, hgate (by rw [hdumps]) Iff.rfl, hstage (j := .mixer), hstage (j := .surge),
    hstage (j := .mixer), hstage (j := .press), fun hb => ?_, fun left he => (hempties he).2 left⟩
  have hfitted : t.straps.bagger = true := by rw [ht, settled_straps, hstraps, hb]
  have houtlet (out : Outlet) : (t.bagger.bucket = .discharging ∧ ∃ c, t.bagger.charge = some c ∧ c.outlet = out)
      ↔ s.bagger.bucket = .discharging ∧ ∃ c, s.bagger.charge = some c ∧ c.outlet = out := by
    rw [hdischarging]
    exact and_congr_right fun hd => by rw [(hempties (.inl hd)).1]
  obtain ⟨-, hgateBag, hgateReject, -⟩ := baggerOutputs hfitted
  rw [hgateBag, hgateReject, houtlet, houtlet, hunknown]
  exact ⟨and_iff_left hopen, and_iff_left hopen⟩

end Released

/-- Settles O36: the stop by what each unit does of it, its close by what a line that is not RUN leaves alone. -/
theorem stopLineStopsEverything : Obligations.StopLineStopsEverything := by
  intro s hr
  refine ⟨fun hs => ⟨stopLine s, event_next _ _ s hr (by rw [hs]; rfl), ?_⟩,
    fun hs hl => ⟨releaseLine s, event_next _ _ s hr (by rw [hs, hl]; rfl), releaseLine_eq s,
      fun t ht => settled_released rfl ht hr⟩, fun a t => ?_⟩
  · obtain ⟨hline, hseen, hreports, hfeed, hbag, hspout, hgrinder, hpresser, hsteam, hvalve, hmotors, hinterrupts, hstays,
      hdose, hstages⟩ := stopLine_stops s _ rfl
    obtain ⟨hstops, hstands⟩ := stopLine_bagger s
    refine ⟨hline, hseen, hreports, hfeed, hbag, hspout, hgrinder, hpresser, hsteam, hvalve, hmotors, hinterrupts, hstays,
      hdose, hstages, hstops, hstands, stopLine_tx s, fun t ht => ?_⟩
    obtain ⟨hline, hmode, hfilled, hzeroed, hcharge, hfill, hsettle, hjog, hempties⟩ := settled_stoppedBagger rfl ht
    exact ⟨hline, hmode, hfilled, hzeroed, hcharge, hfill, hsettle, hjog, hempties, settled_stoppedPins rfl ht hr⟩
  · have hnext : Becomes (.localStopInput a) s { s with inputs := { s.inputs with localStop := a } } :=
      event_next true (fun s => { s with inputs := { s.inputs with localStop := a } }) s hr rfl
    refine ⟨hnext, fun ht => ?_⟩
    cases hnext.symm.trans ht
    rw [settled_pins s (by exact hr)]
    exact congrArg Inputs.localStop (settled_inputs s _)

end Sys2Proof.Machine
end

