-- ==== Sys2Proof/Proofs/Begins.lean ====
section
/-! SUPPORT. O50: work begins on a line that is RUN where its conditions hold. -/
namespace Sys2Proof.Machine

/-! ### The begins, each by its conditions (R106, R110, R113, R115) -/

section Begins
variable {s : State} {b : Batch}

theorem beginGrind_begins (hs : s.surge.state = .done) (hm : s.mixer.state = .empty) (hl : s.line = .run) :
    beginGrind s = { s with
      surge := StageRec.busyIn .grinding s.surge.batch (some .mixer), mixer := StageRec.busyIn .receiving none none } :=
  if_pos ⟨hs, hm, hl⟩

theorem beginGrind_waits (h : s.surge.state ≠ .done ∨ s.mixer.state ≠ .empty ∨ s.line ≠ .run) : beginGrind s = s := by
  refine if_neg fun hn => ?_
  obtain ⟨hs, hm, hl⟩ := hn
  rcases h with h | h | h
  · exact h hs
  · exact h hm
  · exact h hl

theorem beginDischargeMixer_begins (hb : s.mixer.batch = some b) (hm : s.mixer.state = .done) (hl : s.line = .run)
    (hf : dischargeFree b s = true) : beginDischargeMixer s = openDischarge b s := by
  unfold beginDischargeMixer
  rw [hb]
  exact if_pos ⟨hm, hl, hf⟩

theorem beginDischargeMixer_waits (h : ∀ b, s.mixer.batch = some b → s.mixer.state = .done → dischargeFree b s = false) :
    beginDischargeMixer s = s := by
  unfold beginDischargeMixer
  split
  next b hb =>
    refine if_neg fun hn => ?_
    obtain ⟨hm, -, hf⟩ := hn
    exact Bool.false_ne_true ((h b hb hm).symm.trans hf)
  next => rfl

theorem beginPress_begins (hb : s.press.batch = some b) (hp : s.press.state = .done) (hl : s.line = .run)
    (hf : pressesToRework b = true ∨ gateOpenFor b s = true) : beginPress s = openPress b s := by
  unfold beginPress
  rw [hb]
  exact if_pos ⟨hp, hl, hf⟩

theorem beginPress_waits (h : ∀ b, s.press.batch = some b → s.press.state = .done →
    pressesToRework b = false ∧ gateOpenFor b s = false) : beginPress s = s := by
  unfold beginPress
  split
  next b hb =>
    refine if_neg fun hn => ?_
    obtain ⟨hp, -, hf⟩ := hn
    obtain ⟨hr, hg⟩ := h b hb hp
    rcases hf with hf | hf
    · exact Bool.false_ne_true (hr.symm.trans hf)
    · exact Bool.false_ne_true (hg.symm.trans hf)
  next => rfl

theorem beginDischarge_begins (hc : s.scale.state = .complete) (hl : s.line = .run) (hs : s.surge.state = .empty) :
    beginDischarge s = { s with
      scale := { s.scale with state := .discharge, net := netMass s }
      surge := StageRec.busyIn .receiving none none } := if_pos ⟨hc, hl, hs⟩

theorem beginDischarge_waits (h : s.scale.state ≠ .complete ∨ s.surge.state ≠ .empty) : beginDischarge s = s :=
  if_neg fun ⟨hc, _, hs⟩ => h.elim (fun h => h hc) (fun h => h hs)

theorem pressesToRework_iff (b : Batch) : pressesToRework b = true ↔ b.kind = .flush ∨ b.rework = true := by
  simp [pressesToRework]

/-- R113: the destination of a mixer discharge. -/
theorem mixerDest_eq (b : Batch) : mixerDest b = if b.rework = true ∨ (b.kind = .flush ∧ b.form = .mash) then .rework
    else if b.form = .pellet then .press else .finished := by
  unfold mixerDest
  cases b.rework <;> cases b.kind <;> cases b.form <;> rfl

theorem dischargeFree_press (h : mixerDest b = .press) : dischargeFree b s = true ↔ s.press.state = .empty := by
  unfold dischargeFree
  rw [h]
  exact decide_eq_true_iff

theorem dischargeFree_finished (h : mixerDest b = .finished) :
    dischargeFree b s = true ↔ s.press.batch = none ∧ gateOpenFor b s = true := by
  unfold dischargeFree
  rw [h]
  simp

theorem dischargeFree_rework (h : mixerDest b = .rework) : dischargeFree b s = true ↔ s.press.batch = none := by
  unfold dischargeFree
  rw [h]
  exact Option.isNone_iff_eq_none

theorem dischargeFree_batch (h : mixerDest b ≠ .press) (hf : dischargeFree b s = true) : s.press.batch = none := by
  unfold dischargeFree at hf
  split at hf
  · exact absurd (by assumption) h
  · exact Option.isNone_iff_eq_none.1 (Bool.and_eq_true_iff.1 hf).1
  · exact Option.isNone_iff_eq_none.1 hf

/-- R110: the gate of the finished bin. -/
theorem gateOpenFor_iff {id : Nat} (h : b.order = some id) : gateOpenFor b s = true ↔
    s.fin.unknown = false ∧ s.fin.dumping = false ∧ s.fin.entering = false
      ∧ (s.fin.order = none ∨ (s.fin.order = some id ∧ s.fin.cancelled = false))
      ∧ s.finConv.weight ≠ none ∧ s.fin.mass.getD 0 + b.mass ≤ s.params.finishedCapacity := by
  unfold gateOpenFor gateOpen
  rw [h]
  simp only [Bool.and_eq_true, Bool.or_eq_true, Bool.not_eq_true', decide_eq_true_eq, Option.isSome_iff_ne_none, and_assoc]

theorem openDischarge_mixer (b : Batch) (s : State) :
    (openDischarge b s).mixer = StageRec.busyIn .discharging (some b) (some (mixerDest b)) := by
  unfold openDischarge
  dsimp only
  split <;> rfl

theorem openDischarge_to_press (h : mixerDest b = .press) :
    (openDischarge b s).press = StageRec.busyIn .receiving none none := by
  unfold openDischarge
  rw [h]

theorem openPress_press (b : Batch) (s : State) : (openPress b s).press
    = StageRec.busyIn .pressing (some b) (some (if pressesToRework b then .rework else .finished)) := by
  unfold openPress
  dsimp only
  split <;> rfl

theorem openPress_steam (b : Batch) (s : State) :
    (openPress b s).train.steam = s.train.steam.begin (conditioningTarget b s) := by
  unfold openPress
  dsimp only
  split <;> rfl

theorem openPress_fin (b : Batch) (s : State) :
    (openPress b s).fin = if pressesToRework b then s.fin else (enterFinished b s).fin := by
  unfold openPress
  dsimp only
  split <;> rfl

/-- R113: what a discharge of the mixer waits for, and to where it opens. -/
theorem beginDischargeMixer_cases (hb : s.mixer.batch = some b) (hm : s.mixer.state = .done) (hl : s.line = .run) :
    (mixerDest b = .press → s.press.state = .empty →
        (beginDischargeMixer s).press = StageRec.busyIn .receiving none none)
      ∧ (mixerDest b = .press → s.press.state ≠ .empty → beginDischargeMixer s = s)
      ∧ (mixerDest b ≠ .press → s.press.batch ≠ none → beginDischargeMixer s = s)
      ∧ (mixerDest b = .finished → gateOpenFor b s = false → beginDischargeMixer s = s)
      ∧ ((mixerDest b = .press ∧ s.press.state = .empty) ∨ (mixerDest b = .rework ∧ s.press.batch = none)
          ∨ (mixerDest b = .finished ∧ s.press.batch = none ∧ gateOpenFor b s = true) →
          (beginDischargeMixer s).mixer = StageRec.busyIn .discharging (some b) (some (mixerDest b))) := by
  have hwaits (h : ¬dischargeFree b s = true) : beginDischargeMixer s = s :=
    beginDischargeMixer_waits fun b' hb' _ => by
      rw [hb, Option.some.injEq] at hb'
      rw [← hb']
      exact Bool.eq_false_iff.2 h
  refine ⟨fun hd hp => ?_, fun hd hp => hwaits fun h => hp ((dischargeFree_press hd).1 h), fun hd hp => hwaits fun h => hp ?_,
    fun hd hg => hwaits fun h => ?_, fun h => ?_⟩
  · rw [beginDischargeMixer_begins hb hm hl ((dischargeFree_press hd).2 hp), openDischarge_to_press hd]
  · exact dischargeFree_batch hd h
  · exact Bool.false_ne_true (hg.symm.trans ((dischargeFree_finished hd).1 h).2)
  · have hfree : dischargeFree b s = true := by
      rcases h with ⟨hd, hp⟩ | ⟨hd, hp⟩ | ⟨hd, hp⟩
      · exact (dischargeFree_press hd).2 hp
      · exact (dischargeFree_rework hd).2 hp
      · exact (dischargeFree_finished hd).2 hp
    rw [beginDischargeMixer_begins hb hm hl hfree, openDischarge_mixer]

/-- R115: what the press waits for, and to where it opens. -/
theorem beginPress_cases (hb : s.press.batch = some b) (hp : s.press.state = .done) (hl : s.line = .run) :
    ((b.kind = .flush ∨ b.rework = true) ∨ gateOpenFor b s = true →
        (beginPress s).press = StageRec.busyIn .pressing (some b)
          (some (if b.kind = .flush ∨ b.rework = true then .rework else .finished))
        ∧ (beginPress s).train.steam.running = true ∧ (beginPress s).train.steam.inBand = false)
      ∧ (¬(b.kind = .flush ∨ b.rework = true) → gateOpenFor b s = false → beginPress s = s)
      ∧ (b.kind = .flush ∨ b.rework = true → (beginPress s).fin = s.fin) := by
  simp only [← pressesToRework_iff]
  refine ⟨fun h => ?_, fun hr hg => beginPress_waits fun b' hb' _ => ?_, fun hr => ?_⟩
  · rw [beginPress_begins hb hp hl h, openPress_press, openPress_steam]
    exact ⟨rfl, rfl, rfl⟩
  · rw [hb, Option.some.injEq] at hb'
    rw [← hb']
    exact ⟨Bool.eq_false_iff.2 hr, hg⟩
  · rw [beginPress_begins hb hp hl (.inl hr), openPress_fin, if_pos hr]

end Begins
end Sys2Proof.Machine
end

