-- ==== Sys2Proof/Proofs/BeginsInRound.lean ====
section
/-! SUPPORT. O50: what the rounds of an event begin on a line that is RUN, and that what has begun stands in the rounds that
follow and at the event's close. -/
namespace Sys2Proof.Machine

section Passes
variable {s : State} {b : Batch}

/-! ### A round, part by part -/

theorem scaleConv_of_kept {s u : State} (h : u.kept = s.kept) : u.scaleConv = s.scaleConv := congrArg Kept.scaleConv h

theorem params_of_kept {s u : State} (h : u.kept = s.kept) : u.params = s.params := congrArg Kept.params h

/-- The line after the permissions and the pulses, before its transfers. -/
def pulsed (s : State) : State := beginBaggerPulse (beginJogPulse (watchPermission (unbarStages s)))

theorem passLine_eq (s : State) : passLine s = beginDischarge (beginGrind (beginDischargeMixer (beginPress (pulsed s)))) := rfl

theorem passBook_eq (s : State) : passBook s = beginRemainder (beginBucketDischarge (admissionAttempt (bookReady s))) := rfl

theorem beginJogPulse_line (s : State) : (beginJogPulse s).line = s.line := by rw [beginJogPulse_only]

theorem beginJogPulse_fin (s : State) : (beginJogPulse s).fin = s.fin := by rw [beginJogPulse_only]

theorem beginJogPulse_bagger (s : State) : (beginJogPulse s).bagger = s.bagger := by rw [beginJogPulse_only]

theorem beginJogPulse_train (s : State) : (beginJogPulse s).train = s.train := by rw [beginJogPulse_only]

theorem beginJogPulse_stage (j : StageId) (s : State) : stageOf j (beginJogPulse s) = stageOf j s := by
  unfold beginJogPulse
  split <;> cases j <;> rfl

theorem beginBaggerPulse_line (s : State) : (beginBaggerPulse s).line = s.line := by rw [beginBaggerPulse_only]

theorem beginBaggerPulse_fin (s : State) : (beginBaggerPulse s).fin = s.fin := by rw [beginBaggerPulse_only]

theorem beginBaggerPulse_scale (s : State) : (beginBaggerPulse s).scale = s.scale := by rw [beginBaggerPulse_only]

theorem beginBaggerPulse_train (s : State) : (beginBaggerPulse s).train = s.train := by rw [beginBaggerPulse_only]

theorem beginBaggerPulse_stage (j : StageId) (s : State) : stageOf j (beginBaggerPulse s) = stageOf j s := by
  unfold beginBaggerPulse
  split <;> cases j <;> rfl

theorem pulsed_line (s : State) : (pulsed s).line = s.line := by
  unfold pulsed
  rw [beginBaggerPulse_line, beginJogPulse_line]
  exact still_line ((watchPermission_still _).trans (unbarStages_still s))

theorem pulsed_fin (s : State) : (pulsed s).fin = s.fin := by
  unfold pulsed
  rw [beginBaggerPulse_fin, beginJogPulse_fin]
  exact congrArg Still.fin ((watchPermission_still _).trans (unbarStages_still s))

theorem pulsed_kept (s : State) : (pulsed s).kept = s.kept := by
  unfold pulsed
  rw [beginBaggerPulse_kept, beginJogPulse_kept, watchPermission_kept, unbarStages_kept]

theorem beginPress_line (s : State) : (beginPress s).line = s.line := by rw [beginPress_only]

theorem beginDischargeMixer_line (s : State) : (beginDischargeMixer s).line = s.line := by rw [beginDischargeMixer_only]

theorem beginGrind_line (s : State) : (beginGrind s).line = s.line := by rw [beginGrind_only]

theorem beginDischarge_line (s : State) : (beginDischarge s).line = s.line := by rw [beginDischarge_only]

theorem passLine_line (s : State) : (passLine s).line = s.line := by
  rw [passLine_eq, beginDischarge_line, beginGrind_line, beginDischargeMixer_line, beginPress_line, pulsed_line]

theorem bookReady_train (s : State) : (bookReady s).train = s.train := by
  unfold bookReady makeUps
  rw [makeUpAll_only]
  dsimp only
  unfold markLoaded
  rw [markAll_only]
  dsimp only
  unfold freeCancelled
  rw [endAllCancelled_only]
  dsimp only
  rw [watchStep_only]

theorem admissionAttempt_line (s : State) : (admissionAttempt s).line = s.line := by rw [admissionAttempt_only]

theorem passBook_line (s : State) : (passBook s).line = s.line :=
  ((beginRemainder_line _).trans (beginBucketDischarge_line _)).trans
    ((admissionAttempt_line _).trans (still_line (works_still (bookReady_works s))))

theorem passBook_train (s : State) : (passBook s).train = s.train := by
  rw [passBook_eq, beginRemainder_only]
  dsimp only
  rw [beginBucketDischarge_only]
  dsimp only
  rw [admissionAttempt_only]
  exact bookReady_train s

theorem passBook_stage (j : StageId) (s : State) : stageOf j (passBook s) = stageOf j s := by
  rw [← works_stage (bookReady_works s) j, passBook_eq, beginRemainder_only]
  generalize bookReady s = x
  rw [beginBucketDischarge_only, admissionAttempt_only]
  cases j
  · exact (rfl : x.surge = x.surge)
  · exact (rfl : x.mixer = x.mixer)
  · exact (rfl : x.press = x.press)

theorem pass_eq (s : State) : pass s = followLoops (passBook (passLine s)) := rfl

theorem pass_line (s : State) : (pass s).line = s.line := by
  rw [pass_eq, still_line (works_still (followLoops_works _)), passBook_line, passLine_line]

/-- The stages after a round are those of its part on the line. -/
theorem pass_stageOf (j : StageId) (s : State) : stageOf j (pass s) = stageOf j (passLine s) := by
  rw [pass_eq, works_stage (followLoops_works _) j, passBook_stage]

/-! ### A stage that is BUSY (R106, R113, R115) -/

theorem pulsed_stage (j : StageId) (h : (stageOf j s).state ≠ .held) : stageOf j (pulsed s) = stageOf j s := by
  unfold pulsed
  rw [beginBaggerPulse_stage, beginJogPulse_stage, watchPermission_stage, unbarStages_other j s h]

theorem beginPress_surge (s : State) : (beginPress s).surge = s.surge := by rw [beginPress_only]

theorem beginPress_mixer (s : State) : (beginPress s).mixer = s.mixer := by rw [beginPress_only]

theorem beginDischargeMixer_surge (s : State) : (beginDischargeMixer s).surge = s.surge := by rw [beginDischargeMixer_only]

theorem beginGrind_press (s : State) : (beginGrind s).press = s.press := by rw [beginGrind_only]

theorem beginDischarge_mixer (s : State) : (beginDischarge s).mixer = s.mixer := by rw [beginDischarge_only]

theorem beginDischarge_press (s : State) : (beginDischarge s).press = s.press := by rw [beginDischarge_only]

theorem beginPress_busy (j : StageId) (h : (stageOf j s).state = .busy) : stageOf j (beginPress s) = stageOf j s := by
  cases j with
  | surge => exact beginPress_surge s
  | mixer => exact beginPress_mixer s
  | press => exact congrArg State.press (beginPress_waits fun _ _ hd => by cases h.symm.trans hd)

theorem beginDischargeMixer_busy (j : StageId) (h : (stageOf j s).state = .busy) :
    stageOf j (beginDischargeMixer s) = stageOf j s := by
  cases j with
  | surge => exact beginDischargeMixer_surge s
  | mixer => exact congrArg State.mixer (beginDischargeMixer_waits fun _ _ hd => by cases h.symm.trans hd)
  | press =>
    show (beginDischargeMixer s).press = s.press
    unfold beginDischargeMixer
    split
    next b _ =>
      split
      next hc =>
        obtain ⟨-, -, hf⟩ := hc
        unfold openDischarge
        dsimp only
        split
        next hd => cases h.symm.trans ((dischargeFree_press hd).1 hf)
        next => rfl
        next => rfl
      next => rfl
    next => rfl

theorem beginGrind_busy (j : StageId) (h : (stageOf j s).state = .busy) : stageOf j (beginGrind s) = stageOf j s := by
  cases j with
  | surge => exact congrArg State.surge (beginGrind_waits (.inl fun hd => by cases h.symm.trans hd))
  | mixer => exact congrArg State.mixer (beginGrind_waits (.inr (.inl fun hd => by cases h.symm.trans hd)))
  | press => exact beginGrind_press s

theorem beginDischarge_busy (j : StageId) (h : (stageOf j s).state = .busy) :
    stageOf j (beginDischarge s) = stageOf j s := by
  cases j with
  | surge => exact congrArg State.surge (beginDischarge_waits (.inr fun hd => by cases h.symm.trans hd))
  | mixer => exact beginDischarge_mixer s
  | press => exact beginDischarge_press s

/-- What has begun in a stage stands in the round. -/
theorem pass_busy {j : StageId} {r : StageRec} (h : stageOf j s = r) (hb : r.state = .busy) : stageOf j (pass s) = r := by
  subst h
  have h0 := pulsed_stage (s := s) j (by rw [hb]; decide)
  have h1 := beginPress_busy (s := pulsed s) j (by rw [h0, hb])
  have h2 := beginDischargeMixer_busy (s := beginPress (pulsed s)) j (by rw [h1, h0, hb])
  have h3 := beginGrind_busy (s := beginDischargeMixer (beginPress (pulsed s))) j (by rw [h2, h1, h0, hb])
  have h4 := beginDischarge_busy (s := beginGrind (beginDischargeMixer (beginPress (pulsed s)))) j
    (by rw [h3, h2, h1, h0, hb])
  rw [pass_stageOf, passLine_eq, h4, h3, h2, h1, h0]

/-! ### The finished bin, once a batch enters it (R110, R111) -/

theorem gateOpenFor_entering (h : s.fin.entering = true) (b : Batch) : gateOpenFor b s = false := by
  unfold gateOpenFor gateOpen
  rw [h]
  cases b.order <;> simp

theorem beginPress_fin (h : s.fin.entering = true) : (beginPress s).fin = s.fin := by
  unfold beginPress
  split
  next b _ =>
    split
    next hc =>
      obtain ⟨-, -, hf⟩ := hc
      rw [gateOpenFor_entering h, or_iff_left Bool.false_ne_true] at hf
      rw [openPress_fin, if_pos hf]
    next => rfl
  next => rfl

theorem openDischarge_fin (b : Batch) (s : State) :
    (openDischarge b s).fin = if mixerDest b = .finished then (enterFinished b s).fin else s.fin := by
  unfold openDischarge
  dsimp only
  split
  next h => rw [h]; rfl
  next h => rw [h]; rfl
  next h => rw [if_neg h]

theorem beginDischargeMixer_fin (h : s.fin.entering = true) : (beginDischargeMixer s).fin = s.fin := by
  unfold beginDischargeMixer
  split
  next b _ =>
    split
    next hc =>
      obtain ⟨-, -, hf⟩ := hc
      have hdest : mixerDest b ≠ .finished := fun hd =>
        Bool.false_ne_true ((gateOpenFor_entering h b).symm.trans ((dischargeFree_finished hd).1 hf).2)
      rw [openDischarge_fin, if_neg hdest]
    next => rfl
  next => rfl

theorem beginGrind_fin (s : State) : (beginGrind s).fin = s.fin := by rw [beginGrind_only]

theorem beginDischarge_fin (s : State) : (beginDischarge s).fin = s.fin := by rw [beginDischarge_only]

theorem bookReady_fin (s : State) : (bookReady s).fin = s.fin := congrArg Still.fin (works_still (bookReady_works s))

theorem admissionAttempt_fin (s : State) : (admissionAttempt s).fin = s.fin := by rw [admissionAttempt_only]

theorem beginBucketDischarge_fin (s : State) : (beginBucketDischarge s).fin = s.fin := by rw [beginBucketDischarge_only]

theorem beginRemainder_entering (h : s.fin.entering = true) : beginRemainder s = s := by
  rw [beginRemainder_eq]
  refine if_neg ?_
  unfold remainderReady
  simp [h]

theorem followLoops_fin (s : State) : (followLoops s).fin = s.fin := congrArg Still.fin (works_still (followLoops_works s))

theorem passBook_fin (h : s.fin.entering = true) : (passBook s).fin = s.fin := by
  have hfin : (beginBucketDischarge (admissionAttempt (bookReady s))).fin = s.fin := by
    rw [beginBucketDischarge_fin, admissionAttempt_fin, bookReady_fin]
  rw [passBook_eq, beginRemainder_entering (by rw [hfin, h]), hfin]

/-- While a batch enters the finished bin, nothing else does. -/
theorem pass_fin {f : FinishedBin} (h : s.fin = f) (he : f.entering = true) : (pass s).fin = f := by
  subst h
  have h1 : (beginPress (pulsed s)).fin = s.fin := by rw [beginPress_fin (by rw [pulsed_fin, he]), pulsed_fin]
  have h2 : (passLine s).fin = s.fin := by
    rw [passLine_eq, beginDischarge_fin, beginGrind_fin, beginDischargeMixer_fin (by rw [h1, he]), h1]
  rw [pass_eq, followLoops_fin, passBook_fin (by rw [h2, he]), h2]

/-! ### The loops (R107, R116) -/

theorem unbarStage_steam (i : StageId) (s : State) : (unbarStage i s).train.steam = s.train.steam :=
  congrArg Still.steam (unbarStage_still i s)

theorem unbarStage_grinder (i : StageId) (h : s.surge.state ≠ .held) :
    (unbarStage i s).train.grinder = s.train.grinder := by
  unfold unbarStage
  dsimp only
  split
  next hc =>
    cases i with
    | surge => exact absurd hc.1 h
    | mixer => split <;> rfl
    | press => split <;> rfl
  next => rfl

theorem unbarStages_grinder (h : s.surge.state ≠ .held) : (unbarStages s).train.grinder = s.train.grinder := by
  have h1 : (unbarStage .surge s).surge = s.surge := unbarStage_other .surge .surge s h
  have h2 : (unbarStage .mixer (unbarStage .surge s)).surge = (unbarStage .surge s).surge :=
    unbarStage_other .mixer .surge _ (by show (unbarStage .surge s).surge.state ≠ .held; rwa [h1])
  unfold unbarStages
  rw [unbarStage_grinder .press (by rw [h2, h1]; exact h), unbarStage_grinder .mixer (by rw [h1]; exact h),
    unbarStage_grinder .surge h]

theorem watchPermission_train (s : State) : (watchPermission s).train = s.train := by rw [watchPermission_only]

theorem pulsed_grinder (h : s.surge.state ≠ .held) : (pulsed s).train.grinder = s.train.grinder := by
  unfold pulsed
  rw [beginBaggerPulse_train, beginJogPulse_train, watchPermission_train, unbarStages_grinder h]

theorem pulsed_steam (s : State) : (pulsed s).train.steam = s.train.steam := by
  unfold pulsed
  rw [beginBaggerPulse_train, beginJogPulse_train, watchPermission_train]
  exact congrArg Still.steam (unbarStages_still s)

theorem beginPress_grinder (s : State) : (beginPress s).train.grinder = s.train.grinder := by
  unfold beginPress openPress
  dsimp only
  (repeat' split) <;> rfl

theorem beginDischargeMixer_train (s : State) : (beginDischargeMixer s).train = s.train := by rw [beginDischargeMixer_only]

theorem beginGrind_train (s : State) : (beginGrind s).train = s.train := by rw [beginGrind_only]

theorem beginDischarge_train (s : State) : (beginDischarge s).train = s.train := by rw [beginDischarge_only]

theorem passLine_train (s : State) : (passLine s).train = (beginPress (pulsed s)).train := by
  rw [passLine_eq, beginDischarge_train, beginGrind_train, beginDischargeMixer_train]

theorem followLoops_grinder (s : State) : (followLoops s).train.grinder =
    s.train.grinder.follow (decide (s.surge.state = .held)) (grinderWanted s) s.params.grinder := rfl

theorem followLoops_steam (s : State) : (followLoops s).train.steam = s.train.steam := rfl

theorem pass_steam (s : State) : (pass s).train.steam = (beginPress (pulsed s)).train.steam := by
  rw [pass_eq, followLoops_steam, passBook_train, passLine_train]

/-- The steam loop of a press at work is not started anew. -/
theorem pass_steam_busy (h : s.press.state = .busy) : (pass s).train.steam = s.train.steam := by
  have hp : (pulsed s).press = s.press := pulsed_stage .press (by show s.press.state ≠ .held; rw [h]; decide)
  have hw : beginPress (pulsed s) = pulsed s := beginPress_waits fun _ _ hd => by
    rw [hp, h] at hd
    cases hd
  rw [pass_steam, hw, pulsed_steam]

/-- The grinder in a round, while SURGE is not HELD: it runs while the grind does (R107). -/
theorem pass_grinder (h : (stageOf .surge s).state ≠ .held) (hg : (stageOf .surge (passLine s)).BusyIn .grinding) (hl : s.line = .run) :
    (pass s).train.grinder = s.train.grinder.start s.params.grinder := by
  have hsurge : (passBook (passLine s)).surge = stageOf .surge (passLine s) := passBook_stage .surge _
  have hparams : (passBook (passLine s)).params = s.params := params_of_kept (by rw [passBook_kept, passLine_kept])
  have hwanted : grinderWanted (passBook (passLine s)) = true := by
    unfold grinderWanted
    rw [hsurge, (busyWith_iff _ _).2 hg, passBook_line, passLine_line, hl]
    rfl
  have hheld : decide ((passBook (passLine s)).surge.state = .held) = false := by
    rw [hsurge, hg.1]
    rfl
  rw [pass_eq, followLoops_grinder, hheld, hwanted, hparams, passBook_train, passLine_train, beginPress_grinder,
    pulsed_grinder h]
  rfl

/-! ### The scales (R71, R81) -/

theorem watchPermission_scale (s : State) : (watchPermission s).scale = s.scale := by rw [watchPermission_only]

theorem unbarStages_scale (s : State) : (unbarStages s).scale = s.scale := congrArg Still.scale (unbarStages_still s)

theorem pulsed_scale (s : State) : (pulsed s).scale =
    if s.scale.state = .jog false ∧ s.line = .run then { s.scale with state := .jog true } else s.scale := by
  have hscale : (watchPermission (unbarStages s)).scale = s.scale := by rw [watchPermission_scale, unbarStages_scale]
  have hline : (watchPermission (unbarStages s)).line = s.line :=
    still_line ((watchPermission_still _).trans (unbarStages_still s))
  unfold pulsed
  rw [beginBaggerPulse_scale]
  unfold beginJogPulse setScale
  rw [hscale, hline]
  split
  · rfl
  · exact hscale

theorem beginPress_scale (s : State) : (beginPress s).scale = s.scale := by rw [beginPress_only]

theorem beginDischargeMixer_scale (s : State) : (beginDischargeMixer s).scale = s.scale := by rw [beginDischargeMixer_only]

theorem beginGrind_scale (s : State) : (beginGrind s).scale = s.scale := by rw [beginGrind_only]

/-- The line as its last begin of a round, the scale's discharge, finds it. -/
def transferred (s : State) : State := beginGrind (beginDischargeMixer (beginPress (pulsed s)))

theorem passLine_transferred (s : State) : passLine s = beginDischarge (transferred s) := rfl

theorem transferred_scale (s : State) : (transferred s).scale = (pulsed s).scale := by
  unfold transferred
  rw [beginGrind_scale, beginDischargeMixer_scale, beginPress_scale]

theorem beginBucketDischarge_scale (s : State) : (beginBucketDischarge s).scale = s.scale := by
  rw [beginBucketDischarge_only]

theorem beginRemainder_scale (s : State) : (beginRemainder s).scale = s.scale := by rw [beginRemainder_only]

theorem passBook_scale (h : s.scale.state ≠ .idle) : (passBook s).scale = s.scale := by
  have hdue : attemptDue (bookReady s) = false := by
    unfold attemptDue
    rw [bookReady_scale]
    simp [h]
  rw [passBook_eq, beginRemainder_scale, beginBucketDischarge_scale, admissionAttempt_notDue hdue, bookReady_scale]

theorem pass_scale_of (h : (passLine s).scale.state ≠ .idle) : (pass s).scale = (passLine s).scale := by
  rw [pass_eq, followLoops_scale, passBook_scale h]

/-- The scale at work is left alone by a round. -/
theorem pass_scale {x : Scale} (h : s.scale = x) (hx : x.state ∉ [.idle, .complete, .jog false]) : (pass s).scale = x := by
  subst h
  simp only [List.mem_cons, List.not_mem_nil, or_false, not_or] at hx
  obtain ⟨hidle, hcomplete, hjog⟩ := hx
  have hpulsed : (transferred s).scale = s.scale := by
    rw [transferred_scale, pulsed_scale, if_neg fun hc => hjog hc.1]
  have hline : (passLine s).scale = s.scale := by
    rw [passLine_transferred, beginDischarge_waits (.inl (by rw [hpulsed]; exact hcomplete)), hpulsed]
  rw [pass_scale_of (by rw [hline]; exact hidle), hline]

/-! ### The bucket (R146, R149, R150) -/

theorem permitsDrawing_congr {u : State} (h : u.fin = s.fin) : permitsDrawing u = permitsDrawing s := by
  unfold permitsDrawing
  rw [h]

/-- A batch that enters the finished bin withdraws no permission to draw. -/
theorem permitsDrawing_enters {u : State} (h : permitsDrawing s = true) (he : u.fin = s.fin ∨ u.fin = (enterFinished b s).fin) :
    permitsDrawing u = true := by
  rcases he with he | he
  · rw [permitsDrawing_congr he, h]
  · unfold permitsDrawing at h ⊢
    rw [he]
    unfold enterFinished
    cases ho : s.fin.order with
    | none =>
      rw [ho] at h
      cases h
    | some id =>
      rw [ho] at h
      exact h

theorem permitsDrawing_beginPress (h : permitsDrawing s = true) : permitsDrawing (beginPress s) = true := by
  unfold beginPress
  split
  next b _ =>
    split
    · refine permitsDrawing_enters (b := b) h ?_
      rw [openPress_fin]
      split
      · exact .inl rfl
      · exact .inr rfl
    · exact h
  next => exact h

theorem permitsDrawing_beginDischargeMixer (h : permitsDrawing s = true) :
    permitsDrawing (beginDischargeMixer s) = true := by
  unfold beginDischargeMixer
  split
  next b _ =>
    split
    · refine permitsDrawing_enters (b := b) h ?_
      rw [openDischarge_fin]
      split
      · exact .inr rfl
      · exact .inl rfl
    · exact h
  next => exact h

theorem permitsDrawing_passLine (h : permitsDrawing s = true) : permitsDrawing (passLine s) = true := by
  have hlast : (passLine s).fin = (beginDischargeMixer (beginPress (pulsed s))).fin := by
    rw [passLine_eq, beginDischarge_fin, beginGrind_fin]
  rw [permitsDrawing_congr hlast]
  refine permitsDrawing_beginDischargeMixer (permitsDrawing_beginPress ?_)
  rw [permitsDrawing_congr (pulsed_fin s), h]

theorem beginPress_bagger (s : State) : (beginPress s).bagger = s.bagger := by rw [beginPress_only]

theorem beginDischargeMixer_bagger (s : State) : (beginDischargeMixer s).bagger = s.bagger := by
  rw [beginDischargeMixer_only]

theorem beginGrind_bagger (s : State) : (beginGrind s).bagger = s.bagger := by rw [beginGrind_only]

theorem beginDischarge_bagger (s : State) : (beginDischarge s).bagger = s.bagger := by rw [beginDischarge_only]

/-- R146: a pulse that is pending begins, where its charge may be drawn. -/
theorem pulsed_bagger (hp : s.permitted) : (pulsed s).bagger =
    if s.bagger.bucket = .jog false ∧ s.line = .run ∧ permitsDrawing s = true then { s.bagger with bucket := .jog true }
    else s.bagger := by
  have hstands : watchPermission (unbarStages s) = unbarStages s :=
    watchPermission_permitted (permitted_of_eq (unbarStages_still s) (unbarStages_bagger s) hp)
  have hbag : (beginJogPulse (unbarStages s)).bagger = s.bagger := by rw [beginJogPulse_bagger, unbarStages_bagger]
  have hline : (beginJogPulse (unbarStages s)).line = s.line := by
    rw [beginJogPulse_line, still_line (unbarStages_still s)]
  have hfin : (beginJogPulse (unbarStages s)).fin = s.fin := by
    rw [beginJogPulse_fin]
    exact congrArg Still.fin (unbarStages_still s)
  unfold pulsed
  rw [hstands]
  unfold beginBaggerPulse setBucket
  rw [permitsDrawing_congr hfin, hline, hbag]
  split
  · rfl
  · exact hbag

theorem passLine_bagger (s : State) : (passLine s).bagger = (pulsed s).bagger := by
  rw [passLine_eq, beginDischarge_bagger, beginGrind_bagger, beginDischargeMixer_bagger, beginPress_bagger]

theorem admissionAttempt_bagger (s : State) : (admissionAttempt s).bagger = s.bagger := by rw [admissionAttempt_only]

theorem followLoops_bagger (s : State) : (followLoops s).bagger = s.bagger := rfl

theorem beginRemainder_charged (h : s.bagger.bucket ≠ .empty) : beginRemainder s = s := by
  rw [beginRemainder_eq]
  refine if_neg ?_
  unfold remainderReady
  simp [h]

/-- The bagger as its discharge finds it in a round. -/
def booked (s : State) : State := admissionAttempt (bookReady s)

theorem booked_bagger (s : State) : (booked s).bagger = s.bagger := by
  unfold booked
  rw [admissionAttempt_bagger]
  exact works_bagger (bookReady_works s)

theorem booked_line (s : State) : (booked s).line = s.line := by
  unfold booked
  rw [admissionAttempt_line]
  exact still_line (works_still (bookReady_works s))

theorem booked_fin (s : State) : (booked s).fin = s.fin := by
  unfold booked
  rw [admissionAttempt_fin, bookReady_fin]

theorem passBook_booked (s : State) : passBook s = beginRemainder (beginBucketDischarge (booked s)) := rfl

theorem pass_bagger_of {x : Bagger} (h : (beginBucketDischarge (booked (passLine s))).bagger = x) (hx : x.bucket ≠ .empty) :
    (pass s).bagger = x ∧ (pass s).fin = (passLine s).fin := by
  rw [pass_eq, followLoops_bagger, followLoops_fin, passBook_booked, beginRemainder_charged (by rw [h]; exact hx),
    beginBucketDischarge_fin, booked_fin]
  exact ⟨h, rfl⟩

theorem beginBucketDischarge_waits (h : s.bagger.bucket ∉ [.charged, .unknown false]) : beginBucketDischarge s = s := by
  simp only [List.mem_cons, List.not_mem_nil, or_false, not_or] at h
  obtain ⟨hcharged, hunknown⟩ := h
  unfold beginBucketDischarge
  split
  · split
    next hb _ => exact absurd hb hcharged
    next hb => exact absurd hb hunknown
    next => rfl
  · rfl

theorem beginBucketDischarge_bag {c : Charge} (hl : s.line = .run) (hb : s.bagger.bucket = .charged)
    (hc : s.bagger.charge = some c) (ho : c.outlet = .bag) (hs : s.bagger.spout = .ready) :
    (beginBucketDischarge s).bagger
      = { s.bagger with bucket := .discharging, spout := .receiving, discharge := .stopped } := by
  unfold beginBucketDischarge
  rw [if_pos hl, hb, hc]
  dsimp only
  rw [if_neg (by rw [ho]; decide), if_pos hs]
  rfl

theorem beginBucketDischarge_chute {c : Charge} (hl : s.line = .run) (hb : s.bagger.bucket = .charged)
    (hc : s.bagger.charge = some c) (ho : c.outlet = .chute) :
    (beginBucketDischarge s).bagger = { s.bagger with bucket := .discharging, discharge := .stopped } := by
  unfold beginBucketDischarge
  rw [if_pos hl, hb, hc]
  dsimp only
  rw [if_pos ho]
  rfl

theorem beginBucketDischarge_unknown (hl : s.line = .run) (hb : s.bagger.bucket = .unknown false) :
    (beginBucketDischarge s).bagger = { s.bagger with bucket := .unknown true, discharge := .stopped } := by
  unfold beginBucketDischarge
  rw [if_pos hl, hb]
  rfl

/-- A bucket in which no charge is drawn is left alone by the pulses of a round. -/
theorem passLine_bagger_undrawn (h : s.bagger.bucket ∉ [.filling true, .filling false, .jog true, .jog false]) :
    (passLine s).bagger = s.bagger := by
  have hj : s.bagger.bucket ≠ .jog false := fun hj => h (by rw [hj]; decide)
  rw [passLine_bagger, pulsed_bagger (.inr h), if_neg fun hc => hj hc.1]

theorem emptying_iff (b : Bucket) : b.emptying = true ↔ b = .discharging ∨ b = .unknown true := by
  cases b with
  | unknown e => cases e <;> decide
  | _ => simp [Bucket.emptying]

/-- A bucket that empties is left alone by a round. -/
theorem pass_empties {x : Bagger} (h : s.bagger = x) (hx : x.bucket.emptying = true) : (pass s).bagger = x := by
  subst h
  have hx := (emptying_iff _).1 hx
  have hline : (passLine s).bagger = s.bagger :=
    passLine_bagger_undrawn (by rcases hx with hx | hx <;> rw [hx] <;> decide)
  have hbooked : (booked (passLine s)).bagger = s.bagger := by rw [booked_bagger, hline]
  refine (pass_bagger_of (x := s.bagger) ?_ ?_).1
  · rw [beginBucketDischarge_waits (by rw [hbooked]; rcases hx with hx | hx <;> rw [hx] <;> decide), hbooked]
  · rcases hx with hx | hx <;> rw [hx] <;> decide

/-- R146: a pulse of the bagger, pending or under way, is under way after a round while drawing is permitted. -/
theorem pass_pulses {x : Bagger} (hl : s.line = .run) (h : { s.bagger with bucket := .jog true } = x)
    (hb : s.bagger.bucket = .jog false ∨ s.bagger.bucket = .jog true) (hp : permitsDrawing s = true) :
    (pass s).bagger = x ∧ permitsDrawing (pass s) = true := by
  have hx : x.bucket = .jog true := by rw [← h]
  have hline : (passLine s).bagger = x := by
    rw [passLine_bagger, pulsed_bagger (.inl hp), ← h]
    rcases hb with hb | hb
    · exact if_pos ⟨hb, hl, hp⟩
    · rw [← hb]
      exact ite_self _
  have hbooked : (booked (passLine s)).bagger = x := by rw [booked_bagger, hline]
  obtain ⟨hbag, hfin⟩ := pass_bagger_of (s := s) (x := x)
    (by rw [beginBucketDischarge_waits (by rw [hbooked, hx]; decide), hbooked]) (by rw [hx]; decide)
  exact ⟨hbag, by rw [permitsDrawing_congr hfin, permitsDrawing_passLine hp]⟩

end Passes
end Sys2Proof.Machine
end

