-- ==== Sys2Proof/Proofs/BeginsAtClose.lean ====
section
/-! SUPPORT. O50: the first round begins what may begin; the later rounds and the rest of the close let it stand. -/
namespace Sys2Proof.Machine

/-! ### After the rounds, on a line that is RUN -/

/-- What the rest of a close leaves alone, but for its timers. -/
structure Rig where
  line  : LineState
  kept  : Kept
  scale : Scale
  surge : StageRec
  mixer : StageRec
  press : StageRec
  train : Train
  fin   : FinishedBin
  bag   : Bagger

def State.rig (s : State) : Rig :=
  { line := s.line, kept := s.kept, scale := s.scale, surge := s.surge, mixer := s.mixer, press := s.press
    train := s.train, fin := s.fin, bag := s.bagger }

theorem abandonBay_rig (s : State) : (abandonBay s).rig = s.rig := by rw [abandonBay_only]; rfl

theorem takeBay_rig (s : State) : (takeBay s).rig = s.rig := by rw [takeBay_only]; rfl

section Rig
variable {s u : State} (h : u.rig = s.rig)
include h

theorem rig_line : u.line = s.line := congrArg Rig.line h

theorem rig_params : u.params = s.params := params_of_kept (congrArg Rig.kept h)

theorem rig_scale : u.scale = s.scale := congrArg Rig.scale h

theorem rig_stage (j : StageId) : stageOf j u = stageOf j s := by
  cases j
  · exact congrArg Rig.surge h
  · exact congrArg Rig.mixer h
  · exact congrArg Rig.press h

theorem rig_train : u.train = s.train := congrArg Rig.train h

theorem rig_fin : u.fin = s.fin := congrArg Rig.fin h

theorem rig_bagger : u.bagger = s.bagger := congrArg Rig.bag h

end Rig

theorem rounds_line (u : State) : (rounds u).line = u.line := by
  unfold rounds
  rw [pass_line, pass_line, pass_line]

section Run
variable {u : State} (hl : u.line = .run)
include hl

theorem quiesced_rig : (quiesced u).rig = (rounds u).rig := by
  have hrig : (takeBay (abandonBay (rounds u))).rig = (rounds u).rig := (takeBay_rig _).trans (abandonBay_rig _)
  have hline : (takeBay (abandonBay (rounds u))).line = .run := by
    rw [rig_line hrig, rounds_line, hl]
  have hidle : pauseReports (takeBay (abandonBay (rounds u))) = takeBay (abandonBay (rounds u)) :=
    if_neg (by rw [hline]; decide)
  unfold quiesced
  rw [hidle, hrig]

/-- What the close of an event takes over from its rounds. -/
theorem settled_run (s : State) : (∀ j, stageOf j (settled s u) = stageOf j (rounds u))
    ∧ (settled s u).fin = (rounds u).fin ∧ (settled s u).train.steam = (rounds u).train.steam
    ∧ (settled s u).train.grinder = (rounds u).train.grinder ∧ (settled s u).scale.state = (rounds u).scale.state
    ∧ (settled s u).scale.net = (rounds u).scale.net ∧ (settled s u).bagger.bucket = (rounds u).bagger.bucket
    ∧ (settled s u).bagger.spout = (rounds u).bagger.spout
    ∧ (settled s u).bagger.discharge = Timer.freezing (rounds u).bagger.bucket.emptying true u.params.settleTimeout
        (rounds u).bagger.discharge := by
  have hrig := quiesced_rig hl
  have hopen : notStopped (quiesced u) = true := by
    rw [notStopped_iff, rig_line hrig, rounds_line, hl]
    decide
  have hparams : u.params = (quiesced u).params := (params_of_kept (quiesced_kept u)).symm
  obtain ⟨ids, q, fs, cs, la, pins, he⟩ := settled_only s u
  rw [← rig_fin hrig, ← rig_train hrig, ← rig_scale hrig, ← rig_bagger hrig, ← hopen, hparams, he]
  refine ⟨fun j => ?_, ?_⟩
  · rw [← rig_stage hrig j]
    generalize quiesced u = x
    cases j
    · exact (rfl : x.surge = x.surge)
    · exact (rfl : x.mixer = x.mixer)
    · exact (rfl : x.press = x.press)
  · generalize quiesced u = x
    exact ⟨rfl, rfl, rfl, rfl, rfl, rfl, rfl, rfl⟩

end Run

/-! ### What the first round has begun stands at the close -/

section Stands
variable {s u : State}

theorem rounds_eq (u : State) : rounds u = pass (pass (pass u)) := rfl

/-- What one round has reached and each round keeps, the rounds have reached. -/
theorem rounds_of_pass {p : State → Prop} (h : p (pass u)) (hk : ∀ v, p v → p (pass v)) : p (rounds u) :=
  hk _ (hk _ h)

theorem settled_stageOf (hl : u.line = .run) (s : State) {j : StageId} {r : StageRec} (h : stageOf j (pass u) = r)
    (hr : r.state = .busy) : stageOf j (settled s u) = r :=
  ((settled_run hl s).1 j).trans (rounds_of_pass (p := fun v => stageOf j v = r) h fun _ hv => pass_busy hv hr)

theorem settled_fin (hl : u.line = .run) (s : State) {f : FinishedBin} (h : (pass u).fin = f) (hf : f.entering = true) :
    (settled s u).fin = f := by
  obtain ⟨-, hfin, -⟩ := settled_run hl s
  exact hfin.trans (rounds_of_pass (p := fun v => v.fin = f) h fun _ hv => pass_fin hv hf)

theorem settled_steam (hl : u.line = .run) (s : State) (hp : (stageOf .press (pass u)).state = .busy) :
    (settled s u).train.steam = (pass u).train.steam := by
  obtain ⟨-, -, hsteam, -⟩ := settled_run hl s
  have hrounds := rounds_of_pass (u := u)
    (p := fun v => (stageOf .press v).state = .busy ∧ v.train.steam = (pass u).train.steam) ⟨hp, rfl⟩ fun v hv => by
      obtain ⟨hbusy, hv⟩ := hv
      have hpress : stageOf .press (pass v) = stageOf .press v := pass_busy rfl hbusy
      exact ⟨by rw [hpress, hbusy], (pass_steam_busy hbusy).trans hv⟩
  exact hsteam.trans hrounds.2

/-- A grind that runs goes on, and its grinder with it. -/
theorem pass_grinds {v : State} {l : FeedLoop} (hl : v.line = .run) (hg : (stageOf .surge v).BusyIn .grinding)
    (h : v.train.grinder = l) (hm : l.mode = .running) : (stageOf .surge (pass v)).BusyIn .grinding ∧ (pass v).train.grinder = l := by
  have hsurge : stageOf .surge (pass v) = stageOf .surge v := pass_busy rfl hg.1
  have hstart : l.start v.params.grinder = l := if_neg (by rw [hm]; decide)
  have hbusy : (stageOf .surge (pass v)).BusyIn .grinding := by rw [hsurge]; exact hg
  have hwork : (stageOf .surge (passLine v)).BusyIn .grinding := by rw [← pass_stageOf, hsurge]; exact hg
  have hgrinder := pass_grinder (by rw [hg.1]; decide) hwork hl
  rw [h, hstart] at hgrinder
  exact ⟨hbusy, hgrinder⟩

theorem settled_grinder (hl : u.line = .run) (s : State) {l : FeedLoop} (hg : (stageOf .surge (pass u)).BusyIn .grinding)
    (h : (pass u).train.grinder = l) (hm : l.mode = .running) : (settled s u).train.grinder = l := by
  obtain ⟨-, -, -, hgrinder, -⟩ := settled_run hl s
  have hrounds := rounds_of_pass (u := u) (p := fun v => v.line = .run ∧ (stageOf .surge v).BusyIn .grinding ∧ v.train.grinder = l)
    ⟨(pass_line u).trans hl, hg, h⟩ fun v hv => by
      obtain ⟨hline, hbusy, hv⟩ := hv
      exact ⟨(pass_line v).trans hline, pass_grinds hline hbusy hv hm⟩
  obtain ⟨-, -, hrounds⟩ := hrounds
  exact hgrinder.trans hrounds

theorem settled_scale (hl : u.line = .run) (s : State) {x : Scale} (h : (pass u).scale = x)
    (hx : x.state ∉ [.idle, .complete, .jog false]) :
    (settled s u).scale.state = x.state ∧ (settled s u).scale.net = x.net := by
  obtain ⟨-, -, -, -, hstate, hnet, -⟩ := settled_run hl s
  have hrounds : (rounds u).scale = x := rounds_of_pass (p := fun v => v.scale = x) h fun _ hv => pass_scale hv hx
  rw [hstate, hnet, hrounds]
  exact ⟨rfl, rfl⟩

theorem settled_pulse (hl : u.line = .run) (s : State) (hb : u.bagger.bucket = .jog false)
    (hp : permitsDrawing u = true) : (settled s u).bagger.bucket = .jog true := by
  obtain ⟨-, -, -, -, -, -, hbucket, -⟩ := settled_run hl s
  obtain ⟨hbag, hpermits⟩ := pass_pulses hl rfl (.inl hb) hp
  have hrounds := rounds_of_pass (u := u)
    (p := fun v => v.line = .run ∧ v.bagger.bucket = .jog true ∧ permitsDrawing v = true)
    ⟨(pass_line u).trans hl, by rw [hbag], hpermits⟩ fun v hv => by
      obtain ⟨hline, hv, hpv⟩ := hv
      obtain ⟨hbag, hpermits⟩ := pass_pulses hline rfl (.inr hv) hpv
      exact ⟨(pass_line v).trans hline, by rw [hbag], hpermits⟩
  exact hbucket.trans hrounds.2.1

/-- A discharge of the bucket that the first round has begun has its time in full. -/
theorem settled_empties (hl : u.line = .run) (s : State) {x : Bagger} (h : (pass u).bagger = x)
    (hx : x.bucket.emptying = true) (hd : x.discharge = .stopped) : (settled s u).bagger.bucket = x.bucket
      ∧ (settled s u).bagger.spout = x.spout ∧ (settled s u).bagger.discharge = .running u.params.settleTimeout := by
  obtain ⟨-, -, -, -, -, -, hbucket, hspout, hdischarge⟩ := settled_run hl s
  have hrounds : (rounds u).bagger = x := rounds_of_pass (p := fun v => v.bagger = x) h fun _ hv => pass_empties hv hx
  rw [hbucket, hspout, hdischarge, hrounds, hx, hd]
  exact ⟨rfl, rfl, rfl⟩

end Stands
/-! ### What the first round begins -/

section First
variable {u : State} {b : Batch} (hl : u.line = .run)

theorem gateOpenFor_congr {v : State} (hf : v.fin = u.fin) (hk : v.kept = u.kept) (b : Batch) :
    gateOpenFor b v = gateOpenFor b u := by
  have hconv : v.finConv = u.finConv := congrArg Kept.finConv hk
  unfold gateOpenFor gateOpen
  rw [hf, hconv, params_of_kept hk]

theorem gateOpenFor_pulsed (b : Batch) (u : State) : gateOpenFor b (pulsed u) = gateOpenFor b u :=
  gateOpenFor_congr (pulsed_fin u) (pulsed_kept u) b

theorem unbarStage_pressBatch (i : StageId) (h : u.press.batch = none) : (unbarStage i u).press.batch = none := by
  unfold unbarStage
  dsimp only
  split
  · split <;> cases i
    case h_1.press => exact h
    case h_2.press => rfl
    all_goals exact h
  · exact h

/-- A press that holds no batch is given none by the permissions and the pulses. -/
theorem pulsed_pressBatch (h : u.press.batch = none) : (pulsed u).press.batch = none := by
  have hunbarred : (unbarStages u).press.batch = none :=
    unbarStage_pressBatch .press (unbarStage_pressBatch .mixer (unbarStage_pressBatch .surge h))
  have hpress : stageOf .press (pulsed u) = stageOf .press (unbarStages u) := by
    unfold pulsed
    rw [beginBaggerPulse_stage, beginJogPulse_stage, watchPermission_stage]
  exact (congrArg StageRec.batch hpress).trans hunbarred

/-- What enters the finished bin in the round's part on the line stands at its end. -/
theorem pass_entered {f : FinishedBin} (h : (passLine u).fin = f) (hf : f.entering = true) : (pass u).fin = f := by
  rw [pass_eq, followLoops_fin, passBook_fin (by rw [h, hf]), h]

include hl

/-- R106. -/
theorem pass_beginsGrind (hs : u.surge.state = .done) (hm : u.mixer.state = .empty) :
    stageOf .surge (pass u) = StageRec.busyIn .grinding u.surge.batch (some .mixer)
      ∧ stageOf .mixer (pass u) = StageRec.busyIn .receiving none none := by
  have hsurge : (beginPress (pulsed u)).surge = u.surge :=
    (beginPress_surge _).trans (pulsed_stage .surge (by show u.surge.state ≠ .held; rw [hs]; decide))
  have hmixer : (beginPress (pulsed u)).mixer = u.mixer :=
    (beginPress_mixer _).trans (pulsed_stage .mixer (by show u.mixer.state ≠ .held; rw [hm]; decide))
  have hline : (beginPress (pulsed u)).line = .run := by rw [beginPress_line, pulsed_line, hl]
  have hwaits : beginDischargeMixer (beginPress (pulsed u)) = beginPress (pulsed u) :=
    beginDischargeMixer_waits fun _ _ hd => by
      rw [hmixer, hm] at hd
      cases hd
  rw [pass_stageOf, pass_stageOf, passLine_eq, hwaits, beginGrind_begins (by rw [hsurge, hs]) (by rw [hmixer, hm]) hline,
    hsurge, beginDischarge_waits (.inr (show StageState.busy ≠ .empty by decide))]
  exact ⟨rfl, rfl⟩

/-- R113: the mixer discharges in the first round, where the press does not begin before it. -/
theorem pass_beginsDischarge (hb : u.mixer.batch = some b) (hm : u.mixer.state = .done)
    (hp : u.press.state = .empty ∨ u.press.batch = none) (hf : dischargeFree b (pulsed u) = true) :
    stageOf .mixer (pass u) = StageRec.busyIn .discharging (some b) (some (mixerDest b))
      ∧ stageOf .press (pass u) = (openDischarge b (pulsed u)).press
      ∧ (passLine u).fin = (openDischarge b (pulsed u)).fin := by
  have hmixer : (pulsed u).mixer = u.mixer := pulsed_stage .mixer (by show u.mixer.state ≠ .held; rw [hm]; decide)
  have hwaits : beginPress (pulsed u) = pulsed u := beginPress_waits fun b' hb' hd => by
    rcases hp with hp | hp
    · have hpress : (pulsed u).press = u.press := pulsed_stage .press (by show u.press.state ≠ .held; rw [hp]; decide)
      rw [hpress, hp] at hd
      cases hd
    · rw [pulsed_pressBatch hp] at hb'
      cases hb'
  have hopens : beginDischargeMixer (pulsed u) = openDischarge b (pulsed u) :=
    beginDischargeMixer_begins (by rw [hmixer, hb]) (by rw [hmixer, hm]) (by rw [pulsed_line, hl]) hf
  have hopened := openDischarge_mixer b (pulsed u)
  have hgrind : beginGrind (openDischarge b (pulsed u)) = openDischarge b (pulsed u) :=
    beginGrind_waits (.inr (.inl (by rw [hopened]; nofun)))
  rw [pass_stageOf, pass_stageOf, passLine_eq, hwaits, hopens, hgrind]
  exact ⟨(beginDischarge_mixer _).trans hopened, beginDischarge_press _, beginDischarge_fin _⟩

/-- R115: the press begins in the first round. -/
theorem pass_beginsPress (hb : u.press.batch = some b) (hp : u.press.state = .done)
    (hf : pressesToRework b = true ∨ gateOpenFor b u = true) :
    stageOf .press (pass u)
        = StageRec.busyIn .pressing (some b) (some (if pressesToRework b then .rework else .finished))
      ∧ (pass u).train.steam = u.train.steam.begin (conditioningTarget b u)
      ∧ (pressesToRework b = false → (passLine u).fin = (enterFinished b u).fin) := by
  have hpress : (pulsed u).press = u.press := pulsed_stage .press (by show u.press.state ≠ .held; rw [hp]; decide)
  have hopens : beginPress (pulsed u) = openPress b (pulsed u) := beginPress_begins (by rw [hpress, hb])
    (by rw [hpress, hp]) (by rw [pulsed_line, hl]) (by rw [gateOpenFor_pulsed]; exact hf)
  have hopened := openPress_press b (pulsed u)
  have htarget : conditioningTarget b (pulsed u) = conditioningTarget b u := by
    unfold conditioningTarget
    rw [params_of_kept (pulsed_kept u)]
  refine ⟨?_, ?_, fun hr => ?_⟩
  · have hdischarge : stageOf .press (beginDischargeMixer (openPress b (pulsed u))) = stageOf .press (openPress b (pulsed u)) :=
      beginDischargeMixer_busy .press (by show (openPress b (pulsed u)).press.state = .busy; rw [hopened]; rfl)
    rw [pass_stageOf, passLine_eq, hopens]
    exact (beginDischarge_press _).trans ((beginGrind_press _).trans (hdischarge.trans hopened))
  · rw [pass_steam, hopens, openPress_steam, pulsed_steam, htarget]
  · have hfin : (openPress b (pulsed u)).fin = (enterFinished b u).fin := by
      rw [openPress_fin, hr]
      unfold enterFinished
      rw [pulsed_fin]
      rfl
    rw [passLine_eq, hopens, beginDischarge_fin, beginGrind_fin, beginDischargeMixer_fin (by rw [hfin]; rfl), hfin]

/-- R81: the scale's discharge begins in the first round. -/
theorem pass_beginsScale (hc : u.scale.state = .complete) (hs : u.surge.state = .empty) :
    (pass u).scale = { u.scale with state := .discharge, net := netMass u }
      ∧ stageOf .surge (pass u) = StageRec.busyIn .receiving none none := by
  have hscale : (transferred u).scale = u.scale := by
    rw [transferred_scale, pulsed_scale, if_neg fun hj => by cases hc.symm.trans hj.1]
  have hsurge : (beginDischargeMixer (beginPress (pulsed u))).surge = u.surge := by
    rw [beginDischargeMixer_surge, beginPress_surge]
    exact pulsed_stage .surge (by show u.surge.state ≠ .held; rw [hs]; decide)
  have hgrind : transferred u = beginDischargeMixer (beginPress (pulsed u)) :=
    beginGrind_waits (.inl (by rw [hsurge, hs]; decide))
  have hline : (transferred u).line = .run := by
    rw [hgrind, beginDischargeMixer_line, beginPress_line, pulsed_line, hl]
  have hkept : (transferred u).kept = u.kept := by
    rw [hgrind, beginDischargeMixer_kept, beginPress_kept, pulsed_kept]
  have hconv : (transferred u).scaleConv = u.scaleConv := scaleConv_of_kept hkept
  have hnet : netMass (transferred u) = netMass u := by
    unfold netMass
    rw [hscale, hconv]
  have hbegins := beginDischarge_begins (s := transferred u) (by rw [hscale, hc]) hline (by rw [hgrind, hsurge, hs])
  have hlast : (passLine u).scale = { u.scale with state := .discharge, net := netMass u } := by
    rw [passLine_transferred, hbegins, hscale, hnet]
  refine ⟨(pass_scale_of (by rw [hlast]; show ScaleState.discharge ≠ .idle; decide)).trans hlast, ?_⟩
  rw [pass_stageOf, passLine_transferred, hbegins]
  rfl

/-- R71: a pulse that is pending begins in the first round. -/
theorem pass_beginsJog (hj : u.scale.state = .jog false) : (pass u).scale = { u.scale with state := .jog true } := by
  have hscale : (transferred u).scale = { u.scale with state := .jog true } := by
    rw [transferred_scale, pulsed_scale, if_pos ⟨hj, hl⟩]
  have hlast : (passLine u).scale = { u.scale with state := .jog true } := by
    rw [passLine_transferred, beginDischarge_waits (.inl ?_), hscale]
    rw [hscale]
    show ScaleState.jog true ≠ .complete
    decide
  exact (pass_scale_of (by rw [hlast]; show ScaleState.jog true ≠ .idle; decide)).trans hlast

/-- R149, R150: what the bucket's discharge finds in the first round. -/
theorem booked_passLine (hb : u.bagger.bucket = .charged ∨ u.bagger.bucket = .unknown false) :
    (booked (passLine u)).bagger = u.bagger ∧ (booked (passLine u)).line = .run := by
  rw [booked_bagger, booked_line, passLine_line]
  exact ⟨passLine_bagger_undrawn (by rcases hb with hb | hb <;> rw [hb] <;> decide), hl⟩

theorem pass_beginsBag {c : Charge} (hb : u.bagger.bucket = .charged) (hc : u.bagger.charge = some c)
    (ho : c.outlet = .bag) (hs : u.bagger.spout = .ready) : (pass u).bagger
      = { u.bagger with bucket := .discharging, spout := .receiving, discharge := .stopped } := by
  obtain ⟨hbag, hline⟩ := booked_passLine hl (.inl hb)
  refine (pass_bagger_of ?_ (show Bucket.discharging ≠ .empty by decide)).1
  rw [beginBucketDischarge_bag hline (by rw [hbag, hb]) (by rw [hbag, hc]) ho (by rw [hbag, hs]), hbag]

theorem pass_beginsChute {c : Charge} (hb : u.bagger.bucket = .charged) (hc : u.bagger.charge = some c)
    (ho : c.outlet = .chute) : (pass u).bagger = { u.bagger with bucket := .discharging, discharge := .stopped } := by
  obtain ⟨hbag, hline⟩ := booked_passLine hl (.inl hb)
  refine (pass_bagger_of ?_ (show Bucket.discharging ≠ .empty by decide)).1
  rw [beginBucketDischarge_chute hline (by rw [hbag, hb]) (by rw [hbag, hc]) ho, hbag]

theorem pass_beginsUnknown (hb : u.bagger.bucket = .unknown false) :
    (pass u).bagger = { u.bagger with bucket := .unknown true, discharge := .stopped } := by
  obtain ⟨hbag, hline⟩ := booked_passLine hl (.inr hb)
  refine (pass_bagger_of ?_ (show Bucket.unknown true ≠ .empty by decide)).1
  rw [beginBucketDischarge_unknown hline (by rw [hbag, hb]), hbag]

end First

/-- R81: the net mass, from the first tare on. -/
theorem netMass_cast {u : State} {b : ScaleBatch} {m w : Int} (hb : u.scale.batch = some b) (hm : b.firstTare = some m)
    (hw : u.scaleConv.weight = some w) : (netMass u : Int) = max 0 (min 16777215 (w - m)) := by
  have hnet : netMass u = satMass (w - m).toNat := by
    unfold netMass
    rw [hb, hw]
    dsimp only
    rw [hm]
  rw [hnet, satMass_eq]
  omega

/-! ### The transfers at the close of the event -/

section Closed
variable {u : State} {b : Batch} (hl : u.line = .run) (s : State)
include hl

theorem settled_grinds (hs : u.surge.state = .done) (hm : u.mixer.state = .empty) :
    (settled s u).surge = StageRec.busyIn .grinding u.surge.batch (some .mixer)
      ∧ (settled s u).mixer = StageRec.busyIn .receiving none none
      ∧ (u.train.grinder.mode = .idle → (settled s u).train.grinder.mode = .running
          ∧ (settled s u).train.grinder.speed = u.params.grinder.startSpeed) := by
  obtain ⟨hsurge, hmixer⟩ := pass_beginsGrind hl hs hm
  refine ⟨settled_stageOf hl s hsurge rfl, settled_stageOf hl s hmixer rfl, fun hi => ?_⟩
  have hlast : (stageOf .surge (passLine u)).BusyIn .grinding := by
    rw [← pass_stageOf, hsurge]
    exact ⟨rfl, rfl⟩
  have hgrind : (stageOf .surge (pass u)).BusyIn .grinding := by
    rw [hsurge]
    exact ⟨rfl, rfl⟩
  have hgrinder := pass_grinder (by show u.surge.state ≠ .held; rw [hs]; decide) hlast hl
  have hstart : u.train.grinder.start u.params.grinder
      = { u.train.grinder with mode := .running, speed := u.params.grinder.startSpeed } := if_pos hi
  rw [hstart] at hgrinder
  rw [settled_grinder hl s hgrind hgrinder rfl]
  exact ⟨rfl, rfl⟩

theorem settled_discharges (hb : u.mixer.batch = some b) (hm : u.mixer.state = .done) :
    (mixerDest b = .press → u.press.state = .empty →
        (settled s u).mixer = StageRec.busyIn .discharging (some b) (some .press)
        ∧ (settled s u).press = StageRec.busyIn .receiving none none)
      ∧ (mixerDest b = .rework → u.press.batch = none →
        (settled s u).mixer = StageRec.busyIn .discharging (some b) (some .rework))
      ∧ (mixerDest b = .finished → u.press.batch = none → gateOpenFor b u = true →
        (settled s u).mixer = StageRec.busyIn .discharging (some b) (some .finished) ∧ (settled s u).fin.entering = true
        ∧ (settled s u).fin.order = (if u.fin.order.isSome then u.fin.order else b.order)) := by
  refine ⟨fun hd hp => ?_, fun hd hp => ?_, fun hd hp hg => ?_⟩
  · have hpress : (pulsed u).press = u.press := pulsed_stage .press (by show u.press.state ≠ .held; rw [hp]; decide)
    obtain ⟨hmixer, hopened, -⟩ := pass_beginsDischarge hl hb hm (.inl hp)
      ((dischargeFree_press hd).2 (by rw [hpress, hp]))
    rw [hd] at hmixer
    rw [openDischarge_to_press hd] at hopened
    exact ⟨settled_stageOf hl s hmixer rfl, settled_stageOf hl s hopened rfl⟩
  · obtain ⟨hmixer, -, -⟩ := pass_beginsDischarge hl hb hm (.inr hp) ((dischargeFree_rework hd).2 (pulsed_pressBatch hp))
    rw [hd] at hmixer
    exact settled_stageOf hl s hmixer rfl
  · obtain ⟨hmixer, -, hfin⟩ := pass_beginsDischarge hl hb hm (.inr hp)
      ((dischargeFree_finished hd).2 ⟨pulsed_pressBatch hp, by rw [gateOpenFor_pulsed, hg]⟩)
    rw [hd] at hmixer
    rw [openDischarge_fin, if_pos hd] at hfin
    refine ⟨settled_stageOf hl s hmixer rfl, ?_⟩
    rw [settled_fin hl s (pass_entered hfin rfl) rfl]
    unfold enterFinished
    rw [pulsed_fin]
    exact ⟨rfl, rfl⟩

theorem settled_presses (hb : u.press.batch = some b) (hp : u.press.state = .done) :
    (b.kind = .flush ∨ b.rework = true → (settled s u).press = StageRec.busyIn .pressing (some b) (some .rework))
      ∧ (b.kind ≠ .flush → b.rework = false → gateOpenFor b u = true →
        (settled s u).press = StageRec.busyIn .pressing (some b) (some .finished) ∧ (settled s u).fin.entering = true
        ∧ (settled s u).fin.order = (if u.fin.order.isSome then u.fin.order else b.order))
      ∧ (b.kind = .flush ∨ b.rework = true ∨ gateOpenFor b u = true → (settled s u).train.steam.running = true
        ∧ (settled s u).train.steam.target
            = some (if b.kind = .flush then u.params.flushTemperature else b.target.getD 0)) := by
  refine ⟨fun hr => ?_, fun hk hr hg => ?_, fun h => ?_⟩
  · have hr := (pressesToRework_iff b).2 hr
    obtain ⟨hpress, -, -⟩ := pass_beginsPress hl hb hp (.inl hr)
    rw [hr] at hpress
    exact settled_stageOf hl s hpress rfl
  · have hr : pressesToRework b = false := by simp [pressesToRework, hk, hr]
    obtain ⟨hpress, -, hfin⟩ := pass_beginsPress hl hb hp (.inr hg)
    rw [hr] at hpress
    refine ⟨settled_stageOf hl s hpress rfl, ?_⟩
    rw [settled_fin hl s (pass_entered (hfin hr) rfl) rfl]
    exact ⟨rfl, rfl⟩
  · rw [← or_assoc, ← pressesToRework_iff] at h
    obtain ⟨hpress, hsteam, -⟩ := pass_beginsPress hl hb hp h
    have hbusy : (stageOf .press (pass u)).state = .busy := by rw [hpress]; rfl
    rw [settled_steam hl s hbusy, hsteam]
    refine ⟨rfl, congrArg some ?_⟩
    unfold conditioningTarget
    cases b.kind <;> rfl

theorem settled_beginsBucket {c : Charge} (hb : u.bagger.bucket = .charged) (hc : u.bagger.charge = some c) :
    (c.outlet = .bag → u.bagger.spout = .ready → (settled s u).bagger.bucket = .discharging
        ∧ (settled s u).bagger.spout = .receiving ∧ (settled s u).bagger.discharge = .running u.params.settleTimeout)
      ∧ (c.outlet = .chute → (settled s u).bagger.bucket = .discharging ∧ (settled s u).bagger.spout = u.bagger.spout
        ∧ (settled s u).bagger.discharge = .running u.params.settleTimeout) :=
  ⟨fun ho hs => settled_empties hl s (pass_beginsBag hl hb hc ho hs) rfl rfl,
    fun ho => settled_empties hl s (pass_beginsChute hl hb hc ho) rfl rfl⟩

end Closed

/-- Settles O50: each begin by its conditions; at the close of an event, the first round begins it and the later ones let it
stand. -/
theorem workBeginsWhenFree : Obligations.WorkBeginsWhenFree := by
  refine ⟨fun s => ⟨fun hs hm hl => ?_, beginGrind_waits, fun b hb hm hl => ?_, fun b hb hp hl => beginPress_cases hb hp hl,
    fun b id h => gateOpenFor_iff h⟩, fun s u t hl ht => ?_⟩
  · rw [beginGrind_begins hs hm hl]
    exact ⟨rfl, rfl⟩
  · dsimp only
    rw [← mixerDest_eq]
    exact beginDischargeMixer_cases hb hm hl
  · subst ht
    refine ⟨settled_grinds hl s, fun b hb hm => settled_discharges hl s hb hm, fun b hb hp => settled_presses hl s hb hp,
      fun hc hs => ?_, fun hj => ?_, settled_pulse hl s, fun c hb hc => settled_beginsBucket hl s hb hc, fun hb => ?_,
      fun b m w => netMass_cast⟩
    · obtain ⟨hscale, hsurge⟩ := pass_beginsScale hl hc hs
      obtain ⟨hstate, hnet⟩ := settled_scale hl s hscale (show ScaleState.discharge ∉ _ by decide)
      exact ⟨hstate, hnet, settled_stageOf hl s hsurge rfl⟩
    · exact (settled_scale hl s (pass_beginsJog hl hj) (show ScaleState.jog true ∉ _ by decide)).1
    · obtain ⟨hbucket, -, hdischarge⟩ := settled_empties hl s (pass_beginsUnknown hl hb) rfl rfl
      exact ⟨hbucket, hdischarge⟩

end Sys2Proof.Machine
end
